-- ==== Sys2Proof/Word.lean ====
section
/-! DEFINITION. The word types the manual treats as bits (00 R10, 02 R25, R35, R36, R44, 08 R196). -/

namespace Sys2Proof

/-- A 64-bit scalar register value (02 R35). -/
abbrev Word := BitVec 64

/-- One byte of memory. -/
abbrev Byte := BitVec 8

/-- A lane word: one instruction of one slot (02 R25, 04 R74). -/
abbrev LaneWord := BitVec 128

/-- A bundle of four lane words, lane 0 lowest (02 R25). -/
abbrev Bundle := BitVec 512

/-- The byte view of a vector register: container e is bits 32e+31..32e (02 R36). -/
abbrev VReg := BitVec 32768

/-- One entry of the mask stack, bit c for container c (02 R42). -/
abbrev Mask := BitVec 1024

/-- An accumulator of 128 x 128 FP32 values, element (i, j) at index 128 i + j (02 R44). -/
abbrev Acc := BitVec 524288

/-- The data of a tile line, at most 64 granules of 512 bytes (08 R197, R198). -/
abbrev LineData := BitVec 262144

/-- A 64-byte record or barrier or queue entry as one number (06 R144, 09 R229, 15 R320). -/
abbrev Rec64 := BitVec 512

/-- A 128-byte tensor-table entry or kernel descriptor (08 R196, 13 R296). -/
abbrev Rec128 := BitVec 1024

end Sys2Proof
end

