-- ==== Sys2Proof/Syntax.lean ====
section
/-! DEFINITION. The instructions and operations of the part, one constructor per row of the opcode table.

Rows 0 to 149 of the table are lane words (04 R74 to R98): each constructor holds the common head and the operands of its
form. The other rows are operations and events of the part (spec/95): each constructor names the object it acts on and, where
the manual leaves a choice to the hardware, the choice taken. -/

namespace Sys2Proof

/-- The four issue slots (02 R25). -/
inductive Slot
  | c | a | v | m
  deriving DecidableEq, Repr, Inhabited

/-- The fourteen format codes 0x0 to 0xD (03 R52). -/
inductive Fmt
  | f32 | bf16 | e4m3 | e5m2 | i8 | i16 | i32 | i64 | n8 | n16 | n32 | n64 | q4 | q6
  deriving DecidableEq, Repr

/-- The rounding modes (03 R53). -/
inductive Rm
  | rne | rz | ru | rd
  deriving DecidableEq, Repr

/-- The cache hints of CH (04 R77). -/
inductive Hint
  | none | pin | last | stream | itin
  deriving DecidableEq, Repr

/-- The names of the 11-bit name space (04 R87). -/
inductive Name
  | s (n : Fin 64)
  | v (n : Fin 1536)
  | q (n : Fin 32)
  | k (n : Fin 16)
  | p (n : Fin 16)
  | z (n : Fin 8)
  | d (n : Fin 8)
  | zero | one | ones | row | col | idx
  deriving DecidableEq, Repr

/-- An operand field: a name, its last-use bit (04 R80) and its PEEK bit where the format has one (04 R81, R82). -/
structure Operand where
  name : Name
  last : Bool := false
  peek : Bool := false
  deriving DecidableEq, Repr

/-- The common fields of every lane word but FMT and OPC (04 R74). An index whose enable is 0 must be 0 (R76, R78), so a
disabled field is none. -/
structure Head where
  sy    : Bool := false
  gs    : Fin 16 := 15
  gsInv : Bool := false
  gk    : Option (Fin 16) := Option.none
  ch    : Hint := .none
  sbs   : Option (Fin 8) := Option.none
  sbw   : BitVec 8 := 0
  qx    : Option (Fin 8) := Option.none
  deriving DecidableEq, Repr

/-- The last source of a form listed with both F0 and F1: a register or an immediate (04 R90). -/
inductive Src2
  | reg (o : Operand)
  | imm (i : BitVec 32)
  deriving DecidableEq, Repr

/-- The branch conditions of CC (04 R83). -/
inductive Cc
  | nz | z | neg | nneg
  deriving DecidableEq, Repr

/-- The compare conditions (05 R112). -/
inductive Cond
  | eq | ne | lt | le | gt | ge
  deriving DecidableEq, Repr

/-- How CMP joins its result into the predicate (05 R112). -/
inductive Join
  | set | and | or
  deriving DecidableEq, Repr

/-- The agent scopes (04 R84, 10 R245). -/
inductive Scope
  | slot | group | die | device | package | fabric
  deriving DecidableEq, Repr

/-- The ordering of an access (04 R84). -/
inductive Ord
  | rlx | acq | rel | ar
  deriving DecidableEq, Repr

/-- The storage scope bits L, G, P, T (04 R84). -/
structure Ssc where
  l : Bool := false
  g : Bool := false
  p : Bool := false
  t : Bool := false
  deriving DecidableEq, Repr

/-- The type of a scalar instruction: .i64 or .n64 (04 R90). -/
inductive STy
  | i64 | n64
  deriving DecidableEq, Repr

/-- The operations of an atomic (06 R138, 17 R368). -/
inductive AOp
  | add | min | max | and | or | xor | xchg | cas | fadd
  deriving DecidableEq, Repr

/-- The kinds a BARINIT may give (15 R323). -/
inductive BarKind
  | group | count
  deriving DecidableEq, Repr

/-- The views of VMOV (07 R178). -/
inductive View
  | cont | w8 | w16 | w6
  deriving DecidableEq, Repr

/-- The element widths of a compact predicate (02 R41). -/
inductive KWidth
  | cont | w6 | w8 | w16 | w32
  deriving DecidableEq, Repr

/-- The operators of VREDR and VREDC (07 R188). -/
inductive RedOp
  | add | min | max
  deriving DecidableEq, Repr

/-- The term counters MTERM selects (09 R240). -/
inductive TermSel
  | trmis | trmzs | trmsy | trmdr | trmrp | trmst
  deriving DecidableEq, Repr

/-! ### Operand shapes of the lane words -/

/-- Scalar binary operation (05 R110). -/
structure SBin where
  ty : STy
  d  : Operand
  a  : Operand
  b  : Src2
  deriving DecidableEq, Repr

/-- Scalar unary operation and MOV (05 R110, R111). -/
structure SUn where
  ty : STy
  d  : Operand
  a  : Operand
  deriving DecidableEq, Repr

/-- SEL (05 R111). -/
structure SSel where
  ty : STy
  d  : Operand
  a  : Operand
  b  : Operand
  p  : Operand
  deriving DecidableEq, Repr

/-- MOVI, low or high form (05 R111). -/
structure SImm where
  ty  : STy
  d   : Operand
  imm : BitVec 32
  deriving DecidableEq, Repr

/-- CMP (05 R112). -/
structure SCmp where
  ty   : STy
  d    : Operand
  a    : Operand
  b    : Src2
  cond : Cond
  join : Join
  deriving DecidableEq, Repr

/-- BR (05 R113). -/
structure BrOp where
  src  : Operand
  disp : BitVec 32
  cc   : Cc
  deriving DecidableEq, Repr

/-- BRX (05 R113). -/
structure BrxOp where
  tgt : Operand
  src : Operand
  cc  : Cc
  deriving DecidableEq, Repr

/-- CALL and LPSET: one operand and a displacement (05 R113, R116). -/
structure RegDisp where
  r    : Operand
  disp : BitVec 32
  deriving DecidableEq, Repr

/-- QCNT (05 R119). -/
structure QCntOp where
  d : Operand
  q : Operand
  deriving DecidableEq, Repr

/-- TIDWR (05 R120). -/
structure TidWrOp where
  idx  : Operand
  base : BitVec 12
  w    : BitVec 4
  val  : Operand
  deriving DecidableEq, Repr

/-- TIDRD (05 R120). -/
structure TidRdOp where
  d    : Operand
  idx  : Operand
  base : BitVec 12
  w    : BitVec 4
  deriving DecidableEq, Repr

/-- RDSYS and register WRSYS: an operand and a system register number (05 R122). -/
structure SysOp where
  r   : Operand
  sys : BitVec 12
  deriving DecidableEq, Repr

/-- Immediate WRSYS (05 R122). -/
structure SysImm where
  sys : BitVec 12
  imm : BitVec 32
  deriving DecidableEq, Repr

/-- TRAP (05 R125). -/
structure TrapOp where
  src  : Operand
  code : BitVec 16
  deriving DecidableEq, Repr

/-- The handle address and scope fields of an F3 access (04 R84). -/
structure Addr where
  fa  : Operand
  hdl : BitVec 12
  off : BitVec 20
  deriving DecidableEq, Repr

/-- ASC, SSC and ORD (04 R84). -/
structure Order where
  asc : Scope
  ssc : Ssc
  ord : Ord
  deriving DecidableEq, Repr

/-- LD, LDL (06 R135). For LDL the handle is 0. -/
structure LdOp where
  ty : Fmt
  d  : Operand
  ad : Addr
  o  : Order
  deriving DecidableEq, Repr

/-- ST, STL (06 R135). -/
structure StOp where
  ty : Fmt
  b  : Operand
  ad : Addr
  o  : Order
  deriving DecidableEq, Repr

/-- LDQ and STQ, handle and local forms: the queue register and the address (06 R136). -/
structure QMemOp where
  q  : Operand
  ad : Addr
  o  : Order
  deriving DecidableEq, Repr

/-- The A-slot atomics (06 R137). In the posted form there is no destination. -/
structure AtOp where
  ty : Fmt
  d  : Option Operand
  b  : Operand
  ad : Addr
  o  : Order
  deriving DecidableEq, Repr

/-- FENCE (06 R141). -/
structure FenceOp where
  o       : Order
  engines : Bool
  deriving DecidableEq, Repr

/-- A command that issues a record: CPIN CPOUT GATH SCAT MREC MCONV MZST MZLD (06 R143, 09 R237). -/
structure RecOp where
  b0   : Operand
  b1   : Operand
  b2   : Operand
  b3   : Operand
  idx  : BitVec 12
  push : Option (Fin 8)
  deriving DecidableEq, Repr

/-- MSEND (06 R155). -/
structure MSendOp where
  d   : Operand
  dst : Operand
  src : Operand
  len : BitVec 20
  deriving DecidableEq, Repr

/-- RGET, peek or pop (06 R156). -/
structure RGetOp where
  d    : Operand
  ring : BitVec 4
  deriving DecidableEq, Repr

/-- RWAIT (06 R157). -/
structure RWaitOp where
  d    : Operand
  ring : BitVec 4
  cnt  : Operand
  deriving DecidableEq, Repr

/-- FWR (17 R367). -/
structure FwrOp where
  len  : Operand
  src  : Operand
  ad   : Addr
  o    : Order
  push : Option (Fin 8)
  deriving DecidableEq, Repr

/-- FREQ (17 R369): relaxed with no scope, or release with one. -/
structure FreqOp where
  d    : Operand
  dst  : Operand
  src  : Operand
  len  : BitVec 20
  rel  : Option (Scope × Ssc)
  push : Option (Fin 8)
  deriving DecidableEq, Repr

/-- FATOM (17 R368); no destination in the posted form. -/
structure FatomOp where
  ty : Fmt
  op : AOp
  d  : Option Operand
  b  : Operand
  ad : Addr
  o  : Order
  deriving DecidableEq, Repr

/-- LZOFFER (18 R380). -/
structure LzOfferOp where
  zone : BitVec 4
  j    : Operand
  b    : Operand
  deriving DecidableEq, Repr

/-- LZGRANT (18 R380). -/
structure LzGrantOp where
  d    : Operand
  zone : BitVec 4
  j    : Operand
  w    : Operand
  rel  : Option (Scope × Ssc)
  deriving DecidableEq, Repr

/-- LZPUT (18 R380). -/
structure LzPutOp where
  d    : Operand
  g    : Operand
  off  : BitVec 20
  src  : Operand
  o    : Order
  push : Option (Fin 8)
  deriving DecidableEq, Repr

/-- LZADOPT (18 R380). -/
structure LzAdoptOp where
  t    : BitVec 12
  ed   : Operand
  c    : Operand
  zone : BitVec 4
  j    : Operand
  deriving DecidableEq, Repr

/-- LZFREE (18 R380). -/
structure LzFreeOp where
  zone : BitVec 4
  j    : Operand
  deriving DecidableEq, Repr

/-- LZSTAT (18 R380). -/
structure LzStatOp where
  d    : Operand
  zone : BitVec 4
  j    : Operand
  ssc  : Ssc
  acq  : Bool
  deriving DecidableEq, Repr

/-- BARINIT (15 R323). -/
structure BarInitOp where
  d     : Operand
  t     : Operand
  kind  : BarKind
  rearm : Bool
  ad    : Addr
  o     : Order
  deriving DecidableEq, Repr

/-- BARARV (15 R323): the result register under RES, the weight, PCHK and PEXP. -/
structure BarArvOp where
  d    : Option Operand
  w    : Operand
  pchk : Bool
  pexp : Bool
  ad   : Addr
  o    : Order
  deriving DecidableEq, Repr

/-- BARWAIT (15 R323). -/
structure BarWaitOp where
  d   : Operand
  ph  : Operand
  loc : Bool
  ad  : Addr
  o   : Order
  deriving DecidableEq, Repr

/-- BARTST (15 R323). -/
structure BarTstOp where
  d   : Operand
  loc : Bool
  ad  : Addr
  o   : Order
  deriving DecidableEq, Repr

/-- PGPF (16 R343). -/
structure PgpfOp where
  d  : Operand
  ad : Addr
  o  : Order
  deriving DecidableEq, Repr

/-- PGIN (16 R343). -/
structure PginOp where
  d  : Operand
  n  : Operand
  ad : Addr
  o  : Order
  deriving DecidableEq, Repr

/-- LAUNCH (12 R291): SUB bits 3..1 hold the completion scope, and 0 stands for the default. -/
structure LaunchOp where
  d     : Operand
  q     : Operand
  ad    : Addr
  pre   : Bool
  done  : BitVec 3
  o     : Order
  deriving DecidableEq, Repr

/-- QENTRY (12 R291). -/
structure QEntryOp where
  d   : Operand
  q   : Operand
  fa  : Operand
  off : BitVec 20
  o   : Order
  deriving DecidableEq, Repr

/-- A vector binary operation, F0 or F1 (07 R166, R170). -/
structure VBin where
  ty  : Fmt
  rm  : Rm
  sat : Bool
  d   : Operand
  a   : Operand
  b   : Src2
  deriving DecidableEq, Repr

/-- VFMA, VFMS (07 R166). -/
structure VTern where
  ty : Fmt
  rm : Rm
  d  : Operand
  a  : Operand
  b  : Operand
  c  : Operand
  deriving DecidableEq, Repr

/-- A vector unary operation (07 R166, R170). -/
structure VUn where
  ty  : Fmt
  rm  : Rm
  sat : Bool
  d   : Operand
  a   : Operand
  deriving DecidableEq, Repr

/-- VCMP (07 R171). -/
structure VCmpOp where
  ty   : Fmt
  cond : Cond
  d    : Operand
  a    : Operand
  b    : Src2
  deriving DecidableEq, Repr

/-- VSEL (07 R172). -/
structure VSelOp where
  d   : Operand
  a   : Operand
  b   : Operand
  sel : Operand
  deriving DecidableEq, Repr

/-- MPUSH (07 R173). -/
structure MPushOp where
  ty   : Fmt
  cond : Cond
  a    : Operand
  b    : Operand
  deriving DecidableEq, Repr

/-- KSET (07 R176); LEN is 1 to 6. -/
structure KSetOp where
  k     : Operand
  src   : Operand
  imm   : BitVec 32
  width : KWidth
  len   : BitVec 3
  deriving DecidableEq, Repr

/-- KGET (07 R177). -/
structure KGetOp where
  d : Operand
  k : Operand
  deriving DecidableEq, Repr

/-- VMOV (07 R178). -/
structure VMovOp where
  d    : Operand
  a    : Operand
  view : View
  deriving DecidableEq, Repr

/-- VINS (07 R179). -/
structure VInsOp where
  d   : Operand
  a   : Operand
  idx : Operand
  val : Operand
  deriving DecidableEq, Repr

/-- VEXT (07 R180). -/
structure VExtOp where
  d   : Operand
  a   : Operand
  idx : Operand
  sx  : Bool
  deriving DecidableEq, Repr

/-- VCVT (07 R181): destination and source formats, half, rounding mode. -/
structure VCvtOp where
  ty   : Fmt
  src  : Fmt
  half : Bool
  rm   : Rm
  d    : Operand
  a    : Operand
  deriving DecidableEq, Repr

/-- VPACK4, VPACK6 (07 R182). -/
structure VPackOp where
  d    : Operand
  a    : Operand
  part : BitVec 3
  deriving DecidableEq, Repr

/-- VUNPACK4, VUNPACK6 (07 R183). -/
structure VUnpackOp where
  d    : Operand
  a    : Operand
  part : BitVec 3
  sx   : Bool
  deriving DecidableEq, Repr

/-- VQNT (07 R185). -/
structure VQntOp where
  ty    : Fmt
  rm    : Rm
  d     : Operand
  a     : Operand
  scale : Option Operand
  bt    : BitVec 2
  deriving DecidableEq, Repr

/-- VDEQ (07 R186). -/
structure VDeqOp where
  ty : Fmt
  d  : Operand
  a  : Operand
  deriving DecidableEq, Repr

/-- VROTR VROTC VBCR VBCC (07 R187). -/
structure VRotOp where
  d : Operand
  a : Operand
  s : Src2
  deriving DecidableEq, Repr

/-- VREDR, VREDC (07 R188). -/
structure VRedOp where
  ty  : Fmt
  rm  : Rm
  op  : RedOp
  sat : Bool
  d   : Operand
  a   : Operand
  deriving DecidableEq, Repr

/-- VTRN (07 R189). -/
structure VTrnOp where
  d : Operand
  a : Operand
  deriving DecidableEq, Repr

/-- VZRD, VZWR (07 R190): the written and the read operand, and the part. -/
structure VZOp where
  d    : Operand
  a    : Operand
  part : BitVec 4
  deriving DecidableEq, Repr

/-- TRD, TWR (07 R192): the vector operand, the tensor, the coordinates and the segment. -/
structure TileVOp where
  r   : Operand
  t   : BitVec 12
  c0  : Operand
  c1  : Operand
  c2  : Operand
  c3  : Operand
  seg : BitVec 3
  deriving DecidableEq, Repr

/-- An M-slot tile instruction (08 R213): the tensor, the coordinates or ALL, the agent scope where it has one. -/
structure TileOp where
  t    : BitVec 12
  c0   : Operand
  c1   : Operand
  c2   : Operand
  c3   : Operand
  all  : Bool
  asc  : Option Scope
  push : Option (Fin 8)
  deriving DecidableEq, Repr

/-- TPF with hint=itin (08 R214): the local-store offset and the number of entries. -/
structure TpfItinOp where
  t    : BitVec 12
  off  : Operand
  n    : Operand
  push : Option (Fin 8)
  deriving DecidableEq, Repr

/-- TEDACQ (08 R219). -/
structure TEdAcqOp where
  t      : BitVec 12
  w      : Operand
  d      : Operand
  nowait : Bool
  asc    : Scope
  push   : Option (Fin 8)
  deriving DecidableEq, Repr

/-- MZCLR (09 R239). -/
structure MzClrOp where
  z   : Operand
  inv : Bool
  deriving DecidableEq, Repr

/-- MTERM (09 R240). -/
structure MTermOp where
  d   : Operand
  sel : TermSel
  clr : Bool
  deriving DecidableEq, Repr

/-! ### The objects and choices an event names -/

/-- A core: its C-die and its index on the die (05 R123). -/
structure CoreId where
  die  : Fin 4
  core : Fin 96
  deriving DecidableEq, Repr, Inhabited

/-- A part of the package that holds a resident configuration plane, or a chiplet (01 R23, 17 R348). -/
inductive Chip
  | cdie (n : Fin 4)
  | sdie (n : Fin 4)
  | idie
  deriving DecidableEq, Repr

/-- A pseudo-channel of an HBM4 stack: die, stack of the die, channel, half (01 R15, R24). -/
structure PseudoChan where
  die   : Fin 4
  stack : Fin 2
  chan  : Fin 32
  half  : Fin 2
  deriving DecidableEq, Repr

/-- An operation record of a frame (17 R362). -/
structure OpRecord where
  op      : BitVec 8
  fl      : BitVec 8
  stag    : BitVec 16
  sseq    : BitVec 32
  pa      : BitVec 64
  len     : BitVec 16
  aop     : BitVec 8
  ty      : BitVec 8
  rtag    : BitVec 32
  payload : List Byte
  deriving DecidableEq, Repr

/-- A frame as a link end receives it (17 R361). The verdicts of the FCS and of the GCM tag are computed by the receiver over
bits the model does not hold, so the frame carries them. `reportL` is what a control record reports of the old key (R354). -/
structure Frame where
  link    : BitVec 11
  ddev    : BitVec 16
  dest    : BitVec 16
  sdev    : BitVec 16
  ki      : Bool
  fn      : BitVec 48
  fcsOk   : Bool
  tagOk   : Bool
  reportL : Option (BitVec 48)
  records : List OpRecord
  deriving DecidableEq, Repr

/-- A counter that the management processor keeps: corrected and uncorrectable errors of a die's scrub (16 R340), lines poisoned by forced
resets (17 R359), waits for the self-refresh of a pseudo-channel (01 R24), and crossings of a die's ageing threshold (01 R22). -/
inductive MgmtCounter
  | scrce (die : Fin 4)
  | scrue (die : Fin 4)
  | dlpois
  | waits (pc : PseudoChan)
  | crossings (c : Chip)
  deriving DecidableEq, Repr

/-- A host access over the host link: a read of device memory; plain bytes written to a system structure; bytes written under a key
slot of a context and stamped with a version, in rewrite mode or not (12 R285, 04 R105); a command record posted in the mailbox (11 R271);
zero written to a management counter (00 R8); or an ageing threshold configured (01 R22). -/
inductive HostAccess
  | read (pa : BitVec 52) (n : Nat)
  | write (pa : BitVec 52) (bytes : List Byte)
  | writeKeyed (pa : BitVec 52) (bytes : List Byte) (ctx : BitVec 10) (key : Fin 16) (wv : BitVec 32) (rewrite : Bool)
  | mail (rec : Rec64)
  | clear (x : MgmtCounter)
  | threshold (c : Chip) (days : Nat)
  deriving DecidableEq, Repr

/-- Why a group is pre-empted (14 R315). -/
inductive PreemptCause
  | launch | yield | suspend | dieReset
  deriving DecidableEq, Repr

/-- What FABRIC_OUT_RECORD_SEND sends from: engine queue e4, or one part of an A-slot access through a peer leaf (17 R362). -/
inductive OutSrc
  | e4
  | access (id : Nat) (part : Nat)
  | msg (id : Nat)
  deriving DecidableEq, Repr

/-- How a slice serves a request, where the manual leaves it to the hardware: `useCopy` from a shared copy on the reading die
(10 R250), `keepCopy` keeping a shared copy after it (R248), `evict` another line written back and dropped first. -/
structure SliceChoice where
  useCopy  : Bool := false
  keepCopy : Bool := false
  evict    : Option Nat := none
  deriving DecidableEq, Repr

/-- An end of a link: the end that its record describes, or the far end of a die link, which lies in the package too (17 R351, R356). -/
structure LinkSide where
  link : BitVec 11
  far  : Bool
  deriving DecidableEq, Repr

/-- What an SPDM exchange has shown, step by step (17 R349): version 1.4, the algorithms of step 1, the certificate chain, the signature
over the transcript, the session with its link keys, and for a peer device that it has verified this one in turn. -/
structure Exchange where
  spdm14     : Bool
  algorithms : Bool
  chain      : Bool
  signature  : Bool
  session    : Bool
  bothWays   : Bool
  deriving DecidableEq, Repr

/-- What an attestation exchange joins: a chiplet of the package over its link, or a peer device (17 R348, R349). -/
inductive AttestTarget
  | chip (c : Chip)
  | peer (link : BitVec 11)
  deriving DecidableEq, Repr

/-- What Fumarole finds in a line (16 R340): nothing, a correctable error, or bad sectors. -/
inductive ScrubResult
  | clean
  | corrected
  | bad (sectors : BitVec 8)
  deriving DecidableEq, Repr

/-- A field of the RW part of a link record (17 R351). -/
inductive LinkField
  | v (b : Bool)
  | peer (d : BitVec 16)
  | path (k : Fin 4) (b : BitVec 8)
  | pv (b : BitVec 4)
  | psw (b : BitVec 4)
  | wakeb (w : BitVec 32)
  | hbb (w : BitVec 32)
  | rtb (w : BitVec 32)
  | retx (n : Word)
  | kwdrop (n : Word)
  | replay (n : Word)
  | badfr (n : Word)
  | wakeovr (n : Word)
  deriving DecidableEq, Repr

/-- A difference list (01 R23): the fields it changes and the checksum over the plane it produces. -/
structure DiffList where
  changes  : List (Nat × Nat)
  checksum : Nat
  deriving DecidableEq, Repr

/-- The instruction set: one constructor per row of the opcode table, in the table's order. -/
inductive Instr
  /-- NOP (R128). Does nothing except honour its scheduling fields (scoreboard wait and set, token pop). -/
  | nop (h : Head)
  /-- END (R127). Stops the issuing slot; once all four slots have ended, the group's completion sequence begins. -/
  | endSlot (h : Head)
  /-- BR (R113). Branches by displacement when the condition holds on the source, popping a queue source whether or not the branch is taken. -/
  | br (h : Head) (o : BrOp)
  /-- BRX (R113). Branches to a target read from a register when the condition holds on a second source. -/
  | brx (h : Head) (o : BrxOp)
  /-- CALL (R113). Writes the return bundle index n + 1 to a scalar register and branches by displacement. -/
  | call (h : Head) (o : RegDisp)
  /-- RET (R113). Branches to the bundle index read from a register and marks the transfer for the return predictor. -/
  | ret (h : Head) (o : Operand)
  /-- LPSET (R116). Opens a hardware loop with a saturated count, skipping the body when the count is 0 or faulting when the loop stack is full. -/
  | lpset (h : Head) (o : RegDisp)
  /-- LPEND (R117). Closing form: decrements the top loop entry and branches back to its start, or pops it on the last pass. -/
  | lpend (h : Head)
  /-- LPEND_EXIT (R117). Exit form: pops the top loop entry and branches by displacement. -/
  | lpendExit (h : Head) (o : BitVec 32)
  /-- ADD (R110). Writes the 64-bit wrapped sum of two scalar operands. -/
  | add (h : Head) (o : SBin)
  /-- SUB (R110). Writes the 64-bit wrapped difference of two scalar operands. -/
  | sub (h : Head) (o : SBin)
  /-- MUL (R110). Writes the low 64 bits of the product of two scalar operands. -/
  | mul (h : Head) (o : SBin)
  /-- MULH (R110). Writes the high 64 bits of the signed or unsigned product of two scalar operands. -/
  | mulh (h : Head) (o : SBin)
  /-- DIV (R110). Writes the quotient rounded toward zero, with fixed results for division by zero and for overflow. -/
  | div (h : Head) (o : SBin)
  /-- REM (R110). Writes the remainder taking the sign of the dividend, with fixed results for division by zero and for overflow. -/
  | rem (h : Head) (o : SBin)
  /-- AND (R110). Writes the bitwise AND of two scalar operands. -/
  | and (h : Head) (o : SBin)
  /-- OR (R110). Writes the bitwise OR of two scalar operands. -/
  | or (h : Head) (o : SBin)
  /-- XOR (R110). Writes the bitwise XOR of two scalar operands. -/
  | xor (h : Head) (o : SBin)
  /-- SHL (R110). Shifts a scalar left by the low six bits of the second operand. -/
  | shl (h : Head) (o : SBin)
  /-- SHR (R110). Shifts a scalar right logically by the low six bits of the second operand. -/
  | shr (h : Head) (o : SBin)
  /-- SAR (R110). Shifts a scalar right arithmetically by the low six bits of the second operand. -/
  | sar (h : Head) (o : SBin)
  /-- MIN (R110). Writes the smaller of two scalars, compared as signed or unsigned. -/
  | min (h : Head) (o : SBin)
  /-- MAX (R110). Writes the larger of two scalars, compared as signed or unsigned. -/
  | max (h : Head) (o : SBin)
  /-- CLZ (R110). Writes the number of leading zero bits of a scalar. -/
  | clz (h : Head) (o : SUn)
  /-- POPC (R110). Writes the number of one bits of a scalar. -/
  | popc (h : Head) (o : SUn)
  /-- SEL (R111). Writes one of two scalars, chosen by a predicate. -/
  | sel (h : Head) (o : SSel)
  /-- MOV (R111). Copies a scalar operand, which may pop or push a queue register. -/
  | mov (h : Head) (o : SUn)
  /-- MOVI (R111). Low form: writes the sign-extended 32-bit immediate. -/
  | movi (h : Head) (o : SImm)
  /-- MOVI_HIGH (R111). High form: replaces the upper 32 bits of the destination with the immediate. -/
  | moviHigh (h : Head) (o : SImm)
  /-- CMP (R112). Compares two scalars and sets, ANDs or ORs the result into a predicate. -/
  | cmp (h : Head) (o : SCmp)
  /-- QDROP (R118). Discards the filled entries of a queue register and marks its reserved entries for discard on arrival. -/
  | qdrop (h : Head) (o : Operand)
  /-- QCNT (R119). Reads the free, reserved and filled counts of a queue register or token queue. -/
  | qcnt (h : Head) (o : QCntOp)
  /-- TIDWR (R120). Writes one masked 64-bit word of a tensor-table entry, through the core's entry cache. -/
  | tidwr (h : Head) (o : TidWrOp)
  /-- TIDRD (R120). Reads one 64-bit word of a tensor-table entry. -/
  | tidrd (h : Head) (o : TidRdOp)
  /-- RDSYS (R122). Reads a system register at issue. -/
  | rdsys (h : Head) (o : SysOp)
  /-- WRSYS (R122). Register form: writes a system register from a scalar under its access codes; this row also serves every register write that has no row of its own. -/
  | wrsys (h : Head) (o : SysOp)
  /-- WRSYS_IMMEDIATE (R122). Immediate form: writes a system register from a sign-extended immediate. -/
  | wrsysImmediate (h : Head) (o : SysImm)
  /-- RDCYC (R124). Reads the cycle counter of the issuing core's die. -/
  | rdcyc (h : Head) (o : Operand)
  /-- TRAP (R125). Raises the program trap with a code and a value read, and the group enters trapping. -/
  | trap (h : Head) (o : TrapOp)
  /-- YIELD (R126). Pre-empts the group when a waiting group of equal or higher priority may take the core under the save-slot rule; otherwise has no effect. -/
  | yield (h : Head)
  /-- LD (R135). Loads a scalar through a handle, sign- or zero-extended, into a register or a reserved queue entry. -/
  | ld (h : Head) (o : LdOp)
  /-- ST (R135). Stores a scalar through a handle. -/
  | st (h : Head) (o : StOp)
  /-- LDL (R135). Loads a scalar from the local store window. -/
  | ldl (h : Head) (o : LdOp)
  /-- STL (R135). Stores a scalar to the flags and free space of the local store window. -/
  | stl (h : Head) (o : StOp)
  /-- LDQ (R136). Handle form: reserves a vector queue entry and loads 4 KiB into it as 32 line accesses. -/
  | ldq (h : Head) (o : QMemOp)
  /-- LDQ_LOCAL (R136). Local form: reserves a vector queue entry and loads 4 KiB from the local store into it. -/
  | ldqLocal (h : Head) (o : QMemOp)
  /-- STQ (R136). Handle form: pops a vector queue entry and stores its 4 KiB through a handle. -/
  | stq (h : Head) (o : QMemOp)
  /-- STQ_LOCAL (R136). Local form: pops a vector queue entry and stores its 4 KiB in the local store. -/
  | stqLocal (h : Head) (o : QMemOp)
  /-- AADD (R138). Atomically adds to a memory location, returning the old value unless posted. -/
  | aadd (h : Head) (o : AtOp)
  /-- AMIN (R138). Atomically writes the minimum of the location and the operand. -/
  | amin (h : Head) (o : AtOp)
  /-- AMAX (R138). Atomically writes the maximum of the location and the operand. -/
  | amax (h : Head) (o : AtOp)
  /-- AAND (R138). Atomically ANDs the operand into the location. -/
  | aand (h : Head) (o : AtOp)
  /-- AOR (R138). Atomically ORs the operand into the location. -/
  | aor (h : Head) (o : AtOp)
  /-- AXOR (R138). Atomically XORs the operand into the location. -/
  | axor (h : Head) (o : AtOp)
  /-- AXCHG (R138). Atomically exchanges the location with the operand. -/
  | axchg (h : Head) (o : AtOp)
  /-- ACAS (R138). Atomically writes the operand if the location equals the expected value, and returns the old value. -/
  | acas (h : Head) (o : AtOp)
  /-- AFADD (R138). Atomically adds an FP32 operand to the location, rounding to nearest even. -/
  | afadd (h : Head) (o : AtOp)
  /-- FENCE (R141). Orders the A slot's own accesses, and optionally its engine operations, by acquire, release or both at a scope. -/
  | fence (h : Head) (o : FenceOp)
  /-- QJOIN (R142). Makes every earlier operation of the named engine queues complete before any later one begins. -/
  | qjoin (h : Head) (o : BitVec 6)
  /-- CPIN (R143). Issues a copy-in record to engine queue e1. -/
  | cpin (h : Head) (o : RecOp)
  /-- CPOUT (R143). Issues a copy-out record to engine queue e2. -/
  | cpout (h : Head) (o : RecOp)
  /-- GATH (R143). Issues a gather record to engine queue e3. -/
  | gath (h : Head) (o : RecOp)
  /-- SCAT (R143). Issues a scatter record to engine queue e3. -/
  | scat (h : Head) (o : RecOp)
  /-- MSEND (R155). Sends a local-store payload as a message to a receive ring of a core in the package and receives a status. -/
  | msend (h : Head) (o : MSendOp)
  /-- RGET (R156). Peek form: returns the offset of the oldest entry of a ring, or all ones when the ring is empty. -/
  | rget (h : Head) (o : RGetOp)
  /-- RGET_POP (R156). Pop form: releases the oldest entry of a ring by advancing HEAD. -/
  | rgetPop (h : Head) (o : RGetOp)
  /-- RWAIT (R157). Blocks until a ring holds at least the requested number of messages, then returns the count. -/
  | rwait (h : Head) (o : RWaitOp)
  /-- FWR (R367). Enters a write of a local-store run into peer memory into e4, entering its source range into the range scoreboard. -/
  | fwr (h : Head) (o : FwrOp)
  /-- FREQ (R369). Sends a request record to a receive ring of another device through e4. -/
  | freq (h : Head) (o : FreqOp)
  /-- FATOM (R368). Performs one atomic on peer memory through e4, ordered after earlier e4 operations. -/
  | fatom (h : Head) (o : FatomOp)
  /-- LZOFFER (R381). Moves a free landing slot to offered, with its byte count and arrival-barrier target. -/
  | lzoffer (h : Head) (o : LzOfferOp)
  /-- LZGRANT (R382). Reserves an offered slot for one sender and delivers a grant record to the sender's ring. -/
  | lzgrant (h : Head) (o : LzGrantOp)
  /-- LZPUT (R383). Reads a grant record and sends local-store data as landing records in one e4 stream. -/
  | lzput (h : Head) (o : LzPutOp)
  /-- LZADOPT (R384). Makes an arrived slot's data area a valid tile line of a tensor without a copy. -/
  | lzadopt (h : Head) (o : LzAdoptOp)
  /-- LZFREE (R385). Frees an offered, arrived or torn slot, or tears a reserved or filling one. -/
  | lzfree (h : Head) (o : LzFreeOp)
  /-- LZSTAT (R385). Reads a slot's state, tear cause, reservation, count and target in one action. -/
  | lzstat (h : Head) (o : LzStatOp)
  /-- BARINIT (R324). Initialises a barrier's kind, target and rearm unless it is counting, resetting or a landing barrier. -/
  | barinit (h : Head) (o : BarInitOp)
  /-- BARARV (R324). Sends a weighted, optionally phase-checked arrival to a barrier. -/
  | bararv (h : Head) (o : BarArvOp)
  /-- BARWAIT (R324). Blocks until an acquire read finds the awaited phase or the torn flag, then writes the barrier word. -/
  | barwait (h : Head) (o : BarWaitOp)
  /-- BARTST (R324). Reads a barrier once and writes the barrier word without blocking. -/
  | bartst (h : Head) (o : BarTstOp)
  /-- PGPF (R344). Walks and installs the leaf for an address and reports its fields in a status. -/
  | pgpf (h : Head) (o : PgpfOp)
  /-- PGIN (R345). Asks the swap unit to start a swap pair between a far page and a near page, and reports a status. -/
  | pgin (h : Head) (o : PginOp)
  /-- LAUNCH (R291). Appends a launch entry for a kernel descriptor to a queue through the queue engine. -/
  | launch (h : Head) (o : LaunchOp)
  /-- QENTRY (R291). Appends a 64-byte local-store template as a queue entry through the queue engine. -/
  | qentry (h : Head) (o : QEntryOp)
  /-- VADD (R166). Element-wise addition, with floating-point rounding or optional integer saturation. -/
  | vadd (h : Head) (o : VBin)
  /-- VSUB (R166). Element-wise subtraction. -/
  | vsub (h : Head) (o : VBin)
  /-- VMUL (R166). Element-wise multiplication. -/
  | vmul (h : Head) (o : VBin)
  /-- VFMA (R168). Element-wise fused a x b + c, rounded once. -/
  | vfma (h : Head) (o : VTern)
  /-- VFMS (R168). Element-wise fused a x b - c, rounded once. -/
  | vfms (h : Head) (o : VTern)
  /-- VMIN (R168). Element-wise minimum. -/
  | vmin (h : Head) (o : VBin)
  /-- VMAX (R168). Element-wise maximum. -/
  | vmax (h : Head) (o : VBin)
  /-- VABS (R167). Element-wise absolute value. -/
  | vabs (h : Head) (o : VUn)
  /-- VNEG (R167). Element-wise negation. -/
  | vneg (h : Head) (o : VUn)
  /-- VRCP (R169). Element-wise approximate reciprocal. -/
  | vrcp (h : Head) (o : VUn)
  /-- VRSQ (R169). Element-wise approximate reciprocal square root. -/
  | vrsq (h : Head) (o : VUn)
  /-- VSQRT (R168). Element-wise correctly rounded square root. -/
  | vsqrt (h : Head) (o : VUn)
  /-- VEXP2 (R169). Element-wise approximate power of two, exact for integer inputs. -/
  | vexp2 (h : Head) (o : VUn)
  /-- VLOG2 (R169). Element-wise approximate base-2 logarithm. -/
  | vlog2 (h : Head) (o : VUn)
  /-- VAND (R170). Element-wise bitwise AND. -/
  | vand (h : Head) (o : VBin)
  /-- VOR (R170). Element-wise bitwise OR. -/
  | vor (h : Head) (o : VBin)
  /-- VXOR (R170). Element-wise bitwise XOR. -/
  | vxor (h : Head) (o : VBin)
  /-- VNOT (R170). Element-wise bitwise complement. -/
  | vnot (h : Head) (o : VUn)
  /-- VSHL (R170). Element-wise left shift. -/
  | vshl (h : Head) (o : VBin)
  /-- VSHR (R170). Element-wise logical right shift. -/
  | vshr (h : Head) (o : VBin)
  /-- VSAR (R170). Element-wise arithmetic right shift. -/
  | vsar (h : Head) (o : VBin)
  /-- VCMP (R171). Element-wise comparison writing all-ones or zero containers. -/
  | vcmp (h : Head) (o : VCmpOp)
  /-- VSEL (R172). Chooses each container from one of two sources by a selector container. -/
  | vsel (h : Head) (o : VSelOp)
  /-- MPUSH (R173). Pushes a compare result ANDed with the current top onto the mask stack. -/
  | mpush (h : Head) (o : MPushOp)
  /-- MINV (R174). Inverts the top of the mask stack relative to its parent. -/
  | minv (h : Head)
  /-- MPOP (R174). Pops the top of the mask stack. -/
  | mpop (h : Head)
  /-- VSKIPZ (R175). Branches when the mask stack's top is all zero. -/
  | vskipz (h : Head) (o : BitVec 32)
  /-- KSET (R176). Writes a compact predicate's count, width and group length. -/
  | kset (h : Head) (o : KSetOp)
  /-- KGET (R177). Reads a compact predicate into a scalar. -/
  | kget (h : Head) (o : KGetOp)
  /-- VMOV (R178). Copies a source to a destination in the container view or a narrow view. -/
  | vmov (h : Head) (o : VMovOp)
  /-- VINS (R179). Replaces one element of a register with a scalar. -/
  | vins (h : Head) (o : VInsOp)
  /-- VEXT (R180). Reads one element of a register into a scalar. -/
  | vext (h : Head) (o : VExtOp)
  /-- VCVT (R181). Converts elements between formats 0x0-0xB, rounding and saturating. -/
  | vcvt (h : Head) (o : VCvtOp)
  /-- VPACK4 (R182). Packs the low 4 bits of each container into one part of the destination's byte view. -/
  | vpack4 (h : Head) (o : VPackOp)
  /-- VUNPACK4 (R183). Unpacks 4-bit codes from one part into containers. -/
  | vunpack4 (h : Head) (o : VUnpackOp)
  /-- VPACK6 (R182). Packs the low 6 bits of each container into one part of the destination's byte view. -/
  | vpack6 (h : Head) (o : VPackOp)
  /-- VUNPACK6 (R183). Unpacks 6-bit codes from one part into containers. -/
  | vunpack6 (h : Head) (o : VUnpackOp)
  /-- VQNT (R185). Quantises 1024 FP32 containers into a Q4 or Q6 block image. -/
  | vqnt (h : Head) (o : VQntOp)
  /-- VDEQ (R186). Decodes a block image to FP32, counting invalid and reserved blocks. -/
  | vdeq (h : Head) (o : VDeqOp)
  /-- VROTR (R187). Rotates containers along each row. -/
  | vrotr (h : Head) (o : VRotOp)
  /-- VROTC (R187). Rotates containers along each column. -/
  | vrotc (h : Head) (o : VRotOp)
  /-- VBCR (R187). Broadcasts one column along each row. -/
  | vbcr (h : Head) (o : VRotOp)
  /-- VBCC (R187). Broadcasts one row along each column. -/
  | vbcc (h : Head) (o : VRotOp)
  /-- VREDR (R188). Reduces each row over a fixed pairwise tree. -/
  | vredr (h : Head) (o : VRedOp)
  /-- VREDC (R188). Reduces each column over a fixed pairwise tree. -/
  | vredc (h : Head) (o : VRedOp)
  /-- VTRN (R189). Transposes each 16 x 16 block of a register. -/
  | vtrn (h : Head) (o : VTrnOp)
  /-- VZRD (R190). Copies one part of a valid accumulator into a register. -/
  | vzrd (h : Head) (o : VZOp)
  /-- VZWR (R190). Copies a register into one part of an accumulator and makes it valid. -/
  | vzwr (h : Head) (o : VZOp)
  /-- TRD (R194). Looks up a tile line and copies one segment into a register or vector queue, filling on a miss. -/
  | trd (h : Head) (o : TileVOp)
  /-- TWR (R194). Looks up a tile line and writes one segment into it, marking it dirty. -/
  | twr (h : Head) (o : TileVOp)
  /-- TPF (R214). Single form: starts the fill of one tile without parking, or drops it when no way is free. -/
  | tpf (h : Head) (o : TileOp)
  /-- TPF_ITINERARY (R214). Itinerary form: prefetches up to 64 tiles listed in the local store, in order. -/
  | tpfItinerary (h : Head) (o : TpfItinOp)
  /-- TPIN (R215). Sets PIN on a line, allocating and filling it on a miss. -/
  | tpin (h : Head) (o : TileOp)
  /-- TUNPIN (R215). Clears PIN on a line or on every line of a tensor. -/
  | tunpin (h : Head) (o : TileOp)
  /-- TLAST (R215). Marks a line as at its last use. -/
  | tlast (h : Head) (o : TileOp)
  /-- TSTREAM (R215). Marks a line as streaming. -/
  | tstream (h : Head) (o : TileOp)
  /-- TINV (R216). Invalidates lines without write-back, counting dirty ones in TDISC. -/
  | tinv (h : Head) (o : TileOp)
  /-- TWB (R217). Starts the write-back of the named dirty lines. -/
  | twb (h : Head) (o : TileOp)
  /-- TCMT (R218). Writes back the named dirty lines, then advances the edition word with a release atomic and raises the lines' ED. -/
  | tcmt (h : Head) (o : TileOp)
  /-- TEDACQ (R219). Re-reads an edition word until it reaches a value, and raises the group's required edition for the tensor. -/
  | tedacq (h : Head) (o : TEdAcqOp)
  /-- MREC (R237). Issues a product record into e5. -/
  | mrec (h : Head) (o : RecOp)
  /-- MCONV (R237). Issues a convolution record into e5. -/
  | mconv (h : Head) (o : RecOp)
  /-- MZST (R237). Issues an accumulator-store record into e5. -/
  | mzst (h : Head) (o : RecOp)
  /-- MZLD (R237). Issues an accumulator-load record into e5. -/
  | mzld (h : Head) (o : RecOp)
  /-- MZCLR (R239). Enters e5 to clear or invalidate one accumulator. -/
  | mzclr (h : Head) (o : MzClrOp)
  /-- MTERM (R240). Waits for earlier e5 operations, then reads and optionally clears a term counter. -/
  | mterm (h : Head) (o : MTermOp)
  /-- SYNC_BUNDLE_ISSUE (R28). Once all four PCs stand at a sync bundle and every lane can issue, the four lanes issue in one core cycle. -/
  | syncBundleIssue (c : CoreId)
  /-- RENDEZVOUS_BOUND_EXPIRY (R30). A sync bundle whose rendezvous count reaches the bound raises the rendezvous fault. -/
  | rendezvousBoundExpiry (c : CoreId)
  /-- LOAD_DATA_ARRIVAL (R33). A load's data arrive, are written to the destination or reserved queue entry, and the load is performed. -/
  | loadDataArrival (c : CoreId) (id : Nat)
  /-- WRITE_ACKNOWLEDGEMENT (R249). A store's or atomic's acknowledgement returns at its scope, performing it and decrementing its scoreboard slot. -/
  | writeAcknowledgement (c : CoreId) (id : Nat) (also : BitVec 4)
  /-- TOKEN_PUSH_RELEASE (R34). An engine completion held by a full token queue pushes its token once a token is popped. -/
  | tokenPushRelease (c : CoreId) (e : Fin 6)
  /-- COPY_STEP (R153). A copy, gather or scatter engine performs one step of its record, completing the operation at its last step. -/
  | copyStep (c : CoreId) (e : Fin 6)
  /-- MESSAGE_APPEND (R155). A receiving network interface appends or refuses an MSEND message and returns its status. -/
  | messageAppend (c : CoreId) (id : Nat)
  /-- FILL_COMPLETE (R201). A fill completes; the line becomes valid and its parked waiters replay in order. -/
  | fillComplete (c : CoreId) (line : Nat)
  /-- FILL_FAULT (R204). A faulting fill invalidates its line, discards its waiters and raises one fill fault, or is dropped silently for TPF. -/
  | fillFault (c : CoreId) (line : Nat)
  /-- WRITE_BACK_ACK (R201). A line's write-back is acknowledged and the line becomes clean, or invalid after eviction. -/
  | writeBackAck (c : CoreId) (line : Nat)
  /-- PINNED_FULL_BOUND_EXPIRY (R209). A miss whose candidates stay pinned for the bound raises the pinned-full fault. -/
  | pinnedFullBoundExpiry (c : CoreId)
  /-- MATRIX_STEP (R232). e5 performs one product or convolution step, accumulating chunk sums into the accumulator window. -/
  | matrixStep (c : CoreId) (ahead : Nat)
  /-- ACCUMULATOR_STORE_STEP (R238). e5 performs one accumulator-store step, writing a tile line from the accumulator window. -/
  | accumulatorStoreStep (c : CoreId) (ahead : Nat)
  /-- ACCUMULATOR_LOAD_STEP (R238). e5 performs one accumulator-load step, writing the accumulator window from a tile line. -/
  | accumulatorLoadStep (c : CoreId) (ahead : Nat)
  /-- MZCLR_PERFORM (R239). MZCLR, 16 core cycles after reaching the head of e5, clears or invalidates its accumulator. -/
  | mzclrPerform (c : CoreId)
  /-- GEYSER_BATCH (R303). Geyser forms a batch of pending groups for a die with free cores, possibly choosing pre-emption victims. -/
  | geyserBatch (part : BitVec 6) (die : Fin 4)
  /-- GROUP_START (R305). A die dispatcher starts a placed group on a free core, dividing SRAM, copying records and preloading registers. -/
  | groupStart (die : Fin 4) (part : BitVec 6)
  /-- COMPLETION_SEQUENCE (R310). After all slots end, the core drains engines, writes back lines, awaits acknowledgements and completes the group. -/
  | completionSequence (c : CoreId)
  /-- FAULT_RAISE (R311). A fault or trap raised to a group writes an error record and stops the slots at their next bundle boundary. -/
  | faultRaise (c : CoreId)
  /-- GROUP_QUIESCENT (R311). Once issued accesses and engine operations have finished, a trapping group becomes quiescent. -/
  | groupQuiescent (c : CoreId)
  /-- PREEMPTION (R315). A group is stopped, its accesses awaited, its engines and Caldera settled and its landing slots drained. -/
  | preemption (c : CoreId) (cause : PreemptCause)
  /-- PREEMPTION_BOUND_EXPIRY (R315). Landing slots still reserved or filling when the pre-emption bound expires are torn. -/
  | preemptionBoundExpiry (c : CoreId)
  /-- PREEMPTION_SAVE (R316). The group's state is written to a save slot and its core becomes free. -/
  | preemptionSave (c : CoreId)
  /-- GROUP_RESTORE (R318). A pre-empted group is restored on a free core, repinned and its engine operations re-entered. -/
  | groupRestore (ctx : BitVec 10) (save : Nat)
  /-- LAUNCH_ENTRY_TAKE (R289). The queue engine takes a launch entry and checks its kernel descriptor and write list. -/
  | launchEntryTake (ctx : BitVec 10) (q : BitVec 12)
  /-- LAUNCH_VERSION_ADVANCE (R289). Once no interlocking launch runs, the write versions of listed single-write handles are checked and advanced. -/
  | launchVersionAdvance (ctx : BitVec 10) (q : BitVec 12)
  /-- LAUNCH_DISPATCH (R289). Once every version advance is performed, Geyser begins placing the launch's groups. -/
  | launchDispatch (ctx : BitVec 10) (q : BitVec 12)
  /-- LAUNCH_COMPLETE (R293). When every group has completed, the launch arrives at DBAR if any and DONE advances. -/
  | launchComplete (ctx : BitVec 10) (q : BitVec 12)
  /-- COPY_ENTRY_TAKE (R293). The queue engine takes a copy entry and starts moving LEN bytes. -/
  | copyEntryTake (ctx : BitVec 10) (q : BitVec 12)
  /-- COPY_ENTRY_COMPLETE (R293). A copy entry's writes are acknowledged and DONE advances. -/
  | copyEntryComplete (ctx : BitVec 10) (q : BitVec 12)
  /-- JOIN_ENTRY_TAKE (R288). The queue engine takes a join entry, blocking until DONE of another queue reaches POS. -/
  | joinEntryTake (ctx : BitVec 10) (q : BitVec 12)
  /-- JOIN_SATISFIED (R288). A blocked join's condition is met and the entry completes. -/
  | joinSatisfied (ctx : BitVec 10) (q : BitVec 12)
  /-- BARRIER_SIGNAL_ENTRY_TAKE (R326). The queue engine takes a barrier-signal entry and arrives ARR times at its barrier. -/
  | barrierSignalEntryTake (ctx : BitVec 10) (q : BitVec 12)
  /-- WAIT_ENTRY_TAKE (R288). The queue engine takes a wait entry on a barrier phase or a memory word. -/
  | waitEntryTake (ctx : BitVec 10) (q : BitVec 12)
  /-- WAIT_SATISFIED (R288). A wait entry's barrier trips into the awaited phase or its word reaches the value, and the entry completes. -/
  | waitSatisfied (ctx : BitVec 10) (q : BitVec 12)
  /-- QUEUE_ENGINE_APPEND (R292). The queue engine serialises a LAUNCH or QENTRY append, writes the entry and raises TAIL. -/
  | queueEngineAppend (c : CoreId) (id : Nat)
  /-- BARRIER_ARRIVAL (R322). An arrival is applied at the barrier's ordering point, counting, tripping or being refused. -/
  | barrierArrival (c : CoreId) (id : Nat)
  /-- BARRIER_REOPEN (R322). A resetting barrier, after notifying its waiters, returns to open and applies held arrivals. -/
  | barrierReopen (pa : BitVec 52)
  /-- SLICE_REQUEST_ARRIVAL (R259). A request reaches a slice and is served, appended behind a miss or queued for an MSHR. -/
  | sliceRequestArrival (c : CoreId) (id : Nat) (part : Nat) (ch : SliceChoice)
  /-- SLICE_FILL_DATA_ARRIVAL (R261). Fill data for a miss arrive; merged writes apply and the waiting list is performed in order. -/
  | sliceFillDataArrival (die : Fin 4) (line : Nat)
  /-- OWNERSHIP_BACKOFF_EXPIRY (R139). A delayed ownership request for a bouncing line is sent when its back-off expires. -/
  | ownershipBackoffExpiry (c : CoreId) (id : Nat)
  /-- SELF_REFRESH_ENTRY (R24). A pseudo-channel's idle timer expires and it enters self-refresh unless a request arrives in the same cycle. -/
  | selfRefreshEntry (pc : PseudoChan)
  /-- SELF_REFRESH_EXIT (R24). A request that waited for self-refresh exit is served. -/
  | selfRefreshExit (pc : PseudoChan)
  /-- FUMAROLE_SCRUB (R340). The patrol scrubber reads one line, correcting it or writing poison over bad sectors. -/
  | fumaroleScrub (line : Nat) (r : ScrubResult)
  /-- TRANSLATION_WALK (R331). A translation walk completes, installing a leaf or ending in a translation or capability-absent fault. -/
  | translationWalk (c : CoreId) (va : BitVec 56) (cached : Bool)
  /-- SWAP_PAIR_BEGIN (R342). The swap unit marks both leaves, flushes cached entries and recalls slice copies of both pages. -/
  | swapPairBegin (part : BitVec 6) (pair : Fin 64)
  /-- SWAP_LINE_EXCHANGE (R341). The swap unit exchanges one line of a pair in one action and sets its progress bit. -/
  | swapLineExchange (part : BitVec 6) (pair : Fin 64)
  /-- SWAP_PAIR_END (R342). The swap unit exchanges the leaves' frames, flushes entries, frees the pair and performs the PGIN. -/
  | swapPairEnd (part : BitVec 6) (pair : Fin 64)
  /-- FAR_PORT_FAILURE (R336). The management processor declares a far port failed, so every access reaching it raises the poison fault. -/
  | farPortFailure (port : Fin 10)
  /-- LZGRANT_STATUS (R382). The grant's delivery status returns, returning a still-reserved slot to offered when not appended. -/
  | lzgrantStatus (c : CoreId) (id : Nat)
  /-- LZADOPT_COMPLETE (R384). After the victim's write-back, the adopted line becomes valid and the slot adopted in one action. -/
  | lzadoptComplete (c : CoreId)
  /-- LZPUT_COMPLETE (R383). Once every landing record is acknowledged, refused or failed, LZPUT writes its status, releases its range and pushes its token. -/
  | lzputComplete (c : CoreId) (id : Nat)
  /-- FWR_COMPLETE (R367). Once every write record is acknowledged, FWR completes, releases its range and pushes its token. -/
  | fwrComplete (c : CoreId) (id : Nat)
  /-- FATOM_COMPLETE (R368). A FATOM's result is written or its acknowledgement returns. -/
  | fatomComplete (c : CoreId) (id : Nat)
  /-- FREQ_STATUS (R369). A FREQ's delivery status is written and its token is pushed. -/
  | freqStatus (c : CoreId) (id : Nat)
  /-- FRAME_RECEIVE (R361). A link end receives a frame, checking FCS, tag, key window and replay before accepting its records. -/
  | frameReceive (f : Frame)
  /-- WRITE_RECORD_PERFORM (R365). A received write record is checked against the inbound aperture table and performed, or answered with a nak. -/
  | writeRecordPerform (k : Nat)
  /-- ATOMIC_RECORD_PERFORM (R365). A received atomic record is checked and performed at the ordering point, returning a result if wanted. -/
  | atomicRecordPerform (k : Nat)
  /-- REQUEST_RECORD_APPEND (R365). A received request record is checked and appended to a receive ring, or answered with a nak. -/
  | requestRecordAppend (k : Nat)
  /-- LANDING_RECORD_RECEIVE (R379). A landing record is checked and written into its slot with arrivals on its barrier, or refused with a subcode. -/
  | landingRecordReceive (k : Nat)
  /-- ACK_RECORD_RECEIVE (R355). A sender receives an acknowledgement and retires the acknowledged frame's operations. -/
  | ackRecordReceive (link : BitVec 11) (ki : Bool) (fn : BitVec 48)
  /-- NAK_RECORD_RECEIVE (R372). A sender receives a nak, failing its operation with fabric fault case 2 or 3 or a refusal status. -/
  | nakRecordReceive (link : BitVec 11) (rtag : BitVec 32) (code : BitVec 16) (detail : BitVec 8)
  /-- RESULT_RECORD_RECEIVE (R368). A sender receives an atomic's old value. -/
  | resultRecordReceive (link : BitVec 11) (rtag : BitVec 32) (old : Word)
  /-- RETRANSMISSION_TIMEOUT (R355). An unacknowledged frame is retransmitted after RTB cycles, and the link fails after 8 retransmissions. -/
  | retransmissionTimeout (link : BitVec 11) (ki : Bool) (fn : BitVec 48)
  /-- HEARTBEAT_SEND (R356). A link end that has sent nothing for 2^12 cycles sends a heartbeat. -/
  | heartbeatSend (link : BitVec 11)
  /-- HEARTBEAT_BOUND_EXPIRY (R356). A receiving end that hears nothing for HBB cycles fails the link and may declare the far die dead. -/
  | heartbeatBoundExpiry (link : LinkSide)
  /-- LINK_IDLE_SLEEP (R352). A link with no operation traffic for 2^20 cycles enters sleeping. -/
  | linkIdleSleep (link : BitVec 11)
  /-- LINK_WAKE (R352). Traffic or a snoop due on a sleeping link starts waking. -/
  | linkWake (link : BitVec 11)
  /-- LINK_WAKE_COMPLETE (R352). Both ends are ready and the waking link returns to up. -/
  | linkWakeComplete (link : BitVec 11)
  /-- WAKE_BOUND_EXPIRY (R357). A snoop that has waited WAKEB cycles for a waking link is counted in WAKEOVR and keeps waiting. -/
  | wakeBoundExpiry (link : BitVec 11)
  /-- KEY_ROLLOVER_START (R353). A direction's frame number reaches 2^47 and the sender starts a key rollover. -/
  | keyRolloverStart (link : BitVec 11)
  /-- KEY_UPDATE_ACK (R353). The receiver's acknowledgement of KEY_UPDATE switches the sender to the new key index at FN 0. -/
  | keyUpdateAck (link : BitVec 11)
  /-- LINK_TRAINING_DONE (R352). Physical training or path probing completes and the link moves to attesting. -/
  | linkTrainingDone (link : BitVec 11)
  /-- LINK_TRAINING_ATTEMPT_FAIL (R352). A training attempt fails, and after 16 failures the link goes to failed. -/
  | linkTrainingAttemptFail (link : BitVec 11)
  /-- ATTESTATION_COMPLETE (R349). An SPDM exchange ends, keying the link or quarantining the chiplet or returning the peer link to dark. -/
  | attestationComplete (t : AttestTarget) (v : Exchange) (meas : List (BitVec 512))
  /-- ATTESTATION_TIMEOUT (R349). A responder that does not answer within 2^28 I-die cycles fails attestation. -/
  | attestationTimeout (t : AttestTarget)
  /-- LINK_KEYED_UP (R352). With both ends keyed and rejoin steps done, a keyed link moves to up. -/
  | linkKeyedUp (link : BitVec 11)
  /-- LINK_DRAIN_DONE (R352). A draining link with nothing outstanding goes dark and erases its keys. -/
  | linkDrainDone (link : BitVec 11)
  /-- DIE_REJOIN (R360). A reset die re-attests, has its key slots restored and brings its links up once directories have settled. -/
  | dieRejoin (die : Fin 4) (v : Exchange) (meas : List (BitVec 512))
  /-- POWER_LIMIT_REACHED (R20). The management processor lowers the core clock of one or more C-dies and logs the change. -/
  | powerLimitReached (dies : BitVec 4)
  /-- AGEING_THRESHOLD_CROSSING (R22). A die's predicted remaining life falls below the threshold, setting the flag and counting the crossing. -/
  | ageingThresholdCrossing (c : Chip) (days : Nat)
  /-- AGEING_FLAG_CLEAR (R22). Writing 1 clears a die's wear-threshold flag. -/
  | ageingFlagClear (c : Chip)
  /-- DIFFERENCE_LIST_APPLY (R23). A unit applies a configuration difference list, adopting the new plane or rolling back on a checksum mismatch. -/
  | differenceListApply (u : Chip) (l : DiffList)
  /-- LINK_RECORD_WRITE (R351). A host write to a link record's RW fields, where making a peer slot valid starts training. -/
  | linkRecordWrite (link : BitVec 11) (f : LinkField)
  /-- PACKAGE_RESET (R351). Resets the package, including link records, inbound aperture entries and quarantines. -/
  | packageReset
  /-- CREATE (R273). Assigns a context identifier and moves an empty context to creating. -/
  | create (arg : Word)
  /-- BIND (R274). Verifies a binding record and installs a model key, generating key slot 0 at the first bind. -/
  | bind (ctx : BitVec 10) (arg : Word)
  /-- ACTIVATE (R270). Checks the context descriptor and moves a keyed context to active. -/
  | activate (ctx : BitVec 10)
  /-- SUSPEND (R273). Stops dispatch and pre-empts every running group of the context into its save area. -/
  | suspend (ctx : BitVec 10)
  /-- RESUME (R273). Re-reads the descriptor and resumes saved groups of a suspended context. -/
  | resume (ctx : BitVec 10)
  /-- DRAIN (R273). Stops new launches and lets placed and suspended groups complete. -/
  | drain (ctx : BitVec 10)
  /-- DESTROY (R273). Stops the context's groups without saving, invalidates lines, tears slots and erases keys. -/
  | destroy (ctx : BitVec 10)
  /-- RECLAIM (R273). Clears a destroyed context's state and frees its identifier. -/
  | reclaim (ctx : BitVec 10)
  /-- KEYDESTROY (R277). Invalidates lines under a key slot, dropping dirty ones, and erases the key on every partition die. -/
  | keydestroy (ctx : BitVec 10) (arg : Word)
  /-- PARTSET (R265). Installs a partition record for a die, subject to the disjointness checks. -/
  | partset (arg : Word)
  /-- QRESET (R295). Resets a halted queue to idle, discarding its unperformed entries. -/
  | qreset (ctx : BitVec 10) (arg : Word)
  /-- XLFLUSH (R333). Discards cached translations of an address or of the whole context and waits for accesses that used them. -/
  | xlflush (ctx : BitVec 10) (arg : Word)
  /-- GRESUME_RETRY (R314). Resumes a trapping group, issuing the faulting operations again. -/
  | gresumeRetry (ctx : BitVec 10) (arg : Word)
  /-- GRESUME_SKIP (R314). Resumes a trapping group, completing the faulting operations as failed. -/
  | gresumeSkip (ctx : BitVec 10) (arg : Word)
  /-- GABORT (R313). Makes a trapping group faulted, discards its engine work and frees its core. -/
  | gabort (ctx : BitVec 10) (arg : Word)
  /-- LINKCTL_BRING_UP (R352). Moves a dark link to training. -/
  | linkctlBringUp (arg : Word)
  /-- LINKCTL_DRAIN (R352). Moves an up link to draining. -/
  | linkctlDrain (arg : Word)
  /-- LINKCTL_SLEEP (R352). Moves an up link to sleeping with its keys kept. -/
  | linkctlSleep (arg : Word)
  /-- LINKCTL_WAKE (R352). Moves a sleeping link to waking. -/
  | linkctlWake (arg : Word)
  /-- LINKCTL_REKEY (R353). Starts a key rollover of a link direction. -/
  | linkctlRekey (arg : Word)
  /-- LINKCTL_RESET (R352). Returns a failed link to dark. -/
  | linkctlReset (arg : Word)
  /-- DIERESET_ORDERLY (R358). Pre-empts a die's groups, writes back its slices, drains its links and resets the die. -/
  | dieresetOrderly (arg : Word)
  /-- DIERESET_FORCED (R359). Fails a die's links and groups, poisons lines it held modified and resets the die. -/
  | dieresetForced (arg : Word)
  /-- IATSET (R364). Writes or clears one entry of the inbound aperture table. -/
  | iatset (arg : Word) (arg2 : Word)
  /-- FABTAG (R272). Assigns a context's fabric tag. -/
  | fabtag (ctx : BitVec 10) (arg : Word)
  /-- MPOLICY (R272). Installs a signed measurement policy for later attestations. -/
  | mpolicy (arg : Word)
  /-- MAILBOX_INVALID_OPCODE (R272). A mailbox command with an unassigned opcode or non-zero reserved bytes is refused by value. -/
  | mailboxInvalidOpcode (rec : Rec64)
  /-- FABRIC_OUT_RECORD_SEND (R366). Engine queue e4 sends the operation records of its next FWR, FATOM, FREQ or LZPUT over the chosen path. -/
  | fabricOutRecordSend (c : CoreId) (src : OutSrc)
  /-- BARRIER_SIGNAL_ENTRY_COMPLETE (R293). The arrivals of a barrier-signal entry are acknowledged at its ASC, the entry completes and DONE advances. -/
  | barrierSignalEntryComplete (ctx : BitVec 10) (q : BitVec 12)
  /-- HOST_LINK_MEMORY_ACCESS (R285). A host read or write of device memory arrives over the host link, for example a host producer's queue body, stamp or TAIL, or the error ring's HEAD. -/
  | hostLinkMemoryAccess (a : HostAccess)
  deriving DecidableEq, Repr

end Sys2Proof
end

