-- ==== Sys2Proof/WellFormed.lean ====
section
/-! DEFINITION. Which instructions are instructions: the static checks of 04 R76 to R95 and of each instruction's entry. A term
that fails them has no lane word; decode never answers one. Checks that need the group's state (the accumulator grant R44, the
number of records R85, a register group past v1535 R41) are made by the meanings. -/

namespace Sys2Proof

namespace Operand

/-- No last-use bit and no PEEK bit (04 R80, R81). -/
def plain (o : Operand) : Bool := !o.last && !o.peek

/-- A PEEK bit only where the format has one and only on a queue register (04 R81). -/
def peekOk (hasPeek : Bool) (o : Operand) : Bool :=
  match o.name with
  | .q _ => hasPeek || !o.peek
  | _ => !o.peek

/-- The 64-bit queues a slot may pop (05 R108, 02 R31). -/
def popsScalar (sl : Slot) (n : Nat) : Bool :=
  match sl with
  | .c => (12 ≤ n && n ≤ 15) || (24 ≤ n && n ≤ 27) || (30 ≤ n && n ≤ 31)
  | .a => 16 ≤ n && n ≤ 19
  | .v => 20 ≤ n && n ≤ 23
  | .m => 28 ≤ n && n ≤ 29

/-- The 64-bit queues a slot may push (05 R108, 02 R31). -/
def pushesScalar (sl : Slot) (n : Nat) : Bool :=
  match sl with
  | .c => (16 ≤ n && n ≤ 23) || (28 ≤ n && n ≤ 29)
  | .a => 12 ≤ n && n ≤ 15
  | .v => 24 ≤ n && n ≤ 27
  | .m => 30 ≤ n && n ≤ 31

/-- A scalar source (05 R108): s0-s63, a queue the slot pops, or c.zero, c.one, c.ones. KSET's src (07 R176) and VEXT's idx (R180) name no
class of constants: that these three are theirs too is the model's choice (log 86). -/
def isSSrc (sl : Slot) (hasPeek : Bool) (o : Operand) : Bool :=
  !o.last && o.peekOk hasPeek &&
  match o.name with
  | .s _ | .zero | .one | .ones => true
  | .q n => popsScalar sl n.val
  | _ => false

/-- A scalar destination (05 R108): s0-s63 or a queue the slot pushes. -/
def isSDst (sl : Slot) (o : Operand) : Bool :=
  o.plain &&
  match o.name with
  | .s _ => true
  | .q n => pushesScalar sl n.val
  | _ => false

/-- A field that must name s0-s63. -/
def isSReg (o : Operand) : Bool :=
  o.plain && match o.name with | .s _ => true | _ => false

/-- A field that must name p0-p15. -/
def isPred (o : Operand) : Bool :=
  o.plain && match o.name with | .p _ => true | _ => false

/-- A field that must name k0-k15. -/
def isK (o : Operand) : Bool :=
  o.plain && match o.name with | .k _ => true | _ => false

/-- A field that must name z0-z7. -/
def isZ (o : Operand) : Bool :=
  o.plain && match o.name with | .z _ => true | _ => false

/-- A field that must name c.zero. -/
def isZero (o : Operand) : Bool :=
  o.plain && match o.name with | .zero => true | _ => false

/-- A vector source of 07 R160: a register (last use allowed), q0-q7, a scalar, or a constant; no predicate, accumulator or compact
predicate, VMOV's source neither (07 R178; log 99). -/
def isVSrc (o : Operand) : Bool :=
  o.peekOk true &&
  match o.name with
  | .v _ => true
  | .q n => !o.last && (n.val ≤ 7 || popsScalar .v n.val)
  | .s _ | .zero | .one | .ones | .row | .col | .idx => !o.last
  | _ => false

/-- A vector destination of 07 R160: a register or q8-q11. -/
def isVDst (o : Operand) : Bool :=
  o.plain &&
  match o.name with
  | .v _ => true
  | .q n => 8 ≤ n.val && n.val ≤ 11
  | _ => false

/-- A scalar or constant source of an element-wise field (07 R179). -/
def isVScalar (o : Operand) : Bool :=
  isSSrc .v true o || (o.plain && match o.name with | .row | .col | .idx => true | _ => false)

end Operand

namespace Src2

/-- A scalar second source. -/
def isSSrc (sl : Slot) : Src2 → Bool
  | .reg o => o.isSSrc sl true
  | .imm _ => true

/-- A vector second source. -/
def isVSrc : Src2 → Bool
  | .reg o => o.isVSrc
  | .imm _ => true

end Src2

namespace Fmt

/-- .f32 .bf16 .e4m3 .e5m2 (04 R93). -/
def isFloat : Fmt → Bool
  | .f32 | .bf16 | .e4m3 | .e5m2 => true
  | _ => false

/-- .i8 .i16 .i32 .n8 .n16 .n32 (04 R93). -/
def isInt32 : Fmt → Bool
  | .i8 | .i16 | .i32 | .n8 | .n16 | .n32 => true
  | _ => false

/-- .i8 to .n64 (03 R52). -/
def isInt : Fmt → Bool
  | .i8 | .i16 | .i32 | .i64 | .n8 | .n16 | .n32 | .n64 => true
  | _ => false

/-- .i64 or .n64. -/
def isWide : Fmt → Bool
  | .i64 | .n64 => true
  | _ => false

/-- The signed integer formats. -/
def isSigned : Fmt → Bool
  | .i8 | .i16 | .i32 | .i64 => true
  | _ => false

/-- The block formats Q4 and Q6. -/
def isBlock : Fmt → Bool
  | .q4 | .q6 => true
  | _ => false

/-- Container or element width in bits (03 R52). -/
def width : Fmt → Nat
  | .f32 | .i32 | .n32 => 32
  | .bf16 | .i16 | .n16 => 16
  | .e4m3 | .e5m2 | .i8 | .n8 => 8
  | .i64 | .n64 => 64
  | .q4 => 4
  | .q6 => 6

/-- The bytes of one element of a non-block format. -/
def bytes (f : Fmt) : Nat := f.width / 8

end Fmt

namespace Ssc

/-- No storage kind named: SSC 0 (06 R133). -/
def isZero (s : Ssc) : Bool := !s.l && !s.g && !s.p && !s.t

end Ssc

/-- Agent scopes 1 to 5, which object instructions need (08 R213, 17 R367). -/
def Scope.notSlot : Scope → Bool
  | .slot => false
  | _ => true

/-- The system register numbers that the register maps assign (05 R122). -/
def sysAssigned (n : Nat) : Bool :=
  [0x001, 0x002, 0x040, 0x041, 0x042, 0x043, 0x050, 0x051, 0x060, 0x061, 0x070, 0x071, 0x072,
   0x078, 0x079, 0x07A, 0x07B, 0x080, 0x081, 0x082, 0x083, 0x084, 0x085, 0x090,
   0x0A0, 0x0A1, 0x0A2, 0x0A3, 0x0A4, 0x0B0].contains n

namespace Head

/-- The hint and compact-guard rules of 04 R76 and R77: no hint but those listed, and GK only where allowed. -/
def ok (h : Head) (hints : List Hint) (gkOk : Bool) : Bool :=
  (h.ch == .none || hints.contains h.ch) && (gkOk || h.gk.isNone)

end Head

/-- An integer type may saturate only where SUB bit 0 is sat (07 R166). -/
def satOk (sat : Bool) (ty : Fmt) : Bool := !sat || ty.isInt32

/-- RM is 0b00 on integer forms (04 R95). -/
def rmOk (rm : Rm) (ty : Fmt) : Bool := rm == .rne || ty.isFloat

/-- The types of an atomic operation (04 R92). -/
def AOp.tyOk (op : AOp) (ty : Fmt) : Bool :=
  match op with
  | .add | .min | .max => [Fmt.i32, .i64, .n32, .n64].contains ty
  | .and | .or | .xor | .xchg | .cas => [Fmt.n32, .n64].contains ty
  | .fadd => ty == .f32

/-- Loads take relaxed or acquire order (06 R133). -/
def Ord.loadOk : Ord → Bool
  | .rlx | .acq => true
  | _ => false

/-- Stores take relaxed or release order (06 R133). -/
def Ord.storeOk : Ord → Bool
  | .rlx | .rel => true
  | _ => false

namespace Addr

/-- The offset register of an F3 address. -/
def ok (ad : Addr) : Bool := ad.fa.isSSrc .a false

/-- A local-store address: the handle field is 0 (04 R84). -/
def okLocal (ad : Addr) : Bool := ad.ok && ad.hdl == 0

end Addr

/-- A payload length of MSEND and FREQ: a multiple of 8 from 8 to 248 (06 R155, 17 R369). -/
def lenOk (len : BitVec 20) : Bool := len.toNat % 8 == 0 && 8 ≤ len.toNat && len.toNat ≤ 248

/-- Relaxed with no scope, or release with ASC 1 to 5 and an SSC (17 R369, 18 R380). -/
def relOk : Option (Scope × Ssc) → Bool
  | none => true
  | some (a, s) => a.notSlot && !s.isZero

/-- The bases of a record command (06 R143, 09 R237). -/
def RecOp.ok (sl : Slot) (o : RecOp) : Bool :=
  o.b0.isSSrc sl false && o.b1.isSSrc sl false && o.b2.isSSrc sl false && o.b3.isSSrc sl false

/-- The coordinates of a tile instruction; with ALL they must be c.zero (08 R213). -/
def TileOp.ok (o : TileOp) (allOk : Bool) (hasAsc : Bool) : Bool :=
  o.c0.isSSrc .m false && o.c1.isSSrc .m false && o.c2.isSSrc .m false && o.c3.isSSrc .m false &&
  (!o.all || (allOk && o.c0.isZero && o.c1.isZero && o.c2.isZero && o.c3.isZero)) &&
  (match o.asc with | none => !hasAsc | some a => hasAsc && a.notSlot)

namespace SBin
def ok (sl : Slot) (o : SBin) : Bool := o.d.isSDst sl && o.a.isSSrc sl true && o.b.isSSrc sl
end SBin

namespace SUn
def ok (sl : Slot) (o : SUn) : Bool := o.d.isSDst sl && o.a.isSSrc sl true
end SUn

/-- LD, LDL, ST, STL take .i8 to .n64 (04 R92). -/
def memTyOk (ty : Fmt) : Bool := ty.isInt

namespace AtOp
/-- The A-slot atomics but ACAS: a destination or the posted form (06 R137). -/
def ok (op : AOp) (o : AtOp) : Bool :=
  op.tyOk o.ty && o.ad.ok && o.b.isSSrc .a false && !o.o.ssc.isZero &&
  (match o.d with | none => true | some d => d.isSDst .a)
/-- ACAS: its destination is read and must name s0-s63 (06 R137). -/
def okCas (o : AtOp) : Bool :=
  AOp.cas.tyOk o.ty && o.ad.ok && o.b.isSSrc .a false && !o.o.ssc.isZero &&
  (match o.d with | none => false | some d => d.isSReg)
end AtOp

namespace VBin
/-- Arithmetic with floats and integers; `rmTaken`, `satTaken` say whether RM and sat apply (07 R166). -/
def ok (o : VBin) (rmTaken satTaken : Bool) : Bool :=
  (o.ty.isFloat || o.ty.isInt32) && (if rmTaken then rmOk o.rm o.ty else o.rm == .rne) &&
  (if satTaken then satOk o.sat o.ty else !o.sat) && o.d.isVDst && o.a.isVSrc && o.b.isVSrc
/-- Logic and shifts: integers only (07 R170). -/
def okInt (o : VBin) : Bool :=
  o.ty.isInt32 && o.rm == .rne && !o.sat && o.d.isVDst && o.a.isVSrc && o.b.isVSrc
end VBin

namespace VUn
/-- VABS, VNEG: floats and signed integers (04 R93). -/
def okAbs (o : VUn) : Bool :=
  (o.ty.isFloat || [Fmt.i8, .i16, .i32].contains o.ty) && o.rm == .rne && satOk o.sat o.ty && o.d.isVDst && o.a.isVSrc
/-- VRCP VRSQ VSQRT VEXP2 VLOG2: .f32 and .bf16; only VSQRT takes a rounding mode (07 R166). -/
def okFun (o : VUn) (rmTaken : Bool) : Bool :=
  (o.ty == .f32 || o.ty == .bf16) && (rmTaken || o.rm == .rne) && !o.sat && o.d.isVDst && o.a.isVSrc
/-- VNOT: integers (04 R93). -/
def okInt (o : VUn) : Bool := o.ty.isInt32 && o.rm == .rne && !o.sat && o.d.isVDst && o.a.isVSrc
end VUn

namespace VRotOp
/-- The shift amount is a scalar, a constant or an immediate (07 R187). -/
def ok (o : VRotOp) : Bool :=
  o.d.isVDst && o.a.isVSrc &&
  match o.s with
  | .reg s => s.isVScalar
  | .imm _ => true
end VRotOp

namespace VRedOp
/-- RM for float add only, sat for integer add only (07 R188). -/
def ok (o : VRedOp) : Bool :=
  (o.ty.isFloat || o.ty.isInt32) && (o.rm == .rne || (o.ty.isFloat && o.op == .add)) &&
  (!o.sat || (o.ty.isInt32 && o.op == .add)) && o.d.isVDst && o.a.isVSrc
end VRedOp

namespace VCvtOp
/-- Formats 0x0 to 0xB, no RM between integers, half only when exactly one side is 64-bit (07 R181). -/
def ok (o : VCvtOp) : Bool :=
  !o.ty.isBlock && !o.src.isBlock && (o.rm == .rne || !(o.ty.isInt && o.src.isInt)) &&
  (!o.half || (o.ty.isWide != o.src.isWide)) && o.d.isVDst && o.a.isVSrc
end VCvtOp

namespace TileVOp
/-- Coordinates name V-slot scalars or constants (07 R192). -/
def okCoords (o : TileVOp) : Bool :=
  o.c0.isVScalar && o.c1.isVScalar && o.c2.isVScalar && o.c3.isVScalar
end TileVOp

/-- TWR reads v0-v1535 (last use allowed) or pops q0-q7 without peeking (04 R93). -/
def Operand.isTwrSrc (o : Operand) : Bool :=
  !o.peek && match o.name with | .v _ => true | .q n => !o.last && n.val ≤ 7 | _ => false

/-- The static legality of an instruction of slot `sl`. Events are no lane words. -/
def Instr.wf (sl : Slot) : Instr → Bool
  | .nop h => h.ok [] false
  | .endSlot h => h.ok [] false
  | .br h o => h.ok [] false && o.src.isSSrc sl false
  | .brx h o => h.ok [] false && o.tgt.isSSrc sl false && o.src.isSSrc sl false
  | .call h o => h.ok [] false && o.r.isSReg
  | .ret h o => h.ok [] false && o.isSSrc sl false
  | .lpset h o => h.ok [] false && o.r.isSSrc sl false && decide (1 ≤ o.disp.toInt)
  | .lpend h => h.ok [] false
  | .lpendExit h _ => h.ok [] false
  | .add h o | .sub h o | .mul h o | .mulh h o | .div h o | .rem h o | .and h o | .or h o | .xor h o
  | .shl h o | .shr h o | .sar h o | .min h o | .max h o => h.ok [] false && sl != .v && o.ok sl
  | .clz h o | .popc h o | .mov h o => h.ok [] false && sl != .v && o.ok sl
  | .sel h o =>
    h.ok [] false && sl != .v && o.d.isSDst sl && o.a.isSSrc sl true && o.b.isSSrc sl true && o.p.isPred
  | .movi h o => h.ok [] false && sl != .v && o.d.isSDst sl
  | .moviHigh h o => h.ok [] false && sl != .v && o.d.isSReg
  | .cmp h o => h.ok [] false && sl != .v && o.d.isPred && o.a.isSSrc sl true && o.b.isSSrc sl
  | .qdrop h o => h.ok [] false && sl == .c && o.plain && (match o.name with | .q _ => true | _ => false)
  | .qcnt h o =>
    h.ok [] false && sl == .c && o.d.isSDst sl && o.q.plain &&
    (match o.q.name with | .q _ | .d _ => true | _ => false)
  | .tidwr h o => h.ok [] false && sl == .c && o.idx.isSSrc sl true && o.val.isSSrc sl true
  | .tidrd h o => h.ok [] false && sl == .c && o.d.isSDst sl && o.idx.isSSrc sl true
  | .rdsys h o => h.ok [] false && sl == .c && o.r.isSDst sl && sysAssigned o.sys.toNat
  | .wrsys h o => h.ok [] false && sl == .c && o.r.isSSrc sl false && sysAssigned o.sys.toNat
  | .wrsysImmediate h o => h.ok [] false && sl == .c && sysAssigned o.sys.toNat
  | .rdcyc h o => h.ok [] false && sl == .c && o.isSDst sl
  | .trap h o => h.ok [] false && sl == .c && o.src.isSSrc sl false
  | .yield h => h.ok [] false && sl == .c
  | .ld h o =>
    h.ok [.stream] false && sl == .a && memTyOk o.ty && o.d.isSDst sl && o.ad.ok && !o.o.ssc.isZero && o.o.ord.loadOk
  | .st h o =>
    h.ok [.stream] false && sl == .a && memTyOk o.ty && o.b.isSSrc sl false && o.ad.ok && !o.o.ssc.isZero && o.o.ord.storeOk
  | .ldl h o =>
    h.ok [] false && sl == .a && memTyOk o.ty && o.d.isSDst sl && o.ad.okLocal && !o.o.ssc.isZero && o.o.ord.loadOk
  | .stl h o =>
    h.ok [] false && sl == .a && memTyOk o.ty && o.b.isSSrc sl false && o.ad.okLocal && !o.o.ssc.isZero && o.o.ord.storeOk
  | .ldq h o =>
    h.ok [.stream] false && sl == .a && o.q.plain && (match o.q.name with | .q n => n.val ≤ 7 | _ => false) &&
    o.ad.ok && !o.o.ssc.isZero && o.o.ord.loadOk
  | .ldqLocal h o =>
    h.ok [.stream] false && sl == .a && o.q.plain && (match o.q.name with | .q n => n.val ≤ 7 | _ => false) &&
    o.ad.okLocal && !o.o.ssc.isZero && o.o.ord.loadOk
  | .stq h o =>
    h.ok [.stream] false && sl == .a && o.q.plain && (match o.q.name with | .q n => 8 ≤ n.val && n.val ≤ 11 | _ => false) &&
    o.ad.ok && !o.o.ssc.isZero && o.o.ord.storeOk
  | .stqLocal h o =>
    h.ok [.stream] false && sl == .a && o.q.plain && (match o.q.name with | .q n => 8 ≤ n.val && n.val ≤ 11 | _ => false) &&
    o.ad.okLocal && !o.o.ssc.isZero && o.o.ord.storeOk
  | .aadd h o => h.ok [] false && sl == .a && o.ok .add
  | .amin h o => h.ok [] false && sl == .a && o.ok .min
  | .amax h o => h.ok [] false && sl == .a && o.ok .max
  | .aand h o => h.ok [] false && sl == .a && o.ok .and
  | .aor h o => h.ok [] false && sl == .a && o.ok .or
  | .axor h o => h.ok [] false && sl == .a && o.ok .xor
  | .axchg h o => h.ok [] false && sl == .a && o.ok .xchg
  | .acas h o => h.ok [] false && sl == .a && o.okCas
  | .afadd h o => h.ok [] false && sl == .a && o.ok .fadd
  | .fence h o => h.ok [] false && sl == .a && o.o.ord != .rlx && !o.o.ssc.isZero
  | .qjoin h m => h.ok [] false && sl == .a && m != 0
  | .cpin h o | .cpout h o | .gath h o | .scat h o => h.ok [.stream] false && sl == .a && o.ok sl
  | .msend h o =>
    h.ok [] false && sl == .a && o.d.isSDst sl && o.dst.isSSrc sl false && o.src.isSSrc sl false && lenOk o.len
  | .rget h o | .rgetPop h o => h.ok [] false && sl == .a && o.d.isSDst sl
  | .rwait h o => h.ok [] false && sl == .a && o.d.isSDst sl && o.cnt.isSSrc sl false
  | .fwr h o =>
    h.ok [] false && sl == .a && o.len.isSSrc sl false && o.src.isSSrc sl false && o.ad.ok &&
    o.o.asc.notSlot && !o.o.ssc.isZero && o.o.ord.storeOk
  | .freq h o =>
    h.ok [] false && sl == .a && o.d.isSDst sl && o.dst.isSSrc sl false && o.src.isSSrc sl false && lenOk o.len && relOk o.rel
  | .fatom h o =>
    h.ok [] false && sl == .a && o.op.tyOk o.ty && o.b.isSSrc sl false && o.ad.ok && o.o.asc.notSlot && !o.o.ssc.isZero &&
    (match o.d with
     | none => o.op != .cas && o.o.ord.storeOk
     | some d => if o.op == .cas then d.isSReg else d.isSDst sl)
  | .lzoffer h o => h.ok [] false && sl == .a && o.j.isSSrc sl false && o.b.isSSrc sl false
  | .lzgrant h o => h.ok [] false && sl == .a && o.d.isSReg && o.j.isSSrc sl false && o.w.isSSrc sl false && relOk o.rel
  | .lzput h o =>
    h.ok [] false && sl == .a && o.d.isSDst sl && o.g.isSSrc sl false && o.src.isSSrc sl false &&
    o.o.asc.notSlot && !o.o.ssc.isZero && o.o.ord.storeOk
  | .lzadopt h o => h.ok [] false && sl == .a && o.ed.isSSrc sl false && o.c.isSSrc sl false && o.j.isSSrc sl false
  | .lzfree h o => h.ok [] false && sl == .a && o.j.isSSrc sl false
  | .lzstat h o => h.ok [] false && sl == .a && o.d.isSDst sl && o.j.isSSrc sl false && !o.ssc.isZero
  | .barinit h o =>
    h.ok [] false && sl == .a && o.d.isSDst sl && o.t.isSSrc sl false && o.ad.ok && !o.o.ssc.isZero && o.o.ord.storeOk
  | .bararv h o =>
    h.ok [] false && sl == .a && o.w.isSSrc sl false && o.ad.ok && !o.o.ssc.isZero &&
    (match o.d with
     | none => o.o.ord.storeOk
     | some d => d.isSDst sl && o.o.ord != .acq)
  | .barwait h o =>
    h.ok [] false && sl == .a && o.d.isSDst sl && o.ph.isSSrc sl false && (if o.loc then o.ad.okLocal else o.ad.ok) &&
    !o.o.ssc.isZero && o.o.ord.loadOk
  | .bartst h o =>
    h.ok [] false && sl == .a && o.d.isSDst sl && (if o.loc then o.ad.okLocal else o.ad.ok) && !o.o.ssc.isZero && o.o.ord.loadOk
  | .pgpf h o =>
    h.ok [] false && sl == .a && o.d.isSDst sl && o.ad.ok && o.o.asc.notSlot && !o.o.ssc.isZero && o.o.ord == .rlx
  | .pgin h o =>
    h.ok [] false && sl == .a && o.d.isSDst sl && o.n.isSSrc sl false && o.ad.ok && o.o.asc.notSlot &&
    o.o.ssc == { g := true } && o.o.ord == .rlx
  | .launch h o =>
    h.ok [] false && sl == .a && o.d.isSReg && o.q.isSSrc sl false && o.ad.ok && o.o.asc.notSlot && !o.o.ssc.isZero &&
    o.o.ord.storeOk && decide (o.done.toNat ≤ 5)
  | .qentry h o =>
    h.ok [] false && sl == .a && o.d.isSDst sl && o.q.isSSrc sl false && o.fa.isSSrc sl false && o.o.asc.notSlot &&
    !o.o.ssc.isZero && o.o.ord.storeOk
  | .vadd h o | .vsub h o | .vmul h o => h.ok [] true && sl == .v && o.ok true true
  | .vfma h o | .vfms h o =>
    h.ok [] true && sl == .v && o.ty.isFloat && o.d.isVDst && o.a.isVSrc && o.b.isVSrc && o.c.isVSrc
  | .vmin h o | .vmax h o => h.ok [] true && sl == .v && o.ok false false
  | .vabs h o | .vneg h o => h.ok [] true && sl == .v && o.okAbs
  | .vrcp h o | .vrsq h o | .vexp2 h o | .vlog2 h o => h.ok [] true && sl == .v && o.okFun false
  | .vsqrt h o => h.ok [] true && sl == .v && o.okFun true
  | .vand h o | .vor h o | .vxor h o | .vshl h o | .vshr h o | .vsar h o => h.ok [] true && sl == .v && o.okInt
  | .vnot h o => h.ok [] true && sl == .v && o.okInt
  | .vcmp h o =>
    h.ok [] true && sl == .v && (o.ty.isFloat || o.ty.isInt32) && o.d.isVDst && o.a.isVSrc && o.b.isVSrc
  | .vsel h o => h.ok [] true && sl == .v && o.d.isVDst && o.a.isVSrc && o.b.isVSrc && o.sel.isVSrc
  | .mpush h o => h.ok [] true && sl == .v && (o.ty.isFloat || o.ty.isInt32) && o.a.isVSrc && o.b.isVSrc
  | .minv h => h.ok [] false && sl == .v
  | .mpop h => h.ok [] false && sl == .v
  | .vskipz h _ => h.ok [] false && sl == .v
  | .kset h o =>
    h.ok [] false && sl == .v && o.k.isK && o.src.isSSrc .v true && decide (1 ≤ o.len.toNat) && decide (o.len.toNat ≤ 6)
  | .kget h o => h.ok [] false && sl == .v && o.d.isSDst .v && o.k.isK
  | .vmov h o => h.ok [] true && sl == .v && o.d.isVDst && o.a.isVSrc
  | .vins h o => h.ok [] true && sl == .v && o.d.isVDst && o.a.isVSrc && o.idx.isSSrc .v true && o.val.isVScalar
  | .vext h o => h.ok [] true && sl == .v && o.d.isSDst .v && o.a.isVSrc && o.idx.isSSrc .v true
  | .vcvt h o => h.ok [] true && sl == .v && o.ok
  | .vpack4 h o => h.ok [] true && sl == .v && o.d.isVDst && o.a.isVSrc
  | .vpack6 h o => h.ok [] true && sl == .v && o.d.isVDst && o.a.isVSrc && decide (o.part.toNat ≤ 4)
  | .vunpack4 h o => h.ok [] true && sl == .v && o.d.isVDst && o.a.isVSrc
  | .vunpack6 h o => h.ok [] true && sl == .v && o.d.isVDst && o.a.isVSrc && decide (o.part.toNat ≤ 4)
  | .vqnt h o =>
    h.ok [] true && sl == .v && o.ty.isBlock && o.d.isVDst && o.a.isVSrc && !(o.ty == .q6 && o.bt == 3) &&
    (match o.scale with | none => true | some s => s.isSSrc .v true)
  | .vdeq h o => h.ok [] true && sl == .v && o.ty.isBlock && o.d.isVDst && o.a.isVSrc
  | .vrotr h o | .vrotc h o | .vbcr h o | .vbcc h o => h.ok [] true && sl == .v && o.ok
  | .vredr h o | .vredc h o => h.ok [] true && sl == .v && o.ok
  | .vtrn h o => h.ok [] true && sl == .v && o.d.isVDst && o.a.isVSrc
  | .vzrd h o => h.ok [] true && sl == .v && o.d.isVDst && o.a.isZ
  | .vzwr h o => h.ok [] true && sl == .v && o.d.isZ && o.a.isVSrc
  | .trd h o => h.ok [.pin, .last, .stream] true && sl == .v && o.r.isVDst && o.okCoords
  | .twr h o => h.ok [.pin, .last, .stream] true && sl == .v && o.r.isTwrSrc && o.okCoords
  | .tpf h o => h.ok [.pin, .last, .stream] false && sl == .m && o.ok false false
  | .tpfItinerary h o => h.ok [.itin] false && h.ch == .itin && sl == .m && o.off.isSSrc .m false && o.n.isSSrc .m false
  | .tpin h o => h.ok [] false && sl == .m && o.ok false false
  | .tunpin h o | .tlast h o | .tstream h o | .tinv h o => h.ok [] false && sl == .m && o.ok true false
  | .twb h o | .tcmt h o => h.ok [] false && sl == .m && o.ok true true
  | .tedacq h o => h.ok [] false && sl == .m && o.w.isSSrc .m false && o.d.isSDst .m && o.asc.notSlot
  | .mrec h o | .mconv h o => h.ok [.pin, .last, .stream] false && sl == .m && o.ok sl
  | .mzst h o | .mzld h o => h.ok [.stream] false && sl == .m && o.ok sl
  | .mzclr h o => h.ok [] false && sl == .m && o.z.isZ
  | .mterm h o => h.ok [] false && sl == .m && o.d.isSDst .m
  | _ => false

end Sys2Proof
end

