-- ==== Sys2Proof/Decode.lean ====
section
/-! DEFINITION. The decoder and the encoder of lane words, from 04 R74 to R98. A lane word is read as the common head and the
payload of its format class, then as an instruction of the slot. It is accepted when the instruction is well formed and encodes
to exactly that word, so every reserved or unused bit of R96 refuses the word. -/

namespace Sys2Proof

/-! ### Fields packed low end first -/

/-- The number whose fields, lowest first, have the given widths and values. -/
def packFields : List (Nat × Nat) → Nat
  | [] => 0
  | (w, v) :: r => v % 2 ^ w + 2 ^ w * packFields r

/-- The values of the fields of the given widths, lowest first. -/
def unpackFields : List Nat → Nat → List Nat
  | [], _ => []
  | w :: ws, n => n % 2 ^ w :: unpackFields ws (n / 2 ^ w)

/-- Field `i` of a list of values as a bit vector. -/
def fieldAt (l : List Nat) (i w : Nat) : BitVec w := BitVec.ofNat w (l.getD i 0)

/-- The common head as it stands in a word, bits 127 to 85 but FMT (04 R74). -/
structure RawHead where
  opc    : BitVec 8 := 0
  sy     : BitVec 1 := 0
  gs     : BitVec 4 := 0
  gsInv  : BitVec 1 := 0
  gk     : BitVec 4 := 0
  gkEn   : BitVec 1 := 0
  ch     : BitVec 4 := 0
  sbsEn  : BitVec 1 := 0
  sbsIdx : BitVec 3 := 0
  sbw    : BitVec 8 := 0
  qxEn   : BitVec 1 := 0
  qxIdx  : BitVec 3 := 0
  deriving DecidableEq, Repr

/-- Format F0 (04 R81). -/
structure F0 where
  fd   : BitVec 12 := 0
  fa   : BitVec 12 := 0
  fb   : BitVec 12 := 0
  fc   : BitVec 12 := 0
  fe   : BitVec 12 := 0
  ty   : BitVec 4 := 0
  rm   : BitVec 2 := 0
  peek : BitVec 4 := 0
  sub  : BitVec 15 := 0
  deriving DecidableEq, Repr

/-- Format F1 (04 R82). -/
structure F1 where
  fd   : BitVec 12 := 0
  fa   : BitVec 12 := 0
  fb   : BitVec 12 := 0
  imm  : BitVec 32 := 0
  ty   : BitVec 4 := 0
  rm   : BitVec 2 := 0
  peek : BitVec 2 := 0
  sub  : BitVec 9 := 0
  deriving DecidableEq, Repr

/-- Format F2 (04 R83). -/
structure F2 where
  fa   : BitVec 12 := 0
  fb   : BitVec 12 := 0
  disp : BitVec 32 := 0
  cc   : BitVec 3 := 0
  sub  : BitVec 26 := 0
  deriving DecidableEq, Repr

/-- Format F3 (04 R84). -/
structure F3 where
  fd  : BitVec 12 := 0
  fa  : BitVec 12 := 0
  fb  : BitVec 12 := 0
  hdl : BitVec 12 := 0
  off : BitVec 20 := 0
  asc : BitVec 3 := 0
  ssc : BitVec 4 := 0
  ord : BitVec 2 := 0
  ty  : BitVec 4 := 0
  sub : BitVec 4 := 0
  deriving DecidableEq, Repr

/-- Format F4 (04 R85). -/
structure F4 where
  b0  : BitVec 12 := 0
  b1  : BitVec 12 := 0
  b2  : BitVec 12 := 0
  b3  : BitVec 12 := 0
  idx : BitVec 12 := 0
  tke : BitVec 1 := 0
  tki : BitVec 3 := 0
  sub : BitVec 21 := 0
  deriving DecidableEq, Repr

/-- Format F5 (04 R86). -/
structure F5 where
  fd  : BitVec 12 := 0
  fa  : BitVec 12 := 0
  sys : BitVec 12 := 0
  imm : BitVec 32 := 0
  sub : BitVec 17 := 0
  deriving DecidableEq, Repr

/-- The payload of a lane word, by its format class (04 R79). -/
inductive Payload
  | f0 (f : F0)
  | f1 (f : F1)
  | f2 (f : F2)
  | f3 (f : F3)
  | f4 (f : F4)
  | f5 (f : F5)
  deriving DecidableEq, Repr

/-- The fields of the common head above the payload, lowest first, FMT last (04 R74). -/
def RawHead.fields (h : RawHead) (fmt : Nat) : List (Nat × Nat) :=
  [(3, h.qxIdx.toNat), (1, h.qxEn.toNat), (8, h.sbw.toNat), (3, h.sbsIdx.toNat), (1, h.sbsEn.toNat), (4, h.ch.toNat),
   (1, h.gkEn.toNat), (4, h.gk.toNat), (1, h.gsInv.toNat), (4, h.gs.toNat), (1, h.sy.toNat), (8, h.opc.toNat), (4, fmt)]

/-- The widths of the head's fields, lowest first. -/
def headWidths : List Nat := [3, 1, 8, 3, 1, 4, 1, 4, 1, 4, 1, 8, 4]

/-- The head read from its field values. -/
def RawHead.ofFields (l : List Nat) : RawHead :=
  { qxIdx := fieldAt l 0 3, qxEn := fieldAt l 1 1, sbw := fieldAt l 2 8, sbsIdx := fieldAt l 3 3, sbsEn := fieldAt l 4 1,
    ch := fieldAt l 5 4, gkEn := fieldAt l 6 1, gk := fieldAt l 7 4, gsInv := fieldAt l 8 1, gs := fieldAt l 9 4,
    sy := fieldAt l 10 1, opc := fieldAt l 11 8 }

/-- The code of a payload's format class (04 R79). -/
def Payload.fmt : Payload → Nat
  | .f0 _ => 0
  | .f1 _ => 1
  | .f2 _ => 2
  | .f3 _ => 3
  | .f4 _ => 4
  | .f5 _ => 5

/-- The fields of a payload, lowest first: 85 bits in all. -/
def Payload.fields : Payload → List (Nat × Nat)
  | .f0 f => [(15, f.sub.toNat), (4, f.peek.toNat), (2, f.rm.toNat), (4, f.ty.toNat), (12, f.fe.toNat), (12, f.fc.toNat),
              (12, f.fb.toNat), (12, f.fa.toNat), (12, f.fd.toNat)]
  | .f1 f => [(9, f.sub.toNat), (2, f.peek.toNat), (2, f.rm.toNat), (4, f.ty.toNat), (32, f.imm.toNat), (12, f.fb.toNat),
              (12, f.fa.toNat), (12, f.fd.toNat)]
  | .f2 f => [(26, f.sub.toNat), (3, f.cc.toNat), (32, f.disp.toNat), (12, f.fb.toNat), (12, f.fa.toNat)]
  | .f3 f => [(4, f.sub.toNat), (4, f.ty.toNat), (2, f.ord.toNat), (4, f.ssc.toNat), (3, f.asc.toNat), (20, f.off.toNat),
              (12, f.hdl.toNat), (12, f.fb.toNat), (12, f.fa.toNat), (12, f.fd.toNat)]
  | .f4 f => [(21, f.sub.toNat), (3, f.tki.toNat), (1, f.tke.toNat), (12, f.idx.toNat), (12, f.b3.toNat), (12, f.b2.toNat),
              (12, f.b1.toNat), (12, f.b0.toNat)]
  | .f5 f => [(17, f.sub.toNat), (32, f.imm.toNat), (12, f.sys.toNat), (12, f.fa.toNat), (12, f.fd.toNat)]

/-- The widths of a format's fields, lowest first. -/
def payloadWidths (fmt : Nat) : List Nat :=
  match fmt with
  | 0 => [15, 4, 2, 4, 12, 12, 12, 12, 12]
  | 1 => [9, 2, 2, 4, 32, 12, 12, 12]
  | 2 => [26, 3, 32, 12, 12]
  | 3 => [4, 4, 2, 4, 3, 20, 12, 12, 12, 12]
  | 4 => [21, 3, 1, 12, 12, 12, 12, 12]
  | 5 => [17, 32, 12, 12, 12]
  | _ => []

/-- The payload of a format read from its field values; formats 6 to 15 are unassigned (04 R79). -/
def Payload.ofFields (fmt : Nat) (l : List Nat) : Option Payload :=
  match fmt with
  | 0 => some (.f0 { sub := fieldAt l 0 15, peek := fieldAt l 1 4, rm := fieldAt l 2 2, ty := fieldAt l 3 4,
                     fe := fieldAt l 4 12, fc := fieldAt l 5 12, fb := fieldAt l 6 12, fa := fieldAt l 7 12, fd := fieldAt l 8 12 })
  | 1 => some (.f1 { sub := fieldAt l 0 9, peek := fieldAt l 1 2, rm := fieldAt l 2 2, ty := fieldAt l 3 4,
                     imm := fieldAt l 4 32, fb := fieldAt l 5 12, fa := fieldAt l 6 12, fd := fieldAt l 7 12 })
  | 2 => some (.f2 { sub := fieldAt l 0 26, cc := fieldAt l 1 3, disp := fieldAt l 2 32, fb := fieldAt l 3 12, fa := fieldAt l 4 12 })
  | 3 => some (.f3 { sub := fieldAt l 0 4, ty := fieldAt l 1 4, ord := fieldAt l 2 2, ssc := fieldAt l 3 4, asc := fieldAt l 4 3,
                     off := fieldAt l 5 20, hdl := fieldAt l 6 12, fb := fieldAt l 7 12, fa := fieldAt l 8 12, fd := fieldAt l 9 12 })
  | 4 => some (.f4 { sub := fieldAt l 0 21, tki := fieldAt l 1 3, tke := fieldAt l 2 1, idx := fieldAt l 3 12,
                     b3 := fieldAt l 4 12, b2 := fieldAt l 5 12, b1 := fieldAt l 6 12, b0 := fieldAt l 7 12 })
  | 5 => some (.f5 { sub := fieldAt l 0 17, imm := fieldAt l 1 32, sys := fieldAt l 2 12, fa := fieldAt l 3 12, fd := fieldAt l 4 12 })
  | _ => none

/-- The lane word of a head and a payload. -/
def packWord (h : RawHead) (p : Payload) : LaneWord :=
  BitVec.ofNat 128 (packFields (p.fields ++ h.fields p.fmt))

/-- The format code of a lane word, bits 127 to 124. -/
def wordFmt (w : LaneWord) : Nat := w.toNat / 2 ^ 124

/-- The head and the payload of a lane word; none for an unassigned format class. -/
def unpackWord (w : LaneWord) : Option (RawHead × Payload) :=
  (Payload.ofFields (wordFmt w) (unpackFields (payloadWidths (wordFmt w)) w.toNat)).map fun p =>
    (RawHead.ofFields (unpackFields headWidths (w.toNat / 2 ^ 85)), p)

/-! ### Codes of the small fields -/

def Fmt.code : Fmt → BitVec 4
  | .f32 => 0 | .bf16 => 1 | .e4m3 => 2 | .e5m2 => 3 | .i8 => 4 | .i16 => 5 | .i32 => 6 | .i64 => 7
  | .n8 => 8 | .n16 => 9 | .n32 => 10 | .n64 => 11 | .q4 => 12 | .q6 => 13

/-- 03 R52. -/
def Fmt.ofCode (c : Nat) : Option Fmt :=
  match c with
  | 0 => some .f32 | 1 => some .bf16 | 2 => some .e4m3 | 3 => some .e5m2 | 4 => some .i8 | 5 => some .i16
  | 6 => some .i32 | 7 => some .i64 | 8 => some .n8 | 9 => some .n16 | 10 => some .n32 | 11 => some .n64
  | 12 => some .q4 | 13 => some .q6 | _ => none

def Rm.code : Rm → BitVec 2
  | .rne => 0 | .rz => 1 | .ru => 2 | .rd => 3

/-- 03 R53. -/
def Rm.ofCode (c : Nat) : Rm :=
  match c with
  | 0 => .rne | 1 => .rz | 2 => .ru | _ => .rd

def Hint.code : Hint → BitVec 4
  | .none => 0 | .pin => 1 | .last => 2 | .stream => 3 | .itin => 4

/-- 04 R77. -/
def Hint.ofCode (c : Nat) : Option Hint :=
  match c with
  | 0 => some .none | 1 => some .pin | 2 => some .last | 3 => some .stream | 4 => some .itin | _ => none

def Cc.code : Cc → BitVec 3
  | .nz => 0 | .z => 1 | .neg => 2 | .nneg => 3

/-- 04 R83. -/
def Cc.ofCode (c : Nat) : Option Cc :=
  match c with
  | 0 => some .nz | 1 => some .z | 2 => some .neg | 3 => some .nneg | _ => none

def Cond.code : Cond → Nat
  | .eq => 0 | .ne => 1 | .lt => 2 | .le => 3 | .gt => 4 | .ge => 5

/-- 05 R112. -/
def Cond.ofCode (c : Nat) : Option Cond :=
  match c with
  | 0 => some .eq | 1 => some .ne | 2 => some .lt | 3 => some .le | 4 => some .gt | 5 => some .ge | _ => none

def Join.code : Join → Nat
  | .set => 0 | .and => 1 | .or => 2

/-- 05 R112. -/
def Join.ofCode (c : Nat) : Option Join :=
  match c with
  | 0 => some .set | 1 => some .and | 2 => some .or | _ => none

def Scope.code : Scope → Nat
  | .slot => 0 | .group => 1 | .die => 2 | .device => 3 | .package => 4 | .fabric => 5

/-- 04 R84; 6 and 7 are reserved. -/
def Scope.ofCode (c : Nat) : Option Scope :=
  match c with
  | 0 => some .slot | 1 => some .group | 2 => some .die | 3 => some .device | 4 => some .package | 5 => some .fabric | _ => none

def Ord.code : Ord → BitVec 2
  | .rlx => 0 | .acq => 1 | .rel => 2 | .ar => 3

/-- 04 R84. -/
def Ord.ofCode (c : Nat) : Ord :=
  match c with
  | 0 => .rlx | 1 => .acq | 2 => .rel | _ => .ar

/-- Bit 13 L, bit 12 G, bit 11 P, bit 10 T (04 R84). -/
def Ssc.code (s : Ssc) : BitVec 4 :=
  BitVec.ofNat 4 (s.l.toNat * 8 + s.g.toNat * 4 + s.p.toNat * 2 + s.t.toNat)

def Ssc.ofCode (c : BitVec 4) : Ssc := { l := c.getLsbD 3, g := c.getLsbD 2, p := c.getLsbD 1, t := c.getLsbD 0 }

def STy.code : STy → BitVec 4
  | .i64 => 7 | .n64 => 11

def STy.ofCode (c : Nat) : Option STy :=
  match c with
  | 7 => some .i64 | 11 => some .n64 | _ => none

def AOp.code : AOp → BitVec 4
  | .add => 0 | .min => 1 | .max => 2 | .and => 3 | .or => 4 | .xor => 5 | .xchg => 6 | .cas => 7 | .fadd => 8

/-- 17 R368. -/
def AOp.ofCode (c : Nat) : Option AOp :=
  match c with
  | 0 => some .add | 1 => some .min | 2 => some .max | 3 => some .and | 4 => some .or | 5 => some .xor
  | 6 => some .xchg | 7 => some .cas | 8 => some .fadd | _ => none

def BarKind.code : BarKind → Nat
  | .group => 1 | .count => 3

/-- 15 R323. -/
def BarKind.ofCode (c : Nat) : Option BarKind :=
  match c with
  | 1 => some .group | 3 => some .count | _ => none

def View.code : View → Nat
  | .cont => 0 | .w8 => 1 | .w16 => 2 | .w6 => 3

/-- 07 R178. -/
def View.ofCode (c : Nat) : View :=
  match c with
  | 0 => .cont | 1 => .w8 | 2 => .w16 | _ => .w6

def KWidth.code : KWidth → Nat
  | .cont => 0 | .w6 => 1 | .w8 => 2 | .w16 => 3 | .w32 => 4

/-- 02 R41. -/
def KWidth.ofCode (c : Nat) : Option KWidth :=
  match c with
  | 0 => some .cont | 1 => some .w6 | 2 => some .w8 | 3 => some .w16 | 4 => some .w32 | _ => none

def RedOp.code : RedOp → Nat
  | .add => 0 | .min => 1 | .max => 2

/-- 07 R188. -/
def RedOp.ofCode (c : Nat) : Option RedOp :=
  match c with
  | 0 => some .add | 1 => some .min | 2 => some .max | _ => none

def TermSel.code : TermSel → Nat
  | .trmis => 0 | .trmzs => 1 | .trmsy => 2 | .trmdr => 3 | .trmrp => 4 | .trmst => 5

/-- 09 R240. -/
def TermSel.ofCode (c : Nat) : Option TermSel :=
  match c with
  | 0 => some .trmis | 1 => some .trmzs | 2 => some .trmsy | 3 => some .trmdr | 4 => some .trmrp | 5 => some .trmst | _ => none

/-! ### Names and operand fields -/

/-- The code of a name in the 11-bit name space (04 R87). Scalars stand at 0 but in the V slot, where they stand at 1536. -/
def Name.code (sl : Slot) : Name → Nat
  | .s n => if sl = .v then 1536 + n.val else n.val
  | .v n => n.val
  | .q n => 1600 + n.val
  | .k n => 1632 + n.val
  | .p n => 1648 + n.val
  | .z n => 1664 + n.val
  | .d n => 1672 + n.val
  | .zero => 1696
  | .one => 1697
  | .ones => 1698
  | .row => 1699
  | .col => 1700
  | .idx => 1701

/-- `some (f i)` when `i` is below the bound. -/
def finName {n : Nat} (f : Fin n → Name) (i : Nat) : Option Name :=
  if h : i < n then some (f ⟨i, h⟩) else none

/-- The name a code stands for in a slot (04 R87); none where the table leaves the name unassigned. -/
def Name.ofCode (sl : Slot) (c : Nat) : Option Name :=
  if c < 64 then if sl = .v then finName .v c else finName .s c
  else if c < 1536 then if sl = .v then finName .v c else none
  else if c < 1600 then if sl = .v then finName .s (c - 1536) else none
  else if c < 1632 then finName .q (c - 1600)
  else if c < 1648 then if sl = .v then finName .k (c - 1632) else none
  else if c < 1664 then finName .p (c - 1648)
  else if c < 1672 then if sl = .v ∨ sl = .m then finName .z (c - 1664) else none
  else if c < 1680 then if sl = .c then finName .d (c - 1672) else none
  else
    match c with
    | 1696 => some .zero
    | 1697 => some .one
    | 1698 => some .ones
    | 1699 => if sl = .v then some .row else none
    | 1700 => if sl = .v then some .col else none
    | 1701 => if sl = .v then some .idx else none
    | _ => none

/-- An operand field (04 R80). Its PEEK bit stands elsewhere. -/
def encOpr (sl : Slot) (o : Operand) : BitVec 12 :=
  BitVec.ofNat 12 (o.name.code sl + 2048 * o.last.toNat)

/-- An operand field with its PEEK bit. -/
def decOpr (sl : Slot) (f : BitVec 12) (peek : Bool := false) : Option Operand :=
  (Name.ofCode sl (f.toNat % 2048)).map fun n => { name := n, last := f.getLsbD 11, peek := peek }

/-- The weight `w` when the operand peeks. -/
def peekBit (o : Operand) (w : Nat) : Nat := if o.peek then w else 0

/-- PEEK of F0: 8 for FA, 4 for FB, 2 for FC, 1 for FE (04 R81). -/
def peek4 (n : Nat) : BitVec 4 := BitVec.ofNat 4 n

/-- PEEK of F1: 2 for FA, 1 for FB (04 R82). -/
def peek2 (n : Nat) : BitVec 2 := BitVec.ofNat 2 n

/-- SUB bit 0 of a payload, which selects between the two forms of an opcode; CC and the others have none. -/
def Payload.subBit0 : Payload → Bool
  | .f0 f => f.sub.getLsbD 0
  | .f1 f => f.sub.getLsbD 0
  | .f2 f => f.sub.getLsbD 0
  | .f3 f => f.sub.getLsbD 0
  | .f4 f => f.sub.getLsbD 0
  | .f5 f => f.sub.getLsbD 0

/-- A token push in F4: TKE and TKI (04 R85). -/
def tkePair (p : Option (Fin 8)) : BitVec 1 × BitVec 3 :=
  match p with
  | none => (0, 0)
  | some n => (1, BitVec.ofNat 3 n.val)

def decPush (tke : BitVec 1) (tki : BitVec 3) : Option (Fin 8) :=
  if tke = 0 then none else some ⟨tki.toNat, tki.isLt⟩

/-- A token push in SUB bits 3..0 of F3 (17 R367). -/
def subPush (p : Option (Fin 8)) : BitVec 4 :=
  match p with
  | none => 0
  | some n => BitVec.ofNat 4 (1 + 2 * n.val)

def decSubPush (s : BitVec 4) : Option (Fin 8) :=
  if s.getLsbD 0 then some ⟨s.toNat / 2, by have := s.isLt; omega⟩ else none

/-- A flag as a number. -/
def flag (b : Bool) (w : Nat) : Nat := if b then w else 0

/-! ### The operand shapes, each with its fields -/

def encBrOp (sl : Slot) (o : BrOp) : Payload :=
  .f2 { fa := encOpr sl o.src, disp := o.disp, cc := o.cc.code }

/-- 05 R113. -/
def decBrOp (sl : Slot) (p : Payload) : Option BrOp :=
  match p with
  | .f2 f => do
    let a ← decOpr sl f.fa
    let c ← Cc.ofCode f.cc.toNat
    some { src := a, disp := f.disp, cc := c }
  | _ => none

def encBrxOp (sl : Slot) (o : BrxOp) : Payload :=
  .f2 { fa := encOpr sl o.tgt, fb := encOpr sl o.src, cc := o.cc.code }

/-- 05 R113. -/
def decBrxOp (sl : Slot) (p : Payload) : Option BrxOp :=
  match p with
  | .f2 f => do
    let a ← decOpr sl f.fa
    let b ← decOpr sl f.fb
    let c ← Cc.ofCode f.cc.toNat
    some { tgt := a, src := b, cc := c }
  | _ => none

def encRegDisp (sl : Slot) (o : RegDisp) : Payload := .f2 { fa := encOpr sl o.r, disp := o.disp }

/-- CALL (05 R113) and LPSET (R116). -/
def decRegDisp (sl : Slot) (p : Payload) : Option RegDisp :=
  match p with
  | .f2 f => (decOpr sl f.fa).map fun a => { r := a, disp := f.disp }
  | _ => none

def encRet (sl : Slot) (o : Operand) : Payload := .f2 { fa := encOpr sl o }

/-- 05 R113. -/
def decRet (sl : Slot) (p : Payload) : Option Operand :=
  match p with
  | .f2 f => decOpr sl f.fa
  | _ => none

def encExit (_ : Slot) (o : BitVec 32) : Payload := .f2 { disp := o, sub := 1 }

/-- The exit form of LPEND (05 R117). -/
def decExit (_ : Slot) (p : Payload) : Option (BitVec 32) :=
  match p with
  | .f2 f => some f.disp
  | _ => none

def encSkip (_ : Slot) (o : BitVec 32) : Payload := .f2 { disp := o }

/-- VSKIPZ (07 R175). -/
def decSkip (_ : Slot) (p : Payload) : Option (BitVec 32) :=
  match p with
  | .f2 f => some f.disp
  | _ => none

def encSBin (sl : Slot) (o : SBin) : Payload :=
  match o.b with
  | .reg b => .f0 { fd := encOpr sl o.d, fa := encOpr sl o.a, fb := encOpr sl b, ty := o.ty.code,
                    peek := peek4 (peekBit o.a 8 + peekBit b 4) }
  | .imm i => .f1 { fd := encOpr sl o.d, fa := encOpr sl o.a, imm := i, ty := o.ty.code, peek := peek2 (peekBit o.a 2) }

/-- 05 R110. -/
def decSBin (sl : Slot) (p : Payload) : Option SBin :=
  match p with
  | .f0 f => do
    let d ← decOpr sl f.fd
    let a ← decOpr sl f.fa (f.peek.getLsbD 3)
    let b ← decOpr sl f.fb (f.peek.getLsbD 2)
    let t ← STy.ofCode f.ty.toNat
    some { ty := t, d := d, a := a, b := .reg b }
  | .f1 f => do
    let d ← decOpr sl f.fd
    let a ← decOpr sl f.fa (f.peek.getLsbD 1)
    let t ← STy.ofCode f.ty.toNat
    some { ty := t, d := d, a := a, b := .imm f.imm }
  | _ => none

def encSUn (sl : Slot) (o : SUn) : Payload :=
  .f0 { fd := encOpr sl o.d, fa := encOpr sl o.a, ty := o.ty.code, peek := peek4 (peekBit o.a 8) }

/-- 05 R110, R111. -/
def decSUn (sl : Slot) (p : Payload) : Option SUn :=
  match p with
  | .f0 f => do
    let d ← decOpr sl f.fd
    let a ← decOpr sl f.fa (f.peek.getLsbD 3)
    let t ← STy.ofCode f.ty.toNat
    some { ty := t, d := d, a := a }
  | _ => none

def encSSel (sl : Slot) (o : SSel) : Payload :=
  .f0 { fd := encOpr sl o.d, fa := encOpr sl o.a, fb := encOpr sl o.b, fc := encOpr sl o.p, ty := o.ty.code,
        peek := peek4 (peekBit o.a 8 + peekBit o.b 4) }

/-- 05 R111. -/
def decSSel (sl : Slot) (p : Payload) : Option SSel :=
  match p with
  | .f0 f => do
    let d ← decOpr sl f.fd
    let a ← decOpr sl f.fa (f.peek.getLsbD 3)
    let b ← decOpr sl f.fb (f.peek.getLsbD 2)
    let c ← decOpr sl f.fc
    let t ← STy.ofCode f.ty.toNat
    some { ty := t, d := d, a := a, b := b, p := c }
  | _ => none

def encMovi (sl : Slot) (o : SImm) : Payload := .f1 { fd := encOpr sl o.d, imm := o.imm, ty := o.ty.code }

/-- MOVI, low form (05 R111). -/
def decMovi (sl : Slot) (p : Payload) : Option SImm :=
  match p with
  | .f1 f => do
    let d ← decOpr sl f.fd
    let t ← STy.ofCode f.ty.toNat
    some { ty := t, d := d, imm := f.imm }
  | _ => none

def encMoviHigh (sl : Slot) (o : SImm) : Payload := .f1 { fd := encOpr sl o.d, imm := o.imm, ty := o.ty.code, sub := 1 }

/-- MOVI, high form (05 R111). -/
def decMoviHigh (sl : Slot) (p : Payload) : Option SImm := decMovi sl p

def encSCmp (sl : Slot) (o : SCmp) : Payload :=
  match o.b with
  | .reg b => .f0 { fd := encOpr sl o.d, fa := encOpr sl o.a, fb := encOpr sl b, ty := o.ty.code,
                    peek := peek4 (peekBit o.a 8 + peekBit b 4), sub := BitVec.ofNat 15 (o.cond.code + 8 * o.join.code) }
  | .imm i => .f1 { fd := encOpr sl o.d, fa := encOpr sl o.a, imm := i, ty := o.ty.code, peek := peek2 (peekBit o.a 2),
                    sub := BitVec.ofNat 9 (o.cond.code + 8 * o.join.code) }

/-- 05 R112. -/
def decSCmp (sl : Slot) (p : Payload) : Option SCmp :=
  match p with
  | .f0 f => do
    let d ← decOpr sl f.fd
    let a ← decOpr sl f.fa (f.peek.getLsbD 3)
    let b ← decOpr sl f.fb (f.peek.getLsbD 2)
    let t ← STy.ofCode f.ty.toNat
    let c ← Cond.ofCode (f.sub.toNat % 8)
    let j ← Join.ofCode (f.sub.toNat / 8 % 4)
    some { ty := t, d := d, a := a, b := .reg b, cond := c, join := j }
  | .f1 f => do
    let d ← decOpr sl f.fd
    let a ← decOpr sl f.fa (f.peek.getLsbD 1)
    let t ← STy.ofCode f.ty.toNat
    let c ← Cond.ofCode (f.sub.toNat % 8)
    let j ← Join.ofCode (f.sub.toNat / 8 % 4)
    some { ty := t, d := d, a := a, b := .imm f.imm, cond := c, join := j }
  | _ => none

def encQDrop (sl : Slot) (o : Operand) : Payload := .f0 { fa := encOpr sl o }

/-- 05 R118. -/
def decQDrop (sl : Slot) (p : Payload) : Option Operand :=
  match p with
  | .f0 f => decOpr sl f.fa
  | _ => none

def encQCntOp (sl : Slot) (o : QCntOp) : Payload := .f0 { fd := encOpr sl o.d, fa := encOpr sl o.q }

/-- 05 R119. -/
def decQCntOp (sl : Slot) (p : Payload) : Option QCntOp :=
  match p with
  | .f0 f => do
    let d ← decOpr sl f.fd
    let q ← decOpr sl f.fa
    some { d := d, q := q }
  | _ => none

def encTidWrOp (sl : Slot) (o : TidWrOp) : Payload :=
  .f1 { fa := encOpr sl o.idx, fb := encOpr sl o.val, imm := o.base.setWidth 32, sub := o.w.setWidth 9,
        peek := peek2 (peekBit o.idx 2 + peekBit o.val 1) }

/-- 05 R120. -/
def decTidWrOp (sl : Slot) (p : Payload) : Option TidWrOp :=
  match p with
  | .f1 f => do
    let a ← decOpr sl f.fa (f.peek.getLsbD 1)
    let b ← decOpr sl f.fb (f.peek.getLsbD 0)
    some { idx := a, base := f.imm.setWidth 12, w := f.sub.setWidth 4, val := b }
  | _ => none

def encTidRdOp (sl : Slot) (o : TidRdOp) : Payload :=
  .f1 { fd := encOpr sl o.d, fa := encOpr sl o.idx, imm := o.base.setWidth 32, sub := o.w.setWidth 9,
        peek := peek2 (peekBit o.idx 2) }

/-- 05 R120. -/
def decTidRdOp (sl : Slot) (p : Payload) : Option TidRdOp :=
  match p with
  | .f1 f => do
    let d ← decOpr sl f.fd
    let a ← decOpr sl f.fa (f.peek.getLsbD 1)
    some { d := d, idx := a, base := f.imm.setWidth 12, w := f.sub.setWidth 4 }
  | _ => none

def encRdSys (sl : Slot) (o : SysOp) : Payload := .f5 { fd := encOpr sl o.r, sys := o.sys }

/-- RDSYS (05 R122). -/
def decRdSys (sl : Slot) (p : Payload) : Option SysOp :=
  match p with
  | .f5 f => (decOpr sl f.fd).map fun r => { r := r, sys := f.sys }
  | _ => none

def encWrSys (sl : Slot) (o : SysOp) : Payload := .f5 { fa := encOpr sl o.r, sys := o.sys }

/-- WRSYS, register form (05 R122). -/
def decWrSys (sl : Slot) (p : Payload) : Option SysOp :=
  match p with
  | .f5 f => (decOpr sl f.fa).map fun r => { r := r, sys := f.sys }
  | _ => none

def encSysImm (_ : Slot) (o : SysImm) : Payload := .f5 { sys := o.sys, imm := o.imm, sub := 1 }

/-- WRSYS, immediate form (05 R122). -/
def decSysImm (_ : Slot) (p : Payload) : Option SysImm :=
  match p with
  | .f5 f => some { sys := f.sys, imm := f.imm }
  | _ => none

def encRdCyc (sl : Slot) (o : Operand) : Payload := .f5 { fd := encOpr sl o }

/-- 05 R124. -/
def decRdCyc (sl : Slot) (p : Payload) : Option Operand :=
  match p with
  | .f5 f => decOpr sl f.fd
  | _ => none

def encTrapOp (sl : Slot) (o : TrapOp) : Payload := .f5 { fa := encOpr sl o.src, imm := o.code.setWidth 32 }

/-- 05 R125. -/
def decTrapOp (sl : Slot) (p : Payload) : Option TrapOp :=
  match p with
  | .f5 f => (decOpr sl f.fa).map fun r => { src := r, code := f.imm.setWidth 16 }
  | _ => none

/-- The order fields of F3 (04 R84). -/
def decOrder (f : F3) : Option Order :=
  (Scope.ofCode f.asc.toNat).map fun a => { asc := a, ssc := Ssc.ofCode f.ssc, ord := Ord.ofCode f.ord.toNat }

/-- The address fields of F3. -/
def decAddr (sl : Slot) (f : F3) : Option Addr :=
  (decOpr sl f.fa).map fun a => { fa := a, hdl := f.hdl, off := f.off }

/-- F3 with an address and an order. -/
def f3Of (sl : Slot) (ad : Addr) (o : Order) (fd fb : BitVec 12) (ty sub : BitVec 4) : Payload :=
  .f3 { fd := fd, fa := encOpr sl ad.fa, fb := fb, hdl := ad.hdl, off := ad.off, asc := BitVec.ofNat 3 o.asc.code,
        ssc := o.ssc.code, ord := o.ord.code, ty := ty, sub := sub }

def encLdOp (sl : Slot) (o : LdOp) : Payload := f3Of sl o.ad o.o (encOpr sl o.d) 0 o.ty.code 0

/-- LD, LDL (06 R135). -/
def decLdOp (sl : Slot) (p : Payload) : Option LdOp :=
  match p with
  | .f3 f => do
    let d ← decOpr sl f.fd
    let a ← decAddr sl f
    let o ← decOrder f
    let t ← Fmt.ofCode f.ty.toNat
    some { ty := t, d := d, ad := a, o := o }
  | _ => none

def encStOp (sl : Slot) (o : StOp) : Payload := f3Of sl o.ad o.o 0 (encOpr sl o.b) o.ty.code 0

/-- ST, STL (06 R135). -/
def decStOp (sl : Slot) (p : Payload) : Option StOp :=
  match p with
  | .f3 f => do
    let b ← decOpr sl f.fb
    let a ← decAddr sl f
    let o ← decOrder f
    let t ← Fmt.ofCode f.ty.toNat
    some { ty := t, b := b, ad := a, o := o }
  | _ => none

def encLdq (sl : Slot) (loc : Bool) (o : QMemOp) : Payload :=
  f3Of sl o.ad o.o (encOpr sl o.q) 0 0 (BitVec.ofNat 4 (flag loc 1))

/-- LDQ (06 R136). -/
def decLdq (sl : Slot) (_ : Bool) (p : Payload) : Option QMemOp :=
  match p with
  | .f3 f => do
    let q ← decOpr sl f.fd
    let a ← decAddr sl f
    let o ← decOrder f
    some { q := q, ad := a, o := o }
  | _ => none

def encStq (sl : Slot) (loc : Bool) (o : QMemOp) : Payload :=
  f3Of sl o.ad o.o 0 (encOpr sl o.q) 0 (BitVec.ofNat 4 (flag loc 1))

/-- STQ (06 R136). -/
def decStq (sl : Slot) (_ : Bool) (p : Payload) : Option QMemOp :=
  match p with
  | .f3 f => do
    let q ← decOpr sl f.fb
    let a ← decAddr sl f
    let o ← decOrder f
    some { q := q, ad := a, o := o }
  | _ => none

def encAtOp (sl : Slot) (o : AtOp) : Payload :=
  match o.d with
  | none => f3Of sl o.ad o.o 0 (encOpr sl o.b) o.ty.code 1
  | some d => f3Of sl o.ad o.o (encOpr sl d) (encOpr sl o.b) o.ty.code 0

/-- The A-slot atomics (06 R137). -/
def decAtOp (sl : Slot) (p : Payload) : Option AtOp :=
  match p with
  | .f3 f => do
    let b ← decOpr sl f.fb
    let a ← decAddr sl f
    let o ← decOrder f
    let t ← Fmt.ofCode f.ty.toNat
    if f.sub.getLsbD 0 then some { ty := t, d := none, b := b, ad := a, o := o }
    else (decOpr sl f.fd).map fun d => { ty := t, d := some d, b := b, ad := a, o := o }
  | _ => none

def encFenceOp (_ : Slot) (o : FenceOp) : Payload :=
  .f3 { asc := BitVec.ofNat 3 o.o.asc.code, ssc := o.o.ssc.code, ord := o.o.ord.code, sub := BitVec.ofNat 4 (flag o.engines 1) }

/-- 06 R141. -/
def decFenceOp (_ : Slot) (p : Payload) : Option FenceOp :=
  match p with
  | .f3 f => (decOrder f).map fun o => { o := o, engines := f.sub.getLsbD 0 }
  | _ => none

def encQJoin (_ : Slot) (o : BitVec 6) : Payload := .f0 { sub := o.setWidth 15 }

/-- 06 R142. -/
def decQJoin (_ : Slot) (p : Payload) : Option (BitVec 6) :=
  match p with
  | .f0 f => some (f.sub.setWidth 6)
  | _ => none

def encRecOp (sl : Slot) (o : RecOp) : Payload :=
  .f4 { b0 := encOpr sl o.b0, b1 := encOpr sl o.b1, b2 := encOpr sl o.b2, b3 := encOpr sl o.b3, idx := o.idx,
        tke := (tkePair o.push).1, tki := (tkePair o.push).2 }

/-- 06 R143, 09 R237. -/
def decRecOp (sl : Slot) (p : Payload) : Option RecOp :=
  match p with
  | .f4 f => do
    let b0 ← decOpr sl f.b0
    let b1 ← decOpr sl f.b1
    let b2 ← decOpr sl f.b2
    let b3 ← decOpr sl f.b3
    some { b0 := b0, b1 := b1, b2 := b2, b3 := b3, idx := f.idx, push := decPush f.tke f.tki }
  | _ => none

def encMSendOp (sl : Slot) (o : MSendOp) : Payload :=
  .f3 { fd := encOpr sl o.d, fa := encOpr sl o.dst, fb := encOpr sl o.src, off := o.len }

/-- 06 R155. -/
def decMSendOp (sl : Slot) (p : Payload) : Option MSendOp :=
  match p with
  | .f3 f => do
    let d ← decOpr sl f.fd
    let a ← decOpr sl f.fa
    let b ← decOpr sl f.fb
    some { d := d, dst := a, src := b, len := f.off }
  | _ => none

def encRGet (sl : Slot) (pop : Bool) (o : RGetOp) : Payload :=
  .f3 { fd := encOpr sl o.d, off := o.ring.setWidth 20, sub := BitVec.ofNat 4 (flag pop 1) }

/-- 06 R156. -/
def decRGet (sl : Slot) (_ : Bool) (p : Payload) : Option RGetOp :=
  match p with
  | .f3 f => (decOpr sl f.fd).map fun d => { d := d, ring := f.off.setWidth 4 }
  | _ => none

def encRWaitOp (sl : Slot) (o : RWaitOp) : Payload :=
  .f3 { fd := encOpr sl o.d, fa := encOpr sl o.cnt, off := o.ring.setWidth 20 }

/-- 06 R157. -/
def decRWaitOp (sl : Slot) (p : Payload) : Option RWaitOp :=
  match p with
  | .f3 f => do
    let d ← decOpr sl f.fd
    let a ← decOpr sl f.fa
    some { d := d, ring := f.off.setWidth 4, cnt := a }
  | _ => none

def encFwrOp (sl : Slot) (o : FwrOp) : Payload :=
  f3Of sl o.ad o.o (encOpr sl o.len) (encOpr sl o.src) 0 (subPush o.push)

/-- 17 R367. -/
def decFwrOp (sl : Slot) (p : Payload) : Option FwrOp :=
  match p with
  | .f3 f => do
    let n ← decOpr sl f.fd
    let b ← decOpr sl f.fb
    let a ← decAddr sl f
    let o ← decOrder f
    some { len := n, src := b, ad := a, o := o, push := decSubPush f.sub }
  | _ => none

/-- ASC, SSC and ORD of an instruction that is relaxed with no scope, or a release with one (17 R369, 18 R380). -/
def relFields (r : Option (Scope × Ssc)) : BitVec 3 × BitVec 4 × BitVec 2 :=
  match r with
  | none => (0, 0, 0)
  | some (a, s) => (BitVec.ofNat 3 a.code, s.code, 2)

def decRel (f : F3) : Option (Option (Scope × Ssc)) :=
  if f.ord = 0 then some none
  else (Scope.ofCode f.asc.toNat).map fun a => some (a, Ssc.ofCode f.ssc)

def encFreqOp (sl : Slot) (o : FreqOp) : Payload :=
  .f3 { fd := encOpr sl o.d, fa := encOpr sl o.dst, fb := encOpr sl o.src, off := o.len, asc := (relFields o.rel).1,
        ssc := (relFields o.rel).2.1, ord := (relFields o.rel).2.2, sub := subPush o.push }

/-- 17 R369. -/
def decFreqOp (sl : Slot) (p : Payload) : Option FreqOp :=
  match p with
  | .f3 f => do
    let d ← decOpr sl f.fd
    let a ← decOpr sl f.fa
    let b ← decOpr sl f.fb
    let r ← decRel f
    some { d := d, dst := a, src := b, len := f.off, rel := r, push := decSubPush f.sub }
  | _ => none

def encFatomOp (sl : Slot) (o : FatomOp) : Payload :=
  f3Of sl o.ad o.o (match o.d with | none => 1696 | some d => encOpr sl d) (encOpr sl o.b) o.ty.code o.op.code

/-- 17 R368: the posted form names c.zero in FD. -/
def decFatomOp (sl : Slot) (p : Payload) : Option FatomOp :=
  match p with
  | .f3 f => do
    let b ← decOpr sl f.fb
    let a ← decAddr sl f
    let o ← decOrder f
    let t ← Fmt.ofCode f.ty.toNat
    let op ← AOp.ofCode f.sub.toNat
    if f.fd = 1696 then some { ty := t, op := op, d := none, b := b, ad := a, o := o }
    else (decOpr sl f.fd).map fun d => { ty := t, op := op, d := some d, b := b, ad := a, o := o }
  | _ => none

def encLzOffer (sl : Slot) (o : LzOfferOp) : Payload :=
  .f3 { fa := encOpr sl o.j, fb := encOpr sl o.b, off := o.zone.setWidth 20 }

/-- 18 R380. -/
def decLzOffer (sl : Slot) (p : Payload) : Option LzOfferOp :=
  match p with
  | .f3 f => do
    let a ← decOpr sl f.fa
    let b ← decOpr sl f.fb
    some { zone := f.off.setWidth 4, j := a, b := b }
  | _ => none

def encLzGrantOp (sl : Slot) (o : LzGrantOp) : Payload :=
  .f3 { fd := encOpr sl o.d, fa := encOpr sl o.j, fb := encOpr sl o.w, off := o.zone.setWidth 20, asc := (relFields o.rel).1,
        ssc := (relFields o.rel).2.1, ord := (relFields o.rel).2.2 }

/-- 18 R380. -/
def decLzGrantOp (sl : Slot) (p : Payload) : Option LzGrantOp :=
  match p with
  | .f3 f => do
    let d ← decOpr sl f.fd
    let a ← decOpr sl f.fa
    let b ← decOpr sl f.fb
    let r ← decRel f
    some { d := d, zone := f.off.setWidth 4, j := a, w := b, rel := r }
  | _ => none

def encLzPutOp (sl : Slot) (o : LzPutOp) : Payload :=
  .f3 { fd := encOpr sl o.d, fa := encOpr sl o.g, fb := encOpr sl o.src, off := o.off, asc := BitVec.ofNat 3 o.o.asc.code,
        ssc := o.o.ssc.code, ord := o.o.ord.code, sub := subPush o.push }

/-- 18 R380. -/
def decLzPutOp (sl : Slot) (p : Payload) : Option LzPutOp :=
  match p with
  | .f3 f => do
    let d ← decOpr sl f.fd
    let a ← decOpr sl f.fa
    let b ← decOpr sl f.fb
    let o ← decOrder f
    some { d := d, g := a, off := f.off, src := b, o := o, push := decSubPush f.sub }
  | _ => none

def encLzAdoptOp (sl : Slot) (o : LzAdoptOp) : Payload :=
  .f3 { fd := encOpr sl o.ed, fa := encOpr sl o.j, fb := encOpr sl o.c, hdl := o.t, off := o.zone.setWidth 20 }

/-- 18 R380. -/
def decLzAdoptOp (sl : Slot) (p : Payload) : Option LzAdoptOp :=
  match p with
  | .f3 f => do
    let e ← decOpr sl f.fd
    let a ← decOpr sl f.fa
    let b ← decOpr sl f.fb
    some { t := f.hdl, ed := e, c := b, zone := f.off.setWidth 4, j := a }
  | _ => none

def encLzFreeOp (sl : Slot) (o : LzFreeOp) : Payload := .f3 { fa := encOpr sl o.j, off := o.zone.setWidth 20 }

/-- 18 R380. -/
def decLzFreeOp (sl : Slot) (p : Payload) : Option LzFreeOp :=
  match p with
  | .f3 f => (decOpr sl f.fa).map fun a => { zone := f.off.setWidth 4, j := a }
  | _ => none

def encLzStatOp (sl : Slot) (o : LzStatOp) : Payload :=
  .f3 { fd := encOpr sl o.d, fa := encOpr sl o.j, off := o.zone.setWidth 20, asc := 1, ssc := o.ssc.code,
        ord := BitVec.ofNat 2 (flag o.acq 1) }

/-- 18 R380: ASC is 1. -/
def decLzStatOp (sl : Slot) (p : Payload) : Option LzStatOp :=
  match p with
  | .f3 f => do
    let d ← decOpr sl f.fd
    let a ← decOpr sl f.fa
    some { d := d, zone := f.off.setWidth 4, j := a, ssc := Ssc.ofCode f.ssc, acq := f.ord.getLsbD 0 }
  | _ => none

def encBarInitOp (sl : Slot) (o : BarInitOp) : Payload :=
  f3Of sl o.ad o.o (encOpr sl o.d) (encOpr sl o.t) 0 (BitVec.ofNat 4 (2 * o.kind.code + flag o.rearm 8))

/-- 15 R323. -/
def decBarInitOp (sl : Slot) (p : Payload) : Option BarInitOp :=
  match p with
  | .f3 f => do
    let d ← decOpr sl f.fd
    let t ← decOpr sl f.fb
    let a ← decAddr sl f
    let o ← decOrder f
    let k ← BarKind.ofCode (f.sub.toNat / 2 % 4)
    some { d := d, t := t, kind := k, rearm := f.sub.getLsbD 3, ad := a, o := o }
  | _ => none

def encBarArvOp (sl : Slot) (o : BarArvOp) : Payload :=
  match o.d with
  | none => f3Of sl o.ad o.o 0 (encOpr sl o.w) 0 (BitVec.ofNat 4 (flag o.pchk 2 + flag o.pexp 4))
  | some d => f3Of sl o.ad o.o (encOpr sl d) (encOpr sl o.w) 0 (BitVec.ofNat 4 (flag o.pchk 2 + flag o.pexp 4 + 8))

/-- 15 R323. -/
def decBarArvOp (sl : Slot) (p : Payload) : Option BarArvOp :=
  match p with
  | .f3 f => do
    let w ← decOpr sl f.fb
    let a ← decAddr sl f
    let o ← decOrder f
    if f.sub.getLsbD 3 then
      (decOpr sl f.fd).map fun d =>
        { d := some d, w := w, pchk := f.sub.getLsbD 1, pexp := f.sub.getLsbD 2, ad := a, o := o }
    else some { d := none, w := w, pchk := f.sub.getLsbD 1, pexp := f.sub.getLsbD 2, ad := a, o := o }
  | _ => none

def encBarWaitOp (sl : Slot) (o : BarWaitOp) : Payload :=
  f3Of sl o.ad o.o (encOpr sl o.d) (encOpr sl o.ph) 0 (BitVec.ofNat 4 (flag o.loc 1))

/-- 15 R323. -/
def decBarWaitOp (sl : Slot) (p : Payload) : Option BarWaitOp :=
  match p with
  | .f3 f => do
    let d ← decOpr sl f.fd
    let b ← decOpr sl f.fb
    let a ← decAddr sl f
    let o ← decOrder f
    some { d := d, ph := b, loc := f.sub.getLsbD 0, ad := a, o := o }
  | _ => none

def encBarTstOp (sl : Slot) (o : BarTstOp) : Payload :=
  f3Of sl o.ad o.o (encOpr sl o.d) 0 0 (BitVec.ofNat 4 (flag o.loc 1))

/-- 15 R323. -/
def decBarTstOp (sl : Slot) (p : Payload) : Option BarTstOp :=
  match p with
  | .f3 f => do
    let d ← decOpr sl f.fd
    let a ← decAddr sl f
    let o ← decOrder f
    some { d := d, loc := f.sub.getLsbD 0, ad := a, o := o }
  | _ => none

def encPgpfOp (sl : Slot) (o : PgpfOp) : Payload := f3Of sl o.ad o.o (encOpr sl o.d) 0 0 0

/-- 16 R343. -/
def decPgpfOp (sl : Slot) (p : Payload) : Option PgpfOp :=
  match p with
  | .f3 f => do
    let d ← decOpr sl f.fd
    let a ← decAddr sl f
    let o ← decOrder f
    some { d := d, ad := a, o := o }
  | _ => none

def encPginOp (sl : Slot) (o : PginOp) : Payload := f3Of sl o.ad o.o (encOpr sl o.d) (encOpr sl o.n) 0 0

/-- 16 R343. -/
def decPginOp (sl : Slot) (p : Payload) : Option PginOp :=
  match p with
  | .f3 f => do
    let d ← decOpr sl f.fd
    let n ← decOpr sl f.fb
    let a ← decAddr sl f
    let o ← decOrder f
    some { d := d, n := n, ad := a, o := o }
  | _ => none

def encLaunchOp (sl : Slot) (o : LaunchOp) : Payload :=
  f3Of sl o.ad o.o (encOpr sl o.d) (encOpr sl o.q) 0 (BitVec.ofNat 4 (flag o.pre 1 + 2 * o.done.toNat))

/-- 12 R291. -/
def decLaunchOp (sl : Slot) (p : Payload) : Option LaunchOp :=
  match p with
  | .f3 f => do
    let d ← decOpr sl f.fd
    let q ← decOpr sl f.fb
    let a ← decAddr sl f
    let o ← decOrder f
    some { d := d, q := q, ad := a, pre := f.sub.getLsbD 0, done := BitVec.ofNat 3 (f.sub.toNat / 2), o := o }
  | _ => none

def encQEntryOp (sl : Slot) (o : QEntryOp) : Payload :=
  .f3 { fd := encOpr sl o.d, fa := encOpr sl o.fa, fb := encOpr sl o.q, off := o.off, asc := BitVec.ofNat 3 o.o.asc.code,
        ssc := o.o.ssc.code, ord := o.o.ord.code }

/-- 12 R291. -/
def decQEntryOp (sl : Slot) (p : Payload) : Option QEntryOp :=
  match p with
  | .f3 f => do
    let d ← decOpr sl f.fd
    let q ← decOpr sl f.fb
    let a ← decOpr sl f.fa
    let o ← decOrder f
    some { d := d, q := q, fa := a, off := f.off, o := o }
  | _ => none

def encVBin (sl : Slot) (o : VBin) : Payload :=
  match o.b with
  | .reg b => .f0 { fd := encOpr sl o.d, fa := encOpr sl o.a, fb := encOpr sl b, ty := o.ty.code, rm := o.rm.code,
                    peek := peek4 (peekBit o.a 8 + peekBit b 4), sub := BitVec.ofNat 15 (flag o.sat 1) }
  | .imm i => .f1 { fd := encOpr sl o.d, fa := encOpr sl o.a, imm := i, ty := o.ty.code, rm := o.rm.code,
                    peek := peek2 (peekBit o.a 2), sub := BitVec.ofNat 9 (flag o.sat 1) }

/-- 07 R166, R170. -/
def decVBin (sl : Slot) (p : Payload) : Option VBin :=
  match p with
  | .f0 f => do
    let d ← decOpr sl f.fd
    let a ← decOpr sl f.fa (f.peek.getLsbD 3)
    let b ← decOpr sl f.fb (f.peek.getLsbD 2)
    let t ← Fmt.ofCode f.ty.toNat
    some { ty := t, rm := Rm.ofCode f.rm.toNat, sat := f.sub.getLsbD 0, d := d, a := a, b := .reg b }
  | .f1 f => do
    let d ← decOpr sl f.fd
    let a ← decOpr sl f.fa (f.peek.getLsbD 1)
    let t ← Fmt.ofCode f.ty.toNat
    some { ty := t, rm := Rm.ofCode f.rm.toNat, sat := f.sub.getLsbD 0, d := d, a := a, b := .imm f.imm }
  | _ => none

def encVTern (sl : Slot) (o : VTern) : Payload :=
  .f0 { fd := encOpr sl o.d, fa := encOpr sl o.a, fb := encOpr sl o.b, fc := encOpr sl o.c, ty := o.ty.code, rm := o.rm.code,
        peek := peek4 (peekBit o.a 8 + peekBit o.b 4 + peekBit o.c 2) }

/-- VFMA, VFMS (07 R166). -/
def decVTern (sl : Slot) (p : Payload) : Option VTern :=
  match p with
  | .f0 f => do
    let d ← decOpr sl f.fd
    let a ← decOpr sl f.fa (f.peek.getLsbD 3)
    let b ← decOpr sl f.fb (f.peek.getLsbD 2)
    let c ← decOpr sl f.fc (f.peek.getLsbD 1)
    let t ← Fmt.ofCode f.ty.toNat
    some { ty := t, rm := Rm.ofCode f.rm.toNat, d := d, a := a, b := b, c := c }
  | _ => none

def encVUn (sl : Slot) (o : VUn) : Payload :=
  .f0 { fd := encOpr sl o.d, fa := encOpr sl o.a, ty := o.ty.code, rm := o.rm.code, peek := peek4 (peekBit o.a 8),
        sub := BitVec.ofNat 15 (flag o.sat 1) }

/-- 07 R166, R170. -/
def decVUn (sl : Slot) (p : Payload) : Option VUn :=
  match p with
  | .f0 f => do
    let d ← decOpr sl f.fd
    let a ← decOpr sl f.fa (f.peek.getLsbD 3)
    let t ← Fmt.ofCode f.ty.toNat
    some { ty := t, rm := Rm.ofCode f.rm.toNat, sat := f.sub.getLsbD 0, d := d, a := a }
  | _ => none

def encVCmpOp (sl : Slot) (o : VCmpOp) : Payload :=
  match o.b with
  | .reg b => .f0 { fd := encOpr sl o.d, fa := encOpr sl o.a, fb := encOpr sl b, ty := o.ty.code,
                    peek := peek4 (peekBit o.a 8 + peekBit b 4), sub := BitVec.ofNat 15 o.cond.code }
  | .imm i => .f1 { fd := encOpr sl o.d, fa := encOpr sl o.a, imm := i, ty := o.ty.code, peek := peek2 (peekBit o.a 2),
                    sub := BitVec.ofNat 9 o.cond.code }

/-- 07 R171. -/
def decVCmpOp (sl : Slot) (p : Payload) : Option VCmpOp :=
  match p with
  | .f0 f => do
    let d ← decOpr sl f.fd
    let a ← decOpr sl f.fa (f.peek.getLsbD 3)
    let b ← decOpr sl f.fb (f.peek.getLsbD 2)
    let t ← Fmt.ofCode f.ty.toNat
    let c ← Cond.ofCode (f.sub.toNat % 8)
    some { ty := t, cond := c, d := d, a := a, b := .reg b }
  | .f1 f => do
    let d ← decOpr sl f.fd
    let a ← decOpr sl f.fa (f.peek.getLsbD 1)
    let t ← Fmt.ofCode f.ty.toNat
    let c ← Cond.ofCode (f.sub.toNat % 8)
    some { ty := t, cond := c, d := d, a := a, b := .imm f.imm }
  | _ => none

def encVSelOp (sl : Slot) (o : VSelOp) : Payload :=
  .f0 { fd := encOpr sl o.d, fa := encOpr sl o.a, fb := encOpr sl o.b, fc := encOpr sl o.sel,
        peek := peek4 (peekBit o.a 8 + peekBit o.b 4 + peekBit o.sel 2) }

/-- 07 R172. -/
def decVSelOp (sl : Slot) (p : Payload) : Option VSelOp :=
  match p with
  | .f0 f => do
    let d ← decOpr sl f.fd
    let a ← decOpr sl f.fa (f.peek.getLsbD 3)
    let b ← decOpr sl f.fb (f.peek.getLsbD 2)
    let c ← decOpr sl f.fc (f.peek.getLsbD 1)
    some { d := d, a := a, b := b, sel := c }
  | _ => none

def encMPushOp (sl : Slot) (o : MPushOp) : Payload :=
  .f0 { fa := encOpr sl o.a, fb := encOpr sl o.b, ty := o.ty.code, peek := peek4 (peekBit o.a 8 + peekBit o.b 4),
        sub := BitVec.ofNat 15 o.cond.code }

/-- 07 R173. -/
def decMPushOp (sl : Slot) (p : Payload) : Option MPushOp :=
  match p with
  | .f0 f => do
    let a ← decOpr sl f.fa (f.peek.getLsbD 3)
    let b ← decOpr sl f.fb (f.peek.getLsbD 2)
    let t ← Fmt.ofCode f.ty.toNat
    let c ← Cond.ofCode (f.sub.toNat % 8)
    some { ty := t, cond := c, a := a, b := b }
  | _ => none

def encKSetOp (sl : Slot) (o : KSetOp) : Payload :=
  .f1 { fd := encOpr sl o.k, fa := encOpr sl o.src, imm := o.imm, peek := peek2 (peekBit o.src 2),
        sub := BitVec.ofNat 9 (o.width.code + 8 * o.len.toNat) }

/-- 07 R176. -/
def decKSetOp (sl : Slot) (p : Payload) : Option KSetOp :=
  match p with
  | .f1 f => do
    let d ← decOpr sl f.fd
    let a ← decOpr sl f.fa (f.peek.getLsbD 1)
    let w ← KWidth.ofCode (f.sub.toNat % 8)
    some { k := d, src := a, imm := f.imm, width := w, len := BitVec.ofNat 3 (f.sub.toNat / 8) }
  | _ => none

def encKGetOp (sl : Slot) (o : KGetOp) : Payload := .f0 { fd := encOpr sl o.d, fa := encOpr sl o.k }

/-- 07 R177. -/
def decKGetOp (sl : Slot) (p : Payload) : Option KGetOp :=
  match p with
  | .f0 f => do
    let d ← decOpr sl f.fd
    let a ← decOpr sl f.fa
    some { d := d, k := a }
  | _ => none

def encVMovOp (sl : Slot) (o : VMovOp) : Payload :=
  .f0 { fd := encOpr sl o.d, fa := encOpr sl o.a, peek := peek4 (peekBit o.a 8), sub := BitVec.ofNat 15 o.view.code }

/-- 07 R178. -/
def decVMovOp (sl : Slot) (p : Payload) : Option VMovOp :=
  match p with
  | .f0 f => do
    let d ← decOpr sl f.fd
    let a ← decOpr sl f.fa (f.peek.getLsbD 3)
    some { d := d, a := a, view := View.ofCode (f.sub.toNat % 4) }
  | _ => none

def encVInsOp (sl : Slot) (o : VInsOp) : Payload :=
  .f0 { fd := encOpr sl o.d, fa := encOpr sl o.a, fb := encOpr sl o.idx, fc := encOpr sl o.val,
        peek := peek4 (peekBit o.a 8 + peekBit o.idx 4 + peekBit o.val 2) }

/-- 07 R179. -/
def decVInsOp (sl : Slot) (p : Payload) : Option VInsOp :=
  match p with
  | .f0 f => do
    let d ← decOpr sl f.fd
    let a ← decOpr sl f.fa (f.peek.getLsbD 3)
    let b ← decOpr sl f.fb (f.peek.getLsbD 2)
    let c ← decOpr sl f.fc (f.peek.getLsbD 1)
    some { d := d, a := a, idx := b, val := c }
  | _ => none

def encVExtOp (sl : Slot) (o : VExtOp) : Payload :=
  .f0 { fd := encOpr sl o.d, fa := encOpr sl o.a, fb := encOpr sl o.idx, peek := peek4 (peekBit o.a 8 + peekBit o.idx 4),
        sub := BitVec.ofNat 15 (flag o.sx 1) }

/-- 07 R180. -/
def decVExtOp (sl : Slot) (p : Payload) : Option VExtOp :=
  match p with
  | .f0 f => do
    let d ← decOpr sl f.fd
    let a ← decOpr sl f.fa (f.peek.getLsbD 3)
    let b ← decOpr sl f.fb (f.peek.getLsbD 2)
    some { d := d, a := a, idx := b, sx := f.sub.getLsbD 0 }
  | _ => none

def encVCvtOp (sl : Slot) (o : VCvtOp) : Payload :=
  .f0 { fd := encOpr sl o.d, fa := encOpr sl o.a, ty := o.ty.code, rm := o.rm.code, peek := peek4 (peekBit o.a 8),
        sub := BitVec.ofNat 15 (o.src.code.toNat + flag o.half 16) }

/-- 07 R181. -/
def decVCvtOp (sl : Slot) (p : Payload) : Option VCvtOp :=
  match p with
  | .f0 f => do
    let d ← decOpr sl f.fd
    let a ← decOpr sl f.fa (f.peek.getLsbD 3)
    let t ← Fmt.ofCode f.ty.toNat
    let s ← Fmt.ofCode (f.sub.toNat % 16)
    some { ty := t, src := s, half := f.sub.getLsbD 4, rm := Rm.ofCode f.rm.toNat, d := d, a := a }
  | _ => none

def encVPack (sl : Slot) (o : VPackOp) : Payload :=
  .f0 { fd := encOpr sl o.d, fa := encOpr sl o.a, peek := peek4 (peekBit o.a 8), sub := o.part.setWidth 15 }

/-- 07 R182. -/
def decVPack (sl : Slot) (p : Payload) : Option VPackOp :=
  match p with
  | .f0 f => do
    let d ← decOpr sl f.fd
    let a ← decOpr sl f.fa (f.peek.getLsbD 3)
    some { d := d, a := a, part := f.sub.setWidth 3 }
  | _ => none

def encVUnpack (sl : Slot) (o : VUnpackOp) : Payload :=
  .f0 { fd := encOpr sl o.d, fa := encOpr sl o.a, peek := peek4 (peekBit o.a 8),
        sub := BitVec.ofNat 15 (o.part.toNat + flag o.sx 8) }

/-- 07 R183. -/
def decVUnpack (sl : Slot) (p : Payload) : Option VUnpackOp :=
  match p with
  | .f0 f => do
    let d ← decOpr sl f.fd
    let a ← decOpr sl f.fa (f.peek.getLsbD 3)
    some { d := d, a := a, part := f.sub.setWidth 3, sx := f.sub.getLsbD 3 }
  | _ => none

def encVQntOp (sl : Slot) (o : VQntOp) : Payload :=
  match o.scale with
  | none => .f0 { fd := encOpr sl o.d, fa := encOpr sl o.a, ty := o.ty.code, rm := o.rm.code, peek := peek4 (peekBit o.a 8),
                  sub := o.bt.setWidth 15 }
  | some s => .f0 { fd := encOpr sl o.d, fa := encOpr sl o.a, fb := encOpr sl s, ty := o.ty.code, rm := o.rm.code,
                    peek := peek4 (peekBit o.a 8 + peekBit s 4), sub := BitVec.ofNat 15 (o.bt.toNat + 4) }

/-- 07 R185. -/
def decVQntOp (sl : Slot) (p : Payload) : Option VQntOp :=
  match p with
  | .f0 f => do
    let d ← decOpr sl f.fd
    let a ← decOpr sl f.fa (f.peek.getLsbD 3)
    let t ← Fmt.ofCode f.ty.toNat
    if f.sub.getLsbD 2 then
      (decOpr sl f.fb (f.peek.getLsbD 2)).map fun s =>
        { ty := t, rm := Rm.ofCode f.rm.toNat, d := d, a := a, scale := some s, bt := f.sub.setWidth 2 }
    else some { ty := t, rm := Rm.ofCode f.rm.toNat, d := d, a := a, scale := none, bt := f.sub.setWidth 2 }
  | _ => none

def encVDeqOp (sl : Slot) (o : VDeqOp) : Payload :=
  .f0 { fd := encOpr sl o.d, fa := encOpr sl o.a, ty := o.ty.code, peek := peek4 (peekBit o.a 8) }

/-- 07 R186. -/
def decVDeqOp (sl : Slot) (p : Payload) : Option VDeqOp :=
  match p with
  | .f0 f => do
    let d ← decOpr sl f.fd
    let a ← decOpr sl f.fa (f.peek.getLsbD 3)
    let t ← Fmt.ofCode f.ty.toNat
    some { ty := t, d := d, a := a }
  | _ => none

def encVRotOp (sl : Slot) (o : VRotOp) : Payload :=
  match o.s with
  | .reg s => .f0 { fd := encOpr sl o.d, fa := encOpr sl o.a, fb := encOpr sl s, peek := peek4 (peekBit o.a 8 + peekBit s 4) }
  | .imm i => .f1 { fd := encOpr sl o.d, fa := encOpr sl o.a, imm := i, peek := peek2 (peekBit o.a 2) }

/-- 07 R187. -/
def decVRotOp (sl : Slot) (p : Payload) : Option VRotOp :=
  match p with
  | .f0 f => do
    let d ← decOpr sl f.fd
    let a ← decOpr sl f.fa (f.peek.getLsbD 3)
    let b ← decOpr sl f.fb (f.peek.getLsbD 2)
    some { d := d, a := a, s := .reg b }
  | .f1 f => do
    let d ← decOpr sl f.fd
    let a ← decOpr sl f.fa (f.peek.getLsbD 1)
    some { d := d, a := a, s := .imm f.imm }
  | _ => none

def encVRedOp (sl : Slot) (o : VRedOp) : Payload :=
  .f0 { fd := encOpr sl o.d, fa := encOpr sl o.a, ty := o.ty.code, rm := o.rm.code, peek := peek4 (peekBit o.a 8),
        sub := BitVec.ofNat 15 (o.op.code + flag o.sat 4) }

/-- 07 R188. -/
def decVRedOp (sl : Slot) (p : Payload) : Option VRedOp :=
  match p with
  | .f0 f => do
    let d ← decOpr sl f.fd
    let a ← decOpr sl f.fa (f.peek.getLsbD 3)
    let t ← Fmt.ofCode f.ty.toNat
    let op ← RedOp.ofCode (f.sub.toNat % 4)
    some { ty := t, rm := Rm.ofCode f.rm.toNat, op := op, sat := f.sub.getLsbD 2, d := d, a := a }
  | _ => none

def encVTrnOp (sl : Slot) (o : VTrnOp) : Payload :=
  .f0 { fd := encOpr sl o.d, fa := encOpr sl o.a, peek := peek4 (peekBit o.a 8) }

/-- 07 R189. -/
def decVTrnOp (sl : Slot) (p : Payload) : Option VTrnOp :=
  match p with
  | .f0 f => do
    let d ← decOpr sl f.fd
    let a ← decOpr sl f.fa (f.peek.getLsbD 3)
    some { d := d, a := a }
  | _ => none

def encVZOp (sl : Slot) (o : VZOp) : Payload :=
  .f0 { fd := encOpr sl o.d, fa := encOpr sl o.a, peek := peek4 (peekBit o.a 8), sub := o.part.setWidth 15 }

/-- 07 R190. -/
def decVZOp (sl : Slot) (p : Payload) : Option VZOp :=
  match p with
  | .f0 f => do
    let d ← decOpr sl f.fd
    let a ← decOpr sl f.fa (f.peek.getLsbD 3)
    some { d := d, a := a, part := f.sub.setWidth 4 }
  | _ => none

def encTileVOp (sl : Slot) (o : TileVOp) : Payload :=
  .f0 { fd := encOpr sl o.r, fa := encOpr sl o.c0, fb := encOpr sl o.c1, fc := encOpr sl o.c2, fe := encOpr sl o.c3,
        peek := peek4 (peekBit o.c0 8 + peekBit o.c1 4 + peekBit o.c2 2 + peekBit o.c3 1),
        sub := BitVec.ofNat 15 (o.t.toNat + 4096 * o.seg.toNat) }

/-- 07 R192. -/
def decTileVOp (sl : Slot) (p : Payload) : Option TileVOp :=
  match p with
  | .f0 f => do
    let r ← decOpr sl f.fd
    let c0 ← decOpr sl f.fa (f.peek.getLsbD 3)
    let c1 ← decOpr sl f.fb (f.peek.getLsbD 2)
    let c2 ← decOpr sl f.fc (f.peek.getLsbD 1)
    let c3 ← decOpr sl f.fe (f.peek.getLsbD 0)
    some { r := r, t := f.sub.setWidth 12, c0 := c0, c1 := c1, c2 := c2, c3 := c3, seg := BitVec.ofNat 3 (f.sub.toNat / 4096) }
  | _ => none

def encTileOp (sl : Slot) (o : TileOp) : Payload :=
  .f4 { b0 := encOpr sl o.c0, b1 := encOpr sl o.c1, b2 := encOpr sl o.c2, b3 := encOpr sl o.c3, idx := o.t,
        tke := (tkePair o.push).1, tki := (tkePair o.push).2,
        sub := BitVec.ofNat 21 (flag o.all 1 + 2 * (match o.asc with | none => 0 | some a => a.code)) }

/-- 08 R213. A zero ASC field is no scope. -/
def decTileOp (sl : Slot) (p : Payload) : Option TileOp :=
  match p with
  | .f4 f => do
    let c0 ← decOpr sl f.b0
    let c1 ← decOpr sl f.b1
    let c2 ← decOpr sl f.b2
    let c3 ← decOpr sl f.b3
    some { t := f.idx, c0 := c0, c1 := c1, c2 := c2, c3 := c3, all := f.sub.getLsbD 0,
           asc := if f.sub.toNat / 2 % 8 = 0 then none else Scope.ofCode (f.sub.toNat / 2 % 8), push := decPush f.tke f.tki }
  | _ => none

def encTpfItinOp (sl : Slot) (o : TpfItinOp) : Payload :=
  .f4 { b0 := encOpr sl o.off, b1 := encOpr sl o.n, b2 := 1696, b3 := 1696, idx := o.t, tke := (tkePair o.push).1,
        tki := (tkePair o.push).2 }

/-- 08 R214: B2 and B3 are c.zero. -/
def decTpfItinOp (sl : Slot) (p : Payload) : Option TpfItinOp :=
  match p with
  | .f4 f => do
    let b0 ← decOpr sl f.b0
    let b1 ← decOpr sl f.b1
    some { t := f.idx, off := b0, n := b1, push := decPush f.tke f.tki }
  | _ => none

def encTEdAcqOp (sl : Slot) (o : TEdAcqOp) : Payload :=
  .f4 { b0 := encOpr sl o.w, b1 := encOpr sl o.d, idx := o.t, tke := (tkePair o.push).1, tki := (tkePair o.push).2,
        sub := BitVec.ofNat 21 (2 * o.asc.code + flag o.nowait 16) }

/-- 08 R219. -/
def decTEdAcqOp (sl : Slot) (p : Payload) : Option TEdAcqOp :=
  match p with
  | .f4 f => do
    let w ← decOpr sl f.b0
    let d ← decOpr sl f.b1
    let a ← Scope.ofCode (f.sub.toNat / 2 % 8)
    some { t := f.idx, w := w, d := d, nowait := f.sub.getLsbD 4, asc := a, push := decPush f.tke f.tki }
  | _ => none

def encMzClrOp (sl : Slot) (o : MzClrOp) : Payload :=
  .f0 { fd := encOpr sl o.z, sub := BitVec.ofNat 15 (flag o.inv 1) }

/-- 09 R239. -/
def decMzClrOp (sl : Slot) (p : Payload) : Option MzClrOp :=
  match p with
  | .f0 f => (decOpr sl f.fd).map fun z => { z := z, inv := f.sub.getLsbD 0 }
  | _ => none

def encMTermOp (sl : Slot) (o : MTermOp) : Payload :=
  .f0 { fd := encOpr sl o.d, sub := BitVec.ofNat 15 (o.sel.code + flag o.clr 8) }

/-- 09 R240. -/
def decMTermOp (sl : Slot) (p : Payload) : Option MTermOp :=
  match p with
  | .f0 f => do
    let d ← decOpr sl f.fd
    let s ← TermSel.ofCode (f.sub.toNat % 8)
    some { d := d, sel := s, clr := f.sub.getLsbD 3 }
  | _ => none

/-! ### The common head -/

def encHead (h : Head) (opc : Nat) : RawHead :=
  { opc := BitVec.ofNat 8 opc, sy := BitVec.ofNat 1 (flag h.sy 1), gs := BitVec.ofNat 4 h.gs.val,
    gsInv := BitVec.ofNat 1 (flag h.gsInv 1),
    gk := BitVec.ofNat 4 (match h.gk with | none => 0 | some k => k.val), gkEn := BitVec.ofNat 1 (flag h.gk.isSome 1),
    ch := h.ch.code, sbsIdx := BitVec.ofNat 3 (match h.sbs with | none => 0 | some k => k.val),
    sbsEn := BitVec.ofNat 1 (flag h.sbs.isSome 1), sbw := h.sbw,
    qxIdx := BitVec.ofNat 3 (match h.qx with | none => 0 | some k => k.val), qxEn := BitVec.ofNat 1 (flag h.qx.isSome 1) }

/-- The head of a word (04 R74); none for a reserved cache hint (R77). An index whose enable is 0 is dropped here, and decode's
comparison with the encoding refuses a word in which it is not zero. -/
def decHead (r : RawHead) : Option Head :=
  (Hint.ofCode r.ch.toNat).map fun c =>
    { sy := r.sy.getLsbD 0, gs := ⟨r.gs.toNat, r.gs.isLt⟩, gsInv := r.gsInv.getLsbD 0,
      gk := if r.gkEn = 0 then none else some ⟨r.gk.toNat, r.gk.isLt⟩, ch := c,
      sbs := if r.sbsEn = 0 then none else some ⟨r.sbsIdx.toNat, r.sbsIdx.isLt⟩, sbw := r.sbw,
      qx := if r.qxEn = 0 then none else some ⟨r.qxIdx.toNat, r.qxIdx.isLt⟩ }

/-! ### Instructions -/

/-- The head, the opcode (04 R89 to R94) and the payload of a lane instruction in slot `sl`; none for an event. -/
def Instr.lane (sl : Slot) : Instr → Option (Head × Nat × Payload)
  | .nop h => some (h, 0x00, .f0 {})
  | .endSlot h => some (h, 0x01, .f5 {})
  | .yield h => some (h, 0x38, .f5 {})
  | .minv h => some (h, 0x5A, .f0 {})
  | .mpop h => some (h, 0x5B, .f0 {})
  | .lpend h => some (h, 0x07, .f2 {})
  | .br h o => some (h, 0x02, encBrOp sl o)
  | .brx h o => some (h, 0x03, encBrxOp sl o)
  | .call h o => some (h, 0x04, encRegDisp sl o)
  | .lpset h o => some (h, 0x06, encRegDisp sl o)
  | .ret h o => some (h, 0x05, encRet sl o)
  | .lpendExit h o => some (h, 0x07, encExit sl o)
  | .vskipz h o => some (h, 0x5C, encSkip sl o)
  | .add h o => some (h, 0x10, encSBin sl o)
  | .sub h o => some (h, 0x11, encSBin sl o)
  | .mul h o => some (h, 0x12, encSBin sl o)
  | .mulh h o => some (h, 0x13, encSBin sl o)
  | .div h o => some (h, 0x14, encSBin sl o)
  | .rem h o => some (h, 0x15, encSBin sl o)
  | .and h o => some (h, 0x16, encSBin sl o)
  | .or h o => some (h, 0x17, encSBin sl o)
  | .xor h o => some (h, 0x18, encSBin sl o)
  | .shl h o => some (h, 0x19, encSBin sl o)
  | .shr h o => some (h, 0x1A, encSBin sl o)
  | .sar h o => some (h, 0x1B, encSBin sl o)
  | .min h o => some (h, 0x1C, encSBin sl o)
  | .max h o => some (h, 0x1D, encSBin sl o)
  | .clz h o => some (h, 0x1E, encSUn sl o)
  | .popc h o => some (h, 0x1F, encSUn sl o)
  | .mov h o => some (h, 0x21, encSUn sl o)
  | .sel h o => some (h, 0x20, encSSel sl o)
  | .movi h o => some (h, 0x22, encMovi sl o)
  | .moviHigh h o => some (h, 0x22, encMoviHigh sl o)
  | .cmp h o => some (h, 0x23, encSCmp sl o)
  | .qdrop h o => some (h, 0x30, encQDrop sl o)
  | .qcnt h o => some (h, 0x31, encQCntOp sl o)
  | .tidwr h o => some (h, 0x32, encTidWrOp sl o)
  | .tidrd h o => some (h, 0x33, encTidRdOp sl o)
  | .rdsys h o => some (h, 0x34, encRdSys sl o)
  | .wrsys h o => some (h, 0x35, encWrSys sl o)
  | .wrsysImmediate h o => some (h, 0x35, encSysImm sl o)
  | .rdcyc h o => some (h, 0x36, encRdCyc sl o)
  | .trap h o => some (h, 0x37, encTrapOp sl o)
  | .ld h o => some (h, 0x40, encLdOp sl o)
  | .ldl h o => some (h, 0x44, encLdOp sl o)
  | .st h o => some (h, 0x41, encStOp sl o)
  | .stl h o => some (h, 0x45, encStOp sl o)
  | .ldq h o => some (h, 0x42, encLdq sl false o)
  | .ldqLocal h o => some (h, 0x42, encLdq sl true o)
  | .stq h o => some (h, 0x43, encStq sl false o)
  | .stqLocal h o => some (h, 0x43, encStq sl true o)
  | .aadd h o => some (h, 0x48, encAtOp sl o)
  | .amin h o => some (h, 0x49, encAtOp sl o)
  | .amax h o => some (h, 0x4A, encAtOp sl o)
  | .aand h o => some (h, 0x4B, encAtOp sl o)
  | .aor h o => some (h, 0x4C, encAtOp sl o)
  | .axor h o => some (h, 0x4D, encAtOp sl o)
  | .axchg h o => some (h, 0x4E, encAtOp sl o)
  | .acas h o => some (h, 0x4F, encAtOp sl o)
  | .afadd h o => some (h, 0x50, encAtOp sl o)
  | .fence h o => some (h, 0x58, encFenceOp sl o)
  | .qjoin h o => some (h, 0x59, encQJoin sl o)
  | .cpin h o => some (h, 0x60, encRecOp sl o)
  | .cpout h o => some (h, 0x61, encRecOp sl o)
  | .gath h o => some (h, 0x62, encRecOp sl o)
  | .scat h o => some (h, 0x63, encRecOp sl o)
  | .mrec h o => some (h, 0x50, encRecOp sl o)
  | .mconv h o => some (h, 0x51, encRecOp sl o)
  | .mzst h o => some (h, 0x53, encRecOp sl o)
  | .mzld h o => some (h, 0x54, encRecOp sl o)
  | .msend h o => some (h, 0x68, encMSendOp sl o)
  | .rget h o => some (h, 0x69, encRGet sl false o)
  | .rgetPop h o => some (h, 0x69, encRGet sl true o)
  | .rwait h o => some (h, 0x6A, encRWaitOp sl o)
  | .fwr h o => some (h, 0x70, encFwrOp sl o)
  | .freq h o => some (h, 0x71, encFreqOp sl o)
  | .fatom h o => some (h, 0x72, encFatomOp sl o)
  | .lzoffer h o => some (h, 0x78, encLzOffer sl o)
  | .lzgrant h o => some (h, 0x79, encLzGrantOp sl o)
  | .lzput h o => some (h, 0x7A, encLzPutOp sl o)
  | .lzadopt h o => some (h, 0x7B, encLzAdoptOp sl o)
  | .lzfree h o => some (h, 0x7C, encLzFreeOp sl o)
  | .lzstat h o => some (h, 0x7D, encLzStatOp sl o)
  | .barinit h o => some (h, 0x80, encBarInitOp sl o)
  | .bararv h o => some (h, 0x81, encBarArvOp sl o)
  | .barwait h o => some (h, 0x82, encBarWaitOp sl o)
  | .bartst h o => some (h, 0x83, encBarTstOp sl o)
  | .pgpf h o => some (h, 0x88, encPgpfOp sl o)
  | .pgin h o => some (h, 0x89, encPginOp sl o)
  | .launch h o => some (h, 0x90, encLaunchOp sl o)
  | .qentry h o => some (h, 0x91, encQEntryOp sl o)
  | .vadd h o => some (h, 0x40, encVBin sl o)
  | .vsub h o => some (h, 0x41, encVBin sl o)
  | .vmul h o => some (h, 0x42, encVBin sl o)
  | .vmin h o => some (h, 0x45, encVBin sl o)
  | .vmax h o => some (h, 0x46, encVBin sl o)
  | .vand h o => some (h, 0x50, encVBin sl o)
  | .vor h o => some (h, 0x51, encVBin sl o)
  | .vxor h o => some (h, 0x52, encVBin sl o)
  | .vshl h o => some (h, 0x54, encVBin sl o)
  | .vshr h o => some (h, 0x55, encVBin sl o)
  | .vsar h o => some (h, 0x56, encVBin sl o)
  | .vfma h o => some (h, 0x43, encVTern sl o)
  | .vfms h o => some (h, 0x44, encVTern sl o)
  | .vabs h o => some (h, 0x47, encVUn sl o)
  | .vneg h o => some (h, 0x48, encVUn sl o)
  | .vrcp h o => some (h, 0x49, encVUn sl o)
  | .vrsq h o => some (h, 0x4A, encVUn sl o)
  | .vsqrt h o => some (h, 0x4B, encVUn sl o)
  | .vexp2 h o => some (h, 0x4C, encVUn sl o)
  | .vlog2 h o => some (h, 0x4D, encVUn sl o)
  | .vnot h o => some (h, 0x53, encVUn sl o)
  | .vcmp h o => some (h, 0x58, encVCmpOp sl o)
  | .vsel h o => some (h, 0x78, encVSelOp sl o)
  | .mpush h o => some (h, 0x59, encMPushOp sl o)
  | .kset h o => some (h, 0x60, encKSetOp sl o)
  | .kget h o => some (h, 0x61, encKGetOp sl o)
  | .vmov h o => some (h, 0x79, encVMovOp sl o)
  | .vins h o => some (h, 0x7A, encVInsOp sl o)
  | .vext h o => some (h, 0x7B, encVExtOp sl o)
  | .vcvt h o => some (h, 0x68, encVCvtOp sl o)
  | .vpack4 h o => some (h, 0x69, encVPack sl o)
  | .vpack6 h o => some (h, 0x6B, encVPack sl o)
  | .vunpack4 h o => some (h, 0x6A, encVUnpack sl o)
  | .vunpack6 h o => some (h, 0x6C, encVUnpack sl o)
  | .vqnt h o => some (h, 0x6D, encVQntOp sl o)
  | .vdeq h o => some (h, 0x6E, encVDeqOp sl o)
  | .vrotr h o => some (h, 0x70, encVRotOp sl o)
  | .vrotc h o => some (h, 0x71, encVRotOp sl o)
  | .vbcr h o => some (h, 0x72, encVRotOp sl o)
  | .vbcc h o => some (h, 0x73, encVRotOp sl o)
  | .vredr h o => some (h, 0x74, encVRedOp sl o)
  | .vredc h o => some (h, 0x75, encVRedOp sl o)
  | .vtrn h o => some (h, 0x76, encVTrnOp sl o)
  | .vzrd h o => some (h, 0x80, encVZOp sl o)
  | .vzwr h o => some (h, 0x81, encVZOp sl o)
  | .trd h o => some (h, 0x82, encTileVOp sl o)
  | .twr h o => some (h, 0x83, encTileVOp sl o)
  | .tpf h o => some (h, 0x40, encTileOp sl o)
  | .tpin h o => some (h, 0x41, encTileOp sl o)
  | .tunpin h o => some (h, 0x42, encTileOp sl o)
  | .tlast h o => some (h, 0x43, encTileOp sl o)
  | .tstream h o => some (h, 0x44, encTileOp sl o)
  | .tinv h o => some (h, 0x45, encTileOp sl o)
  | .twb h o => some (h, 0x46, encTileOp sl o)
  | .tcmt h o => some (h, 0x47, encTileOp sl o)
  | .tpfItinerary h o => some (h, 0x40, encTpfItinOp sl o)
  | .tedacq h o => some (h, 0x48, encTEdAcqOp sl o)
  | .mzclr h o => some (h, 0x52, encMzClrOp sl o)
  | .mterm h o => some (h, 0x58, encMTermOp sl o)
  | _ => none

/-- The lane word of an instruction; 0 for an event, which has none. -/
def encode (sl : Slot) (i : Instr) : LaneWord :=
  match i.lane sl with
  | some (h, opc, p) => packWord (encHead h opc) p
  | none => 0

/-- The opcodes common to the four slots (04 R89). -/
def parseCommon (sl : Slot) (h : Head) (opc : Nat) (p : Payload) : Option Instr :=
  match opc with
  | 0x00 => some (.nop h)
  | 0x01 => some (.endSlot h)
  | 0x02 => (decBrOp sl p).map (.br h)
  | 0x03 => (decBrxOp sl p).map (.brx h)
  | 0x04 => (decRegDisp sl p).map (.call h)
  | 0x05 => (decRet sl p).map (.ret h)
  | 0x06 => (decRegDisp sl p).map (.lpset h)
  | 0x07 => if p.subBit0 then (decExit sl p).map (.lpendExit h) else some (.lpend h)
  | _ => none

/-- The scalar block of the C, A and M slots (04 R90). -/
def parseScalar (sl : Slot) (h : Head) (opc : Nat) (p : Payload) : Option Instr :=
  match opc with
  | 0x10 => (decSBin sl p).map (.add h)
  | 0x11 => (decSBin sl p).map (.sub h)
  | 0x12 => (decSBin sl p).map (.mul h)
  | 0x13 => (decSBin sl p).map (.mulh h)
  | 0x14 => (decSBin sl p).map (.div h)
  | 0x15 => (decSBin sl p).map (.rem h)
  | 0x16 => (decSBin sl p).map (.and h)
  | 0x17 => (decSBin sl p).map (.or h)
  | 0x18 => (decSBin sl p).map (.xor h)
  | 0x19 => (decSBin sl p).map (.shl h)
  | 0x1A => (decSBin sl p).map (.shr h)
  | 0x1B => (decSBin sl p).map (.sar h)
  | 0x1C => (decSBin sl p).map (.min h)
  | 0x1D => (decSBin sl p).map (.max h)
  | 0x1E => (decSUn sl p).map (.clz h)
  | 0x1F => (decSUn sl p).map (.popc h)
  | 0x20 => (decSSel sl p).map (.sel h)
  | 0x21 => (decSUn sl p).map (.mov h)
  | 0x22 => if p.subBit0 then (decMoviHigh sl p).map (.moviHigh h) else (decMovi sl p).map (.movi h)
  | 0x23 => (decSCmp sl p).map (.cmp h)
  | _ => none

/-- The C slot (04 R91). -/
def parseC (sl : Slot) (h : Head) (opc : Nat) (p : Payload) : Option Instr :=
  match opc with
  | 0x30 => (decQDrop sl p).map (.qdrop h)
  | 0x31 => (decQCntOp sl p).map (.qcnt h)
  | 0x32 => (decTidWrOp sl p).map (.tidwr h)
  | 0x33 => (decTidRdOp sl p).map (.tidrd h)
  | 0x34 => (decRdSys sl p).map (.rdsys h)
  | 0x35 => if p.subBit0 then (decSysImm sl p).map (.wrsysImmediate h) else (decWrSys sl p).map (.wrsys h)
  | 0x36 => (decRdCyc sl p).map (.rdcyc h)
  | 0x37 => (decTrapOp sl p).map (.trap h)
  | 0x38 => some (.yield h)
  | _ => none

/-- The A slot (04 R92). -/
def parseA (sl : Slot) (h : Head) (opc : Nat) (p : Payload) : Option Instr :=
  match opc with
  | 0x40 => (decLdOp sl p).map (.ld h)
  | 0x41 => (decStOp sl p).map (.st h)
  | 0x42 => if p.subBit0 then (decLdq sl true p).map (.ldqLocal h) else (decLdq sl false p).map (.ldq h)
  | 0x43 => if p.subBit0 then (decStq sl true p).map (.stqLocal h) else (decStq sl false p).map (.stq h)
  | 0x44 => (decLdOp sl p).map (.ldl h)
  | 0x45 => (decStOp sl p).map (.stl h)
  | 0x48 => (decAtOp sl p).map (.aadd h)
  | 0x49 => (decAtOp sl p).map (.amin h)
  | 0x4A => (decAtOp sl p).map (.amax h)
  | 0x4B => (decAtOp sl p).map (.aand h)
  | 0x4C => (decAtOp sl p).map (.aor h)
  | 0x4D => (decAtOp sl p).map (.axor h)
  | 0x4E => (decAtOp sl p).map (.axchg h)
  | 0x4F => (decAtOp sl p).map (.acas h)
  | 0x50 => (decAtOp sl p).map (.afadd h)
  | 0x58 => (decFenceOp sl p).map (.fence h)
  | 0x59 => (decQJoin sl p).map (.qjoin h)
  | 0x60 => (decRecOp sl p).map (.cpin h)
  | 0x61 => (decRecOp sl p).map (.cpout h)
  | 0x62 => (decRecOp sl p).map (.gath h)
  | 0x63 => (decRecOp sl p).map (.scat h)
  | 0x68 => (decMSendOp sl p).map (.msend h)
  | 0x69 => if p.subBit0 then (decRGet sl true p).map (.rgetPop h) else (decRGet sl false p).map (.rget h)
  | 0x6A => (decRWaitOp sl p).map (.rwait h)
  | 0x70 => (decFwrOp sl p).map (.fwr h)
  | 0x71 => (decFreqOp sl p).map (.freq h)
  | 0x72 => (decFatomOp sl p).map (.fatom h)
  | 0x78 => (decLzOffer sl p).map (.lzoffer h)
  | 0x79 => (decLzGrantOp sl p).map (.lzgrant h)
  | 0x7A => (decLzPutOp sl p).map (.lzput h)
  | 0x7B => (decLzAdoptOp sl p).map (.lzadopt h)
  | 0x7C => (decLzFreeOp sl p).map (.lzfree h)
  | 0x7D => (decLzStatOp sl p).map (.lzstat h)
  | 0x80 => (decBarInitOp sl p).map (.barinit h)
  | 0x81 => (decBarArvOp sl p).map (.bararv h)
  | 0x82 => (decBarWaitOp sl p).map (.barwait h)
  | 0x83 => (decBarTstOp sl p).map (.bartst h)
  | 0x88 => (decPgpfOp sl p).map (.pgpf h)
  | 0x89 => (decPginOp sl p).map (.pgin h)
  | 0x90 => (decLaunchOp sl p).map (.launch h)
  | 0x91 => (decQEntryOp sl p).map (.qentry h)
  | _ => none

/-- The V slot (04 R93). -/
def parseV (sl : Slot) (h : Head) (opc : Nat) (p : Payload) : Option Instr :=
  match opc with
  | 0x40 => (decVBin sl p).map (.vadd h)
  | 0x41 => (decVBin sl p).map (.vsub h)
  | 0x42 => (decVBin sl p).map (.vmul h)
  | 0x43 => (decVTern sl p).map (.vfma h)
  | 0x44 => (decVTern sl p).map (.vfms h)
  | 0x45 => (decVBin sl p).map (.vmin h)
  | 0x46 => (decVBin sl p).map (.vmax h)
  | 0x47 => (decVUn sl p).map (.vabs h)
  | 0x48 => (decVUn sl p).map (.vneg h)
  | 0x49 => (decVUn sl p).map (.vrcp h)
  | 0x4A => (decVUn sl p).map (.vrsq h)
  | 0x4B => (decVUn sl p).map (.vsqrt h)
  | 0x4C => (decVUn sl p).map (.vexp2 h)
  | 0x4D => (decVUn sl p).map (.vlog2 h)
  | 0x50 => (decVBin sl p).map (.vand h)
  | 0x51 => (decVBin sl p).map (.vor h)
  | 0x52 => (decVBin sl p).map (.vxor h)
  | 0x53 => (decVUn sl p).map (.vnot h)
  | 0x54 => (decVBin sl p).map (.vshl h)
  | 0x55 => (decVBin sl p).map (.vshr h)
  | 0x56 => (decVBin sl p).map (.vsar h)
  | 0x58 => (decVCmpOp sl p).map (.vcmp h)
  | 0x59 => (decMPushOp sl p).map (.mpush h)
  | 0x5A => some (.minv h)
  | 0x5B => some (.mpop h)
  | 0x5C => (decSkip sl p).map (.vskipz h)
  | 0x60 => (decKSetOp sl p).map (.kset h)
  | 0x61 => (decKGetOp sl p).map (.kget h)
  | 0x68 => (decVCvtOp sl p).map (.vcvt h)
  | 0x69 => (decVPack sl p).map (.vpack4 h)
  | 0x6A => (decVUnpack sl p).map (.vunpack4 h)
  | 0x6B => (decVPack sl p).map (.vpack6 h)
  | 0x6C => (decVUnpack sl p).map (.vunpack6 h)
  | 0x6D => (decVQntOp sl p).map (.vqnt h)
  | 0x6E => (decVDeqOp sl p).map (.vdeq h)
  | 0x70 => (decVRotOp sl p).map (.vrotr h)
  | 0x71 => (decVRotOp sl p).map (.vrotc h)
  | 0x72 => (decVRotOp sl p).map (.vbcr h)
  | 0x73 => (decVRotOp sl p).map (.vbcc h)
  | 0x74 => (decVRedOp sl p).map (.vredr h)
  | 0x75 => (decVRedOp sl p).map (.vredc h)
  | 0x76 => (decVTrnOp sl p).map (.vtrn h)
  | 0x78 => (decVSelOp sl p).map (.vsel h)
  | 0x79 => (decVMovOp sl p).map (.vmov h)
  | 0x7A => (decVInsOp sl p).map (.vins h)
  | 0x7B => (decVExtOp sl p).map (.vext h)
  | 0x80 => (decVZOp sl p).map (.vzrd h)
  | 0x81 => (decVZOp sl p).map (.vzwr h)
  | 0x82 => (decTileVOp sl p).map (.trd h)
  | 0x83 => (decTileVOp sl p).map (.twr h)
  | _ => none

/-- The M slot (04 R94). -/
def parseM (sl : Slot) (h : Head) (opc : Nat) (p : Payload) : Option Instr :=
  match opc with
  | 0x40 => if h.ch == .itin then (decTpfItinOp sl p).map (.tpfItinerary h) else (decTileOp sl p).map (.tpf h)
  | 0x41 => (decTileOp sl p).map (.tpin h)
  | 0x42 => (decTileOp sl p).map (.tunpin h)
  | 0x43 => (decTileOp sl p).map (.tlast h)
  | 0x44 => (decTileOp sl p).map (.tstream h)
  | 0x45 => (decTileOp sl p).map (.tinv h)
  | 0x46 => (decTileOp sl p).map (.twb h)
  | 0x47 => (decTileOp sl p).map (.tcmt h)
  | 0x48 => (decTEdAcqOp sl p).map (.tedacq h)
  | 0x50 => (decRecOp sl p).map (.mrec h)
  | 0x51 => (decRecOp sl p).map (.mconv h)
  | 0x52 => (decMzClrOp sl p).map (.mzclr h)
  | 0x53 => (decRecOp sl p).map (.mzst h)
  | 0x54 => (decRecOp sl p).map (.mzld h)
  | 0x58 => (decMTermOp sl p).map (.mterm h)
  | _ => none

/-- The instruction an opcode of a slot names, read from its payload. -/
def parseOp (sl : Slot) (h : Head) (opc : Nat) (p : Payload) : Option Instr :=
  if opc < 0x08 then parseCommon sl h opc p
  else
    match sl with
    | .c => if opc < 0x30 then parseScalar sl h opc p else parseC sl h opc p
    | .a => if opc < 0x40 then parseScalar sl h opc p else parseA sl h opc p
    | .v => parseV sl h opc p
    | .m => if opc < 0x40 then parseScalar sl h opc p else parseM sl h opc p

/-- Why a lane word is no instruction (04 R96). Each is an illegal-instruction fault when the lane is about to issue. -/
inductive DecodeError
  /-- FMT 0x6 to 0xF. -/
  | unassignedFormat
  /-- CH 0x5 to 0xF. -/
  | reservedHint
  /-- OPC unassigned for the slot, FMT not listed for it, or a field whose code names nothing. -/
  | unassigned
  /-- A name, bit, type or rounding mode that the instruction does not permit. -/
  | notPermitted
  /-- A reserved or unused field that is not zero. -/
  | reservedField
  deriving DecidableEq, Repr

/-- The instruction of a lane word in slot `sl`, or the reason it is none (04 R96). -/
def decode (sl : Slot) (w : LaneWord) : Except DecodeError Instr :=
  match unpackWord w with
  | none => .error .unassignedFormat
  | some (r, p) =>
    match decHead r with
    | none => .error .reservedHint
    | some h =>
      match parseOp sl h r.opc.toNat p with
      | none => .error .unassigned
      | some i =>
        if i.wf sl then
          if encode sl i = w then .ok i else .error .reservedField
        else .error .notPermitted

/-! ### Bundles -/

/-- The position of a slot's lane in a bundle (02 R25). -/
def Slot.idx : Slot → Nat
  | .c => 0
  | .a => 1
  | .v => 2
  | .m => 3

/-- The lane word of a slot in a bundle (02 R25). -/
def laneOf (b : Bundle) (sl : Slot) : LaneWord := BitVec.ofNat 128 (b.toNat / 2 ^ (128 * sl.idx))

/-- The bundle of four lane words, lane 0 lowest (02 R25). -/
def bundleOf (c a v m : LaneWord) : Bundle :=
  BitVec.ofNat 512 (c.toNat + 2 ^ 128 * (a.toNat + 2 ^ 128 * (v.toNat + 2 ^ 128 * m.toNat)))

/-- Bit 115 of a lane word: SY (04 R74). -/
def syBit (w : LaneWord) : Bool := w.getLsbD 115

/-- The four SY bits of a bundle, bit n for lane n (04 R97). -/
def syBits (b : Bundle) : BitVec 4 :=
  BitVec.ofNat 4 (flag (syBit (laneOf b .c)) 1 + flag (syBit (laneOf b .a)) 2 + flag (syBit (laneOf b .v)) 4 +
    flag (syBit (laneOf b .m)) 8)

/-- The slot and the lane word that a table word of `nbits` bits stands for. The opcode table gives its rows no bits. A word of
128 bits or fewer is a lane word of the C slot; a wider one is a bundle, of which the first lane that is not all zero is taken
(04 R98). -/
def tableLane (nbits w : Nat) : Slot × LaneWord :=
  if nbits ≤ 128 then (.c, BitVec.ofNat 128 w)
  else
    let b : Bundle := BitVec.ofNat 512 w
    if laneOf b .c ≠ 0 then (.c, laneOf b .c)
    else if laneOf b .a ≠ 0 then (.a, laneOf b .a)
    else if laneOf b .v ≠ 0 then (.v, laneOf b .v)
    else if laneOf b .m ≠ 0 then (.m, laneOf b .m)
    else (.c, 0)

/-- The instruction the decoder reads from a table word; none where it refuses. -/
def decodeTableWord (nbits w : Nat) : Option Instr :=
  match decode (tableLane nbits w).1 (tableLane nbits w).2 with
  | .ok i => some i
  | .error _ => none

end Sys2Proof
end

