-- ==== Sys2Proof/Config.lean ====
section
/-! DEFINITION. What the manual leaves to the hardware or to parties outside it. Each is an opaque constant: nothing can be
proved of its value, so a statement about the machine holds whatever it is. -/

namespace Sys2Proof

/-- The package variants TQ-384A, TQ-384S, TQ-384F, TQ-288A and TQ-384E (00 R1, 01 R17). -/
inductive Variant
  | tq384a | tq384s | tq384f | tq288a | tq384e
  deriving DecidableEq, Repr

/-- What moves next: a slot of a core reaches issue, or an event of the part takes place. -/
inductive Mover
  | issue (c : CoreId) (sl : Slot)
  | event (i : Instr)
  deriving DecidableEq, Repr, Inhabited

/-- The four approximate functions (07 R169). -/
inductive ApproxFn
  | rcp | rsq | exp2 | log2
  deriving DecidableEq, Repr

/-- The mover of step `tick` where the agenda names none: the order of events is free (log 1). -/
opaque Config.mover (tick : Nat) : Mover

/-- How many cycles a die counts during step `tick` (log 8): C-dies 0 to 3, the I-die as 4, S-dies 0 to 3 as 5 to 8. -/
opaque Config.elapsed (tick : Nat) (die : Nat) : Nat

/-- Free value number `n` of width `w`: an arbitrary value under 00 R4 (log 7). -/
opaque Config.freeBits (w n : Nat) : BitVec w

/-- Whether an approximate function answers the neighbour away from zero for this input (07 R169, log 9). -/
opaque Config.approxUp (f : ApproxFn) (x : BitVec 32) : Bool

/-- Whether a signature over a record verifies: ML-DSA-87 (11 R274, R275; 17 R349). -/
opaque Config.sigOk (record : List Byte) : Bool

/-- The model key that a binding record wraps under AES-KW, or none when unwrapping fails (11 R274). -/
opaque Config.unwrapKey (record : List Byte) : Option (BitVec 256)

/-- Whether the host's session number `id` with the package root is open at step `tick` (11 R274). -/
opaque Config.sessionOpen (tick : Nat) (id : BitVec 32) : Bool

/-- SHA3-512 of a byte string (11 R274, 17 R349). -/
opaque Config.sha3 (bytes : List Byte) : BitVec 512

/-- The checksum of a configuration plane (01 R23). -/
opaque Config.planeSum (plane : List (Nat × Nat)) : Nat

/-- Which of the AOP codes that FATOM's SUB leaves unassigned a BARINIT or a BARARV takes when it is sent over the fabric as an
atomic, which the manual does not give (15 R323, log 18). -/
opaque Config.barAop : Fin 123

/-- How many copy engines the I-die has beyond the first, which the manual does not give (12 R287, log 83). -/
opaque Config.copyEngines : Nat

/-- Byte `i` of the key stream that encrypts the records of the `nth` frame sent, under its nonce: session keys are not in the model
(17 R352, R361; log 106). -/
opaque Config.gcmStream (nth : Nat) (nonce : BitVec 96) (i : Nat) : Byte

/-- The GCM tag of the `nth` frame sent over its head and its encrypted records (17 R361; log 106). -/
opaque Config.gcmTag (nth : Nat) (nonce : BitVec 96) (head sealed : List Byte) : BitVec 128

/-- The random draw number `n` of the back-off for a bouncing line (06 R139), or of any choice the hardware makes by chance. -/
opaque Config.draw (n : Nat) : Nat

/-- What c.row, c.col and c.idx (0, 1, 2) read as where an operand belongs to no element: a tile coordinate of TRD or TWR (07 R192;
log 86). -/
opaque Config.axisCoord : Nat → BitVec 64

end Sys2Proof
end

