-- ==== Sys2Proof/Machine/Numbers.lean ====
section
/-! DEFINITION. Number formats, exact arithmetic and rounding (03 R52 to R69), and the approximate functions of 07 R169. Every
operation is computed exactly and rounded once. -/

namespace Sys2Proof.Machine

open Sys2Proof

/-! ### Exact values -/

/-- A floating-point value: NaN, an infinity, or (-1)^neg * m * 2^e. A zero has m = 0 and keeps its sign. -/
inductive FVal
  | nan
  | inf (neg : Bool)
  | fin (neg : Bool) (m : Nat) (e : Int)
  deriving DecidableEq, Repr

/-- The layout of a floating-point format (03 R54): width, fraction bits, bias, largest finite pattern, infinity, NaN. -/
structure FpFmt where
  width : Nat
  mant  : Nat
  bias  : Nat
  maxB  : Nat
  infB  : Option Nat
  nanB  : Nat
  deriving DecidableEq, Repr

def fp32 : FpFmt := ⟨32, 23, 127, 0x7F7FFFFF, some 0x7F800000, 0x7FC00000⟩
def bf16 : FpFmt := ⟨16, 7, 127, 0x7F7F, some 0x7F80, 0x7FC0⟩
def e4m3 : FpFmt := ⟨8, 3, 7, 0x7E, none, 0x7F⟩
def e5m2 : FpFmt := ⟨8, 2, 15, 0x7B, some 0x7C, 0x7E⟩

/-- The layout of a floating-point format code; FP32 for the codes that are no floating-point format. -/
def fpOf : Fmt → FpFmt
  | .bf16 => bf16
  | .e4m3 => e4m3
  | .e5m2 => e5m2
  | _ => fp32

/-- The weight of the lowest fraction bit of a subnormal: 2^(1 - bias - mant). -/
def FpFmt.emin (f : FpFmt) : Int := 1 - f.bias - f.mant

/-- The value of a pattern (03 R54). -/
def fpDecode (f : FpFmt) (bits : Nat) : FVal :=
  let neg := bits / 2 ^ (f.width - 1) % 2 == 1
  let mag := bits % 2 ^ (f.width - 1)
  if f.infB = some mag then .inf neg
  else if mag > f.maxB then .nan
  else
    let e := mag / 2 ^ f.mant
    let x := mag % 2 ^ f.mant
    if e = 0 then .fin neg x f.emin else .fin neg (2 ^ f.mant + x) (e - f.bias - f.mant)

/-- The pattern of a sign and a magnitude pattern. -/
def fpSign (f : FpFmt) (neg : Bool) (mag : Nat) : Nat := if neg then 2 ^ (f.width - 1) + mag else mag

/-- Whether a mode rounds a positive or negative inexact magnitude up, given the kept part's low bit and the comparison of what
is cut off with one half (03 R53). -/
def roundsUp (rm : Rm) (neg odd : Bool) (half : Ordering) : Bool :=
  match rm with
  | .rne => half == .gt || (half == .eq && odd)
  | .rz => false
  | .ru => !neg
  | .rd => neg

/-- m * 2^e rounded to an integer multiple of 2^q, as the multiple (03 R53). -/
def roundAt (rm : Rm) (neg : Bool) (m : Nat) (e q : Int) : Nat :=
  if q ≤ e then m * 2 ^ (e - q).toNat
  else
    let k := (q - e).toNat
    let n := m / 2 ^ k
    let r := m % 2 ^ k
    if r = 0 then n
    else if roundsUp rm neg (n % 2 == 1) (compare (2 * r) (2 ^ k)) then n + 1 else n

/-- The magnitude pattern of m * 2^e rounded, before the overflow rule; beyond `maxB` it overflows. -/
def fpRoundMag (f : FpFmt) (rm : Rm) (neg : Bool) (m : Nat) (e : Int) : Nat :=
  if m = 0 then 0
  else
    let q : Int := max ((Nat.log2 m : Int) + e - f.mant) f.emin
    (q - f.emin).toNat * 2 ^ f.mant + roundAt rm neg m e q

/-- The pattern an overflowing magnitude gives (03 R58). -/
def fpOverflow (f : FpFmt) (rm : Rm) (neg : Bool) : Nat :=
  match f.infB with
  | none => f.maxB
  | some i =>
    match rm with
    | .rne => i
    | .rz => f.maxB
    | .ru => if neg then f.maxB else i
    | .rd => if neg then i else f.maxB

/-- A value rounded once to a format (03 R55, R58). -/
def fpEncode (f : FpFmt) (rm : Rm) : FVal → Nat
  | .nan => f.nanB
  | .inf neg => fpSign f neg (f.infB.getD f.maxB)
  | .fin neg m e =>
    let b := fpRoundMag f rm neg m e
    fpSign f neg (if b > f.maxB then fpOverflow f rm neg else b)

/-! ### Exact operations (03 R56) -/

/-- m * 2^e as a signed multiple of 2^q, for q at most e. -/
def scaledInt (neg : Bool) (m : Nat) (e q : Int) : Int :=
  let n : Int := m * 2 ^ (e - q).toNat
  if neg then -n else n

/-- An integer multiple of 2^q as a value; a zero takes the given sign. -/
def ofScaled (zeroNeg : Bool) (n : Int) (q : Int) : FVal :=
  if n = 0 then .fin zeroNeg 0 0 else .fin (decide (n < 0)) n.natAbs q

/-- The negation of a value. -/
def FVal.neg : FVal → FVal
  | .nan => .nan
  | .inf s => .inf (!s)
  | .fin s m e => .fin (!s) m e

/-- The exact sum. A zero sum of two zeros of one sign keeps the sign; any other exact zero is +0, or -0 in rm=rd (03 R56). -/
def fAdd (rm : Rm) : FVal → FVal → FVal
  | .nan, _ => .nan
  | _, .nan => .nan
  | .inf s, .inf t => if s = t then .inf s else .nan
  | .inf s, _ => .inf s
  | _, .inf t => .inf t
  | .fin s m e, .fin t n d =>
    let q := min e d
    ofScaled (if m = 0 ∧ n = 0 ∧ s = t then s else rm == .rd) (scaledInt s m e q + scaledInt t n d q) q

/-- The exact product. -/
def fMul : FVal → FVal → FVal
  | .nan, _ => .nan
  | _, .nan => .nan
  | .inf s, .inf t => .inf (s != t)
  | .inf s, .fin t n _ => if n = 0 then .nan else .inf (s != t)
  | .fin s m _, .inf t => if m = 0 then .nan else .inf (s != t)
  | .fin s m e, .fin t n d => .fin (s != t) (m * n) (e + d)

/-- The exact a * b + c. -/
def fFma (rm : Rm) (a b c : FVal) : FVal := fAdd rm (fMul a b) c

/-- The order of two values that are no NaN; -0 is below +0 when `signedZero`. -/
def fLt (signedZero : Bool) : FVal → FVal → Bool
  | .nan, _ => false
  | _, .nan => false
  | .inf s, .inf t => s && !t
  | .inf s, _ => s
  | _, .inf t => !t
  | .fin s m e, .fin t n d =>
    let q := min e d
    let x := scaledInt s m e q
    let y := scaledInt t n d q
    decide (x < y) || (signedZero && decide (x = y) && decide (m = 0) && s && !t)

/-- A value that is no NaN. -/
def FVal.isNum : FVal → Bool
  | .nan => false
  | _ => true

/-- A NaN or an infinity. -/
def FVal.isSpecial : FVal → Bool
  | .fin _ _ _ => false
  | _ => true

/-- Equality of two values that are no NaN; -0 equals +0. -/
def fEq (a b : FVal) : Bool := a.isNum && b.isNum && !fLt false a b && !fLt false b a

/-- Sets the bits of r from the top down while the square stays at most n. -/
def isqrtFrom : Nat → Nat → Nat → Nat
  | 0, _, r => r
  | b + 1, n, r => isqrtFrom b n (if (r + 2 ^ b) * (r + 2 ^ b) ≤ n then r + 2 ^ b else r)

/-- The largest r below 2^bits with r * r at most n. -/
def isqrt (bits n : Nat) : Nat := isqrtFrom bits n 0

/-- A value below m * 2^e + 2^e: twice m, plus one when something was cut off, so that one rounding of the result rounds the
exact value. m must hold at least two bits more than the destination. -/
def sticky (neg : Bool) (m : Nat) (exact : Bool) (e : Int) : FVal :=
  .fin neg (2 * m + if exact then 0 else 1) (e - 1)

/-- The square root, for rounding once to FP32 or narrower (07 R168). -/
def fSqrt : FVal → FVal
  | .nan => .nan
  | .inf s => if s then .nan else .inf false
  | .fin s m e =>
    if m = 0 then .fin s 0 0
    else if s then .nan
    else
      -- m * 2^e = n * 2^(2h) with n of at least 63 bits
      let k : Nat := 64 + (e % 2).toNat
      let n := m * 2 ^ k
      let h : Int := (e - k) / 2
      let r := isqrt 64 n
      sticky false r (r * r == n) h

/-! ### Conversions (03 R58) -/

/-- A value rounded to an integer. -/
def roundInt (rm : Rm) (neg : Bool) (m : Nat) (e : Int) : Int :=
  let n : Int := roundAt rm neg m e 0
  if neg then -n else n

/-- The range of an integer format. -/
def intMin (f : Fmt) : Int := if f.isSigned then -(2 ^ (f.width - 1)) else 0
def intMax (f : Fmt) : Int := if f.isSigned then 2 ^ (f.width - 1) - 1 else 2 ^ f.width - 1

/-- An integer clamped to a format's range. -/
def clampInt (f : Fmt) (n : Int) : Int := max (intMin f) (min (intMax f) n)

/-- A value converted to an integer format (03 R58). -/
def toIntFmt (f : Fmt) (rm : Rm) : FVal → Int
  | .nan => 0
  | .inf neg => if neg then intMin f else intMax f
  | .fin neg m e => clampInt f (roundInt rm neg m e)

/-- The exact value of an integer. -/
def ofInt (n : Int) : FVal := .fin (decide (n < 0)) n.natAbs 0

/-- The integer an unsigned w-bit pattern stands for in an integer format. -/
def intOfBits (f : Fmt) (bits : Nat) : Int :=
  let b : Nat := bits % 2 ^ f.width
  if f.isSigned && decide (2 ^ (f.width - 1) ≤ b) then (b : Int) - 2 ^ f.width else b

/-- The w-bit pattern of an integer, wrapped. -/
def bitsOfInt (w : Nat) (n : Int) : Nat := (n % 2 ^ w).toNat

/-- The value of a pattern of any format but the block formats. -/
def decodeFmt (f : Fmt) (bits : Nat) : FVal :=
  if f.isFloat then fpDecode (fpOf f) (bits % 2 ^ f.width) else ofInt (intOfBits f bits)

/-- A value converted to a format, as its pattern (03 R58). -/
def encodeFmt (f : Fmt) (rm : Rm) (v : FVal) : Nat :=
  if f.isFloat then fpEncode (fpOf f) rm v else bitsOfInt f.width (toIntFmt f rm v)

/-- One conversion: the exact value of the source rounded once. -/
def convert (src dst : Fmt) (rm : Rm) (bits : Nat) : Nat := encodeFmt dst rm (decodeFmt src bits)

/-! ### Typed elements of containers (07 R161) -/

/-- The w-bit pattern a 32-bit container holds for a type. -/
def containerBits (f : Fmt) (c : BitVec 32) : Nat :=
  match f with
  | .bf16 => c.toNat / 2 ^ 16
  | _ => c.toNat % 2 ^ f.width

/-- The container that holds a w-bit pattern of a type. -/
def toContainer (f : Fmt) (bits : Nat) : BitVec 32 :=
  match f with
  | .bf16 => BitVec.ofNat 32 (bits % 2 ^ 16 * 2 ^ 16)
  | _ => if f.isSigned then BitVec.ofInt 32 (intOfBits f bits) else BitVec.ofNat 32 (bits % 2 ^ f.width)

/-- The value of a container read in a type. -/
def elemVal (f : Fmt) (c : BitVec 32) : FVal := decodeFmt f (containerBits f c)

/-- The integer of a container read in an integer type. -/
def elemInt (f : Fmt) (c : BitVec 32) : Int := intOfBits f (containerBits f c)

/-- The container of a value rounded to a type. -/
def putVal (f : Fmt) (rm : Rm) (v : FVal) : BitVec 32 := toContainer f (encodeFmt f rm v)

/-- The container of an integer result, wrapped or clamped (07 R167). -/
def putInt (f : Fmt) (sat : Bool) (r : Int) : BitVec 32 :=
  toContainer f (bitsOfInt f.width (if sat then clampInt f r else r))

/-! ### Block formats (03 R59 to R66) -/

/-- The magnitude of a 4-bit code's field M in a sign-magnitude type, in eighths (03 R60). -/
def q4Mag (ty m : Nat) : Nat :=
  match ty with
  | 1 => [0, 4, 8, 12, 16, 24, 32, 48].getD m 0
  | 2 => if m = 0 then 0 else 2 ^ (m - 1)
  | _ => [0, 8, 16, 24, 32, 48, 64, 128].getD m 0

/-- The value of a Q4 code in eighths (03 R60). -/
def q4Code (ty code : Nat) : Int :=
  if ty = 0 then 8 * (if code < 8 then (code : Int) else code - 16)
  else if code < 8 then (q4Mag ty code : Int) else -(q4Mag ty (code - 8) : Int)

/-- The magnitude of a 6-bit code's low five bits in a sign-magnitude type, in sixteenths (03 R61). -/
def q6Mag (ty m : Nat) : Nat :=
  match ty with
  | 1 => if m / 8 = 0 then 2 * (m % 8) else 2 ^ (m / 8 - 1) * (8 + m % 8) * 2
  | _ => if m / 4 = 0 then m % 4 else 2 ^ (m / 4 - 1) * (4 + m % 4)

/-- The value of a Q6 code in sixteenths (03 R61). -/
def q6Code (ty code : Nat) : Int :=
  if ty = 0 then 16 * (if code < 32 then (code : Int) else code - 64)
  else if code < 32 then (q6Mag ty code : Int) else -(q6Mag ty (code - 32) : Int)

/-- The value of a code in units of 2^-4, for either block format. -/
def blockCode (f : Fmt) (ty code : Nat) : Int :=
  if f = .q4 then 2 * q4Code ty (code % 16) else q6Code ty (code % 64)

/-- A scale byte (03 R59). -/
def scaleType (b : BitVec 8) : Nat := b.toNat / 64
def scaleExp (b : BitVec 8) : Nat := b.toNat % 64

/-- e = 63: an invalid block (03 R59). -/
def blockInvalid (b : BitVec 8) : Bool := scaleExp b == 63

/-- A Q6 block of type 0b11 (03 R62). -/
def blockReserved (f : Fmt) (b : BitVec 8) : Bool := f == .q6 && scaleType b == 3

/-- Whether every element of the block is NaN. -/
def blockBad (f : Fmt) (b : BitVec 8) : Bool := blockInvalid b || blockReserved f b

/-- A code's value without its scale. -/
def codeVal (f : Fmt) (ty code : Nat) : FVal := ofScaled false (blockCode f ty code) (-4)

/-- The exponent of a block's scale: 2^(e - 32). -/
def blockScale (b : BitVec 8) : Int := (scaleExp b : Int) - 32

/-- A value times 2^k. -/
def FVal.scale (v : FVal) (k : Int) : FVal :=
  match v with
  | .fin s m e => .fin s m (e + k)
  | w => w

/-- The value of an element of a block (03 R59 to R62). -/
def blockVal (f : Fmt) (scale : BitVec 8) (code : Nat) : FVal :=
  if blockBad f scale then .nan else (codeVal f (scaleType scale) code).scale (blockScale scale)

/-- The codes of a block format, and the zero code 0b1000 or 0b10_0000 that no encoding writes (03 R66). -/
def blockCodes (f : Fmt) (ty : Nat) : List Nat :=
  if f = .q4 then (List.range 16).filter fun c => !(ty != 0 && c == 8)
  else (List.range 64).filter fun c => !(ty != 0 && c == 32)

/-- The largest magnitude of a block type in units of 2^-4 (03 R60, R61). -/
def blockMax (f : Fmt) (ty : Nat) : Nat :=
  ((blockCodes f ty).map fun c => (blockCode f ty c).natAbs).foldl max 0

/-- Whether a tie goes to this code: the magnitude field even, or the integer even (03 R66). -/
def tieEven (f : Fmt) (ty code : Nat) : Bool :=
  if ty = 0 then (blockCode f ty code / 16) % 2 == 0 else code % 2 == 0

/-- The code that encodes the finite value n * 2^q, by the rounding mode (03 R66): the candidates just below and just above are
compared with the value, in units small enough for both. -/
def encodeCode (f : Fmt) (ty : Nat) (rm : Rm) (n q : Int) : Nat :=
  let u := min q (-4)
  let x := n * 2 ^ (q - u).toNat
  let val := fun c => blockCode f ty c * 2 ^ (-4 - u).toNat
  let codes := blockCodes f ty
  let lo := (codes.filter fun c => decide (val c ≤ x)).foldl
    (fun acc c => match acc with | none => some c | some b => if val b < val c then some c else some b) none
  let hi := (codes.filter fun c => decide (x ≤ val c)).foldl
    (fun acc c => match acc with | none => some c | some b => if val c < val b then some c else some b) none
  match lo, hi with
  | none, none => 0
  | none, some c => c
  | some c, none => c
  | some l, some h =>
    if val l = x then l
    else if val h = x then h
    else
      match rm with
      | .rz => if 0 ≤ x then l else h
      | .ru => h
      | .rd => l
      | .rne =>
        match compare (x - val l) (val h - x) with
        | .lt => l
        | .gt => h
        | .eq => if tieEven f ty l then l else h

/-- The code of a value divided by the scale 2^(e - 32); a value that is no number has none and gives 0 (03 R66). -/
def encodeBlockVal (f : Fmt) (ty e : Nat) (rm : Rm) : FVal → Nat
  | .fin s m ex => encodeCode f ty rm (if s then -(m : Int) else m) (ex - ((e : Int) - 32))
  | _ => 0

/-- Whether |v| / 2^(e - 32) is at most the type's largest magnitude. -/
def fitsScale (f : Fmt) (ty e : Nat) : FVal → Bool
  | .fin _ m ex =>
    let q := ex - ((e : Int) - 32)
    let u := min q (-4)
    decide (m * 2 ^ (q - u).toNat ≤ blockMax f ty * 2 ^ (-4 - u).toNat)
  | _ => false

/-- The exponent derived for a block of values (03 R66): 63 with a NaN or an infinity, 0 for all zeros, else the smallest e that
fits every value, or 62. -/
def deriveE (f : Fmt) (ty : Nat) (vs : List FVal) : Nat :=
  if vs.any FVal.isSpecial then 63
  else ((List.range 63).find? fun e => vs.all (fitsScale f ty e)).getD 62

/-! ### Terms (03 R67, R68) -/

/-- The number of non-zero digits of the non-adjacent form, over at most `fuel` bits (03 R67). -/
def nafWeightFrom : Nat → Nat → Nat
  | 0, _ => 0
  | fuel + 1, m =>
    if m % 2 = 1 then 1 + nafWeightFrom fuel ((if m % 4 = 1 then m - 1 else m + 1) / 2)
    else nafWeightFrom fuel (m / 2)

/-- The term count of an integer (03 R67). -/
def nafWeight (m : Nat) : Nat := nafWeightFrom 128 m

/-- The term count of an element that is no block element (03 R68). A scale of a power of two adds no terms. -/
def termCount : FVal → Nat
  | .nan => 1
  | .inf _ => 1
  | .fin _ m _ => nafWeight m

/-- The term count of a block element (03 R68). -/
def blockTerms (f : Fmt) (scale : BitVec 8) (code : Nat) : Nat :=
  if blockBad f scale then 1 else nafWeight (blockCode f (scaleType scale) code).natAbs

/-! ### The approximate functions (07 R169)

Each value is computed to many more bits than FP32 holds, with a sticky last bit, so that one rounding decides exactly where the
value lies among its neighbours (log 9). -/

/-- 1 / a. -/
def fRcp : FVal → FVal
  | .nan => .nan
  | .inf s => .fin s 0 0
  | .fin s m e =>
    if m = 0 then .inf s
    else
      let k := Nat.log2 m + 64
      let n := 2 ^ k / m
      sticky s n (n * m == 2 ^ k) (-e - k)

/-- 1 / sqrt a. -/
def fRsq : FVal → FVal
  | .nan => .nan
  | .inf s => if s then .nan else .fin false 0 0
  | .fin s m e =>
    if m = 0 then .inf s
    else if s then .nan
    else
      -- a = n * 2^(2h); 1 / sqrt a = sqrt (2^160 / n) * 2^(-80 - h)
      let n := m * 2 ^ (e % 2).toNat
      let h : Int := (e - e % 2) / 2
      let r := isqrt 82 (2 ^ 160 / n)
      sticky false r (r * r * n == 2 ^ 160) (-80 - h)

/-- The binary places of the expansions below. -/
def approxBits : Nat := 320

/-- 2^(f / 2^s) in units of 2^-approxBits, rounded down at each place: `root` is 2^(2^-i) for the place being read. -/
def exp2Frac : Nat → Nat → Nat → Nat → Nat
  | 0, _, _, acc => acc
  | s + 1, f, root, acc =>
    let acc' := if f / 2 ^ s % 2 = 1 then acc * root / 2 ^ approxBits else acc
    exp2Frac s f (isqrt (approxBits + 2) (root * 2 ^ approxBits)) acc'

/-- 2^a. Beyond the range of FP32 the value is an infinity or zero (07 R169). -/
def fExp2 : FVal → FVal
  | .nan => .nan
  | .inf s => if s then .fin false 0 0 else .inf false
  | .fin s m e =>
    if m = 0 then .fin false 1 0
    else if 8 ≤ (Nat.log2 m : Int) + e then if s then .fin false 0 0 else .inf false
    else
      let k := (-e).toNat
      let n : Int := scaledInt s m (max e 0) 0
      let i : Int := n / 2 ^ k
      let f : Nat := (n - i * 2 ^ k).toNat
      if 128 ≤ i then .inf false
      else if i < -150 then .fin false 0 0
      else if f = 0 then .fin false 1 i
      else
        let root := isqrt (approxBits + 2) (2 * 2 ^ (2 * approxBits))
        sticky false (exp2Frac k f root (2 ^ approxBits)) false (i - approxBits)

/-- The next `n` bits of log2 of y / 2^approxBits, which lies from 1 up to 2, by repeated squaring. -/
def log2Bits : Nat → Nat → Nat → Nat
  | 0, _, acc => acc
  | n + 1, y, acc =>
    let z := y * y / 2 ^ approxBits
    if 2 ^ (approxBits + 1) ≤ z then log2Bits n (z / 2) (2 * acc + 1) else log2Bits n z (2 * acc)

/-- log2 a. -/
def fLog2 : FVal → FVal
  | .nan => .nan
  | .inf s => if s then .nan else .inf false
  | .fin s m e =>
    if m = 0 then .inf true
    else if s then .nan
    else
      let l := Nat.log2 m
      let i : Int := l + e
      if m = 2 ^ l then ofInt i
      else
        let b := log2Bits 128 (m * 2 ^ (approxBits - l)) 0
        ofScaled false (2 * (i * 2 ^ 128 + b) + 1) (-129)

/-- A function's exact value, by name. -/
def approxExact (f : ApproxFn) (v : FVal) : FVal :=
  match f with
  | .rcp => fRcp v
  | .rsq => fRsq v
  | .exp2 => fExp2 v
  | .log2 => fLog2 v

/-- The FP32 answer: the exact value where it is representable, else the neighbour the hardware chooses for this input. -/
def approxF32 (f : ApproxFn) (x : BitVec 32) : BitVec 32 :=
  match approxExact f (fpDecode fp32 x.toNat) with
  | .fin neg m e =>
    let mag := fpRoundMag fp32 .rz neg m e
    let near := if mag > fp32.maxB then fp32.maxB else mag
    let exact := decide (fpEncode fp32 .rz (.fin neg m e) = fpEncode fp32 .ru (.fin neg m e)) &&
      decide (fpEncode fp32 .rz (.fin neg m e) = fpEncode fp32 .rd (.fin neg m e))
    BitVec.ofNat 32 (fpSign fp32 neg (if exact then near else if Config.approxUp f x then near + 1 else near))
  | v => BitVec.ofNat 32 (fpEncode fp32 .rne v)

/-- A function on one container: FP32 under its neighbour rule, BF16 rounded once by rm=rne (07 R169). -/
def approxElem (f : ApproxFn) (ty : Fmt) (c : BitVec 32) : BitVec 32 :=
  if ty = .bf16 then putVal .bf16 .rne (approxExact f (elemVal .bf16 c)) else approxF32 f c

end Sys2Proof.Machine
end

