-- ==== Sys2Proof/Machine/State.lean ====
section
/-! DEFINITION. The state of the device: one package of dies, its memory, contexts, queues, links and cores, as plain data, and
the state after reset. Every piece of state is one that a rule of the manual names, but the fields marked as the model's own. -/

namespace Sys2Proof.Machine

open Sys2Proof

/-- Why the machine stops. Nothing that the manual describes stops it: every fault of a program is taken as R311 gives, and the host's
errors are refused or confined. -/
inductive Fault
  deriving DecidableEq, Repr

/-- Why an instruction has no meaning. -/
inductive Refusal
  /-- The instruction's meaning is not written. Safe: the run ends. -/
  | notModelled (mnemonic : String)
  deriving DecidableEq, Repr

/-! ### Error records (11 R280, 14 R312) -/

/-- The fields of an error record that a fault gives; the ring adds SEQ and the core adds CORE, DIE and QUEUE (11 R280). -/
structure FaultRec where
  code   : BitVec 16
  src    : BitVec 4 := 0
  bundle : BitVec 32 := 0
  idx    : BitVec 12 := 0
  kind   : BitVec 8 := 0
  field  : BitVec 9 := 0
  tfld   : Bool := false
  loop   : BitVec 128 := 0
  addr   : BitVec 64 := 0
  aux    : BitVec 64 := 0
  tens   : BitVec 12 := 0
  deriving DecidableEq, Repr

/-! ### Memory -/

/-- A key: a slot of a context and the number `gen` of the key that the slot held (11 R276). Keys with one number are one key: bytes
written under one can be read under the other. A key drawn at random has the number of its draw; a model key that a binding record
carries has 2^256 plus its value (R274). -/
structure KeyTag where
  ctx  : BitVec 10
  slot : Fin 16
  gen  : Nat
  deriving DecidableEq, Repr

/-- What memory holds of a line beside its bytes: the key it was written under and its stamp S (16 R337, R338). -/
structure LineMeta where
  line  : Nat
  key   : KeyTag
  stamp : BitVec 32
  deriving DecidableEq, Repr

/-- A line held by a slice (10 R248 to R250, R259, R260): the die and the physical index of the slice (11 R266). Sector masks have one
bit for each 16 bytes. `shared` marks a copy of a line whose ordering point is elsewhere, `stream` a line that is the next victim
(06 R134). `swap` marks a line of a pair in progress, which the swap unit holds and no slice allocates (16 R341). -/
structure SliceLine where
  die    : Fin 4
  slice  : Nat
  line   : Nat
  data   : BitVec 1024
  valid  : BitVec 8
  dirty  : BitVec 8
  poison : BitVec 8
  key    : Option KeyTag
  stamp  : BitVec 32
  tagOk  : Bool
  seq    : BitVec 32
  shared : Bool
  stream : Bool
  swap   : Bool
  deriving DecidableEq, Repr

/-- A request that waits at a slice: a part of an outstanding access of a core (10 R259). -/
structure SliceReq where
  core : CoreId
  id   : Nat
  part : Nat
  deriving DecidableEq, Repr

/-- A miss in flight and the requests appended to it, in order (10 R259, R261). -/
structure Mshr where
  die     : Fin 4
  line    : Nat
  waiting : List SliceReq
  deriving DecidableEq, Repr

/-- The channel directory's record of a line (06 R139): the die that holds exclusive ownership, the cycle it obtained it, and for
each die the back-off D. -/
structure DirEntry where
  line  : Nat
  owner : Option (Fin 4)
  since : Nat
  delay : Vector Nat 4
  lost  : Vector (Option Nat) 4
  deriving DecidableEq, Repr

/-- A pair entry of a swap unit (16 R341, R342): the physical addresses of the two leaves, the addresses and frames of the far and
near pages, the page size, how many lines are exchanged, whether a far port failed meanwhile, and the PGIN that started it. -/
structure SwapPair where
  part     : BitVec 6
  idx      : Fin 64
  ctx      : BitVec 10
  leafF    : Nat
  leafN    : Nat
  vaF      : BitVec 56
  vaN      : BitVec 56
  farB     : Nat
  nearB    : Nat
  size     : Nat
  done     : Nat
  portFail : Bool
  core     : CoreId
  acc      : Nat
  deriving DecidableEq, Repr

/-! ### Contexts (11) -/

/-- A partition record: one die of one partition (11 R264). -/
structure PartRec where
  die    : Fin 4
  part   : BitVec 6
  cores  : BitVec 96
  slices : BitVec 64
  chan0  : BitVec 32
  chan1  : BitVec 32
  nearB  : BitVec 64
  farB   : BitVec 64
  farS   : BitVec 64
  fports : BitVec 10
  deriving DecidableEq, Repr

/-- The states of a context (11 R268, R273). -/
inductive CtxState
  | creating | keyed | active | suspended | draining | destroyed
  deriving DecidableEq, Repr

/-- A context: its descriptor's address, the RW fields read at the last ACTIVATE or RESUME, and what the device keeps (11 R268). -/
structure Context where
  id      : BitVec 10
  state   : CtxState
  desc    : BitVec 52
  view    : BitVec 2
  dev     : BitVec 2
  strict  : Bool
  priMax  : BitVec 8
  part    : BitVec 6
  hroot   : BitVec 64
  troot   : BitVec 64
  proot   : BitVec 64
  qroot   : BitVec 64
  qn      : BitVec 16
  saveB   : BitVec 64
  saveS   : BitVec 32
  errB    : BitVec 64
  errN    : BitVec 16
  rzb     : BitVec 32
  pfb     : BitVec 32
  peb     : BitVec 32
  kdrop   : BitVec 64
  errDrop : BitVec 64
  keys    : Vector (Option Nat) 16
  digests : Vector (Option (BitVec 512)) 16
  fabTag  : Option (BitVec 16)
  lost    : List (Fin 4 × Fin 16)
  destroyed : List (Fin 16)
  errTail : Word
  deriving DecidableEq, Repr

/-! ### Accesses of a core (02 R46, 06 R132) -/

/-- The kinds of storage of an access (10 R246). -/
inductive SKind
  | l | g | p | t
  deriving DecidableEq, Repr

/-- Where an access writes its result: nowhere, a scalar register of its slot, or the entry of a queue register reserved under
the access's own number. -/
inductive Dest
  | none
  | sreg (n : Fin 64)
  | queue (q : Fin 32)
  deriving DecidableEq, Repr

/-- What a program does to a barrier at its ordering point (15 R324): BARINIT with the kind, REARM and TARGET, or BARARV with its
weight, the phase it checks where PCHK is 1, and RES. -/
inductive BarOp
  | init (kind : BarKind) (rearm : Bool) (target : Word)
  | arrive (w : BitVec 16) (pexp : Option Bool) (res : Bool)
  deriving DecidableEq, Repr

/-- What a memory part does at its ordering point. -/
inductive MemOp
  | load
  | store (data : List Byte)
  | atomic (op : AOp) (b : Word) (expect : Word)
  | bar (op : BarOp)
  deriving DecidableEq, Repr

/-- What an M-slot tile instruction waits for (08 R214 to R218): the lines of a TPF, the first of which it may have begun an eviction
for; the line of a TPIN; invalidations; write-backs; the write-backs and the add of a commit; or only its token. -/
inductive TileCmd
  | pf (started : Bool) (hint : Hint) (ed : Option Word)
  | pin | inv | wb | commit | done
  deriving DecidableEq, Repr

/-- What an access is. -/
inductive AccKind
  /-- An access to memory through a handle: loads, stores, atomics, LDQ, STQ (06). -/
  | mem (op : AOp) (isLoad isStore : Bool)
  /-- An access to the local store: byte offset and what it does (06 R135, R136). -/
  | lstore (off : Nat) (len : Nat) (data : Option (List Byte))
  /-- FENCE: performed when every covered access is (06 R141). -/
  | fence (engines : Bool)
  /-- QJOIN over the engine queues of the mask (06 R142). -/
  | qjoin (mask : BitVec 6)
  /-- TIDWR's write through to the tensor table (05 R121). -/
  | tidwr (pa : Nat) (w : Word)
  /-- MSEND: the destination word and the payload (06 R155). -/
  | msend (dst : Word) (payload : List Byte)
  /-- A landing-slot grant: the record to deliver, the zone, the slot and the target (18 R382). -/
  | lzgrant (zone : Fin 16) (slot : Nat) (target : Word) (rec : List Byte)
  /-- An operation of e4 (17 R366 to R369, 18 R383): its status arrives through the engine. -/
  | e4 (op : Nat)
  /-- BARINIT, BARARV and BARTST (15 R324). BARARV has RES or not; BARTST names a memory barrier or a local offset. -/
  | barinit
  | bararv (res : Bool)
  | bartst (loc : Option Nat)
  /-- PGPF and PGIN (16 R344, R345), with the address in the near page, none where its handle fails the checks of R130. -/
  | pgpf (va : BitVec 56)
  | pgin (va : BitVec 56) (near : Option (BitVec 56))
  /-- LAUNCH and QENTRY: the queue and the entry without its stamp (12 R291). -/
  | append (q : Word) (entry : BitVec 512)
  /-- An M-slot tile instruction that is not complete (08 R213): the tensor, its entry as read at issue, the tiles still to look up
  or whose write-back is awaited, and the tiles it names. -/
  | tile (cmd : TileCmd) (tens : BitVec 12) (ent : Rec128) (todo names : List (Vector Word 4))
  deriving DecidableEq, Repr

/-- The stages of one part of an access: not yet at its slice, waiting there, performed with its data and the tag, die, line and slice
of a performance in this device's memory (10 R260), faulted. -/
inductive PartStage
  | sent
  | atSlice
  | done (data : BitVec 1024) (seq : BitVec 32) (die : Fin 4) (at_ : Option (Nat × Nat))
  | failed (f : FaultRec)
  deriving DecidableEq, Repr

/-- One part of an access: one scalar, or one 128-byte line of LDQ and STQ (06 R132). -/
structure Part where
  va    : BitVec 56
  len   : Nat
  op    : MemOp
  stage : PartStage
  deriving DecidableEq, Repr

/-- An access that has issued and is not performed. `units` holds the 8-byte units that a 4 KiB transfer of the local store has moved (06
R131). `id` counts a core's accesses and engine operations in issue order. -/
structure Access where
  id      : Nat
  slot    : Slot
  bundle  : BitVec 32
  sbs     : Option (Fin 8)
  kind    : AccKind
  sk      : SKind
  asc     : Scope
  ssc     : Ssc
  ord     : Ord
  dest    : Dest
  ty      : Fmt
  stream  : Bool
  wvm     : Bool
  wv      : BitVec 32
  peer    : Bool
  dropped : Bool
  push    : Option (Fin 8)
  parts   : List Part
  units   : List (Nat × List Byte)
  raised  : Bool
  deriving DecidableEq, Repr

/-! ### Group state on a core (14 R309) -/

/-- A loop-stack entry (05 R115). -/
structure LoopEntry where
  start  : BitVec 32
  stop   : BitVec 32
  remain : BitVec 32
  deriving DecidableEq, Repr

/-- Why a slot is blocked: in RWAIT, TEDACQ or BARWAIT, or for another reason of 02 R27 (14 R308). A BARWAIT on a barrier in
memory says at which address and which phase it awaits (15 R322). -/
inductive BlockKind
  | plain | wait
  | barrier (pa : Nat) (phase : Bool)
  deriving DecidableEq, Repr

/-- The state of one issue slot (02 R26, R35, R45; 05 R115, R127). `arrived` is the cycle at which it reached the sync bundle it
stands at (02 R30); `solo` names a sync bundle whose lane of this slot faulted while its peers issued, and which issues alone when it is
retried (log 32). `entry` is the tensor entry that the command blocked at its bundle has read (05 R121). `failed` says that the read which the
instruction at its bundle awaits has faulted and was skipped (14 R314). -/
structure SlotState where
  pc      : BitVec 32
  s       : Vector Word 64
  p       : BitVec 16
  loops   : List LoopEntry
  sb      : Vector (BitVec 6) 8
  ended   : Bool
  blk     : Option BlockKind
  arrived : Option Nat
  solo    : Option (BitVec 32)
  entry   : Option (BitVec 1024)
  failed  : Bool
  deriving DecidableEq, Repr

/-- An entry of a queue register: present, reserved by access `id`, or reserved and marked for discard (02 R33, 05 R118).
`fresh` marks an entry that a lane of the sync bundle being issued has pushed, which no pop of that bundle sees (02 R29). -/
structure QEntry (w : Nat) where
  id     : Nat
  data   : Option (BitVec w)
  marked : Bool
  fresh  : Bool
  deriving DecidableEq, Repr

/-- Where the value of a vector name is (02 R37, R39). `stamp` orders the writes. -/
inductive VLoc
  | resident (v : VReg) (stamp : Nat)
  | carve (slot stamp : Nat)
  | overflow (stamp : Nat)
  deriving DecidableEq, Repr

/-- A compact predicate (02 R41). -/
structure KReg where
  count : BitVec 16
  width : KWidth
  len   : BitVec 3
  deriving DecidableEq, Repr

/-- A byte range of the range scoreboard, entered by engine operation `id`; `isDst` for a copy-in or gather target (02 R50). -/
structure Range where
  id    : Nat
  lo    : Nat
  hi    : Nat
  isDst : Bool
  deriving DecidableEq, Repr

/-- What an engine operation does. -/
inductive EngKind
  /-- A copy, gather or scatter record: index, the record, b0 to b3, the handle entries read at issue (06 R143). -/
  | copy (idx : BitVec 12) (rec : Rec64) (b : Vector Word 4) (hnd shnd : BitVec 256)
  /-- FWR: local offset, length, peer address (17 R367). -/
  | fwr (off : Nat) (len : Nat) (va : BitVec 56)
  /-- FATOM: operation, operands, peer address (17 R368). -/
  | fatom (op : AOp) (ty : Fmt) (b expect : Word) (va : BitVec 56)
  /-- FREQ: destination word and payload (17 R369). -/
  | freq (dst : Word) (payload : List Byte)
  /-- LZPUT: the grant record and the local offset of the data (18 R383). -/
  | lzput (grant : List Byte) (off : Nat)
  /-- A matrix record: index, the record, b0 to b3, the tensor entries read at issue (09 R237). -/
  | matrix (idx : BitVec 12) (rec : Rec64) (b : Vector Word 4) (ents : List Rec128)
  /-- MZCLR: the accumulator and INV (09 R239). -/
  | mzclr (z : Fin 8) (inv : Bool)
  /-- A tile fill of the line (08 R201). -/
  | fill (line : Nat)
  deriving DecidableEq, Repr

/-- The records of an e4 operation: how many it sent, and those that came back with what (17 R366, R370). -/
structure Sent where
  rtag : BitVec 32
  off  : Nat
  len  : Nat
  deriving DecidableEq, Repr

/-- An operation in an engine queue. `dropped` says that a later write of the slot has replaced its result (05 R109). `pos` is its progress: elements, bytes or steps done, and of a copy `status` is the element of its
current step that stopped it (14 R314); `lines` the tile lines that its current step holds and `parked` the cycle since which that step has waited (09 R227, R241); `held` an operation that is complete but for a
push that is held (02 R34), `got` the local store as a gather or scatter has read it for its current step (06 R148), and `waited` the cycles that the
current step had waited before a pre-emption (09 R227). -/
structure EngOp where
  id      : Nat
  slot    : Slot
  bundle  : BitVec 32
  sbs     : Option (Fin 8)
  push    : Option (Fin 8)
  asc     : Scope
  ssc     : Ssc
  ord     : Ord
  dest    : Dest
  dropped : Bool
  hint    : Hint
  kind    : EngKind
  pos     : Nat
  lines   : List Nat
  sent    : List Sent
  status  : Nat
  held    : Bool
  failed  : Option FaultRec
  parked  : Option Nat
  got     : Option (List Host.Cell)
  waited  : Nat
  deriving DecidableEq, Repr

/-- An engine queue (02 R48): its operations, oldest first, and whether it is halted (06 R152). -/
structure EngQ where
  ops    : List EngOp
  halted : Bool
  deriving DecidableEq, Repr

/-! ### The Caldera (08 R200 to R209) -/

/-- The base state of a line that is not invalid (08 R200). -/
inductive TBase
  | filling | valid | writingBack
  deriving DecidableEq, Repr

/-- The command whose lookup allocated a line, for the fault its fill may raise (08 R204); `silent` for a TPF or a look-ahead. -/
structure TOrigin where
  src    : BitVec 4
  bundle : BitVec 32
  idx    : BitVec 12
  kind   : BitVec 8
  loop   : BitVec 128
  isRec  : Bool
  silent : Bool
  deriving DecidableEq, Repr

/-- A line of the tag store that is not invalid; `idx` is its tag index, 8 * set + way. `grp` is the group that last touched it,
`stamp` its recency, `keys` the keys its data were filled under, `ent` the tensor entry it was allocated with. `evict` and
`discard` say what follows a write-back or a fill: the eviction, or a TINV. `pf` marks a line that TPF allocated and `pfHit` its
first demand hit (R223). `out` holds the records that a write-back to a peer page has sent and that have not come back. -/
structure TileLine where
  idx     : Nat
  ctx     : BitVec 10
  tens    : BitVec 12
  c       : Vector Word 4
  ed      : Word
  base    : TBase
  pin     : Bool
  dirty   : Bool
  adopt   : Option (Fin 16 × Nat)
  last    : Bool
  stream  : Bool
  grp     : Nat
  stamp   : Nat
  gran    : Nat
  data    : LineData
  keys    : List KeyTag
  ent     : Rec128
  asc     : Scope
  origin  : TOrigin
  evict   : Bool
  discard : Bool
  pf      : Bool
  pfHit   : Bool
  out     : Option (List (BitVec 32))
  deriving DecidableEq, Repr

/-- Who waits in the replay queue (08 R203): the V slot's TRD or TWR, the current step of e5, or a TPIN by its access number. -/
inductive WaiterKind
  | v | e5
  | m (id : Nat)
  deriving DecidableEq, Repr

/-- An entry of the replay queue: the waiter, the tensor with its entry and the coordinates it looks up, the required edition it
keeps, whether it waits for a way to become free, since when its every candidate has been pinned (08 R203, R209), and whether it has
parked on a line that fills (R223). `failed` marks a command that completes as failed when it issues again (14 R314). -/
structure Waiter where
  who    : WaiterKind
  tens   : BitVec 12
  ent    : Rec128
  c      : Vector Word 4
  ed     : Word
  noWay  : Bool
  since  : Option Nat
  late   : Bool
  failed : Bool
  deriving DecidableEq, Repr

/-- A cached handle or tensor-table entry (05 R121, 16 R328). -/
structure Cached (w : Nat) where
  n   : BitVec 12
  val : BitVec w
  deriving DecidableEq, Repr

/-- A cached leaf (16 R330, R332): the base and size of the page it maps, the physical address of the entry, and its words. -/
structure Leaf where
  va   : Nat
  size : Nat
  pa   : Nat
  w0   : Word
  w1   : Word
  deriving DecidableEq, Repr

/-- A walk in flight for a page (16 R332): the words of entries that it has read already, each with its address. -/
structure Walk where
  page : Nat
  held : List (Nat × Word)
  deriving DecidableEq, Repr

/-- A cached non-leaf entry: the level and the address it was read at, with the table it names (16 R332). -/
structure NonLeaf where
  level : Nat
  va    : Nat
  table : Nat
  deriving DecidableEq, Repr

/-- A fault waiting to be delivered, or recorded since the group entered trapping: its record and the operation it stopped
(14 R311, R314). -/
inductive FaultOp
  | lane (sl : Slot) (n : BitVec 32)
  | read (sl : Slot) (n : BitVec 32)
  | trap (n : BitVec 32)
  | rendezvous
  | access (id : Nat)
  | engine (e : Fin 6) (id : Nat)
  | fill (waiters : List WaiterKind)
  | tileWait (who : WaiterKind)
  | writeBack (t : BitVec 12) (c : Vector Word 4)
  | other
  deriving DecidableEq, Repr

/-- A fault with the operation that met it. -/
structure PendFault where
  fr : FaultRec
  op : FaultOp
  deriving DecidableEq, Repr

/-! ### Kernels, launches and groups (13, 14) -/

/-- A region of the local store: offset and size in bytes; size 0 where it is not declared (02 R47). -/
structure Region where
  off  : Nat
  size : Nat
  deriving DecidableEq, Repr

/-- The layout of a core's local store (02 R47). -/
structure Layout where
  window  : Nat
  spill   : Region
  records : Region
  rings   : Vector Region 16
  zones   : Vector Region 16
  deriving DecidableEq, Repr

/-- A group: its launch, its number in the walk, when it started and was placed, and what its kernel grants it (13, 14). -/
structure GroupInfo where
  ctx     : BitVec 10
  queue   : BitVec 12
  entry   : Nat
  g       : Nat
  serial  : Nat
  placed  : Nat
  pri     : BitVec 8
  asc     : Scope
  code    : BitVec 56
  nbund   : Nat
  nrec    : Nat
  regs    : Nat
  accs    : Nat
  tbud    : Nat
  layout  : Layout
  strict  : Bool
  rzb     : Nat
  pfb     : Nat
  peb     : Nat
  deriving DecidableEq, Repr

/-- The stage of a pre-emption (14 R315): slots stopped and accesses awaited (steps 1, 2), engines and Caldera settling (steps 3, 4),
landing slots awaited since a cycle (step 5), ready to be saved. -/
inductive PreStage
  | stopping
  | settling
  | draining (since : Nat)
  | ready
  deriving DecidableEq, Repr

/-- What holds a core (14 R308): nothing, a group that runs, or one that is trapping, quiescent or not yet. -/
inductive GStat
  | free
  | running
  | trapping (quiet : Bool)
  deriving DecidableEq, Repr

/-- One core (02) with the group on it. Registers hold their values while the core is free. `owner`
and `winEnd` are the context that last ran on it and the end of its window. `landSince` is the cycle since which a completion
waits for landing slots (18 R388). `adopting` is the LZADOPT that the A slot
is blocked at while a victim is written back (18 R384). `ackAt` is the cycle of the last acknowledgement that SEQLAST took, with its access
(10 R260). `narrow` lists the lines whose last value its group knows while older copies may live on, `fenced` those it knew at
its last release FENCE, and `heard` those that an acquire FENCE would add (10 R249, R254). `repins` are the pinned tags of a restored group whose fills have still to enter
e0 (08 R221), and `gcmd` is the core that a waiting GRESUME or GABORT names (14 R315). `bundling` is the model's own: the
lanes of a sync bundle are being issued together (02 R28, R29). -/
structure Core where
  stat      : GStat
  grp       : Option GroupInfo
  pre       : Option PreStage
  preCause  : PreemptCause
  landSince : Option Nat
  slots     : Vector SlotState 4
  q         : Vector (List (QEntry 64)) 20
  vq        : Vector (List (QEntry 32768)) 12
  d         : Vector Nat 8
  v         : List (Nat × VLoc)
  vclock    : Nat
  k         : Vector KReg 16
  masks     : List Mask
  z         : Vector (Option Acc) 8
  e         : Vector EngQ 6
  acc       : List Access
  nextId    : Nat
  ranges    : List Range
  ls        : List Host.Cell
  owner     : Option (BitVec 10)
  winEnd    : Nat
  lines     : List TileLine
  hand      : Nat
  tclock    : Nat
  reqEd     : List (BitVec 12 × Word)
  replay    : List Waiter
  hcache    : List (Cached 256)
  tcache    : List (Cached 1024)
  leaves    : List Leaf
  nonleaf   : List NonLeaf
  walks     : List Walk
  pend      : List PendFault
  faults    : List PendFault
  resumes   : BitVec 16
  ovfp      : Word
  splls     : Word
  splnm     : Word
  refil     : Word
  blkinv    : Word
  blkrsv    : Word
  aboff     : Word
  scdup     : Word
  tstale    : Word
  tdisc     : Word
  tpfdr     : Word
  cpfiss    : Word
  cpfhit    : Word
  cpflate   : Word
  cpfdead   : Word
  trmis     : Word
  trmzs     : Word
  trmsy     : Word
  trmdr     : Word
  trmrp     : Word
  trmst     : Word
  seqlast   : Word
  tierst    : Word
  tierms    : Word
  xwalk     : Word
  xjoin     : Word
  itfail    : Word
  lzseq     : BitVec 16
  adopting  : Option (Head × LzAdoptOp)
  repins    : List TileLine
  ackAt     : Nat × Nat
  narrow    : List Nat
  fenced    : List Nat
  heard     : List Nat
  gcmd      : Option CoreId
  bundling  : Bool
  deriving DecidableEq, Repr

/-! ### The package -/

/-- The state of a chiplet (17 R348). -/
inductive ChipState
  | attesting | inService | resetting | quarantined
  deriving DecidableEq, Repr

/-- An entry of a die's status log (01 R20, R22, R23; 16 R340; 17 R359). -/
inductive LogEntry
  | clock
  | ageing (days : Nat)
  | planeMismatch (c : Chip)
  | uncorrectable (pa : Nat) (pc : PseudoChan)
  | timeout (pa : Nat) (channel : Fin 4 × Fin 2 × Nat)
  deriving DecidableEq, Repr

/-- The resident plane of a unit: the values of its fields, by rising field number (01 R23). The units are the chiplets (log 94). -/
structure Plane where
  unit    : Chip
  fields  : List (Nat × Nat)
  deriving DecidableEq, Repr

/-- The ageing monitor of a die (01 R22): its prediction in days, the threshold that system software has configured, whether the prediction
lies below it, the flag, and the crossings counted. -/
structure Ageing where
  days      : Nat
  threshold : Nat
  below     : Bool
  flag      : Bool
  crossings : Word
  deriving DecidableEq, Repr

/-- A pseudo-channel that is not awake or has waited (01 R24): whether it is in self-refresh, the lines whose requests wait for the
exit, and the counted waits. -/
structure Refresh where
  pc      : PseudoChan
  asleep  : Bool
  waiting : List Nat
  waits   : Word
  deriving DecidableEq, Repr

/-! ### Queues and launches (12, 13) -/

/-- The states of a queue (12 R281, R283). -/
inductive QState
  | idle | armed | running | blocked | suspended | halted
  deriving DecidableEq, Repr

/-- An arrival of the queue engine at a barrier in a peer page (15 R326): none, sent under a tag, acknowledged, or refused. -/
inductive Remote
  | none
  | sent (rtag : BitVec 32)
  | done
  | failed (f : FaultRec)
  deriving DecidableEq, Repr

/-- A queue in use (12 R281): what was read of its descriptor at ACTIVATE or RESUME, what the device keeps, and the entry in
progress, whose index is HEAD - 1. `kept` is the state before a suspension (R283), and `moved` counts the bytes that a copy in progress
has moved (R293). `appended` is the I-die's cycle of the last program append and the index of its core (R292). -/
structure QueueRun where
  ctx     : BitVec 10
  n       : BitVec 12
  state   : QState
  kept    : QState
  base    : BitVec 64
  nl      : Nat
  en      : Bool
  head    : Word
  done    : Word
  lastErr : Word
  entry   : Option Rec64
  remote  : Remote
  moved   : Nat
  appended : Nat × Nat
  deriving DecidableEq, Repr

/-- The stages of a launch (13 R307): its checks have passed and its versions are to be advanced; they are advanced; its groups are
placed; all are placed; it is faulted; it completes. -/
inductive LaunchStage
  | versioning | advanced | dispatching | running | faulted | completing
  deriving DecidableEq, Repr

/-- The kinds of a loop level (13 R298). -/
inductive LevelKind
  | unused | temporal | cores | dies
  deriving DecidableEq, Repr

/-- A level of a loop table with its count, taken from the argument block where LARG is 1 (13 R298, R300). -/
structure Level where
  kind  : LevelKind
  count : Nat
  order : Nat
  deriving DecidableEq, Repr

/-- A launch in progress (12 R289, 13 R296 to R307): its entry's fields, its descriptor, its levels and layout, the handles of
its write list, its stage, the next group of each die's sequence or of the shared one, and how many groups have started, ended
and been discarded; `claims` are the cores of the victims that it pre-empts (12 R290). -/
structure Launch where
  ctx       : BitVec 10
  queue     : BitVec 12
  entry     : Word
  pri       : BitVec 8
  pre       : Bool
  asc       : Scope
  kdesc     : BitVec 64
  dbar      : BitVec 64
  desc      : Rec128
  levels    : Vector Level 8
  layout    : Layout
  handles   : List (BitVec 12)
  stage     : LaunchStage
  next      : Vector Nat 4
  shared    : Nat
  started   : Nat
  ended     : Nat
  discarded : Nat
  claims    : List CoreId
  deriving DecidableEq, Repr

/-- A group placed on a die and not started (13 R303), and the step at which it was placed. -/
structure Placed where
  die   : Fin 4
  ctx   : BitVec 10
  queue : BitVec 12
  g     : Nat
  since : Nat
  deriving DecidableEq, Repr

/-- A group in a save slot (14 R316, R317): what the image holds, as the core's state at the save, with the tags to repin and the
adopted tags in save order (R221, R387). -/
structure Saved where
  ctx     : BitVec 10
  slot    : Nat
  info    : GroupInfo
  at_     : CoreId
  trap    : Bool
  core    : Core
  pins    : List TileLine
  deriving DecidableEq, Repr

/-- A rotation pointer (12 R287): the queue last served at a level of a partition, in taking entries or in placing groups. -/
structure Rotation where
  part  : BitVec 6
  place : Bool
  pri   : BitVec 8
  ctx   : BitVec 10
  queue : BitVec 12
  deriving DecidableEq, Repr

/-! ### Links and the fabric (17) -/

/-- The states of a link (17 R351, R352). -/
inductive LinkState
  | dark | training | attesting | keyed | up | draining | waking | sleeping | failed
  deriving DecidableEq, Repr

/-- A record that this device sent: the record, its destination, the operation it belongs to, the part of an access or the element of a
copy that it carries, and the virtual address that a fault of it records (17 R372). -/
structure TxRec where
  rec_ : OpRecord
  dest : BitVec 16
  core : CoreId
  id   : Nat
  part : Nat
  va   : Nat
  deriving DecidableEq, Repr

/-- A frame sent and not acknowledged (17 R355), with the cycle at which it was sent: of the die of the core whose records it carries, or,
where `own` says that the link's own end sent it, of that end's. `lost` marks one whose link has failed since: its records are sent again when their
operations are retried (R370). -/
structure TxFrame where
  ki      : Bool
  fn      : BitVec 48
  records : List TxRec
  retries : Nat
  sentAt  : Nat
  lost    : Bool
  own     : Bool
  deriving DecidableEq, Repr

/-- The other end of a die link, which lies in the package too: the cycles of its die at which it last heard, sent and carried operation
traffic and began to wake (17 R352, R356). -/
structure FarEnd where
  heardAt   : Nat
  sentAt    : Nat
  trafficAt : Nat
  wakeAt    : Nat
  deriving DecidableEq, Repr

/-- A request for a line that waits for a link (17 R357): since which cycle, of the die of the near end or of the far one. -/
structure Snoop where
  line  : Nat
  since : Nat
  far   : Bool
  deriving DecidableEq, Repr

/-- A link end: the fields of its record (17 R351), and what R352 to R357 keep beside it: the next frame number, the receive keys
held at each index, the window's L and count, the frames accepted under the keys held, training attempts, frames in flight, the
cycles at which it last heard, sent and carried operation traffic and began to wake, whether a rollover waits for its
acknowledgement, the highest number of the old key that its next frame reports (R354), how many frames under a new key have been
acknowledged while the old key's window may be open (R353), the requests that wait for the link, and the lines of those counted overdue. -/
structure LinkEnd where
  state    : LinkState
  txki     : Bool
  rxki     : Bool
  win      : Bool
  v        : Bool
  cause    : BitVec 8
  peer     : BitVec 16
  paths    : Vector (BitVec 8) 4
  pv       : BitVec 4
  psw      : BitVec 4
  wakeb    : BitVec 32
  hbb      : BitVec 32
  rtb      : BitVec 32
  retx     : Word
  kwdrop   : Word
  replay   : Word
  badfr    : Word
  wakeovr  : Word
  fn       : Nat
  rxKeys   : Vector Bool 2
  winL     : BitVec 48
  winLeft  : Nat
  seen     : List (Bool × BitVec 48)
  attempts : Nat
  tx       : List TxFrame
  heardAt  : Nat
  sentAt   : Nat
  trafficAt : Nat
  wakeAt   : Nat
  far      : FarEnd
  rolling  : Bool
  report   : Option (BitVec 48)
  closing  : Option Nat
  snoops   : List Snoop
  overdue  : List Nat
  deriving DecidableEq, Repr

/-- A frame that this device has put on a link (17 R361, R363): the path that it takes by its port and wavelength and whether a switch lies on
it, or any valid one; how many frames went before it; its addresses and EtherType; the key index and number of its frame; and its records. -/
structure SentFrame where
  link    : BitVec 11
  path    : Option (BitVec 8 × Bool)
  nth     : Nat
  ddev    : BitVec 16
  dest    : BitVec 16
  sdev    : BitVec 16
  etype   : BitVec 16
  ki      : Bool
  fn      : BitVec 48
  records : List OpRecord
  deriving DecidableEq, Repr

/-- A received record that waits to be performed (17 R365, R366): the link it came over (none within the package), its source and
destination, the record, and the key index and number of its frame, which is acknowledged when all its records are dealt with. -/
structure InRec where
  link  : Option (BitVec 11)
  sdev  : BitVec 16
  dest  : BitVec 16
  rec_  : OpRecord
  frame : Bool × BitVec 48
  deriving DecidableEq, Repr

/-- An arrival held at a barrier that resets (15 R322): a program's BARARV, the entry of a queue, or a record of a peer. -/
inductive Held
  | access (c : CoreId) (id : Nat)
  | queue (ctx : BitVec 10) (n : BitVec 12)
  | record (r : InRec)
  deriving DecidableEq, Repr

/-- A stream (17 R362): a sending core of a device and whether it is its e4 stream, with the sequence numbers performed (R355), each
with the result that its record wanted (log 73), and the next one that an e4 stream awaits (R366). -/
structure Stream where
  sdev  : BitVec 16
  score : BitVec 9
  e4    : Bool
  done  : List (BitVec 32 × List Byte)
  next  : BitVec 32
  deriving DecidableEq, Repr

/-- The next sequence number of a stream that a core sends to a device (17 R362). -/
structure OutStream where
  core : CoreId
  dev  : BitVec 16
  e4   : Bool
  next : BitVec 32
  deriving DecidableEq, Repr

/-- A die reset in progress: forced or orderly, and whether the directories have settled (17 R358 to R360). -/
structure DieReset where
  forced  : Bool
  settled : Bool
  deriving DecidableEq, Repr

/-! ### The state -/

/-- The state of one device. `published` pairs a line that a release write wrote with each line whose last value its writer knew then
(10 R254). `held` lists the arrivals held at a barrier that resets, in order, and `resetting` the addresses of the
barriers that do (15 R322). `agenda`, `cur`, `tick`, `freeCtr`, `outbox`, `crossed`, `slept` and `behind` are the model's own: the movers still to come, the
slot whose instruction is being executed, the steps and free values counted (log 1, 7), the records that left the device, and of the
event that is being performed the die links that it has used, each with whether the requester stands at its far end; `slept` the lines
that it needs of pseudo-channels in self-refresh, and `behind` whether a request of it stands behind one that waits (10 R259). -/
structure State where
  agenda   : List Mover
  cur      : CoreId × Slot
  tick     : Nat
  freeCtr  : Nat
  outbox   : List SentFrame
  crossed  : List (BitVec 11 × Bool)
  slept    : List (PseudoChan × Nat)
  behind   : Bool
  variant  : Variant
  device   : BitVec 16
  cycles   : Vector Nat 4
  icycles  : Nat
  scycles  : Vector Nat 4
  mem      : List Host.Cell
  lmeta    : List LineMeta
  poison   : List Nat
  slices   : List SliceLine
  mshrs    : List Mshr
  ingress  : List (Fin 4 × SliceReq)
  dir      : List DirEntry
  published : List (Nat × Nat)
  pairs    : List SwapPair
  parts    : List PartRec
  ctxs     : List Context
  keyGen   : Nat
  queues   : List QueueRun
  launches : List Launch
  placed   : List Placed
  saved    : List Saved
  rotation : List Rotation
  mbox     : Word
  mrec     : Rec64
  mwait    : List Rec64
  doorbell : Bool
  policy   : List (Byte × BitVec 512)
  /-- The policies before it, the oldest first, each with the cycle of the I-die at which another took its place (11 R272). -/
  oldPolicies : List (Nat × List (Byte × BitVec 512))
  chips    : List (Chip × ChipState)
  /-- The cycle of the I-die since which an exchange that no link shows has run: of an S-die, whose C-die relays it, and of a die that has reset
  (17 R348, R349, R360). -/
  exams    : List (Chip × Nat)
  measures : List (Chip × BitVec 512)
  links    : List (BitVec 11 × LinkEnd)
  iat      : List (Fin 1024 × BitVec 256)
  fetype   : BitVec 16
  inrecs   : List InRec
  streams  : List Stream
  outs     : List OutStream
  nextTag  : BitVec 23
  resets   : Vector (Option DieReset) 4
  logs     : List (Chip × LogEntry)
  clocks   : Vector Nat 4
  ageing   : List (Chip × Ageing)
  planes   : List Plane
  refresh  : List Refresh
  scrce    : Vector Word 4
  scrue    : Vector Word 4
  dlpois   : Word
  badPorts : BitVec 10
  held     : List Held
  resetting : List Nat
  cores    : Vector Core 384
  deriving DecidableEq, Repr

/-! ### Reset -/

/-- A slot at reset: every register zero (02 R35, R45; log 3). -/
def SlotState.reset : SlotState where
  pc := 0
  s := Vector.replicate 64 0
  p := 0
  loops := []
  sb := Vector.replicate 8 0
  ended := true
  blk := none
  arrived := none
  solo := none
  entry := none
  failed := false

/-- A core at reset: free, everything empty (log 3, log 5). -/
def Core.reset : Core where
  stat := .free
  grp := none
  pre := none
  preCause := .yield
  landSince := none
  slots := Vector.replicate 4 SlotState.reset
  q := Vector.replicate 20 []
  vq := Vector.replicate 12 []
  d := Vector.replicate 8 0
  v := []
  vclock := 0
  k := Vector.replicate 16 ⟨0, .cont, 1⟩
  masks := []
  z := Vector.replicate 8 none
  e := Vector.replicate 6 ⟨[], false⟩
  acc := []
  nextId := 0
  ranges := []
  ls := []
  owner := none
  winEnd := 0
  lines := []
  hand := 0
  tclock := 0
  reqEd := []
  replay := []
  hcache := []
  tcache := []
  leaves := []
  nonleaf := []
  walks := []
  pend := []
  faults := []
  resumes := 0
  ovfp := 0
  splls := 0
  splnm := 0
  refil := 0
  blkinv := 0
  blkrsv := 0
  aboff := 0
  scdup := 0
  tstale := 0
  tdisc := 0
  tpfdr := 0
  cpfiss := 0
  cpfhit := 0
  cpflate := 0
  cpfdead := 0
  trmis := 0
  trmzs := 0
  trmsy := 0
  trmdr := 0
  trmrp := 0
  trmst := 0
  seqlast := 0
  tierst := 0
  tierms := 0
  xwalk := 0
  xjoin := 0
  itfail := 0
  lzseq := 0
  adopting := none
  repins := []
  ackAt := (0, 0)
  narrow := []
  fenced := []
  heard := []
  gcmd := none
  bundling := false

/-- A link record at package reset (17 R351); a die link reads V = 1. -/
def LinkEnd.reset (v : Bool) (peer : BitVec 16) : LinkEnd where
  state := .dark
  txki := false
  rxki := false
  win := false
  v := v
  cause := 0
  peer := peer
  paths := Vector.replicate 4 0
  pv := 0
  psw := 0
  wakeb := 0x10000
  hbb := 0x400000
  rtb := 0x4000
  retx := 0
  kwdrop := 0
  replay := 0
  badfr := 0
  wakeovr := 0
  fn := 0
  rxKeys := Vector.replicate 2 false
  winL := 0
  winLeft := 0
  seen := []
  attempts := 0
  tx := []
  heardAt := 0
  sentAt := 0
  trafficAt := 0
  wakeAt := 0
  far := ⟨0, 0, 0, 0⟩
  rolling := false
  report := none
  closing := none
  snoops := []
  overdue := []

/-- The ten die links' records; PEER of a record holds the higher die index of R351, or for links 6 to 9 the C-die's (log 3). -/
def dieLinks : List (BitVec 11 × LinkEnd) :=
  [(0, LinkEnd.reset true 1), (1, LinkEnd.reset true 2), (2, LinkEnd.reset true 3), (3, LinkEnd.reset true 2),
   (4, LinkEnd.reset true 3), (5, LinkEnd.reset true 3), (6, LinkEnd.reset true 0), (7, LinkEnd.reset true 1),
   (8, LinkEnd.reset true 2), (9, LinkEnd.reset true 3)]

/-- The chiplets of a package in the attesting state (17 R348; 01 R15, R17). -/
def resetChips : List (Chip × ChipState) :=
  [(.idie, .attesting), (.cdie 0, .attesting), (.cdie 1, .attesting), (.cdie 2, .attesting), (.cdie 3, .attesting),
   (.sdie 0, .attesting), (.sdie 1, .attesting), (.sdie 2, .attesting), (.sdie 3, .attesting)]

/-- The machine right after package reset: no context, no group, links dark, every counter and list empty (17 R351; log 3). -/
def State.reset : State where
  agenda := []
  cur := (⟨0, 0⟩, .c)
  tick := 0
  freeCtr := 0
  outbox := []
  crossed := []
  slept := []
  behind := false
  variant := .tq384a
  device := 0
  cycles := Vector.replicate 4 0
  icycles := 0
  scycles := Vector.replicate 4 0
  mem := []
  lmeta := []
  poison := []
  slices := []
  mshrs := []
  ingress := []
  dir := []
  published := []
  pairs := []
  parts := []
  ctxs := []
  keyGen := 0
  queues := []
  launches := []
  placed := []
  saved := []
  rotation := []
  mbox := 0
  mrec := 0
  mwait := []
  doorbell := false
  policy := []
  oldPolicies := []
  chips := resetChips
  exams := []
  measures := []
  links := dieLinks
  iat := []
  fetype := 0x9A71
  inrecs := []
  streams := []
  outs := []
  nextTag := 0
  resets := Vector.replicate 4 none
  logs := []
  clocks := Vector.replicate 4 0
  ageing := []
  planes := []
  refresh := []
  scrce := Vector.replicate 4 0
  scrue := Vector.replicate 4 0
  dlpois := 0
  badPorts := 0
  held := []
  resetting := []
  cores := Vector.replicate 384 Core.reset

end Sys2Proof.Machine
end

