-- ==== Sys2Proof/Machine/Ops.lean ====
section
/-! DEFINITION. The named operations over memory, cores and contexts that every family shares: bytes, the canonical memory list,
partitions and channels, coherent reads and writes by physical address, cores and their slots, counters, free values, the error ring, and raising a fault
to a group (14 R311) with the release of a trapping group beside it (14 R313). -/

namespace Sys2Proof.Machine

open Sys2Proof

/-! ### Bytes -/

/-- The number whose bytes, lowest first, are given (00 R10). -/
def leNat : List Byte → Nat
  | [] => 0
  | b :: r => b.toNat + 256 * leNat r

/-- The lowest `n` bytes of a number, lowest first. -/
def natLe : Nat → Nat → List Byte
  | 0, _ => []
  | n + 1, v => BitVec.ofNat 8 v :: natLe n (v / 256)

/-- The numbers `a` to `a + n - 1`. -/
def natRange (a n : Nat) : List Nat := (List.range n).map (a + ·)

/-- Field `w` bits wide at bit `lo` of a number. -/
def bitsOf (v lo w : Nat) : Nat := v / 2 ^ lo % 2 ^ w

/-- A number with the field at bit `lo`, `w` bits wide, replaced. -/
def putBits (v lo w x : Nat) : Nat := v - bitsOf v lo w * 2 ^ lo + x % 2 ^ w * 2 ^ lo

/-- The bytes `off` to `off + n - 1` of a bit vector. -/
def bytesOf {w : Nat} (v : BitVec w) (off n : Nat) : List Byte := natLe n (v.toNat / 256 ^ off)

/-- A bit vector with the bytes from `off` on replaced. -/
def putBytes {w : Nat} (v : BitVec w) (off : Nat) (l : List Byte) : BitVec w :=
  BitVec.ofNat w (putBits v.toNat (8 * off) (8 * l.length) (leNat l))

/-! ### The memory list -/

/-- The byte that memory holds at an address; an unlisted byte is 0 (log 5). -/
def memGet : List Host.Cell → Nat → Byte
  | [], _ => 0
  | (x, b) :: r, a => if a = x then b else memGet r a

/-- Memory with one byte written, in canonical form: addresses rising and no zero byte listed. -/
def memSet : List Host.Cell → Nat → Byte → List Host.Cell
  | [], a, b => if b = 0 then [] else [(a, b)]
  | (x, c) :: r, a, b =>
    if a < x then (if b = 0 then (x, c) :: r else (a, b) :: (x, c) :: r)
    else if a = x then (if b = 0 then r else (a, b) :: r)
    else (x, c) :: memSet r a b

/-- The bytes of memory from an address on. -/
def memGets (m : List Host.Cell) (a n : Nat) : List Byte := (natRange a n).map (memGet m)

/-- Memory with bytes written from an address on. -/
def memSets : List Host.Cell → Nat → List Byte → List Host.Cell
  | m, _, [] => m
  | m, a, b :: r => memSets (memSet m a b) (a + 1) r

/-- Memory with a stretch of bytes written at once. -/
def memPut (m : List Host.Cell) (a : Nat) (l : List Byte) : List Host.Cell :=
  m.filter (fun x => decide (x.1 < a)) ++ ((natRange a l.length).zip l).filter (fun x => x.2 != 0) ++
    m.filter fun x => decide (a + l.length ≤ x.1)

/-- Every listed address is above `a`. -/
def memAbove (a : Nat) : List Host.Cell → Bool
  | [] => true
  | (x, _) :: _ => decide (a < x)

/-- The canonical form of a memory list: addresses strictly rising, no entry equal to what an unlisted address reads as. -/
def Memory.wf : List Host.Cell → Bool
  | [] => true
  | (x, b) :: r => b != 0 && memAbove x r && Memory.wf r

/-! ### Counters and free values -/

/-- A counter after one event: it saturates (00 R8). -/
def count (w : Word) : Word := if w = BitVec.allOnes 64 then w else w + 1

/-- A counter after `n` events. -/
def countN (w : Word) (n : Nat) : Word := BitVec.ofNat 64 (min (w.toNat + n) (2 ^ 64 - 1))

/-- The next free value of width `w` (log 7). -/
def State.freeVal (w : Nat) (s : State) : BitVec w := Config.freeBits w s.freeCtr

/-- The state after a free value or a chance choice has been drawn. -/
def State.drew (s : State) : State := { s with freeCtr := s.freeCtr + 1 }

/-! ### Partitions -/

/-- The records of a partition, by die (11 R264). -/
def State.partRecs (s : State) (part : BitVec 6) : List PartRec :=
  ((List.finRange 4).map fun d => s.parts.filter fun r => r.part = part && r.die = d).flatten

/-- The dies of a partition. -/
def State.partDies (s : State) (part : BitVec 6) : List (Fin 4) := (s.partRecs part).map (·.die)

/-- The set bits of a field below `n`. -/
def setBits {w : Nat} (v : BitVec w) (n : Nat) : List Nat := (List.range n).filter fun i => v.getLsbD i

/-- The channels of a partition, by die, stack and channel (11 R266). -/
def State.channels (s : State) (part : BitVec 6) : List (Fin 4 × Fin 2 × Nat) :=
  (s.partRecs part).flatMap fun r =>
    (setBits r.chan0 32).map (fun n => (r.die, 0, n)) ++ (setBits r.chan1 32).map fun n => (r.die, 1, n)

/-- The partition's cores, by die and core. -/
def State.partCores (s : State) (part : BitVec 6) : List CoreId :=
  (s.partRecs part).flatMap fun r => (List.finRange 96).filterMap fun i =>
    if r.cores.getLsbD i.val then some ⟨r.die, i⟩ else none

/-- NEARB, FARB, FARS and FPORTS of a partition. -/
def State.nearB (s : State) (part : BitVec 6) : Nat := ((s.partRecs part).head?.map (·.nearB.toNat)).getD 0
def State.farB (s : State) (part : BitVec 6) : Nat := ((s.partRecs part).head?.map (·.farB.toNat)).getD 0
def State.farS (s : State) (part : BitVec 6) : Nat := ((s.partRecs part).head?.map (·.farS.toNat)).getD 0
def State.fports (s : State) (part : BitVec 6) : List Nat :=
  ((s.partRecs part).head?.map fun r => setBits r.fports 10).getD []

/-- The end of a partition's near range: 1.5 GiB for each channel (11 R266). -/
def State.nearEnd (s : State) (part : BitVec 6) : Nat := s.nearB part + (s.channels part).length * 0x60000000

def State.isNear (s : State) (part : BitVec 6) (pa : Nat) : Bool := s.nearB part ≤ pa && pa < s.nearEnd part

def State.isFar (s : State) (part : BitVec 6) (pa : Nat) : Bool := s.farB part ≤ pa && pa < s.farB part + s.farS part

/-- The 512-byte granule number of an address in its range (11 R266). -/
def State.granule (s : State) (part : BitVec 6) (pa : Nat) : Nat :=
  (if s.isNear part pa then pa - s.nearB part else pa - s.farB part) / 512

/-- The channel of an address (11 R266). -/
def State.channelOf (s : State) (part : BitVec 6) (pa : Nat) : Fin 4 × Fin 2 × Nat :=
  let c := s.channels part
  c.getD (s.granule part pa % c.length) (0, 0, 0)

/-- The byte address of a near address within its channel (11 R266). -/
def State.channelAddr (s : State) (part : BitVec 6) (pa : Nat) : Nat :=
  s.granule part pa / (s.channels part).length * 512 + pa % 512

/-- The partition that holds an address. -/
def State.partAt (s : State) (pa : Nat) : Option (BitVec 6) :=
  (s.parts.find? fun r => s.isNear r.part pa || s.isFar r.part pa).map (·.part)

/-- The home die of an address (10 R248, 11 R266). -/
def State.homeDie (s : State) (part : BitVec 6) (pa : Nat) : Fin 4 := (s.channelOf part pa).1

/-- The physical index of the slice of a die that serves an address (11 R266). -/
def State.homeSlice (s : State) (part : BitVec 6) (d : Fin 4) (pa : Nat) : Nat :=
  let sl := (((s.partRecs part).find? (·.die = d)).map fun r => setBits r.slices 64).getD []
  let h := bitsOf pa 7 6 ^^^ bitsOf pa 13 6 ^^^ bitsOf pa 19 6
  sl.getD (h % sl.length) 0

/-- The far port that carries a far address (16 R336). -/
def State.farPort (s : State) (part : BitVec 6) (pa : Nat) : Option Nat :=
  let l := s.fports part
  l[((pa - s.farB part) / 4096) % l.length]?

/-! ### Coherent access by physical address -/

/-- The line of a physical address. -/
def lineOf (pa : Nat) : Nat := pa / 128

/-- The slice line that stands for a line of memory: one that is no shared copy (10 R248). -/
def State.ownLine (s : State) (line : Nat) : Option SliceLine :=
  s.slices.find? fun l => l.line = line && !l.shared

/-! ### Pseudo-channels (01 R24) -/

/-- The pseudo-channel that holds a near address (11 R266). -/
def State.pseudoOf (s : State) (part : BitVec 6) (pa : Nat) : PseudoChan :=
  let c := s.channelOf part pa
  ⟨c.1, c.2.1, Fin.ofNat 32 c.2.2, Fin.ofNat 2 (bitsOf pa 8 1)⟩

/-- A pseudo-channel's record: awake with no wait counted, until it has one. -/
def State.refreshOf (s : State) (pc : PseudoChan) : Refresh := (s.refresh.find? (·.pc = pc)).getD ⟨pc, false, [], 0⟩

def State.setRefresh (s : State) (r : Refresh) : State := { s with refresh := r :: s.refresh.filter (·.pc ≠ r.pc) }

/-- A near line whose pseudo-channel is in self-refresh. -/
def State.asleepAt (s : State) (part : BitVec 6) (line : Nat) : Bool :=
  s.isNear part (128 * line) && (s.refreshOf (s.pseudoOf part (128 * line))).asleep

/-- A request for a line waits for a pseudo-channel in self-refresh to leave it; each wait is counted (01 R24). -/
def Refresh.await (r : Refresh) (line : Nat) : Refresh :=
  if r.asleep && !r.waiting.contains line then { r with waiting := line :: r.waiting, waits := count r.waits } else r

/-- A pseudo-channel that a request for a line waits for leaves self-refresh (01 R24). -/
def Refresh.wake (r : Refresh) (line : Nat) : Refresh := { r.await line with asleep := false, waiting := [] }

/-- A request of the event that is being performed needs a line's channel: where its pseudo-channel is in self-refresh, the event waits
for the exit (01 R24). -/
def State.needChannel (s : State) (part : BitVec 6) (line : Nat) : State :=
  if s.asleepAt part line then { s with slept := s.slept ++ [(s.pseudoOf part (128 * line), line)] } else s

/-- Requests of the device for bytes of its own structures: those for lines that no slice holds reach their channels (01 R24). -/
def State.touch (s : State) (pa n : Nat) : State :=
  if s.refresh.all (!·.asleep) then s
  else (natRange (lineOf pa) (lineOf (pa + n - 1) + 1 - lineOf pa)).foldl (fun s line =>
    match s.partAt (128 * line) with
    | some part => if (s.ownLine line).isSome then s else s.needChannel part line
    | none => s) s

/-- Requests that wait for their pseudo-channels to leave self-refresh, each counted once (01 R24). -/
def State.awaitRefresh (s : State) (l : List (PseudoChan × Nat)) : State :=
  l.foldl (fun s x => s.setRefresh ((s.refreshOf x.1).await x.2)) s

/-! ### Bytes of memory as the device reads and writes them -/

/-- The byte at a physical address: a valid sector of the line's slice, else memory (10 R248). -/
def State.cohByte (s : State) (pa : Nat) : Byte :=
  match s.ownLine (lineOf pa) with
  | some l => if l.valid.getLsbD (pa % 128 / 16) then BitVec.ofNat 8 (l.data.toNat / 256 ^ (pa % 128)) else memGet s.mem pa
  | none => memGet s.mem pa

/-- Bytes from a physical address on, as the device reads its own structures. -/
def State.cohRead (s : State) (pa n : Nat) : List Byte := (natRange pa n).map s.cohByte

/-- A slice line with one byte written and its sector dirty. -/
def SliceLine.setByte (l : SliceLine) (off : Nat) (b : Byte) : SliceLine :=
  { l with data := putBytes l.data off [b], dirty := l.dirty ||| BitVec.ofNat 8 (2 ^ (off / 16)) }

/-- One byte written at a physical address: shared copies of the line are dropped; a valid sector of the line's slice takes it,
else memory. -/
def State.cohSet (s : State) (pa : Nat) (b : Byte) : State :=
  let keep := s.slices.filter fun l => !(l.line = lineOf pa && l.shared)
  match s.ownLine (lineOf pa) with
  | some l =>
    if l.valid.getLsbD (pa % 128 / 16) then
      { s with slices := keep.map fun x => if x.line = lineOf pa then x.setByte (pa % 128) b else x }
    else { s with slices := keep, mem := memSet s.mem pa b }
  | none => { s with slices := keep, mem := memSet s.mem pa b }

/-- Bytes written one by one from a physical address on. -/
def State.cohBytes : State → Nat → List Byte → State
  | s, _, [] => s
  | s, pa, b :: r => (s.cohSet pa b).cohBytes (pa + 1) r

/-- The sequence counter of each line of a range that a slice holds advanced by one write (10 R260). -/
def State.bumpLines (s : State) (pa n : Nat) : State :=
  { s with slices := s.slices.map fun l =>
      if lineOf pa ≤ l.line && l.line ≤ lineOf (pa + n - 1) && !l.shared then { l with seq := l.seq + 1 } else l }

/-- Bytes written from a physical address on, as the device writes its own structures. -/
def State.cohWrite (s : State) (pa : Nat) (b : List Byte) : State := ((s.touch pa b.length).cohBytes pa b).bumpLines pa b.length

/-- A little-endian number of `n` bytes at a physical address. -/
def State.rdNat (s : State) (pa n : Nat) : Nat := leNat (s.cohRead pa n)

/-- A little-endian number of `n` bytes written at a physical address. -/
def State.wrNat (s : State) (pa n v : Nat) : State := s.cohWrite pa (natLe n v)

/-! ### Cores and slots -/

/-- The index of a core among the 384 (05 R123). -/
def coreIdx (c : CoreId) : Fin 384 := ⟨96 * c.die.val + c.core.val, by omega⟩

/-- The core an index names. -/
def coreAt (i : Fin 384) : CoreId := ⟨⟨i.val / 96, by omega⟩, ⟨i.val % 96, by omega⟩⟩

/-- Every core of the package. -/
def allCores : List CoreId := (List.finRange 384).map coreAt

def State.core (s : State) (c : CoreId) : Core := s.cores[coreIdx c]

def State.setCore (s : State) (c : CoreId) (k : Core) : State := { s with cores := s.cores.set (coreIdx c) k }

def State.updCore (s : State) (c : CoreId) (f : Core → Core) : State := s.setCore c (f (s.core c))

/-- The number of a slot among the four. -/
def Slot.fin : Slot → Fin 4
  | .c => 0
  | .a => 1
  | .v => 2
  | .m => 3

def Core.slot (k : Core) (sl : Slot) : SlotState := k.slots[Slot.fin sl]

def Core.setSlot (k : Core) (sl : Slot) (t : SlotState) : Core := { k with slots := k.slots.set (Slot.fin sl) t }

def Core.updSlot (k : Core) (sl : Slot) (f : SlotState → SlotState) : Core := k.setSlot sl (f (k.slot sl))

/-- The four slots. -/
def allSlots : List Slot := [.c, .a, .v, .m]

/-- The cycle counter of a die (01 R21). -/
def State.cycle (s : State) (d : Fin 4) : Nat := s.cycles[d]

/-- The engines of a core stop for a pre-emption: its accesses are performed (14 R315 step 3). Those of a restored group begin when its
pinned tags stand (R318). -/
def Core.enginesStop (k : Core) : Bool :=
  !k.repins.isEmpty ||
    match k.pre with
    | none | some .stopping => false
    | _ => true

/-- A core runs a group (14 R308): the group is running, waiting or trapping. -/
def Core.runsGroup (k : Core) : Bool := k.grp.isSome && k.stat != .free

/-- The context of the group on a core. -/
def Core.ctxId (k : Core) : Option (BitVec 10) := k.grp.map (·.ctx)

/-! ### Contexts -/

/-- An arrival is held at a barrier (15 R322). -/
def State.isHeld (s : State) (h : Held) : Bool := s.held.contains h

def State.ctx? (s : State) (c : BitVec 10) : Option Context := s.ctxs.find? (·.id = c)

/-- A context's record replaced, and the RO fields of its descriptor in memory with it: STATE, KDROP, ERRDROP, KEYS (11 R268). -/
def State.setCtx (s : State) (c : Context) : State :=
  { s with ctxs := s.ctxs.map fun x => if x.id = c.id then c else x }

/-- The code of a context state (11 R268). -/
def CtxState.code : CtxState → Nat
  | .creating => 1
  | .keyed => 2
  | .active => 3
  | .suspended => 4
  | .draining => 5
  | .destroyed => 6

/-- The KEYS field: bit n set where slot n holds a key (11 R268). -/
def Context.keyBits (c : Context) : Nat :=
  ((List.finRange 16).map fun i => if c.keys[i].isSome then 2 ^ i.val else 0).foldl (· + ·) 0

/-- The RO fields of a context's descriptor written to memory (11 R268). -/
def State.publishCtx (s : State) (c : Context) : State :=
  let d := c.desc.toNat
  ((((s.wrNat (d + 96) 8 c.state.code).wrNat (d + 104) 8 c.kdrop.toNat).wrNat (d + 112) 8 c.errDrop.toNat).wrNat (d + 120) 8
    c.keyBits)

/-- A context updated, with its descriptor's RO fields. -/
def State.updCtx (s : State) (id : BitVec 10) (f : Context → Context) : State :=
  match s.ctx? id with
  | none => s
  | some c => (s.setCtx (f c)).publishCtx (f c)

/-- A key slot of a context is empty because KEYDESTROY has erased its key (11 R277). -/
def State.keyGone (s : State) (ctx : BitVec 10) (slot : Fin 16) : Bool := (s.ctx? ctx).any fun x => x.destroyed.contains slot

/-- The key tag of a key slot of a context, none where it holds no key (11 R276). -/
def State.keyTag (s : State) (ctx : BitVec 10) (slot : Fin 16) : Option KeyTag :=
  match s.ctx? ctx with
  | none => none
  | some c => c.keys[slot].map fun g => { ctx := ctx, slot := slot, gen := g }

/-! ### The error ring (11 R279, R280) -/

/-- An error record as 512 bits (11 R280). -/
def errorBits (f : FaultRec) (core die queue seq : Nat) : Nat :=
  packFields [(16, f.code.toNat), (4, f.src.toNat), (7, core), (2, die), (3, 0), (16, queue), (16, 0), (32, f.bundle.toNat),
    (12, f.idx.toNat), (8, f.kind.toNat), (9, f.field.toNat), (1, if f.tfld then 1 else 0), (2, 0), (128, f.loop.toNat),
    (64, f.addr.toNat), (64, f.aux.toNat), (64, seq), (12, f.tens.toNat), (52, 0)]

/-- An error record appended to a context's ring, or counted lost where the ring is full (11 R279). TAIL is the device's own: what
software may have stored at its word is ignored (01 R12). -/
def State.appendError (s : State) (ctx : BitVec 10) (f : FaultRec) (core die queue : Nat) : State :=
  match s.ctx? ctx with
  | none => s
  | some c =>
    let b := c.errB.toNat
    let tail := c.errTail.toNat
    let head := s.rdNat (b + 8) 8
    if tail < head + c.errN.toNat then
      ((s.wrNat (b + 64 + 64 * (tail % c.errN.toNat)) 64 (errorBits f core die queue tail)).wrNat b 8 ((tail + 1) % 2 ^ 64)).setCtx
        { c with errTail := c.errTail + 1 }
    else (s.wrNat (c.desc.toNat + 112) 8 (count c.errDrop).toNat).setCtx { c with errDrop := count c.errDrop }

/-! ### Taking a fault, and release from it (14 R311, R313) -/

/-- The error record of a fault raised to the group on a core. -/
def State.groupError (s : State) (c : CoreId) (f : FaultRec) : State :=
  match (s.core c).grp with
  | none => s
  | some g => s.appendError g.ctx f c.core.val c.die.val g.queue.toNat

/-- R311: a fault is raised to the group on a core. Its error record is appended, it is kept with the operation that met it, and
the group is trapping: no slot issues any further instruction. Nothing an instruction has done is undone. -/
def raiseFault (c : CoreId) (f : FaultRec) (op : FaultOp) (s : State) : State :=
  (s.groupError c f).updCore c fun k =>
    { k with
      faults := k.faults ++ [⟨f, op⟩]
      stat := match k.stat with
        | .trapping q => .trapping q
        | _ => .trapping false }

/-- R313: the group runs again from its slots' PCs: no fault is recorded, no engine queue is halted, and a rendezvous counts
from zero (R314). -/
def resumeCore (k : Core) : Core :=
  { k with
    stat := .running
    faults := []
    e := k.e.map fun q => { q with halted := false }
    slots := k.slots.map fun t => { t with blk := none, arrived := none } }

/-- The source code of a slot in an error record (11 R280). -/
def Slot.src (sl : Slot) : BitVec 4 := BitVec.ofNat 4 (Slot.fin sl).val

/-! ### Lanes -/

/-- What a memory access of an instruction leaves on its core though the access faults: the counts of its walks, of its far accesses and of its
integrity failures (16 R332, R336, R337, R347). -/
structure Trail where
  tierst  : Word
  tierms  : Word
  xwalk   : Word
  xjoin   : Word
  itfail  : Word
  deriving DecidableEq, Repr

/-- The trail as it stands on a core. -/
def Core.trail (k : Core) : Trail := ⟨k.tierst, k.tierms, k.xwalk, k.xjoin, k.itfail⟩

/-- A core with a trail left on it. -/
def Trail.onto (t : Trail) (k : Core) : Core :=
  { k with tierst := t.tierst, tierms := t.tierms, xwalk := t.xwalk, xjoin := t.xjoin, itfail := t.itfail }

/-- Why a lane does not complete: it stays blocked at its PC, or it raises a synchronous fault, which may be that of a memory access of
its own. -/
inductive Stop
  | stall (k : BlockKind)
  | fault (f : FaultRec)
  | accessFault (f : FaultRec) (t : Trail)
  deriving DecidableEq, Repr

/-- What a lane's instruction does: on a stop none of its effects is kept (00 R6, 02 R27). -/
abbrev LaneM := StateT State (Except Stop)

def stall {α : Type} : LaneM α := fun _ => .error (.stall .plain)

/-- Blocked in RWAIT, TEDACQ or BARWAIT (14 R308). -/
def stallWait {α : Type} : LaneM α := fun _ => .error (.stall .wait)

/-- A synchronous fault; SRC and BUNDLE are filled in where the lane issues. -/
def faultWith {α : Type} (f : FaultRec) : LaneM α := fun _ => .error (.fault f)

def guardStall (b : Bool) : LaneM Unit := if b then pure () else stall

def guardFault (b : Bool) (f : FaultRec) : LaneM Unit := if b then pure () else faultWith f

/-- The read that the issuing lane awaits has faulted and was skipped: it is performed with a destination of zero (14 R314). -/
def takeFailed : LaneM Bool := fun s =>
  if ((s.core s.cur.1).slot s.cur.2).failed then
    .ok (true, s.updCore s.cur.1 (·.updSlot s.cur.2 fun t => { t with failed := false }))
  else .ok (false, s)

/-- The illegal-instruction fault of the issuing lane (04 R96, R97). -/
def illegal {α : Type} : LaneM α := fun s =>
  .error (.fault { code := 0x0101, aux := BitVec.ofNat 64 (2 ^ (Slot.fin s.cur.2).val) })

def guardLegal (b : Bool) : LaneM Unit := if b then pure () else illegal

def getCore : LaneM Core := fun s => .ok (s.core s.cur.1, s)

def modCore (f : Core → Core) : LaneM Unit := fun s => .ok ((), s.updCore s.cur.1 f)

def getSlot : LaneM SlotState := fun s => .ok ((s.core s.cur.1).slot s.cur.2, s)

def modSlot (f : SlotState → SlotState) : LaneM Unit := fun s => .ok ((), s.updCore s.cur.1 (·.updSlot s.cur.2 f))

def curSlot : LaneM Slot := fun s => .ok (s.cur.2, s)

def curCore : LaneM CoreId := fun s => .ok (s.cur.1, s)

/-- The index of the bundle that issues: the PC has already moved past it. -/
def curBundle : LaneM (BitVec 32) := do return (← getSlot).pc - 1

/-- The group on the issuing core. -/
def getGroup : LaneM GroupInfo := fun s =>
  match (s.core s.cur.1).grp with
  | some g => .ok (g, s)
  | none => .error (.stall .plain)

def setPc (n : BitVec 32) : LaneM Unit := modSlot fun t => { t with pc := n }

/-! ### Issue (02 R27, R34, R45; 04 R75, R78) -/

/-- Whether predicate n of a slot reads true; p15 always does (02 R35). -/
def SlotState.pred (t : SlotState) (n : Fin 16) : Bool := n = 15 || t.p.getLsbD n.val

/-- The guard of a lane word (04 R75). -/
def guardOf (h : Head) (t : SlotState) : Bool := t.pred h.gs != h.gsInv

/-- Every scoreboard counter that SBW names is zero (02 R45). -/
def sbwClear (h : Head) (t : SlotState) : Bool :=
  (List.finRange 8).all fun i => !h.sbw.getLsbD i.val || t.sb[i] == 0

/-- The counter that SBS names can be raised (02 R45). -/
def sbsRoom (h : Head) (t : SlotState) : Bool :=
  match h.sbs with
  | none => true
  | some i => t.sb[i].toNat < 63

/-- The token that QX pops is there (02 R34). -/
def tokenReady (h : Head) (k : Core) : Bool :=
  match h.qx with
  | none => true
  | some i => 0 < k.d[i]

/-- A slot may issue: its group runs, it has not ended, no pre-emption stops it, and the fills of a restored group's pinned tags have
entered e0 (02 R27, 08 R221, 14 R308, R315). -/
def Core.mayIssue (k : Core) (sl : Slot) : Bool :=
  k.stat == .running && k.pre.isNone && k.repins.isEmpty && !(k.slot sl).ended

/-- The scheduling fields let the lane issue; a suppressed lane sets no scoreboard slot (02 R45, 04 R75). -/
def schedReady (h : Head) (suppressed : Bool) (k : Core) (sl : Slot) : Bool :=
  sbwClear h (k.slot sl) && (suppressed || sbsRoom h (k.slot sl)) && tokenReady h k

/-- What issuing does before the instruction acts: the token is popped and the PC moves to the next bundle. -/
def startIssue (h : Head) (sl : Slot) (k : Core) : Core :=
  let k := match h.qx with
    | none => k
    | some i => { k with d := k.d.set i (k.d[i] - 1) }
  k.updSlot sl fun t => { t with pc := t.pc + 1, blk := none, arrived := none, solo := none, entry := none }

/-- The slot stays blocked at its bundle. -/
def blockSlot (b : BlockKind) (s : State) : State :=
  s.updCore s.cur.1 (·.updSlot s.cur.2 fun t => { t with blk := some b })

/-- The faults that are asynchronous only: those that a read meets after its translation (14 R312). -/
def asyncCode (code : BitVec 16) : Bool := 0x0306 ≤ code.toNat && code.toNat ≤ 0x030C

/-- A fault of the issuing lane at its bundle (00 R6, 14 R311): a synchronous one, or that of a read which the slot awaits there. -/
def laneFault (f : FaultRec) (s : State) : State :=
  let n := ((s.core s.cur.1).slot s.cur.2).pc
  raiseFault s.cur.1 { f with src := Slot.src s.cur.2, bundle := n } (if asyncCode f.code then .read s.cur.2 n else .lane s.cur.2 n) s

/-- The fault of a read that the issuing lane awaits at its bundle, whichever its code (01 R19, 14 R311). -/
def readFault (f : FaultRec) (s : State) : State :=
  let n := ((s.core s.cur.1).slot s.cur.2).pc
  raiseFault s.cur.1 { f with src := Slot.src s.cur.2, bundle := n } (.read s.cur.2 n) s

/-- The state in which a lane did not complete: its slot is blocked, or the fault is raised. -/
def stopLane (e : Stop) (s : State) : State :=
  match e with
  | .stall b => blockSlot b s
  | .fault f => laneFault f s
  | .accessFault f t => laneFault f (s.updCore s.cur.1 t.onto)

/-- The end of a lane's body: its state, or the state before it with the slot blocked or the fault raised. -/
def settle (r : Except Stop (Unit × State)) (s : State) : State :=
  match r with
  | .ok (_, t) => t
  | .error e => stopLane e s

/-- An instruction of a lane that reaches issue. `suppressed` is the guard's verdict (04 R75); where the instruction cannot issue
the slot stays blocked. -/
def issueWith (h : Head) (suppressed : Bool) (body : LaneM Unit) (s : State) : State :=
  let k := s.core s.cur.1
  if !k.mayIssue s.cur.2 then s
  else if !schedReady h suppressed k s.cur.2 then blockSlot .plain s
  else
    let s1 := s.updCore s.cur.1 (startIssue h s.cur.2)
    if suppressed then s1 else settle (body s1) s

/-- An instruction of a lane under its guard. -/
def issueLane (h : Head) (body : LaneM Unit) (s : State) : State :=
  issueWith h (!guardOf h ((s.core s.cur.1).slot s.cur.2)) body s

/-- An instruction of a lane, under its guard, that acts on the whole state: `act` takes the state before it issues and the state in
which it has issued. -/
def issueAct (h : Head) (act : State → State → State) (s : State) : State :=
  let k := s.core s.cur.1
  if !guardOf h (k.slot s.cur.2) then issueWith h true (pure ()) s
  else if !k.mayIssue s.cur.2 then s
  else if !schedReady h false k s.cur.2 then blockSlot .plain s
  else act s (s.updCore s.cur.1 (startIssue h s.cur.2))

/-- What a meaning answers. -/
abbrev Out := Host.Outcome State Fault Refusal

/-- The meaning of a lane instruction from its body. -/
def lane (h : Head) (body : LaneM Unit) (s : State) : Out := .next (issueLane h body s)

end Sys2Proof.Machine
end

