-- ==== Sys2Proof/Machine/Memory.lean ====
section
/-! DEFINITION. Lines of device memory: slice lines and their write-back
(10 R248, R259, R260), keys, stamps and poison (16 R337 to R339), pairs of the swap unit (16 R341), and the read, write and atomic
of one line at its ordering point. -/

namespace Sys2Proof.Machine

open Sys2Proof

/-! ### Swap pairs -/

/-- The address of a line of a page in a pair, at the frame that now holds it (16 R341). -/
def SwapPair.redirect (p : SwapPair) (pa : Nat) : Nat :=
  if p.farB ≤ pa && pa < p.farB + p.size then
    if (pa - p.farB) / 128 < p.done then pa - p.farB + p.nearB else pa
  else if p.nearB ≤ pa && pa < p.nearB + p.size then
    if (pa - p.nearB) / 128 < p.done then pa - p.nearB + p.farB else pa
  else pa

def SwapPair.covers (p : SwapPair) (pa : Nat) : Bool :=
  (p.farB ≤ pa && pa < p.farB + p.size) || (p.nearB ≤ pa && pa < p.nearB + p.size)

/-- The pair one of whose pages holds an address. -/
def State.pairAt (s : State) (part : BitVec 6) (pa : Nat) : Option SwapPair :=
  s.pairs.find? fun p => p.part = part && p.covers pa

/-- Where an access to an address is performed (16 R341). -/
def State.redirect (s : State) (part : BitVec 6) (pa : Nat) : Nat :=
  match s.pairAt part pa with
  | some p => p.redirect pa
  | none => pa

/-! ### Lines -/

def State.metaOf (s : State) (line : Nat) : Option LineMeta := s.lmeta.find? (·.line = line)

/-- The sectors of a line that memory holds poisoned (16 R339). -/
def State.poisonOf (s : State) (line : Nat) : BitVec 8 :=
  BitVec.ofNat 8 ((natRange 0 8).map fun i => if s.poison.contains (8 * line + i) then 2 ^ i else 0).sum

/-- The die at whose slice a line is performed: its exclusive owner, else its home die (10 R248, 06 R139). -/
def State.ordDie (s : State) (part : BitVec 6) (line : Nat) : Fin 4 :=
  match (s.dir.find? (·.line = line)).bind (·.owner) with
  | some d => d
  | none => s.homeDie part (128 * line)

/-- A slice line written back: dirty sectors reach memory with their poison, and the line's key and stamp with them
(10 R259; 16 R337, R339). -/
def State.writeBack (s : State) (l : SliceLine) : State :=
  if l.dirty = 0 then s
  else
    let s := match s.partAt (128 * l.line) with
      | some part => s.needChannel part l.line
      | none => s
    let secs := (natRange 0 8).filter fun i => l.dirty.getLsbD i
    let mem := secs.foldl (fun m i => memSets m (128 * l.line + 16 * i) (bytesOf l.data (16 * i) 16)) s.mem
    let clean := s.poison.filter fun p => !(p / 8 = l.line && l.dirty.getLsbD (p % 8))
    let lmeta := match l.key with
      | none => s.lmeta
      | some k => ⟨l.line, k, l.stamp⟩ :: s.lmeta.filter (·.line ≠ l.line)
    { s with
      mem := mem
      poison := clean ++ (secs.filter fun i => l.poison.getLsbD i).map (8 * l.line + ·)
      lmeta := lmeta }

/-- A line of a die's slices written back if dirty and dropped. -/
def State.evictLine (s : State) (die : Fin 4) (line : Nat) : State :=
  let mine := s.slices.filter fun l => l.die = die && l.line = line
  let s := mine.foldl (fun s l => if l.shared then s else s.writeBack l) s
  { s with slices := s.slices.filter fun l => !(l.die = die && l.line = line) }

/-- Every slice copy of a line written back if dirty and dropped, and its ownership returned. -/
def State.recallLine (s : State) (line : Nat) : State :=
  let s := (List.finRange 4).foldl (fun s d => s.evictLine d line) s
  { s with dir := s.dir.map fun e => if e.line = line then { e with owner := none } else e }

/-! ### Bytes in the channels (11 R266) -/

/-- The place of a near address in the channels, as one number: 2^31 places for each channel, in which its byte address lies (11 R266). -/
def State.siteOf (s : State) (pa : Nat) : Option Nat :=
  (s.parts.find? fun r => s.isNear r.part pa).map fun r =>
    let c := s.channelOf r.part pa
    ((c.1.val * 2 + c.2.1.val) * 32 + c.2.2) * 2 ^ 31 + s.channelAddr r.part pa

/-- The near address under which a partition reaches a place. -/
def State.siteAddr (s : State) (site : Nat) : Option Nat :=
  let ch := (Fin.ofNat 4 (site / 2 ^ 37), Fin.ofNat 2 (site / 2 ^ 36), site / 2 ^ 31 % 32)
  (s.parts.find? fun r => (s.channels r.part).contains ch).map fun r =>
    let c := s.channels r.part
    s.nearB r.part + (site % 2 ^ 31 / 512 * c.length + c.idxOf ch) * 512 + site % 512

/-- Where `mem` keeps the byte of a place that no partition reaches: above every physical address (log 108). -/
def parkedAt : Nat := 2 ^ 64

/-- The address at which other partition records reach the byte that an address holds; an address that was in no near range keeps it. -/
def State.movedTo (s t : State) (a : Nat) : Nat :=
  match if parkedAt ≤ a then some (a - parkedAt) else s.siteOf a with
  | none => a
  | some x => (t.siteAddr x).getD (parkedAt + x)

/-- Partition records changed to those of another state: the channels keep their bytes, keys, stamps and poison, which the new records
reach at other addresses where C, Nch or NEARB changed. Lines that move are written back first (11 R266). -/
def State.remapTo (s t : State) : State :=
  if (s.parts ++ t.parts).all fun r => s.nearB r.part = t.nearB r.part && s.channels r.part = t.channels r.part then { s with parts := t.parts }
  else
    let new := s.movedTo t
    let s := ((s.slices.map (·.line)).filter fun line => new (128 * line) ≠ 128 * line).foldl State.recallLine s
    { s with
      parts := t.parts
      mem := (s.mem.filter fun c => new c.1 ≠ c.1).foldl (fun m c => memSet m (new c.1) c.2) (s.mem.filter fun c => new c.1 = c.1)
      lmeta := s.lmeta.map fun m => { m with line := new (128 * m.line) / 128 }
      poison := s.poison.map fun p => new (16 * p) / 16 }

/-- The lines that a slice holds. -/
def State.sliceLines (s : State) (die : Fin 4) (slice : Nat) : List SliceLine :=
  s.slices.filter fun l => l.die = die && l.slice = slice && !l.swap

/-- Room for one more line in a slice of 1 MiB (01 R15): where it holds 8192 lines one is evicted, a line marked as next victim before
any other (06 R134). Which one is free, as the manual gives no sets (log 76). -/
def State.makeRoom (s : State) (die : Fin 4) (slice : Nat) : State :=
  let l := s.sliceLines die slice
  if l.length < 8192 then s
  else
    let marked := l.filter (·.stream)
    let from_ := if marked.isEmpty then l else marked
    match from_[Config.draw s.freeCtr % from_.length]? with
    | none => s
    | some v => s.drew.evictLine die v.line

/-- A line as a slice allocates it from memory with the sectors of a mask; its sequence counter starts at an arbitrary value
(10 R259, R260). A line of a pair in progress is the swap unit's (16 R341). -/
def State.loadLine (s : State) (part : BitVec 6) (die : Fin 4) (line : Nat) (stream : Bool) (need : BitVec 8) : SliceLine where
  die := die
  slice := s.homeSlice part die (128 * line)
  line := line
  data := BitVec.ofNat 1024 (leNat (memGets s.mem (128 * line) 128))
  valid := need
  dirty := 0
  poison := s.poisonOf line &&& need
  key := (s.metaOf line).map (·.key)
  stamp := ((s.metaOf line).map (·.stamp)).getD 0
  tagOk := (s.metaOf line).isSome
  seq := s.freeVal 32
  shared := false
  stream := stream
  swap := (s.pairAt part (128 * line)).isSome

/-- A line with the sectors of a mask fetched from memory beside those it holds. -/
def State.addSectors (s : State) (l : SliceLine) (need : BitVec 8) : SliceLine :=
  let new := need &&& ~~~ l.valid
  let secs := (natRange 0 8).filter fun i => new.getLsbD i
  { l with
    data := secs.foldl (fun v i => putBytes v (16 * i) (memGets s.mem (128 * l.line + 16 * i) 16)) l.data
    valid := l.valid ||| need
    poison := l.poison ||| (s.poisonOf l.line &&& new) }

/-- A line present at its ordering point with the sectors of a mask, fetched from memory where the slice does not hold them
(10 R259). -/
def State.ensureSectors (s : State) (part : BitVec 6) (line : Nat) (stream : Bool) (need : BitVec 8) : State :=
  match s.ownLine line with
  | some l =>
    if need &&& ~~~ l.valid = 0 then s
    else
      let s := s.needChannel part line
      let new := s.addSectors l need
      { s with slices := s.slices.map fun x => if x.line = line && !x.shared then new else x }
  | none =>
    let s := if need = 0 then s else s.needChannel part line
    let die := s.ordDie part line
    let s := if (s.pairAt part (128 * line)).isSome then s else s.makeRoom die (s.homeSlice part die (128 * line))
    { s with slices := s.loadLine part die line stream need :: s.slices }.drew

/-- The whole line present at its ordering point. -/
def State.ensureLine (s : State) (part : BitVec 6) (line : Nat) (stream : Bool) : State := s.ensureSectors part line stream 0xFF

/-- The line at its ordering point replaced. -/
def State.putLine (s : State) (l : SliceLine) : State :=
  { s with slices := s.slices.map fun x => if x.line = l.line && !x.shared then l else x }

/-- The sectors that bytes `off` to `off + n - 1` of a line touch. -/
def touched (off n : Nat) : List Nat := (natRange 0 8).filter fun i => off < 16 * (i + 1) && 16 * i < off + n

def sectorMask (l : List Nat) : BitVec 8 := BitVec.ofNat 8 (l.map (2 ^ ·)).sum

/-- A memory fault (14 R312): its code, and the detail, walk level and KEY of its AUX (16 R346). -/
structure MemFault where
  code   : BitVec 16
  detail : Nat
  level  : Nat
  key    : Nat
  deriving DecidableEq, Repr

/-- A fault met at a leaf, whose level and KEY its record takes from the leaf. -/
def memFault (code : BitVec 16) (detail : Nat) : MemFault := ⟨code, detail, 0, 0⟩

def poisonFault (detail : Nat) : MemFault := memFault 0x0309 detail
def versionFault : MemFault := memFault 0x0308 1

/-- Bytes stand under a key (16 R337). -/
def keyIs (x : Option KeyTag) (k : KeyTag) : Bool := x.any fun y => y.gen = k.gen

/-- A line's bytes read under a key: its tag verifies only under the key it was written with (16 R337), and a poisoned sector is
consumed (R339). -/
def SliceLine.read (l : SliceLine) (k : KeyTag) (off n : Nat) : Except MemFault (List Byte) :=
  if !keyIs l.key k then .error (poisonFault 2)
  else if (touched off n).any fun i => l.poison.getLsbD i then .error (poisonFault 1)
  else .ok (bytesOf l.data off n)

/-- How a write is stamped: its key, the writing handle's version, and whether its effective mode is rewrite (16 R338). -/
structure Stamping where
  key     : KeyTag
  wv      : BitVec 32
  rewrite : Bool
  deriving DecidableEq, Repr

/-- The sectors that a list of offsets touches without covering them. -/
def partialSectors (bs : List (Nat × Byte)) : List Nat :=
  (natRange 0 8).filter fun i =>
    let n := ((natRange (16 * i) 16).filter fun o => bs.any (·.1 = o)).length
    0 < n && n < 16

def touchedSectors (bs : List (Nat × Byte)) : List Nat := (natRange 0 8).filter fun i => bs.any fun x => x.1 / 16 = i

/-- A bit vector with single bytes replaced. -/
def patchBytes {w : Nat} (v : BitVec w) (bs : List (Nat × Byte)) : BitVec w := bs.foldl (fun v x => putBytes v x.1 [x.2]) v

/-- A line after one write of bytes at offsets (16 R338, R339; 10 R260). A partial write to a poisoned sector consumes the poison
and faults. In rewrite mode the stamp moves once for each write-back: a line that is dirty has moved it (log 81).
Where the old tag fails under the writing key, the line is written under that key, and the bytes that this write does
not cover, which were never written under it, take the bytes of `fresh` (log 16). -/
def SliceLine.write (l : SliceLine) (w : Stamping) (fresh : BitVec 1024) (bs : List (Nat × Byte)) : Except MemFault SliceLine :=
  let ok := keyIs l.key w.key
  let t := sectorMask (touchedSectors bs)
  if (partialSectors bs).any fun i => l.poison.getLsbD i then .error (poisonFault 1)
  else if !w.rewrite && ok && l.stamp = w.wv then .error versionFault
  else .ok { l with
    data := patchBytes (if ok then l.data else fresh) bs
    valid := if ok then l.valid ||| t else 0xFF
    dirty := if ok then l.dirty ||| t else 0xFF
    poison := l.poison &&& ~~~ t
    key := some w.key
    stamp := if w.rewrite && ok then (if l.dirty = 0 then l.stamp + 1 else l.stamp) else w.wv
    tagOk := true
    seq := l.seq + 1 }

/-! ### Queue descriptors (12 R281) -/

def State.queue? (s : State) (ctx : BitVec 10) (n : BitVec 12) : Option QueueRun := s.queues.find? fun q => q.ctx = ctx && q.n = n

/-- The physical address of a queue's descriptor. -/
def State.qdesc (s : State) (ctx : BitVec 10) (n : BitVec 12) : Nat := ((s.ctx? ctx).map (·.qroot.toNat)).getD 0 + 64 * n.toNat

/-- The code of a queue's state. -/
def QState.code : QState → Nat
  | .idle => 0
  | .armed => 1
  | .running => 2
  | .blocked => 3
  | .suspended => 4
  | .halted => 5

/-- The RO fields of a queue's descriptor written to memory, its reserved ones zero. -/
def State.publishQueue (s : State) (q : QueueRun) : State :=
  let d := s.qdesc q.ctx q.n
  let w := bitsOf (s.rdNat (d + 8) 1) 0 6 + 64 * q.state.code
  (((s.wrNat (d + 8) 8 w).wrNat (d + 32) 8 q.head.toNat).wrNat (d + 40) 8 q.done.toNat).wrNat (d + 48) 16 q.lastErr.toNat

def State.setQueue (s : State) (q : QueueRun) : State :=
  State.publishQueue { s with queues := s.queues.map fun x => if x.ctx = q.ctx && x.n = q.n then q else x } q

def State.tail (s : State) (q : QueueRun) : Nat := s.rdNat (s.qdesc q.ctx q.n + 16) 8
def State.resv (s : State) (q : QueueRun) : Nat := s.rdNat (s.qdesc q.ctx q.n + 24) 8

/-- The idle queues of active contexts whose descriptors lie in a line that was written arm where TAIL is above HEAD now (12 R283). -/
def State.armLine (s : State) (line : Nat) : State :=
  s.queues.foldl (fun s q =>
    if q.state = .idle && q.en && lineOf (s.qdesc q.ctx q.n) = line && (s.ctx? q.ctx).any (·.state = .active) && q.head.toNat < s.tail q then
      s.setQueue { q with state := .armed }
    else s) s

/-! ### The fields of structures that the device keeps in memory (00 R5, R12) -/

/-- The bits of fields given as first bit and width. -/
def fieldBits (l : List (Nat × Nat)) : Nat := (l.map fun f => (2 ^ f.2 - 1) * 2 ^ f.1).sum

/-- A structure in memory: where it begins, and its RW and its RO bits; its other bits are reserved. -/
structure FieldMap where
  base : Nat
  rw   : Nat
  ro   : Nat
  deriving DecidableEq, Repr

/-- The RW and the RO fields of a context descriptor (11 R268). -/
def descRw : Nat := fieldBits [(10, 5), (16, 14), (64, 272), (384, 96), (512, 80), (640, 96)]
def descRo : Nat := fieldBits [(0, 10), (768, 3), (832, 144)]

/-- m(w) of R120: the bits of a word of a tensor-table entry that R196 or R235 assign. -/
def tensorMask (w : Nat) : Nat :=
  if w = 0 then 2 ^ 25 - 1 else if w = 7 then 2 ^ 20 - 1 else if w = 9 then 2 ^ 12 - 1 else if 13 ≤ w then 0 else 2 ^ 64 - 1

/-- The element of `n` bytes that holds an address, in a table of `size` bytes. -/
def tableMap (root size n rw ro pa : Nat) : Option FieldMap :=
  if root ≤ pa && pa < root + size then some ⟨root + (pa - root) / n * n, rw, ro⟩ else none

/-- The structure of a context in use that holds an address: its descriptor; and once the device has read that, the header of its error
ring (R279) or a record of it (R280), a queue descriptor (12 R281), a handle entry (16 R328) or a tensor-table entry (08 R196). -/
def Context.fieldMap? (x : Context) (pa : Nat) : Option FieldMap :=
  if x.state = .destroyed then none
  else (tableMap x.desc.toNat 128 128 descRw descRo pa).orElse fun _ =>
    if x.state = .creating || x.state = .keyed then none
    else (tableMap x.errB.toNat 64 64 (fieldBits [(64, 64)]) (fieldBits [(0, 64)]) pa).orElse fun _ =>
      (tableMap (x.errB.toNat + 64) (64 * x.errN.toNat) 64 0 (fieldBits [(0, 512)]) pa).orElse fun _ =>
      (tableMap x.qroot.toNat (64 * x.qn.toNat) 64 (fieldBits [(0, 70), (128, 128)]) (fieldBits [(70, 3), (256, 192)]) pa).orElse fun _ =>
        (tableMap x.hroot.toNat 0x20000 32 (fieldBits [(0, 8), (64, 160)]) 0 pa).orElse fun _ =>
          tableMap x.troot.toNat 0x80000 128 ((List.range 16).map fun w => tensorMask w * 2 ^ (64 * w)).sum 0 pa

/-- The byte that a write of software leaves at an address that held another: RO fields keep what the device wrote, and reserved bits
become zero. -/
def State.keepFields (s : State) (pa : Nat) (old b : Byte) : Byte :=
  match s.ctxs.findSome? (·.fieldMap? pa) with
  | none => b
  | some m =>
    let i := 8 * (pa - m.base)
    (b &&& BitVec.ofNat 8 (bitsOf m.rw i 8)) ||| (old &&& BitVec.ofNat 8 (bitsOf m.ro i 8))

/-- Consecutive bytes with their offsets. -/
def atOffset (off : Nat) (b : List Byte) : List (Nat × Byte) := (natRange off b.length).zip b

/-- A read of bytes of one line at its ordering point. -/
def State.readLine (s : State) (part : BitVec 6) (k : KeyTag) (pa n : Nat) (stream : Bool := false) :
    State × Except MemFault (List Byte) :=
  let pa := s.redirect part pa
  let s := s.ensureSectors part (lineOf pa) stream (sectorMask (touched (pa % 128) n))
  match s.ownLine (lineOf pa) with
  | none => (s, .error (poisonFault 1))
  | some l => (s, l.read k (pa % 128) n)

/-- One write of bytes at offsets of the line at an address, at its ordering point. Only the sectors that it does not cover are fetched
(10 R259), but for a line whose tag fails, which is written whole and keeps its poison where the write does not cover it (16 R339); under
the stream hint the line becomes the next victim (06 R134). A raised TAIL arms an idle queue (12 R283). RO and reserved fields of the device's structures are not written (00 R5, R12). -/
def State.writeOffsets (s : State) (part : BitVec 6) (w : Stamping) (pa : Nat) (bs : List (Nat × Byte)) (stream : Bool := false) :
    Except MemFault State :=
  let at_ := fun (o : Nat) => 128 * lineOf pa + o
  let pa := s.redirect part pa
  let bs := bs.map fun x => (x.1, s.keepFields (at_ x.1) (s.cohByte (128 * lineOf pa + x.1)) x.2)
  let s := s.ensureSectors part (lineOf pa) stream (sectorMask (partialSectors bs))
  let s := if (s.ownLine (lineOf pa)).all fun l => keyIs l.key w.key then s else s.ensureSectors part (lineOf pa) stream 0xFF
  match s.ownLine (lineOf pa) with
  | none => .error (poisonFault 1)
  | some l => (l.write w (s.freeVal 1024) bs).map fun x => (s.drew.putLine { x with stream := x.stream || stream }).armLine (lineOf pa)

/-- A write of bytes of one line at its ordering point. -/
def State.writeLine (s : State) (part : BitVec 6) (w : Stamping) (pa : Nat) (b : List Byte) (stream : Bool := false) :
    Except MemFault State :=
  s.writeOffsets part w pa (atOffset (pa % 128) b) stream

/-! ### Links between dies (17 R351, R352) -/

/-- The die link that joins two C-dies (17 R351). -/
def dieLink (a b : Fin 4) : BitVec 11 :=
  match min a.val b.val, max a.val b.val with
  | 0, 1 => 0
  | 0, 2 => 1
  | 0, _ => 2
  | 1, 2 => 3
  | 1, _ => 4
  | _, _ => 5

/-- The die link that joins a C-die to the I-die (17 R351). -/
def idieLink (d : Fin 4) : BitVec 11 := BitVec.ofNat 11 (6 + d.val)

/-- The links between the dies that a request crosses, with whether the requester stands at the far end. -/
def dieHop (a b : Fin 4) : List (BitVec 11 × Bool) := if a = b then [] else [(dieLink a b, b < a)]

/-- The link from a C-die to the I-die. -/
def idieHop (d : Fin 4) : List (BitVec 11 × Bool) := [(idieLink d, false)]

/-- A request of the event that is being performed crosses links. -/
def State.cross (s : State) (p : List (BitVec 11 × Bool)) : State := { s with crossed := p ++ s.crossed }

/-- Shared copies of a line dropped from the slices of the dies in a list (10 R249). The invalidation goes from the line's home die to
each of them over their die link (17 R357). -/
def State.dropCopies (s : State) (dies : List (Fin 4)) (line : Nat) : State :=
  let gone := s.slices.filter fun l => l.line = line && l.shared && dies.contains l.die
  let path := match gone, s.partAt (128 * line) with
    | [], _ | _, none => []
    | _, some part => gone.flatMap fun l => dieHop (s.homeDie part (128 * line)) l.die
  State.cross { s with slices := s.slices.filter fun l => !(l.line = line && l.shared && dies.contains l.die) } path

/-! ### Atomics (06 R138) -/

/-- The smaller or larger of two FP32 values as VMIN and VMAX choose (06 R149, 07 R168). -/
def fMinMax (less : Bool) (a b : Nat) : Nat :=
  let x := fpDecode fp32 a
  let y := fpDecode fp32 b
  if !x.isNum || !y.isNum then fp32.nanB
  else if less then (if fLt true y x then b else a) else (if fLt true x y then b else a)

/-- The new value of an atomic on the lowest bits of its location, none for a failing cas. A scatter's minimum and maximum may be of FP32
(06 R149). -/
def atomicNew (op : AOp) (ty : Fmt) (old b expect : Nat) : Option Nat :=
  let w := ty.width
  match op with
  | .add => some ((old + b) % 2 ^ w)
  | .min => some (if ty == .f32 then fMinMax true old b else if intOfBits ty b < intOfBits ty old then b else old)
  | .max => some (if ty == .f32 then fMinMax false old b else if intOfBits ty old < intOfBits ty b then b else old)
  | .and => some (old &&& b)
  | .or => some (old ||| b)
  | .xor => some (old ^^^ b)
  | .xchg => some b
  | .cas => if old = expect then some b else none
  | .fadd => some (fpEncode fp32 .rne (fAdd .rne (fpDecode fp32 old) (fpDecode fp32 b)))

/-- A loaded value of a type in a 64-bit register (06 R135, R138). -/
def extendTo (ty : Fmt) (v : Nat) : Word :=
  if ty.isSigned then BitVec.ofInt 64 (intOfBits ty v) else BitVec.ofNat 64 v

/-- What an atomic leaves: the state, and the old value or the fault. A failing cas writes nothing (06 R138, 16 R338). -/
def State.atomicLine (s : State) (part : BitVec 6) (w : Stamping) (pa : Nat) (op : AOp) (ty : Fmt) (b expect : Nat)
    (stream : Bool := false) : State × Except MemFault Nat :=
  let n := ty.bytes
  match s.readLine part w.key pa n stream with
  | (s, .error f) => (s, .error f)
  | (s, .ok old) =>
    match atomicNew op ty (leNat old) (b % 2 ^ ty.width) (expect % 2 ^ ty.width) with
    | none => (s, .ok (leNat old))
    | some v =>
      match s.writeLine part w pa (natLe n v) stream with
      | .error f => (s, .error f)
      | .ok s' => (s', .ok (leNat old))

end Sys2Proof.Machine
end

