-- ==== Sys2Proof/Machine/Barrier.lean ====
section
/-! DEFINITION. A barrier as an object (15 R319 to R322, R324): its fields, when it is ill-formed, what an arrival and a BARINIT do
to it, the barrier word, and a barrier action at the ordering point of a barrier in memory. -/

namespace Sys2Proof.Machine

open Sys2Proof

/-! ### Fields (15 R320) -/

def barKind (b : Rec64) : Nat := bitsOf b.toNat 0 8
def barState (b : Rec64) : Nat := bitsOf b.toNat 8 2
def barPhase (b : Rec64) : Bool := b.getLsbD 10
def barRearm (b : Rec64) : Bool := b.getLsbD 11
def barTorn (b : Rec64) : Bool := b.getLsbD 12
def barTarget (b : Rec64) : Nat := bitsOf b.toNat 64 32
def barCount (b : Rec64) : Nat := bitsOf b.toNat 96 32
def barTrips (b : Rec64) : Nat := bitsOf b.toNat 128 64
def barOver (b : Rec64) : Nat := bitsOf b.toNat 192 64

/-- A record with the field at bit `lo`, `w` bits wide, replaced. -/
def putField (b : Rec64) (lo w x : Nat) : Rec64 := BitVec.ofNat 512 (putBits b.toNat lo w x)

/-- A counter after one event, as a field (00 R8). -/
def countField (n : Nat) : Nat := min (n + 1) (2 ^ 64 - 1)

/-- A reserved bit of a barrier is set; a landing barrier's slot fields are 18 R375's. -/
def barReserved (b : Rec64) : Bool :=
  let v := b.toNat
  bitsOf v 13 51 ≠ 0 ||
    if barKind b = 2 then bitsOf v 259 5 ≠ 0 || bitsOf v 329 7 ≠ 0 || bitsOf v 352 160 ≠ 0 else bitsOf v 256 256 ≠ 0

/-- R321: a barrier that is ill-formed at an action. -/
def barIllFormed (b : Rec64) : Bool :=
  barKind b = 0 || 3 < barKind b || barTarget b = 0 || (barState b ≤ 1 && barTarget b ≤ barCount b) || barReserved b

/-- Who arrives (15 R321). -/
inductive Arriver
  | program | queue | interface
  deriving DecidableEq, Repr

/-- The kind of the barrier accepts the arrival and its weight (15 R321, R327 case 4). -/
def barAccepts (b : Rec64) (who : Arriver) (w : Nat) : Bool :=
  match who with
  | .interface => barKind b = 2
  | .queue => barKind b = 1 || barKind b = 3
  | .program => (barKind b = 1 && w = 1) || barKind b = 3

/-- What an arrival does: it moves the barrier and may trip it, is refused with a case of R327, or is held. -/
inductive Arrived
  | moved (b : Rec64) (tripped : Bool)
  | refused (b : Rec64) (case : Nat)
  | held
  deriving DecidableEq, Repr

/-- The trip of a phase (15 R322). -/
def barTrip (b : Rec64) : Rec64 :=
  let b := putField b 96 32 (barTarget b)
  let b := putField b 10 1 (if barPhase b then 0 else 1)
  let b := putField b 128 64 (countField (barTrips b))
  putField b 8 2 (if barRearm b then 3 else 2)

/-- R322: an arrival on a well-formed barrier that accepts it and is not resetting. -/
def barMove (b : Rec64) (w : Nat) : Arrived :=
  let n := barCount b + w
  if barState b = 2 || barTarget b < n then .refused (putField b 192 64 (countField (barOver b))) 1
  else if n = barTarget b then .moved (barTrip b) true
  else .moved (putField (putField b 96 32 n) 8 2 1) false

/-- R322, R324: an arrival of weight `w`. It is held while a barrier that accepts it resets; the phase under PCHK is compared when
it is applied, before the other refusals. -/
def barArrive (who : Arriver) (w : Nat) (pexp : Option Bool) (b : Rec64) : Arrived :=
  let ill := barIllFormed b
  let accepts := barAccepts b who w
  if barState b = 3 && !ill && accepts then .held
  else if pexp.any (· != barPhase b) then .refused b 2
  else if ill then .refused b 3
  else if !accepts then .refused b 4
  else barMove b w

/-- R324: BARINIT, as its status and the barrier, unchanged unless the status is 0. -/
def barInit (kind : BarKind) (rearm : Bool) (target : Word) (b : Rec64) : Nat × Rec64 :=
  if barState b = 1 || barState b = 3 then (1, b)
  else if barKind b = 2 then (3, b)
  else if target = 0 || 0xFFFFFFFF < target.toNat then (2, b)
  else
    let p := (barKind b = 1 || barKind b = 3) && barPhase b
    let k := match kind with
      | .group => 1
      | .count => 3
    (0, BitVec.ofNat 512 (packFields [(8, k), (2, 0), (1, if p then 1 else 0), (1, if rearm then 1 else 0), (52, 0),
      (32, target.toNat), (416, 0)]))

/-- A resetting barrier open again (15 R322). -/
def barOpen (b : Rec64) : Rec64 := putField (putField b 8 2 0) 96 32 0

/-- The barrier word (15 R324). -/
def barWord (b : Rec64) (tripped : Bool) : Word :=
  BitVec.ofNat 64 (packFields [(32, barCount b), (1, if barPhase b then 1 else 0), (2, barState b), (1, if barTorn b then 1 else 0),
    (1, if tripped then 1 else 0), (3, 0), (8, barKind b), (16, 0)])

/-- A wait for a phase is met (15 R324). -/
def barMet (b : Rec64) (phase : Bool) : Bool := barPhase b == phase || barTorn b

/-! ### A barrier in memory (15 R319) -/

/-- How an action on a barrier in memory ends: its result; a refusal with its case and the COUNT then; held; or a fault of the access. -/
inductive BarEnd
  | done (result : Word)
  | refused (case : Nat) (count : Nat)
  | held
  | fault (f : MemFault)
  deriving DecidableEq, Repr

/-- The bytes of a barrier record. -/
def barBytes (b : Rec64) : List Byte := bytesOf b 0 64

/-- A changed barrier written where it stands; a trip that leaves it resetting is noted. -/
def State.putBarrier (s : State) (part : BitVec 6) (w : Stamping) (pa : Nat) (b : Rec64) (ok : BarEnd) : State × BarEnd :=
  match s.writeLine part w pa (barBytes b) with
  | .error f => (s, .fault f)
  | .ok s =>
    let at' := s.redirect part pa
    (if barState b = 3 then { s with resetting := at' :: s.resetting.filter (· ≠ at') } else s, ok)

/-- A barrier action, one read-modify-write of the 64 bytes at a physical address. -/
def State.barAct (s : State) (part : BitVec 6) (w : Stamping) (pa : Nat) (who : Arriver) (op : BarOp) : State × BarEnd :=
  match s.readLine part w.key pa 64 with
  | (s, .error f) => (s, .fault f)
  | (s, .ok bytes) =>
    let b : Rec64 := BitVec.ofNat 512 (leNat bytes)
    match op with
    | .init kind rearm target =>
      let (st, n) := barInit kind rearm target b
      if st = 0 then s.putBarrier part w pa n (.done 0) else (s, .done (BitVec.ofNat 64 st))
    | .arrive wt pexp _ =>
      match barArrive who wt.toNat pexp b with
      | .held => (s, .held)
      | .moved n t => s.putBarrier part w pa n (.done (barWord n t))
      | .refused n case =>
        if n = b then (s, .refused case (barCount b)) else s.putBarrier part w pa n (.refused case (barCount b))

/-- The barrier fault (15 R327). -/
def barrierFault (addr case count : Nat) : FaultRec :=
  { code := 0x0501, addr := BitVec.ofNat 64 addr, aux := BitVec.ofNat 64 (case + 2 ^ 32 * count) }

/-- R322: a resetting barrier open again, an action of its ordering point: its line's sequence counter advances, and nothing is
checked, stamped or consumed. -/
def State.reopenLine (s : State) (pa : Nat) : State :=
  match s.partAt pa with
  | none => s
  | some part =>
    let s := s.ensureLine part (lineOf pa) false
    match s.ownLine (lineOf pa) with
    | none => s
    | some l =>
      let off := pa % 128
      let b : Rec64 := BitVec.ofNat 512 (leNat (bytesOf l.data off 64))
      { (s.dropCopies [0, 1, 2, 3] (lineOf pa)).putLine { l with
          data := putBytes l.data off (barBytes (barOpen b))
          dirty := l.dirty ||| sectorMask (touched off 64)
          seq := l.seq + 1 } with
        resetting := s.resetting.filter (· ≠ pa) }

end Sys2Proof.Machine
end

