-- ==== Sys2Proof/Machine/Flags.lean ====
section
/-! DEFINITION. Conditions and predicates: the branch conditions (04 R83), the compare conditions and joins (05 R112), and the
predicate registers, of which p15 always reads true (02 R35). The machine has no other flags: scalar and vector arithmetic keeps
none (05 R110). -/

namespace Sys2Proof.Machine

open Sys2Proof

/-- The branch condition on a value (05 R113). -/
def ccTest (cc : Cc) (v : Word) : Bool :=
  match cc with
  | .nz => v != 0
  | .z => v == 0
  | .neg => v.msb
  | .nneg => !v.msb

/-- A comparison of two numbers from their order (05 R112). -/
def condOf (c : Cond) (o : Ordering) : Bool :=
  match c with
  | .eq => o == .eq
  | .ne => o != .eq
  | .lt => o == .lt
  | .le => o != .gt
  | .gt => o == .gt
  | .ge => o != .lt

/-- Two scalars compared as i64 or n64 (05 R112). -/
def scalarOrd (ty : STy) (a b : Word) : Ordering :=
  match ty with
  | .i64 => compare a.toInt b.toInt
  | .n64 => compare a.toNat b.toNat

/-- How CMP joins its result into the old value of the predicate (05 R112). -/
def joinOf (j : Join) (old new : Bool) : Bool :=
  match j with
  | .set => new
  | .and => old && new
  | .or => old || new

/-- A predicate written; a write to p15 is discarded (02 R35). -/
def SlotState.setPred (t : SlotState) (n : Fin 16) (b : Bool) : SlotState :=
  if n = 15 then t
  else { t with p := if b then t.p ||| BitVec.ofNat 16 (2 ^ n.val) else t.p &&& ~~~ BitVec.ofNat 16 (2 ^ n.val) }

def readPred (n : Fin 16) : LaneM Bool := do return (← getSlot).pred n

def writePred (n : Fin 16) (b : Bool) : LaneM Unit := modSlot (·.setPred n b)

end Sys2Proof.Machine
end

