-- ==== Sys2Proof/Machine/Operands.lean ====
section
/-! DEFINITION. The operand forms: scalar registers with their outstanding writes (05 R109), queue registers with pops, peeks,
pushes, reservations and drops (02 R31 to R33, 05 R118, R127), and constants. Vector registers stand in Machine/Vector.lean. -/

namespace Sys2Proof.Machine

open Sys2Proof

/-! ### Queue registers -/

/-- The producing slot of a queue register (02 R31). -/
def producerOf (q : Nat) : Slot :=
  if q < 8 then .a else if q < 12 then .v else if q < 16 then .a else if q < 24 then .c else if q < 28 then .v
  else if q < 30 then .c else .m

/-- The consuming slot of a queue register (02 R31). -/
def consumerOf (q : Nat) : Slot :=
  if q < 8 then .v else if q < 12 then .a else if q < 16 then .c else if q < 20 then .a else if q < 24 then .v
  else if q < 28 then .c else if q < 30 then .m else .c

/-- The depth of a queue register (02 R31). -/
def depthOf (q : Nat) : Nat := if q < 12 then 4 else 16

/-- What a pop of a queue register meets (02 R32, R33; 05 R118). -/
inductive PopView (w : Nat)
  /-- The oldest entry that is not marked holds data; the queue without it follows. -/
  | ready (v : BitVec w) (rest : List (QEntry w))
  /-- That entry is reserved and not filled. -/
  | waiting
  /-- There is no entry but marked ones and ones pushed in the same bundle. -/
  | empty
  deriving DecidableEq, Repr

/-- The oldest entry that is neither marked nor pushed in the bundle being issued. -/
def popView {w : Nat} : List (QEntry w) → PopView w
  | [] => .empty
  | e :: r =>
    if e.marked || e.fresh then
      match popView r with
      | .ready v rest => .ready v (e :: rest)
      | o => o
    else match e.data with
      | some v => .ready v r
      | none => .waiting

/-- The queue-deadlock fault (05 R127, 14 R312); AUX is the queue's name (04 R87). -/
def deadlock (q : Nat) : FaultRec := { code := 0x0106, aux := BitVec.ofNat 64 (1600 + q) }

/-- What a pop or peek answers: the value and the queue after it; a pop from an empty queue whose producer has ended raises the
queue-deadlock fault, any other blocks. R127 speaks of pops; that a peek meets the same fault is the model's choice (log 109). -/
def popResult {w : Nat} (q : Nat) (ended peek : Bool) (l : List (QEntry w)) : Except Stop (BitVec w × List (QEntry w)) :=
  match popView l with
  | .ready v rest => .ok (v, if peek then l else rest)
  | .waiting => .error (.stall .plain)
  | .empty => if ended then .error (.fault (deadlock q)) else .error (.stall .plain)

def scalarQ (q : Nat) : Fin 20 := Fin.ofNat 20 (q - 12)

def vectorQ (q : Nat) : Fin 12 := Fin.ofNat 12 q

/-- A 64-bit queue register read as a source. -/
def popScalar (q : Nat) (peek : Bool) : LaneM Word := do
  let k ← getCore
  match popResult q (k.slot (producerOf q)).ended peek k.q[scalarQ q] with
  | .error e => fun _ => .error e
  | .ok (v, l) =>
    modCore fun k => { k with q := k.q.set (scalarQ q) l }
    return v

/-- A vector queue register read as a source. -/
def popVector (q : Nat) (peek : Bool) : LaneM VReg := do
  let k ← getCore
  match popResult q (k.slot (producerOf q)).ended peek k.vq[vectorQ q] with
  | .error e => fun _ => .error e
  | .ok (v, l) =>
    modCore fun k => { k with vq := k.vq.set (vectorQ q) l }
    return v

/-- A queue with room for one more entry; in a sync bundle the room is checked when all its lanes have acted (02 R32). -/
def hasRoom {w : Nat} (k : Core) (q : Nat) (l : List (QEntry w)) : Bool := k.bundling || l.length < depthOf q

/-- An entry pushed to a 64-bit queue register; a push whose consumer has ended is discarded (05 R127). -/
def pushScalar (q : Nat) (v : Word) : LaneM Unit := do
  let k ← getCore
  if (k.slot (consumerOf q)).ended then return
  guardStall (hasRoom k q k.q[scalarQ q])
  modCore fun k => { k with q := k.q.set (scalarQ q) (k.q[scalarQ q] ++ [⟨0, some v, false, k.bundling⟩]) }

def pushVector (q : Nat) (v : VReg) : LaneM Unit := do
  let k ← getCore
  if (k.slot (consumerOf q)).ended then return
  guardStall (hasRoom k q k.vq[vectorQ q])
  modCore fun k => { k with vq := k.vq.set (vectorQ q) (k.vq[vectorQ q] ++ [⟨0, some v, false, k.bundling⟩]) }

/-- An entry reserved for access `id` (02 R33). Where the consumer has ended nothing is reserved and the data are discarded. -/
def reserve (q : Fin 32) (id : Nat) : LaneM Dest := do
  let k ← getCore
  if (k.slot (consumerOf q.val)).ended then return .none
  else if q.val < 12 then do
    guardStall (hasRoom k q.val k.vq[vectorQ q.val])
    modCore fun k => { k with vq := k.vq.set (vectorQ q.val) (k.vq[vectorQ q.val] ++ [⟨id, none, false, k.bundling⟩]) }
    return .queue q
  else do
    guardStall (hasRoom k q.val k.q[scalarQ q.val])
    modCore fun k => { k with q := k.q.set (scalarQ q.val) (k.q[scalarQ q.val] ++ [⟨id, none, false, k.bundling⟩]) }
    return .queue q

/-- The reserved entry of access `id` filled; a marked one is discarded and its place freed (05 R118). -/
def fillEntry {w : Nat} (id : Nat) (v : BitVec w) : List (QEntry w) → List (QEntry w)
  | [] => []
  | e :: r =>
    if e.id = id && e.data.isNone then (if e.marked then r else { e with data := some v } :: r) else e :: fillEntry id v r

/-- QDROP on the entries of one queue: data are discarded, reserved entries marked, entries of the same cycle survive (05 R118). -/
def dropEntries {w : Nat} (l : List (QEntry w)) : List (QEntry w) :=
  (l.filter fun e => e.fresh || e.data.isNone).map fun e => if e.fresh then e else { e with marked := true }

/-- The counts of QCNT: free, reserved and filled (05 R119). -/
def queueCounts {w : Nat} (q : Nat) (l : List (QEntry w)) : Word :=
  let filled := (l.filter (·.data.isSome)).length
  let reserved := l.length - filled
  BitVec.ofNat 64 ((depthOf q - filled - reserved) * 2 ^ 32 + reserved * 2 ^ 16 + filled)

/-! ### Scalar registers -/

/-- An outstanding access of the slot writes this register (05 R109). -/
def Core.regPending (k : Core) (sl : Slot) (n : Fin 64) : Bool :=
  k.acc.any (fun a => a.slot == sl && a.dest == .sreg n) ||
    k.e.toList.any fun q => q.ops.any fun o => o.slot == sl && o.dest == .sreg n

/-- A scalar register read: it waits until every earlier write has been done, one whose value a later write has replaced among them
(05 R109). -/
def readReg (n : Fin 64) : LaneM Word := do
  let k ← getCore
  guardStall (!k.regPending (← curSlot) n)
  return (k.slot (← curSlot)).s[n]

/-- A scalar register written. The writes of one register take effect in issue order (05 R109), so the value of an earlier
outstanding access to it is dropped when it arrives (log 11). -/
def writeReg (n : Fin 64) (v : Word) : LaneM Unit := do
  let sl ← curSlot
  modCore fun k =>
    { k with
      acc := k.acc.map fun a => if a.slot == sl && a.dest == .sreg n then { a with dropped := true } else a
      e := k.e.map fun q => { q with ops := q.ops.map fun o => if o.slot == sl && o.dest == .sreg n then { o with dropped := true } else o } }
  modSlot fun t => { t with s := t.s.set n v }

/-- A scalar source operand (04 R87, R88; 05 R108). -/
def readS (o : Operand) : LaneM Word :=
  match o.name with
  | .s n => readReg n
  | .q n => if n.val < 12 then illegal else popScalar n.val o.peek
  | .zero => pure 0
  | .one => pure 1
  | .ones => pure (BitVec.allOnes 64)
  | .p n => do return if ← readPred n then 1 else 0
  | _ => illegal

/-- A scalar destination operand (05 R108). -/
def writeS (o : Operand) (v : Word) : LaneM Unit :=
  match o.name with
  | .s n => writeReg n v
  | .q n => if n.val < 12 then illegal else pushScalar n.val v
  | .zero => pure ()
  | _ => illegal

/-- The last source of a scalar form: a register, or the immediate sign-extended (04 R82). -/
def readSrc2 (o : Src2) : LaneM Word :=
  match o with
  | .reg r => readS r
  | .imm i => pure (i.signExtend 64)

/-- The destination of an access: a scalar register at issue order, a reserved queue entry, or none. -/
def reserveDest (o : Operand) (id : Nat) : LaneM Dest :=
  match o.name with
  | .s n => do
    let sl ← curSlot
    modCore fun k =>
      { k with
        acc := k.acc.map fun a => if a.slot == sl && a.dest == .sreg n then { a with dropped := true } else a
        e := k.e.map fun q => { q with ops := q.ops.map fun o => if o.slot == sl && o.dest == .sreg n then { o with dropped := true } else o } }
    return .sreg n
  | .q q => reserve q id
  | _ => pure .none

end Sys2Proof.Machine
end

