-- ==== Sys2Proof/Machine/Local.lean ====
section
/-! DEFINITION. The local store window of a core: its bytes, its regions and who may reach them (02 R47), the range scoreboard
(R50), and the ring headers (06 R154). -/

namespace Sys2Proof.Machine

open Sys2Proof

def lsRead (k : Core) (off n : Nat) : List Byte := memGets k.ls off n

def lsWrite (off : Nat) (b : List Byte) (k : Core) : Core := { k with ls := memSets k.ls off b }

def lsNat (k : Core) (off n : Nat) : Nat := leNat (lsRead k off n)

def lsPut (off n v : Nat) (k : Core) : Core := lsWrite off (natLe n v) k

/-- The regions of the window (02 R47). -/
inductive Area
  | outside | carve | records | ring (n : Fin 16) | zone (n : Fin 16) | free
  deriving DecidableEq, Repr

def Region.has (r : Region) (off : Nat) : Bool := r.off ≤ off && off < r.off + r.size

/-- The region that holds a byte of the window. -/
def Layout.areaAt (l : Layout) (off : Nat) : Area :=
  if l.window ≤ off then .outside
  else if l.spill.has off then .carve
  else if l.records.has off then .records
  else match (List.finRange 16).find? fun i => l.rings[i].has off with
    | some i => .ring i
    | none =>
      match (List.finRange 16).find? fun i => l.zones[i].has off with
      | some i => .zone i
      | none => .free

/-- The regions meet a byte range only at 4 KiB steps, so a range of at most 64 KiB is looked at each 4 KiB and at its end. -/
def Layout.areas (l : Layout) (off n : Nat) : List Area :=
  if n = 0 then [] else l.areaAt (off + n - 1) :: (List.range (n / 4096 + 1)).map fun i => l.areaAt (min (off + 4096 * i) (off + n - 1))

/-- A read by the program or on its behalf: any region but the carve-out (02 R47). -/
def Layout.readable (l : Layout) (off n : Nat) : Bool := (l.areas off n).all fun a => a != .outside && a != .carve

/-- A store by the program, or a copy engine's write: the flags and free space only. -/
def Layout.writable (l : Layout) (off n : Nat) : Bool := (l.areas off n).all fun a => a == .free

/-- The local-store range fault; AUX holds the ring number where the range meets one (14 R312). -/
def rangeFault (l : Layout) (off : Int) (n : Nat) : FaultRec :=
  let ring := (l.areas off.toNat n).findSome? fun a =>
    match a with
    | .ring i => some i.val
    | _ => none
  { code := 0x0304, addr := BitVec.ofInt 64 off, aux := BitVec.ofNat 64 (ring.getD 0) }

/-- Overlap of a scoreboard range and an access. -/
def Range.meets (r : Range) (off n : Nat) : Bool := r.lo < off + n && off < r.hi

/-- A program load stalls on a copy-in's range, a store on any (02 R50). -/
def rangeStalls (k : Core) (store : Bool) (off n : Nat) : Bool := k.ranges.any fun r => (store || r.isDst) && r.meets off n

/-- The local offset of an F3 word: read_i64(FA) + sext(OFF) (06 R135). -/
def localOffset (ad : Addr) : LaneM Int := do
  let a ← readS ad.fa
  return a.toInt + ad.off.toInt

def alignFault (a : Int) : FaultRec := { code := 0x0303, addr := BitVec.ofInt 64 a }

/-- A checked local range for a read on the program's behalf. -/
def checkLocalRead (off : Int) (n : Nat) : LaneM Nat := do
  let g ← getGroup
  guardFault (0 ≤ off && g.layout.readable off.toNat n) (rangeFault g.layout off n)
  return off.toNat

/-! ### Ring headers (06 R154) -/

def ringTail (k : Core) (r : Region) : Nat := lsNat k r.off 8
def ringHead (k : Core) (r : Region) : Nat := lsNat k (r.off + 8) 8
def ringEntries (k : Core) (r : Region) : Nat := lsNat k (r.off + 16) 8
def ringRefused (k : Core) (r : Region) : Nat := lsNat k (r.off + 24) 8

/-- The offset of entry i of a ring. -/
def ringEntryAt (k : Core) (r : Region) (i : Nat) : Nat := r.off + 64 + 256 * (i % ringEntries k r)

/-- A message appended to a ring by the network interface, or refused and counted where the ring is full (06 R154). The bytes of
the entry are written before TAIL is raised. -/
def ringAppend (k : Core) (r : Region) (header payload : List Byte) : Core × Bool :=
  let t := ringTail k r
  if t < ringHead k r + ringEntries k r then
    (lsPut r.off 8 (t + 1) (lsWrite (ringEntryAt k r t) (header ++ payload) k), true)
  else (lsPut (r.off + 24) 8 (count (BitVec.ofNat 64 (ringRefused k r))).toNat k, false)

/-- The first eight bytes of a ring entry: length, source core and die, source device (06 R154). -/
def ringHeader (len core die dev : Nat) : List Byte := natLe 2 len ++ natLe 1 core ++ natLe 1 die ++ natLe 2 dev ++ natLe 2 0

end Sys2Proof.Machine
end

