-- ==== Sys2Proof/Machine/Translate.lean ====
section
/-! DEFINITION. Handles, translation and the checks of an access: handle entries (16 R328), the walk (R329 to R332), the checks
that an access meets at its leaf (R334, R336), and reads and writes of a context's memory by virtual address. -/

namespace Sys2Proof.Machine

open Sys2Proof

/-! ### Handle entries (16 R328) -/

/-- The spaces of a handle. -/
inductive Space
  | near | far | peer
  deriving DecidableEq, Repr

/-- A handle entry's fields. -/
structure Handle where
  n      : BitVec 12
  space  : Space
  wvm    : Bool
  stream : Bool
  base   : Nat
  bound  : Nat
  wv     : BitVec 32
  deriving DecidableEq, Repr

/-- A handle entry from its bits; none where V is 0, a code is reserved, or BASE + BOUND passes 2^56. -/
def handleOf (n : BitVec 12) (e : BitVec 256) : Option Handle :=
  let v := e.toNat
  let base := bitsOf v 64 64
  let bound := bitsOf v 128 64
  let space := match bitsOf v 1 2 with
    | 1 => some Space.near
    | 2 => some Space.far
    | 3 => some Space.peer
    | _ => none
  match space with
  | none => none
  | some sp =>
    if bitsOf v 0 1 = 0 || 1 < bitsOf v 4 2 || 2 ^ 56 < base + bound then none
    else some ⟨n, sp, bitsOf v 3 1 = 1, bitsOf v 4 2 = 1, base, bound, BitVec.ofNat 32 (bitsOf v 192 32)⟩

/-- The handle entry that a core's group sees: its cached copy, or the table's, which is then cached (16 R328). -/
def State.handleEntry (s : State) (c : CoreId) (n : BitVec 12) : State × BitVec 256 :=
  let k := s.core c
  match k.hcache.find? (·.n = n) with
  | some e => (s, e.val)
  | none =>
    match k.ctxId.bind s.ctx? with
    | none => (s, 0)
    | some x =>
      let v := BitVec.ofNat 256 (s.rdNat (x.hroot.toNat + 32 * n.toNat) 32)
      (s.updCore c fun k => { k with hcache := ⟨n, v⟩ :: k.hcache }, v)

/-! ### Leaves (16 R330) -/

def Leaf.apt (l : Leaf) : Nat := bitsOf l.w1.toNat 0 2
def Leaf.frame (l : Leaf) : Nat := bitsOf l.w0.toNat 9 43 * 512
def Leaf.canR (l : Leaf) : Bool := l.w1.getLsbD 2
def Leaf.canW (l : Leaf) : Bool := l.w1.getLsbD 3
def Leaf.canA (l : Leaf) : Bool := l.w1.getLsbD 4
def Leaf.rap (l : Leaf) : Bool := l.w1.getLsbD 5
def Leaf.key (l : Leaf) : Fin 16 := Fin.ofNat 16 (bitsOf l.w1.toNat 6 4)
def Leaf.wvm (l : Leaf) : Bool := l.w1.getLsbD 10
def Leaf.fmode (l : Leaf) : Bool := l.w1.getLsbD 11
def Leaf.swap (l : Leaf) : Nat := bitsOf l.w1.toNat 12 2
def Leaf.pair (l : Leaf) : Nat := bitsOf l.w1.toNat 14 6
def Leaf.bad (l : Leaf) : Bool := l.w1.getLsbD 20
def Leaf.pdev (l : Leaf) : Nat := bitsOf l.w1.toNat 21 16
/-- The level of the walk that a leaf stands at, by what it maps (16 R329). -/
def Leaf.level (l : Leaf) : Nat := if l.size = 2 ^ 30 then 2 else if l.size = 2 ^ 21 then 3 else 4
/-- A fault at a leaf, with the leaf's level and KEY (16 R346). -/
def MemFault.onLeaf (f : MemFault) (l : Leaf) : MemFault := { f with level := l.level, key := l.key.val }
def Leaf.isNear (l : Leaf) : Bool := l.apt = 1
def Leaf.isFar (l : Leaf) : Bool := l.apt = 2
def Leaf.isPeer (l : Leaf) : Bool := l.apt = 3

/-- The physical address of a virtual address that the leaf maps. -/
def Leaf.phys (l : Leaf) (va : Nat) : Nat := l.frame + va % l.size

def Leaf.maps (l : Leaf) (va : Nat) : Bool := l.va ≤ va && va < l.va + l.size

/-! ### The walk (16 R329, R331) -/

/-- The far-memory ports of a package: none on the TQ-384F (01 R17, R19). -/
def State.farPorts (s : State) : Nat := if s.variant = .tq384f then 0 else 10

/-- A level: the lowest VA bit it indexes, how many bits, whether a leaf may stand there, and the size of the table below. -/
structure LevelInfo where
  shift : Nat
  bits  : Nat
  leaf  : Bool
  below : Nat
  deriving DecidableEq, Repr

/-- The levels 0 to 4. The last level has no table below it. -/
def walkLevels : List LevelInfo :=
  [⟨47, 9, false, 8192⟩, ⟨38, 9, false, 4096⟩, ⟨30, 8, true, 8192⟩, ⟨21, 9, true, 512⟩, ⟨16, 5, true, 0⟩]

def translationFault (detail level : Nat) : MemFault := ⟨0x0306, detail, level, 0⟩

/-- A leaf's own fields are well formed (16 R330, R331). -/
def leafFormed (l : Leaf) : Bool :=
  bitsOf l.w0.toNat 2 7 = 0 && bitsOf l.w0.toNat 52 12 = 0 && l.apt ≠ 0 && bitsOf l.w1.toNat 37 27 = 0 && l.frame % l.size = 0 &&
    (l.isPeer || (!l.rap && l.pdev = 0)) && (l.isFar || !l.fmode) && l.swap < 3

/-- A non-leaf entry is well formed, its table aligned to its own size. -/
def tableFormed (w0 w1 : Word) (below : Nat) : Bool :=
  bitsOf w0.toNat 2 7 = 0 && bitsOf w0.toNat 52 12 = 0 && w1 = 0 && below ≠ 0 && bitsOf w0.toNat 9 43 * 512 % below = 0

/-- What a walk ends in: a leaf with the non-leaf entries read, or a fault; and the words that it read, each with its address, in
order. -/
structure WalkResult where
  words : List (Nat × Word)
  seen : List NonLeaf
  leaf : Except MemFault Leaf
  deriving Repr

/-- A word of a translation entry: the one a walk has read already, or memory's (16 R332). -/
def State.entryWord (s : State) (held : List (Nat × Word)) (pa : Nat) : Word :=
  match held.find? (·.1 = pa) with
  | some x => x.2
  | none => BitVec.ofNat 64 (s.rdNat pa 8)

/-- The walk from a table at level `n`. -/
def State.walkFrom (s : State) (va : Nat) (held : List (Nat × Word)) :
    List LevelInfo → Nat → Nat → List NonLeaf → List (Nat × Word) → WalkResult
  | [], n, _, seen, words => ⟨words, seen, .error (translationFault 2 n)⟩
  | v :: rest, n, table, seen, words =>
    let pa := table + 16 * bitsOf va v.shift v.bits
    let w0 := s.entryWord held pa
    let w1 := s.entryWord held (pa + 8)
    let words := words ++ [(pa, w0), (pa + 8, w1)]
    if !w0.getLsbD 0 then ⟨words, seen, .error (translationFault 1 n)⟩
    else if w0.getLsbD 1 then
      let size := 2 ^ v.shift
      let l : Leaf := ⟨va / size * size, size, pa, w0, w1⟩
      if v.leaf && leafFormed l then ⟨words, seen, .ok l⟩
      else ⟨words, seen, .error { translationFault 2 n with key := l.key.val }⟩
    else if tableFormed w0 w1 v.below then
      let t := bitsOf w0.toNat 9 43 * 512
      s.walkFrom va held rest (n + 1) t (⟨n + 1, va / 2 ^ v.shift * 2 ^ v.shift, t⟩ :: seen) words
    else ⟨words, seen, .error (translationFault 2 n)⟩

/-- R331: a leaf that the walker refuses to install. -/
def State.refuseLeaf (s : State) (part : BitVec 6) (l : Leaf) : Option MemFault :=
  if l.isFar && s.farPorts = 0 then some (memFault 0x0108 0)
  else if l.isNear && !(s.isNear part l.frame && s.isNear part (l.frame + l.size - 1)) then some ((translationFault 3 0).onLeaf l)
  else if l.isFar && !(s.isFar part l.frame && s.isFar part (l.frame + l.size - 1)) then some ((translationFault 3 0).onLeaf l)
  else none

/-- A walk with the refusals. -/
def State.refusing (s : State) (x : Context) (r : WalkResult) : WalkResult :=
  match r.leaf with
  | .error _ => r
  | .ok l =>
    match s.refuseLeaf x.part l with
    | none => r
    | some f => { r with leaf := .error f }

/-- A walk of a context's tables from PROOT with the refusals. -/
def State.walk (s : State) (x : Context) (va : Nat) (held : List (Nat × Word) := []) : WalkResult :=
  s.refusing x (s.walkFrom va held walkLevels 0 x.proot.toNat [] [])

/-- A cached non-leaf entry translates an address (16 R332). -/
def NonLeaf.covers (n : NonLeaf) (va : Nat) : Bool :=
  match walkLevels[n.level - 1]? with
  | none => false
  | some v => n.va = va / 2 ^ v.shift * 2 ^ v.shift

/-- A walk that starts at the deepest cached non-leaf entry of the core, where one covers the address (16 R332). -/
def State.walkCached (s : State) (k : Core) (x : Context) (va : Nat) (held : List (Nat × Word) := []) : WalkResult :=
  let best := (k.nonleaf.filter (·.covers va)).foldl (fun (b : Option NonLeaf) n =>
    match b with
    | none => some n
    | some m => if m.level < n.level then some n else some m) none
  match best with
  | none => s.walk x va held
  | some n => s.refusing x (s.walkFrom va held (walkLevels.drop n.level) n.level n.table [] [])

/-- A leaf and the non-leaf entries of its walk cached on a core: at most 2048 and 256 (16 R332). -/
def installWalk (r : WalkResult) (k : Core) : Core :=
  match r.leaf with
  | .error _ => { k with nonleaf := (r.seen ++ k.nonleaf).take 256 }
  | .ok l => { k with leaves := (l :: k.leaves.filter (·.va ≠ l.va)).take 2048, nonleaf := (r.seen ++ k.nonleaf).take 256 }

/-- The words that a walk has read reach their channels (01 R24). -/
def State.touchWalk (s : State) (r : WalkResult) : State := r.words.foldl (fun s w => s.touch w.1 8) s

/-- A walk of the page of an address is in flight on a core, or waits to be. -/
def Core.walksPage (k : Core) (va : Nat) : Bool := k.walks.any (·.page = va / 65536)

/-- The translation of an address for an agent of a core that waits for it: a cached leaf, or a walk, counted in XWALK. Where a walk of
the page is in flight the agent joins it, counted in XJOIN, and ends with the leaf as the tables hold it then (16 R332; log 43). -/
def State.translate (s : State) (c : CoreId) (va : Nat) : State × Except MemFault Leaf :=
  let k := s.core c
  match k.leaves.find? (·.maps va) with
  | some l => (s, .ok l)
  | none =>
    match k.ctxId.bind s.ctx? with
    | none => (s, .error (translationFault 1 0))
    | some x =>
      let r := s.walk x va
      let join := k.walksPage va
      ((s.touchWalk r).updCore c fun k => { installWalk r k with
        xjoin := if join then count k.xjoin else k.xjoin
        xwalk := if join then k.xwalk else count k.xwalk }, r.leaf)

/-! ### The checks of an access (16 R334, R336) -/

/-- What an access does at its leaf. -/
inductive Want
  | read | write | atomic
  deriving DecidableEq, Repr

def Want.isWrite (w : Want) : Bool := w != .read

/-- R334: the checks of an access that reaches a leaf, in their order; none where all pass. A load through a near or far handle
that reaches a peer leaf raises the peer-load fault (06 R130). -/
def State.leafCheck (s : State) (ctx : BitVec 10) (peerHandle : Bool) (w : Want) (l : Leaf) : Option MemFault :=
  if peerHandle && !l.isPeer then some (translationFault 5 0)
  else if !peerHandle && l.isPeer then some (if w.isWrite then translationFault 5 0 else (memFault 0x0305 0))
  else if l.bad then some (poisonFault 3)
  else if w == .read && !l.canR then some (memFault 0x0307 1)
  else if w.isWrite && !l.canW then some (memFault 0x0307 2)
  else if w == .atomic && !l.canA then some (memFault 0x0307 3)
  else if w == .atomic && l.isPeer && !l.rap then some (memFault 0x030B 1)
  else if (s.keyTag ctx l.key).isNone && (w.isWrite || !s.keyGone ctx l.key) then some (memFault 0x030C 1)
  else none

/-- What an access meets at a key slot that holds no key: a read fails its integrity check where KEYDESTROY erased the key, and every
other access meets the key-absent fault (11 R276, R277; log 79). -/
def State.keyFault (s : State) (ctx : BitVec 10) (slot : Fin 16) (write : Bool) : MemFault :=
  if !write && s.keyGone ctx slot then poisonFault 2 else memFault 0x030C 1

/-- The partition of a context. -/
def State.partOf (s : State) (ctx : BitVec 10) : BitVec 6 := ((s.ctx? ctx).map (·.part)).getD 0

/-- R336: what a far leaf's access meets where no slice holds the line: no far port, a tier miss under FMODE 1 unless it is a
copy engine's, or a failed port. `port` says that it is sent to a port and counted in TIERST. -/
structure FarVerdict where
  fault : Option MemFault
  port  : Bool
  deriving DecidableEq, Repr

/-- The save area of a context of a partition, which no program can name (11 R278). -/
def State.inSaveArea (s : State) (part : BitVec 6) (pa : Nat) : Bool :=
  s.ctxs.any fun x => x.part = part && x.state ≠ .creating && x.state ≠ .destroyed &&
    x.saveB.toNat ≤ pa && pa < x.saveB.toNat + 65536 * x.saveS.toNat

/-- R336 for an access of a leaf to an address; a near address in a save area is refused before (11 R278). -/
def State.farCheck (s : State) (part : BitVec 6) (l : Leaf) (pa : Nat) (copy : Bool) : FarVerdict :=
  if l.isNear && s.inSaveArea part pa then ⟨some (translationFault 3 0), false⟩
  else if !l.isFar || (s.pairAt part pa).isSome then ⟨none, false⟩
  else if (s.fports part).isEmpty then ⟨some (translationFault 4 0), false⟩
  else if (s.ownLine (lineOf pa)).isSome then ⟨none, false⟩
  else if l.fmode && !copy then ⟨some (memFault 0x030A 1), false⟩
  else if (s.farPort part pa).any fun p => s.badPorts.getLsbD p then ⟨some (poisonFault 1), true⟩
  else ⟨none, true⟩

/-- A far access sent to a port is counted on its core (16 R336, R347). -/
def countTier (v : FarVerdict) (k : Core) : Core := { k with tierst := if v.port then count k.tierst else k.tierst }

/-- A tier-miss fault is counted on its core (16 R336, R347). -/
def countMiss (code : BitVec 16) (k : Core) : Core := { k with tierms := if code = 0x030A then count k.tierms else k.tierms }

/-- The integrity failures of a core counted where a read met one (16 R337). -/
def State.noteIntegrity (s : State) (c : CoreId) (f : MemFault) : State :=
  if f = poisonFault 2 then s.updCore c fun k => { k with itfail := count k.itfail } else s

/-- The fields a memory fault gives its record: ADDR and the AUX of R346. -/
def memFaultRec (va : Nat) (write : Bool) (f : MemFault) : FaultRec :=
  { code := f.code
    addr := BitVec.ofNat 64 va
    aux := if f.code = 0x0108 || f.code = 0x0305 then 0
      else BitVec.ofNat 64 (f.detail + 2 ^ 8 * f.level + (if write then 2 ^ 11 else 0) + 2 ^ 12 * f.key) }

/-- The record of a fault that an access met at its leaf (log 70). -/
def leafFaultRec (va : Nat) (write : Bool) (l : Leaf) (f : MemFault) : FaultRec := memFaultRec va write (f.onLeaf l)

/-! ### Die links (17 R351, R352, R357) -/

/-- The clock of a link end: the die's for a die link, the lower die's where it joins two C-dies, the I-die's for a peer link
(17 R351). -/
def State.linkClock (s : State) (i : BitVec 11) : Nat :=
  match i.toNat with
  | 0 | 1 | 2 | 6 => s.cycle 0
  | 3 | 4 | 7 => s.cycle 1
  | 5 | 8 => s.cycle 2
  | 9 => s.cycle 3
  | _ => s.icycles

/-- The C-die at the near end of a die link. -/
def nearDie (i : BitVec 11) : Fin 4 :=
  match i.toNat with
  | 3 | 4 | 7 => 1
  | 5 | 8 => 2
  | 9 => 3
  | _ => 0

/-- The clock of the other end of a die link: the higher C-die's, or the I-die's (17 R351). -/
def State.farClock (s : State) (i : BitVec 11) : Nat :=
  match i.toNat with
  | 0 => s.cycle 1
  | 1 | 3 => s.cycle 2
  | 2 | 4 | 5 => s.cycle 3
  | _ => s.icycles

/-- Every link of a path is up: only then does it carry operation traffic (17 R352). -/
def State.linksUp (s : State) (p : List (BitVec 11 × Bool)) : Bool := p.all fun i => s.links.any fun x => x.1 = i.1 && x.2.state == .up

/-- A request for a line that waits for a sleeping or waking link of its path is noted there (17 R357), with the cycle of the die that
waits. -/
def State.awaitLinks (s : State) (p : List (BitVec 11 × Bool)) (line : Nat) : State :=
  { s with links := s.links.map fun x =>
      match p.find? (·.1 = x.1) with
      | none => x
      | some (_, far) =>
        if (x.2.state == .sleeping || x.2.state == .waking) && !x.2.snoops.any (·.line = line) then
          (x.1, { x.2 with snoops := x.2.snoops ++ [⟨line, if far then s.farClock x.1 else s.linkClock x.1, far⟩] })
        else x }

/-- A link end that has carried operation traffic in both directions. -/
def LinkEnd.carried (l : LinkEnd) (here far : Nat) : LinkEnd :=
  { l with heardAt := here, sentAt := here, trafficAt := here, far := { l.far with heardAt := far, sentAt := far, trafficAt := far } }

/-- The links of a path have carried a request and its answer. -/
def State.carried (s : State) (p : List (BitVec 11 × Bool)) : State :=
  if p.isEmpty then s
  else { s with links := s.links.map fun x =>
    if (p.any fun i => decide (i.1 = x.1)) then (x.1, x.2.carried (s.linkClock x.1) (s.farClock x.1)) else x }

/-- The table entries that the event from `s` has cached on a core reach their channels (01 R24). -/
def State.touchEntries (s t : State) (c : CoreId) : State :=
  let old := s.core c
  let new := t.core c
  match new.ctxId.bind t.ctx? with
  | none => t
  | some x =>
    let t := (new.hcache.filter fun e => !old.hcache.any (·.n = e.n)).foldl (fun t e => t.touch (x.hroot.toNat + 32 * e.n.toNat) 32) t
    (new.tcache.filter fun e => !old.tcache.any (·.n = e.n)).foldl (fun t e => t.touch (x.troot.toNat + 128 * e.n.toNat) 128) t

/-- The end of a step from `s` whose event has led to `t`. Where a request of the event stands behind others that wait for its line
(10 R259), where a die link that it crosses is not up (17 R352), or where its pseudo-channel is in self-refresh (01 R24), the event has
not taken place, and its traffic is due at those links and waits for the exit. -/
def State.overLinks (s t : State) : State :=
  let t := if s.refresh.any (·.asleep) then allCores.foldl s.touchEntries t else t
  let bad := t.crossed.filter fun i => !s.linksUp [i]
  if t.behind then s
  else if bad.isEmpty && t.slept.isEmpty then { t.carried t.crossed with crossed := [] }
  else (s.awaitLinks bad 0).awaitRefresh t.slept

/-! ### Accesses that act at once -/

/-- The pieces of a byte range that each lie in one line: the address and how many bytes. -/
def linePieces : Nat → Nat → Nat → List (Nat × Nat)
  | 0, _, _ => []
  | fuel + 1, a, n =>
    if n = 0 then []
    else
      let m := min n (128 - a % 128)
      (a, m) :: linePieces fuel (a + m) (n - m)

def piecesOf (a n : Nat) : List (Nat × Nat) := linePieces (n / 128 + 2) a n

/-- How an engine of a core reaches memory: through which kind of handle, its version and mode, whether it is a copy engine, and whether
its reads have acquire order. -/
structure Via where
  peer   : Bool := false
  wvm    : Bool := true
  wv     : BitVec 32 := 0
  stream : Bool := false
  copy   : Bool := false
  acq    : Bool := false
  deriving DecidableEq, Repr

def viaHandle (h : Handle) (copy : Bool) : Via := { peer := h.space == .peer, wvm := h.wvm, wv := h.wv, stream := h.stream, copy := copy }

def Core.access? (k : Core) (id : Nat) : Option Access := k.acc.find? (·.id = id)

/-- The leaf and context with which a core's part is performed. -/
def State.partLeaf (s : State) (c : CoreId) (va : Nat) : Option (Leaf × BitVec 10) :=
  match (s.core c).ctxId, (s.core c).leaves.find? (·.maps va) with
  | some x, some l => some (l, x)
  | _, _ => none

/-- The line that an ingress request waits for. -/
def State.reqLine (s : State) (r : SliceReq) : Option Nat :=
  match (s.core r.core).access? r.id with
  | none => none
  | some a =>
    match a.parts[r.part]? with
    | none => none
    | some p => (s.partLeaf r.core p.va.toNat).map fun (l, x) => lineOf (s.redirect (s.partOf x) (l.phys p.va.toNat))

/-- Requests wait for a line at its slice: for a miss in flight or for an MSHR (10 R259). -/
def State.lineAwaited (s : State) (line : Nat) : Bool :=
  s.mshrs.any (fun m => m.line = line) || s.ingress.any fun q => s.reqLine q.2 = some line

/-- The leaf of an address with every check of a read, write or atomic done; near and far lines only. A request of an engine comes behind
those that wait for its line (10 R259). -/
def State.reach (s : State) (c : CoreId) (ctx : BitVec 10) (v : Via) (w : Want) (va : Nat) : State × Except FaultRec Leaf :=
  match s.translate c va with
  | (s, .error f) => (s, .error (memFaultRec va w.isWrite f))
  | (s, .ok l) =>
    match s.leafCheck ctx v.peer w l with
    | some f => (s, .error (leafFaultRec va w.isWrite l f))
    | none =>
      let far := s.farCheck (s.partOf ctx) l (l.phys va) v.copy
      let s := s.updCore c (countTier far)
      match far.fault with
      | some f => (s.updCore c (countMiss f.code), .error (leafFaultRec va w.isWrite l f))
      | none =>
        let part := s.partOf ctx
        let line := lineOf (s.redirect part (l.phys va))
        let ord := s.ordDie part line
        let s := if s.lineAwaited line then { s with behind := true } else s
        let path := if (s.pairAt part (l.phys va)).isSome then idieHop c.die else dieHop c.die ord ++ if far.port then idieHop ord else []
        (s.cross path, .ok l)

/-! ### What a group knows of lines (10 R254, R255; log 12) -/

/-- What a group that reads a line learns (10 R254): with an acquire it knows the lines published with it, and otherwise once an acquire
FENCE follows. -/
def State.learn (s : State) (c : CoreId) (line : Nat) (acq : Bool) : State :=
  let new := (s.published.filter (·.1 = line)).map (·.2)
  if new.isEmpty then s
  else s.updCore c fun k =>
    if acq then { k with narrow := new ++ k.narrow.filter fun n => !new.contains n }
    else { k with heard := new ++ k.heard.filter fun n => !new.contains n }

/-- A line whose last value a group knows while copies of it are left. -/
def Core.noteLine (k : Core) (line : Nat) : Core := { k with narrow := line :: k.narrow.filter (· ≠ line) }

/-- A line whose value a group has read while copies of it with other tags live on: none may be left on its own die, and the others are
noted (10 R255). -/
def State.noteRead (s : State) (c : CoreId) (line : Nat) (seq : BitVec 32) : State :=
  if s.slices.any fun l => l.line = line && l.shared && l.seq ≠ seq then
    let s := { s with slices := s.slices.filter fun l => !(l.line = line && l.shared && l.die = c.die && l.seq ≠ seq) }
    if s.slices.any fun l => l.line = line && l.shared && l.seq ≠ seq then s.updCore c (·.noteLine line) else s
  else s

/-- The sequence tag of a line at its ordering point (10 R260). -/
def State.lineTag (s : State) (line : Nat) : BitVec 32 := ((s.ownLine line).map (·.seq)).getD 0

/-- A group has read a line at its ordering point. -/
def State.tookLine (s : State) (c : CoreId) (line : Nat) (acq : Bool) : State :=
  (s.noteRead c line (s.lineTag line)).learn c line acq

/-- Bytes of one line read for an engine of a core. Whether a fill or another engine read may be served from a shared copy of the die, as
R250 lets a load be, is left open: the model reads at the ordering point (log 103). What a write-back merges with it reads under W (16
R334). -/
def State.readPiece (s : State) (c : CoreId) (ctx : BitVec 10) (v : Via) (va n : Nat) (w : Want := .read) :
    State × Except FaultRec (List Byte) :=
  match s.reach c ctx v w va with
  | (s, .error f) => (s, .error f)
  | (s, .ok l) =>
    match s.keyTag ctx l.key with
    | none =>
      let f := s.keyFault ctx l.key w.isWrite
      (s.noteIntegrity c f, .error (leafFaultRec va w.isWrite l f))
    | some k =>
      match s.readLine (s.partOf ctx) k (l.phys va) n v.stream with
      | (s, .error f) => (s.noteIntegrity c f, .error (leafFaultRec va w.isWrite l f))
      | (s, .ok b) => (s.tookLine c (lineOf (s.redirect (s.partOf ctx) (l.phys va))) v.acq, .ok b)

/-- Bytes read for an engine of a core, line by line; the first failing line ends it. -/
def State.readVaPieces (s : State) (c : CoreId) (ctx : BitVec 10) (v : Via) :
    List (Nat × Nat) → List Byte → State × Except FaultRec (List Byte)
  | [], acc => (s, .ok acc)
  | (a, n) :: rest, acc =>
    match s.readPiece c ctx v a n with
    | (s, .error f) => (s, .error f)
    | (s, .ok b) => s.readVaPieces c ctx v rest (acc ++ b)

def State.readVa (s : State) (c : CoreId) (ctx : BitVec 10) (v : Via) (va n : Nat) : State × Except FaultRec (List Byte) :=
  s.readVaPieces c ctx v (piecesOf va n) []

/-- One write of bytes at offsets of the line at an address, for an engine of a core; the shared copies of the
line on all dies are dropped with it, whatever the scope of the operation; how long copies outside that scope live on R249 leaves open
(log 104). -/
def State.writeVaOffsets (s : State) (c : CoreId) (ctx : BitVec 10) (v : Via) (va : Nat) (bs : List (Nat × Byte)) :
    State × Option FaultRec :=
  match s.reach c ctx v .write va with
  | (s, .error f) => (s, some f)
  | (s, .ok l) =>
    match s.keyTag ctx l.key with
    | none => (s, some (leafFaultRec va true l (memFault 0x030C 1)))
    | some k =>
      match s.writeOffsets (s.partOf ctx) ⟨k, v.wv, v.wvm || l.wvm⟩ (l.phys va) bs v.stream with
      | .error f => (s.noteIntegrity c f, some (leafFaultRec va true l f))
      | .ok s => (s.dropCopies [0, 1, 2, 3] (lineOf (l.phys va)), none)

/-- Bytes of one line written for an engine of a core. -/
def State.writePiece (s : State) (c : CoreId) (ctx : BitVec 10) (v : Via) (va : Nat) (b : List Byte) : State × Option FaultRec :=
  s.writeVaOffsets c ctx v va (atOffset (va % 128) b)

def State.writeVaPieces (s : State) (c : CoreId) (ctx : BitVec 10) (v : Via) :
    List (Nat × Nat) → List Byte → State × Option FaultRec
  | [], _ => (s, none)
  | (a, n) :: rest, b =>
    match s.writePiece c ctx v a (b.take n) with
    | (s, some f) => (s, some f)
    | (s, none) => s.writeVaPieces c ctx v rest (b.drop n)

def State.writeVa (s : State) (c : CoreId) (ctx : BitVec 10) (v : Via) (va : Nat) (b : List Byte) : State × Option FaultRec :=
  s.writeVaPieces c ctx v (piecesOf va b.length) b

/-- Every part that waits for a page fails (16 R331). -/
def failParts (va : Nat) (f : MemFault) (k : Core) : Core :=
  { k with
    acc := k.acc.map fun a =>
      { a with parts := a.parts.map fun p =>
          if p.stage = .sent && p.va.toNat / 65536 = va / 65536 then
            { p with stage := .failed (memFaultRec p.va.toNat (p.op != .load) f) }
          else p } }

/-- A core's translation caches hold entries of a context. -/
def Core.caches (k : Core) (ctx : BitVec 10) : Bool := k.owner = some ctx || k.ctxId = some ctx

/-- Cached leaves and non-leaf entries discarded on every core that holds entries of a context (16 R333, R342). -/
def State.discard (s : State) (ctx : BitVec 10) (leaf : Leaf → Bool) (nonleaf : NonLeaf → Bool) : State :=
  { s with cores := s.cores.map fun k =>
      if k.caches ctx then { k with leaves := k.leaves.filter (!leaf ·), nonleaf := k.nonleaf.filter (!nonleaf ·) } else k }

/-- An access of a core that has used a cached leaf is neither performed nor faulted. -/
def Core.using (k : Core) (leaf : Leaf → Bool) : Bool :=
  k.acc.any fun a => !a.raised && a.parts.any fun p =>
    (match p.stage with
      | .atSlice | .done _ _ _ _ => true
      | _ => false) && k.leaves.any fun l => leaf l && l.maps p.va.toNat

/-- A record that a core sent through a leaf of its own is neither acknowledged nor refused: a fabric write or atomic, or part of a copy
or a write-back. -/
def State.sentThrough (s : State) (c : CoreId) (leaf : Leaf → Bool) : Bool :=
  s.links.any fun x => x.2.tx.any fun f => !f.lost && f.records.any fun t =>
    t.core = c && (s.core c).leaves.any fun l => leaf l && l.maps t.va

/-- R333, R342: no access that used a leaf is in flight on a core that holds entries of a context. -/
def State.unused (s : State) (ctx : BitVec 10) (leaf : Leaf → Bool) : Bool :=
  allCores.all fun c => !((s.core c).caches ctx && ((s.core c).using leaf || s.sentThrough c leaf))

end Sys2Proof.Machine
end

