-- ==== Sys2Proof/Machine/Access.lean ====
section
/-! DEFINITION. The A slot's accesses to memory and the local store: LD, ST, LDL, STL, LDQ, STQ, the atomics, FENCE and QJOIN
(06 R130 to R142), the order in which a slot's accesses may be performed (06 R133, 10 R251), and their arrival at slices and
return: slice requests, fills and ownership of lines (10 R247 to R261, 06 R139). -/

namespace Sys2Proof.Machine

open Sys2Proof

/-! ### Forming an address (06 R130) -/

/-- The storage kind of a handle's accesses. -/
def Space.kind (sp : Space) : SKind := if sp == .peer then .p else .g

/-- SSC names a storage kind. -/
def sscNames (x : Ssc) (k : SKind) : Bool :=
  match k with
  | .l => x.l
  | .g => x.g
  | .p => x.p
  | .t => x.t

def handleFault (n : BitVec 12) : FaultRec := { code := 0x0301, aux := n.setWidth 64 }

/-- The handle entry read at issue; an invalid one raises the handle fault. -/
def getHandle (n : BitVec 12) : LaneM Handle := fun s =>
  let (s, e) := s.handleEntry s.cur.1 n
  match handleOf n e with
  | some h => .ok (h, s)
  | none => .error (.fault (handleFault n))

/-- The virtual address of an F3 access, with the checks of R130 in their order: handle, SSC, peer load, bound, alignment. -/
def handleAddr (ad : Addr) (ssc : Ssc) (size align : Nat) (load : Bool) : LaneM (Handle × BitVec 56) := do
  let a ← readS ad.fa
  let h ← getHandle ad.hdl
  guardFault (sscNames ssc h.space.kind) (handleFault ad.hdl)
  let o : Int := a.toInt + ad.off.toInt
  let va : Int := h.base + o
  guardFault (!(load && h.space == .peer)) { code := 0x0305, addr := BitVec.ofInt 64 va }
  guardFault (0 ≤ o && o + size ≤ h.bound) { code := 0x0302, aux := ad.hdl.setWidth 64, addr := BitVec.ofInt 64 o }
  guardFault (va % align = 0) (alignFault va)
  return (h, BitVec.ofInt 56 va)

/-- The local offset of an access with the checks of R130, steps 3, 5 and 6. -/
def localAddr (ad : Addr) (ssc : Ssc) (size align : Nat) (store : Bool) : LaneM Nat := do
  let off ← localOffset ad
  let g ← getGroup
  guardFault ssc.l (handleFault 0)
  guardFault (0 ≤ off && (if store then g.layout.writable off.toNat size else g.layout.readable off.toNat size))
    (rangeFault g.layout off size)
  guardFault (off % align = 0) (alignFault off)
  guardStall (!rangeStalls (← getCore) store off.toNat size)
  return off.toNat

/-! ### Issuing an access -/

/-- The request tags that a slot's outstanding parts use (02 R49). -/
def tagsUsed (k : Core) (sl : Slot) : Nat := ((k.acc.filter (·.slot == sl)).map fun a => a.parts.length).sum

/-- The request tags that an engine queue's outstanding requests use: the records its operations have sent and, of e0, the tile lines
that are filled or written back (02 R49; log 77). -/
def queueTags (k : Core) (e : Fin 6) : Nat :=
  (k.e[e].ops.map fun o => o.sent.length).sum + if e = 0 then (k.lines.filter (·.base != .valid)).length else 0

/-- The shared tags in use, beyond the sixteen reserved for each slot and engine queue: at most 1888, as the tile lines that find none
left wait in e0 (02 R49). -/
def sharedTags (k : Core) : Nat :=
  min 1888 ((allSlots.map fun x => tagsUsed k x - 16).sum + ((List.finRange 6).map fun e => queueTags k e - 16).sum)

/-- A slot or an engine queue that uses `u` tags may take `n` more: of the sixteen reserved for it, or of the shared ones that are left
(02 R49). -/
def tagsFit (k : Core) (u n : Nat) : Bool := u + n ≤ 16 || sharedTags k + (u + n - max u 16) ≤ 1888

/-- Whether a slot can take `n` more tags. -/
def tagRoom (k : Core) (sl : Slot) (n : Nat) : Bool := tagsFit k (tagsUsed k sl) n

/-- Whether an engine queue can take one more tag. -/
def queueTag (k : Core) (e : Fin 6) : Bool := tagsFit k (queueTags k e) 1

/-- The number that the next access or engine operation of the core takes. -/
def nextId : LaneM Nat := do return (← getCore).nextId

/-- The scoreboard slot that SBS names is raised (02 R45). -/
def sbUp (sbs : Option (Fin 8)) (t : SlotState) : SlotState :=
  match sbs with
  | none => t
  | some i => { t with sb := t.sb.set i (t.sb[i] + 1) }

def sbDown (sbs : Option (Fin 8)) (t : SlotState) : SlotState :=
  match sbs with
  | none => t
  | some i => { t with sb := t.sb.set i (t.sb[i] - 1) }

/-- A page that an access misses: a walk starts, or the access joins one in flight. Of the walks taken the first 32 are in flight, and
the others wait for one of them to end (16 R332). -/
def missPage (k : Core) (va : Nat) : Core :=
  if k.leaves.any (·.maps va) then k
  else if k.walksPage va then { k with xjoin := count k.xjoin }
  else { k with walks := k.walks ++ [⟨va / 65536, []⟩], xwalk := count k.xwalk }

/-- The fields that every access shares, for an access of the issuing lane. -/
def freshAccess (h : Head) (id : Nat) (sl : Slot) (n : BitVec 32) (kind : AccKind) (sk : SKind) (o : Order) (dest : Dest) :
    Access where
  id := id
  slot := sl
  bundle := n
  sbs := h.sbs
  kind := kind
  sk := sk
  asc := o.asc
  ssc := o.ssc
  ord := o.ord
  dest := dest
  ty := .n64
  stream := h.ch == .stream
  wvm := true
  wv := 0
  peer := false
  dropped := false
  push := none
  parts := []
  units := []
  raised := false

/-- A core that an access has entered: it has taken its number and its scoreboard slot, and its pages are translated. -/
def withAccess (a : Access) (k : Core) : Core :=
  let k := { k with acc := k.acc ++ [a], nextId := k.nextId + 1 }
  (a.parts.foldl (fun k p => missPage k p.va.toNat) k).updSlot a.slot (sbUp a.sbs)

/-- An access enters the core's list, where the slot has tags for its parts (02 R49). -/
def issueAccess (a : Access) : LaneM Unit := do
  let k ← getCore
  guardStall (tagRoom k a.slot a.parts.length)
  modCore (withAccess a)

/-- An access through a handle: its parts and how its writes are stamped. -/
def handleAccess (a : Access) (hd : Handle) (ty : Fmt) (parts : List Part) : Access :=
  { a with
    ty := ty
    stream := a.stream || hd.stream
    wvm := hd.wvm
    wv := hd.wv
    peer := hd.space == .peer
    parts := parts }

/-- LD (06 R135). -/
def ldBody (h : Head) (o : LdOp) : LaneM Unit := do
  let (hd, va) ← handleAddr o.ad o.o.ssc o.ty.bytes o.ty.bytes true
  let id ← nextId
  let dest ← reserveDest o.d id
  let a := freshAccess h id (← curSlot) (← curBundle) (.mem .add true false) .g o.o dest
  issueAccess (handleAccess a hd o.ty [⟨va, o.ty.bytes, .load, .sent⟩])

def execLd (h : Head) (o : LdOp) (s : State) : Out := lane h (ldBody h o) s

/-- ST (06 R135). -/
def stBody (h : Head) (o : StOp) : LaneM Unit := do
  let (hd, va) ← handleAddr o.ad o.o.ssc o.ty.bytes o.ty.bytes false
  let b ← readS o.b
  let a := freshAccess h (← nextId) (← curSlot) (← curBundle) (.mem .add false true) hd.space.kind o.o .none
  issueAccess (handleAccess a hd o.ty [⟨va, o.ty.bytes, .store (natLe o.ty.bytes b.toNat), .sent⟩])

def execSt (h : Head) (o : StOp) (s : State) : Out := lane h (stBody h o) s

/-- LDL (06 R135). -/
def ldlBody (h : Head) (o : LdOp) : LaneM Unit := do
  let off ← localAddr o.ad o.o.ssc o.ty.bytes o.ty.bytes false
  let id ← nextId
  let dest ← reserveDest o.d id
  issueAccess { freshAccess h id (← curSlot) (← curBundle) (.lstore off o.ty.bytes none) .l o.o dest with ty := o.ty }

def execLdl (h : Head) (o : LdOp) (s : State) : Out := lane h (ldlBody h o) s

/-- STL (06 R135). -/
def stlBody (h : Head) (o : StOp) : LaneM Unit := do
  let off ← localAddr o.ad o.o.ssc o.ty.bytes o.ty.bytes true
  let b ← readS o.b
  issueAccess { freshAccess h (← nextId) (← curSlot) (← curBundle)
    (.lstore off o.ty.bytes (some (natLe o.ty.bytes b.toNat))) .l o.o .none with ty := o.ty }

def execStl (h : Head) (o : StOp) (s : State) : Out := lane h (stlBody h o) s

/-- The 32 line addresses of a 4 KiB transfer (06 R132). -/
def linesOf (va : BitVec 56) : List (BitVec 56) := (List.range 32).map fun i => va + BitVec.ofNat 56 (128 * i)

/-- LDQ, handle form (06 R136). -/
def ldqBody (h : Head) (o : QMemOp) : LaneM Unit := do
  let (hd, va) ← handleAddr o.ad o.o.ssc 4096 128 true
  let id ← nextId
  let dest ← reserveDest o.q id
  let a := freshAccess h id (← curSlot) (← curBundle) (.mem .add true false) .g o.o dest
  issueAccess (handleAccess a hd .n64 ((linesOf va).map fun v => ⟨v, 128, .load, .sent⟩))

def execLdq (h : Head) (o : QMemOp) (s : State) : Out := lane h (ldqBody h o) s

/-- LDQ, local form (06 R136). -/
def ldqLocalBody (h : Head) (o : QMemOp) : LaneM Unit := do
  let off ← localAddr o.ad o.o.ssc 4096 128 false
  let id ← nextId
  let dest ← reserveDest o.q id
  issueAccess (freshAccess h id (← curSlot) (← curBundle) (.lstore off 4096 none) .l o.o dest)

def execLdqLocal (h : Head) (o : QMemOp) (s : State) : Out := lane h (ldqLocalBody h o) s

/-- The entry that an STQ pops (06 R136). -/
def popStq (o : Operand) : LaneM VReg :=
  match o.name with
  | .q n => popVector n.val false
  | _ => illegal

/-- STQ, handle form (06 R136). -/
def stqBody (h : Head) (o : QMemOp) : LaneM Unit := do
  let (hd, va) ← handleAddr o.ad o.o.ssc 4096 128 false
  let v ← popStq o.q
  let a := freshAccess h (← nextId) (← curSlot) (← curBundle) (.mem .add false true) hd.space.kind o.o .none
  let part := fun (i : Nat) => (⟨va + BitVec.ofNat 56 (128 * i), 128, .store (bytesOf v (128 * i) 128), .sent⟩ : Part)
  issueAccess (handleAccess a hd .n64 ((List.range 32).map part))

def execStq (h : Head) (o : QMemOp) (s : State) : Out := lane h (stqBody h o) s

/-- STQ, local form (06 R136). -/
def stqLocalBody (h : Head) (o : QMemOp) : LaneM Unit := do
  let off ← localAddr o.ad o.o.ssc 4096 128 true
  let v ← popStq o.q
  issueAccess (freshAccess h (← nextId) (← curSlot) (← curBundle) (.lstore off 4096 (some (bytesOf v 0 4096))) .l o.o .none)

def execStqLocal (h : Head) (o : QMemOp) (s : State) : Out := lane h (stqLocalBody h o) s

/-- An atomic (06 R137, R138): cas reads its destination as the expected value. -/
def atomicBody (op : AOp) (h : Head) (o : AtOp) : LaneM Unit := do
  let (hd, va) ← handleAddr o.ad o.o.ssc o.ty.bytes o.ty.bytes false
  let b ← readS o.b
  let expect ← match op, o.d with
    | .cas, some d => readS d
    | _, _ => pure 0
  let id ← nextId
  let dest ← match o.d with
    | some d => reserveDest d id
    | none => pure Dest.none
  let a := freshAccess h id (← curSlot) (← curBundle) (.mem op o.d.isSome true) hd.space.kind o.o dest
  issueAccess (handleAccess a hd o.ty [⟨va, o.ty.bytes, .atomic op b expect, .sent⟩])

def execAadd (h : Head) (o : AtOp) (s : State) : Out := lane h (atomicBody .add h o) s
def execAmin (h : Head) (o : AtOp) (s : State) : Out := lane h (atomicBody .min h o) s
def execAmax (h : Head) (o : AtOp) (s : State) : Out := lane h (atomicBody .max h o) s
def execAand (h : Head) (o : AtOp) (s : State) : Out := lane h (atomicBody .and h o) s
def execAor (h : Head) (o : AtOp) (s : State) : Out := lane h (atomicBody .or h o) s
def execAxor (h : Head) (o : AtOp) (s : State) : Out := lane h (atomicBody .xor h o) s
def execAxchg (h : Head) (o : AtOp) (s : State) : Out := lane h (atomicBody .xchg h o) s
def execAcas (h : Head) (o : AtOp) (s : State) : Out := lane h (atomicBody .cas h o) s
def execAfadd (h : Head) (o : AtOp) (s : State) : Out := lane h (atomicBody .fadd h o) s

/-- FENCE (06 R141). -/
def fenceBody (h : Head) (o : FenceOp) : LaneM Unit := do
  issueAccess (freshAccess h (← nextId) (← curSlot) (← curBundle) (.fence o.engines) .g o.o .none)

def execFence (h : Head) (o : FenceOp) (s : State) : Out := lane h (fenceBody h o) s

/-- QJOIN (06 R142). -/
def qjoinBody (h : Head) (mask : BitVec 6) : LaneM Unit := do
  let o : Order := ⟨.slot, {}, .rlx⟩
  issueAccess (freshAccess h (← nextId) (← curSlot) (← curBundle) (.qjoin mask) .l o .none)

def execQjoin (h : Head) (o : BitVec 6) (s : State) : Out := lane h (qjoinBody h o) s

/-! ### Order of performance (06 R133, R141, R142; 10 R251) -/

def acquires (o : Ord) : Bool := o == .acq || o == .ar
def releases (o : Ord) : Bool := o == .rel || o == .ar

def AccKind.isFence (k : AccKind) : Bool :=
  match k with
  | .fence _ => true
  | _ => false

def AccKind.isQjoin (k : AccKind) : Bool :=
  match k with
  | .qjoin _ => true
  | _ => false

/-- The access is one that orders and is ordered: no QJOIN, and no FENCE as a covered access. -/
def Access.plain (a : Access) : Bool := !a.kind.isFence && !a.kind.isQjoin

/-- An earlier access of the slot holds a later one back: as an acquire over its kind, or as covered by its release. -/
def holdsBack (b a : Access) : Bool :=
  b.slot == a.slot && b.id < a.id &&
    ((acquires b.ord && sscNames b.ssc a.sk && !b.kind.isQjoin) || (releases a.ord && sscNames a.ssc b.sk && b.plain))

/-- An operation of e4 that is an access of kind P of its slot: a fabric write, a fabric atomic or a landing write (10 R246). -/
def EngOp.isPeerAccess (o : EngOp) : Bool :=
  match o.kind with
  | .fwr _ _ _ | .fatom _ _ _ _ _ | .lzput _ _ => true
  | _ => false

/-- The earlier operations of e4 that are accesses of a slot and are not performed. An operation whose token alone is held is complete
(02 R34). -/
def peerOps (k : Core) (sl : Slot) (id : Nat) : List EngOp :=
  k.e[(4 : Fin 6)].ops.filter fun o => o.slot == sl && o.id < id && o.isPeerAccess && !o.held

/-- A release over P covers the slot's earlier accesses through e4 (10 R246, R251). -/
def coversPeer (k : Core) (a : Access) : Bool := releases a.ord && a.ssc.p && !(peerOps k a.slot a.id).isEmpty

/-- An earlier FATOM of the slot with acquire order over the access's kind (10 R251, 17 R368). -/
def behindFatom (k : Core) (a : Access) : Bool := (peerOps k a.slot a.id).any fun o => acquires o.ord && sscNames o.ssc a.sk

/-- An access may be performed: no earlier access of its slot holds it back. -/
def mayPerform (k : Core) (a : Access) : Bool := (k.acc.all fun b => !holdsBack b a) && !coversPeer k a && !behindFatom k a

/-- An earlier operation of an engine queue that is not complete; one whose token alone is held is (02 R34, 06 R150). -/
def engineBefore (k : Core) (id : Nat) (qs : List (Fin 6)) : Bool := qs.any fun e => k.e[e].ops.any fun o => o.id < id && !o.held

/-- FENCE may be performed: under release every covered access and, with E, every earlier operation of e1 to e4 (06 R141). -/
def fenceReady (k : Core) (a : Access) (engines : Bool) : Bool :=
  !releases a.ord ||
    ((k.acc.all fun b => !(b.slot == a.slot && b.id < a.id && sscNames a.ssc b.sk && b.plain)) && !coversPeer k a &&
      (!engines || !engineBefore k a.id [1, 2, 3, 4]))

/-- An access that is performed at issue waits until no earlier access of its slot holds it back (06 R133). -/
def guardOrder (h : Head) (k : SKind) (o : Order) : LaneM Unit := do
  let a := freshAccess h (← nextId) (← curSlot) (← curBundle) (.lstore 0 0 none) k o .none
  guardStall (mayPerform (← getCore) a)

/-- The order fields of an access that has none. -/
def noOrder : Order := ⟨.slot, {}, .rlx⟩

/-- The queues of a QJOIN mask. -/
def maskQueues (m : BitVec 6) : List (Fin 6) := (List.finRange 6).filter fun i => m.getLsbD i.val

/-- An operation of a queue may begin: no QJOIN before it waits for an earlier operation (06 R142). -/
def engineMayBegin (k : Core) (e : Fin 6) (id : Nat) : Bool :=
  k.acc.all fun a =>
    match a.kind with
    | .qjoin m => !(a.id < id && m.getLsbD e.val && engineBefore k a.id (maskQueues m))
    | _ => true

/-! ### Retiring an access -/

def Core.setAccess (k : Core) (a : Access) : Core := { k with acc := k.acc.map fun x => if x.id = a.id then a else x }

/-- An access is performed: it leaves the list and its scoreboard slot is lowered (02 R45, R46). -/
def retire (a : Access) (k : Core) : Core :=
  { k with acc := k.acc.filter (·.id ≠ a.id) }.updSlot a.slot (sbDown a.sbs)

/-- A value written to an access's destination. -/
def deliverTo (sl : Slot) (id : Nat) (dropped : Bool) (d : Dest) (v : Word) (k : Core) : Core :=
  match d with
  | .none => k
  | .sreg n => if dropped then k else k.updSlot sl fun t => { t with s := t.s.set n v }
  | .queue q => { k with q := k.q.set (scalarQ q.val) (fillEntry id v k.q[scalarQ q.val]) }

def deliver (a : Access) (v : Word) (k : Core) : Core := deliverTo a.slot a.id a.dropped a.dest v k

/-- A 4 KiB value written to a reserved entry. -/
def deliverVec (a : Access) (v : VReg) (k : Core) : Core :=
  match a.dest with
  | .queue q => { k with vq := k.vq.set (vectorQ q.val) (fillEntry a.id v k.vq[vectorQ q.val]) }
  | _ => k

/-- A pending asynchronous fault of an access (06 R132). -/
def pendAccess (a : Access) (f : FaultRec) (k : Core) : Core :=
  let r : PendFault := ⟨{ f with src := Slot.src a.slot, bundle := a.bundle }, .access a.id⟩
  ({ k with pend := k.pend ++ [r] }).setAccess { a with raised := true }

/-- The dies whose slices a scope covers, narrowed to the context's view (10 R245, R249). -/
def State.scopeDies (s : State) (c : CoreId) (asc : Scope) : List (Fin 4) :=
  let x := (s.core c).ctxId.bind s.ctx?
  let view := (x.map (·.view)).getD 0
  let mine := (x.map fun x => s.partDies x.part).getD [c.die]
  match asc with
  | .slot | .group | .die => [c.die]
  | .device => if view = 2 then [c.die] else mine
  | .package => if view = 2 then [c.die] else if view = 1 then mine else [0, 1, 2, 3]
  | .fabric => [0, 1, 2, 3]

/-- A release at a scope: the copies of lines whose last value the group knows are dropped within it (10 R249, R254; log 12). -/
def State.releaseAt (s : State) (c : CoreId) (asc : Scope) : State :=
  let dies := s.scopeDies c asc
  let s' := (s.core c).narrow.foldl (fun s l => s.dropCopies dies l) s
  if dies.length = 4 then s'.updCore c fun k => { k with narrow := [] } else s'

/-- What a group that writes a line publishes with it (10 R254): the lines whose last value it knows, where the write is a release, or
those it knew at its last release FENCE. Lines that no copy is left of need no note. -/
def State.publish (s : State) (c : CoreId) (line : Nat) (rel : Bool) : State :=
  let k := s.core c
  let known := (if rel then k.narrow else k.fenced).filter fun n => s.slices.any fun l => l.line = n && l.shared
  { s with published := known.map (fun n => (line, n)) ++ s.published.filter fun x => !(x.1 = line && known.contains x.2) }

/-- A FENCE performed: a release takes effect within its scope and what the group knows then is published with its later writes, and an
acquire adds what its earlier reads found published (10 R254). -/
def State.fenced (s : State) (c : CoreId) (o : Ord) (asc : Scope) : State :=
  let s := if acquires o then s.updCore c fun k =>
    { k with narrow := k.heard ++ k.narrow.filter fun n => !k.heard.contains n, heard := [] } else s
  if releases o then (s.releaseAt c asc).updCore c fun k => { k with fenced := k.narrow } else s

/-- A store or atomic of a line is acknowledged at its scope (10 R249); where copies outside the scope are left, the line is
noted. -/
def State.ackLine (s : State) (c : CoreId) (asc : Scope) (also : BitVec 4) (line : Nat) : State :=
  let dies := s.scopeDies c asc ++ ((List.finRange 4).filter fun d => also.getLsbD d.val)
  let s := s.dropCopies dies line
  if s.slices.any fun l => l.line = line && l.shared then s.updCore c (·.noteLine line) else s

/-! ### Slices (10 R258 to R261) -/

/-- The outcome of a part at its ordering point. -/
def State.performPart (s : State) (c : CoreId) (a : Access) (p : Part) (l : Leaf) (ctx : BitVec 10) : State × PartStage :=
  let part := s.partOf ctx
  let pa := l.phys p.va.toNat
  match s.keyTag ctx l.key with
  | none =>
    let f := s.keyFault ctx l.key (p.op != .load)
    (s.noteIntegrity c f, .failed (leafFaultRec p.va.toNat (p.op != .load) l f))
  | some k =>
    let w : Stamping := ⟨k, a.wv, a.wvm || l.wvm⟩
    let fail := fun (s : State) (f : MemFault) =>
      (s.noteIntegrity c f, PartStage.failed (leafFaultRec p.va.toNat (p.op != .load) l f))
    let line := lineOf (s.redirect part pa)
    let tag := fun (s : State) => s.lineTag line
    let die := s.ordDie part (lineOf pa)
    let at' := some (line, s.homeSlice part die pa)
    let reads := fun (s : State) => s.tookLine c line (acquires a.ord)
    let writes := fun (s : State) => s.publish c line (releases a.ord)
    match p.op with
    | .load =>
      match s.readLine part k pa p.len a.stream with
      | (s, .error f) => fail s f
      | (s, .ok b) => (reads s, .done (BitVec.ofNat 1024 (leNat b)) 0 die at')
    | .store b =>
      match s.writeLine part w pa b a.stream with
      | .error f => fail s f
      | .ok s => (writes s, .done 0 (tag s) die at')
    | .atomic op b e =>
      match s.atomicLine part w pa op a.ty b.toNat e.toNat a.stream with
      | (s, .error f) => fail s f
      | (s, .ok old) => (writes (reads s), .done (BitVec.ofNat 1024 old) (tag s) die at')
    | .bar op =>
      match s.barAct part w pa .program op with
      | (s, .fault f) => fail s f
      | (s, .refused case n) => (s, .failed (barrierFault p.va.toNat case n))
      | (s, .held) => ({ s with held := s.held ++ [.access c a.id] }, .atSlice)
      | (s, .done v) => (writes (reads s), .done (v.setWidth 1024) (tag s) die at')

/-- A part's stage written back into its access. -/
def Access.setPart (a : Access) (i : Nat) (g : PartStage) : Access :=
  { a with parts := a.parts.mapIdx fun j p => if j = i then { p with stage := g } else p }

def State.setPart (s : State) (c : CoreId) (id i : Nat) (g : PartStage) : State :=
  s.updCore c fun k => match k.access? id with
    | none => k
    | some a => k.setAccess (a.setPart i g)

/-- A waiting request performed: it takes its stage. -/
def State.serve (s : State) (r : SliceReq) : State :=
  match (s.core r.core).access? r.id with
  | none => s
  | some a =>
    match a.parts[r.part]? with
    | none => s
    | some p =>
      match s.partLeaf r.core p.va.toNat with
      | none => s.setPart r.core r.id r.part .sent
      | some (l, x) =>
        let s := if releases a.ord then s.releaseAt r.core a.asc else s
        let (s, g) := s.performPart r.core a p l x
        s.setPart r.core r.id r.part g

/-- The directory entry of a line; D starts at 32 (06 R139). -/
def State.dirOf (s : State) (line : Nat) : DirEntry :=
  (s.dir.find? (·.line = line)).getD ⟨line, none, 0, Vector.replicate 4 32, Vector.replicate 4 none⟩

def State.setDir (s : State) (e : DirEntry) : State := { s with dir := e :: s.dir.filter (·.line ≠ e.line) }

/-- Ownership of a line passes to a die, or to none where the home slice recalls it. A die that loses it within 256 slice cycles
has a bouncing line: its next request is delayed by D, which doubles with each further bounce up to 4096 (06 R139). `now` is a cycle
of the home die, whose directory counts how long the line was held, and `here` one of the die that loses it, which counts D. -/
def DirEntry.pass (e : DirEntry) (taker : Option (Fin 4)) (now here : Nat) : DirEntry :=
  match e.owner with
  | none => { e with owner := taker, since := now }
  | some o =>
    if taker = some o then e
    else if now - e.since < 256 then
      let d := if e.lost[o].isSome then min 4096 (2 * e.delay[o]) else 32
      { e with owner := taker, since := now, delay := e.delay.set o d, lost := e.lost.set o (some here) }
    else { e with owner := taker, since := now, delay := e.delay.set o 32, lost := e.lost.set o none }

/-- A request that waits at a slice is an atomic. -/
def State.waitsAtomic (s : State) (r : SliceReq) : Bool :=
  (((s.core r.core).access? r.id).bind (·.parts[r.part]?)).any fun p =>
    match p.op with
    | .atomic _ _ _ | .bar _ => true
    | _ => false

/-- An atomic of a core that waits for a line after a back-off: it is at no slice (06 R139). -/
def State.offSlice (s : State) (c : CoreId) (line : Nat) (a : Access) : Bool :=
  match a.parts with
  | [p] => p.stage = .atSlice && s.waitsAtomic ⟨c, a.id, 0⟩ && s.reqLine ⟨c, a.id, 0⟩ = some line && !s.isHeld (.access c a.id) &&
      !s.mshrs.any (fun m => m.waiting.contains ⟨c, a.id, 0⟩) && !s.ingress.any fun q => q.2 = ⟨c, a.id, 0⟩
  | _ => false

/-- A die has lost a bouncing line again: each of its atomics that waits out a back-off has a further delay, which is counted
(06 R139). -/
def State.countDelays (s : State) (die : Fin 4) (line : Nat) : State :=
  (allCores.filter (·.die = die)).foldl (fun s c =>
    s.updCore c fun k => { k with aboff := countN k.aboff (k.acc.filter (s.offSlice c line)).length }) s

/-- Ownership taken for an atomic of a core: the request goes to the home die, which recalls it from its owner; then it is the home die's
or the requester's (06 R139). The line moves with its sequence counter. -/
def State.takeOwnership (s : State) (part : BitVec 6) (c : CoreId) (line : Nat) : State :=
  let home := s.homeDie part (128 * line)
  let taker := if home = c.die then none else some c.die
  let e := s.dirOf line
  let next := e.pass taker (s.cycle home) ((e.owner.map s.cycle).getD 0)
  let s := (s.setDir next).cross (dieHop c.die home)
  let s := match e.owner with
    | none => s
    | some o => if taker = some o then s else
      let s := s.cross (dieHop home o)
      if next.lost[o].isSome then s.countDelays o line else s
  let place := s.homeSlice part c.die (128 * line)
  let s := if (s.ownLine line).any (·.die ≠ c.die) then s.makeRoom c.die place else s
  { s with slices := s.slices.map fun l => if l.line = line && !l.shared then { l with die := c.die, slice := place } else l }

/-- Another die owns the line and has not yet performed an atomic of its cores that waits at a slice for it (06 R139). -/
def State.ownerBusy (s : State) (c : CoreId) (line : Nat) : Bool :=
  match (s.dirOf line).owner with
  | none => false
  | some o =>
    let its := fun (r : SliceReq) => r.core.die = o && s.waitsAtomic r
    o ≠ c.die && (s.mshrs.any (fun m => m.line = line && m.waiting.any its) ||
      s.ingress.any fun q => its q.2 && s.reqLine q.2 = some line)

/-- The request must wait for its back-off: the die lost the line as a bouncing one and D cycles have not passed
since (06 R139). Whether D counts from the loss or from the next request R139 leaves open; it counts from the loss (log 105). -/
def State.backingOff (s : State) (part : BitVec 6) (c : CoreId) (line : Nat) : Bool :=
  let e := s.dirOf line
  s.homeDie part (128 * line) ≠ c.die && e.owner ≠ some c.die &&
    match e.lost[c.die] with
    | none => false
    | some t => s.cycle c.die < t + e.delay[c.die]

def MemOp.isAtomic (o : MemOp) : Bool :=
  match o with
  | .atomic _ _ _ => true
  | .bar _ => true
  | _ => false

/-- A load served from a shared copy on the reading core's die (10 R250). -/
def State.copyOf (s : State) (die : Fin 4) (line : Nat) : Option SliceLine :=
  s.slices.find? fun l => l.line = line && l.shared && l.die = die

/-- The slice of a die that serves a line of the partition it lies in. -/
def State.sliceAt (s : State) (die : Fin 4) (line : Nat) : Nat :=
  match s.partAt (128 * line) with
  | none => 0
  | some part => s.homeSlice part die (128 * line)

/-- The MSHRs in use at the slice of a die that serves a line. -/
def State.mshrsAt (s : State) (die : Fin 4) (line : Nat) : Nat :=
  (s.mshrs.filter fun m => m.die = die && s.sliceAt die m.line = s.sliceAt die line).length

/-- The sectors of its line that a waiting request needs to read (10 R259): those a load or an atomic touches and those a store covers
in part. -/
def State.needOf (s : State) (r : SliceReq) : BitVec 8 :=
  match ((s.core r.core).access? r.id).bind (·.parts[r.part]?) with
  | none => 0
  | some p =>
    match p.op with
    | .store b => sectorMask (partialSectors (atOffset (p.va.toNat % 128) b))
    | _ => sectorMask (touched (p.va.toNat % 128) p.len)

/-- A request that has reached its slice: performed on a hit of every sector it reads, appended behind a miss in flight or a waiting request of the line,
given an MSHR, or queued while all 64 are busy (10 R259). -/
def State.arrive (s : State) (die : Fin 4) (line : Nat) (r : SliceReq) : State :=
  let wait := s.setPart r.core r.id r.part .atSlice
  if s.mshrs.any fun m => m.line = line then
    { wait with mshrs := wait.mshrs.map fun m => if m.line = line then { m with waiting := m.waiting ++ [r] } else m }
  else if s.ingress.any fun q => s.reqLine q.2 = some line then { wait with ingress := wait.ingress ++ [(die, r)] }
  else if (s.ownLine line).any fun l => s.needOf r &&& ~~~ l.valid = 0 then s.serve r
  else if s.mshrsAt die line < 64 then { wait with mshrs := wait.mshrs ++ [⟨die, line, [r]⟩] }
  else { wait with ingress := wait.ingress ++ [(die, r)] }

/-- A slice line holds every sector that bytes touch. -/
def SliceLine.holds (l : SliceLine) (off n : Nat) : Bool := (touched off n).all fun i => l.valid.getLsbD i

/-- The shared copy on a core's die that serves a load: one that holds its bytes, where the choice is to use it (10 R250). No copy is
left of a line of a pair, and none that a performed write's scope covers: a load that issues after a relaxed poll has read the flag of 19 R395
sees the item (log 12). -/
def State.servingCopy (s : State) (c : CoreId) (p : Part) (ch : SliceChoice) (pa : Nat) : Option SliceLine :=
  if ch.useCopy && p.op = .load then (s.copyOf c.die (lineOf pa)).filter (·.holds (pa % 128) p.len) else none

/-- The die links that a request for a line crosses: to the die of its ordering point, and from there to a far port; or to the swap unit
of a pair (10 R248, 16 R336, R341). -/
def reqPath (c : CoreId) (ord : Fin 4) (inPair port : Bool) : List (BitVec 11 × Bool) :=
  if inPair then idieHop c.die else dieHop c.die ord ++ if port then idieHop ord else []

/-- A shared copy of a line left at the slice of a loading core's die, the next victim under the load's stream hint (06 R134). -/
def State.leaveCopy (s : State) (part : BitVec 6) (d : Fin 4) (o : SliceLine) (stream : Bool) : State :=
  let n := s.homeSlice part d (128 * o.line)
  let s := s.makeRoom d n
  { s with slices := s.slices ++ [{ o with die := d, slice := n, shared := true, dirty := 0, stream := stream }] }

/-- A load served by a shared copy (10 R250). What was published with the line's last value is learnt from a copy that holds it. -/
def State.loadCopy (s : State) (c : CoreId) (a : Access) (i : Nat) (p : Part) (l : Leaf) (key : KeyTag) (pa : Nat) (cp : SliceLine) :
    State :=
  match cp.read key (pa % 128) p.len with
  | .error f => (s.noteIntegrity c f).setPart c a.id i (.failed (leafFaultRec p.va.toNat false l f))
  | .ok b =>
    let s := s.noteRead c cp.line cp.seq
    let s := if (s.ownLine cp.line).all (·.seq = cp.seq) then s.learn c cp.line (acquires a.ord) else s
    s.setPart c a.id i (.done (BitVec.ofNat 1024 (leNat b)) 0 c.die none)

/-- A request that reaches the ordering point of its line, where an atomic takes the line's ownership first (06 R139). -/
def State.reachSlice (s : State) (c : CoreId) (part : BitVec 6) (id i : Nat) (p : Part) (pa : Nat) (inPair stream : Bool)
    (ch : SliceChoice) : State :=
  let line := lineOf pa
  let owns := p.op.isAtomic && !inPair
  if owns && s.backingOff part c line then (s.setPart c id i .atSlice).updCore c fun k => { k with aboff := count k.aboff }
  else
    let s := if owns then s.takeOwnership part c line else s
    let s := s.arrive (s.ordDie part line) line ⟨c, id, i⟩
    match s.ownLine line with
    | some o =>
      if ch.keepCopy && p.op = .load && o.die ≠ c.die && (s.copyOf c.die line).isNone && !inPair then s.leaveCopy part c.die o stream else s
    | none => s

/-- A part of an access reaches its slice. It does not while its translation is awaited, an earlier access holds it back, or the line's
owner has an atomic to perform first (06 R139). Its leaf's checks come first (16 R331); a load that a shared copy serves meets no check of a
far access (R336). -/
def State.sliceRequest (s : State) (c : CoreId) (id part : Nat) (ch : SliceChoice) : State :=
  let k := s.core c
  match k.access? id with
  | none => s
  | some a =>
    match a.parts[part]? with
    | none => s
    | some p =>
      match s.partLeaf c p.va.toNat with
      | none => s
      | some (l, x) =>
        if p.stage ≠ .sent || !mayPerform k a then s
        else
          let want : Want := if p.op.isAtomic then .atomic else if p.op = .load then .read else .write
          let fail := fun (s : State) (f : MemFault) =>
            s.setPart c id part (.failed (leafFaultRec p.va.toNat (p.op != .load) l f))
          match s.leafCheck x a.peer want l with
          | some f => fail s f
          | none =>
            if l.isPeer then s
            else
              let pt := s.partOf x
              let inPair := (s.pairAt pt (l.phys p.va.toNat)).isSome
              let pa := s.redirect pt (l.phys p.va.toNat)
              let line := lineOf pa
              let far := s.farCheck pt l (l.phys p.va.toNat) false
              match s.servingCopy c p ch pa, s.keyTag x l.key, l.isNear && far.fault.isSome with
              | some cp, some key, false => s.loadCopy c a part p l key pa cp
              | _, _, _ =>
                match far.fault with
                | some f => fail (s.updCore c (countTier far)) f
                | none =>
                  let ord := if p.op.isAtomic then s.homeDie pt (128 * line) else s.ordDie pt line
                  let path := reqPath c ord inPair far.port
                  if !s.linksUp path then s.awaitLinks path line
                  else if p.op.isAtomic && !inPair && s.ownerBusy c line then s
                  else
                    let s := (s.updCore c (countTier far)).carried path
                    let s := match ch.evict with
                      | none => s
                      | some e => if e = line || s.mshrs.any (·.line = e) then s else s.evictLine (s.ordDie pt line) e
                    s.reachSlice c pt id part p pa inPair a.stream ch

def AccKind.isArrival (k : AccKind) : Bool :=
  match k with
  | .bararv _ => true
  | _ => false

/-- SLICE_REQUEST_ARRIVAL (10 R259) of any access but a BARARV, whose arrival is BARRIER_ARRIVAL. -/
def execSliceRequestArrival (c : CoreId) (id part : Nat) (ch : SliceChoice) (s : State) : Out :=
  if ((s.core c).access? id).any (·.kind.isArrival) then .next s else .next (s.sliceRequest c id part ch)

/-- The first of a list of ingress requests whose slice has an MSHR free, with its line. -/
def State.nextIngress (s : State) (l : List (Fin 4 × SliceReq)) : Option (Fin 4 × Nat) :=
  l.findSome? fun q => (s.reqLine q.2).bind fun line => if s.mshrsAt q.1 line < 64 then some (q.1, line) else none

/-- A request that waited for a page whose translation the core no longer holds is sent anew. -/
def State.dropIngress (s : State) : State :=
  let gone := s.ingress.filter fun q => (s.reqLine q.2).isNone
  gone.foldl (fun s q => s.setPart q.2.core q.2.id q.2.part .sent) { s with ingress := s.ingress.filter fun q => (s.reqLine q.2).isSome }

/-- An MSHR that has become free goes to the first request of its slice's ingress queue, with the requests behind it for its line
(10 R259). -/
def State.drainIngress (s : State) : State :=
  let s := s.dropIngress
  match s.nextIngress s.ingress with
  | none => s
  | some (die, line) =>
    let mine := s.ingress.filter fun q => s.reqLine q.2 = some line
    { s with
      ingress := s.ingress.filter fun q => s.reqLine q.2 ≠ some line
      mshrs := s.mshrs ++ [⟨die, line, mine.map (·.2)⟩] }

/-- The stream hint of a request that waits at an MSHR: the line is filled under it. -/
def State.hintOf (s : State) (m : Mshr) : Bool := m.waiting.any fun r => ((s.core r.core).access? r.id).any (·.stream)

/-- SLICE_FILL_DATA_ARRIVAL (10 R259, R261): the data of a miss arrive and its waiting requests are performed in order, each
write merging over the filled bytes. Where the line's pseudo-channel is in self-refresh they wait for its exit (01 R24). -/
def execSliceFillDataArrival (die : Fin 4) (line : Nat) (s : State) : Out :=
  match s.mshrs.find? fun m => m.die = die && m.line = line with
  | none => .next s
  | some m =>
    let part := match m.waiting with
      | [] => 0
      | r :: _ => ((s.core r.core).ctxId.map s.partOf).getD 0
    if s.asleepAt part line then .next (s.setRefresh ((s.refreshOf (s.pseudoOf part (128 * line))).await line))
    else
    let s := s.ensureSectors part line (s.hintOf m) ((m.waiting.map s.needOf).foldl (· ||| ·) 0)
    let s := { s with mshrs := s.mshrs.filter fun x => !(x.die = die && x.line = line) }
    .next ((m.waiting.foldl State.serve s).drainIngress)

/-- OWNERSHIP_BACKOFF_EXPIRY (06 R139): a delayed ownership request is sent when its back-off has passed, and its atomic is
performed. -/
def execOwnershipBackoffExpiry (c : CoreId) (id : Nat) (s : State) : Out :=
  match (s.core c).access? id with
  | none => .next s
  | some a =>
    match a.parts with
    | [p] =>
      match s.partLeaf c p.va.toNat with
      | none => .next s
      | some (l, x) =>
        let pt := s.partOf x
        let line := lineOf (s.redirect pt (l.phys p.va.toNat))
        if p.stage ≠ .atSlice || !p.op.isAtomic || l.isPeer || s.isHeld (.access c id) || s.backingOff pt c line || s.ownerBusy c line ||
            s.mshrs.any (fun m => m.waiting.contains ⟨c, id, 0⟩) || s.ingress.any (fun q => q.2 = ⟨c, id, 0⟩) then .next s
        else
          let s := s.takeOwnership pt c line
          .next (s.arrive (s.ordDie pt line) line ⟨c, id, 0⟩)
    | _ => .next s

/-! ### Returns to the core -/

def PartStage.isDone (g : PartStage) : Bool :=
  match g with
  | .done _ _ _ _ => true
  | _ => false

def PartStage.fault? (g : PartStage) : Option FaultRec :=
  match g with
  | .failed f => some f
  | _ => none

/-- Every part has been performed or has faulted. -/
def Access.ended (a : Access) : Bool := a.parts.all fun p => p.stage.isDone || p.stage.fault?.isSome

/-- The fault of the lowest-addressed part that faulted (06 R132). -/
def Access.fault? (a : Access) : Option FaultRec := a.parts.findSome? fun p => p.stage.fault?

def PartStage.data (g : PartStage) : BitVec 1024 :=
  match g with
  | .done d _ _ _ => d
  | _ => 0

/-- The bytes that an access's parts brought, in order; a faulted part gives zeros (14 R314). -/
def Access.bytes (a : Access) : List Byte := a.parts.flatMap fun p => bytesOf p.stage.data 0 p.len

/-- SEQLAST after an acknowledgement of kind G (10 R260). -/
def seqWord (seq : BitVec 32) (slice : Nat) (die : Fin 4) : Word :=
  BitVec.ofNat 64 (seq.toNat + 2 ^ 32 * (slice % 64) + 2 ^ 38 * die.val + 2 ^ 63)

/-- The tag, slice and die of a part that was performed in this device's memory. -/
def PartStage.tag? (g : PartStage) : Option Word :=
  match g with
  | .done _ seq die (some (_, slice)) => some (seqWord seq slice die)
  | _ => none

/-- The line at which a part was performed. -/
def PartStage.line? (g : PartStage) : Option Nat :=
  match g with
  | .done _ _ _ (some (line, _)) => some line
  | _ => none

/-- SEQLAST takes the tag of an acknowledgement of kind G that has arrived; of those of one core cycle, that of the access issued last
(10 R260). -/
def State.noteTag (s : State) (c : CoreId) (a : Access) (w : Word) : State :=
  let k := s.core c
  if a.sk != .g || (k.ackAt.1 = s.cycle c.die && a.id < k.ackAt.2) then s
  else s.setCore c { k with seqlast := w, ackAt := (s.cycle c.die, a.id) }

/-- The acknowledgement of an access that came last: which of a transfer's lines it is is free (10 R258; log 78). -/
def State.noteSeq (s : State) (c : CoreId) (a : Access) : State :=
  let l := a.parts.filterMap fun p => p.stage.tag?
  match l with
  | [] => s
  | [w] => s.noteTag c a w
  | _ =>
    match l[Config.draw s.freeCtr % l.length]? with
    | none => s
    | some w => s.drew.noteTag c a w

/-- The lines that an access's parts wrote, acknowledged. -/
def State.ackParts (s : State) (c : CoreId) (a : Access) (also : BitVec 4) : State :=
  a.parts.foldl (fun s p =>
    match p.stage.line? with
    | none => s
    | some line => s.ackLine c a.asc also line) s

/-- The part is performed and its acknowledgement has arrived. -/
def PartStage.acked (g : PartStage) : PartStage :=
  match g with
  | .done d seq die _ => .done d seq die none
  | g => g

/-- One line of a transfer whose other lines are still to be performed is acknowledged: which of those performed is free (log 78). -/
def State.ackSome (s : State) (c : CoreId) (a : Access) (also : BitVec 4) : State :=
  let l := (natRange 0 a.parts.length).filter fun i => (a.parts[i]?.bind (·.stage.line?)).isSome
  match l[Config.draw s.freeCtr % l.length]? with
  | none => s
  | some i =>
    match a.parts[i]? with
    | none => s
    | some p =>
      let one := { a with parts := [p] }
      ((s.drew.ackParts c one also).noteSeq c one).setPart c a.id i p.stage.acked

/-- A faulted access raises its one fault (06 R132); a tier miss is counted once for it (20 R398). -/
def State.pendOnce (s : State) (c : CoreId) (a : Access) (f : FaultRec) : State :=
  if a.raised then s else s.updCore c fun k => countMiss f.code (pendAccess a f k)

/-- The end of an access whose parts have all been performed: a faulted one raises its fault; otherwise its writes are acknowledged, its
result is written, and it is performed (02 R46, 06 R132). -/
def State.finishAccess (s : State) (c : CoreId) (a : Access) (writes : Bool) (also : BitVec 4) (result : Core → Core) : State :=
  if !a.ended || a.parts.isEmpty then s
  else match a.fault? with
    | some f => if a.raised then s else ((if writes then (s.ackParts c a also).noteSeq c a else s).pendOnce c a f)
    | none =>
      let s := if writes then (s.ackParts c a also).noteSeq c a else s
      s.updCore c fun k => retire a (result k)

end Sys2Proof.Machine
end

