-- ==== Sys2Proof/Machine/System.lean ====
section
/-! DEFINITION. Tensor-table words (05 R120, R121), system registers (05 R122, R123; 01 R17) and the program trap (05 R124,
R125). -/

namespace Sys2Proof.Machine

open Sys2Proof

/-! ### Tensor-table entries -/

/-- The tensor-table entry that a core's group sees: its cached copy, or the table's, which is then cached (05 R121). -/
def State.tensorEntry (s : State) (c : CoreId) (t : BitVec 12) : State × Rec128 :=
  let k := s.core c
  match k.tcache.find? (·.n = t) with
  | some e => (s, e.val)
  | none =>
    match k.ctxId.bind s.ctx? with
    | none => (s, 0)
    | some x =>
      let v := BitVec.ofNat 1024 (s.rdNat (x.troot.toNat + 128 * t.toNat) 128)
      (s.updCore c fun k => { k with tcache := ⟨t, v⟩ :: k.tcache }, v)

/-- The tensor index of TIDWR and TIDRD: above 4095 the tensor-index fault (05 R120). -/
def tensorIndex (idx : Operand) (base : BitVec 12) : LaneM (BitVec 12) := do
  let i ← readS idx
  let t := i.toNat + base.toNat
  guardFault (t ≤ 4095) { code := 0x0206, aux := BitVec.ofNat 64 (min t (2 ^ 64 - 1)) }
  return BitVec.ofNat 12 t

/-- The entry of a tensor, its sixteen words read at once (05 R121; log 97). -/
def getEntry (t : BitVec 12) : LaneM Rec128 := fun s =>
  let (s, e) := s.tensorEntry s.cur.1 t
  .ok (e, s)

/-- TIDWR (05 R120, R121): the cached entry takes the word at issue, and the word goes through to the table. -/
def tidwrBody (h : Head) (o : TidWrOp) : LaneM Unit := do
  let t ← tensorIndex o.idx o.base
  let v ← readS o.val
  let e ← getEntry t
  let w := v.toNat &&& tensorMask o.w.toNat
  let new := putBytes e (8 * o.w.toNat) (natLe 8 w)
  let x ← fun s => match (s.core s.cur.1).ctxId.bind s.ctx? with
    | some x => .ok (x.troot.toNat, s)
    | none => .error (.stall .plain)
  modCore fun k => { k with tcache := ⟨t, new⟩ :: k.tcache.filter (·.n ≠ t) }
  issueAccess (freshAccess h (← nextId) (← curSlot) (← curBundle)
    (.tidwr (x + 128 * t.toNat + 8 * o.w.toNat) (BitVec.ofNat 64 w)) .t ⟨.device, {}, .rlx⟩ .none)

def execTidwr (h : Head) (o : TidWrOp) (s : State) : Out := lane h (tidwrBody h o) s

/-- TIDRD (05 R120): reserved bits read as zero (00 R5). -/
def tidrdBody (o : TidRdOp) : LaneM Unit := do
  let t ← tensorIndex o.idx o.base
  let e ← getEntry t
  writeS o.d (BitVec.ofNat 64 (bitsOf e.toNat (64 * o.w.toNat) 64 &&& tensorMask o.w.toNat))

def execTidrd (h : Head) (o : TidRdOp) (s : State) : Out := lane h (tidrdBody o) s

/-! ### System registers -/

/-- The state of a chiplet (17 R348). -/
def State.chip (s : State) (c : Chip) : Option ChipState := (s.chips.find? (·.1 = c)).map (·.2)

/-- The dies of the view's device (11 R267). -/
def Context.dies (x : Context) : List (Fin 4) :=
  if x.view = 0 then [0, 1, 2, 3]
  else if x.view = 1 then (if x.dev = 0 then [0, 1] else [2, 3])
  else [Fin.ofNat 4 x.dev.toNat]

/-- The S-die over a C-die is present and in service (01 R17, R19). -/
def State.sdieUp (s : State) (d : Fin 4) : Bool := s.variant ≠ .tq384s && s.chip (.sdie d) = some .inService

/-- SRAM per core in units of 128 KiB: 32 only where every S-die of the view is in service (01 R18). -/
def State.sram (s : State) (x : Context) : Nat := if x.dies.all s.sdieUp then 32 else 16

def Variant.id : Variant → Nat
  | .tq384a => 1
  | .tq384s => 2
  | .tq384f => 3
  | .tq288a => 4
  | .tq384e => 5

/-- Cores enabled on each C-die (01 R17, R19). -/
def State.coresPerDie (s : State) : Nat := if s.variant = .tq288a then 72 else 96

/-- CAPA (01 R17) as the context's view sees it. SDIE shows every S-die in service, whatever the view (log 93). -/
def State.capa (s : State) (x : Context) : Word :=
  let cdie := ((x.dies.filter fun d => s.chip (.cdie d) = some .inService).map fun d => 2 ^ d.val).sum
  let sdie := (((List.finRange 4).filter s.sdieUp).map fun d => 2 ^ d.val).sum
  let view := if x.view = 0 then 1 else if x.view = 1 then 2 else 4
  BitVec.ofNat 64 (packFields [(4, cdie), (7, s.coresPerDie), (4, sdie), (6, s.sram x), (4, s.farPorts),
    (2, if s.variant = .tq384e then 2 else 1), (5, 16), (4, 2 * x.dies.length), (3, view), (9, 0), (8, Variant.id s.variant), (8, 0)])

/-- COREID (05 R123). -/
def coreId (c : CoreId) (k : Core) : Word :=
  BitVec.ofNat 64 (packFields [(7, c.core.val), (1, 0), (2, c.die.val), (6, 0), (16, k.resumes.toNat), (32, 0)])

/-- A system register read (05 R122); none where no map assigns the number. -/
def State.sysRead (s : State) (c : CoreId) (n : Nat) : Option Word :=
  let k := s.core c
  match n with
  | 0x001 => (k.ctxId.bind s.ctx?).map s.capa
  | 0x002 => some (coreId c k)
  | 0x040 => some k.ovfp
  | 0x041 => some k.splls
  | 0x042 => some k.splnm
  | 0x043 => some k.refil
  | 0x050 => some k.blkinv
  | 0x051 => some k.blkrsv
  | 0x060 => some k.aboff
  | 0x061 => some k.scdup
  | 0x070 => some k.tstale
  | 0x071 => some k.tdisc
  | 0x072 => some k.tpfdr
  | 0x078 => some k.cpfiss
  | 0x079 => some k.cpfhit
  | 0x07A => some k.cpflate
  | 0x07B => some k.cpfdead
  | 0x080 => some k.trmis
  | 0x081 => some k.trmzs
  | 0x082 => some k.trmsy
  | 0x083 => some k.trmdr
  | 0x084 => some k.trmrp
  | 0x085 => some k.trmst
  | 0x090 => some k.seqlast
  | 0x0A0 => some k.tierst
  | 0x0A1 => some k.tierms
  | 0x0A2 => some k.xwalk
  | 0x0A3 => some k.xjoin
  | 0x0A4 => some k.itfail
  | 0x0B0 => some (k.lzseq.setWidth 64)
  | _ => none

/-- A system register written under its access code: a write to a read-only one is ignored (00 R12, 05 R122). -/
def sysWrite (n : Nat) (v : Word) (k : Core) : Core :=
  match n with
  | 0x041 => { k with splls := v }
  | 0x042 => { k with splnm := v }
  | 0x043 => { k with refil := v }
  | 0x050 => { k with blkinv := v }
  | 0x051 => { k with blkrsv := v }
  | 0x060 => { k with aboff := v }
  | 0x061 => { k with scdup := v }
  | 0x070 => { k with tstale := v }
  | 0x071 => { k with tdisc := v }
  | 0x072 => { k with tpfdr := v }
  | 0x078 => { k with cpfiss := v }
  | 0x079 => { k with cpfhit := v }
  | 0x07A => { k with cpflate := v }
  | 0x07B => { k with cpfdead := v }
  | 0x080 => { k with trmis := v }
  | 0x081 => { k with trmzs := v }
  | 0x082 => { k with trmsy := v }
  | 0x083 => { k with trmdr := v }
  | 0x084 => { k with trmrp := v }
  | 0x085 => { k with trmst := v }
  | 0x0A0 => { k with tierst := v }
  | 0x0A1 => { k with tierms := v }
  | 0x0A2 => { k with xwalk := v }
  | 0x0A3 => { k with xjoin := v }
  | 0x0A4 => { k with itfail := v }
  | _ => k

/-- RDSYS (05 R122). -/
def rdsysBody (o : SysOp) : LaneM Unit := do
  let v ← fun s => match s.sysRead s.cur.1 o.sys.toNat with
    | some v => .ok (v, s)
    | none => illegal s
  writeS o.r v

def execRdsys (h : Head) (o : SysOp) (s : State) : Out := lane h (rdsysBody o) s

/-- WRSYS, register form (05 R122). -/
def wrsysBody (o : SysOp) : LaneM Unit := do
  guardLegal (sysAssigned o.sys.toNat)
  let v ← readS o.r
  modCore (sysWrite o.sys.toNat v)

def execWrsys (h : Head) (o : SysOp) (s : State) : Out := lane h (wrsysBody o) s

/-- WRSYS, immediate form (05 R122). -/
def wrsysImmBody (o : SysImm) : LaneM Unit := do
  guardLegal (sysAssigned o.sys.toNat)
  modCore (sysWrite o.sys.toNat (o.imm.signExtend 64))

def execWrsysImmediate (h : Head) (o : SysImm) (s : State) : Out := lane h (wrsysImmBody o) s

/-- RDCYC (05 R124). -/
def rdcycBody (o : Operand) : LaneM Unit := do
  let v ← fun s => .ok (BitVec.ofNat 64 (s.cycle s.cur.1.die), s)
  writeS o v

def execRdcyc (h : Head) (o : Operand) (s : State) : Out := lane h (rdcycBody o) s

/-- What TRAP's lane does before the trap is raised: the value is read and popped. It answers the record. -/
def trapBody (o : TrapOp) : LaneM FaultRec := do
  let v ← readS o.src
  return { code := 0x0107, addr := o.code.setWidth 64, aux := v }

/-- TRAP (05 R125): the value is read and popped, and the program trap is raised; the C slot stays at its bundle until the group
is resumed at the next one (14 R314). -/
def trapIssue (o : TrapOp) (s0 s : State) : State :=
  match trapBody o s with
  | .error e => stopLane e s0
  | .ok (f, t) =>
    let n := ((s0.core s0.cur.1).slot s0.cur.2).pc
    raiseFault t.cur.1 { f with src := Slot.src t.cur.2, bundle := n } (.trap n)
      (t.updCore t.cur.1 (·.updSlot t.cur.2 fun x => { x with pc := n }))

def execTrap (h : Head) (o : TrapOp) (s : State) : Out := .next (issueAct h (trapIssue o) s)

end Sys2Proof.Machine
end

