-- ==== Sys2Proof/Machine/Engine.lean ====
section
/-! DEFINITION. Engine queues (02 R48, R50; 06 R150 to R152): entering an operation, its completion with the token it pushes
(02 R34), and a fault that halts its queue. -/

namespace Sys2Proof.Machine

open Sys2Proof

/-- The first operation of a queue. -/
def Core.head? (k : Core) (e : Fin 6) : Option EngOp := k.e[e].ops.head?

def Core.setQ (k : Core) (e : Fin 6) (q : EngQ) : Core := { k with e := k.e.set e q }

/-- An operation of a queue replaced. -/
def Core.setOp (k : Core) (e : Fin 6) (o : EngOp) : Core :=
  k.setQ e { k.e[e] with ops := k.e[e].ops.map fun x => if x.id = o.id then o else x }

def Core.findOp (k : Core) (e : Fin 6) (id : Nat) : Option EngOp := k.e[e].ops.find? (·.id = id)

/-- The queue can take an operation: it is not halted, holds fewer than 64 and has a request tag (02 R48, R49; 06 R152). -/
def Core.queueOpen (k : Core) (e : Fin 6) : Bool := !k.e[e].halted && k.e[e].ops.length < 64 && queueTag k e

/-- The fields that every engine operation shares, for an operation of the issuing lane. -/
def freshOp (h : Head) (id : Nat) (sl : Slot) (n : BitVec 32) (push : Option (Fin 8)) (o : Order) (dest : Dest)
    (kind : EngKind) : EngOp where
  id := id
  slot := sl
  bundle := n
  sbs := h.sbs
  push := push
  asc := o.asc
  ssc := o.ssc
  ord := o.ord
  dest := dest
  dropped := false
  hint := h.ch
  kind := kind
  pos := 0
  lines := []
  sent := []
  status := 0
  held := false
  failed := none
  parked := none
  got := none
  waited := 0

/-- A core whose queue an operation has entered with its range, having taken its number and its scoreboard slot. -/
def withOp (e : Fin 6) (o : EngOp) (r : Option Range) (k : Core) : Core :=
  let k := { k with nextId := k.nextId + 1, ranges := k.ranges ++ r.toList }
  (k.setQ e { k.e[e] with ops := k.e[e].ops ++ [o] }).updSlot o.slot (sbUp o.sbs)

/-- An operation enters its queue. It blocks where the queue cannot take it or a 33rd range would be needed (02 R48, R50). -/
def enterEngine (e : Fin 6) (o : EngOp) (r : Option Range) : LaneM Unit := do
  let k ← getCore
  guardStall (k.queueOpen e)
  guardStall (r.isNone || k.ranges.length < 32)
  modCore (withOp e o r)

/-- The error record's SRC of an engine queue (11 R280). -/
def engineSrc (e : Fin 6) : BitVec 4 := BitVec.ofNat 4 (4 + e.val)

/-- A token pushed; the caller has seen that there is room. -/
def pushToken (d : Option (Fin 8)) (k : Core) : Core :=
  match d with
  | none => k
  | some i => { k with d := k.d.set i (k.d[i] + 1) }

def tokenRoom (d : Option (Fin 8)) (k : Core) : Bool :=
  match d with
  | none => true
  | some i => k.d[i] < 16

/-- R150: an operation is complete. Its range leaves, it is performed, and its token is pushed; a full token queue holds the push
and the operation stays at the head of its queue (02 R34). -/
def completeOp (e : Fin 6) (o : EngOp) (k : Core) : Core :=
  let k := { k with ranges := k.ranges.filter (·.id ≠ o.id) }.updSlot o.slot (sbDown o.sbs)
  if tokenRoom o.push k then
    pushToken o.push (k.setQ e { k.e[e] with ops := k.e[e].ops.filter (·.id ≠ o.id) })
  else k.setOp e { o with held := true }

/-- R152: a fault stops an operation; its queue is halted and the fault waits to be raised. The range of an FWR that fails leaves the
scoreboard (17 R370). -/
def haltOp (e : Fin 6) (o : EngOp) (f : FaultRec) (k : Core) : Core :=
  let f := { f with src := engineSrc e, bundle := o.bundle }
  let k := k.setOp e { o with failed := some f }
  let p : PendFault := ⟨f, .engine e o.id⟩
  { k.setQ e { k.e[e] with halted := true } with
    pend := k.pend ++ [p]
    ranges := if e = 4 then k.ranges.filter (·.id ≠ o.id) else k.ranges }

/-- The head of a queue may act: it has not failed, no push of it is held, and no QJOIN holds it (06 R142). -/
def Core.ready? (k : Core) (e : Fin 6) : Option EngOp :=
  match k.head? e with
  | none => none
  | some o => if o.failed.isNone && !o.held && engineMayBegin k e o.id then some o else none

/-- The record of the record area with an index; past the kernel's records the illegal-instruction fault (04 R85, R96). -/
def readRecord (idx : BitVec 12) : LaneM Rec64 := do
  let g ← getGroup
  guardLegal (idx.toNat < g.nrec)
  let k ← getCore
  return BitVec.ofNat 512 (lsNat k (g.layout.records.off + 64 * idx.toNat) 64)

/-- The four bases of a record command, read in order (06 R143). -/
def readBases (o : RecOp) : LaneM (Vector Word 4) := do
  let a ← readS o.b0
  let b ← readS o.b1
  let c ← readS o.b2
  let d ← readS o.b3
  return #v[a, b, c, d]

end Sys2Proof.Machine
end

