-- ==== Sys2Proof/Machine/Vregs.lean ====
section
/-! DEFINITION. Vector registers (02 R36 to R40): reading with last use, writing with the values that a guard keeps, allocation
within the group's share, spills and refills; what a V-slot source gives (07 R160 to R164) and which elements are active (02 R41 to
R43); and the frame that every vector instruction shares. -/

namespace Sys2Proof.Machine

open Sys2Proof

/-! ### The register file (02 R37 to R39) -/

/-- Where a name's value is; none where it is unmapped. -/
def Core.vloc (k : Core) (n : Nat) : Option VLoc := (k.v.find? (·.1 = n)).map (·.2)

/-- A name mapped anew. -/
def Core.setV (k : Core) (n : Nat) (l : VLoc) : Core := { k with v := (n, l) :: k.v.filter (·.1 ≠ n) }

/-- A name unmapped: its physical register or spill location is free. -/
def Core.freeV (k : Core) (n : Nat) : Core := { k with v := k.v.filter (·.1 ≠ n) }

/-- The resident registers with the stamps of their last writes. -/
def Core.residents (k : Core) : List (Nat × Nat) :=
  k.v.filterMap fun x =>
    match x.2 with
    | .resident _ t => some (x.1, t)
    | _ => none

/-- The victim of a spill: the earliest last write, then the lower name, among those not excluded (R39). -/
def Core.spillVictim (k : Core) (keep : List Nat) : Option Nat :=
  ((k.residents.filter fun x => !keep.contains x.1).foldl (fun (b : Option (Nat × Nat)) x =>
    match b with
    | none => some x
    | some y => if x.2 < y.2 || (x.2 = y.2 && x.1 < y.1) then some x else some y) none).map (·.1)

/-- A free 4 KiB slot of the spill carve-out. -/
def Core.carveSlot (k : Core) (carve : Region) : Option Nat :=
  (List.range (carve.size / 4096)).find? fun i => !k.v.any fun x =>
    match x.2 with
    | .carve j _ => j = i
    | _ => false

/-- The register-pool fault (14 R312): the name and the overflow address. -/
def poolFault (n addr : Nat) : FaultRec := { code := 0x0202, aux := BitVec.ofNat 64 n, addr := BitVec.ofNat 64 addr }

/-- How a spill reaches near memory: through the context's translation, in rewrite mode (R39). -/
def spillVia : Via := {}

/-- The address of a name in the overflow area (R39). -/
def Core.spillAddr (k : Core) (n : Nat) : Nat := (k.ovfp.toNat + 4096 * n) % 2 ^ 56

/-- A resident register spilled: to the carve-out, else to near memory. -/
def spill (m : Nat) : LaneM Unit := do
  let k ← getCore
  let g ← getGroup
  match k.vloc m with
  | some (.resident v t) =>
    match k.carveSlot g.layout.spill with
    | some i =>
      modCore fun k =>
        { (lsWrite (g.layout.spill.off + 4096 * i) (bytesOf v 0 4096) k).setV m (.carve i t) with splls := count k.splls }
    | none =>
      let a := k.spillAddr m
      guardFault (k.ovfp != 0) (poolFault m a)
      fun s =>
        match s.writeVa s.cur.1 g.ctx spillVia a (bytesOf v 0 4096) with
        | (s, some _) => .error (.accessFault (poolFault m a) (s.core s.cur.1).trail)
        | (s, none) => .ok ((), s.updCore s.cur.1 fun k => { k.setV m (.overflow t) with splnm := count k.splnm })
  | _ => pure ()

/-- A physical register for a name: where the share is full a victim is spilled; with none the register-pool fault (R39). -/
def allocV (keep : List Nat) (n : Nat) : LaneM Unit := do
  let k ← getCore
  let g ← getGroup
  if g.regs ≤ k.residents.length then
    match k.spillVictim keep with
    | none => faultWith (poolFault n 0)
    | some m => spill m

/-- The overflow area's copy of a name. -/
def readOverflow (ctx : BitVec 10) (n a : Nat) : LaneM VReg := fun s =>
  match s.readVa s.cur.1 ctx spillVia a 4096 with
  | (s, .error _) => .error (.accessFault (poolFault n a) (s.core s.cur.1).trail)
  | (s, .ok b) => .ok (BitVec.ofNat 32768 (leNat b), s)

/-- The value that a spilled name holds, without a refill; a read of the overflow area that faults raises the register-pool fault
(log 15). -/
def spilledValue (n : Nat) (l : VLoc) : LaneM VReg := do
  let k ← getCore
  let g ← getGroup
  match l with
  | .resident v _ => return v
  | .carve i _ => return BitVec.ofNat 32768 (lsNat k (g.layout.spill.off + 4096 * i) 4096)
  | .overflow _ => readOverflow g.ctx n (k.spillAddr n)

def VLoc.stamp (l : VLoc) : Nat :=
  match l with
  | .resident _ t => t
  | .carve _ t => t
  | .overflow t => t

def VLoc.isResident (l : VLoc) : Bool :=
  match l with
  | .resident _ _ => true
  | _ => false

/-- A name read (R38, R39): its value, refilled where it is spilled and this is no last use. An unmapped name gives an arbitrary
value, or the register-lifetime fault under strict lifetime. The last use itself is taken after every reading. -/
def readV (keep : List Nat) (n : Nat) (last : Bool) : LaneM VReg := do
  let k ← getCore
  let g ← getGroup
  match k.vloc n with
  | none =>
    guardFault (!g.strict) { code := 0x0201, aux := BitVec.ofNat 64 n }
    fun s => .ok (s.freeVal 32768, s.drew)
  | some l =>
    let v ← spilledValue n l
    if last || l.isResident then return v
    else
      allocV (n :: keep) n
      modCore fun k => { k.setV n (.resident v l.stamp) with refil := count k.refil }
      return v

/-- The values that a name holds before a guarded write: zero where it is unmapped (R38). Those of a spilled name are taken where they
stand, which is no refill (log 95). -/
def oldV (n : Nat) : LaneM VReg := do
  match (← getCore).vloc n with
  | none => return 0
  | some l => spilledValue n l

/-- A name written: a new physical register is allocated while the old one is still held (R38). -/
def writeV (keep : List Nat) (n : Nat) (v : VReg) : LaneM Unit := do
  allocV (n :: keep) n
  modCore fun k => { k.setV n (.resident v (k.vclock + 1)) with vclock := k.vclock + 1 }

/-! ### Activity (02 R41 to R43) -/

/-- A compact predicate as read: k0 always reads as all elements active (R41). -/
def Core.kreg (k : Core) (n : Fin 16) : KReg := if n = 0 then ⟨1024, .cont, 1⟩ else k.k[n]

/-- The element width of a WIDTH; none for containers. -/
def kwBits (w : KWidth) : Option Nat :=
  match w with
  | .cont => none
  | .w6 => some 6
  | .w8 => some 8
  | .w16 => some 16
  | .w32 => some 32

/-- What decides the activity of a vector instruction: how many registers its operands group, COUNT where a compact guard limits
it, and the top of the mask stack. -/
structure VGuard where
  len   : Nat
  limit : Option Nat
  top   : Option Mask
  deriving DecidableEq, Repr

def pwFault (n : Fin 16) : FaultRec := { code := 0x0203, aux := BitVec.ofNat 64 n.val }

/-- The guard of a vector instruction of element width `w` (R41, 07 R164). -/
def vguard (h : Head) (single : Bool) (w : Nat) : LaneM VGuard := do
  let k ← getCore
  match h.gk with
  | none => return ⟨1, none, k.masks.head?⟩
  | some n =>
    let p := k.kreg n
    guardFault ((kwBits p.width).isNone || kwBits p.width = some w) (pwFault n)
    guardFault (!single || p.len = 1) (pwFault n)
    return ⟨p.len.toNat, if n = 0 then none else some p.count.toNat, k.masks.head?⟩

/-- Element i of the register at offset j is active: `per` elements to a register, each `w` bits wide (R43). -/
def VGuard.active (x : VGuard) (w per j i : Nat) : Bool :=
  (x.limit.all fun n => j * per + i < n) && x.top.all fun t => t.getLsbD (i * w / 32)

/-- Some element may be inactive. -/
def VGuard.guards (x : VGuard) : Bool := x.limit.isSome || x.top.isSome

/-! ### Sources (07 R160 to R164) -/

/-- What a source gives: a register for each of the group, a bit pattern for every element, or a constant's name. -/
inductive Given
  | regs (l : List VReg)
  | pat (b : Word)
  | cst (n : Name)
  deriving DecidableEq, Repr

/-- Container e of a register. -/
def elem (v : VReg) (e : Nat) : BitVec 32 := v.extractLsb' (32 * e) 32

/-- A register from its containers. -/
def ofElems (f : Nat → BitVec 32) : VReg :=
  BitVec.ofNat 32768 ((List.range 1024).foldr (fun e r => (f e).toNat + 2 ^ 32 * r) 0)

/-- A constant's container in an instruction of a type, or of none (R162). -/
def cstContainer (ty : Option Fmt) (n : Name) (e : Nat) : BitVec 32 :=
  let num := fun (i : Nat) =>
    match ty with
    | none => BitVec.ofNat 32 i
    | some f => putVal f .rne (ofInt i)
  match n with
  | .one => num 1
  | .ones =>
    match ty with
    | none => BitVec.allOnes 32
    | some f => toContainer f (2 ^ f.width - 1)
  | .row => num (e / 64)
  | .col => num (e % 64)
  | .idx => num e
  | _ => 0

/-- The container that a source gives element e of the register at offset j. -/
def Given.at (g : Given) (ty : Option Fmt) (j e : Nat) : BitVec 32 :=
  match g with
  | .regs l => elem (l.getD j 0) e
  | .pat b => b.setWidth 32
  | .cst n => cstContainer ty n e

/-- The names of the vector registers that an operand's group takes. -/
def groupNames (len : Nat) (o : Operand) : List Nat :=
  match o.name with
  | .v n => natRange n.val len
  | _ => []

/-- A group that passes v1535 is illegal (02 R41). -/
def guardGroup (len : Nat) (o : Operand) : LaneM Unit :=
  match o.name with
  | .v n => guardLegal (n.val + len ≤ 1536)
  | _ => pure ()

/-- LEN entries of a vector queue popped in group order, or read from where they stand (R164). -/
def popGroup (q : Nat) (peek : Bool) : Nat → LaneM (List VReg)
  | 0 => pure []
  | len + 1 => do
    let v ← popVector q false
    let r ← popGroup q peek len
    return v :: r

/-- A queue source: peeked entries stay where they are. -/
def readQueueGroup (q : Nat) (peek : Bool) (len : Nat) : LaneM (List VReg) := do
  let before ← getCore
  let l ← popGroup q peek len
  if peek then modCore fun k => { k with vq := k.vq.set (vectorQ q) before.vq[vectorQ q] }
  return l

/-- The value read of a name among those already read. -/
def lookV (vals : List (Nat × VReg)) (n : Nat) : VReg := ((vals.find? (·.1 = n)).map (·.2)).getD 0

/-- What an operand gives once the vector registers are read. -/
def giveOperand (len : Nat) (vals : List (Nat × VReg)) (o : Operand) : LaneM Given :=
  match o.name with
  | .v _ => pure (.regs ((groupNames len o).map (lookV vals)))
  | .q n => if n.val < 12 then do return .regs (← readQueueGroup n.val o.peek len) else do return .pat (← readS o)
  | .s _ => do return .pat (← readS o)
  | n => pure (.cst n)

def giveSrc (len : Nat) (vals : List (Nat × VReg)) (o : Src2) : LaneM Given :=
  match o with
  | .reg r => giveOperand len vals r
  | .imm i => pure (.pat (i.setWidth 64))

/-- The operands among sources. -/
def srcOperands (l : List Src2) : List Operand :=
  l.filterMap fun o =>
    match o with
    | .reg r => some r
    | .imm _ => none

/-- Each name that the operands read, once, and whether some reading of it is its last use (02 R38). -/
def namesRead (len : Nat) (l : List Operand) : List (Nat × Bool) :=
  (l.flatMap fun o => (groupNames len o).map fun n => (n, o.last)).foldl (fun acc x =>
    if acc.any (·.1 = x.1) then acc.map fun y => if y.1 = x.1 then (y.1, y.2 || x.2) else y else acc ++ [x]) []

/-- Every name read in order. -/
def readNames (keep : List Nat) : List (Nat × Bool) → LaneM (List (Nat × VReg))
  | [] => pure []
  | (n, last) :: r => do
    let v ← readV keep n last
    let l ← readNames keep r
    return (n, v) :: l

/-- The sources of an instruction, then the last uses: names freed after every reading (02 R38). -/
def gather (len : Nat) (keep : List Nat) (srcs : List Src2) : LaneM (List Given) := do
  let names := namesRead len (srcOperands srcs)
  let vals ← readNames keep names
  let gs ← srcs.mapM (giveSrc len vals)
  modCore fun k => (names.filter (·.2)).foldl (fun k n => k.freeV n.1) k
  return gs

/-! ### The frame of a vector instruction -/

/-- The values that a destination holds before the instruction; a queue entry starts as zeros (R163). -/
def oldGroup (len : Nat) (d : Operand) : LaneM (List VReg) := (groupNames len d).mapM oldV

/-- The registers of a group written in order. -/
def writeNames (keep : List Nat) : List (Nat × VReg) → LaneM Unit
  | [] => pure ()
  | (n, v) :: r => do
    writeV keep n v
    writeNames keep r

/-- One queue entry pushed for each register of a group. A group longer than the queue never finds room (07 R164; log 98). -/
def pushAll (q : Nat) : List VReg → LaneM Unit
  | [] => pure ()
  | v :: r => do
    pushVector q v
    pushAll q r

/-- A group of registers, or one queue entry for each, written to a destination. -/
def putGroup (keep : List Nat) (d : Operand) (vs : List VReg) : LaneM Unit :=
  match d.name with
  | .v n => writeNames keep ((natRange n.val vs.length).zip vs)
  | .q n => pushAll n.val vs
  | _ => illegal

/-- What a vector instruction reads: its guard, the old registers of its destination where it keeps part of them, and its sources. -/
structure VRead where
  x    : VGuard
  olds : List VReg
  gs   : List Given
  deriving DecidableEq, Repr

/-- The names that no spill may take while a vector instruction is under way: those of its operands. -/
def keepNames (len : Nat) (d : Operand) (srcs : List Src2) : List Nat :=
  groupNames len d ++ (srcOperands srcs).flatMap (groupNames len)

/-- The reading of a vector instruction: every source is read and the last uses are taken (R163). `merge` says that it keeps part of the
old value even where all is active. -/
def vecRead (h : Head) (single : Bool) (w : Nat) (merge : Bool) (d : Operand) (srcs : List Src2) : LaneM VRead := do
  let x ← vguard h single w
  guardGroup x.len d
  (srcOperands srcs).forM (guardGroup x.len)
  let olds ← if merge || x.guards then oldGroup x.len d else pure []
  let gs ← gather x.len (keepNames x.len d srcs) srcs
  return ⟨x, olds, gs⟩

/-- The registers of a destination, of what `f` makes of the sources and of each old value. -/
def VRead.results (r : VRead) (f : VGuard → List Given → Nat → VReg → VReg) : List VReg :=
  (List.range r.x.len).map fun j => f r.x r.gs j (r.olds.getD j 0)

/-- A vector instruction: it reads, and writes its destination (R163). -/
def vecOp (h : Head) (single : Bool) (w : Nat) (merge : Bool) (d : Operand) (srcs : List Src2)
    (f : VGuard → List Given → Nat → VReg → VReg) : LaneM Unit := do
  let r ← vecRead h single w merge d srcs
  putGroup (keepNames r.x.len d srcs) d (r.results f)

/-- The elements of a container instruction: active ones from `f`, the others from the old value. -/
def elementwise (f : VGuard → List Given → Nat → Nat → BitVec 32) (x : VGuard) (gs : List Given) (j : Nat) (old : VReg) : VReg :=
  let g := f x gs j
  ofElems fun e => if x.active 32 1024 j e then g e else elem old e

/-- A container instruction of a type, or of none: element e from the containers of its sources. -/
def container (h : Head) (single : Bool) (ty : Option Fmt) (d : Operand) (srcs : List Src2) (f : List (BitVec 32) → BitVec 32) :
    LaneM Unit :=
  vecOp h single 32 false d srcs (elementwise fun _ gs j e => f (gs.map fun g => g.at ty j e))

end Sys2Proof.Machine
end

