-- ==== Sys2Proof/Machine/Vector.lean ====
section
/-! DEFINITION. The V slot's arithmetic, masks, predicates, moves, conversions, packing and quantisation (07 R166 to R189).
Accumulator and tile transfers stand in Machine/Accum.lean and Machine/Tile.lean. -/

namespace Sys2Proof.Machine

open Sys2Proof

/-! ### Arithmetic on one element (R167 to R170) -/

/-- An integer result or a rounded value, by the type. -/
def byType (ty : Fmt) (rm : Rm) (sat : Bool) (fi : Int → Int → Int) (ff : FVal → FVal → FVal) (a b : BitVec 32) : BitVec 32 :=
  if ty.isFloat then putVal ty rm (ff (elemVal ty a) (elemVal ty b)) else putInt ty sat (fi (elemInt ty a) (elemInt ty b))

/-- The smaller or the larger of two floats; NaN if either is (R168). -/
def fMin (a b : FVal) : FVal := if !a.isNum || !b.isNum then .nan else if fLt true b a then b else a
def fMax (a b : FVal) : FVal := if !a.isNum || !b.isNum then .nan else if fLt true a b then b else a

/-- a with its sign cleared. -/
def fAbs : FVal → FVal
  | .nan => .nan
  | .inf _ => .inf false
  | .fin _ m e => .fin false m e

def vBin (f : BitVec 32 → BitVec 32 → BitVec 32) (l : List (BitVec 32)) : BitVec 32 := f (l.getD 0 0) (l.getD 1 0)
def vUn (f : BitVec 32 → BitVec 32) (l : List (BitVec 32)) : BitVec 32 := f (l.getD 0 0)

/-- A binary element-wise instruction. -/
def vbinBody (h : Head) (o : VBin) (f : BitVec 32 → BitVec 32 → BitVec 32) : LaneM Unit :=
  container h false (some o.ty) o.d [.reg o.a, o.b] (vBin f)

/-- A unary element-wise instruction. -/
def vunBody (h : Head) (o : VUn) (f : BitVec 32 → BitVec 32) : LaneM Unit :=
  container h false (some o.ty) o.d [.reg o.a] (vUn f)

def execVadd (h : Head) (o : VBin) (s : State) : Out :=
  lane h (vbinBody h o (byType o.ty o.rm o.sat (· + ·) (fAdd o.rm))) s

def execVsub (h : Head) (o : VBin) (s : State) : Out :=
  lane h (vbinBody h o (byType o.ty o.rm o.sat (· - ·) fun a b => fAdd o.rm a b.neg)) s

def execVmul (h : Head) (o : VBin) (s : State) : Out :=
  lane h (vbinBody h o (byType o.ty o.rm o.sat (· * ·) fMul)) s

def execVmin (h : Head) (o : VBin) (s : State) : Out := lane h (vbinBody h o (byType o.ty .rne false min fMin)) s
def execVmax (h : Head) (o : VBin) (s : State) : Out := lane h (vbinBody h o (byType o.ty .rne false max fMax)) s

/-- a x b + c and a x b - c, rounded once (R168). -/
def fmaBody (neg : Bool) (h : Head) (o : VTern) : LaneM Unit :=
  container h false (some o.ty) o.d [.reg o.a, .reg o.b, .reg o.c] fun l =>
    let v := fun i => elemVal o.ty (l.getD i 0)
    putVal o.ty o.rm (fFma o.rm (v 0) (v 1) (if neg then (v 2).neg else v 2))

def execVfma (h : Head) (o : VTern) (s : State) : Out := lane h (fmaBody false h o) s
def execVfms (h : Head) (o : VTern) (s : State) : Out := lane h (fmaBody true h o) s

/-- A unary result by the type. -/
def unType (ty : Fmt) (rm : Rm) (sat : Bool) (fi : Int → Int) (ff : FVal → FVal) (a : BitVec 32) : BitVec 32 :=
  if ty.isFloat then putVal ty rm (ff (elemVal ty a)) else putInt ty sat (fi (elemInt ty a))

def execVabs (h : Head) (o : VUn) (s : State) : Out :=
  lane h (vunBody h o (unType o.ty .rne o.sat (fun a => (a.natAbs : Int)) fAbs)) s

def execVneg (h : Head) (o : VUn) (s : State) : Out :=
  lane h (vunBody h o (unType o.ty .rne o.sat (fun a => -a) FVal.neg)) s

def execVsqrt (h : Head) (o : VUn) (s : State) : Out :=
  lane h (vunBody h o fun a => putVal o.ty o.rm (fSqrt (elemVal o.ty a))) s

def execVrcp (h : Head) (o : VUn) (s : State) : Out := lane h (vunBody h o (approxElem .rcp o.ty)) s
def execVrsq (h : Head) (o : VUn) (s : State) : Out := lane h (vunBody h o (approxElem .rsq o.ty)) s
def execVexp2 (h : Head) (o : VUn) (s : State) : Out := lane h (vunBody h o (approxElem .exp2 o.ty)) s
def execVlog2 (h : Head) (o : VUn) (s : State) : Out := lane h (vunBody h o (approxElem .log2 o.ty)) s

/-- A logic operation on the bits of a type (R170). -/
def bitsType (ty : Fmt) (f : Nat → Nat → Nat) (a b : BitVec 32) : BitVec 32 :=
  toContainer ty (f (containerBits ty a) (containerBits ty b))

def execVand (h : Head) (o : VBin) (s : State) : Out := lane h (vbinBody h o (bitsType o.ty (· &&& ·))) s
def execVor (h : Head) (o : VBin) (s : State) : Out := lane h (vbinBody h o (bitsType o.ty (· ||| ·))) s
def execVxor (h : Head) (o : VBin) (s : State) : Out := lane h (vbinBody h o (bitsType o.ty (· ^^^ ·))) s

def execVnot (h : Head) (o : VUn) (s : State) : Out :=
  lane h (vunBody h o fun a => toContainer o.ty (2 ^ o.ty.width - 1 - containerBits o.ty a)) s

/-- The three shifts of w-bit values by n = b[w-1:0] (R170). -/
def shlBits (w a n : Nat) : Nat := if w ≤ n then 0 else a * 2 ^ n % 2 ^ w
def shrBits (w a n : Nat) : Nat := if w ≤ n then 0 else a / 2 ^ n
def sarBits (w a n : Nat) : Nat :=
  let top := if 2 ^ (w - 1) ≤ a then 2 ^ w - 1 else 0
  if w ≤ n then top else a / 2 ^ n + (top - top / 2 ^ n)

def execVshl (h : Head) (o : VBin) (s : State) : Out := lane h (vbinBody h o (bitsType o.ty (shlBits o.ty.width))) s
def execVshr (h : Head) (o : VBin) (s : State) : Out := lane h (vbinBody h o (bitsType o.ty (shrBits o.ty.width))) s
def execVsar (h : Head) (o : VBin) (s : State) : Out := lane h (vbinBody h o (bitsType o.ty (sarBits o.ty.width))) s

/-! ### Compare, select and the mask stack (R171 to R175) -/

/-- The comparison of two elements (R171). -/
def compareElems (ty : Fmt) (c : Cond) (a b : BitVec 32) : Bool :=
  if ty.isFloat then
    let x := elemVal ty a
    let y := elemVal ty b
    if !x.isNum || !y.isNum then c == .ne
    else condOf c (if fLt false x y then .lt else if fLt false y x then .gt else .eq)
  else condOf c (compare (elemInt ty a) (elemInt ty b))

/-- VCMP (R171). -/
def vcmpBody (h : Head) (o : VCmpOp) : LaneM Unit :=
  container h false (some o.ty) o.d [.reg o.a, o.b]
    (vBin fun a b => if compareElems o.ty o.cond a b then BitVec.allOnes 32 else 0)

def execVcmp (h : Head) (o : VCmpOp) (s : State) : Out := lane h (vcmpBody h o) s

/-- VSEL (R172). -/
def vselBody (h : Head) (o : VSelOp) : LaneM Unit :=
  container h false none o.d [.reg o.a, .reg o.b, .reg o.sel] fun l => if l.getD 2 0 != 0 then l.getD 0 0 else l.getD 1 0

def execVsel (h : Head) (o : VSelOp) (s : State) : Out := lane h (vselBody h o) s

def maskFault (depth : Nat) : FaultRec := { code := 0x0204, aux := BitVec.ofNat 64 depth }

/-- An entry of the mask stack from its bits. -/
def ofBits (f : Nat → Bool) : Mask :=
  BitVec.ofNat 1024 ((List.range 1024).foldr (fun c r => (if f c then 1 else 0) + 2 * r) 0)

/-- MPUSH (R173). -/
def mpushBody (h : Head) (o : MPushOp) : LaneM Unit := do
  let x ← vguard h true 32
  let k ← getCore
  guardFault (k.masks.length < 32) (maskFault k.masks.length)
  let srcs : List Src2 := [.reg o.a, .reg o.b]
  let gs ← gather 1 ((srcOperands srcs).flatMap (groupNames 1)) srcs
  let at' := fun i c => (gs.getD i (.pat 0)).at (some o.ty) 0 c
  modCore fun k =>
    { k with masks := ofBits (fun c => x.active 32 1024 0 c && compareElems o.ty o.cond (at' 0 c) (at' 1 c)) :: k.masks }

def execMpush (h : Head) (o : MPushOp) (s : State) : Out := lane h (mpushBody h o) s

/-- MINV (R174). -/
def minvBody : LaneM Unit := do
  match (← getCore).masks with
  | [] => faultWith (maskFault 0)
  | t :: r =>
    let parent := r.head?.getD (BitVec.allOnes 1024)
    modCore fun k => { k with masks := (parent &&& ~~~ t) :: r }

def execMinv (h : Head) (s : State) : Out := lane h minvBody s

/-- MPOP (R174). -/
def mpopBody : LaneM Unit := do
  match (← getCore).masks with
  | [] => faultWith (maskFault 0)
  | _ :: r => modCore fun k => { k with masks := r }

def execMpop (h : Head) (s : State) : Out := lane h mpopBody s

/-- VSKIPZ (R175). -/
def vskipzBody (disp : BitVec 32) : LaneM Unit := do
  let n ← curBundle
  match (← getCore).masks with
  | [] => pure ()
  | t :: _ => if t = 0 then setPc (n + disp)

def execVskipz (h : Head) (o : BitVec 32) (s : State) : Out := lane h (vskipzBody o) s

/-! ### Compact predicates (R176, R177) -/

/-- Elements of a register (02 R41). -/
def perReg (w : KWidth) : Nat :=
  match kwBits w with
  | none => 1024
  | some b => 32768 / b

/-- KSET (R176). -/
def ksetBody (o : KSetOp) : LaneM Unit := do
  let a ← readS o.src
  let c : Int := max 0 (a.toInt + o.imm.toInt)
  match o.k.name with
  | .k n =>
    if n = 0 then pure ()
    else
      let v : KReg := ⟨BitVec.ofInt 16 (min c (o.len.toNat * perReg o.width)), o.width, o.len⟩
      modCore fun k => { k with k := k.k.set n v }
  | _ => illegal

def execKset (h : Head) (o : KSetOp) (s : State) : Out := lane h (ksetBody o) s

/-- KGET (R177). -/
def kgetBody (o : KGetOp) : LaneM Unit := do
  match o.k.name with
  | .k n =>
    let p := (← getCore).kreg n
    writeS o.d (BitVec.ofNat 64 (p.count.toNat + KWidth.code p.width * 2 ^ 16 + p.len.toNat * 2 ^ 19))
  | _ => illegal

def execKget (h : Head) (o : KGetOp) (s : State) : Out := lane h (kgetBody o) s

/-! ### Moves, inserts and extracts (R178 to R180) -/

/-- The element width of a view. -/
def viewBits (v : View) : Nat :=
  match v with
  | .cont => 32
  | .w8 => 8
  | .w16 => 16
  | .w6 => 6

/-- Element i of a narrow view of a source (R178). -/
def Given.narrow (g : Given) (w j i : Nat) : Nat :=
  match g with
  | .regs l => bitsOf (l.getD j 0).toNat (w * i) w
  | .pat b => b.toNat % 2 ^ w
  | .cst .idx => i % 2 ^ w
  | .cst n => (cstContainer none n (w * i / 32)).toNat % 2 ^ w

/-- Elements of `w` bits, `n` of them from bit `lo` on, written over a number: `f` gives an element, or none where it keeps its
bits. -/
def overlay (w lo n : Nat) (f : Nat → Option Nat) (old : Nat) : Nat :=
  let field := (List.range n).foldr (fun i r => (f i).getD (bitsOf old (lo + w * i) w) % 2 ^ w + 2 ^ w * r) 0
  putBits old lo (w * n) field

/-- VMOV (R178). -/
def vmovBody (h : Head) (o : VMovOp) : LaneM Unit :=
  let w := viewBits o.view
  let per := 32768 / w
  if o.view = .cont then container h false none o.d [.reg o.a] (vUn id)
  else vecOp h false w (w = 6) o.d [.reg o.a] fun x gs j old =>
    let g := gs.getD 0 (.pat 0)
    BitVec.ofNat 32768 (overlay w 0 per (fun i => if x.active w per j i then some (g.narrow w j i) else none) old.toNat)

def execVmov (h : Head) (o : VMovOp) (s : State) : Out := lane h (vmovBody h o) s

/-- A scalar operand's full value, for the fields that take a scalar (R179, R180, R185, R187). -/
def scalarOf (g : Given) : Word :=
  match g with
  | .pat b => b
  | .cst .one => 1
  | .cst .ones => BitVec.allOnes 64
  | _ => 0

/-- VINS (R179). -/
def vinsBody (h : Head) (o : VInsOp) : LaneM Unit :=
  vecOp h true 32 false o.d [.reg o.a, .reg o.idx, .reg o.val] (elementwise fun _ gs j e =>
    if e = (scalarOf (gs.getD 1 (.pat 0))).toNat then (gs.getD 2 (.pat 0)).at none j e else (gs.getD 0 (.pat 0)).at none j e)

def execVins (h : Head) (o : VInsOp) (s : State) : Out := lane h (vinsBody h o) s

/-- VEXT (R180): the container, or 0 past the end or where the element is inactive. -/
def vextBody (h : Head) (o : VExtOp) : LaneM Unit := do
  let x ← vguard h true 32
  guardGroup x.len o.a
  let gs ← gather x.len (groupNames x.len o.a) [.reg o.a, .reg o.idx]
  let i := (scalarOf (gs.getD 1 (.pat 0))).toNat
  let c := (gs.getD 0 (.pat 0)).at none 0 i
  writeS o.d (if 1024 ≤ i || !x.active 32 1024 0 i then 0 else if o.sx then c.signExtend 64 else c.setWidth 64)

def execVext (h : Head) (o : VExtOp) (s : State) : Out := lane h (vextBody h o) s

/-! ### Conversion (R181) -/

/-- The pattern of 64-bit element m of a source (R161, R162, R181). -/
def Given.wide (g : Given) (ty : Fmt) (j m : Nat) : Nat :=
  match g with
  | .regs l => bitsOf (l.getD j 0).toNat (64 * m) 64
  | .pat b => b.toNat % 2 ^ 32 * (2 ^ 32 + 1)
  | .cst .one => 1
  | .cst .ones => 2 ^ 64 - 1
  | .cst .row => encodeFmt ty .rne (ofInt (m / 32))
  | .cst .col => encodeFmt ty .rne (ofInt (m % 32))
  | .cst .idx => encodeFmt ty .rne (ofInt m)
  | .cst _ => 0

/-- The destination of a VCVT whose destination is i64 or n64: element m from a source pattern. -/
def wideDest (x : VGuard) (old : VReg) (f : Nat → Nat) : VReg :=
  BitVec.ofNat 32768 (overlay 64 0 512
    (fun m => if (x.limit.all (m < ·)) && x.top.all (fun t => t.getLsbD (2 * m)) then some (f m) else none) old.toNat)

/-- VCVT (R181). -/
def vcvtBody (h : Head) (o : VCvtOp) : LaneM Unit :=
  let half := if o.half then 512 else 0
  let cv := convert o.src o.ty o.rm
  if o.src.isWide && o.ty.isWide then
    vecOp h true 32 false o.d [.reg o.a] fun x gs j old => wideDest x old fun m => cv ((gs.getD 0 (.pat 0)).wide o.src j m)
  else if o.ty.isWide then
    vecOp h true 32 false o.d [.reg o.a] fun x gs j old =>
      wideDest x old fun m => cv (containerBits o.src ((gs.getD 0 (.pat 0)).at (some o.src) j (half + m)))
  else if o.src.isWide then
    vecOp h true 32 true o.d [.reg o.a] fun x gs j old => ofElems fun e =>
      if half ≤ e && e < half + 512 && x.active 32 1024 j e then
        toContainer o.ty (cv ((gs.getD 0 (.pat 0)).wide o.src j (e - half)))
      else elem old e
  else container h false (some o.src) o.d [.reg o.a] (vUn fun a => toContainer o.ty (cv (containerBits o.src a)))

def execVcvt (h : Head) (o : VCvtOp) (s : State) : Out := lane h (vcvtBody h o) s

/-! ### Packing (R182, R183) -/

def packBody (w : Nat) (h : Head) (o : VPackOp) : LaneM Unit :=
  vecOp h true 32 true o.d [.reg o.a] fun x gs j old =>
    BitVec.ofNat 32768 (overlay w (w * 1024 * o.part.toNat) 1024
      (fun i => if x.active 32 1024 j i then some (((gs.getD 0 (.pat 0)).at none j i).toNat % 2 ^ w) else none) old.toNat)

/-- The byte view of a source: a register's own, or the same container everywhere. That a scalar or a constant of VDEQ is such an untyped
container is the model's choice (log 111). -/
def Given.bytes (g : Given) (j : Nat) : Nat :=
  match g with
  | .regs l => (l.getD j 0).toNat
  | _ => (ofElems fun e => g.at none j e).toNat

def unpackBody (w : Nat) (h : Head) (o : VUnpackOp) : LaneM Unit :=
  vecOp h true 32 false o.d [.reg o.a] (elementwise fun _ gs j =>
    let v := (gs.getD 0 (.pat 0)).bytes j
    fun i =>
      let c := bitsOf v (w * (1024 * o.part.toNat + i)) w
      if o.sx then (BitVec.ofNat w c).signExtend 32 else BitVec.ofNat 32 c)

def execVpack4 (h : Head) (o : VPackOp) (s : State) : Out := lane h (packBody 4 h o) s
def execVpack6 (h : Head) (o : VPackOp) (s : State) : Out := lane h (packBody 6 h o) s
def execVunpack4 (h : Head) (o : VUnpackOp) (s : State) : Out := lane h (unpackBody 4 h o) s
def execVunpack6 (h : Head) (o : VUnpackOp) (s : State) : Out := lane h (unpackBody 6 h o) s

/-! ### Quantisation (R184 to R186) -/

/-- The byte at which the scales of a block image start (R184). -/
def scaleAt (ty : Fmt) : Nat := 128 * ty.width

/-- One block of VQNT written over an image (R185). -/
def quantBlock (o : VQntOp) (e? : Option Nat) (act : Nat → Bool) (val : Nat → FVal) (img b : Nat) : Nat :=
  let mine := (natRange (32 * b) 32).filter act
  if mine.isEmpty then img
  else
    let vs := mine.map val
    let e := if vs.any FVal.isSpecial then 63 else e?.getD (deriveE o.ty o.bt.toNat vs)
    let code := fun i => if e = 63 then 0 else encodeBlockVal o.ty o.bt.toNat e o.rm (val i)
    let w := o.ty.width
    let img := putBits img (8 * (scaleAt o.ty + b)) 8 (o.bt.toNat * 64 + e)
    overlay w (w * 32 * b) 32 (fun i => if act (32 * b + i) then some (code (32 * b + i)) else none) img

/-- VQNT (R185). -/
def vqntBody (h : Head) (o : VQntOp) : LaneM Unit :=
  let srcs : List Src2 := .reg o.a :: (o.scale.map Src2.reg).toList
  vecOp h true 32 true o.d srcs fun x gs j old =>
    let g := gs.getD 0 (.pat 0)
    let e? := o.scale.map fun _ => (scalarOf (gs.getD 1 (.pat 0))).toNat % 64
    let past := scaleAt o.ty + 32
    let img := (List.range 32).foldl
      (quantBlock o e? (x.active 32 1024 j) fun e => elemVal .f32 (g.at (some .f32) j e)) (old.toNat % 2 ^ (8 * past))
    BitVec.ofNat 32768 img

def execVqnt (h : Head) (o : VQntOp) (s : State) : Out := lane h (vqntBody h o) s

/-- The scale byte of block b of an image. -/
def imageScale (ty : Fmt) (img b : Nat) : BitVec 8 := BitVec.ofNat 8 (bitsOf img (8 * (scaleAt ty + b)) 8)

/-- A block counted where its scale byte makes it reserved or invalid (03 R62). -/
def countBlock (ty : Fmt) (sc : BitVec 8) (k : Core) : Core :=
  if blockReserved ty sc then { k with blkrsv := count k.blkrsv }
  else if blockInvalid sc then { k with blkinv := count k.blkinv } else k

/-- VDEQ (R186): each block that holds an active element is counted once. -/
def vdeqBody (h : Head) (o : VDeqOp) : LaneM Unit := do
  let x ← vguard h true 32
  guardGroup x.len o.d
  guardGroup x.len o.a
  let keep := groupNames x.len o.d ++ groupNames x.len o.a
  let olds ← if x.guards then oldGroup x.len o.d else pure []
  let gs ← gather x.len keep [.reg o.a]
  let img := (gs.getD 0 (.pat 0)).bytes 0
  let w := o.ty.width
  modCore fun k => (List.range 32).foldl (fun k b =>
    if (natRange (32 * b) 32).any (x.active 32 1024 0) then countBlock o.ty (imageScale o.ty img b) k else k) k
  putGroup keep o.d [ofElems fun e =>
    if x.active 32 1024 0 e then putVal .f32 .rne (blockVal o.ty (imageScale o.ty img (e / 32)) (bitsOf img (w * e) w))
    else elem (olds.getD 0 0) e]

def execVdeq (h : Head) (o : VDeqOp) (s : State) : Out := lane h (vdeqBody h o) s

/-! ### Axis movement (R187 to R189) -/

/-- The shift amount of element e: read as i64, an immediate as a signed integer. c.row, c.col and c.idx give each element its own (04 R88;
log 86). -/
def axisShift (o : Src2) (g : Given) (e : Nat) : Int :=
  match o, g with
  | .imm i, _ => i.toInt
  | _, .cst .row => (cstContainer none .row e).toNat
  | _, .cst .col => (cstContainer none .col e).toNat
  | _, .cst .idx => (cstContainer none .idx e).toNat
  | _, g => (scalarOf g).toInt

/-- An axis movement: `pick t r c` is the position that (r, c) takes its container from, with t = s mod n. -/
def axisBody (n : Nat) (pick : Nat → Nat → Nat → Nat × Nat) (h : Head) (o : VRotOp) : LaneM Unit :=
  vecOp h false 32 false o.d [.reg o.a, o.s] (elementwise fun _ gs j e =>
    let t := (axisShift o.s (gs.getD 1 (.pat 0)) e % n).toNat
    let p := pick t (e / 64) (e % 64)
    (gs.getD 0 (.pat 0)).at none j (64 * p.1 + p.2))

def execVrotr (h : Head) (o : VRotOp) (s : State) : Out := lane h (axisBody 64 (fun t r c => (r, (c + 64 - t) % 64)) h o) s
def execVbcr (h : Head) (o : VRotOp) (s : State) : Out := lane h (axisBody 64 (fun t r _ => (r, t)) h o) s
def execVrotc (h : Head) (o : VRotOp) (s : State) : Out := lane h (axisBody 16 (fun t r c => ((r + 16 - t) % 16, c)) h o) s
def execVbcc (h : Head) (o : VRotOp) (s : State) : Out := lane h (axisBody 16 (fun t _ c => (t, c)) h o) s

/-- One level of the fixed pairwise tree; none stands for an inactive element. -/
def treeLevel {α : Type} (f : α → α → α) : List (Option α) → List (Option α)
  | a :: b :: r =>
    (match a, b with
      | none, b => b
      | a, none => a
      | some x, some y => some (f x y)) :: treeLevel f r
  | l => l

/-- The tree over 2^n elements (R188). -/
def treeReduce {α : Type} (f : α → α → α) : Nat → List (Option α) → Option α
  | 0, l => l.head?.getD none
  | n + 1, l => treeReduce f n (treeLevel f l)

/-- The operator of a reduction on two containers (R188). -/
def redElem (o : VRedOp) (a b : BitVec 32) : BitVec 32 :=
  match o.op with
  | .add => byType o.ty o.rm o.sat (· + ·) (fAdd o.rm) a b
  | .min => byType o.ty .rne false min fMin a b
  | .max => byType o.ty .rne false max fMax a b

/-- What a reduction writes of a value: an element of its type (R161), a NaN canonical (03 R55), also where a line's only active element
reaches it as it was read (log 86). -/
def redOut (ty : Fmt) (a : BitVec 32) : BitVec 32 :=
  if ty.isFloat then putVal ty .rne (elemVal ty a) else toContainer ty (containerBits ty a)

/-- VREDR and VREDC (R188): `line l i` is element i of line l, 2^lg elements to a line. -/
def redBody (lines lg : Nat) (line : Nat → Nat → Nat) (lineAt : Nat → Nat) (h : Head) (o : VRedOp) : LaneM Unit :=
  vecOp h false 32 false o.d [.reg o.a] (elementwise fun x gs j =>
    let g := gs.getD 0 (.pat 0)
    let one := fun l => treeReduce (redElem o) lg ((List.range (2 ^ lg)).map fun i =>
      let e := line l i
      if x.active 32 1024 j e then some (g.at (some o.ty) j e) else none)
    let all := (List.range lines).map fun l => redOut o.ty ((one l).getD 0)
    fun e => all.getD (lineAt e) 0)

def execVredr (h : Head) (o : VRedOp) (s : State) : Out := lane h (redBody 16 6 (fun l i => 64 * l + i) (· / 64) h o) s
def execVredc (h : Head) (o : VRedOp) (s : State) : Out := lane h (redBody 64 4 (fun l i => 64 * i + l) (· % 64) h o) s

/-- VTRN (R189): (r, 16b + c) takes (c, 16b + r). -/
def vtrnBody (h : Head) (o : VTrnOp) : LaneM Unit :=
  vecOp h false 32 false o.d [.reg o.a] (elementwise fun _ gs j e =>
    (gs.getD 0 (.pat 0)).at none j (64 * (e % 16) + 16 * (e % 64 / 16) + e / 64))

def execVtrn (h : Head) (o : VTrnOp) (s : State) : Out := lane h (vtrnBody h o) s

end Sys2Proof.Machine
end

