-- ==== Sys2Proof/Machine/Tensor.lean ====
section
/-! DEFINITION. Tensor-table entries (08 R196, R197; 09 R235, R236), the tiles they cut a tensor into (08 R198), and what a fill
reads and a write-back writes (08 R199). -/

namespace Sys2Proof.Machine

open Sys2Proof

/-! ### The entry -/

/-- The fields of a tensor-table entry (08 R196, 09 R235). -/
structure TEnt where
  hdl    : BitVec 12
  sfmt   : Nat
  cfmt   : Nat
  ndim   : Nat
  ctype  : Nat
  win    : Bool
  offset : Nat
  d      : Vector Nat 4
  s      : Vector Int 4
  t      : Vector Nat 4
  shdl   : BitVec 12
  blk    : Nat
  soff   : Nat
  edhdl  : BitVec 12
  edoff  : Nat
  kw : Nat
  kh : Nat
  sx : Nat
  sy : Nat
  dx : Nat
  dy : Nat
  px : Nat
  py : Nat
  ow : Nat
  oh : Nat
  pad : Nat
  deriving DecidableEq, Repr

def tEnt (e : Rec128) : TEnt :=
  let v := e.toNat
  let f := bitsOf v
  let s := fun i => (BitVec.ofNat 32 (f (256 + 32 * i) 32)).toInt
  { hdl := BitVec.ofNat 12 (f 0 12), sfmt := f 12 4, cfmt := f 16 4, ndim := f 20 2, ctype := f 22 2, win := f 24 1 = 1,
    offset := f 64 64, d := #v[f 128 32, f 160 32, f 192 32, f 224 32], s := #v[s 0, s 1, s 2, s 3],
    t := #v[f 384 16, f 400 16, f 416 16, f 432 16], shdl := BitVec.ofNat 12 (f 448 12), blk := f 460 8, soff := f 512 64,
    edhdl := BitVec.ofNat 12 (f 576 12), edoff := f 640 64, kw := f 704 8, kh := f 712 8, sx := f 720 8, sy := f 728 8,
    dx := f 736 8, dy := f 744 8, px := f 752 8, py := f 760 8, ow := f 768 16, oh := f 784 16, pad := f 800 32 }

/-- A format code names a block format. -/
def blockFmt (c : Nat) : Bool := c = 0xC || c = 0xD

def fmtOfCode (c : Nat) : Fmt := (Fmt.ofCode c).getD .f32

def TEnt.cf (x : TEnt) : Fmt := fmtOfCode x.cfmt
def TEnt.sf (x : TEnt) : Fmt := fmtOfCode x.sfmt

/-- The extents of the operand that lookups see: the virtual ones under a window view (09 R236). -/
def TEnt.ext (x : TEnt) : Vector Nat 4 :=
  if x.win then #v[x.d[0] * x.kw * x.kh, x.ow * x.oh * x.d[3], 1, 1] else x.d

/-- The elements of a tile. -/
def TEnt.count (x : TEnt) : Nat := x.t[0] * x.t[1] * x.t[2] * x.t[3]

/-- Where the scale bytes of a block-format line start (08 R198). -/
def TEnt.scales (x : TEnt) : Nat := ((x.count * x.cf.width + 7) / 8 + 63) / 64 * 64

/-- The bytes of a line and the granules it occupies (08 R198). -/
def TEnt.bytes (x : TEnt) : Nat := if blockFmt x.cfmt then x.scales + (x.count + 31) / 32 else x.count * x.cf.bytes

def TEnt.granules (x : TEnt) : Nat := (x.bytes + 511) / 512

/-- The checks of R236 on a window view: the word of the first that fails. -/
def TEnt.badWindow (x : TEnt) : Option Nat :=
  if !x.win then none
  else firstOf [
    (x.kw = 0 || x.kh = 0 || x.sx = 0 || x.sy = 0 || x.dx = 0 || x.dy = 0, 11),
    (x.ow = 0 || x.oh = 0, 12),
    (blockFmt x.sfmt || blockFmt x.cfmt, 0),
    (x.t[2] ≠ 1 || x.t[3] ≠ 1, 6),
    (2 ^ 32 ≤ x.ext[0], 11),
    (2 ^ 32 ≤ x.ext[1], 12)]
where
  firstOf (l : List (Bool × Nat)) : Option Nat := (l.find? (·.1)).map (·.2)

/-- R197: the word of the first condition that makes an entry ill-formed. -/
def TEnt.illFormed (x : TEnt) : Option Nat :=
  let sblk := blockFmt x.sfmt
  let cblk := blockFmt x.cfmt
  let bad := fun (v : Vector Nat 4) (i : Fin 4) => if i.val ≤ x.ndim then v[i] = 0 else v[i] ≠ 1
  let rowBad := fun (i : Fin 4) => ((x.sf.width : Int) * x.s[i]) % 8 ≠ 0
  let checks : List (Bool × Nat) := [
    (13 < x.sfmt || 13 < x.cfmt, 0),
    (bad x.d 0 || bad x.d 1, 2), (bad x.d 2 || bad x.d 3, 3), (bad x.t 0 || bad x.t 1 || bad x.t 2 || bad x.t 3, 6),
    (x.blk ≠ (if sblk || cblk then 32 else 0), 7),
    (sblk && x.cfmt ≠ x.sfmt && 3 < x.cfmt, 0),
    (sblk && cblk && x.cfmt ≠ x.sfmt, 0),
    (cblk && x.t[0] % 32 ≠ 0, 6),
    (sblk && (x.s[0] ≠ 1 || rowBad 1), 4), (sblk && (rowBad 2 || rowBad 3), 5),
    (x.cfmt = 0xD && x.ctype = 3, 0),
    (64 < x.granules, 6),
    (x.edoff % 8 ≠ 0, 10)]
  match (checks.find? (·.1)).map (·.2) with
  | some w => some w
  | none => x.badWindow

/-- coords_ok of R202. -/
def TEnt.coordsOk (x : TEnt) (crd : Vector Word 4) : Bool :=
  (List.finRange 4).all fun i => crd[i].toNat < (x.ext[i] + x.t[i] - 1) / x.t[i]

/-- The position in the tensor of tile index n of a tile (08 R198). -/
def TEnt.place (x : TEnt) (crd : Vector Word 4) (n : Nat) : Vector Nat 4 :=
  let a := n / x.t[0]
  let b := a / x.t[1]
  #v[crd[0].toNat * x.t[0] + n % x.t[0], crd[1].toNat * x.t[1] + a % x.t[1], crd[2].toNat * x.t[2] + b % x.t[2],
    crd[3].toNat * x.t[3] + b / x.t[2]]

def TEnt.inside (x : TEnt) (g : Vector Nat 4) : Bool := (List.finRange 4).all fun i => g[i] < x.ext[i]

/-- The input position that a window view's element stands for; none for padding (09 R236). -/
def TEnt.window (x : TEnt) (g : Vector Nat 4) : Option (Vector Nat 4) :=
  let k := g[0]
  let q := g[1]
  let cx := k / x.d[0] % x.kw
  let cy := k / (x.d[0] * x.kw)
  let ox := q % x.ow
  let oy := q / x.ow % x.oh
  let px : Int := (ox * x.sx + cx * x.dx : Nat) - (x.px : Int)
  let py : Int := (oy * x.sy + cy * x.dy : Nat) - (x.py : Int)
  if 0 ≤ px && px < x.d[1] && 0 ≤ py && py < x.d[2] then
    some #v[k % x.d[0], px.toNat, py.toNat, q / (x.ow * x.oh)]
  else none

/-- The byte offset of a stored element, non-block (08 R199). -/
def TEnt.storedAt (x : TEnt) (g : Vector Nat 4) : Int :=
  x.offset + x.sf.bytes * (g[0] * x.s[0] + g[1] * x.s[1] + g[2] * x.s[2] + g[3] * x.s[3])

/-- The bit offset of a stored code, and the byte offset of its scale (08 R199). -/
def TEnt.codeBit (x : TEnt) (g : Vector Nat 4) : Int :=
  8 * x.offset + x.sf.width * (g[0] + g[1] * x.s[1] + g[2] * x.s[2] + g[3] * x.s[3])

/-- The number of a stored block: its scale byte lies at SOFF plus this. -/
def TEnt.blockNo (x : TEnt) (g : Vector Nat 4) : Nat := g[0] / 32 + (x.d[0] + 31) / 32 * (g[1] + x.d[1] * (g[2] + x.d[2] * g[3]))

/-! ### Faults (08 R224, 14 R312) -/

/-- Coordinates in LOOP, 32 bits each. -/
def coordLoop (crd : Vector Word 4) : BitVec 128 :=
  BitVec.ofNat 128 (crd[0].toNat % 2 ^ 32 + 2 ^ 32 * (crd[1].toNat % 2 ^ 32) + 2 ^ 64 * (crd[2].toNat % 2 ^ 32) +
    2 ^ 96 * (crd[3].toNat % 2 ^ 32))

def entryFault (t : BitVec 12) (word : Nat) : FaultRec :=
  { code := 0x0404, idx := t, field := BitVec.ofNat 9 word, tfld := true }

def coordFault (t : BitVec 12) (c : Vector Word 4) : FaultRec := { code := 0x0405, idx := t, loop := coordLoop c }

/-! ### Reading the elements of a tile (08 R199) -/

/-- An element as a fill finds it: outside the tensor, padding, or stored bits with their scale byte and block number. -/
inductive RawElem
  | outside
  | pad
  | code (v : Nat) (scale : BitVec 8) (block : Nat)
  deriving DecidableEq, Repr

/-- The handle of an index as a core sees it. -/
def State.handleFor (s : State) (c : CoreId) (n : BitVec 12) : State × Except FaultRec Handle :=
  let (s, e) := s.handleEntry c n
  match handleOf n e with
  | some h => (s, .ok h)
  | none => (s, .error (handleFault n))

/-- The virtual address of bytes of a tensor's storage with the checks of 06 R130; `align` is their natural size. -/
def storeAddr (h : Handle) (off : Int) (n align : Nat) : Except FaultRec Nat :=
  if off < 0 || h.bound < off + n then .error { code := 0x0302, aux := h.n.setWidth 64, addr := BitVec.ofInt 64 off }
  else if (h.base + off) % align ≠ 0 then .error (alignFault (h.base + off))
  else .ok (h.base + off.toNat)

/-- Bytes of a tensor's storage read by the Caldera, with the key they were read under. -/
def State.tileRead (s : State) (c : CoreId) (ctx : BitVec 10) (hn : BitVec 12) (off : Int) (n align : Nat) :
    State × Except FaultRec (Nat × List KeyTag) :=
  match s.handleFor c hn with
  | (s, .error f) => (s, .error f)
  | (s, .ok h) =>
    match storeAddr h off n align with
    | .error f => (s, .error f)
    | .ok va =>
      if h.space == .peer then (s, .error { code := 0x0305, addr := BitVec.ofNat 64 va })
      else match s.readVa c ctx (viaHandle h false) va n with
        | (s, .error f) => (s, .error f)
        | (s, .ok b) =>
          let key := ((s.core c).leaves.find? (·.maps va)).bind fun l => s.keyTag ctx l.key
          (s, .ok (leNat b, key.toList))

/-- One stored element read: its bits and its scale byte. -/
def State.elemRead (s : State) (c : CoreId) (ctx : BitVec 10) (x : TEnt) (g : Vector Nat 4) :
    State × Except FaultRec (RawElem × List KeyTag) :=
  if blockFmt x.sfmt then
    let bit := x.codeBit g
    let w := x.sf.width
    let n := ((bit % 8).toNat + w + 7) / 8
    match s.tileRead c ctx x.hdl (bit / 8) n 1 with
    | (s, .error f) => (s, .error f)
    | (s, .ok (v, ks)) =>
      match s.tileRead c ctx x.shdl (x.soff + x.blockNo g) 1 1 with
      | (s, .error f) => (s, .error f)
      | (s, .ok (sc, ks')) => (s, .ok (.code (bitsOf v (bit % 8).toNat w) (BitVec.ofNat 8 sc) (x.blockNo g), ks ++ ks'))
  else
    match s.tileRead c ctx x.hdl (x.storedAt g) x.sf.bytes x.sf.bytes with
    | (s, .error f) => (s, .error f)
    | (s, .ok (v, ks)) => (s, .ok (.code v 0 0, ks))

/-- The elements of a tile read in tile-index order up to the first fault. -/
def State.rawTile (s : State) (c : CoreId) (ctx : BitVec 10) (x : TEnt) (co : Vector Word 4) :
    List Nat → List RawElem → List KeyTag → State × Except FaultRec (List RawElem × List KeyTag)
  | [], acc, ks => (s, .ok (acc.reverse, ks))
  | n :: rest, acc, ks =>
    let g := x.place co n
    if !x.inside g then s.rawTile c ctx x co rest (.outside :: acc) ks
    else match (if x.win then x.window g else some g) with
      | none => s.rawTile c ctx x co rest (.pad :: acc) ks
      | some g =>
        match s.elemRead c ctx x g with
        | (s, .error f) => (s, .error f)
        | (s, .ok (r, k)) => s.rawTile c ctx x co rest (r :: acc) (k.filter (!ks.contains ·) ++ ks)

/-! ### The line's data (08 R198, R199) -/

/-- A number from fields of `w` bits, the first lowest. -/
def packW (w : Nat) (l : List Nat) : Nat := l.foldr (fun v r => v % 2 ^ w + 2 ^ w * r) 0

/-- The value of a raw element in its stored format. -/
def TEnt.rawVal (x : TEnt) (r : RawElem) : FVal :=
  match r with
  | .code v sc _ => if blockFmt x.sfmt then blockVal x.sf sc v else decodeFmt x.sf v
  | _ => .fin false 0 0

/-- An element's bits in a non-block cache format. -/
def TEnt.plainCode (x : TEnt) (r : RawElem) : Nat :=
  match r with
  | .outside => 0
  | .pad => containerBits x.cf (BitVec.ofNat 32 x.pad)
  | .code v _ _ => if x.sfmt = x.cfmt then v else encodeFmt x.cf .rne (x.rawVal r)

def RawElem.isInside (r : RawElem) : Bool :=
  match r with
  | .code _ _ _ => true
  | _ => false

/-- A block's values quantised with a derived scale (03 R66, 07 R185): the scale byte and a code for each value, none for a
position that is outside. -/
def quantise (f : Fmt) (ty : Nat) (rm : Rm) (l : List (Option FVal)) : Nat × List Nat :=
  let vs := l.filterMap id
  if vs.isEmpty then (ty * 64, l.map fun _ => 0)
  else
    let e := if vs.any FVal.isSpecial then 63 else deriveE f ty vs
    (ty * 64 + e, l.map fun v =>
      match v with
      | none => 0
      | some v => if e = 63 then 0 else encodeBlockVal f ty e rm v)

/-- The blocks of 32 of a list. -/
def blocksOf {α : Type} : Nat → List α → List (List α)
  | 0, _ => []
  | n + 1, l => l.take 32 :: blocksOf n (l.drop 32)

/-- A block-format line from its codes and scale bytes. -/
def TEnt.blockLine (x : TEnt) (codes scales : List Nat) : LineData :=
  BitVec.ofNat 262144 (packW x.cf.width codes + 2 ^ (8 * x.scales) * packW 8 scales)

/-- The data of a line whose positions hold these values, none outside, in the cache format (08 R199, 09 R238). -/
def TEnt.encodeLine (x : TEnt) (rm : Rm) (l : List (Option FVal)) : LineData :=
  if blockFmt x.cfmt then
    let q := (blocksOf ((l.length + 31) / 32) l).map (quantise x.cf x.ctype rm)
    x.blockLine (q.flatMap (·.2)) (q.map (·.1))
  else BitVec.ofNat 262144 (packW x.cf.width (l.map fun v =>
    match v with
    | none => 0
    | some v => encodeFmt x.cf rm v))

/-- The data of a filled line (08 R199). -/
def TEnt.fillData (x : TEnt) (l : List RawElem) : LineData :=
  if !blockFmt x.cfmt then BitVec.ofNat 262144 (packW x.cf.width (l.map x.plainCode))
  else if x.sfmt = x.cfmt then
    let code := fun (r : RawElem) =>
      match r with
      | .code v _ _ => v
      | _ => 0
    let scale := fun (b : List RawElem) =>
      (b.findSome? fun r =>
        match r with
        | .code _ sc _ => some sc.toNat
        | _ => none).getD (x.ctype * 64)
    x.blockLine (l.map code) ((blocksOf ((l.length + 31) / 32) l).map scale)
  else x.encodeLine .rne (l.map fun r => if r.isInside then some (x.rawVal r) else none)

/-- The stored blocks that a fill decodes, each once (03 R62). -/
def TEnt.decoded (x : TEnt) (l : List RawElem) : List (Nat × BitVec 8) :=
  if blockFmt x.sfmt && !blockFmt x.cfmt then
    (l.filterMap fun r =>
      match r with
      | .code _ sc b => some (b, sc)
      | _ => none).eraseDups
  else []

/-- A line's code at a tile index, and its scale byte in a block format. -/
def TEnt.codeAt (x : TEnt) (v : LineData) (n : Nat) : Nat := bitsOf v.toNat (x.cf.width * n) x.cf.width

def TEnt.scaleOf (x : TEnt) (v : LineData) (n : Nat) : BitVec 8 := BitVec.ofNat 8 (bitsOf v.toNat (8 * (x.scales + n / 32)) 8)

/-- The value of a line's element. -/
def TEnt.valAt (x : TEnt) (v : LineData) (n : Nat) : FVal :=
  if blockFmt x.cfmt then blockVal x.cf (x.scaleOf v n) (x.codeAt v n) else decodeFmt x.cf (x.codeAt v n)

/-- A fill's result: the data and the keys they were read under, with the blocks decoded counted on the core. -/
def State.fillTile (s : State) (c : CoreId) (ctx : BitVec 10) (ent : Rec128) (co : Vector Word 4) :
    State × Except FaultRec (LineData × List KeyTag) :=
  let x := tEnt ent
  match s.rawTile c ctx x co (List.range x.count) [] [] with
  | (s, .error f) => (s, .error f)
  | (s, .ok (l, ks)) =>
    (s.updCore c fun k => (x.decoded l).foldl (fun k b => countBlock x.sf b.2 k) k, .ok (x.fillData l, ks))

/-! ### What a write-back writes (08 R199) -/

/-- Bits to write at a bit offset of a handle's storage. -/
structure BitPut where
  bit : Int
  w   : Nat
  v   : Nat
  deriving DecidableEq, Repr

/-- The tile indices of a tile that lie inside the tensor. -/
def TEnt.insideList (x : TEnt) (co : Vector Word 4) : List Nat := (List.range x.count).filter fun n => x.inside (x.place co n)

/-- The values of a non-block stored format: one put for each inside element. -/
def TEnt.plainPuts (x : TEnt) (co : Vector Word 4) (v : LineData) : List BitPut :=
  (x.insideList co).map fun n =>
    let b := if x.sfmt = x.cfmt then x.codeAt v n else encodeFmt x.sf .rne (x.valAt v n)
    ⟨8 * x.storedAt (x.place co n), x.sf.width, b⟩

/-- Codes and scale bytes copied where both formats are the same block format. -/
def TEnt.copyPuts (x : TEnt) (co : Vector Word 4) (v : LineData) : List BitPut × List BitPut :=
  let ns := x.insideList co
  (ns.map fun n => ⟨x.codeBit (x.place co n), x.sf.width, x.codeAt v n⟩,
    (ns.filter fun n => n % 32 = 0).map fun n => ⟨8 * (x.soff + x.blockNo (x.place co n) : Nat), 8, (x.scaleOf v n).toNat⟩)

/-- The stored blocks that a line touches, by the position of their first element, each once. -/
def TEnt.touchedBlocks (x : TEnt) (co : Vector Word 4) : List (Vector Nat 4) :=
  ((x.insideList co).map fun n =>
    let g := x.place co n
    #v[g[0] / 32 * 32, g[1], g[2], g[3]]).eraseDups

/-- The tile index at which a line holds a tensor position, if it does. -/
def TEnt.indexOf (x : TEnt) (co : Vector Word 4) (g : Vector Nat 4) : Option Nat :=
  let j := fun (i : Fin 4) => g[i] - co[i].toNat * x.t[i]
  if (List.finRange 4).all fun i => co[i].toNat * x.t[i] ≤ g[i] && g[i] < (co[i].toNat + 1) * x.t[i] then
    some (j 0 + x.t[0] * (j 1 + x.t[1] * (j 2 + x.t[2] * j 3)))
  else none

/-- The inside positions of a stored block. -/
def TEnt.blockPlaces (x : TEnt) (b : Vector Nat 4) : List (Vector Nat 4) :=
  ((natRange b[0] 32).filter (· < x.d[0])).map fun g => #v[g, b[1], b[2], b[3]]

/-- The values of a stored block: from the line where it holds them, else read from storage. The decoding is counted nowhere (03 R62;
log 96). -/
def State.blockVals (s : State) (c : CoreId) (ctx : BitVec 10) (x : TEnt) (co : Vector Word 4) (v : LineData) :
    List (Vector Nat 4) → List FVal → State × Except FaultRec (List FVal)
  | [], acc => (s, .ok acc.reverse)
  | g :: rest, acc =>
    match x.indexOf co g with
    | some n => s.blockVals c ctx x co v rest (x.valAt v n :: acc)
    | none =>
      match s.elemRead c ctx x g with
      | (s, .error f) => (s, .error f)
      | (s, .ok (r, _)) => s.blockVals c ctx x co v rest (x.rawVal r :: acc)

/-- Stored blocks quantised again with the line's elements (R199). A type of 0b11 in Q6, which no engine writes, leaves arbitrary
codes (log 17). -/
def State.requantise (s : State) (c : CoreId) (ctx : BitVec 10) (x : TEnt) (co : Vector Word 4) (v : LineData) :
    List (Vector Nat 4) → List BitPut → List BitPut → State × Except FaultRec (List BitPut × List BitPut)
  | [], codes, scales => (s, .ok (codes, scales))
  | b :: rest, codes, scales =>
    let places := x.blockPlaces b
    match s.blockVals c ctx x co v places [] with
    | (s, .error f) => (s, .error f)
    | (s, .ok vs) =>
      let q := quantise x.sf x.ctype .rne (vs.map some)
      let free := (s.freeVal 256).toNat
      let odd := x.sfmt = 0xD && x.ctype = 3
      let code := fun (p : Vector Nat 4 × Nat) =>
        (⟨x.codeBit p.1, x.sf.width, if odd then bitsOf free (6 * (p.1[0] % 32)) 6 else p.2⟩ : BitPut)
      let sc : BitPut := ⟨8 * (x.soff + x.blockNo b : Nat), 8, if odd then bitsOf free 200 8 % 192 else q.1⟩
      s.drew.requantise c ctx x co v rest (codes ++ (places.zip q.2).map code) (scales ++ [sc])

/-- A byte to write: its offset from the handle's base, which of its bits, and their value. -/
structure BytePut where
  off  : Int
  mask : Nat
  v    : Nat
  deriving DecidableEq, Repr

/-- The byte at an offset merged into a rising list; where two puts give the same bits, those of the later stand. -/
def addByte (off : Int) (mask v : Nat) : List BytePut → List BytePut
  | [] => [⟨off, mask, v⟩]
  | b :: r =>
    if off < b.off then ⟨off, mask, v⟩ :: b :: r
    else if off = b.off then ⟨off, b.mask ||| mask, (b.v &&& (255 - mask)) ||| v⟩ :: r
    else b :: addByte off mask v r

/-- The bytes that a put touches. -/
def BitPut.bytes (p : BitPut) : List BytePut :=
  let sh := (p.bit % 8).toNat
  let mask := (2 ^ p.w - 1) * 2 ^ sh
  let v := p.v % 2 ^ p.w * 2 ^ sh
  (List.range ((sh + p.w + 7) / 8)).map fun (i : Nat) => ⟨p.bit / 8 + (i : Int), bitsOf mask (8 * i) 8, bitsOf v (8 * i) 8⟩

/-- The bytes of puts made one after another. -/
def putsInOrder (l : List BitPut) : List BytePut := (l.flatMap BitPut.bytes).foldl (fun acc b => addByte b.off b.mask b.v acc) []

/-- No two puts give the same bit: the bytes hold as many bits as the puts. -/
def putsApart (l : List BitPut) (bytes : List BytePut) : Bool :=
  (l.map (·.w)).sum = (bytes.map fun b => (List.range 8).countP b.mask.testBit).sum

/-- The bytes of puts. Where elements fall on one bit, the one that is written last is a free choice (log 92). -/
def mergePuts (draw : Nat) (l : List BitPut) : List BytePut :=
  if putsApart l (putsInOrder l) then putsInOrder l else putsInOrder (l.rotateLeft (draw % l.length))

end Sys2Proof.Machine
end

