-- ==== Sys2Proof/Machine/MatRecord.lean ====
section
/-! DEFINITION. Matrix records (09 R229, R230): their fields, their steps, and the fate of a record that meets a fault (R234). -/

namespace Sys2Proof.Machine

open Sys2Proof

/-- A field of a record. -/
def recBits (r : Rec64) (lo w : Nat) : Nat := bitsOf r.toNat lo w

def matKind (r : Rec64) : Nat := recBits r 0 8
def matZd (r : Rec64) : Fin 8 := Fin.ofNat 8 (recBits r 8 3)
def matRecB (r : Rec64) : Bool := recBits r 11 1 = 1
def matAccm (r : Rec64) : Bool := recBits r 12 1 = 1
def matHa (r : Rec64) : Nat := recBits r 13 2
def matHb (r : Rec64) : Nat := recBits r 15 2
def matRm (r : Rec64) : Rm := Rm.ofCode (recBits r 17 2)
def matTa (r : Rec64) : BitVec 12 := BitVec.ofNat 12 (recBits r 20 12)
def matTb (r : Rec64) : BitVec 12 := BitVec.ofNat 12 (recBits r 32 12)

/-- The trip count of level l. -/
def matN (r : Rec64) (l : Nat) : Nat := recBits r (64 + 112 * l) 32

/-- A signed byte of a record. -/
def signedByte (r : Rec64) (lo : Nat) : Int := (BitVec.ofNat 8 (recBits r lo 8)).toInt

/-- The coordinate deltas of TA and TB, and the window deltas, of level l. -/
def matSa (r : Rec64) (l d : Nat) : Int := signedByte r (96 + 112 * l + 8 * d)
def matSb (r : Rec64) (l d : Nat) : Int := signedByte r (128 + 112 * l + 8 * d)
def matSz (r : Rec64) (l d : Nat) : Int := signedByte r (160 + 112 * l + 8 * d)

/-- The number of steps: none where a trip count is zero. -/
def matSteps (r : Rec64) : Nat := matN r 0 * matN r 1 * matN r 2 * matN r 3

/-- The loop indices of step number `pos`, level 0 innermost. -/
def matLoop (r : Rec64) (pos : Nat) : Vector Nat 4 :=
  let a := pos / matN r 0
  let b := a / matN r 1
  #v[pos % matN r 0, a % matN r 1, b % matN r 2, b / matN r 2]

/-- LOOP of an error record: 32 bits for each level. -/
def loopBits (i : Vector Nat 4) : BitVec 128 :=
  BitVec.ofNat 128 (i[0] % 2 ^ 32 + 2 ^ 32 * (i[1] % 2 ^ 32) + 2 ^ 64 * (i[2] % 2 ^ 32) + 2 ^ 96 * (i[3] % 2 ^ 32))

/-- A coordinate of an operand in a step, read as n64 (09 R230). -/
def matCoord (base : Word) (delta : Nat → Nat → Int) (i : Vector Nat 4) (d : Nat) : Word :=
  let sum := ((List.finRange 4).map fun (l : Fin 4) => ((i[l] : Nat) : Int) * delta l.val d).foldl (· + ·) 0
  BitVec.ofInt 64 ((bitsOf base.toNat (16 * d) 16 : Int) + sum)

def matCoords (base : Word) (delta : Nat → Nat → Int) (i : Vector Nat 4) : Vector Word 4 :=
  #v[matCoord base delta i 0, matCoord base delta i 1, matCoord base delta i 2, matCoord base delta i 3]

/-- The window of a step: its row or its column (09 R230). -/
def matWindow (r : Rec64) (b2 : Word) (i : Vector Nat 4) (d : Nat) : Int :=
  (bitsOf b2.toNat (8 * d) 8 : Int) + ((List.finRange 4).map fun (l : Fin 4) => ((i[l] : Nat) : Int) * matSz r l.val d).foldl (· + ·) 0

/-- What the fault of a step names (09 R234). -/
def stepOrigin (o : EngOp) (idx : BitVec 12) (r : Rec64) (silent : Bool) : TOrigin :=
  ⟨engineSrc 5, o.bundle, idx, BitVec.ofNat 8 (matKind r), loopBits (matLoop r o.pos), true, silent⟩

/-- The accumulator that a fault of an operation invalidates: ZD, but for an accumulator store (09 R228, R234). Where KIND does not match the
instruction, that KIND decides is the model's choice (log 113). -/
def invalidates (o : EngOp) : Option (Fin 8) :=
  match o.kind with
  | .matrix _ r _ _ => if matKind r = 0x12 then none else some (matZd r)
  | _ => none

/-- The cycles that the current step of an operation has waited for its lines, counted up to now; it waits on, or no more (09 R227). -/
def EngOp.waitedTo (now : Nat) (on : Bool) (o : EngOp) : EngOp :=
  { o with waited := o.waited + (o.parked.map (now - ·)).getD 0, parked := if on then o.parked.map fun _ => now else none }

/-- R234: a record stops at a fault: e5 is halted and ZD invalid. Its step waits no more. -/
def failRecord (o : EngOp) (f : FaultRec) (k : Core) : Core :=
  let k := k.setOp 5 { o with failed := some f, lines := [], parked := none }
  { k.setQ 5 { k.e[(5 : Fin 6)] with halted := true } with
    z := match invalidates o with
      | none => k.z
      | some z => k.z.set z none }

end Sys2Proof.Machine
end

