-- ==== Sys2Proof/Machine/Accum.lean ====
section
/-! DEFINITION. Accumulators (02 R44, 09 R228): their elements, and the transfers VZRD and VZWR (07 R190, R191). -/

namespace Sys2Proof.Machine

open Sys2Proof

/-- Element (i, j) of an accumulator. -/
def accGet (a : Acc) (i j : Nat) : Nat := bitsOf a.toNat (32 * (128 * i + j)) 32

/-- The accumulator an operation of e5 uses. -/
def EngOp.accOf (o : EngOp) : Option (Fin 8) :=
  match o.kind with
  | .matrix _ r _ _ => some (matZd r)
  | .mzclr z _ => some z
  | _ => none

/-- An operation in e5 uses the accumulator (07 R191). -/
def Core.accBusy (k : Core) (z : Fin 8) : Bool := k.e[(5 : Fin 6)].ops.any fun o => !o.held && o.accOf = some z

/-- The accumulator that an operand names; one beyond the grant is illegal (02 R44). -/
def accOperand (o : Operand) : LaneM (Fin 8) := do
  let g ← getGroup
  match o.name with
  | .z n => do
    guardLegal (n.val < g.accs)
    return n
  | _ => illegal

/-- The accumulator fault (14 R312). -/
def accFault (z : Fin 8) : FaultRec := { code := 0x0205, aux := BitVec.ofNat 64 z.val }

/-- VZRD (07 R190): element e of the register is element 1024 p + e of the accumulator. -/
def vzrdBody (h : Head) (o : VZOp) : LaneM Unit := do
  let z ← accOperand o.a
  guardStall (!(← getCore).accBusy z)
  match (← getCore).z[z] with
  | none => faultWith (accFault z)
  | some a =>
    let p := o.part.toNat
    vecOp h true 32 false o.d [] (elementwise fun _ _ _ e => BitVec.ofNat 32 (bitsOf a.toNat (32 * (1024 * p + e)) 32))

def execVzrd (h : Head) (o : VZOp) (s : State) : Out := lane h (vzrdBody h o) s

/-- A part of an accumulator replaced. -/
def putPart (a : Acc) (p : Nat) (f : Nat → BitVec 32) : Acc :=
  BitVec.ofNat 524288 (putBits a.toNat (32768 * p) 32768 (ofElems f).toNat)

/-- VZWR (07 R190): where the accumulator was invalid every other element becomes +0. -/
def vzwrBody (h : Head) (o : VZOp) : LaneM Unit := do
  let z ← accOperand o.d
  guardStall (!(← getCore).accBusy z)
  let x ← vguard h true 32
  let gs ← gather 1 (groupNames 1 o.a) [.reg o.a]
  let p := o.part.toNat
  modCore fun k =>
    let old : Acc := k.z[z].getD 0
    let f := fun e =>
      if x.active 32 1024 0 e then (gs.getD 0 (.pat 0)).at none 0 e else BitVec.ofNat 32 (bitsOf old.toNat (32 * (1024 * p + e)) 32)
    { k with z := k.z.set z (some (putPart old p f)) }

def execVzwr (h : Head) (o : VZOp) (s : State) : Out := lane h (vzwrBody h o) s

end Sys2Proof.Machine
end

