-- ==== Sys2Proof/Machine/BarrierOps.lean ====
section
/-! DEFINITION. The barrier instructions BARINIT, BARARV, BARWAIT and BARTST (15 R323, R324), and BARRIER_ARRIVAL (R322). -/

namespace Sys2Proof.Machine

open Sys2Proof

/-- An access to a barrier through a handle, with one part of the 64 bytes. -/
def barAccess (a : Access) (hd : Handle) (va : BitVec 56) (op : MemOp) : Access := handleAccess a hd .n64 [⟨va, 64, op, .sent⟩]

/-- BARINIT (15 R324). -/
def barinitBody (h : Head) (o : BarInitOp) : LaneM Unit := do
  let (hd, va) ← handleAddr o.ad o.o.ssc 64 64 false
  let t ← readS o.t
  let id ← nextId
  let dest ← reserveDest o.d id
  let a := freshAccess h id (← curSlot) (← curBundle) .barinit hd.space.kind o.o dest
  issueAccess (barAccess a hd va (.bar (.init o.kind o.rearm t)))

def execBarinit (h : Head) (o : BarInitOp) (s : State) : Out := lane h (barinitBody h o) s

/-- BARARV (15 R324): a weight of 0 or above 65,535 raises the barrier fault at issue. -/
def bararvBody (h : Head) (o : BarArvOp) : LaneM Unit := do
  let (hd, va) ← handleAddr o.ad o.o.ssc 64 64 false
  let w ← readS o.w
  guardFault (w ≠ 0 && w.toNat ≤ 65535) (barrierFault va.toNat 5 0)
  let id ← nextId
  let dest ← match o.d with
    | some d => reserveDest d id
    | none => pure Dest.none
  let a := freshAccess h id (← curSlot) (← curBundle) (.bararv o.d.isSome) hd.space.kind o.o dest
  issueAccess (barAccess a hd va (.bar (.arrive (w.setWidth 16) (if o.pchk then some o.pexp else none) o.d.isSome)))

/-- An arrival whose fault at issue was skipped has no effect but that its destination is written zero, once it can be (14 R314, 15
R327). -/
def skippedArrival (o : BarArvOp) (s : State) : State :=
  let s1 := s.updCore s.cur.1 (·.updSlot s.cur.2 fun t => { t with pc := t.pc + 1, blk := none, arrived := none, solo := none, failed := false })
  if !(s.core s.cur.1).mayIssue s.cur.2 then s
  else match o.d with
    | none => s1
    | some d => settle (writeS d 0 s1) s

def execBararv (h : Head) (o : BarArvOp) (s : State) : Out :=
  if ((s.core s.cur.1).slot s.cur.2).failed then .next (skippedArrival o s) else lane h (bararvBody h o) s

/-! ### Reads that a slot awaits at its bundle -/

/-- A read that an instruction awaits at its bundle (BARWAIT, TEDACQ): the handle, the address and the bytes; what the instruction
does on a value it awaited, or none; what it does where the read failed and was skipped (14 R314); how its slot is blocked
meanwhile, by the physical address; and what the core keeps for it. -/
structure Awaited where
  hd     : Handle
  va     : Nat
  n      : Nat
  found  : List Byte → Option (LaneM Unit)
  failed : LaneM Unit
  blk    : Nat → BlockKind
  keep   : Core → Core

/-- The physical address of the memory that a core's access reaches. -/
def State.physOf (s : State) (c : CoreId) (va : Nat) : Nat :=
  ((s.partLeaf c va).map fun (l, x) => s.redirect (s.partOf x) (l.phys va)).getD 0

/-- A command that ends at its bundle leaves its copy of a tensor-table entry (05 R121). -/
def forgetEntry (s : State) : State := s.updCore s.cur.1 (·.updSlot s.cur.2 fun t => { t with entry := none })

/-- An instruction that awaits an acquire read (10 R254): `look` says what it reads. The read acts on the state in which the instruction
has not issued, so that what it counts and caches stays where it fails or must go on waiting; on the value awaited the instruction
issues. -/
def awaitRead (h : Head) (look : LaneM Awaited) (s0 s : State) : State :=
  let c := s.cur.1
  match look s with
  | .error (.stall b) => blockSlot b s0
  | .error e => stopLane e (forgetEntry s0)
  | .ok (x, s1) =>
    if ((s0.core c).slot s.cur.2).failed then settle ((takeFailed >>= fun _ => x.failed) s1) s0
    else
      let t := s0.updCore c x.keep
      match t.readVa c ((t.core c).ctxId.getD 0) { viaHandle x.hd false with acq := true } x.va x.n with
      | (t, .error f) => readFault f (forgetEntry t)
      | (t, .ok b) =>
        match x.found b with
        | none => blockSlot (x.blk (t.physOf c x.va)) t
        | some act => settle ((look >>= fun _ => act) (t.updCore c (startIssue h s.cur.2))) t

/-- BARWAIT of a local barrier (15 R324). -/
def barwaitLocalBody (h : Head) (o : BarWaitOp) : LaneM Unit := do
  let off ← localAddr o.ad o.o.ssc 64 64 false
  let ph ← readS o.ph
  guardOrder h .l o.o
  let b : Rec64 := BitVec.ofNat 512 (lsNat (← getCore) off 64)
  if barMet b (ph.getLsbD 0) then writeS o.d (barWord b false) else stallWait

/-- BARWAIT through a handle: an acquire read that finds the phase or TORN (15 R324). -/
def barwaitLook (h : Head) (o : BarWaitOp) : LaneM Awaited := do
  let (hd, va) ← handleAddr o.ad o.o.ssc 64 64 true
  let ph ← readS o.ph
  guardOrder h .g o.o
  let rec64 := fun (b : List Byte) => (BitVec.ofNat 512 (leNat b) : Rec64)
  return {
    hd := hd, va := va.toNat, n := 64
    found := fun b => if barMet (rec64 b) (ph.getLsbD 0) then some (writeS o.d (barWord (rec64 b) false)) else none
    failed := writeS o.d 0
    blk := fun pa => .barrier pa (ph.getLsbD 0)
    keep := id }

def execBarwait (h : Head) (o : BarWaitOp) (s : State) : Out :=
  if o.loc then lane h (barwaitLocalBody h o) s else .next (issueAct h (awaitRead h (barwaitLook h o)) s)

/-- BARTST (15 R324). -/
def bartstBody (h : Head) (o : BarTstOp) : LaneM Unit := do
  if o.loc then
    let off ← localAddr o.ad o.o.ssc 64 64 false
    let id ← nextId
    let dest ← reserveDest o.d id
    issueAccess (freshAccess h id (← curSlot) (← curBundle) (.bartst (some off)) .l o.o dest)
  else
    let (hd, va) ← handleAddr o.ad o.o.ssc 64 64 true
    let id ← nextId
    let dest ← reserveDest o.d id
    issueAccess (barAccess (freshAccess h id (← curSlot) (← curBundle) (.bartst none) .g o.o dest) hd va .load)

def execBartst (h : Head) (o : BarTstOp) (s : State) : Out := lane h (bartstBody h o) s

/-- BARRIER_ARRIVAL (15 R322): a BARARV reaches its barrier's ordering point, where R139 performs an atomic to that line. -/
def execBarrierArrival (c : CoreId) (id : Nat) (s : State) : Out :=
  if ((s.core c).access? id).any (·.kind.isArrival) then .next (s.sliceRequest c id 0 {}) else .next s

end Sys2Proof.Machine
end

