-- ==== Sys2Proof/Machine/Fabric.lean ====
section
/-! DEFINITION. Fabric out: FWR, FATOM and FREQ (17 R367 to R369), the records that e4 and the A slot send over peer links
(17 R362, R363, R366), and the completion of e4 operations. -/

namespace Sys2Proof.Machine

open Sys2Proof

/-! ### Links as a sender sees them -/

def State.link? (s : State) (i : BitVec 11) : Option LinkEnd := (s.links.find? (·.1 = i)).map (·.2)

def State.setLink (s : State) (i : BitVec 11) (l : LinkEnd) : State :=
  if (s.link? i).isSome then { s with links := s.links.map fun x => if x.1 = i then (i, l) else x }
  else { s with links := s.links ++ [(i, l)] }

def State.updLink (s : State) (i : BitVec 11) (f : LinkEnd → LinkEnd) : State :=
  match s.link? i with
  | none => s
  | some l => s.setLink i (f l)

/-- The peer link whose slot is in use for a device (17 R351). -/
def State.peerLink (s : State) (dev : BitVec 16) : Option (BitVec 11 × LinkEnd) :=
  s.links.find? fun x => 16 ≤ x.1.toNat && x.2.v && x.2.peer = dev

/-- How a link stands for a record that is due: it carries it, it must be waited for, or it cannot (17 R352, R372). -/
inductive LinkUse
  | carries (i : BitVec 11) (l : LinkEnd)
  | waits
  | cannot
  deriving DecidableEq, Repr

/-- A record that asks something of its receiver: a write, atomic, request or landing record (17 R362). -/
def isRequest (r : OpRecord) : Bool := 1 ≤ r.op.toNat && r.op.toNat ≤ 4

/-- Fewer than 4096 operations of a stream that a core sends to a device are unacknowledged (17 R355). -/
def LinkEnd.streamRoom (l : LinkEnd) (c : CoreId) (e4 : Bool) : Bool :=
  ((l.tx.flatMap (·.records)).filter fun t => t.core = c && t.rec_.fl.getLsbD 0 = e4 && isRequest t.rec_).length < 4096

/-- The link to a device for an operation record of a stream of a core. -/
def State.linkUse (s : State) (c : CoreId) (e4 : Bool) (dev : BitVec 16) : LinkUse :=
  match s.peerLink dev with
  | none => .cannot
  | some (i, l) =>
    if l.pv = 0 then .cannot
    else match l.state with
      | .dark | .failed => .cannot
      | .up => if l.streamRoom c e4 then .carries i l else .waits
      | _ => .waits

/-- The word of a core in a record: core in bits 6..0, die in bits 8..7. -/
def scoreOf (c : CoreId) : Nat := c.core.val + 128 * c.die.val

/-- The core that a score names. -/
def scoreCore (n : Nat) : Option CoreId := if h : bitsOf n 0 7 < 96 then some ⟨Fin.ofNat 4 (bitsOf n 7 2), ⟨bitsOf n 0 7, h⟩⟩ else none

/-- The next sequence number of a stream that a core sends (17 R362). -/
def State.nextSeq (s : State) (c : CoreId) (dev : BitVec 16) (e4 : Bool) : BitVec 32 :=
  ((s.outs.find? fun o => o.core = c && o.dev = dev && o.e4 = e4).map (·.next)).getD 0

def State.bumpSeq (s : State) (c : CoreId) (dev : BitVec 16) (e4 : Bool) : State :=
  { s with
    outs := ⟨c, dev, e4, s.nextSeq c dev e4 + 1⟩ :: s.outs.filter fun o => !(o.core = c && o.dev = dev && o.e4 = e4)
    nextTag := s.nextTag + 1 }

/-- The fabric tag of a core's context (17 R362). -/
def State.tagOf (s : State) (c : CoreId) : BitVec 16 := (((s.core c).ctxId.bind s.ctx?).bind (·.fabTag)).getD 0

/-- RTAG: the sending core in bits 8..0 and a count above them (log 13). -/
def State.rtag (s : State) (c : CoreId) : BitVec 32 := s.nextTag ++ BitVec.ofNat 9 (scoreOf c)

/-- The tag of the queue engine's records: no core has number 511 (log 13). -/
def engineTag (s : State) : BitVec 32 := s.nextTag ++ (511 : BitVec 9)

def isEngineTag (t : BitVec 32) : Bool := t.setWidth 9 = (511 : BitVec 9)

/-- A control or answer record. -/
def plainRecord (op : BitVec 8) (rtag : BitVec 32) (payload : List Byte) : OpRecord where
  op := op
  fl := 0
  stag := 0
  sseq := 0
  pa := 0
  len := BitVec.ofNat 16 payload.length
  aop := 0
  ty := 0
  rtag := rtag
  payload := payload

/-- The control record that the first frame under a new key carries: the old key's highest frame number (17 R354; its code is the model's,
log 24). -/
def LinkEnd.reportRecs (l : LinkEnd) : List OpRecord :=
  match l.report with
  | none => []
  | some n => [plainRecord 0x21 0 (0xEA :: natLe 6 n.toNat)]

/-! ### Frames as they stand on a link (17 R361 to R363) -/

/-- The valid paths of a link record, each with its port and wavelength and whether a switch lies on it (17 R351, R363). -/
def LinkEnd.validPaths (l : LinkEnd) : List (BitVec 8 × Bool) :=
  ((List.finRange 4).filter fun i => l.pv.getLsbD i.val).map fun i => (l.paths[i], l.psw.getLsbD i.val)

/-- The path of a frame: that of an e4 stream has the index core mod number of valid paths, and another may be any (17 R363). -/
def LinkEnd.pathFor (l : LinkEnd) (e4 : Option CoreId) : Option (BitVec 8 × Bool) :=
  e4.bind fun c => l.validPaths[c.core.val % l.validPaths.length]?

/-- A number as bytes in network order. -/
def natBe (n v : Nat) : List Byte := (natLe n v).reverse

/-- Bytes followed by zeros up to a multiple of `n`. -/
def padTo (n : Nat) (b : List Byte) : List Byte := b ++ List.replicate ((n - b.length % n) % n) 0

/-- A record on the wire: its 24-byte header and its payload, padded to a multiple of 8 (17 R362). -/
def OpRecord.wire (r : OpRecord) : List Byte :=
  natBe 1 r.op.toNat ++ natBe 1 r.fl.toNat ++ natBe 2 r.stag.toNat ++ natBe 4 r.sseq.toNat ++ natBe 8 r.pa.toNat ++ natBe 2 r.len.toNat ++
    natBe 1 r.aop.toNat ++ natBe 1 r.ty.toNat ++ natBe 4 r.rtag.toNat ++ padTo 8 r.payload

/-- The first 16 bytes of a frame: the forwarding header, the EtherType and SEC (17 R361). -/
def SentFrame.head (f : SentFrame) : List Byte :=
  natBe 2 f.ddev.toNat ++ natBe 2 f.dest.toNat ++ natBe 2 f.sdev.toNat ++ natBe 2 f.etype.toNat ++
    natBe 8 (f.fn.toNat + if f.ki then 2 ^ 63 else 0)

/-- The records of a frame, padded with zero bytes so that the frame is a number of beats of 64 bytes: 36 bytes stand beside them. -/
def SentFrame.plain (f : SentFrame) : List Byte := (padTo 64 (List.replicate 36 0 ++ f.records.flatMap OpRecord.wire)).drop 36

/-- The beats of a frame (17 R361). -/
def SentFrame.beats (f : SentFrame) : Nat := (36 + f.plain.length) / 64

/-- The nonce of a frame: the link's identifier, for a peer link the two devices, then FN (17 R352). -/
def SentFrame.nonce (f : SentFrame) : BitVec 96 :=
  BitVec.ofNat 96 ((if f.link.toNat < 16 then f.link.toNat else f.sdev.toNat * 2 ^ 16 + f.ddev.toNat) * 2 ^ 64 + f.fn.toNat)

/-- One bit step of the CRC-32 of IEEE 802.3, lowest bit first. -/
def crcBit (c : BitVec 32) : BitVec 32 := if c.getLsbD 0 then (c >>> 1) ^^^ 0xEDB88320 else c >>> 1

/-- The CRC-32 of bytes (17 R361). -/
def crc32 (b : List Byte) : BitVec 32 :=
  ~~~ (b.foldl (fun c x => (List.range 8).foldl (fun c _ => crcBit c) (c ^^^ x.setWidth 32)) (BitVec.allOnes 32))

/-- A frame on the wire: the records encrypted under the direction's key of its index, the tag over its head and them, and the FCS, lowest
byte first as Ethernet sends it (17 R361; log 106). -/
def SentFrame.wire (f : SentFrame) : List Byte :=
  let sealed := (f.plain.zip (List.range f.plain.length)).map fun x => x.1 ^^^ Config.gcmStream f.nth f.nonce x.2
  let body := f.head ++ sealed ++ bytesOf (Config.gcmTag f.nth f.nonce f.head sealed) 0 16
  body ++ natLe 4 (crc32 body).toNat

/-- Records put on a link in one frame, after the report that the first frame under a new key carries. -/
def State.putFrame (s : State) (i : BitVec 11) (l : LinkEnd) (e4 : Option CoreId) (dest : BitVec 16) (rs : List OpRecord) : State :=
  let f : SentFrame := ⟨i, l.pathFor e4, s.outbox.length, l.peer, dest, s.device, s.fetype, l.txki, BitVec.ofNat 48 l.fn, l.reportRecs ++ rs⟩
  { s with outbox := s.outbox ++ [f] }

/-- The cycle that the sender of a frame counts from: of the die of the core whose records it carries, or of the link's own end (17 R351,
R355). -/
def State.txClock (s : State) (i : BitVec 11) (own : Bool) (c : CoreId) : Nat := if own then s.linkClock i else s.cycle c.die

/-- A record sent in a frame of its own over a link that is up (17 R361, R362): a core's comes over the die link from its die to the I-die
(R351), and the queue engine's is the I-die's own. -/
def State.sendFrame (s : State) (c : CoreId) (i : BitVec 11) (l : LinkEnd) (t : TxRec) (e4 : Bool) : State :=
  let own := isEngineTag t.rec_.rtag
  let now := s.linkClock i
  let f : TxFrame := ⟨l.txki, BitVec.ofNat 48 l.fn, [t], 0, s.txClock i own c, false, own⟩
  let s := (s.setLink i { l with fn := l.fn + 1, tx := l.tx ++ [f], sentAt := now, trafficAt := now, report := none }).cross
    (if own then [] else idieHop c.die)
  (s.putFrame i l (if e4 then some c else none) t.dest [t.rec_]).bumpSeq c l.peer e4

/-- An operation record of the sending core (17 R362). -/
def State.opRecord (s : State) (c : CoreId) (dev : BitVec 16) (e4 want : Bool) (op : BitVec 8) (pa : Nat) (aop ty : Nat)
    (payload : List Byte) : OpRecord where
  op := op
  fl := BitVec.ofNat 8 ((if e4 then 1 else 0) + if want then 2 else 0)
  stag := s.tagOf c
  sseq := s.nextSeq c dev e4
  pa := BitVec.ofNat 64 pa
  len := BitVec.ofNat 16 payload.length
  aop := BitVec.ofNat 8 aop
  ty := BitVec.ofNat 8 ty
  rtag := s.rtag c
  payload := payload

/-- The fabric fault (17 R372). -/
def fabricFault (addr case code detail : Nat) : FaultRec :=
  { code := 0x0503, addr := BitVec.ofNat 64 addr, aux := BitVec.ofNat 64 (case + 2 ^ 8 * code + 2 ^ 24 * detail) }

/-! ### FWR, FATOM, FREQ -/

/-- FWR (17 R367). -/
def fwrBody (h : Head) (o : FwrOp) : LaneM Unit := do
  let n ← readS o.len
  let a ← readS o.ad.fa
  let l ← readS o.src
  let hd ← getHandle o.ad.hdl
  guardFault (hd.space == .peer) (handleFault o.ad.hdl)
  guardFault o.o.ssc.p (handleFault o.ad.hdl)
  let off : Int := a.toInt + o.ad.off.toInt
  let va : Int := hd.base + off
  guardFault (8 ≤ n.toNat && n.toNat ≤ 65536 && n.toNat % 8 = 0 && l.toNat % 8 = 0) (fabricFault (BitVec.ofInt 64 va).toNat 5 0 0)
  guardFault (0 ≤ off && off + n.toNat ≤ hd.bound) { code := 0x0302, aux := o.ad.hdl.setWidth 64, addr := BitVec.ofInt 64 off }
  let at' ← checkLocalRead l.toInt n.toNat
  guardFault (va % 8 = 0) (alignFault va)
  let id ← nextId
  let op := freshOp h id (← curSlot) (← curBundle) o.push o.o .none (.fwr at' n.toNat (BitVec.ofInt 56 va))
  enterEngine 4 op (some ⟨id, at', at' + n.toNat, false⟩)

def execFwr (h : Head) (o : FwrOp) (s : State) : Out := lane h (fwrBody h o) s

/-- FATOM (17 R368): cas reads its destination as the expected value. -/
def fatomBody (h : Head) (o : FatomOp) : LaneM Unit := do
  let a ← readS o.ad.fa
  let hd ← getHandle o.ad.hdl
  guardFault (hd.space == .peer) (handleFault o.ad.hdl)
  guardFault o.o.ssc.p (handleFault o.ad.hdl)
  let off : Int := a.toInt + o.ad.off.toInt
  let va : Int := hd.base + off
  guardFault (0 ≤ off && off + o.ty.bytes ≤ hd.bound) { code := 0x0302, aux := o.ad.hdl.setWidth 64, addr := BitVec.ofInt 64 off }
  guardFault (va % o.ty.bytes = 0) (alignFault va)
  let b ← readS o.b
  let expect ← match o.op, o.d with
    | .cas, some d => readS d
    | _, _ => pure 0
  let id ← nextId
  let dest ← match o.d with
    | some d => reserveDest d id
    | none => pure Dest.none
  enterEngine 4 (freshOp h id (← curSlot) (← curBundle) none o.o dest (.fatom o.op o.ty b expect (BitVec.ofInt 56 va))) none

def execFatom (h : Head) (o : FatomOp) (s : State) : Out := lane h (fatomBody h o) s

/-- ASC, SSC and ORD of an instruction that is relaxed without a scope or a release with one. -/
def relOrder (r : Option (Scope × Ssc)) : Order :=
  match r with
  | none => ⟨.slot, {}, .rlx⟩
  | some (a, x) => ⟨a, x, .rel⟩

/-- FREQ (17 R369): the payload is read at issue. -/
def freqBody (h : Head) (o : FreqOp) : LaneM Unit := do
  let dst ← readS o.dst
  let src ← readS o.src
  let at' ← checkLocalRead src.toInt o.len.toNat
  guardFault (src.toNat % 8 = 0) (alignFault src.toInt)
  guardStall (!rangeStalls (← getCore) false at' o.len.toNat)
  guardOrder h .l noOrder
  let payload := lsRead (← getCore) at' o.len.toNat
  let id ← nextId
  let dest ← reserveDest o.d id
  enterEngine 4 (freshOp h id (← curSlot) (← curBundle) o.push (relOrder o.rel) dest (.freq dst payload)) none

def execFreq (h : Head) (o : FreqOp) (s : State) : Out := lane h (freqBody h o) s

/-! ### Sending (17 R363, R366) -/

/-- A release of e4 holds its sending until the slot's earlier accesses of the kinds in SSC are performed; an earlier acquire
or acquire FENCE over P holds it too (06 R133, R141). -/
def e4MaySend (k : Core) (o : EngOp) : Bool :=
  k.acc.all fun b => !(b.slot == o.slot && b.id < o.id &&
    ((releases o.ord && sscNames o.ssc b.sk && b.plain) || (acquires b.ord && b.ssc.p)))

/-- Code of an atomic in AOP and FATOM's SUB (17 R368). -/
def AOp.num (o : AOp) : Nat :=
  match o with
  | .add => 0
  | .min => 1
  | .max => 2
  | .and => 3
  | .or => 4
  | .xor => 5
  | .xchg => 6
  | .cas => 7
  | .fadd => 8

def AOp.ofNum (n : Nat) : Option AOp := [AOp.add, .min, .max, .and, .or, .xor, .xchg, .cas, .fadd][n]?

/-- The payload of an atomic record: the operand, then for cas the expected value (17 R362). -/
def atomPayload (op : AOp) (ty : Fmt) (b e : Word) : List Byte :=
  natLe ty.bytes b.toNat ++ if op == .cas then natLe ty.bytes e.toNat else []

/-- An operation after it has sent a record of `n` bytes. -/
def EngOp.sends (o : EngOp) (rtag : BitVec 32) (n : Nat) : EngOp :=
  let r : Sent := ⟨rtag, o.pos, n⟩
  { o with pos := o.pos + n, sent := o.sent ++ [r] }

/-- One record of an e4 operation sent: `off` and `n` place it in the operation. -/
def State.sendE4 (s : State) (c : CoreId) (o : EngOp) (dev : BitVec 16) (dest : BitVec 16) (want : Bool) (op : BitVec 8)
    (pa va aop ty : Nat) (payload : List Byte) : State :=
  match s.linkUse c true dev with
  | .carries i l =>
    let r := s.opRecord c dev true want op pa aop ty payload
    let s := if releases o.ord then s.releaseAt c o.asc else s
    let s := s.sendFrame c i l ⟨r, dest, c, o.id, 0, va⟩ true
    s.updCore c fun k => k.setOp 4 (o.sends r.rtag payload.length)
  | _ => s

/-- An e4 operation that meets no usable link: FREQ takes status 3, the others fail with case 4 (17 R369, R372). -/
def State.e4Unsent (s : State) (c : CoreId) (o : EngOp) (va : Nat) : State := s.updCore c (haltOp 4 o (fabricFault va 4 0 0))

/-- The destination of FREQ in a frame: core, die and the ring's endpoint (17 R361). -/
def ringDest (core die ring : Nat) : BitVec 16 := BitVec.ofNat 16 (core + 2 ^ 7 * die + 2 ^ 9 * ring)

/-- The leaf of a peer address with its checks (16 R334); a near or far leaf is an aperture mismatch. -/
def State.peerLeaf (s : State) (c : CoreId) (w : Want) (va : Nat) : State × Except FaultRec Leaf :=
  match (s.core c).ctxId with
  | none => (s, .error (memFaultRec va true (translationFault 1 0)))
  | some x =>
    match s.translate c va with
    | (s, .error f) => (s, .error (memFaultRec va true f))
    | (s, .ok l) =>
      match s.leafCheck x true w l with
      | some f => (s, .error (leafFaultRec va true l f))
      | none => (s, .ok l)

/-- The next records of FWR: at most 1024 bytes, within a page (17 R367). -/
def State.sendFwr (s : State) (c : CoreId) (o : EngOp) (off len va : Nat) : State :=
  if len ≤ o.pos then s
  else match s.peerLeaf c .write (va + o.pos) with
    | (s, .error f) => s.updCore c (haltOp 4 o f)
    | (s, .ok l) =>
      let n := min (min 1024 (len - o.pos)) (l.size - (va + o.pos) % l.size)
      match s.linkUse c true (BitVec.ofNat 16 l.pdev) with
      | .waits => s
      | .cannot => s.e4Unsent c o (va + o.pos)
      | .carries _ _ => s.sendE4 c o (BitVec.ofNat 16 l.pdev) 0xFFFF false 0x01 (l.phys (va + o.pos)) (va + o.pos) 0 0
          (lsRead (s.core c) (off + o.pos) n)

/-- The record of FATOM (17 R368); its leaf's permit is checked first (16 R334). -/
def State.sendFatom (s : State) (c : CoreId) (o : EngOp) (op : AOp) (ty : Fmt) (b e : Word) (va : Nat) : State :=
  if 0 < o.pos then s
  else match s.peerLeaf c .atomic va with
    | (s, .error f) => s.updCore c (haltOp 4 o f)
    | (s, .ok l) =>
      match s.linkUse c true (BitVec.ofNat 16 l.pdev) with
      | .waits => s
      | .cannot => s.e4Unsent c o va
      | .carries _ _ => s.sendE4 c o (BitVec.ofNat 16 l.pdev) 0xFFFF (o.dest ≠ .none) 0x02 (l.phys va) va (AOp.num op) ty.code.toNat
          (atomPayload op ty b e)

/-- FREQ's outcome is known: the status it will write; `pos` 1 marks it (17 R369). -/
def EngOp.resolved (o : EngOp) (status : Nat) : EngOp := { o with status := status, pos := max o.pos 1, sent := [] }

/-- The record of FREQ (17 R369): bits outside the fields of its destination word or its own device give status 2, no usable link
status 3. -/
def State.sendFreq (s : State) (c : CoreId) (o : EngOp) (dst : Word) (payload : List Byte) : State :=
  if 0 < o.pos then s
  else
    let d := dst.toNat
    let dev := BitVec.ofNat 16 (bitsOf d 0 16)
    if 2 ^ 29 ≤ d || dev = s.device then s.updCore c fun k => k.setOp 4 (o.resolved 2)
    else match s.linkUse c true dev with
      | .waits => s
      | .cannot => s.updCore c fun k => k.setOp 4 (o.resolved 3)
      | .carries _ _ => s.sendE4 c o dev (ringDest (bitsOf d 16 7) (bitsOf d 23 2) (bitsOf d 25 4)) false 0x03 0 d 0 0 payload

/-- A die link that can no longer be used joins two dies of the package. -/
def State.dieCut (s : State) (a b : Fin 4) : Bool :=
  a ≠ b && (s.link? (dieLink a b)).all fun l => l.state == .dark || l.state == .failed

/-- An LZPUT that cannot reach its receiver: status 2 (18 R383). -/
def EngOp.cutOff (o : EngOp) : EngOp := { o with status := if o.status % 2 ^ 16 = 0 then o.status + 2 else o.status, pos := max o.pos 1 }

/-- The records that LZPUT sends next: its grant names the receiver, and each carries up to 1024 bytes (18 R383). Within the
package the record goes over the die links to the receiving core. -/
def State.sendLzput (s : State) (c : CoreId) (o : EngOp) (grant : List Byte) (off : Nat) : State :=
  let g := leNat grant
  let bytes := bitsOf g 96 32
  if bytes ≤ o.pos || o.status % 2 ^ 16 ≠ 0 then s
  else
    let n := min 1024 (bytes - o.pos)
    let dev := BitVec.ofNat 16 (bitsOf g 16 16)
    let dest := BitVec.ofNat 16 (bitsOf g 32 16)
    let pa := bitsOf g 64 16 + 2 ^ 16 * bitsOf g 48 6 + 2 ^ 32 * (o.pos / 64)
    let payload := lsRead (s.core c) (off + o.pos) n
    let die : Fin 4 := Fin.ofNat 4 (bitsOf dest.toNat 7 2)
    if dev = s.device then
      if s.dieCut c.die die then s.updCore c fun k => k.setOp 4 o.cutOff
      else
      let r := s.opRecord c dev true false 0x04 pa 0 0 payload
      let s := if releases o.ord then s.releaseAt c o.asc else s
      let q : InRec := ⟨none, s.device, dest, r, (false, 0)⟩
      let s := s.cross (dieHop c.die die)
      let s := ({ s with inrecs := s.inrecs ++ [q] }).bumpSeq c dev true
      s.updCore c fun k => k.setOp 4 (o.sends r.rtag n)
    else match s.linkUse c true dev with
      | .waits => s
      | .cannot => s.updCore c fun k => k.setOp 4 o.cutOff
      | .carries _ _ => s.sendE4 c o dev dest false 0x04 pa 0 0 0 payload

/-- A pre-emption lets e4 send no further record, except for an LZPUT that has sent its first (17 R371). -/
def e4Stopped (k : Core) (o : EngOp) : Bool :=
  k.enginesStop && match o.kind with
    | .lzput _ _ => o.pos = 0
    | _ => true

/-- One record of the head of e4. -/
def State.sendHead (s : State) (c : CoreId) : State :=
  let k := s.core c
  match k.ready? 4 with
  | none => s
  | some o =>
    if e4Stopped k o || !e4MaySend k o || !queueTag k 4 then s
    else match o.kind with
      | .fwr off len va => s.sendFwr c o off len va.toNat
      | .fatom op ty b e va => s.sendFatom c o op ty b e va.toNat
      | .freq dst payload => s.sendFreq c o dst payload
      | .lzput g off => s.sendLzput c o g off
      | _ => s

/-- A barrier action as the payload of an atomic record, whose layout the manual does not give (log 18): BARINIT's TARGET, kind and
REARM; BARARV's weight, whether it checks the phase and against which, and whether the queue engine arrives. -/
def barPayload (engine : Bool) (op : BarOp) : List Byte :=
  match op with
  | .init kind rearm target =>
    natLe 8 target.toNat ++ natLe 8 ((if kind = .count then 3 else 1) + if rearm then 8 else 0)
  | .arrive w pexp _ =>
    natLe 8 w.toNat ++ natLe 8 ((match pexp with
      | none => 0
      | some p => if p then 3 else 1) + if engine then 4 else 0)

def BarOp.isInit (op : BarOp) : Bool :=
  match op with
  | .init _ _ _ => true
  | .arrive _ _ _ => false

/-- The AOP code of a barrier action (log 18). -/
def barAopCode (init : Bool) : Nat := 9 + 2 * Config.barAop.val + if init then 0 else 1

/-- A result comes back: BARINIT's status, or BARARV's barrier word under RES. -/
def BarOp.wants (op : BarOp) : Bool :=
  match op with
  | .init _ _ _ => true
  | .arrive _ _ res => res

/-- A TCMT, whose add returns the old edition. -/
def AccKind.isCommit (k : AccKind) : Bool :=
  match k with
  | .tile .commit _ _ _ _ => true
  | _ => false

/-- The record of one part of an A-slot access through a peer leaf (16 R335). -/
def State.sendPart (s : State) (c : CoreId) (id part : Nat) : State :=
  let k := s.core c
  match k.access? id with
  | none => s
  | some a =>
    match a.parts[part]? with
    | none => s
    | some p =>
      if p.stage ≠ .sent || p.op == .load || !mayPerform k a then s
      else match s.partLeaf c p.va.toNat with
        | none => s
        | some (l, x) =>
          let want : Want := if p.op.isAtomic then .atomic else .write
          match s.leafCheck x a.peer want l with
          | some f => s.setPart c id part (.failed (leafFaultRec p.va.toNat true l f))
          | none =>
            if !l.isPeer then s
            else
              let dev := BitVec.ofNat 16 l.pdev
              match s.linkUse c false dev with
              | .waits => s
              | .cannot => s.setPart c id part (.failed (fabricFault p.va.toNat 4 0 0))
              | .carries i li =>
                let s := if releases a.ord then s.releaseAt c a.asc else s
                let send := fun (want : Bool) (op : BitVec 8) (aop ty : Nat) (b : List Byte) =>
                  let r := s.opRecord c dev false want op (l.phys p.va.toNat) aop ty b
                  (s.sendFrame c i li ⟨r, 0xFFFF, c, id, part, p.va.toNat⟩ false).setPart c id part .atSlice
                match p.op with
                | .load => s
                | .store b => send false 0x01 0 0 b
                | .atomic op b e => send (a.dest ≠ .none || a.kind.isCommit) 0x02 (AOp.num op) a.ty.code.toNat (atomPayload op a.ty b e)
                | .bar op => send op.wants 0x02 (barAopCode op.isInit) 0 (barPayload false op)

/-- The request record of an LZGRANT to another device (18 R382): as FREQ delivers one. -/
def State.sendGrant (s : State) (c : CoreId) (id : Nat) : State :=
  let k := s.core c
  match k.access? id with
  | none => s
  | some a =>
    match a.kind with
    | .lzgrant zone slot target rec_ =>
      let t := target.toNat
      let dev := BitVec.ofNat 16 (bitsOf t 0 16)
      if dev = s.device || a.push.isSome || a.raised || !mayPerform k a then s
      else match s.linkUse c false dev with
        | .waits => s
        | .cannot => s.updCore c fun k => k.setAccess { a with kind := .lzgrant zone slot target rec_, raised := true, wv := 3 }
        | .carries i l =>
          let r := s.opRecord c dev false false 0x03 0 0 0 rec_
          let s := if releases a.ord then s.releaseAt c a.asc else s
          let s := s.sendFrame c i l ⟨r, ringDest (bitsOf t 16 7) (bitsOf t 23 2) (bitsOf t 25 4), c, id, 0, 0⟩ false
          s.updCore c fun k => k.setAccess { a with push := some 0 }
    | _ => s

/-- FABRIC_OUT_RECORD_SEND (17 R366): e4 sends the next record of its head, or a part of an A-slot access or a grant goes out. -/
def execFabricOutRecordSend (c : CoreId) (src : OutSrc) (s : State) : Out :=
  match src with
  | .e4 => .next (s.sendHead c)
  | .access id part => .next (s.sendPart c id part)
  | .msg id => .next (s.sendGrant c id)

/-! ### Completion of e4 operations -/

/-- The head of e4 with a number, where everything it sent has come back. -/
def Core.e4Done (k : Core) (id : Nat) : Option EngOp :=
  match k.ready? 4 with
  | some o => if o.id = id && o.sent.isEmpty && 0 < o.pos then some o else none
  | none => none

/-- FWR_COMPLETE (17 R367). -/
def execFwrComplete (c : CoreId) (id : Nat) (s : State) : Out :=
  match (s.core c).e4Done id with
  | some o =>
    match o.kind with
    | .fwr _ len _ => if len ≤ o.pos then .next (s.updCore c (completeOp 4 o)) else .next s
    | _ => .next s
  | none => .next s

/-- FATOM_COMPLETE (17 R368): the result is written, or the posted form is acknowledged. -/
def execFatomComplete (c : CoreId) (id : Nat) (s : State) : Out :=
  match (s.core c).e4Done id with
  | some o =>
    match o.kind with
    | .fatom _ ty _ _ _ =>
      .next (s.updCore c fun k => completeOp 4 o (deliverTo o.slot o.id o.dropped o.dest (extendTo ty (o.status % 2 ^ ty.width)) k))
    | _ => .next s
  | none => .next s

/-- FREQ_STATUS (17 R369). -/
def execFreqStatus (c : CoreId) (id : Nat) (s : State) : Out :=
  match (s.core c).e4Done id with
  | some o =>
    match o.kind with
    | .freq _ _ => .next (s.updCore c fun k => completeOp 4 o (deliverTo o.slot o.id o.dropped o.dest (BitVec.ofNat 64 o.status) k))
    | _ => .next s
  | none => .next s

end Sys2Proof.Machine
end

