-- ==== Sys2Proof/Machine/Copy.lean ====
section
/-! DEFINITION. Copy, gather and scatter: the commands that issue copy records to e1, e2 and e3, the checks of a record, and the
steps that perform it (06 R143 to R153). -/

namespace Sys2Proof.Machine

open Sys2Proof

/-! ### Records (06 R144) -/

/-- A copy record's fields. Strides are signed. -/
structure CopyRec where
  kind : Nat
  sfmt : Nat
  dfmt : Nat
  rm   : Rm
  dup  : Nat
  comb : Nat
  rmw  : Nat
  asc  : Nat
  hdl  : BitVec 12
  shdl : BitVec 12
  moff : Int
  loff : Nat
  aux  : Nat
  t    : Nat → Nat
  ms   : Nat → Int
  ls   : Nat → Int

def signedField (v lo w : Nat) : Int := (BitVec.ofNat w (bitsOf v lo w)).toInt

def copyRec (r : Rec64) : CopyRec :=
  let v := r.toNat
  { kind := bitsOf v 0 8, sfmt := bitsOf v 8 4, dfmt := bitsOf v 12 4, rm := Rm.ofCode (bitsOf v 16 2), dup := bitsOf v 18 1,
    comb := bitsOf v 19 3, rmw := bitsOf v 22 1, asc := bitsOf v 23 3, hdl := BitVec.ofNat 12 (bitsOf v 32 12),
    shdl := BitVec.ofNat 12 (bitsOf v 44 12), moff := signedField v 64 32, loff := bitsOf v 96 20, aux := bitsOf v 128 32,
    t := fun i => bitsOf v (160 + 32 * i) 32, ms := fun i => signedField v (288 + 36 * i) 36,
    ls := fun i => signedField v (432 + 20 * i) 20 }

def fmtAt (n : Nat) : Fmt := (Fmt.ofCode n).getD .f32

def isBlockCode (n : Nat) : Bool := n = 0xC || n = 0xD

/-- The operator of COMB on a format permitted for it (06 R145). -/
def combOk (dfmt comb : Nat) : Bool :=
  if comb < 3 then [0x0, 0x6, 0x7, 0xA, 0xB].contains dfmt else comb < 6 && [0xA, 0xB].contains dfmt

/-- The first of a list of fields that holds. -/
def firstField (l : List (Bool × Nat)) : Option Nat := (l.find? (·.1)).map (·.2)

/-- R145: the lowest bit of the first ill-formed field, none where the record is well formed. The conditions stand in the order
in which the rule lists them, with the condition of R147 on MS0 last. For a combine-mode scatter of more than 4096 indices, whose rule names
no field, 160 (T0) is the model's choice (log 110). -/
def copyIllFormed (kind : Nat) (r : Rec64) : Option Nat :=
  let c := copyRec r
  let v := r.toNat
  let scat := c.kind = 0x23
  let indexed := c.kind = 0x22 || scat
  let blk := isBlockCode c.sfmt
  let comb := scat && (c.dup = 0 || c.rmw = 1)
  firstField [
    (c.kind ≠ kind, 0),
    (bitsOf v 26 6 ≠ 0, 26), (bitsOf v 56 8 ≠ 0, 56), (bitsOf v 116 12 ≠ 0, 116),
    (!scat && c.dup ≠ 0, 18), (!scat && c.comb ≠ 0, 19), (!scat && c.rmw ≠ 0, 22), (!blk && c.shdl ≠ 0, 44),
    (!indexed && !blk && c.aux ≠ 0, 128),
    (13 < c.sfmt, 8), (13 < c.dfmt, 12),
    (5 < c.asc, 23),
    (!((c.sfmt ≤ 11 && c.dfmt ≤ 11) || (c.kind = 0x20 && blk && c.dfmt ≤ 3)), 8),
    (scat && (5 < c.comb || (comb && !combOk c.dfmt c.comb)), 19),
    (indexed && (c.ms 0).natAbs < (fmtAt c.dfmt).bytes, 288), (indexed && c.ms 2 ≠ 0, 360), (indexed && c.ms 3 ≠ 0, 396),
    (scat && c.dup = 0 && 4096 < c.t 1 * c.t 2 * c.t 3, 160),
    (c.kind = 0x20 && blk && c.ms 0 ≠ 0, 288)]

/-- The levels with a zero trip count make the record do nothing (05 R116, 06 R146). -/
def CopyRec.empty (c : CopyRec) : Bool := c.t 0 = 0 || c.t 1 = 0 || c.t 2 = 0 || c.t 3 = 0

/-- The number of steps: a level-0 run each, but a combine-mode scatter is one step (06 R153). -/
def CopyRec.steps (c : CopyRec) : Nat :=
  if c.empty then 0 else if c.kind = 0x23 && c.dup = 0 then 1 else c.t 1 * c.t 2 * c.t 3

/-- The element size in the local store: the destination's for a copy-in or gather, the source's otherwise. -/
def CopyRec.localSize (c : CopyRec) : Nat := if c.kind = 0x20 || c.kind = 0x22 then (fmtAt c.dfmt).bytes else (fmtAt c.sfmt).bytes

/-- The smallest byte range that covers every local element the record can reach (06 R151). -/
def CopyRec.range (c : CopyRec) (id : Nat) (b1 : Word) : Option Range :=
  if c.empty || c.kind = 0x23 then none
  else
    let ext := (List.range 4).map fun i => c.ls i * ((c.t i : Int) - 1)
    let base : Int := c.loff + b1.toInt
    let lo := base + (ext.filter (· < 0)).foldl (· + ·) 0
    let hi := base + (ext.filter (0 < ·)).foldl (· + ·) 0 + c.localSize
    some ⟨id, lo.toNat, hi.toNat, c.kind ≠ 0x21⟩

/-! ### The commands (06 R143) -/

def copyScope (n : Nat) : Scope := (Scope.ofCode n).getD .slot

/-- The queue of a record kind. -/
def copyQueue (kind : Nat) : Fin 6 := if kind = 0x20 then 1 else if kind = 0x21 then 2 else 3

/-- The handle entry a record names, read at issue; an invalid one raises the handle fault. -/
def recordHandle (n : BitVec 12) : LaneM (BitVec 256) := do
  let h ← getHandle n
  fun s =>
    let (s, e) := s.handleEntry s.cur.1 h.n
    .ok (e, s)

/-- CPIN, CPOUT, GATH and SCAT (06 R143): the record and the handle entries it names are read once. An ill-formed record halts
its queue and raises the copy-record fault (R152); its handle entries are not looked at then (log 82). -/
def copyBody (kind : Nat) (h : Head) (o : RecOp) : LaneM Unit := do
  let r ← readRecord o.idx
  let b ← readBases o
  let e := copyQueue kind
  let id ← nextId
  let c := copyRec r
  let ord : Order := ⟨copyScope c.asc, {}, .rlx⟩
  match copyIllFormed kind r with
  | some f =>
    let op := freshOp h id (← curSlot) (← curBundle) o.push ord .none (.copy o.idx r b 0 0)
    enterEngine e op none
    modCore (haltOp e op { code := 0x0401, idx := o.idx, kind := BitVec.ofNat 8 c.kind, field := BitVec.ofNat 9 f })
  | none =>
    let hd ← recordHandle c.hdl
    let sh ← if isBlockCode c.sfmt then recordHandle c.shdl else pure 0
    enterEngine e (freshOp h id (← curSlot) (← curBundle) o.push ord .none (.copy o.idx r b hd sh)) (c.range id b[1])

def execCpin (h : Head) (o : RecOp) (s : State) : Out := lane h (copyBody 0x20 h o) s
def execCpout (h : Head) (o : RecOp) (s : State) : Out := lane h (copyBody 0x21 h o) s
def execGath (h : Head) (o : RecOp) (s : State) : Out := lane h (copyBody 0x22 h o) s
def execScat (h : Head) (o : RecOp) (s : State) : Out := lane h (copyBody 0x23 h o) s

/-! ### Elements -/

/-- How an element ends: done; a fault; or it must wait, for a peer link or for the back-off of an ownership request (06 R139). -/
inductive ElemEnd (α : Type)
  | ok (a : α)
  | fault (f : FaultRec)
  | wait (backOff : Bool)
  deriving Repr

/-- The virtual address of a record's element, checked for bound and alignment (06 R130, R146). -/
def elemAddr (hd : Handle) (m : Int) (size : Nat) : Except FaultRec Nat :=
  if m < 0 || hd.bound < m + size then
    .error { code := 0x0302, aux := hd.n.setWidth 64, addr := BitVec.ofInt 64 m }
  else if (hd.base + m) % size ≠ 0 then .error (alignFault (hd.base + m))
  else .ok (hd.base + m.toNat)

/-- Bytes of memory read for a record. A peer handle cannot be read (06 R130). -/
def State.recRead (s : State) (c : CoreId) (ctx : BitVec 10) (hd : Handle) (m : Int) (n align : Nat) (stream : Bool) :
    State × Except FaultRec (List Byte) :=
  if hd.space == .peer then (s, .error { code := 0x0305, addr := BitVec.ofInt 64 (hd.base + m) })
  else match elemAddr hd m n with
    | .error f => if align = 1 && f.code = 0x0303 then
        s.readVa c ctx { viaHandle hd true with stream := stream || hd.stream } (hd.base + m.toNat) n else (s, .error f)
    | .ok va => s.readVa c ctx { viaHandle hd true with stream := stream || hd.stream } va n

/-- Bytes of memory written for a record; through a peer handle they go out as a write record (16 R335). -/
def State.recWrite (s : State) (c : CoreId) (ctx : BitVec 10) (hd : Handle) (m : Int) (b : List Byte) (stream : Bool) (id elem : Nat) :
    State × ElemEnd (Option (BitVec 32)) :=
  match elemAddr hd m b.length with
  | .error f => (s, .fault f)
  | .ok va =>
    if hd.space == .peer then
      match s.peerLeaf c .write va with
      | (s, .error f) => (s, .fault f)
      | (s, .ok l) =>
        match s.linkUse c false (BitVec.ofNat 16 l.pdev) with
        | .waits => (s, .wait false)
        | .cannot => (s, .fault (fabricFault va 4 0 0))
        | .carries i li =>
          let r := s.opRecord c (BitVec.ofNat 16 l.pdev) false false 0x01 (l.phys va) 0 0 b
          let t : TxRec := ⟨r, 0xFFFF, c, id, elem, va⟩
          (s.sendFrame c i li t false, .ok (some r.rtag))
    else match s.writeVa c ctx { viaHandle hd true with stream := stream || hd.stream } va b with
      | (s, some f) => (s, .fault f)
      | (s, none) => (s, .ok none)

/-- An atomic of a scatter takes the ownership of its line as any atomic does (06 R139, R149); a line of a pair has none (16 R341). -/
def State.ownFor (s : State) (c : CoreId) (part : BitVec 6) (pa : Nat) : Option State :=
  let line := lineOf (s.redirect part pa)
  if (s.pairAt part pa).isSome then some s
  else if s.backingOff part c line || s.ownerBusy c line then none
  else some (s.takeOwnership part c line)

/-- An atomic of a scatter (06 R149), at once at the ordering point; under the stream hint its line becomes the next victim (06 R134). -/
def State.recAtomic (s : State) (c : CoreId) (ctx : BitVec 10) (hd : Handle) (m : Int) (op : AOp) (ty : Fmt) (v : Nat) (id elem : Nat) (stream : Bool) :
    State × ElemEnd (Option (BitVec 32)) :=
  match elemAddr hd m ty.bytes with
  | .error f => (s, .fault f)
  | .ok va =>
    if hd.space == .peer then
      match s.peerLeaf c .atomic va with
      | (s, .error f) => (s, .fault f)
      | (s, .ok l) =>
        match s.linkUse c false (BitVec.ofNat 16 l.pdev) with
        | .waits => (s, .wait false)
        | .cannot => (s, .fault (fabricFault va 4 0 0))
        | .carries i li =>
          let r := s.opRecord c (BitVec.ofNat 16 l.pdev) false false 0x02 (l.phys va) (AOp.num op) ty.code.toNat (natLe ty.bytes v)
          let t : TxRec := ⟨r, 0xFFFF, c, id, elem, va⟩
          (s.sendFrame c i li t false, .ok (some r.rtag))
    else match s.reach c ctx (viaHandle hd true) .atomic va with
      | (s, .error f) => (s, .fault f)
      | (s, .ok l) =>
        match s.keyTag ctx l.key with
        | none => (s, .fault (leafFaultRec va true l (memFault 0x030C 1)))
        | some k =>
          match s.ownFor c (s.partOf ctx) (l.phys va) with
          | none => (s, .wait (s.backingOff (s.partOf ctx) c (lineOf (s.redirect (s.partOf ctx) (l.phys va)))))
          | some s =>
            match s.atomicLine (s.partOf ctx) ⟨k, hd.wv, hd.wvm || l.wvm⟩ (l.phys va) op ty v 0 stream with
            | (s, .error f) => (s.noteIntegrity c f, .fault (leafFaultRec va true l f))
            | (s, .ok _) => (s.dropCopies [0, 1, 2, 3] (lineOf (l.phys va)), .ok none)

/-- An element converted; equal codes copy exactly (06 R145). -/
def convertElem (sfmt dfmt : Nat) (rm : Rm) (b : List Byte) : List Byte :=
  if sfmt = dfmt then b else natLe (fmtAt dfmt).bytes (convert (fmtAt sfmt) (fmtAt dfmt) rm (leNat b))

/-- A local offset of an element read or written for a record (06 R146, 02 R47). -/
def localElem (k : Core) (write : Bool) (l : Int) (n : Nat) : Except FaultRec Nat :=
  match k.grp with
  | none => .error { code := 0x0304 }
  | some g =>
    if l < 0 || !(if write then g.layout.writable l.toNat n else g.layout.readable l.toNat n) then .error (rangeFault g.layout l n)
    else if l % n ≠ 0 then .error (alignFault l)
    else .ok l.toNat

/-- The indices (i1, i2, i3) of a step (06 R146, R148). -/
def stepIndices (c : CopyRec) (n : Nat) : Nat × Nat × Nat := (n % c.t 1, n / c.t 1 % c.t 2, n / (c.t 1 * c.t 2))

def CopyRec.memAt (c : CopyRec) (b0 : Word) (i0 i1 i2 i3 : Nat) : Int :=
  c.moff + b0.toInt + i0 * c.ms 0 + i1 * c.ms 1 + i2 * c.ms 2 + i3 * c.ms 3

def CopyRec.localAt (c : CopyRec) (b1 : Word) (i0 i1 i2 i3 : Nat) : Int :=
  c.loff + b1.toInt + i0 * c.ls 0 + i1 * c.ls 1 + i2 * c.ls 2 + i3 * c.ls 3

/-- The index of a gather or scatter's iteration, read from the local store (06 R148). -/
def indexAt (k : Core) (c : CopyRec) (b2 : Word) (n : Nat) : Except FaultRec Nat :=
  match localElem k false (c.aux + b2.toInt + 4 * n) 4 with
  | .error f => .error f
  | .ok off => .ok (lsNat k off 4)

/-- What a copy operation works with; `ls` is the local store that its index vector and a scatter's data are read from, `elem` numbers the elements of its current step among those of the record, level 0 first. -/
structure CopyCtx where
  core : CoreId
  ls   : List Host.Cell
  ctx  : BitVec 10
  id   : Nat
  elem : Nat → Nat
  r    : CopyRec
  b    : Vector Word 4
  hd   : Handle
  sh   : Option Handle
  str  : Bool

/-- One element into the local store (06 R146): memory, conversion, local store. -/
def State.elemIn (s : State) (x : CopyCtx) (m l : Int) : State × ElemEnd (Option (BitVec 32)) :=
  match s.recRead x.core x.ctx x.hd m (fmtAt x.r.sfmt).bytes 0 x.str with
  | (s, .error f) => (s, .fault f)
  | (s, .ok b) =>
    let v := convertElem x.r.sfmt x.r.dfmt x.r.rm b
    match localElem (s.core x.core) true l v.length with
    | .error f => (s, .fault f)
    | .ok off => (s.updCore x.core (lsWrite off v), .ok none)

/-- The bytes that an element out of the local store gives memory. -/
def outBytes (k : Core) (x : CopyCtx) (l : Int) : Except FaultRec (List Byte) :=
  let n := (fmtAt x.r.sfmt).bytes
  (localElem k false l n).map fun off => convertElem x.r.sfmt x.r.dfmt x.r.rm (lsRead k off n)

/-- One code of a block row into the local store (06 R147): its byte or bytes, its scale byte, decoded under 03 R65. A block is
counted once, at its first element (03 R62). -/
def State.elemBlock (s : State) (x : CopyCtx) (row : Int) (scale : Int) (i0 : Nat) (l : Int) : State × ElemEnd (Option (BitVec 32)) :=
  let f := fmtAt x.r.sfmt
  let w := f.width
  let bit := w * i0
  let n := if bit % 8 + w ≤ 8 then 1 else 2
  match x.sh with
  | none => (s, .fault (handleFault x.r.shdl))
  | some sh =>
    match s.recRead x.core x.ctx x.hd (row + bit / 8) n 1 x.str with
    | (s, .error e) => (s, .fault e)
    | (s, .ok b) =>
      match s.recRead x.core x.ctx sh (scale + i0 / 32) 1 1 x.str with
      | (s, .error e) => (s, .fault e)
      | (s, .ok sb) =>
        let sc : BitVec 8 := sb.headD 0
        let v := natLe (fmtAt x.r.dfmt).bytes (encodeFmt (fmtAt x.r.dfmt) x.r.rm (blockVal f sc (bitsOf (leNat b) (bit % 8) w)))
        match localElem (s.core x.core) true l v.length with
        | .error e => (s, .fault e)
        | .ok off =>
          let tally := fun (k : Core) =>
            if i0 % 32 ≠ 0 then k
            else if blockReserved f sc then { k with blkrsv := count k.blkrsv }
            else if blockInvalid sc then { k with blkinv := count k.blkinv } else k
          (s.updCore x.core fun k => lsWrite off v (tally k), .ok none)

/-- The outcome of a run, with the tags of the records sent: every element done; a fault at element `i`, with its loop indices; or a
link or a back-off waited for at element `i`. -/
inductive RunEnd
  | done (sent : List (BitVec 32))
  | fault (f : FaultRec) (i : Nat) (sent : List (BitVec 32))
  | wait (i : Nat) (sent : List (BitVec 32)) (backOff : Bool)
  deriving Repr

/-- Elements one after another until one faults; those before it stay written (06 R152). A record to a peer is awaited before the next
element, since none after one that is refused is written. -/
def State.runElems (s : State) (f : State → Nat → State × ElemEnd (Option (BitVec 32))) : List Nat → State × RunEnd
  | [] => (s, .done [])
  | i :: rest =>
    match f s i with
    | (s, .fault e) => (s, .fault e i [])
    | (s, .wait b) => (s, .wait i [] b)
    | (s, .ok none) => s.runElems f rest
    | (s, .ok (some t)) => (s, if rest.isEmpty then .done [t] else .wait (i + 1) [t] false)

/-- The elements of a run from one on: a resumed operation goes on at the element that stopped it (14 R314). -/
def runFrom (start n : Nat) : List Nat := (List.range n).drop start

/-- Values to write in order: the iteration, the offset from the handle's base and the bytes. -/
abbrev OutList := List (Nat × Int × List Byte)

/-- The values up to the first that cannot be read, with its fault. -/
def outList (f : Nat → Except FaultRec (Int × List Byte)) : List Nat → OutList × Option (FaultRec × Nat)
  | [] => ([], none)
  | i :: rest =>
    match f i with
    | .error e => ([], some (e, i))
    | .ok (m, b) =>
      let r := outList f rest
      ((i, m, b) :: r.1, r.2)

/-- The first values of a list whose bytes lie in one line of memory, and the others. -/
def sameLine (hd : Handle) (line : Int) : OutList → OutList × OutList
  | [] => ([], [])
  | (i, m, b) :: rest =>
    if (hd.base + m) / 128 = line && (elemAddr hd m b.length).toOption.isSome then
      let r := sameLine hd line rest
      ((i, m, b) :: r.1, r.2)
    else ([], (i, m, b) :: rest)

/-- The first `n` values of one line as one write of it, or, where that faults, as many of them as can be written: how many, and the fault of
the next one, at its own address (06 R152). -/
def State.writeFirst (s : State) (x : CopyCtx) (g : OutList) : Nat → State × Nat × Option FaultRec
  | 0 => (s, 0, none)
  | n + 1 =>
    let at_ := fun (m : Int) => (x.hd.base : Int) + m
    let bs := (g.take (n + 1)).flatMap fun y => atOffset ((at_ y.2.1) % 128).toNat y.2.2
    let va := ((g.head?.map fun y => at_ y.2.1).getD 0).toNat
    match s.writeVaOffsets x.core x.ctx { viaHandle x.hd true with stream := x.str || x.hd.stream } va bs with
    | (t, none) => (t, n + 1, none)
    | (t, some e) =>
      match s.writeFirst x g n with
      | (u, m, some f) => (u, m, some f)
      | (_, 0, none) => (t, 0, some e)
      | (u, m, none) => (u, m, some { e with addr := BitVec.ofInt 64 (at_ ((g[m]?.map (·.2.1)).getD 0)) })

/-- Values written in order until one faults. Values that follow one another within a line are one write of it (16 R338); through
a peer handle each is a record of its own. -/
def State.writeOut (s : State) (x : CopyCtx) : Nat → OutList → State × RunEnd
  | 0, _ => (s, .done [])
  | _, [] => (s, .done [])
  | fuel + 1, (i, m, b) :: rest =>
    if x.hd.space == .peer then
      match s.recWrite x.core x.ctx x.hd m b x.str x.id (x.elem i) with
      | (s, .fault e) => (s, .fault e i [])
      | (s, .wait w) => (s, .wait i [] w)
      | (s, .ok none) => s.writeOut x fuel rest
      | (s, .ok (some t)) => (s, .wait (i + 1) [t] false)
    else match elemAddr x.hd m b.length with
      | .error e => (s, .fault e i [])
      | .ok va =>
        let (g, rest) := sameLine x.hd (va / 128 : Nat) ((i, m, b) :: rest)
        match s.writeFirst x g g.length with
        | (s, n, some e) => (s, .fault e ((g[n]?.map (·.1)).getD i) [])
        | (s, _, none) => s.writeOut x fuel rest

/-- A list of values written, then the fault that ended it, if any. -/
def State.writeRun (s : State) (x : CopyCtx) (l : OutList × Option (FaultRec × Nat)) : State × RunEnd :=
  match s.writeOut x (l.1.length + 1) l.1 with
  | (s, .done _) =>
    match l.2 with
    | none => (s, .done [])
    | some (e, i) => (s, .fault e i [])
  | r => r

/-- The level-0 run of a copy-in or copy-out, from an element on. -/
def State.runCopy (s : State) (x : CopyCtx) (n start : Nat) : State × RunEnd :=
  let (i1, i2, i3) := stepIndices x.r n
  let l := fun i0 => x.r.localAt x.b[1] i0 i1 i2 i3
  if x.r.kind = 0x21 then
    s.writeRun x (outList (fun i0 => (outBytes (s.core x.core) x (l i0)).map fun b => (x.r.memAt x.b[0] i0 i1 i2 i3, b))
      (runFrom start (x.r.t 0)))
  else if isBlockCode x.r.sfmt then
    let row := x.r.memAt x.b[0] 0 i1 i2 i3
    let scale : Int := x.r.aux + x.b[3].toInt + ((x.r.t 0 + 31) / 32 : Nat) * (i1 + x.r.t 1 * (i2 + x.r.t 2 * i3) : Nat)
    s.runElems (fun s i0 => s.elemBlock x row scale i0 (l i0)) (runFrom start (x.r.t 0))
  else s.runElems (fun s i0 => s.elemIn x (x.r.memAt x.b[0] i0 i1 i2 i3) (l i0)) (runFrom start (x.r.t 0))

/-- The memory address of a gather or scatter's element (06 R148). -/
def CopyRec.indexedAt (c : CopyRec) (b0 : Word) (i0 idx : Nat) : Int := c.moff + b0.toInt + i0 * c.ms 0 + idx * c.ms 1

/-- The level-0 run of a gather, from an element on. -/
def State.runGather (s : State) (x : CopyCtx) (n start : Nat) : State × RunEnd :=
  let (i1, i2, i3) := stepIndices x.r n
  match indexAt { s.core x.core with ls := x.ls } x.r x.b[2] n with
  | .error f => (s, .fault f start [])
  | .ok idx =>
    s.runElems (fun s i0 => s.elemIn x (x.r.indexedAt x.b[0] i0 idx) (x.r.localAt x.b[1] i0 i1 i2 i3)) (runFrom start (x.r.t 0))

/-- COMB's operator (06 R149). -/
def combOp (comb : Nat) (ty : Fmt) : AOp :=
  match comb with
  | 0 => if ty == .f32 then .fadd else .add
  | 1 => .min
  | 2 => .max
  | 3 => .and
  | 4 => .or
  | _ => .xor

/-- Two values combined with COMB. -/
def combine (comb : Nat) (ty : Fmt) (a b : Nat) : Nat :=
  (atomicNew (combOp comb ty) ty a b 0).getD a

/-- A value applied to memory as an atomic under RMW (06 R149). -/
def State.apply (s : State) (x : CopyCtx) (m : Int) (v i : Nat) : State × ElemEnd (Option (BitVec 32)) :=
  let ty := fmtAt x.r.dfmt
  s.recAtomic x.core x.ctx x.hd m (combOp x.r.comb ty) ty v x.id (x.elem i) (x.str || x.hd.stream)

/-- The converted value of a scatter's element. -/
def scatterValue (k : Core) (x : CopyCtx) (l : Int) : Except FaultRec Nat :=
  let n := (fmtAt x.r.sfmt).bytes
  match localElem k false l n with
  | .error f => .error f
  | .ok off => .ok (leNat (convertElem x.r.sfmt x.r.dfmt x.r.rm (lsRead k off n)))

/-- The level-0 run of an ordered scatter, from an element on: each value is written or applied in order. -/
def State.runOrdered (s : State) (x : CopyCtx) (n start : Nat) : State × RunEnd :=
  let (i1, i2, i3) := stepIndices x.r n
  let k : Core := { s.core x.core with ls := x.ls }
  match indexAt k x.r x.b[2] n with
  | .error f => (s, .fault f start [])
  | .ok idx =>
    let at' := fun i0 => x.r.localAt x.b[1] i0 i1 i2 i3
    if x.r.rmw = 0 then
      s.writeRun x (outList (fun i0 => (outBytes k x (at' i0)).map fun b => (x.r.indexedAt x.b[0] i0 idx, b))
        (runFrom start (x.r.t 0)))
    else
      s.runElems (fun s i0 =>
        match scatterValue k x (at' i0) with
        | .error f => (s, .fault f)
        | .ok v => s.apply x (x.r.indexedAt x.b[0] i0 idx) v i0) (runFrom start (x.r.t 0))

/-- The addresses that the run of a step goes to. -/
def runTargets (k : Core) (x : CopyCtx) (n : Nat) : List Int :=
  match indexAt k x.r x.b[2] n with
  | .error _ => []
  | .ok idx => (List.range (x.r.t 0)).map fun i0 => x.r.indexedAt x.b[0] i0 idx

/-- A destination of a combine-mode scatter: its offset from the handle's base, the combination of its values, how many there were, and
the place (n, i0) of the first. -/
structure Combined where
  at_   : Int
  value : Nat
  count : Nat
  place : Nat × Nat

/-- The destinations of a combine-mode scatter, in the order in which they are first named, up to the first element that cannot be read,
with its fault and place. -/
def gatherValues (k : Core) (x : CopyCtx) : List (Nat × Nat) → List Combined → List Combined × Option (FaultRec × Nat × Nat)
  | [], acc => (acc, none)
  | (n, i0) :: rest, acc =>
    let (i1, i2, i3) := stepIndices x.r n
    match indexAt k x.r x.b[2] n with
    | .error f => (acc, some (f, n, i0))
    | .ok idx =>
      match scatterValue k x (x.r.localAt x.b[1] i0 i1 i2 i3) with
      | .error f => (acc, some (f, n, i0))
      | .ok v =>
        let m := x.r.indexedAt x.b[0] i0 idx
        let acc := if acc.any (·.at_ = m) then
            acc.map fun e => if e.at_ = m then
              { e with value := combine x.r.comb (fmtAt x.r.dfmt) e.value v, count := e.count + 1 } else e
          else acc ++ [⟨m, v, 1, (n, i0)⟩]
        gatherValues k x rest acc

/-- The places (n, i0) of a combine-mode scatter in increasing order. -/
def scatterPlaces (c : CopyRec) : List (Nat × Nat) :=
  (List.range (c.t 1 * c.t 2 * c.t 3)).flatMap fun n => (List.range (c.t 0)).map fun i0 => (n, i0)

/-- The loop indices of a fault, i0 lowest (06 R152). -/
def loopWord (i0 i1 i2 i3 : Nat) : BitVec 128 := BitVec.ofNat 128 (i0 + 2 ^ 32 * i1 + 2 ^ 64 * i2 + 2 ^ 96 * i3)

/-- The loop indices of an element by its number, level 0 first. -/
def CopyRec.elemLoop (c : CopyRec) (e : Nat) : BitVec 128 :=
  let (i1, i2, i3) := stepIndices c (e / c.t 0)
  loopWord (e % c.t 0) i1 i2 i3

/-- The loop indices of an element of a copy operation. -/
def EngKind.elemLoop (k : EngKind) (e : Nat) : BitVec 128 :=
  match k with
  | .copy _ r _ _ _ => (copyRec r).elemLoop e
  | _ => 0

/-- The outcome of a run: a fault takes the loop indices of its element. -/
def RunEnd.placed (x : CopyCtx) (r : RunEnd) : RunEnd :=
  match r with
  | .fault f i sent => .fault { f with loop := x.r.elemLoop (x.elem i) } i sent
  | r => r

/-- Destinations that received more than one value are counted (06 R149). -/
def countDups (l : List Combined) (k : Core) : Core := { k with scdup := countN k.scdup (l.filter (1 < ·.count)).length }

/-- The single step of a combine-mode scatter, from a destination on of those that the elements from `base` on name (06 R149, R153).
Where an element cannot be read, the destinations of those before it are written first; `base` is then that element. A fault of a
destination has the place of its first value (log 75). -/
def State.runCombine (s : State) (x : CopyCtx) (base start : Nat) : State × RunEnd × Nat :=
  let (l, bad) := gatherValues { s.core x.core with ls := x.ls } x ((scatterPlaces x.r).drop base) []
  let x := { x with elem := fun i => (l[i]?.map fun e => e.place.1 * x.r.t 0 + e.place.2).getD 0 }
  let r := if x.r.rmw = 0 then
      s.writeRun x (((runFrom start l.length).zip (l.drop start)).map fun y =>
        (y.1, y.2.at_, natLe (fmtAt x.r.dfmt).bytes y.2.value), none)
    else s.runElems (fun s i =>
      match l[i]? with
      | none => (s, .ok none)
      | some e => s.apply x e.at_ e.value i) (runFrom start l.length)
  let stop := match r.2 with
    | .done _ => l.length
    | .wait i _ _ => i
    | .fault _ i _ => i
  let s := r.1.updCore x.core (countDups ((l.take stop).drop start))
  match r.2, bad with
  | .done sent, some (f, n, i0) =>
    let at' := n * x.r.t 0 + i0
    if sent.isEmpty then (s, .fault { f with loop := x.r.elemLoop at' } 0 [], at') else (s, .wait stop sent false, base)
  | e, _ => (s, e.placed x, base)

/-! ### Steps (06 R150, R152, R153) -/

/-- What an operation of a copy engine works with, from what it read at issue. -/
def copyCtx (c : CoreId) (ls : List Host.Cell) (ctx : BitVec 10) (o : EngOp) : Option CopyCtx :=
  match o.kind with
  | .copy _ r b h sh =>
    let f := copyRec r
    (handleOf f.hdl h).map fun hd => ⟨c, o.got.getD ls, ctx, o.id, fun i => o.pos * f.t 0 + i, f, b, hd, handleOf f.shdl sh, o.hint == .stream⟩
  | _ => none

/-- How many destinations of a run become duplicates with it: those the command has gone to exactly once before (06 R149). -/
def newDups (old : List Nat) (l : List Int) : Nat × List Nat :=
  l.foldl (fun (a : Nat × List Nat) m =>
    (if (a.2.filter (· = m.toNat)).length = 1 then a.1 + 1 else a.1, m.toNat :: a.2)) (0, old)

/-- The destinations of an ordered scatter that this part of its step has gone to, up to element `i`: those that receive a further value are
counted in SCDUP, each once (06 R149). -/
def State.noteDups (s : State) (k : Core) (x : CopyCtx) (o : EngOp) (i : Nat) : State × EngOp :=
  if x.r.kind = 0x23 && x.r.dup = 1 then
    let (dups, seen) := newDups o.lines (((runTargets k x o.pos).take i).drop o.status)
    (s.updCore x.core fun k => { k with scdup := countN k.scdup dups }, { o with lines := seen })
  else (s, o)

/-- One step of the head of a copy queue, from the element that stopped it if one has. -/
def State.copyRun (s : State) (x : CopyCtx) (o : EngOp) : State × RunEnd :=
  let r := if x.r.kind = 0x22 then s.runGather x o.pos o.status
    else if x.r.kind = 0x23 then s.runOrdered x o.pos o.status
    else s.runCopy x o.pos o.status
  (r.1, r.2.placed x)

/-- One step of a copy operation, which notes what it keeps between its parts: of a combine-mode scatter the element it combines from. -/
def State.copyPart (s : State) (x : CopyCtx) (o : EngOp) : State × RunEnd × EngOp :=
  if x.r.kind = 0x23 && x.r.dup = 0 then
    let (s, r, base) := s.runCombine x (o.lines.headD 0) o.status
    (s, r, { o with lines := [base], got := some x.ls })
  else
    let (s, r) := s.copyRun x o
    (s, r, { o with got := some x.ls })

/-- An operation that has gone to element `i` of its step, with the records it sent. -/
def EngOp.upTo (o : EngOp) (i : Nat) (sent : List (BitVec 32)) : EngOp :=
  { o with status := i, sent := o.sent ++ sent.map fun t => ⟨t, 0, 0⟩ }

/-- A copy operation has begun a step and not finished it: pre-emption stops it only between steps (06 R153). -/
def EngOp.midStep (o : EngOp) : Bool := o.got.isSome

/-- The first wait of an element for its ownership back-off is counted in ABOFF (06 R139). -/
def countBackOff (o : EngOp) (i : Nat) (backOff : Bool) (k : Core) : Core :=
  if backOff && o.waited ≠ i + 1 then { k with aboff := count k.aboff } else k

/-- The index of the record that an operation performs. -/
def EngKind.recIndex (k : EngKind) : BitVec 12 :=
  match k with
  | .copy i _ _ _ _ => i
  | .matrix i _ _ _ => i
  | _ => 0

/-- COPY_STEP (06 R153): the head of a copy queue performs one step; after the last, once every record it sent has come back,
the operation is complete (R150). A fault stops it at its element and halts the queue (R152). -/
def execCopyStep (c : CoreId) (e : Fin 6) (s : State) : Out :=
  let k := s.core c
  match k.ready? e, k.ctxId with
  | some o, some ctx =>
    match copyCtx c k.ls ctx o with
    | none => .next s
    | some x =>
      if !o.sent.isEmpty then .next s
      else if x.r.steps ≤ o.pos then .next (s.updCore c (completeOp e o))
      else if (k.enginesStop && !o.midStep) || !queueTag k e then .next s
      else
        match s.copyPart x o with
        | (s, .wait i sent b, o) =>
          let (s, o) := s.noteDups { k with ls := x.ls } x o i
          .next (s.updCore c fun k => (countBackOff o i b k).setOp e { o.upTo i sent with waited := if b then i + 1 else o.waited })
        | (s, .fault f i sent, o) =>
          let (s, o) := s.noteDups { k with ls := x.ls } x o i
          .next (s.updCore c (haltOp e (o.upTo i sent) { f with idx := o.kind.recIndex }))
        | (s, .done sent, o) =>
          let (s, o) := s.noteDups { k with ls := x.ls } x o (x.r.t 0)
          let o := { o.upTo 0 sent with pos := o.pos + 1, got := none, waited := 0 }
          let s := s.updCore c (·.setOp e o)
          .next (if x.r.steps ≤ o.pos && o.sent.isEmpty then s.updCore c (completeOp e o) else s)
  | _, _ => .next s

end Sys2Proof.Machine
end

