-- ==== Sys2Proof/Machine/Slots.lean ====
section
/-! DEFINITION. Landing zones and slots as they stand in a core's local store (18 R373 to R378): the zone header, a slot's barrier
with the slot's own fields, and the moves of a slot that more than one chapter makes. -/

namespace Sys2Proof.Machine

open Sys2Proof

/-- The layout of a core without a group. -/
def Layout.none : Layout :=
  ⟨0, ⟨0, 0⟩, ⟨0, 0⟩, Vector.replicate 16 ⟨0, 0⟩, Vector.replicate 16 ⟨0, 0⟩⟩

/-- The layout of the group on a core. -/
def Core.layout (k : Core) : Layout := (k.grp.map (·.layout)).getD Layout.none

/-- The number of slots of a zone: none where it is not declared (18 R373). -/
def Layout.slots (l : Layout) (z : Fin 16) : Nat := if l.zones[z].size < 36864 then 0 else (l.zones[z].size - 4096) / 32768

/-- The offset of slot j's barrier and of its data (18 R373). -/
def Layout.slotAt (l : Layout) (z : Fin 16) (j : Nat) : Nat := l.zones[z].off + 64 * (j + 1)
def Layout.slotData (l : Layout) (z : Fin 16) (j : Nat) : Nat := l.zones[z].off + 4096 + 32768 * j

/-- Slot j's barrier record. -/
def Core.slotRec (k : Core) (z : Fin 16) (j : Nat) : Rec64 := BitVec.ofNat 512 (lsNat k (k.layout.slotAt z j) 64)

def Core.putSlotRec (z : Fin 16) (j : Nat) (b : Rec64) (k : Core) : Core := lsPut (k.layout.slotAt z j) 64 b.toNat k

/-! ### The slot's fields (18 R375) -/

def slotSst (b : Rec64) : Nat := bitsOf b.toNat 256 3
def slotCause (b : Rec64) : Nat := bitsOf b.toNat 264 8
def slotRsv (b : Rec64) : Nat := bitsOf b.toNat 272 16
def slotSdev (b : Rec64) : Nat := bitsOf b.toNat 288 16
def slotStag (b : Rec64) : Nat := bitsOf b.toNat 304 16
def slotScore (b : Rec64) : Nat := bitsOf b.toNat 320 9
def slotBytes (b : Rec64) : Nat := bitsOf b.toNat 336 16

/-- The states of a slot (18 R375). -/
def sstFree : Nat := 0
def sstOffered : Nat := 1
def sstReserved : Nat := 2
def sstFilling : Nat := 3
def sstArrived : Nat := 4
def sstAdopted : Nat := 5
def sstTorn : Nat := 6

def putSst (b : Rec64) (x : Nat) : Rec64 := putField b 256 3 x

/-- A slot barrier as at group start: KIND 0x02, every other field zero (18 R375). -/
def slotReset : Rec64 := 2

/-! ### The zone header (18 R374) -/

/-- A counter of the zone header, at a byte offset, counted once or more. -/
def bumpZone (z : Fin 16) (at' n : Nat) (k : Core) : Core :=
  let off := k.layout.zones[z].off + at'
  lsPut off 8 (countN (BitVec.ofNat 64 (lsNat k off 8)) n).toNat k

/-- Beats refused, slots torn and adoptions counted. -/
def countRefused (z : Fin 16) (n : Nat) (k : Core) : Core := bumpZone z 8 n k
def countTorn (z : Fin 16) (k : Core) : Core := bumpZone z 16 1 k
def countAdopt (z : Fin 16) (k : Core) : Core := bumpZone z 24 1 k

/-- A zone as group start leaves it (18 R374, R375; 13 R305): its header, and each slot's barrier. -/
def resetZone (z : Fin 16) (k : Core) : Core :=
  let n := k.layout.slots z
  let r := k.layout.zones[z]
  if n = 0 then k
  else
    let k := lsPut r.off 64 (n % 256 + 2 ^ 8 * z.val) k
    (List.range n).foldl (fun k j => k.putSlotRec z j slotReset) k

/-! ### Moves (18 R378) -/

/-- Every slot of the group's zones. -/
def Core.allSlots (k : Core) : List (Fin 16 × Nat) :=
  (List.finRange 16).flatMap fun z => (List.range (k.layout.slots z)).map fun j => (z, j)

/-- A slot torn with a cause: TORN is set and the tear is counted. Every byte of the slot beyond those that have landed is arbitrary (18
R378): free value number `draw`. -/
def tearSlot (z : Fin 16) (j cause draw : Nat) (k : Core) : Core :=
  let b := k.slotRec z j
  let left := 32768 - 64 * barCount b
  let k := lsWrite (k.layout.slotData z j + 64 * barCount b) (bytesOf (Config.freeBits (8 * left) draw) 0 left) k
  countTorn z (k.putSlotRec z j (putField (putField (putSst b sstTorn) 264 8 cause) 12 1 1))

/-- A slot that waits for landing records. -/
def awaitsLanding (b : Rec64) : Bool := slotSst b = sstReserved || slotSst b = sstFilling

/-- Slots of a list that meet a test torn with a cause, with free values from a number on. -/
def tearList (test : Rec64 → Bool) (cause : Nat) : List (Fin 16 × Nat) → Nat → Core → Core
  | [], _, k => k
  | p :: l, draw, k => tearList test cause l (draw + 1) (if test (k.slotRec p.1 p.2) then tearSlot p.1 p.2 cause draw k else k)

/-- Every slot of a core's group that meets a test torn with a cause. -/
def State.tear (s : State) (c : CoreId) (test : Rec64 → Bool) (cause : Nat) : State :=
  let k := s.core c
  { s.setCore c (tearList test cause k.allSlots s.freeCtr k) with freeCtr := s.freeCtr + k.allSlots.length }

/-- Some slot awaits landing records. -/
def Core.landing (k : Core) : Bool := k.allSlots.any fun p => awaitsLanding (k.slotRec p.1 p.2)

/-- An adopted slot returned by its line: it is arrived again (18 R384). -/
def returnSlot (z : Fin 16) (j : Nat) (k : Core) : Core :=
  let b := k.slotRec z j
  if slotSst b = sstAdopted then k.putSlotRec z j (putSst b sstArrived) else k

end Sys2Proof.Machine
end

