-- ==== Sys2Proof/Machine/Caldera.lean ====
section
/-! DEFINITION. The Caldera (08 R200 to R211, R220 to R223): tags, lookups, placement and replacement, the replay queue, write-backs,
and the events that complete a fill or a write-back. -/

namespace Sys2Proof.Machine

open Sys2Proof

/-! ### Lines -/

/-- The set of a tag (08 R205). -/
def tagSet (t : BitVec 12) (crd : Vector Word 4) : Nat :=
  let x := (t.toNat + 5 * crd[0].toNat + 17 * crd[1].toNat + 33 * crd[2].toNat + 65 * crd[3].toNat) % 2 ^ 64
  (x ^^^ x / 2 ^ 7 ^^^ x / 2 ^ 14 ^^^ x / 2 ^ 21 ^^^ x / 2 ^ 28) % 128

/-- The line with a tag, in any state but invalid. -/
def Core.tagged (k : Core) (t : BitVec 12) (c : Vector Word 4) : Option TileLine := k.lines.find? fun l => l.tens = t && l.c = c

def Core.lineIdx (k : Core) (i : Nat) : Option TileLine := k.lines.find? (·.idx = i)

/-- The serial number of the group on a core. -/
def Core.serial (k : Core) : Nat := (k.grp.map (·.serial)).getD 0

/-- A line's data in the slot it is adopted from: the granules are the same (18 R384). -/
def mirrorLine (l : TileLine) (k : Core) : Core :=
  match l.adopt with
  | none => k
  | some (z, j) => lsWrite (k.layout.slotData z j) (bytesOf l.data 0 (512 * l.gran)) k

/-- A line replaced. -/
def Core.setLine (k : Core) (l : TileLine) : Core :=
  mirrorLine l { k with lines := k.lines.map fun x => if x.idx = l.idx then l else x }

/-- A line becomes invalid: its granules are freed, or return to their landing slot. -/
def Core.dropLine (k : Core) (l : TileLine) : Core :=
  let k := { k with lines := k.lines.filter (·.idx ≠ l.idx) }
  match l.adopt with
  | none => k
  | some (z, j) => returnSlot z j k

/-- A line becomes invalid by eviction, TINV or a fill fault: a prefetched line without a demand hit is counted dead (08 R223). -/
def Core.loseLine (k : Core) (l : TileLine) : Core :=
  let k := if l.pf && !l.pfHit then { k with cpfdead := count k.cpfdead } else k
  k.dropLine l

/-- The line is touched by the group: its stamp and group (08 R200). -/
def touchLine (l : TileLine) (k : Core) : TileLine := { l with grp := k.serial, stamp := k.tclock }

/-- A hint's effect on a line (08 R210). -/
def hintLine (h : Hint) (l : TileLine) : TileLine :=
  match h with
  | .pin => { l with pin := true, last := false, stream := false }
  | .last => if l.pin then l else { l with last := true }
  | .stream => if l.pin then l else { l with stream := true }
  | _ => l

/-- A line that is being evicted: its way, granules and place in the budget become free. -/
def TileLine.going (l : TileLine) : Bool := l.base == .writingBack && l.evict

/-- The lines that the current step of e5 reads while it waits for another (09 R241). -/
def Core.heldLines (k : Core) : List Nat := ((k.e[(5 : Fin 6)].ops.head?).map (·.lines)).getD []

/-- A line that may be a victim: valid, neither pinned nor held. -/
def TileLine.eligible (held : List Nat) (l : TileLine) : Bool := l.base == .valid && !l.pin && !held.contains l.idx

/-- The replacement class 2, 3 or 4 of a line that may be a victim (08 R206). -/
def TileLine.cls (serial : Nat) (l : TileLine) : Nat := if l.last then 2 else if l.stream || l.grp ≠ serial then 3 else 4

/-! ### Placement (08 R206 to R208) -/

/-- The line of a list whose key is smallest; the first of equals. -/
def leastBy (key : TileLine → Nat) : List TileLine → Option TileLine
  | [] => none
  | l :: r =>
    match leastBy key r with
    | none => some l
    | some m => if key m < key l then some m else some l

/-- The lines of the first class that holds one. -/
def firstClass (serial : Nat) (ls : List TileLine) : List TileLine :=
  match leastBy (·.cls serial) ls with
  | none => []
  | some l => ls.filter fun x => x.cls serial = l.cls serial

/-- The victim of a full set (08 R206): in class 4 the oldest, ties to the lowest way. -/
def setVictim (serial : Nat) (ls : List TileLine) : Option TileLine :=
  leastBy (fun l => (if l.cls serial = 4 then 1024 * l.stamp else 0) + l.idx) (firstClass serial ls)

/-- The victim of a group that is at its budget (08 R208): in class 4 the oldest; among several any of them. -/
def budgetVictim (serial draw : Nat) (ls : List TileLine) : Option TileLine :=
  let f := firstClass serial ls
  match leastBy (·.stamp) f with
  | none => none
  | some old =>
    let g := if old.cls serial = 4 then f.filter fun l => l.stamp = old.stamp else f
    g[draw % g.length]?

/-- The victim of a full pool (08 R207): in the first class, the first at or after the clock hand. -/
def poolVictim (serial hand : Nat) (ls : List TileLine) : Option TileLine :=
  leastBy (fun l => (l.idx + 1024 - hand % 1024) % 1024) (firstClass serial ls)

/-- What placing a new line takes: the victims, the way and where the clock hand ends; or it waits for lines that are being evicted;
while there are other candidates or not; or there is no candidate, all of them pinned or not. -/
inductive Plan
  | place (victims : List TileLine) (idx hand : Nat)
  | waits (others : Bool)
  | stuck (pinned : Bool)
  deriving DecidableEq, Repr

def allPinned (ls : List TileLine) : Bool := ls.all fun l => l.base == .valid && l.pin

/-- Step 3: pool granules, taken from line after line. -/
def planPool (serial total need : Nat) (held : List Nat) (idx : Nat) : Nat → Nat → List TileLine → List TileLine → Plan
  | 0, _, _, _ => .stuck false
  | fuel + 1, hand, ls, victims =>
    let pool := ls.filter fun l => l.adopt.isNone
    let used := (pool.map (·.gran)).sum
    let going := ((pool.filter (·.going)).map (·.gran)).sum
    if used + need ≤ total then .place victims idx hand
    else if used + need ≤ total + going then .waits (pool.any (·.eligible held))
    else match poolVictim serial hand (pool.filter (·.eligible held)) with
      | none => .stuck (allPinned pool)
      | some v => planPool serial total need held idx fuel ((v.idx + 1) % 1024) (ls.filter (·.idx ≠ v.idx)) (victims ++ [v])

/-- Step 2: a way of the set. `wait` says that lines which are being evicted are waited for. -/
def planWay (serial total need : Nat) (held : List Nat) (set hand : Nat) (wait : Bool) (ls victims : List TileLine) : Plan :=
  let here := ls.filter fun l => l.idx / 8 = set
  let pool := planPool serial total need held
  match ((List.range 8).map (8 * set + ·)).find? fun i => here.all (·.idx ≠ i) with
  | some i => pool i 1025 hand ls victims
  | none =>
    if wait && here.any (·.going) then .waits (here.any (·.eligible held))
    else match setVictim serial (here.filter (·.eligible held)) with
      | none => .stuck (allPinned here)
      | some v => pool v.idx 1025 hand (ls.filter (·.idx ≠ v.idx)) (victims ++ [v])

/-- Step 1: the budget of the group (08 R208), then the way and the granules. -/
def Core.plan (k : Core) (total need draw set : Nat) (wait : Bool := true) : Plan :=
  let serial := k.serial
  let own := k.lines.filter (·.grp = serial)
  let budget := (k.grp.map (·.tbud)).getD 1024
  let rest := planWay serial total need k.heldLines set k.hand wait
  if own.length < budget then rest k.lines []
  else if wait && own.length < budget + (own.filter (·.going)).length then .waits (own.any (·.eligible k.heldLines))
  else match budgetVictim serial draw (own.filter (·.eligible k.heldLines)) with
    | none => .stuck (allPinned own)
    | some v => rest (k.lines.filter (·.idx ≠ v.idx)) [v]

/-- A victim evicted: a clean line becomes invalid, a dirty one is written back first. -/
def evictTile (k : Core) (l : TileLine) : Core :=
  if l.dirty then k.setLine { l with base := .writingBack, evict := true } else k.loseLine l

/-- The granules of the pool (02 R47, 08): the core's SRAM less the window. -/
def State.poolGranules (s : State) (k : Core) : Nat :=
  match k.ctxId.bind s.ctx? with
  | none => 0
  | some x => (s.sram x * 131072 - k.layout.window) / 512

/-! ### Fills enter e0 -/

/-- A fill of a line as an operation of e0. -/
def fillOp (id idx : Nat) : EngOp where
  id := id
  slot := .m
  bundle := 0
  sbs := none
  push := none
  asc := .group
  ssc := {}
  ord := .rlx
  dest := .none
  dropped := false
  hint := .none
  kind := .fill idx
  pos := 0
  lines := []
  sent := []
  status := 0
  held := false
  failed := none
  parked := none
  got := none
  waited := 0

/-- A fill of a line enters e0. -/
def enterFill (idx : Nat) (k : Core) : Core :=
  let q := k.e[(0 : Fin 6)]
  { k.setQ 0 { q with ops := q.ops ++ [fillOp k.nextId idx] } with nextId := k.nextId + 1 }

/-- What looks a tile up: its entry, coordinates, the required edition, the hint, the scope of a later write-back, what the fault of
a fill would name, whether it is a TPF, whether it is a demand lookup (08 R223), and whether a miss allocates the line without a
fill (09 R238). -/
structure Look where
  tens   : BitVec 12
  ent    : Rec128
  c      : Vector Word 4
  ed     : Word
  hint   : Hint
  asc    : Scope
  origin : TOrigin
  pf     : Bool
  demand : Bool := true
  noFill : Bool := false

/-- A line as a miss allocates it (08 R201, R210). -/
def freshLine (q : Look) (ctx : BitVec 10) (idx : Nat) (k : Core) : TileLine where
  idx := idx
  ctx := ctx
  tens := q.tens
  c := q.c
  ed := q.ed
  base := .filling
  pin := q.hint == .pin
  dirty := false
  adopt := none
  last := q.hint == .last
  stream := q.hint == .stream
  grp := k.serial
  stamp := k.tclock
  gran := (tEnt q.ent).granules
  data := 0
  keys := []
  ent := q.ent
  asc := q.asc
  origin := q.origin
  evict := false
  discard := false
  pf := q.pf
  pfHit := false
  out := none

/-- How a lookup ends (08 R202): a hit; a line that fills, its fill begun by this lookup or not; it must wait, and may have begun an
eviction, or await that of another while there are other candidates; or there is no candidate. -/
inductive LookEnd
  | hit (l : TileLine)
  | filling (l : TileLine) (fresh : Bool)
  | wait (evicting others : Bool)
  | noWay (pinned : Bool)
  deriving DecidableEq, Repr

/-- A hit on a line: the stamp, the group and the hint; the first demand hit of a prefetched line is counted (08 R202, R223). -/
def hitLine (q : Look) (l : TileLine) (k : Core) : Core × LookEnd :=
  let first := l.pf && !l.pfHit && q.demand
  let l := hintLine q.hint (touchLine { l with pfHit := l.pfHit || first } k)
  let k := { k with tclock := k.tclock + 1, cpfhit := if first then count k.cpfhit else k.cpfhit }
  (k.setLine l, .hit l)

/-- The granules of a line that is refilled in place under another entry (08 R198): it keeps its way, and where it needs more than it held,
lines are evicted for them (08 R207). -/
def Core.planAgain (k : Core) (total need : Nat) (l : TileLine) : Plan :=
  if need ≤ l.gran || l.adopt.isSome then .place [] l.idx k.hand
  else planPool k.serial total need k.heldLines l.idx 1025 k.hand (k.lines.filter (·.idx ≠ l.idx)) []

/-- A stale line (08 R202): written back if dirty, else refilled in place. -/
def staleLine (q : Look) (total : Nat) (l : TileLine) (k : Core) : Core × LookEnd :=
  let need := (tEnt q.ent).granules
  if l.dirty then ({ k.setLine { l with base := .writingBack } with tstale := count k.tstale }, .wait false true)
  else if !k.queueOpen 0 then (k, .wait false true)
  else match k.planAgain total need l with
    | .waits others => (k, .wait false others)
    | .stuck p => (k, .noWay p)
    | .place victims _ hand =>
      let k1 := { victims.foldl evictTile k with hand := hand }
      if victims.any (·.dirty) then (k1, .wait true true)
      else
        let l := touchLine { l with base := .filling, ed := q.ed, origin := q.origin, ent := q.ent, gran := need } k1
        (enterFill l.idx ({ k1 with tclock := k1.tclock + 1 }.setLine l), .filling l true)

/-- A miss (08 R202, R206 to R208). -/
def missLine (q : Look) (ctx : BitVec 10) (total draw : Nat) (k : Core) : Core × LookEnd :=
  match k.plan total (tEnt q.ent).granules draw (tagSet q.tens q.c) with
  | .waits others => (k, .wait false others)
  | .stuck p => (k, .noWay p)
  | .place victims idx hand =>
    if !q.noFill && !k.queueOpen 0 then (k, .wait false true)
    else
      let k1 := { victims.foldl evictTile k with hand := hand }
      if victims.any (·.dirty) then (k1, .wait true true)
      else
        let l := freshLine q ctx idx k1
        let k1 := { k1 with
          lines := k1.lines ++ [l]
          tclock := k1.tclock + 1
          cpfiss := if q.pf then count k1.cpfiss else k1.cpfiss }
        if q.noFill then hitLine q { l with base := .valid } k1 else (enterFill idx k1, .filling l true)

/-- R202: a lookup, its coordinates and entry already checked. -/
def State.lookup (s : State) (c : CoreId) (q : Look) : State × LookEnd :=
  let k := s.core c
  let ctx := k.ctxId.getD 0
  let (k, r) := match k.tagged q.tens q.c with
    | some l =>
      match l.base with
      | .filling => (k, .filling l false)
      | .writingBack => (k, .wait false true)
      | .valid => if q.ed.toNat ≤ l.ed.toNat then hitLine q l k else staleLine q (s.poolGranules k) l k
    | none => missLine q ctx (s.poolGranules k) (Config.draw s.freeCtr) k
  ((s.setCore c k).drew, r)

/-! ### The replay queue (08 R203) -/

def Core.waiter? (k : Core) (who : WaiterKind) : Option Waiter := k.replay.find? fun w => w.who == who

def Core.unpark (k : Core) (who : WaiterKind) : Core := { k with replay := k.replay.filter fun w => w.who != who }

/-- A waiter whose tile was hit frees its entry; one of the same command for another tile keeps its own. -/
def Core.replayed (k : Core) (who : WaiterKind) (t : BitVec 12) (c : Vector Word 4) : Core :=
  { k with replay := k.replay.filter fun w => !(w.who == who && w.tens = t && w.c = c) }

/-- A waiter parked: its entry is kept in place, or appended. -/
def Core.park (k : Core) (w : Waiter) : Core :=
  if k.replay.any fun x => x.who == w.who then { k with replay := k.replay.map fun x => if x.who == w.who then w else x }
  else { k with replay := k.replay ++ [w] }

/-- The waiters of a tile. -/
def Core.waitersOf (k : Core) (t : BitVec 12) (c : Vector Word 4) : List Waiter := k.replay.filter fun w => w.tens = t && w.c = c

/-- Another waiter of the tile stands before this one (08 R203). -/
def Core.behind (k : Core) (who : WaiterKind) (t : BitVec 12) (c : Vector Word 4) : Bool :=
  match k.waitersOf t c with
  | [] => false
  | w :: _ => w.who != who

/-- The required edition of a tensor (08 R211). -/
def Core.required (k : Core) (t : BitVec 12) : Word := ((k.reqEd.find? (·.1 = t)).map (·.2)).getD 0

/-- A demand has parked on a line that fills: the first time that it is a prefetched line, whose fill it has not begun itself, the lookup is
counted late (08 R223). -/
def parkOn (l : TileLine) (fresh : Bool) (w : Waiter) (k : Core) : Core :=
  let late := l.pf && !fresh
  { k with cpflate := if late && !w.late then count k.cpflate else k.cpflate }.park { w with noWay := false, late := w.late || late }

/-- The line of a tile, where it fills. -/
def Core.fillingLine (k : Core) (t : BitVec 12) (c : Vector Word 4) : Option TileLine := (k.tagged t c).filter (·.base == .filling)

/-- A demand lookup by a command that parks: the line on a hit, with the command's entry freed; otherwise the command is parked, or,
where the queue is full, only waits (08 R203, R209). -/
def State.demand (s : State) (c : CoreId) (who : WaiterKind) (q : Look) : State × Option TileLine :=
  let k := s.core c
  let own := (k.waiter? who).filter fun w => w.tens = q.tens && w.c = q.c
  if (k.waiter? who).isNone && 32 ≤ k.replay.length then (s, none)
  else
    let q := { q with ed := (own.map (·.ed)).getD q.ed }
    let w : Waiter := ⟨who, q.tens, q.ent, q.c, q.ed, false, own.bind (·.since), own.any (·.late), false⟩
    if k.behind who q.tens q.c then
      match k.fillingLine q.tens q.c with
      | some l => (s.setCore c (parkOn l false w k), none)
      | none => (s.setCore c (k.park w), none)
    else
      let (s, r) := s.lookup c q
      match r with
      | .hit l => (s.updCore c (·.replayed who q.tens q.c), some l)
      | .filling l fresh => (s.updCore c (parkOn l fresh w), none)
      | .wait _ _ => (s.updCore c (·.park w), none)
      | .noWay _ => (s.updCore c (·.park { w with noWay := true }), none)

/-- The waiter's every candidate is pinned (08 R209). -/
def State.pinnedOut (s : State) (c : CoreId) (w : Waiter) : Bool :=
  let k := s.core c
  w.noWay && (k.tagged w.tens w.c).isNone &&
    k.plan (s.poolGranules k) (tEnt w.ent).granules 0 (tagSet w.tens w.c) = .stuck true

/-- The counts of R209: for each waiter, since when its every candidate has been pinned. -/
def State.countPinned (s : State) (c : CoreId) : State :=
  s.updCore c fun k => { k with replay := k.replay.map fun w =>
    { w with since := if s.pinnedOut c w then some (w.since.getD (s.cycle c.die)) else none } }

/-- A line marked for invalidation that is valid with no waiter left becomes invalid; dirty data are discarded and counted (08
R216). -/
def dropDiscarded (k : Core) : Core :=
  k.lines.foldl (fun k l =>
    if l.discard && l.base == .valid && !k.heldLines.contains l.idx && (k.waitersOf l.tens l.c).isEmpty then
      { k.loseLine l with tdisc := if l.dirty then count k.tdisc else k.tdisc }
    else k) k

/-! ### Write-back (08 R199, R217) -/

/-- How a write-back ends. -/
inductive WbEnd
  | done
  | fault (f : FaultRec)
  | wait
  deriving DecidableEq, Repr

/-- What a write-back puts: codes or elements through HDL, scale bytes through SHDL. A block format's stored blocks that the line
does not cover are read first. -/
def State.lineParts (s : State) (c : CoreId) (l : TileLine) : State × Except FaultRec (List BitPut × List BitPut) :=
  let x := tEnt l.ent
  if !blockFmt x.sfmt then (s, .ok (x.plainPuts l.c l.data, []))
  else if x.sfmt = x.cfmt then (s, .ok (x.copyPuts l.c l.data))
  else s.requantise c l.ctx x l.c l.data (x.touchedBlocks l.c) [] []

/-- The bytes of one memory line, as offsets in it, with the byte that a partial one merges into read first, under W as a write-back is
(16 R334). -/
def State.mergeBytes (s : State) (c : CoreId) (ctx : BitVec 10) (v : Via) (base : Nat) :
    List BytePut → List (Nat × Byte) → State × Except FaultRec (List (Nat × Byte))
  | [], acc => (s, .ok acc.reverse)
  | b :: rest, acc =>
    let va := base + b.off.toNat
    if b.mask = 255 then s.mergeBytes c ctx v base rest ((va % 128, BitVec.ofNat 8 b.v) :: acc)
    else match s.readPiece c ctx v va 1 .write with
      | (s, .error f) => (s, .error f)
      | (s, .ok old) => s.mergeBytes c ctx v base rest ((va % 128, BitVec.ofNat 8 ((leNat old &&& (255 - b.mask)) + b.v)) :: acc)

/-- Bytes written line by line, one write for each memory line. -/
def State.putLines (s : State) (c : CoreId) (ctx : BitVec 10) (h : Handle) : Nat → List BytePut → State × Option FaultRec
  | 0, _ => (s, none)
  | _, [] => (s, none)
  | fuel + 1, b :: rest =>
    let line := lineOf (h.base + b.off.toNat)
    let here := (b :: rest).takeWhile fun x => lineOf (h.base + x.off.toNat) = line
    let v := viaHandle h false
    match s.mergeBytes c ctx v h.base here [] with
    | (s, .error f) => (s, some f)
    | (s, .ok bs) =>
      match s.writeVaOffsets c ctx v (128 * line) bs with
      | (s, some f) => (s, some f)
      | (s, none) => s.putLines c ctx h fuel ((b :: rest).drop here.length)

/-- The checks of 06 R130 on what a write-back puts: every element within the bound and aligned. -/
def putsFault (h : Handle) (align : Nat) (l : List BitPut) : Option FaultRec :=
  l.findSome? fun p =>
    match storeAddr h (p.bit / 8) (((p.bit % 8).toNat + p.w + 7) / 8) align with
    | .error f => some f
    | .ok _ => none

/-- One stretch of consecutive bytes sent to a peer page: at most 1024, within a page. -/
def runLength : List BytePut → Nat → Int → Nat → Nat
  | [], n, _, _ => n
  | b :: r, n, at', room => if b.off = at' && n < room then runLength r (n + 1) (at' + 1) room else n

/-- Bytes of a line's write-back sent to a peer page as write records (16 R335, 17 R362); it answers the tags. -/
def State.putPeer (s : State) (c : CoreId) (line : TileLine) (h : Handle) :
    Nat → List BytePut → List (BitVec 32) → State × WbEnd × List (BitVec 32)
  | 0, _, tags => (s, .done, tags)
  | _, [], tags => (s, .done, tags)
  | fuel + 1, b :: rest, tags =>
    let va := h.base + b.off.toNat
    match s.peerLeaf c .write va with
    | (s, .error f) => (s, .fault f, tags)
    | (s, .ok l) =>
      let n := runLength (b :: rest) 0 b.off (min 1024 (l.size - va % l.size))
      let dev := BitVec.ofNat 16 l.pdev
      match s.linkUse c false dev with
      | .waits => (s, .wait, tags)
      | .cannot => (s, .fault (fabricFault va 4 0 0), tags)
      | .carries i li =>
        let bytes := ((b :: rest).take n).map fun x => BitVec.ofNat 8 x.v
        let r := s.opRecord c dev false false 0x01 (l.phys va) 0 0 bytes
        let s := s.sendFrame c i li ⟨r, 0xFFFF, c, 2 ^ 64 + line.idx, 0, va⟩ false
        s.putPeer c line h fuel ((b :: rest).drop (max n 1)) (r.rtag :: tags)

/-- A write-back through one handle. -/
def State.putThrough (s : State) (c : CoreId) (line : TileLine) (hn : BitVec 12) (align : Nat) (puts : List BitPut) :
    State × WbEnd × List (BitVec 32) :=
  if puts.isEmpty then (s, .done, [])
  else match s.handleFor c hn with
    | (s, .error f) => (s, .fault f, [])
    | (s, .ok h) =>
      match putsFault h align puts with
      | some f => (s, .fault f, [])
      | none =>
        let bytes := mergePuts (Config.draw s.freeCtr) puts
        let s := s.drew
        if h.space == .peer then
          match bytes.find? (·.mask ≠ 255) with
          | some b => (s, .fault { code := 0x0305, addr := BitVec.ofInt 64 (h.base + b.off) }, [])
          | none => s.putPeer c line h bytes.length bytes []
        else match s.putLines c line.ctx h bytes.length bytes with
          | (s, some f) => (s, .fault f, [])
          | (s, none) => (s, .done, [])

/-- The write-back of a line to its storage: everything is written, or its records are sent. -/
def State.writeTile (s : State) (c : CoreId) (l : TileLine) : State × WbEnd × List (BitVec 32) :=
  let x := tEnt l.ent
  match s.lineParts c l with
  | (s, .error f) => (s, .fault f, [])
  | (s, .ok (codes, scales)) =>
    match s.putThrough c l x.hdl (if blockFmt x.sfmt then 1 else x.sf.bytes) codes with
    | (s, .done, tags) =>
      let (s, e, more) := s.putThrough c l x.shdl 1 scales
      (s, e, tags ++ more)
    | r => r

/-! ### M-slot accesses that wait for lines -/

/-- A tile named by an access has been settled for one kind of waiting. -/
def tileDone (test : TileCmd → Bool) (t : BitVec 12) (c : Vector Word 4) (k : Core) : Core :=
  { k with acc := k.acc.map fun a =>
      match a.kind with
      | .tile cmd tens ent todo names =>
        if tens = t && test cmd then { a with kind := .tile cmd tens ent (todo.filter (· ≠ c)) names } else a
      | _ => a }

/-- A write-back of a tile is awaited. -/
def TileCmd.isWb (x : TileCmd) : Bool := x == .wb || x == .commit

/-- The access that awaits the write-back of a tile. -/
def Core.wbAccess (k : Core) (t : BitVec 12) (c : Vector Word 4) : Option Access :=
  k.acc.find? fun a =>
    match a.kind with
    | .tile cmd tens _ todo _ => cmd.isWb && tens = t && todo.contains c
    | _ => false

/-- A fault of a write-back (08 R224): the line stays in writing back until the group goes on, and the fault waits to be raised with
SRC M where an instruction of that slot awaits the write-back, else e0 (log 19). -/
def failWriteBack (l : TileLine) (f : FaultRec) (k : Core) : Core :=
  let f := match k.wbAccess l.tens l.c with
    | some a => { f with src := Slot.src .m, bundle := a.bundle }
    | none => { f with src := engineSrc 0 }
  { k.setLine { l with out := none } with pend := k.pend ++ [⟨f, .writeBack l.tens l.c⟩] }

/-- The write-back of a line has met a fault that GRESUME has not disposed of (14 R314). -/
def Core.stopped (k : Core) (l : TileLine) : Bool :=
  l.base == .writingBack && (k.pend ++ k.faults).any fun p => p.op = .writeBack l.tens l.c

/-- Lines of a core are writing back, and none of them has met a fault. -/
def Core.writingBack (k : Core) : Bool := k.lines.any fun l => l.base == .writingBack && !k.stopped l

/-- Only write-backs that have met a fault go on at the Caldera's lines. -/
def Core.tilesStopped (k : Core) : Bool :=
  k.lines.any k.stopped && !k.writingBack && k.lines.all fun l => l.base != .filling

/-- A write-back acknowledged (08 R201): the line is valid and clean, or after an eviction invalid. -/
def endWriteBack (l : TileLine) (k : Core) : Core :=
  let k := if l.evict then k.loseLine l else k.setLine { l with base := .valid, dirty := false, out := none }
  tileDone TileCmd.isWb l.tens l.c k

/-! ### Faults of a fill (08 R204) -/

/-- The fill fault of a line (14 R312). -/
def fillFault (l : TileLine) (code : BitVec 16) : FaultRec :=
  let ed := bitsOf l.ed.toNat 0 48
  { code := 0x0406
    src := l.origin.src
    bundle := l.origin.bundle
    idx := if l.origin.isRec then l.origin.idx else l.tens
    kind := l.origin.kind
    loop := if l.origin.isRec then l.origin.loop else coordLoop l.c
    tens := if l.origin.isRec then l.tens else 0
    aux := BitVec.ofNat 64 (code.toNat + 2 ^ 16 * ed) }

/-- The pinned-full fault of a waiter (08 R209, 14 R312); the origin names the command. -/
def pinnedFault (t : BitVec 12) (c : Vector Word 4) (o : TOrigin) : FaultRec :=
  { code := 0x0407
    src := o.src
    bundle := o.bundle
    idx := if o.isRec then o.idx else t
    kind := o.kind
    loop := if o.isRec then o.loop else coordLoop c
    tens := if o.isRec then t else 0 }

/-- Waiters removed from the replay queue; who they were. -/
def takeWaiters (test : Waiter → Bool) (k : Core) : Core × List WaiterKind :=
  ({ k with replay := k.replay.filter fun w => !test w }, (k.replay.filter test).map (·.who))

end Sys2Proof.Machine
end

