-- ==== Sys2Proof/Machine/Tile.lean ====
section
/-! DEFINITION. Instructions that name tiles: TRD and TWR of the V slot (07 R192 to R194), the M-slot tile instructions TPF, TPIN,
TUNPIN, TLAST, TSTREAM, TINV, TWB, TCMT and TEDACQ (08 R213 to R219), and the events of the Caldera: FILL_COMPLETE, FILL_FAULT,
WRITE_BACK_ACK and PINNED_FULL_BOUND_EXPIRY (08 R201 to R204, R209). -/

namespace Sys2Proof.Machine

open Sys2Proof

/-! ### Entries and coordinates -/

/-- A tensor-table entry read at issue, or the copy that a command at its bundle keeps (05 R121); an ill-formed one raises the
tensor-entry fault (08 R197). -/
def formedEntry (t : BitVec 12) (kept : Option Rec128 := none) : LaneM Rec128 := do
  let e ← match kept with
    | some e => pure e
    | none => getEntry t
  match (tEnt e).illFormed with
  | some w => faultWith (entryFault t w)
  | none => return e

/-- Coordinates outside the tensor raise the tile-coordinate fault (08 R202). -/
def guardCoords (t : BitVec 12) (e : Rec128) (c : Vector Word 4) : LaneM Unit :=
  guardFault ((tEnt e).coordsOk c) (coordFault t c)

/-- A coordinate read. c.row, c.col and c.idx have a value for each element only, and a coordinate belongs to none: its value is free
(07 R192; log 86). -/
def readCoord (o : Operand) : LaneM Word :=
  match o.name with
  | .row => pure (Config.axisCoord 0)
  | .col => pure (Config.axisCoord 1)
  | .idx => pure (Config.axisCoord 2)
  | _ => readS o

/-- Four coordinates read in order. -/
def readCoords (c0 c1 c2 c3 : Operand) : LaneM (Vector Word 4) := do
  let a ← readCoord c0
  let b ← readCoord c1
  let c ← readCoord c2
  let d ← readCoord c3
  return #v[a, b, c, d]

/-- What the fault of a fill names for a command of a slot (08 R204). -/
def slotOrigin (sl : Slot) (n : BitVec 32) (silent : Bool) : TOrigin := ⟨Slot.src sl, n, 0, 0, 0, false, silent⟩

/-! ### TRD and TWR -/

/-- The lookup of a TRD or TWR. A TWR to a window view raises the tensor-entry fault (09 R236). -/
def tileLook (write : Bool) (h : Head) (o : TileVOp) : LaneM Look := do
  let c ← readCoords o.c0 o.c1 o.c2 o.c3
  let e ← formedEntry o.t
  guardFault (!(write && (tEnt e).win)) (entryFault o.t 0)
  guardCoords o.t e c
  let k ← getCore
  return { tens := o.t, ent := e, c := c, ed := k.required o.t, hint := h.ch, asc := (k.grp.map (·.asc)).getD .device
           origin := slotOrigin .v (← curBundle) false, pf := false }

/-- Elements of a segment (07 R192): 512 of a 64-bit cache format, else 1024. -/
def segSize (x : TEnt) : Nat := if !blockFmt x.cfmt && x.cf.width = 64 then 512 else 1024

/-- The element of a segment that container e belongs to is active. -/
def segActive (x : TEnt) (g : VGuard) (e : Nat) : Bool :=
  if segSize x = 512 then g.active 64 512 0 (e / 2) else g.active 32 1024 0 e

/-- The container e of segment g of a line (07 R193). -/
def segContainer (x : TEnt) (v : LineData) (g e : Nat) : BitVec 32 :=
  if segSize x = 512 then
    let n := 512 * g + e / 2
    if n < x.count then BitVec.ofNat 32 (x.codeAt v n / 2 ^ (32 * (e % 2))) else 0
  else
    let n := 1024 * g + e
    if n < x.count then (if blockFmt x.cfmt then BitVec.ofNat 32 (x.codeAt v n) else toContainer x.cf (x.codeAt v n)) else 0

/-- TRD on a hit. -/
def trdFinish (h : Head) (o : TileVOp) (q : Look) (v : LineData) : LaneM Unit :=
  let x := tEnt q.ent
  vecOp h true 32 false o.r [] fun g _ _ old =>
    ofElems fun e => if segActive x g e then segContainer x v o.seg.toNat e else elem old e

/-- The bits that containers give the element at position i of a segment (07 R193). -/
def segCode (x : TEnt) (at' : Nat → BitVec 32) (i : Nat) : Nat :=
  if segSize x = 512 then (at' (2 * i)).toNat + 2 ^ 32 * (at' (2 * i + 1)).toNat
  else if blockFmt x.cfmt then (at' i).toNat % 2 ^ x.cf.width else containerBits x.cf (at' i)

/-- A line's data after a TWR of a segment. -/
def twrData (x : TEnt) (g : VGuard) (at' : Nat → BitVec 32) (seg : Nat) (v : LineData) : LineData :=
  let n := segSize x
  let code := fun (i : Nat) =>
    if i / n = seg && segActive x g (if n = 512 then 2 * (i % n) else i % n) then segCode x at' (i % n) else x.codeAt v i
  BitVec.ofNat 262144 (putBits v.toNat 0 (x.count * x.cf.width) (packW x.cf.width ((List.range x.count).map code)))

/-- A line that a TWR or a record has written (08 R201). -/
def writtenLine (q : Look) (v : LineData) (l : TileLine) : TileLine :=
  { l with data := v, dirty := true, ed := if l.ed.toNat < q.ed.toNat then q.ed else l.ed, ent := q.ent }

/-- TWR on a hit. -/
def twrFinish (h : Head) (o : TileVOp) (q : Look) (l : TileLine) : LaneM Unit := do
  let x ← vguard h true 32
  let gs ← gather 1 (groupNames 1 o.r) [.reg o.r]
  let at' := fun (e : Nat) => (gs.getD 0 (.pat 0)).at none 0 e
  modCore fun k => k.setLine (writtenLine q (twrData (tEnt q.ent) x at' o.seg.toNat l.data) l)

/-- TRD or TWR (07 R194): what its guard and its registers let it not do stops it before the lookup; a hit then acts at once;
otherwise the command parks and its slot stays at its bundle. A command whose waiter has failed completes as failed. -/
def tileIssue (look : LaneM Look) (hit : Look → TileLine → LaneM Unit) (failed : Look → LaneM Unit) (s0 s : State) : State :=
  match look s with
  | .error e => settle (.error e) s0
  | .ok (q, s1) =>
    let c := s.cur.1
    if ((s1.core c).waiter? .v).any (·.failed) then settle (failed q (s1.updCore c (·.unpark .v))) s0
    else match hit q (freshLine q 0 1024 (s1.core c)) s1 with
    | .error e => settle (.error e) s0
    | .ok _ =>
      match s1.demand c .v q with
      | (s2, some l) => settle (hit q l s2) s0
      | (_, none) => blockSlot .plain ((s0.demand c .v q).1.countPinned c)

/-- A command that completes as failed has no lookup to make: only its operands are read. -/
def trdFailed (h : Head) (o : TileVOp) (q : Look) : LaneM Unit :=
  vecOp h true 32 false o.r [] fun g _ _ old => ofElems fun e => if segActive (tEnt q.ent) g e then 0 else elem old e

def twrFailed (h : Head) (o : TileVOp) : LaneM Unit := do
  let _ ← vguard h true 32
  let _ ← gather 1 (groupNames 1 o.r) [.reg o.r]

def execTrd (h : Head) (o : TileVOp) (s : State) : Out :=
  .next (issueAct h (tileIssue (tileLook false h o) (fun q l => trdFinish h o q l.data) (trdFailed h o)) s)

def execTwr (h : Head) (o : TileVOp) (s : State) : Out :=
  .next (issueAct h (tileIssue (tileLook true h o) (twrFinish h o) fun _ => twrFailed h o) s)

/-! ### M-slot accesses that wait for tiles -/

/-- An M-slot tile instruction is performed: its scoreboard slot is lowered and its token pushed; a full token queue holds the push
(02 R34). -/
def finishTile (a : Access) (k : Core) : Core :=
  let k := k.updSlot a.slot (sbDown a.sbs)
  if tokenRoom a.push k then { pushToken a.push k with acc := k.acc.filter (·.id ≠ a.id) }
  else k.setAccess { a with kind := .tile .done 0 0 [] [], sbs := none, parts := [] }

/-- The lookup of an M-slot tile instruction. -/
def accessLook (k : Core) (a : Access) (t : BitVec 12) (e : Rec128) (c : Vector Word 4) (h : Hint) (pf : Bool) (ed : Option Word := none) :
    Look where
  tens := t
  ent := e
  c := c
  ed := ed.getD (k.required t)
  hint := h
  asc := a.asc
  origin := slotOrigin .m a.bundle pf
  pf := pf
  demand := !pf

/-- The tiles whose line does not fill any more. -/
def stillFilling (k : Core) (t : BitVec 12) (l : List (Vector Word 4)) : List (Vector Word 4) :=
  l.filter fun c => (k.tagged t c).any (·.base == .filling)

/-- A prefetch dropped or skipped (08 R214). -/
def countDropped (k : Core) : Core := { k with tpfdr := count k.tpfdr }

/-- TPF's lookups in order (08 R214), up to one that must wait: the tiles left, whether the first of them has begun an eviction and
the edition that its lookup keeps (R211), and the tiles whose lines it awaits. The hint acts on the line named, also where it fills
already (R210). A line that fills under an older edition than the lookup requires is taken as the tile's line, with no further lookup, which
is the model's choice (log 112). -/
def State.prefetch (s : State) (c : CoreId) (a : Access) (t : BitVec 12) (e : Rec128) (h : Hint) :
    List (Vector Word 4) → Bool → Option Word → List (Vector Word 4) →
      State × List (Vector Word 4) × Bool × Option Word × List (Vector Word 4)
  | [], _, _, names => (s, [], false, none, names)
  | x :: rest, started, ed, names =>
    if !(tEnt e).coordsOk x then (s.updCore c countDropped).prefetch c a t e h rest false none names
    else
      let q := accessLook (s.core c) a t e x h true ed
      let (s, r) := s.lookup c q
      match r with
      | .hit _ => s.prefetch c a t e h rest false none names
      | .filling l _ => (s.updCore c fun k => k.setLine (hintLine h l)).prefetch c a t e h rest false none (names ++ [x])
      | .noWay _ => (s.updCore c countDropped).prefetch c a t e h rest false none names
      | .wait ev others =>
        if !others && !started then (s.updCore c countDropped).prefetch c a t e h rest false none names
        else (s, x :: rest, started || ev, some q.ed, names)

/-- An access replaced, or finished where nothing is left to wait for. -/
def putTile (a : Access) (cmd : TileCmd) (t : BitVec 12) (e : Rec128) (todo names : List (Vector Word 4)) (k : Core) : Core :=
  if todo.isEmpty && names.isEmpty then finishTile a k else k.setAccess { a with kind := .tile cmd t e todo names }

/-- The add of a TCMT (08 R218): one to the edition word, with release order. -/
def commitPart (e : Rec128) (h : Handle) : Part :=
  ⟨BitVec.ofNat 56 (h.base + (tEnt e).edoff), 8, .atomic .add 1 0, .sent⟩

/-- A commit whose write-backs are done sends its add, once it has a request tag for it (02 R49). -/
def State.sendCommit (s : State) (c : CoreId) (a : Access) (e : Rec128) : State :=
  match s.handleFor c (tEnt e).edhdl with
  | (s, .error f) => s.pendOnce c a f
  | (s, .ok h) =>
    let p := commitPart e h
    s.updCore c fun k => missPage (k.setAccess { a with
      parts := [p], peer := h.space == .peer, wvm := h.wvm, wv := h.wv, ty := .n64 }) p.va.toNat

/-- A tile access goes on: lookups that waited are made again, and what is settled is taken off. -/
def State.tileProgress (s : State) (c : CoreId) (a : Access) : State :=
  match a.kind with
  | .tile (.pf started h ed) t e todo names =>
    let (s, todo, started, ed, names) := s.prefetch c a t e h todo started ed names
    s.updCore c fun k => putTile a (.pf started h ed) t e todo (stillFilling k t names) k
  | .tile .pin t e todo names =>
    match todo with
    | [] => s
    | x :: _ =>
      if a.raised then s
      else match s.demand c (.m a.id) (accessLook (s.core c) a t e x .pin false) with
        | (s, some _) => s.updCore c (finishTile a)
        | (s, none) => s.updCore c fun k => k.setAccess { a with kind := .tile .pin t e todo names }
  | .tile .inv t e todo names =>
    s.updCore c fun k => putTile a .inv t e (todo.filter fun x => (k.tagged t x).any (·.discard)) names k
  | .tile .wb t e todo _ => s.updCore c fun k => putTile a .wb t e todo [] k
  | .tile .commit _ e todo _ => if todo.isEmpty && a.parts.isEmpty && !a.raised && tagRoom (s.core c) a.slot 1 then s.sendCommit c a e else s
  | .tile .done _ _ _ _ => if tokenRoom a.push (s.core c) then s.updCore c (finishTile a) else s
  | _ => s

/-! ### Pinned tags of a restored group (08 R221) -/

/-- A line of a tag that the core still holds, written back if dirty and invalidated. -/
def State.clearTag (s : State) (c : CoreId) (l : TileLine) : State :=
  match (s.core c).tagged l.tens l.c with
  | none => s
  | some old => (if old.dirty then (s.writeTile c old).1 else s).updCore c fun k => k.dropLine old

/-- A way for a restored tag: its victims are written back at once. None where the core has no room. -/
def State.roomFor (s : State) (c : CoreId) (l : TileLine) (need : Nat) : State × Option Nat :=
  let k := s.core c
  match k.plan (s.poolGranules k) need (Config.draw s.freeCtr) (tagSet l.tens l.c) with
  | .place victims idx hand =>
    let s := victims.foldl (fun s v => (if v.dirty then (s.writeTile c v).1 else s).updCore c fun k => k.dropLine v) s
    ((s.updCore c fun k => { k with hand := hand }).drew, some idx)
  | _ => (s, none)

/-- A pinned tag is allocated, as large as its entry now says (R198), and its fill enters e0; a fault of the fill names e0 (R204). Such
a fill is no prefetch (R223). -/
def State.repin (s : State) (c : CoreId) (l : TileLine) : State :=
  let (s, e) := s.tensorEntry c l.tens
  let g := (tEnt e).granules
  match (s.clearTag c l).roomFor c l g with
  | (s, none) => s
  | (s, some idx) =>
    s.updCore c fun k =>
      let o : TOrigin := ⟨engineSrc 0, 0, 0, 0, 0, false, false⟩
      let l := { l with idx := idx, ent := e, gran := g, base := .filling, pin := true, dirty := false, data := 0, keys := [], origin := o
                        grp := k.serial, stamp := k.tclock, evict := false, discard := false, pf := false, pfHit := false, out := none }
      enterFill idx { k with lines := k.lines ++ [l], tclock := k.tclock + 1 }

/-- The pinned tags still to be filled, in saved order, as far as e0 takes their fills (02 R48). -/
def State.repinNext (s : State) (c : CoreId) : List TileLine → State
  | [] => s.updCore c fun k => { k with repins := [] }
  | l :: r =>
    if (s.core c).queueOpen 0 then (s.repin c l).repinNext c r else s.updCore c fun k => { k with repins := l :: r }

/-- What follows an event of the Caldera on a core: the pinned tags of a restored group, lines marked for invalidation, tile accesses,
and the count of R209. -/
def State.settleTiles (s : State) (c : CoreId) : State :=
  let s := if (s.core c).repins.isEmpty then s else s.repinNext c (s.core c).repins
  let s := s.updCore c dropDiscarded
  let s := (s.core c).acc.foldl (fun s a =>
    match (s.core c).access? a.id with
    | none => s
    | some a => s.tileProgress c a) s
  s.countPinned c

/-- An access of an M-slot tile instruction issues, and acts as far as it can at once. -/
def tileAccess (h : Head) (push : Option (Fin 8)) (asc : Scope) (o : Order) (kind : AccKind) : LaneM Unit := do
  let id ← nextId
  let a := freshAccess h id (← curSlot) (← curBundle) kind .t o .none
  issueAccess { a with push := push, asc := asc }
  fun s => .ok ((), s.settleTiles s.cur.1)

/-- The scope that an instruction without one takes. -/
def scopeOr (a : Option Scope) : Scope := a.getD .device

/-! ### TPF, TPIN, TUNPIN, TLAST, TSTREAM (08 R214, R215) -/

/-- TPF, single form. -/
def tpfBody (h : Head) (o : TileOp) : LaneM Unit := do
  let c ← readCoords o.c0 o.c1 o.c2 o.c3
  let e ← formedEntry o.t
  guardCoords o.t e c
  let g ← getGroup
  tileAccess h o.push g.asc ⟨.slot, {}, .rlx⟩ (.tile (.pf false h.ch none) o.t e [c] [])

def execTpf (h : Head) (o : TileOp) (s : State) : Out := lane h (tpfBody h o) s

/-- The entries of an itinerary: four n32 coordinates each (08 R214). -/
def itinerary (k : Core) (off n : Nat) : List (Vector Word 4) :=
  (List.range n).map fun i =>
    let w := fun j => BitVec.ofNat 64 (lsNat k (off + 16 * i + 4 * j) 4)
    #v[w 0, w 1, w 2, w 3]

/-- TPF, itinerary form: the entries are read once, at issue. -/
def tpfItineraryBody (h : Head) (o : TpfItinOp) : LaneM Unit := do
  let off ← readS o.off
  let n ← readS o.n
  let g ← getGroup
  guardFault (1 ≤ n.toNat && n.toNat ≤ 64) (rangeFault g.layout off.toInt (min n.toNat 64 * 16))
  let at' ← checkLocalRead off.toInt (16 * n.toNat)
  let e ← formedEntry o.t
  guardStall (!rangeStalls (← getCore) false at' (16 * n.toNat))
  let l := itinerary (← getCore) at' n.toNat
  tileAccess h o.push g.asc ⟨.slot, {}, .rlx⟩ (.tile (.pf false .none none) o.t e l [])

def execTpfItinerary (h : Head) (o : TpfItinOp) (s : State) : Out := lane h (tpfItineraryBody h o) s

/-- TPIN: a line that is present is pinned; a miss allocates and fills it pinned. -/
def tpinBody (h : Head) (o : TileOp) : LaneM Unit := do
  let c ← readCoords o.c0 o.c1 o.c2 o.c3
  let e ← formedEntry o.t
  guardCoords o.t e c
  let k ← getCore
  match k.tagged o.t c with
  | some l =>
    modCore fun k =>
      let first := l.base == .valid && l.pf && !l.pfHit
      { k with tclock := k.tclock + 1, cpfhit := if first then count k.cpfhit else k.cpfhit }.setLine
        (hintLine .pin (touchLine { l with pfHit := l.pfHit || first } k))
    tileAccess h o.push .device ⟨.slot, {}, .rlx⟩ (.tile .done o.t e [] [])
  | none =>
    let g ← getGroup
    tileAccess h o.push g.asc ⟨.slot, {}, .rlx⟩ (.tile .pin o.t e [c] [])

def execTpin (h : Head) (o : TileOp) (s : State) : Out := lane h (tpinBody h o) s

/-- The lines that an instruction names: the tile's, or with ALL every line of the tensor. -/
def namesLine (o : TileOp) (c : Vector Word 4) (l : TileLine) : Bool := l.tens = o.t && (o.all || l.c = c)

/-- A flag changed on the lines named, at issue. The instruction looks no tile up, so neither the entry nor the coordinates are checked
(08 R197; log 100). -/
def flagBody (f : TileLine → TileLine) (h : Head) (o : TileOp) : LaneM Unit := do
  let c ← readCoords o.c0 o.c1 o.c2 o.c3
  modCore fun k => { k with lines := k.lines.map fun l => if namesLine o c l then f l else l }
  tileAccess h o.push .device ⟨.slot, {}, .rlx⟩ (.tile .done o.t 0 [] [])

def execTunpin (h : Head) (o : TileOp) (s : State) : Out := lane h (flagBody (fun l => { l with pin := false }) h o) s
def execTlast (h : Head) (o : TileOp) (s : State) : Out := lane h (flagBody (hintLine .last) h o) s
def execTstream (h : Head) (o : TileOp) (s : State) : Out := lane h (flagBody (hintLine .stream) h o) s

/-! ### TINV, TWB, TCMT, TEDACQ (08 R216 to R219) -/

/-- TINV: the lines named are marked, and each becomes invalid once it neither fills nor is written back and no waiter is left. -/
def tinvBody (h : Head) (o : TileOp) : LaneM Unit := do
  let c ← readCoords o.c0 o.c1 o.c2 o.c3
  let k ← getCore
  let ts := (k.lines.filter (namesLine o c)).map (·.c)
  modCore fun k => { k with lines := k.lines.map fun l => if namesLine o c l then { l with discard := true } else l }
  tileAccess h o.push .device ⟨.slot, {}, .rlx⟩ (.tile .inv o.t 0 ts [])

def execTinv (h : Head) (o : TileOp) (s : State) : Out := lane h (tinvBody h o) s

/-- The dirty lines named go to writing back at a scope; their tiles. -/
def startWriteBacks (o : TileOp) (c : Vector Word 4) (asc : Scope) : LaneM (List (Vector Word 4)) := do
  let k ← getCore
  let named := fun (l : TileLine) => namesLine o c l && l.base == .valid && l.dirty
  modCore fun k => { k with lines := k.lines.map fun l => if named l then { l with base := .writingBack, asc := asc } else l }
  return (k.lines.filter named).map (·.c)

/-- TWB. -/
def twbBody (h : Head) (o : TileOp) : LaneM Unit := do
  let c ← readCoords o.c0 o.c1 o.c2 o.c3
  let ts ← startWriteBacks o c (scopeOr o.asc)
  tileAccess h o.push (scopeOr o.asc) ⟨.slot, {}, .rlx⟩ (.tile .wb o.t 0 ts [])

def execTwb (h : Head) (o : TileOp) (s : State) : Out := lane h (twbBody h o) s

/-- The handle of an entry's edition word, with the checks of 06 R130 that its fields decide. -/
def editionHandle (e : Rec128) (load : Bool) : LaneM (Handle × Nat) := do
  let x := tEnt e
  let h ← getHandle x.edhdl
  let va := h.base + x.edoff
  guardFault (!(load && h.space == .peer)) { code := 0x0305, addr := BitVec.ofNat 64 va }
  guardFault (x.edoff + 8 ≤ h.bound) { code := 0x0302, aux := x.edhdl.setWidth 64, addr := BitVec.ofNat 64 x.edoff }
  guardFault (va % 8 = 0) (alignFault va)
  return (h, va)

/-- The storage kinds of TCMT and TEDACQ. -/
def commitSsc : Ssc := { g := true, t := true }

/-- TCMT: the write-backs of the dirty lines named, then a release add to the edition word. -/
def tcmtBody (h : Head) (o : TileOp) : LaneM Unit := do
  let c ← readCoords o.c0 o.c1 o.c2 o.c3
  let e ← formedEntry o.t
  let _ ← editionHandle e false
  let names := if o.all then [] else [c]
  let ts ← startWriteBacks o c (scopeOr o.asc)
  tileAccess h o.push (scopeOr o.asc) ⟨scopeOr o.asc, commitSsc, .rel⟩ (.tile .commit o.t e ts names)

def execTcmt (h : Head) (o : TileOp) (s : State) : Out := lane h (tcmtBody h o) s

/-- A required edition entered or raised (08 R211). -/
def raiseRequired (t : BitVec 12) (v : Word) (k : Core) : Core :=
  let old := k.required t
  let new := if old.toNat < v.toNat then v else old
  { k with reqEd := if k.reqEd.any (·.1 = t) then k.reqEd.map fun x => if x.1 = t then (t, new) else x else k.reqEd ++ [(t, new)] }

/-- TEDACQ: it blocks until an acquire load of the edition word finds the edition awaited. The entry is read once: the copy is kept at
the bundle (05 R121). -/
def tedacqLook (h : Head) (o : TEdAcqOp) (kept : Option Rec128) : LaneM Awaited := do
  let w ← readS o.w
  let e ← formedEntry o.t kept
  let k ← getCore
  guardFault (k.reqEd.any (·.1 = o.t) || k.reqEd.length < 128) { code := 0x0408, idx := o.t }
  let (hd, va) ← editionHandle e true
  guardOrder h .t ⟨o.asc, commitSsc, .acq⟩
  let finish := fun (v : Word) => (do
    writeS o.d v
    tileAccess h o.push .device ⟨.slot, {}, .rlx⟩ (.tile .done o.t 0 [] []) : LaneM Unit)
  let sl ← curSlot
  return {
    hd := hd, va := va, n := 8
    found := fun b =>
      let v : Word := BitVec.ofNat 64 (leNat b)
      if o.nowait || w.toNat ≤ v.toNat then some (do
        modCore (raiseRequired o.t v)
        finish v)
      else none
    failed := finish 0
    blk := fun _ => .wait
    keep := (·.updSlot sl fun t => { t with entry := some e }) }

def execTedacq (h : Head) (o : TEdAcqOp) (s : State) : Out :=
  .next (issueAct h (fun s0 => awaitRead h (tedacqLook h o ((s0.core s0.cur.1).slot s0.cur.2).entry) s0) s)

/-- The lines that a TCMT names and that are valid take the new edition (08 R218); no name stands for every line of the tensor. -/
def commitLines (t : BitVec 12) (names : List (Vector Word 4)) (ed : Word) (k : Core) : Core :=
  { k with lines := k.lines.map fun l =>
      if l.tens = t && (names.isEmpty || names.contains l.c) && l.base == .valid && l.ed.toNat < ed.toNat then { l with ed := ed } else l }

/-- A TCMT's add is acknowledged. -/
def State.finishCommit (s : State) (c : CoreId) (a : Access) (t : BitVec 12) (names : List (Vector Word 4)) : State :=
  if !a.ended || a.parts.isEmpty then s
  else match a.fault? with
    | some f => s.pendOnce c a f
    | none =>
      let old := BitVec.ofNat 64 (leNat a.bytes)
      ((s.ackParts c a 0).updCore c fun k => finishTile a (commitLines t names (old + 1) k)).settleTiles c

/-! ### Events -/

/-- TOKEN_PUSH_RELEASE (02 R34): the head of a queue whose push was held pushes its token once there is room, and leaves;
so does a held push of an M-slot tile instruction. -/
def execTokenPushRelease (c : CoreId) (e : Fin 6) (s : State) : Out :=
  let k := s.core c
  match k.head? e with
  | some o =>
    if o.held && tokenRoom o.push k then
      .next (s.setCore c (pushToken o.push (k.setQ e { k.e[e] with ops := k.e[e].ops.filter (·.id ≠ o.id) })))
    else .next (s.settleTiles c)
  | none => .next (s.settleTiles c)

/-- The line whose fill is the head of e0, if it is the one named. -/
def Core.fillHead (k : Core) (line : Nat) : Option (EngOp × TileLine) :=
  match k.head? 0 with
  | none => none
  | some o =>
    match o.kind with
    | .fill i => if i = line && engineMayBegin k 0 o.id then (k.lineIdx line).map fun l => (o, l) else none
    | _ => none

def Core.popFill (k : Core) (o : EngOp) : Core :=
  k.setQ 0 { k.e[(0 : Fin 6)] with ops := k.e[(0 : Fin 6)].ops.filter (·.id ≠ o.id) }

/-- FILL_COMPLETE (08 R201, R203): the tile is read from storage and its line is valid; who waits for it may look up again. -/
def execFillComplete (c : CoreId) (line : Nat) (s : State) : Out :=
  match (s.core c).fillHead line with
  | none => .next s
  | some (o, l) =>
    match s.fillTile c l.ctx l.ent l.c with
    | (_, .error _) => .next s
    | (s, .ok (v, ks)) =>
      .next ((s.updCore c fun k => (k.popFill o).setLine { l with base := .valid, data := v, keys := ks }).settleTiles c)

/-- A fault of a fill that a demand allocated: the line's waiters are discarded and the fault is raised once (08 R204). A record
step's fault is e5's (09 R234). -/
def State.raiseFill (s : State) (c : CoreId) (l : TileLine) (code : BitVec 16) : State :=
  let (k, who) := takeWaiters (fun w => w.tens = l.tens && w.c = l.c) (s.core c)
  let k := { k with acc := k.acc.map fun a => if who.contains (.m a.id) then { a with raised := true } else a }
  let f := fillFault l code
  let s := s.setCore c k
  let s := match who.contains .e5, k.head? 5 with
    | true, some o => s.updCore c (failRecord (o.waitedTo (s.cycle c.die) false) f)
    | _, _ => s
  raiseFault c f (.fill who) s

/-- FILL_FAULT (08 R204): the head fill of e0 meets a fault. A fill of TPF or of a look-ahead is dropped and counted, and its
waiters look up again. -/
def execFillFault (c : CoreId) (line : Nat) (s : State) : Out :=
  match (s.core c).fillHead line with
  | none => .next s
  | some (o, l) =>
    match s.fillTile c l.ctx l.ent l.c with
    | (_, .ok _) => .next s
    | (s, .error f) =>
      let s := s.updCore c fun k => (k.popFill o).loseLine l
      if l.origin.silent then .next ((s.updCore c countDropped).settleTiles c)
      else .next ((s.raiseFill c l f.code).settleTiles c)

/-- WRITE_BACK_ACK (08 R201, R217): a line that is writing back is written to its storage and acknowledged. To a peer page its
records are sent first, and the acknowledgement of the last of them completes it. -/
def execWriteBackAck (c : CoreId) (line : Nat) (s : State) : Out :=
  match (s.core c).lineIdx line with
  | none => .next s
  | some l =>
    if l.base != .writingBack || (s.core c).stopped l then .next s
    else match l.out with
      | some [] => .next ((s.updCore c (endWriteBack l)).settleTiles c)
      | some _ => .next s
      | none =>
        match s.writeTile c l with
        | (_, .wait, _) => .next s
        | (s, .fault f, _) => .next ((s.updCore c (failWriteBack l f)).settleTiles c)
        | (s, .done, []) => .next ((s.updCore c (endWriteBack l)).settleTiles c)
        | (s, .done, tags) => .next (s.updCore c fun k => k.setLine { l with out := some tags })

/-- The command a waiter stands for, as the pinned-full fault names it. -/
def Core.waiterOrigin (k : Core) (w : Waiter) : TOrigin :=
  match w.who with
  | .v => slotOrigin .v (k.slot .v).pc false
  | .m id => slotOrigin .m (((k.access? id).map (·.bundle)).getD 0) false
  | .e5 =>
    match k.head? 5 with
    | none => slotOrigin .m 0 false
    | some o =>
      match o.kind with
      | .matrix idx r _ _ => stepOrigin o idx r false
      | _ => slotOrigin .m o.bundle false

/-- PINNED_FULL_BOUND_EXPIRY (08 R209): every candidate of a waiter has stayed pinned for the context's bound. -/
def execPinnedFullBoundExpiry (c : CoreId) (s : State) : Out :=
  let s := s.countPinned c
  let k := s.core c
  match k.grp with
  | none => .next s
  | some g =>
    match k.replay.find? fun w => w.since.any fun t => t + g.pfb ≤ s.cycle c.die with
    | none => .next s
    | some w =>
      let f := pinnedFault w.tens w.c (k.waiterOrigin w)
      let k := k.unpark w.who
      let k : Core := { k with acc := k.acc.map fun a => if w.who = .m a.id then { a with raised := true } else a }
      let k := match w.who, k.head? 5 with
        | .e5, some o => failRecord (o.waitedTo (s.cycle c.die) false) f k
        | _, _ => k
      .next (raiseFault c f (.fill [w.who]) (s.setCore c k))

end Sys2Proof.Machine
end

