-- ==== Sys2Proof/Machine/Returns.lean ====
section
/-! DEFINITION. What comes back to a core: LOAD_DATA_ARRIVAL and WRITE_ACKNOWLEDGEMENT for its accesses (02 R46, 10 R249), and the
acknowledgements, naks and results of the records it sent to other devices (17 R355, R368, R370, R372). -/

namespace Sys2Proof.Machine

open Sys2Proof

/-- The 8-byte units of a 4 KiB transfer of the local store that move now, of those that have not: all that are left, or any of them. The
units of a transfer keep no order among themselves (06 R131; log 80). -/
def State.unitsNow (s : State) (a : Access) : List Nat :=
  let left := (List.range 512).filter fun i => !a.units.any (·.1 = i)
  if Config.draw s.freeCtr % 2 = 0 then left
  else
    let m : BitVec 512 := s.freeVal 512
    left.filter fun i => m.getLsbD i

/-- The bytes of the units moved, in order. -/
def unitBytes (u : List (Nat × List Byte)) : List Byte :=
  (List.range 512).flatMap fun i => ((u.find? (·.1 = i)).map (·.2)).getD []

/-- Units of a local LDQ read; its entry is written and it is performed when all are. -/
def loadUnits (off : Nat) (a : Access) (now : List Nat) (k : Core) : Core :=
  let u := a.units ++ now.map fun i => (i, lsRead k (off + 8 * i) 8)
  if u.length < 512 then k.setAccess { a with units := u } else retire a (deliverVec a (BitVec.ofNat 32768 (leNat (unitBytes u))) k)

/-- Units of a local STQ written; it is performed when all are. -/
def storeUnits (off : Nat) (b : List Byte) (a : Access) (now : List Nat) (k : Core) : Core :=
  let k := now.foldl (fun k i => lsWrite (off + 8 * i) ((b.drop (8 * i)).take 8) k) k
  let u := a.units ++ now.map fun i => (i, [])
  if u.length < 512 then k.setAccess { a with units := u } else retire a k

/-- LOAD_DATA_ARRIVAL (02 R33, R46): the data of a load or the result of an atomic arrive and are written; the access is
performed. A local-store load reads its bytes now. -/
def execLoadDataArrival (c : CoreId) (id : Nat) (s : State) : Out :=
  let k := s.core c
  match k.access? id with
  | none => .next s
  | some a =>
    match a.kind with
    | .lstore off n none =>
      if !mayPerform k a then .next s
      else if n = 4096 then .next (s.drew.setCore c (loadUnits off a (s.unitsNow a) k))
      else .next (s.setCore c (retire a (deliver a (extendTo a.ty (leNat (lsRead k off n))) k)))
    | .mem _ true st =>
      let v := fun (k : Core) =>
        if a.parts.length = 32 then deliverVec a (BitVec.ofNat 32768 (leNat a.bytes)) k
        else deliver a (extendTo a.ty (leNat a.bytes)) k
      .next (s.finishAccess c a st 0 v)
    | .barinit | .bararv true =>
      let v := fun (k : Core) => deliver a (BitVec.ofNat 64 (leNat (a.bytes.take 8))) k
      .next (s.finishAccess c a true 0 v)
    | .bartst none =>
      let v := fun (k : Core) => deliver a (barWord (BitVec.ofNat 512 (leNat a.bytes)) false) k
      .next (s.finishAccess c a false 0 v)
    | .tile .commit t _ _ names => .next (s.finishCommit c a t names)
    | .bartst (some off) =>
      if mayPerform k a then
        .next (s.setCore c (retire a (deliver a (barWord (BitVec.ofNat 512 (lsNat k off 64)) false) k)))
      else .next s
    | _ => .next s

/-- WRITE_ACKNOWLEDGEMENT (10 R249, 06 R141, R142; 05 R121): a store or posted atomic is acknowledged at its scope and performed; a
local-store store is written; a FENCE whose covered accesses are performed, a QJOIN whose earlier operations are complete and a
TIDWR's table write are performed. The lines of a transfer are acknowledged one by one. `also` names further dies whose copies the acknowledgement found dropped. -/
def execWriteAcknowledgement (c : CoreId) (id : Nat) (also : BitVec 4) (s : State) : Out :=
  let k := s.core c
  match k.access? id with
  | none => .next s
  | some a =>
    match a.kind with
    | .lstore off n (some b) =>
      if !mayPerform k a then .next s
      else if n = 4096 then .next (s.drew.setCore c (storeUnits off b a (s.unitsNow a) k))
      else .next (s.updCore c fun k => retire a (lsWrite off b k))
    | .fence e =>
      if fenceReady k a e then .next ((s.fenced c a.ord a.asc).updCore c (retire a)) else .next s
    | .qjoin m => if engineBefore k a.id (maskQueues m) then .next s else .next (s.updCore c (retire a))
    | .tidwr pa w => .next ((s.wrNat pa 8 w.toNat).updCore c (retire a))
    | .mem _ false true | .bararv false =>
      .next (if a.ended then s.finishAccess c a true also (fun k => k) else s.ackSome c a also)
    | _ => .next s

/-! ### What comes back (17 R355, R368, R370, R372) -/

/-- A record of an e4 operation has come back: it leaves those outstanding. -/
def EngOp.returned (o : EngOp) (rtag : BitVec 32) : EngOp := { o with sent := o.sent.filter (·.rtag ≠ rtag) }

/-- The bytes of a record that an operation sent and that is outstanding. -/
def EngOp.sentLen (o : EngOp) (rtag : BitVec 32) : Nat := ((o.sent.find? (·.rtag = rtag)).map (·.len)).getD 0

/-- A record acknowledged as performed: LZPUT counts its beats in bits 31..16 of its status (18 R383). -/
def EngOp.acked (o : EngOp) (rtag : BitVec 32) : EngOp :=
  let beats := match o.kind with
    | .lzput _ _ => o.sentLen rtag / 64
    | _ => 0
  { o.returned rtag with status := o.status + 2 ^ 16 * beats }

/-- The e4 operation of a core that sent a record. -/
def Core.e4Of (k : Core) (rtag : BitVec 32) : Option EngOp := k.e[(4 : Fin 6)].ops.find? fun o => o.sent.any (·.rtag = rtag)

/-- The engine operation of a copy queue that sent a record. -/
def Core.copyOf (k : Core) (rtag : BitVec 32) : Option (Fin 6 × EngOp) :=
  ([2, 3] : List (Fin 6)).findSome? fun e => (k.e[e].ops.find? fun o => o.sent.any (·.rtag = rtag)).map fun o => (e, o)

/-- The line whose write-back sent a record. -/
def Core.lineOf (k : Core) (rtag : BitVec 32) : Option TileLine := k.lines.find? fun l => l.out.any (·.contains rtag)

/-- A record acknowledged: an e4, copy or write-back record returns, a store's part is done, a grant is delivered. A record that wants a
result waits for it (17 R368). -/
def ackRec (t : TxRec) (k : Core) : Core :=
  if t.rec_.fl.getLsbD 1 then k
  else match k.e4Of t.rec_.rtag with
    | some o => k.setOp 4 (o.acked t.rec_.rtag)
    | none =>
      match k.copyOf t.rec_.rtag with
      | some (e, o) => k.setOp e (o.returned t.rec_.rtag)
      | none =>
        match k.lineOf t.rec_.rtag with
        | some l => k.setLine { l with out := l.out.map fun x => x.filter (· ≠ t.rec_.rtag) }
        | none =>
          match k.access? t.id with
          | none => k
          | some a =>
            match a.kind with
            | .lzgrant _ _ _ _ => k.setAccess { a with raised := true, wv := 0 }
            | _ => k.setAccess (a.setPart t.part (.done 0 0 0 none))

/-- An arrival of the queue engine is answered. -/
def State.queueAnswer (s : State) (rtag : BitVec 32) (r : Remote) : State :=
  { s with queues := s.queues.map fun q => if q.remote = .sent rtag then { q with remote := r } else q }

/-- A record that this device sent is acknowledged. -/
def State.acked (s : State) (t : TxRec) : State :=
  if isEngineTag t.rec_.rtag then s.queueAnswer t.rec_.rtag .done else s.updCore t.core (ackRec t)

/-- A record that a peer answered with and that waits to be dealt with: it leaves the records received. -/
def State.takeAnswer (s : State) (link : BitVec 11) (p : OpRecord → Bool) : Option State :=
  match s.inrecs.find? fun r => r.link = some link && p r.rec_ with
  | none => none
  | some r => some { s with inrecs := s.inrecs.erase r }

/-- The content of an ack record: the frame number and key index (log 20). -/
def ackNum (ki : Bool) (fn : BitVec 48) : Nat := fn.toNat + if ki then 2 ^ 63 else 0

def isAck (ki : Bool) (fn : BitVec 48) (r : OpRecord) : Bool := r.op = 0x10 && leNat r.payload = ackNum ki fn
def isNak (rtag : BitVec 32) (code : BitVec 16) (detail : BitVec 8) (r : OpRecord) : Bool :=
  r.op = 0x11 && r.rtag = rtag && leNat (r.payload.take 3) = code.toNat + 2 ^ 16 * detail.toNat
def isResult (rtag : BitVec 32) (old : Word) (r : OpRecord) : Bool := r.op = 0x12 && r.rtag = rtag && leNat r.payload = old.toNat

/-- A frame is the one of a number under a key index, and not lost with its link. -/
def TxFrame.named (f : TxFrame) (ki : Bool) (fn : BitVec 48) : Bool := f.ki = ki && f.fn = fn && !f.lost

/-- A nak of a sent record has come and waits to be dealt with: the frame's acknowledgement does not count the record as performed
(log 74). -/
def State.nakWaits (s : State) (link : BitVec 11) (t : TxRec) : Bool :=
  s.inrecs.any fun r => r.link = some link && r.rec_.op = 0x11 && r.rec_.rtag = t.rec_.rtag

/-- An acknowledgement under the newest key brings the close of the old key's window nearer: it closes with the 1024th frame after the first
(17 R353, R354). -/
def LinkEnd.countAck (l : LinkEnd) (ki : Bool) : LinkEnd :=
  if ki != l.txki then l
  else { l with closing := l.closing.bind fun n => if n < 1024 then some (n + 1) else none }

/-- ACK_RECORD_RECEIVE (17 R355): the acknowledged frame's operations retire; those that wait for a result or were refused stay. -/
def execAckRecordReceive (link : BitVec 11) (ki : Bool) (fn : BitVec 48) (s : State) : Out :=
  match s.takeAnswer link (isAck ki fn) with
  | none => .next s
  | some s =>
    match s.link? link with
    | none => .next s
    | some l =>
      match l.tx.find? (·.named ki fn) with
      | none => .next s
      | some f =>
        let keep := f.records.filter fun t => isRequest t.rec_ && (t.rec_.fl.getLsbD 1 || s.nakWaits link t)
        let ended := f.records.filter fun t => isRequest t.rec_ && !s.nakWaits link t
        let tx := if keep.isEmpty then l.tx.filter fun x => !x.named ki fn
          else l.tx.map fun x => if x.named ki fn then { x with records := keep } else x
        .next (ended.foldl State.acked (s.setLink link { l.countAck ki with tx := tx }))

/-- The request record that a tag names among a link's frames. -/
def LinkEnd.recOf (l : LinkEnd) (rtag : BitVec 32) : Option TxRec :=
  (l.tx.flatMap (·.records)).find? fun t => isRequest t.rec_ && t.rec_.rtag = rtag

/-- A request record taken out of the frames that hold it. -/
def LinkEnd.dropRec (l : LinkEnd) (rtag : BitVec 32) : LinkEnd :=
  let cut := l.tx.map fun f => { f with records := f.records.filter fun t => !(isRequest t.rec_ && t.rec_.rtag = rtag) }
  { l with tx := cut.filter fun f => !f.records.isEmpty }

/-- The operation that a record belongs to sends it again on a retry, with its sequence number (14 R314, 17 R370). -/
def keepsRec (k : Core) (t : TxRec) : Bool :=
  match k.e4Of t.rec_.rtag with
  | some o =>
    match o.kind with
    | .fwr _ _ _ | .fatom _ _ _ _ _ => true
    | _ => false
  | none =>
    (k.copyOf t.rec_.rtag).isSome ||
      match k.access? t.id with
      | none => false
      | some a =>
        match a.kind with
        | .lzgrant _ _ _ _ => false
        | _ => (k.lineOf t.rec_.rtag).isNone

/-- A fault that stops an operation whose records have gone out, once (17 R370, R372). -/
def failSent (e : Fin 6) (o : EngOp) (f : FaultRec) (k : Core) : Core :=
  if o.failed.isSome then k else haltOp e o f k

/-- The fault of a record that a copy operation sent: it names the command's record and the element (06 R152). -/
def copyRecFault (o : EngOp) (t : TxRec) (f : Nat → FaultRec) : FaultRec :=
  { f t.va with idx := o.kind.recIndex, loop := o.kind.elemLoop t.part }

/-- A part of an access that failed on its way. -/
def failPart (t : TxRec) (f : Nat → FaultRec) (a : Access) (k : Core) : Core := k.setAccess (a.setPart t.part (.failed (f t.va)))

/-- A refusal of a sent record: the fabric fault of case 2 or 3 for a write or atomic; a status for FREQ, LZGRANT and LZPUT (17
R369, R372; 18 R382, R383); the barrier fault for an arrival that its barrier refuses, with the barrier's COUNT (15 R327). For a
status the detail holds 1 where the ring was full, or the subcode (log 14). -/
def nakRec (t : TxRec) (code : BitVec 16) (detail : BitVec 8) (cnt : Nat) (k : Core) : Core :=
  let f := fun (va : Nat) => fabricFault va (if code = 0 then 2 else 3) code.toNat detail.toNat
  match k.e4Of t.rec_.rtag with
  | some o =>
    match o.kind with
    | .freq _ _ => k.setOp 4 (o.resolved (if detail = 1 then 1 else 2))
    | .lzput _ _ =>
      let o := o.returned t.rec_.rtag
      k.setOp 4 { o with status := if o.status % 2 ^ 16 = 0 then o.status + 1 + 2 ^ 8 * detail.toNat else o.status }
    | _ => failSent 4 o (f t.va) k
  | none =>
    match k.copyOf t.rec_.rtag with
    | some (e, o) => failSent e o (copyRecFault o t f) k
    | none =>
      match k.lineOf t.rec_.rtag with
      | some l => failWriteBack l (f t.va) k
      | none =>
        match k.access? t.id with
        | none => k
        | some a =>
          match a.kind with
          | .lzgrant _ _ _ _ => k.setAccess { a with raised := true, wv := if detail = 1 then 1 else 2 }
          | _ => failPart t (fun va => if code = 0x0501 then barrierFault va detail.toNat cnt else f va) a k

/-- What a refusal of the queue engine's arrival records (12 R294, 15 R326). -/
def arrivalRefusal (t : TxRec) (code : BitVec 16) (detail : BitVec 8) (cnt : Nat) : FaultRec :=
  if code = 0x0501 then barrierFault t.va detail.toNat cnt
  else fabricFault t.va (if code = 0 then 2 else 3) code.toNat detail.toNat

/-- A record that this device sent is refused. -/
def State.nakked (s : State) (t : TxRec) (code : BitVec 16) (detail : BitVec 8) (cnt : Nat) : State :=
  if isEngineTag t.rec_.rtag then s.queueAnswer t.rec_.rtag (.failed (arrivalRefusal t code detail cnt))
  else s.updCore t.core (nakRec t code detail cnt)

/-- The COUNT that a waiting nak carries after its code and detail, for a barrier that refused an arrival (log 20). -/
def State.nakCount (s : State) (link : BitVec 11) (rtag : BitVec 32) (code : BitVec 16) (detail : BitVec 8) : Nat :=
  ((s.inrecs.find? fun r => r.link = some link && isNak rtag code detail r.rec_).map fun r => bitsOf (leNat r.rec_.payload) 24 32).getD 0

/-- A request record set aside from the frames that hold it, to be sent again on a retry. -/
def LinkEnd.loseRec (l : LinkEnd) (t : TxRec) : LinkEnd :=
  let l := l.dropRec t.rec_.rtag
  let f : TxFrame := ⟨l.txki, 0, [t], 0, 0, true, isEngineTag t.rec_.rtag⟩
  { l with tx := l.tx ++ [f] }

/-- NAK_RECORD_RECEIVE (17 R372). -/
def execNakRecordReceive (link : BitVec 11) (rtag : BitVec 32) (code : BitVec 16) (detail : BitVec 8) (s : State) : Out :=
  let cnt := s.nakCount link rtag code detail
  match s.takeAnswer link (isNak rtag code detail) with
  | none => .next s
  | some s =>
    match s.link? link with
    | none => .next s
    | some l =>
      match l.recOf rtag with
      | none => .next s
      | some t =>
        let l := if keepsRec (s.core t.core) t then l.loseRec t else l.dropRec rtag
        .next ((s.setLink link l).nakked t code detail cnt)

/-- RESULT_RECORD_RECEIVE (17 R368): an atomic's old value arrives. -/
def resultRec (t : TxRec) (old : Word) (k : Core) : Core :=
  match k.e4Of t.rec_.rtag with
  | some o => k.setOp 4 { o.returned t.rec_.rtag with status := old.toNat }
  | none =>
    match k.access? t.id with
    | none => k
    | some a => k.setAccess (a.setPart t.part (.done (old.setWidth 1024) 0 0 none))

def execResultRecordReceive (link : BitVec 11) (rtag : BitVec 32) (old : Word) (s : State) : Out :=
  match s.takeAnswer link (isResult rtag old) with
  | none => .next s
  | some s =>
    match s.link? link with
    | none => .next s
    | some l =>
      match l.recOf rtag with
      | none => .next s
      | some t => if t.rec_.fl.getLsbD 1 then .next ((s.setLink link (l.dropRec rtag)).updCore t.core (resultRec t old)) else .next s

end Sys2Proof.Machine
end

