-- ==== Sys2Proof/Machine/Rings.lean ====
section
/-! DEFINITION. Messages and receive rings: MSEND, its delivery, RGET and RWAIT (06 R154 to R158). -/

namespace Sys2Proof.Machine

open Sys2Proof

/-- MSEND (06 R155): the payload is read at issue, so an earlier acquire over L holds it (R133); the status is written when the message has been appended or refused. -/
def msendBody (h : Head) (o : MSendOp) : LaneM Unit := do
  let dst ← readS o.dst
  let off ← readS o.src
  let at' ← checkLocalRead off.toInt o.len.toNat
  guardFault (off.toNat % 8 = 0) (alignFault off.toInt)
  guardStall (!rangeStalls (← getCore) false at' o.len.toNat)
  guardOrder h .l noOrder
  let payload := lsRead (← getCore) at' o.len.toNat
  let id ← nextId
  let dest ← reserveDest o.d id
  issueAccess (freshAccess h id (← curSlot) (← curBundle) (.msend dst payload) .l noOrder dest)

def execMsend (h : Head) (o : MSendOp) (s : State) : Out := lane h (msendBody h o) s

/-- The core of a package that a die and core number name. -/
def coreOfWord (core die : Nat) : Option CoreId := if h : core < 96 then some ⟨Fin.ofNat 4 die, ⟨core, h⟩⟩ else none

/-- The core is of the context's view and runs a group of the context that declares the ring (06 R155, 14 R308). -/
def State.ringOf (s : State) (ctx : BitVec 10) (c : CoreId) (ring : Nat) : Option Region :=
  let k := s.core c
  match k.grp with
  | none => none
  | some g =>
    let r := g.layout.rings[Fin.ofNat 16 ring]
    if k.runsGroup && g.ctx = ctx && r.size ≠ 0 then some r else none

/-- A message delivered to a ring of a core of the package: the status 0, 1 or 2 of R155. -/
def State.deliverMsg (s : State) (ctx : BitVec 10) (frm : CoreId) (core die ring : Nat) (payload : List Byte) : State × Nat :=
  match coreOfWord core die with
  | none => (s, 2)
  | some c =>
    match s.ringOf ctx c ring with
    | none => (s, 2)
    | some r =>
      let (k, ok) := ringAppend (s.core c) r (ringHeader payload.length frm.core.val frm.die.val 0) payload
      (s.setCore c k, if ok then 0 else 1)

/-- The ring of this package that a message goes to, as core, die and ring: of an MSEND (06 R155), or of an LZGRANT whose sender is in this
device (18 R382). -/
def msgRing (dev : BitVec 16) (x : AccKind) : Option (Nat × Nat × Nat) :=
  match x with
  | .msend d _ => some (bitsOf d.toNat 0 7, bitsOf d.toNat 8 2, bitsOf d.toNat 10 4)
  | .lzgrant _ _ w _ => if w.setWidth 16 = dev then some (bitsOf w.toNat 16 7, bitsOf w.toNat 23 2, bitsOf w.toNat 25 4) else none
  | _ => none

/-- Messages of one slot to one ring are appended in issue order (06 R155): an earlier one of the core is outstanding to the same ring. -/
def State.earlierMsg (s : State) (c : CoreId) (a : Access) : Bool :=
  (s.core c).acc.any fun b => b.id < a.id && (msgRing s.device b.kind).isSome && msgRing s.device b.kind = msgRing s.device a.kind

/-- MESSAGE_APPEND (06 R155): the receiving interface appends the message or refuses it, and the status is written. -/
def execMessageAppend (c : CoreId) (id : Nat) (s : State) : Out :=
  let k := s.core c
  match k.access? id with
  | none => .next s
  | some a =>
    match a.kind, k.ctxId with
    | .msend dst payload, some ctx =>
      if s.earlierMsg c a || !mayPerform k a then .next s
      else
        let d := dst.toNat
        let s := s.cross (dieHop c.die (Fin.ofNat 4 (bitsOf d 8 2)))
        let (s, st) := if 2 ^ 14 ≤ d || d.testBit 7 then (s, 2) else s.deliverMsg ctx c (bitsOf d 0 7) (bitsOf d 8 2) (bitsOf d 10 4) payload
        .next (s.updCore c fun k => retire a (deliver a (BitVec.ofNat 64 st) k))
    | _, _ => .next s

/-- The ring of the issuing core; an undeclared one raises the local-store range fault, which records its number (06 R156). -/
def myRing (n : BitVec 4) : LaneM Region := do
  let g ← getGroup
  let r := g.layout.rings[n.toFin]
  guardFault (r.size ≠ 0) { code := 0x0304, aux := n.setWidth 64 }
  return r

/-- RGET, peek form (06 R156). It reads the ring's header at issue, so an earlier acquire over L holds it (R133). -/
def rgetBody (h : Head) (o : RGetOp) : LaneM Unit := do
  let r ← myRing o.ring
  guardOrder h .l noOrder
  let k ← getCore
  let v := if ringHead k r = ringTail k r then BitVec.allOnes 64 else BitVec.ofNat 64 (ringEntryAt k r (ringHead k r))
  writeS o.d v

def execRget (h : Head) (o : RGetOp) (s : State) : Out := lane h (rgetBody h o) s

/-- RGET, pop form (06 R156). -/
def rgetPopBody (h : Head) (o : RGetOp) : LaneM Unit := do
  let r ← myRing o.ring
  guardOrder h .l noOrder
  let k ← getCore
  if ringHead k r = ringTail k r then writeS o.d (BitVec.allOnes 64)
  else
    modCore (lsPut (r.off + 8) 8 (ringHead k r + 1))
    writeS o.d (BitVec.ofNat 64 (ringHead k r + 1))

def execRgetPop (h : Head) (o : RGetOp) (s : State) : Out := lane h (rgetPopBody h o) s

/-- RWAIT (06 R157): it blocks until the ring holds min(count, ENTRIES) messages. -/
def rwaitBody (h : Head) (o : RWaitOp) : LaneM Unit := do
  let r ← myRing o.ring
  let n ← readS o.cnt
  guardOrder h .l noOrder
  let k ← getCore
  let have' := ringTail k r - ringHead k r
  if min n.toNat (ringEntries k r) ≤ have' then writeS o.d (BitVec.ofNat 64 have') else stallWait

def execRwait (h : Head) (o : RWaitOp) (s : State) : Out := lane h (rwaitBody h o) s

end Sys2Proof.Machine
end

