-- ==== Sys2Proof/Machine/Landing.lean ====
section
/-! DEFINITION. The landing-slot instructions LZOFFER, LZGRANT, LZPUT, LZADOPT, LZFREE and LZSTAT (18 R380 to R385), and the events
that complete a grant, an adoption and an LZPUT. -/

namespace Sys2Proof.Machine

open Sys2Proof

/-- The landing-slot fault (18 R390). -/
def landingFault (addr : Nat) (case : Nat) (sub : Nat := 0) : FaultRec :=
  { code := 0x0502, addr := BitVec.ofNat 64 addr, aux := BitVec.ofNat 64 (case + 2 ^ 8 * sub) }

/-- The slot that an instruction names, with its barrier record: a zone that is not declared or an index beyond its slots raises case
1 (18 R380). -/
def namedSlot (zone : BitVec 4) (jop : Operand) : LaneM (Nat × Rec64) := do
  let j ← readS jop
  let k ← getCore
  guardFault (j.toNat < k.layout.slots zone.toFin) (landingFault 0 1)
  return (j.toNat, k.slotRec zone.toFin j.toNat)

/-- A state that R378 does not permit raises case 2. -/
def guardSst (zone : BitVec 4) (j : Nat) (ok : Bool) : LaneM Unit := do
  let k ← getCore
  guardFault ok (landingFault (k.layout.slotAt zone.toFin j) 2)

/-- LZOFFER (18 R381). -/
def lzofferBody (h : Head) (o : LzOfferOp) : LaneM Unit := do
  let (j, b) ← namedSlot o.zone o.j
  let n ← readS o.b
  guardOrder h .l noOrder
  guardSst o.zone j (slotSst b = sstFree)
  let k ← getCore
  guardFault (64 ≤ n.toNat && n.toNat ≤ 32768 && n.toNat % 64 = 0) (landingFault (k.layout.slotAt o.zone.toFin j) 3)
  let b := putField (putField (putField b 8 3 0) 12 1 0) 64 64 (n.toNat / 64)
  let b := putField (putField (putSst b sstOffered) 264 8 0) 336 16 n.toNat
  modCore (·.putSlotRec o.zone.toFin j b)

def execLzoffer (h : Head) (o : LzOfferOp) (s : State) : Out := lane h (lzofferBody h o) s

/-- A grant record (18 R379). -/
def grantRecord (dev : BitVec 16) (c : CoreId) (zone j rsv bytes : Nat) (cookie : Word) : List Byte :=
  natLe 32 (packFields [(16, 1), (16, dev.toNat), (16, scoreOf c + 2 ^ 9 * (0x10 + zone)), (6, j), (10, 0), (16, rsv), (16, 0),
    (32, bytes), (64, cookie.toNat), (64, 0)])

/-- Bits of a grant's destination word outside its fields (18 R382). -/
def badTarget (w : Word) : Bool := bitsOf w.toNat 29 3 ≠ 0 || bitsOf w.toNat 48 16 ≠ 0

/-- LZGRANT (18 R382): the slot is reserved at issue, and the grant record is delivered from then on. -/
def lzgrantBody (h : Head) (o : LzGrantOp) : LaneM Unit := do
  let cookie ← readS o.d
  let (j, b) ← namedSlot o.zone o.j
  let w ← readS o.w
  guardOrder h .l noOrder
  guardSst o.zone j (slotSst b = sstOffered)
  if badTarget w then writeS o.d 2
  else
    let c ← curCore
    let dev ← fun s => .ok (s.device, s)
    let k ← getCore
    let rsv := k.lzseq + 1
    let t := w.toNat
    let within := BitVec.ofNat 16 (bitsOf t 0 16) = dev
    let b := putField (putField (putSst b sstReserved) 272 16 rsv.toNat) 288 16 (bitsOf t 0 16)
    let b := putField (putField b 304 16 (if within then 0 else bitsOf t 32 16)) 320 9 (bitsOf t 16 9)
    modCore fun k => { k with lzseq := rsv }.putSlotRec o.zone.toFin j b
    let id ← nextId
    let dest ← reserveDest o.d id
    let rec_ := grantRecord dev c o.zone.toNat j rsv.toNat (slotBytes b) cookie
    issueAccess (freshAccess h id (← curSlot) (← curBundle) (.lzgrant o.zone.toFin j w rec_) .p (relOrder o.rel) dest)

def execLzgrant (h : Head) (o : LzGrantOp) (s : State) : Out := lane h (lzgrantBody h o) s

/-- A grant's status is known: another than 0 returns a slot that is still reserved under the grant's number to offered, and the status is
written. -/
def endGrant (a : Access) (z : Fin 16) (j status : Nat) (grant : List Byte) (k : Core) : Core :=
  let b := k.slotRec z j
  let k := if status ≠ 0 && slotSst b = sstReserved && slotRsv b = bitsOf (leNat grant) 64 16 then k.putSlotRec z j (putSst b sstOffered) else k
  retire a (deliver a (BitVec.ofNat 64 status) k)

/-- LZGRANT_STATUS (18 R382): within the package the grant is delivered now, as MSEND delivers a message and in issue order with the slot's
messages to one ring; to another device its outcome has come back. -/
def execLzgrantStatus (c : CoreId) (id : Nat) (s : State) : Out :=
  let k := s.core c
  match k.access? id with
  | none => .next s
  | some a =>
    match a.kind, k.ctxId with
    | .lzgrant z j target rec_, some ctx =>
      let t := target.toNat
      if BitVec.ofNat 16 (bitsOf t 0 16) = s.device then
        if s.earlierMsg c a || !mayPerform k a then .next s
        else
          let s := s.cross (dieHop c.die (Fin.ofNat 4 (bitsOf t 23 2)))
          let s := if releases a.ord then s.releaseAt c a.asc else s
          let (s, st) := s.deliverMsg ctx c (bitsOf t 16 7) (bitsOf t 23 2) (bitsOf t 25 4) rec_
          .next (s.updCore c (endGrant a z j st rec_))
      else if a.raised then .next (s.updCore c (endGrant a z j a.wv.toNat rec_))
      else .next s
    | _, _ => .next s

/-- A grant record that LZPUT can use (18 R383). -/
def grantOk (g : Nat) (src : Word) : Bool :=
  let n := bitsOf g 96 32
  bitsOf g 0 16 = 1 && bitsOf g 54 10 = 0 && bitsOf g 80 16 = 0 && bitsOf g 192 64 = 0 && 64 ≤ n && n ≤ 32768 && n % 64 = 0 &&
    src.toNat % 64 = 0

/-- LZPUT (18 R383). -/
def lzputBody (h : Head) (o : LzPutOp) : LaneM Unit := do
  let g ← readS o.g
  let src ← readS o.src
  guardFault o.o.ssc.p (handleFault 0)
  let at' ← checkLocalRead (g.toInt + o.off.toInt) 32
  guardStall (!rangeStalls (← getCore) false at' 32)
  guardOrder h .l noOrder
  let rec_ := lsRead (← getCore) at' 32
  guardFault (grantOk (leNat rec_) src) (landingFault at' 4)
  let n := bitsOf (leNat rec_) 96 32
  let off ← checkLocalRead src.toInt n
  let id ← nextId
  let dest ← reserveDest o.d id
  enterEngine 4 (freshOp h id (← curSlot) (← curBundle) o.push o.o dest (.lzput rec_ off)) (some ⟨id, off, off + n, false⟩)

def execLzput (h : Head) (o : LzPutOp) (s : State) : Out := lane h (lzputBody h o) s

/-- LZPUT_COMPLETE (18 R383): everything sent has come back, and all was sent or sending has stopped. -/
def execLzputComplete (c : CoreId) (id : Nat) (s : State) : Out :=
  match (s.core c).e4Done id with
  | some o =>
    match o.kind with
    | .lzput g _ =>
      if bitsOf (leNat g) 96 32 ≤ o.pos || o.status % 2 ^ 16 ≠ 0 then
        .next (s.updCore c fun k => completeOp 4 o (deliverTo o.slot o.id o.dropped o.dest (BitVec.ofNat 64 o.status) k))
      else .next s
    | _ => .next s
  | none => .next s

/-! ### LZADOPT (18 R384) -/

/-- What LZADOPT reads at issue, with its checks up to the tag's. -/
structure Adoption where
  zone : Fin 16
  j    : Nat
  tens : BitVec 12
  ent  : Rec128
  c    : Vector Word 4
  ed   : Word

/-- The checks of an LZADOPT; it reads the tensor-table entry once, and keeps the copy while it waits at its bundle (05 R121). -/
def adoption (o : LzAdoptOp) (kept : Option Rec128) : LaneM Adoption := do
  let ed ← readS o.ed
  let (j, b) ← namedSlot o.zone o.j
  let w ← readS o.c
  guardSst o.zone j (slotSst b = sstArrived)
  let e ← formedEntry o.t kept
  let f := fun i => BitVec.ofNat 64 (bitsOf w.toNat (16 * i) 16)
  let c : Vector Word 4 := #v[f 0, f 1, f 2, f 3]
  guardCoords o.t e c
  let k ← getCore
  let refuse := fun (n : Nat) => landingFault (k.layout.slotAt o.zone.toFin j) 5 n
  guardFault (!(tEnt e).win) (refuse 1)
  guardFault ((slotBytes b + 511) / 512 = (tEnt e).granules) (refuse 2)
  let req := k.required o.t
  return ⟨o.zone.toFin, j, o.t, e, c, if ed.toNat < req.toNat then req else ed⟩

/-- The line that adopts a slot, and the slot adopted. -/
def adoptLine (x : Adoption) (ctx : BitVec 10) (asc : Scope) (idx : Nat) (k : Core) : Core :=
  let g := (tEnt x.ent).granules
  let data := BitVec.ofNat 262144 (lsNat k (k.layout.slotData x.zone x.j) (512 * g))
  let l : TileLine := { idx := idx, ctx := ctx, tens := x.tens, c := x.c, ed := x.ed, base := .valid, pin := false, dirty := false,
                        adopt := some (x.zone, x.j), last := false, stream := false, grp := k.serial, stamp := k.tclock, gran := g,
                        data := data, keys := [], ent := x.ent, asc := asc, origin := slotOrigin .a 0 false, evict := false,
                        discard := false, pf := false, pfHit := false, out := none }
  let k := { k with lines := k.lines ++ [l], tclock := k.tclock + 1 }
  countAdopt x.zone (k.putSlotRec x.zone x.j (putSst (k.slotRec x.zone x.j) sstAdopted))

/-- How an adoption goes on: done; a refusal; or it waits, with the evictions that it has begun. -/
inductive AdoptEnd
  | done (s : State)
  | refused (sub : Nat)
  | waits (s : State)

/-- The tag and the way (18 R384): no pool granule is needed, since the line's granules are the slot's. A way is chosen among the lines that
are eligible now; the write-back of a victim of its own is awaited. -/
def State.tryAdopt (s : State) (c : CoreId) (x : Adoption) : AdoptEnd :=
  let k := s.core c
  if (k.tagged x.tens x.c).isSome then .refused 3
  else match k.plan (s.poolGranules k) 0 (Config.draw s.freeCtr) (tagSet x.tens x.c) k.adopting.isSome with
    | .stuck _ => .refused 4
    | .waits _ => .waits s
    | .place victims idx hand =>
      let k1 := { victims.foldl evictTile k with hand := hand }
      if victims.any (·.dirty) then .waits (s.setCore c k1).drew
      else
        let asc := (k.grp.map (·.asc)).getD .device
        .done ((s.setCore c (adoptLine x (k.ctxId.getD 0) asc idx k1)).drew.settleTiles c)

/-- LZADOPT: where a victim must be written back first, the slot stays blocked at its bundle. -/
def lzadoptIssue (h : Head) (o : LzAdoptOp) (s0 s : State) : State :=
  let c := s.cur.1
  let clear := fun (s : State) => forgetEntry (s.updCore c fun k => { k with adopting := none })
  match adoption o ((s0.core c).slot .a).entry s with
  | .error e => settle (.error e) (clear s0)
  | .ok (x, s1) =>
    match s1.tryAdopt c x with
    | .done t => clear t
    | .refused n => laneFault (landingFault ((s.core c).layout.slotAt x.zone x.j) 5 n) (clear s0)
    | .waits _ =>
      match s0.tryAdopt c x with
      | .waits t => blockSlot .plain (t.updCore c fun k => { k with adopting := some (h, o) }.updSlot .a fun t => { t with entry := some x.ent })
      | _ => blockSlot .plain s0

def execLzadopt (h : Head) (o : LzAdoptOp) (s : State) : Out := .next (issueAct h (lzadoptIssue h o) s)

/-- LZADOPT_COMPLETE (18 R384): the write-back that a blocked LZADOPT waits for is acknowledged; it is tried again. -/
def execLzadoptComplete (c : CoreId) (s : State) : Out :=
  match (s.core c).adopting with
  | none => .next s
  | some (h, o) => .next { issueAct h (lzadoptIssue h o) { s with cur := (c, .a) } with cur := s.cur }

/-! ### LZFREE and LZSTAT (18 R385) -/

/-- LZFREE: a slot that awaits records is torn; an offered, arrived or torn one is free. -/
def lzfreeBody (h : Head) (o : LzFreeOp) : LaneM Unit := do
  let (j, b) ← namedSlot o.zone o.j
  guardOrder h .l noOrder
  let x := slotSst b
  guardSst o.zone j (x ≠ sstFree && x ≠ sstAdopted)
  if awaitsLanding b then
    fun s => .ok ((), s.drew.updCore s.cur.1 (tearSlot o.zone.toFin j 4 s.freeCtr))
  else modCore (·.putSlotRec o.zone.toFin j slotReset)

def execLzfree (h : Head) (o : LzFreeOp) (s : State) : Out := lane h (lzfreeBody h o) s

/-- The slot word (18 R385). -/
def slotWord (b : Rec64) : Word :=
  BitVec.ofNat 64 (packFields [(3, slotSst b), (5, 0), (8, slotCause b), (16, slotRsv b), (16, barCount b), (16, barTarget b)])

/-- LZSTAT. An SSC that omits L raises the handle fault (06 R130). -/
def lzstatBody (h : Head) (o : LzStatOp) : LaneM Unit := do
  guardFault o.ssc.l (handleFault 0)
  let (_, b) ← namedSlot o.zone o.j
  guardOrder h .l ⟨.group, o.ssc, if o.acq then .acq else .rlx⟩
  writeS o.d (slotWord b)

def execLzstat (h : Head) (o : LzStatOp) (s : State) : Out := lane h (lzstatBody h o) s

end Sys2Proof.Machine
end

