-- ==== Sys2Proof/Machine/Queue.lean ====
section
/-! DEFINITION. Queues (12 R281 to R288, R291 to R295): descriptors, the queue engine's accesses through a context's tables, the
arbitration of entries, halting and completion, and the appends of LAUNCH and QENTRY. -/

namespace Sys2Proof.Machine

open Sys2Proof

/-! ### Accesses of the queue engine through a context's tables (12 R282) -/

/-- The leaf of an address for an agent outside the cores, with every check of the access. -/
def State.ctxReach (s : State) (ctx : BitVec 10) (w : Want) (copy : Bool) (va : Nat) : Except FaultRec Leaf :=
  match s.ctx? ctx with
  | none => .error (memFaultRec va w.isWrite (translationFault 1 0))
  | some x =>
    match (s.walk x va).leaf with
    | .error f => .error (memFaultRec va w.isWrite f)
    | .ok l =>
      match s.leafCheck ctx (l.isPeer && w == .atomic) w l with
      | some f => .error (leafFaultRec va w.isWrite l f)
      | none =>
        match (s.farCheck x.part l (l.phys va) copy).fault with
        | some f => .error (leafFaultRec va w.isWrite l f)
        | none => .ok l

/-- An access of the queue engine: its walk reads the entries' lines (01 R24), and it crosses the link from the I-die to the die of its line. -/
def State.engineCross (s : State) (ctx : BitVec 10) (l : Leaf) (va : Nat) : State :=
  let part := s.partOf ctx
  let s := if s.refresh.all (!·.asleep) then s else ((s.ctx? ctx).map fun x => s.touchWalk (s.walk x va)).getD s
  let d := s.ordDie part (lineOf (s.redirect part (l.phys va)))
  s.cross [(idieLink d, true)]

/-- The key of a leaf's slot, with the fault of an empty one. -/
def State.ctxKey (s : State) (ctx : BitVec 10) (l : Leaf) (va : Nat) (write : Bool) : Except FaultRec KeyTag :=
  match s.keyTag ctx l.key with
  | none => .error (leafFaultRec va write l (s.keyFault ctx l.key write))
  | some k => .ok k

/-- Bytes read line by line; the first fault ends it. -/
def State.ctxReadPieces (s : State) (ctx : BitVec 10) (copy : Bool) :
    List (Nat × Nat) → List Byte → State × Except FaultRec (List Byte)
  | [], acc => (s, .ok acc)
  | (a, n) :: rest, acc =>
    match s.ctxReach ctx .read copy a with
    | .error f => (s, .error f)
    | .ok l =>
      match s.ctxKey ctx l a false with
      | .error f => (s, .error f)
      | .ok k =>
        match (s.engineCross ctx l a).readLine (s.partOf ctx) k (l.phys a) n with
        | (s, .error f) => (s, .error (leafFaultRec a false l f))
        | (s, .ok b) => s.ctxReadPieces ctx copy rest (acc ++ b)

def State.ctxRead (s : State) (ctx : BitVec 10) (copy : Bool) (va n : Nat) : State × Except FaultRec (List Byte) :=
  s.ctxReadPieces ctx copy (piecesOf va n) []

/-- The entries of a handle table that are not all zero, by rising index: those with a byte in memory or in a slice. -/
def State.tableEntries (s : State) (base : Nat) : List (BitVec 12) :=
  let named := (s.mem.filterMap fun x => if base ≤ x.1 && x.1 < base + 0x20000 then some ((x.1 - base) / 32) else none) ++
    s.slices.flatMap fun l => (natRange 0 4).filterMap fun i =>
      if base ≤ 128 * l.line && 128 * l.line < base + 0x20000 then some ((128 * l.line - base) / 32 + i) else none
  (((natRange 0 4096).filter named.contains).map (BitVec.ofNat 12))

/-- The handle of a context whose buffer holds an address: the lowest that covers it (04 R105; log 22). -/
def State.bufferOf (s : State) (x : Context) (va : Nat) : Option Handle :=
  (s.tableEntries x.hroot.toNat).findSome? fun n =>
    (handleOf n (BitVec.ofNat 256 (s.rdNat (x.hroot.toNat + 32 * n.toNat) 32))).filter fun h => h.base ≤ va && va < h.base + h.bound

/-- How a write outside the cores is stamped: as a write through the buffer's handle, and in rewrite mode where no handle covers it (04
R105, 16 R338; log 22). -/
def State.ctxStamp (s : State) (ctx : BitVec 10) (l : Leaf) (k : KeyTag) (va : Nat) : Stamping :=
  match (s.ctx? ctx).bind fun x => s.bufferOf x va with
  | some h => ⟨k, h.wv, h.wvm || l.wvm⟩
  | none => ⟨k, 0, true⟩

/-- Bytes written line by line; the first fault ends it. -/
def State.ctxWritePieces (s : State) (ctx : BitVec 10) (copy : Bool) :
    List (Nat × Nat) → List Byte → State × Option FaultRec
  | [], _ => (s, none)
  | (a, n) :: rest, b =>
    match s.ctxReach ctx .write copy a with
    | .error f => (s, some f)
    | .ok l =>
      match s.ctxKey ctx l a true with
      | .error f => (s, some f)
      | .ok k =>
        match s.writeLine (s.partOf ctx) (s.ctxStamp ctx l k a) (l.phys a) (b.take n) with
        | .error f => (s, some (leafFaultRec a true l f))
        | .ok s => ((s.engineCross ctx l a).dropCopies [0, 1, 2, 3] (lineOf (l.phys a))).ctxWritePieces ctx copy rest (b.drop n)

def State.ctxWrite (s : State) (ctx : BitVec 10) (copy : Bool) (va : Nat) (b : List Byte) : State × Option FaultRec :=
  s.ctxWritePieces ctx copy (piecesOf va b.length) b

/-! ### States of a queue (12 R283) -/

/-- A queue moves to a state; one that is suspended keeps it for its resumption (12 R283). -/
def QueueRun.to (q : QueueRun) (st : QState) : QueueRun :=
  if q.state = .suspended then { q with kept := st } else { q with state := st }

/-- The state a queue is in but for a suspension. -/
def QueueRun.real (q : QueueRun) : QState := if q.state = .suspended then q.kept else q.state

/-- The virtual address of entry i of a ring. -/
def QueueRun.entryVa (q : QueueRun) (i : Nat) : Nat := q.base.toNat + 64 * (i % 2 ^ q.nl)

/-- The index of the entry in progress. -/
def QueueRun.current (q : QueueRun) : Nat := q.head.toNat - 1

/-- R294: the queue halts at an entry: LASTERR, one error record with SRC 10 and the queue's number. HEAD and DONE keep their values. -/
def State.haltQueue (s : State) (q : QueueRun) (idx : Nat) (f : FaultRec) : State :=
  let s := s.appendError q.ctx { f with src := 10 } 0 0 q.n.toNat
  s.setQueue { q with state := .halted, kept := .halted, lastErr := BitVec.ofNat 64 idx, entry := none, remote := .none, moved := 0 }

/-- The record of an ill-formed entry, or of an abandoned group (12 R294). -/
def entryError (q : QueueRun) (idx : Nat) : FaultRec :=
  { code := 0x0602, addr := BitVec.ofNat 64 (q.entryVa idx), aux := BitVec.ofNat 64 idx }

/-- R294: an access of an entry faults: its code, its address and the detail. -/
def accessError (f : FaultRec) : FaultRec := { code := f.code, addr := f.addr, aux := f.aux }

/-- R293: the entry in progress is complete: DONE advances, and the queue is armed or idle. -/
def State.completeEntry (s : State) (q : QueueRun) : State :=
  let done := q.done + 1
  let st := if done.toNat < s.tail q then QState.armed else .idle
  s.setQueue { (q.to st) with done := done, entry := none, remote := .none }

/-! ### Entries (12 R282, R288) -/

def entKind (e : Rec64) : Nat := bitsOf e.toNat 0 8
def entPri (e : Rec64) : BitVec 8 := BitVec.ofNat 8 (bitsOf e.toNat 8 8)
def entAsc (e : Rec64) : Nat := bitsOf e.toNat 16 3
def entStamp (e : Rec64) : Nat := bitsOf e.toNat 448 64

/-- The scope of an entry's completion. -/
def scopeOf (n : Nat) : Scope :=
  match n with
  | 0 => .slot
  | 1 => .group
  | 2 => .die
  | 3 => .device
  | 4 => .package
  | _ => .fabric

/-- The fields of each kind, as first bit and width (12 R282, R288). -/
def entFields (kind : Nat) : List (Nat × Nat) :=
  [(0, 8), (8, 8), (16, 3), (448, 64)] ++
    match kind with
    | 1 => [(19, 1), (64, 64), (128, 64), (192, 64), (256, 8), (320, 64)]
    | 2 => [(64, 64), (128, 64), (192, 64)]
    | 3 => [(64, 12), (128, 64)]
    | 4 => [(64, 64), (128, 16)]
    | 5 => [(64, 1), (128, 64), (192, 64)]
    | _ => []

/-- A word with the given fields all ones. -/
def fieldMask (l : List (Nat × Nat)) : Nat := l.foldl (fun m f => m ||| ((2 ^ f.2 - 1) * 2 ^ f.1)) 0

/-- R294: an entry that is ill-formed as it stands. -/
def entIllFormed (x : Context) (e : Rec64) : Bool :=
  let v := e.toNat
  let k := entKind e
  k = 0 || 5 < k || v ||| fieldMask (entFields k) ≠ fieldMask (entFields k) || x.priMax < entPri e || entAsc e = 0 || 5 < entAsc e ||
    (k = 2 && bitsOf v 192 64 % 16 ≠ 0) || (k = 3 && x.qn.toNat ≤ bitsOf v 64 12) || (k = 4 && bitsOf v 128 16 = 0)

/-! ### Taking entries (12 R284 to R287) -/

/-- What the engine finds at the head of a queue: nothing to take; a ring that is overfull; an entry whose stamp does not match yet; a
read that faults; or an entry. -/
inductive HeadOf
  | nothing
  | overfull
  | unstamped
  | faulty (f : FaultRec)
  | entry (e : Rec64)
  deriving DecidableEq, Repr

/-- The queue takes entries: its context is active, or drains for what was placed before (12 R283, 11 R273). -/
def State.takes (s : State) (q : QueueRun) : Bool :=
  q.en && q.entry.isNone && (q.state = .idle || q.state = .armed || q.state = .blocked) &&
    (s.ctx? q.ctx).any fun x => x.state = .active

def State.headOf (s : State) (q : QueueRun) : State × HeadOf :=
  let h := q.head.toNat
  let t := s.tail q
  let s := s.touch (s.qdesc q.ctx q.n) 64
  if !s.takes q || t ≤ h then (s, .nothing)
  else if h + 2 ^ q.nl < t then (s, .overfull)
  else match s.ctxRead q.ctx false (q.entryVa h) 64 with
    | (s, .error f) => (s, .faulty f)
    | (s, .ok b) =>
      let e : Rec64 := BitVec.ofNat 512 (leNat b)
      (s, if entStamp e = h then .entry e else .unstamped)

/-- The priority at which the head of a queue contends; a head that is no stamped entry contends at none. -/
def State.headPri (s : State) (q : QueueRun) : Option Nat :=
  match (s.headOf q).2 with
  | .entry e => some (entPri e).toNat
  | _ => none

/-- The place of a queue in the rotation of a level: behind the queue last served (12 R287). -/
def State.turn (s : State) (part : BitVec 6) (place : Bool) (pri : BitVec 8) (ctx : BitVec 10) (n : BitVec 12) : Nat :=
  let key := 4096 * ctx.toNat + n.toNat
  match s.rotation.find? fun r => r.part = part && r.place = place && r.pri = pri with
  | none => key
  | some r =>
    let last := 4096 * r.ctx.toNat + r.queue.toNat
    if last < key then key else key + 2 ^ 22

/-- The level's pointer moves to a queue that is served. -/
def State.served (s : State) (part : BitVec 6) (place : Bool) (pri : BitVec 8) (ctx : BitVec 10) (n : BitVec 12) : State :=
  { s with rotation := ⟨part, place, pri, ctx, n⟩ :: s.rotation.filter fun r => !(r.part = part && r.place = place && r.pri = pri) }

/-- R287: no other queue of the partition has a ready entry that the engine takes first. -/
def State.first (s : State) (q : QueueRun) (e : Rec64) : Bool :=
  let part := s.partOf q.ctx
  let pri := entPri e
  s.queues.all fun r =>
    (r.ctx = q.ctx && r.n = q.n) || s.partOf r.ctx ≠ part ||
      match s.headPri r with
      | none => true
      | some p => p < pri.toNat || (p = pri.toNat && s.turn part false pri q.ctx q.n < s.turn part false pri r.ctx r.n)

/-- The entry at HEAD taken: HEAD advances and the entry is in progress (12 R286). -/
def State.takeEntry (s : State) (q : QueueRun) (e : Rec64) (st : QState) : State × QueueRun :=
  let q := { (q.to st) with head := q.head + 1, entry := some e, remote := .none, moved := 0 }
  ((s.served (s.partOf q.ctx) false (entPri e) q.ctx q.n).setQueue q, q)

/-- An entry of a kind is taken and goes on with `act`; what cannot be taken arms, blocks or halts the queue. `kinds` says which
kinds this event takes, reserved ones among LAUNCH_ENTRY_TAKE's. -/
def State.take (s : State) (ctx : BitVec 10) (n : BitVec 12) (kinds : Nat → Bool) (act : QueueRun → Context → Rec64 → State → State) :
    State :=
  match s.queue? ctx n, s.ctx? ctx with
  | some q, some x =>
    match s.headOf q with
    | (s, .nothing) => s
    | (s, .overfull) => s.haltQueue q q.head.toNat (entryError q q.head.toNat)
    | (s, .unstamped) => s.setQueue { q with state := .blocked }
    | (s, .faulty f) => s.haltQueue q q.head.toNat (accessError f)
    | (s, .entry e) =>
      if !kinds (entKind e) then s
      else if !s.first q e then s.setQueue { q with state := .armed }
      else
        let (s, q) := s.takeEntry q e .running
        if entIllFormed x e then s.haltQueue q q.current (entryError q q.current) else act q x e s
  | _, _ => s

/-- The entry in progress of a queue, of a kind. -/
def State.inProgress (s : State) (ctx : BitVec 10) (n : BitVec 12) (kind : Nat) : Option (QueueRun × Rec64) :=
  match s.queue? ctx n with
  | none => none
  | some q =>
    match q.entry with
    | none => none
    | some e => if entKind e = kind && q.state ≠ .halted then some (q, e) else none

/-! ### Copy entries (12 R288, R293) -/

/-- COPY_ENTRY_TAKE. -/
def execCopyEntryTake (ctx : BitVec 10) (n : BitVec 12) (s : State) : Out := .next (s.take ctx n (· = 2) fun _ _ _ s => s)

/-- Where TO lies above FROM in a copy that overlaps itself, it goes downwards (12 R293; log 83). -/
def copyDown (src dst len : Nat) : Bool := src < dst && dst < src + len

/-- The bytes of TO's next memory line that a copy has not moved: a copy is cut at lines of TO alone, so that it writes each line once
(04 R105, 16 R338; log 83). -/
def copyEdge (down : Bool) (dst len moved : Nat) : Nat := if down then (dst + (len - moved) - 1) % 128 + 1 else 128 - (dst + moved) % 128

/-- The bytes of a copy moved in stretches of at most 32 memory lines, each read before it is written: `n` bytes more of `len`, of which
`moved` are done. Every 8-byte unit of TO holds its value from before the copy or the copied one (12 R293). -/
def State.copyBytes (s : State) (ctx : BitVec 10) (src dst len : Nat) : Nat → Nat → Nat → State × Option FaultRec
  | 0, _, _ => (s, none)
  | fuel + 1, moved, n =>
    if n = 0 then (s, none)
    else
      let down := copyDown src dst len
      let m := min n (copyEdge down dst len moved + 31 * 128)
      let at' := if down then len - moved - m else moved
      match s.ctxRead ctx true (src + at') m with
      | (s, .error f) => (s, some f)
      | (s, .ok b) =>
        match s.ctxWrite ctx true (dst + at') b with
        | (s, some f) => (s, some f)
        | (s, none) => s.copyBytes ctx src dst len fuel (moved + m) (n - m)

/-- A copy entry in progress that the copy engines serve before another of its partition: by PRI, then in rotation (12 R287). -/
def State.copiesFirst (s : State) (q : QueueRun) (pri : BitVec 8) (r : QueueRun) : Bool :=
  let part := s.partOf q.ctx
  !(r.ctx = q.ctx && r.n = q.n) && s.partOf r.ctx = part && r.state ≠ .halted &&
    match r.entry with
    | none => false
    | some e => entKind e = 2 && (pri < entPri e ||
        (entPri e = pri && s.turn part false pri r.ctx r.n < s.turn part false pri q.ctx q.n))

/-- A copy engine of the I-die is free for a copy entry; the manual does not give their number (12 R287; log 83). -/
def State.copyEngineFor (s : State) (q : QueueRun) (pri : BitVec 8) : Bool :=
  (s.queues.filter (s.copiesFirst q pri)).length ≤ Config.copyEngines

/-- COPY_ENTRY_COMPLETE: a copy engine moves a free number of the lines that are left; when none is left their writes are acknowledged
and the entry completes. A copy that faults halts its queue (12 R293, R294; log 83). -/
def execCopyEntryComplete (ctx : BitVec 10) (n : BitVec 12) (s : State) : Out :=
  match s.inProgress ctx n 2 with
  | none => .next s
  | some (q, e) =>
    if !s.copyEngineFor q (entPri e) then .next s
    else
      let len := bitsOf e.toNat 192 64
      let left := len - q.moved
      let src := bitsOf e.toNat 64 64
      let dst := bitsOf e.toNat 128 64
      let edge := copyEdge (copyDown src dst len) dst len q.moved
      let part := Config.draw s.freeCtr % ((left - edge + 127) / 128 + 2)
      let now := if part = 0 then left else min left (edge + 128 * (part - 1))
      match s.drew.copyBytes ctx src dst len (now / 128 + 1) q.moved now with
      | (s, some f) => .next (s.haltQueue q q.current (accessError f))
      | (s, none) =>
        let q := { q with moved := q.moved + now }
        .next (if q.moved = len then s.completeEntry q else s.setQueue q)

/-! ### Joins (12 R288) -/

/-- DONE of the queue that a join names has reached POS. -/
def State.joined (s : State) (ctx : BitVec 10) (e : Rec64) : Bool :=
  match s.queue? ctx (BitVec.ofNat 12 (bitsOf e.toNat 64 12)) with
  | none => bitsOf e.toNat 128 64 = 0
  | some o => bitsOf e.toNat 128 64 ≤ o.done.toNat

/-- JOIN_ENTRY_TAKE. -/
def execJoinEntryTake (ctx : BitVec 10) (n : BitVec 12) (s : State) : Out :=
  .next (s.take ctx n (· = 3) fun q _ e s => if s.joined ctx e then s else s.setQueue (q.to .blocked))

/-- JOIN_SATISFIED. -/
def execJoinSatisfied (ctx : BitVec 10) (n : BitVec 12) (s : State) : Out :=
  match s.inProgress ctx n 3 with
  | none => .next s
  | some (q, e) => if s.joined ctx e then .next (s.completeEntry q) else .next s

/-! ### Barriers and waits (12 R288, 15 R326) -/

/-- An arrival of the queue engine at a barrier: done; held there; waiting for a link; or refused or faulting, with the queue's error record. To a
peer page it is sent, and answered later. -/
inductive EngineArrival
  | done
  | held
  | waits
  | failed (f : FaultRec)
  | sent (rtag : BitVec 32)
  deriving DecidableEq, Repr

/-- The record of an arrival of the queue engine sent to a peer device. -/
def State.sendArrival (s : State) (ctx : BitVec 10) (l : Leaf) (va w : Nat) : Option (State × EngineArrival) :=
  match s.linkUse ⟨0, 0⟩ false (BitVec.ofNat 16 l.pdev) with
  | .waits => none
  | .cannot => some (s, .failed (fabricFault va 4 0 0))
  | .carries i li =>
    let tag := engineTag s
    let payload := barPayload true (.arrive (BitVec.ofNat 16 w) none false)
    let r : OpRecord := { op := 0x02, fl := 0, stag := ((s.ctx? ctx).bind (·.fabTag)).getD 0, sseq := s.nextSeq ⟨0, 0⟩ li.peer false,
                          pa := BitVec.ofNat 64 (l.phys va), len := BitVec.ofNat 16 payload.length
                          aop := BitVec.ofNat 8 (barAopCode false), ty := 0, rtag := tag, payload := payload }
    some (s.sendFrame ⟨0, 0⟩ i li ⟨r, 0xFFFF, ⟨0, 0⟩, 2 ^ 65, 0, va⟩ false, .sent tag)

/-- R326: an arrival of weight w by the queue engine, at a barrier address aligned to 64 bytes (15 R319). -/
def State.engineArrive (s : State) (ctx : BitVec 10) (va w : Nat) : State × EngineArrival :=
  if va % 64 ≠ 0 then (s, .failed { code := 0x0303, addr := BitVec.ofNat 64 va })
  else match s.ctxReach ctx .atomic false va with
    | .error f => (s, .failed (accessError f))
    | .ok l =>
      if l.isPeer then (s.sendArrival ctx l va w).getD (s, .waits)
      else match s.ctxKey ctx l va true with
        | .error f => (s, .failed (accessError f))
        | .ok k =>
          match (s.engineCross ctx l va).barAct (s.partOf ctx) (s.ctxStamp ctx l k va) (l.phys va) .queue (.arrive (BitVec.ofNat 16 w) none false) with
          | (s, .fault f) => (s, .failed (accessError (leafFaultRec va true l f)))
          | (s, .refused case cnt) => (s, .failed (barrierFault va case cnt))
          | (s, .held) => (s, .held)
          | (s, .done _) => (s.dropCopies [0, 1, 2, 3] (lineOf (l.phys va)), .done)

/-- An entry's arrival goes on: it completes the entry, waits, or halts the queue. One that finds its barrier resetting is held there and
applied by the barrier's reopening (15 R322). -/
def State.arriveFor (s : State) (q : QueueRun) (va w : Nat) (done : QueueRun → State → State) : State :=
  match q.remote with
  | .sent _ => s
  | .done => done q s
  | .failed f => s.haltQueue q q.current f
  | .none =>
    if s.isHeld (.queue q.ctx q.n) then s
    else match s.engineArrive q.ctx va w with
    | (s, .done) => done q s
    | (s, .waits) => s
    | (s, .held) => { s with held := s.held ++ [.queue q.ctx q.n] }
    | (s, .failed f) => s.haltQueue q q.current f
    | (s, .sent t) => s.setQueue { q with remote := .sent t }

/-- BARRIER_SIGNAL_ENTRY_TAKE: the entry is taken and its arrival made, of weight ARR (15 R321, R326). -/
def execBarrierSignalEntryTake (ctx : BitVec 10) (n : BitVec 12) (s : State) : Out :=
  .next (s.take ctx n (· = 4) fun q _ e s =>
    s.arriveFor q (bitsOf e.toNat 64 64) (bitsOf e.toNat 128 16) fun q s => s.setQueue { q with remote := .done })

/-- BARRIER_SIGNAL_ENTRY_COMPLETE: the arrival, one that was held or sent before included, is acknowledged. -/
def execBarrierSignalEntryComplete (ctx : BitVec 10) (n : BitVec 12) (s : State) : Out :=
  match s.inProgress ctx n 4 with
  | none => .next s
  | some (q, e) => .next (s.arriveFor q (bitsOf e.toNat 64 64) (bitsOf e.toNat 128 16) fun q s => s.completeEntry q)

/-- A wait entry's condition: met or not, or its read faults; with where a barrier stands (12 R288). -/
def State.waitMet (s : State) (ctx : BitVec 10) (e : Rec64) : State × Except FaultRec Bool :=
  let va := bitsOf e.toNat 128 64
  let word := e.getLsbD 64
  let n := if word then 8 else 64
  if va % n ≠ 0 then (s, .error { code := 0x0303, addr := BitVec.ofNat 64 va })
  else match s.ctxRead ctx false va n with
    | (s, .error f) => (s, .error (accessError f))
    | (s, .ok b) =>
      (s, .ok (if word then bitsOf e.toNat 192 64 ≤ leNat b else barMet (BitVec.ofNat 512 (leNat b)) (e.getLsbD 192)))

/-- WAIT_ENTRY_TAKE. -/
def execWaitEntryTake (ctx : BitVec 10) (n : BitVec 12) (s : State) : Out :=
  .next (s.take ctx n (· = 5) fun q _ e s =>
    match s.waitMet ctx e with
    | (s, .error f) => s.haltQueue q q.current f
    | (s, .ok true) => s
    | (s, .ok false) => s.setQueue (q.to .blocked))

/-- WAIT_SATISFIED. -/
def execWaitSatisfied (ctx : BitVec 10) (n : BitVec 12) (s : State) : Out :=
  match s.inProgress ctx n 5 with
  | none => .next s
  | some (q, e) =>
    match s.waitMet ctx e with
    | (s, .error f) => .next (s.haltQueue q q.current f)
    | (s, .ok true) => .next (s.completeEntry q)
    | (_, .ok false) => .next s

/-- A queue's wait entry awaits a phase of the barrier at a physical address: its notification is outstanding (15 R322). -/
def State.queueWaits (s : State) (pa : Nat) (phase : Bool) : Bool :=
  s.queues.any fun q =>
    match q.entry with
    | none => false
    | some e =>
      entKind e = 5 && !e.getLsbD 64 && e.getLsbD 192 = phase && q.state ≠ .halted &&
        match s.ctxReach q.ctx .read false (bitsOf e.toNat 128 64) with
        | .ok l => s.redirect (s.partOf q.ctx) (l.phys (bitsOf e.toNat 128 64)) = pa
        | .error _ => false

/-! ### LAUNCH and QENTRY (12 R291, R292) -/

/-- Every storage kind. SSC of LAUNCH names what its publication covers, and not the descriptor's storage. -/
def anySsc : Ssc := { l := true, g := true, p := true, t := true }

/-- LAUNCH: a launch entry, with ARGS the value that FD held. -/
def launchBody (h : Head) (o : LaunchOp) : LaneM Unit := do
  let args ← readS o.d
  let (_, va) ← handleAddr o.ad anySsc 64 1 false
  let q ← readS o.q
  let g ← getGroup
  let id ← nextId
  let dest ← reserveDest o.d id
  let scope := if o.done = 0 then 3 else o.done.toNat
  let e : Rec64 := BitVec.ofNat 512 (1 + 2 ^ 8 * g.pri.toNat + 2 ^ 16 * scope + (if o.pre then 2 ^ 19 else 0) + 2 ^ 64 * va.toNat +
    2 ^ 128 * args.toNat)
  issueAccess (freshAccess h id (← curSlot) (← curBundle) (.append q e) .g o.o dest)

/-- QENTRY: the template is copied at issue, once no earlier acquire over L holds it (06 R133). -/
def qentryBody (h : Head) (o : QEntryOp) : LaneM Unit := do
  let a ← readS o.fa
  let q ← readS o.q
  let off : Int := a.toInt + o.off.toInt
  let at' ← checkLocalRead off 64
  guardFault (off % 64 = 0) (alignFault off)
  guardStall (!rangeStalls (← getCore) false at' 64)
  guardOrder h .l noOrder
  let t := lsNat (← getCore) at' 64
  let id ← nextId
  let dest ← reserveDest o.d id
  issueAccess (freshAccess h id (← curSlot) (← curBundle) (.append q (BitVec.ofNat 512 t)) .g o.o dest)

def execLaunch (h : Head) (o : LaunchOp) (s : State) : Out := lane h (launchBody h o) s

def execQentry (h : Head) (o : QEntryOp) (s : State) : Out := lane h (qentryBody h o) s

/-- How an append ends: its status word; or a fault of the ring's memory. -/
inductive AppendEnd
  | status (w : Nat)
  | fault (f : FaultRec)
  deriving DecidableEq, Repr

/-- An entry appended to a queue by a core as R285 gives: an index reserved, the entry written with its stamp, TAIL raised. -/
def State.appendEntry (s : State) (c : CoreId) (ctx : BitVec 10) (qw : Word) (e : Rec64) : State × AppendEnd :=
  let qn := ((s.ctx? ctx).map (·.qn.toNat)).getD 0
  match s.queue? ctx (BitVec.ofNat 12 qw.toNat) with
  | none => (s, .status 2)
  | some q =>
    if qn ≤ qw.toNat || !q.en then (s, .status 2)
    else if q.state = .halted then (s, .status 3)
    else
      let t := s.resv q
      let s := s.touch (s.qdesc ctx q.n) 64
      if q.head.toNat + 2 ^ q.nl ≤ t then (s, .status 1)
      else match s.ctxWrite ctx false (q.entryVa t) (bytesOf (putField e 448 64 t) 0 64) with
        | (s, some f) => (s, .fault f)
        | (s, none) =>
          let d := s.qdesc ctx q.n
          let s := (s.wrNat (d + 24) 8 (t + 1)).wrNat (d + 16) 8 (max (s.tail q) (t + 1))
          let s := s.setQueue { q with state := if q.state = .idle then .armed else q.state, appended := (s.icycles, (coreIdx c).val) }
          (s, .status (2 ^ 32 * (t % 2 ^ 32)))

/-- An append of one cycle comes after those of lower cores for its queue (12 R292). -/
def State.inAppendOrder (s : State) (c : CoreId) (ctx : BitVec 10) (qw : Word) : Bool :=
  (s.queue? ctx (BitVec.ofNat 12 qw.toNat)).all fun q => q.appended.1 ≠ s.icycles || q.appended.2 ≤ (coreIdx c).val

/-- QUEUE_ENGINE_APPEND: the queue engine performs an append once its release allows, and the status is written. A fault of the
ring's memory is raised to the group (log 23). -/
def execQueueEngineAppend (c : CoreId) (id : Nat) (s : State) : Out :=
  let k := s.core c
  match k.access? id, k.ctxId with
  | some a, some ctx =>
    match a.kind with
    | .append qw e =>
      if a.raised || !mayPerform k a || !s.inAppendOrder c ctx qw then .next s
      else
        let s := (if releases a.ord then s.releaseAt c a.asc else s).cross (idieHop c.die)
        match s.appendEntry c ctx qw e with
        | (s, .status w) => .next (s.updCore c fun k => retire a (deliver a (BitVec.ofNat 64 w) k))
        | (_, .fault f) => .next (s.pendOnce c a f)
    | _ => .next s
  | _, _ => .next s

end Sys2Proof.Machine
end

