-- ==== Sys2Proof/Machine/Receive.lean ====
section
/-! DEFINITION. The receiving side of the fabric: the inbound aperture table (17 R364), the checks and the performing of received
write, atomic and request records (R365, R366), duplicates (R355), and landing records (18 R379). -/

namespace Sys2Proof.Machine

open Sys2Proof

/-! ### The inbound aperture table (17 R364) -/

/-- An entry's fields. -/
structure IatEntry where
  w     : Bool
  a     : Bool
  q     : Bool
  lz    : Bool
  wvm   : Bool
  ctx   : BitVec 10
  key   : Fin 16
  sdev  : BitVec 16
  stag  : BitVec 16
  pbase : Nat
  psize : Nat
  wv    : BitVec 32
  deriving DecidableEq, Repr

/-- An entry from its bits; none where V is 0. -/
def iatOf (e : BitVec 256) : Option IatEntry :=
  let v := e.toNat
  if e.getLsbD 0 then
    some { w := e.getLsbD 1, a := e.getLsbD 2, q := e.getLsbD 3, lz := e.getLsbD 4, wvm := e.getLsbD 5
           ctx := BitVec.ofNat 10 (bitsOf v 8 10), key := Fin.ofNat 16 (bitsOf v 18 4), sdev := BitVec.ofNat 16 (bitsOf v 32 16)
           stag := BitVec.ofNat 16 (bitsOf v 48 16), pbase := bitsOf v 64 64, psize := bitsOf v 128 64
           wv := BitVec.ofNat 32 (bitsOf v 192 32) }
  else none

/-- The valid entries that a record's source device and tag match. -/
def State.iatFor (s : State) (r : InRec) : List IatEntry :=
  (s.iat.filterMap fun x => iatOf x.2).filter fun e => e.sdev = r.sdev && e.stag = r.rec_.stag

/-- R365 step 1 for a write or an atomic: a matching entry whose range covers PA to PA + LEN - 1, with the permission. -/
def State.iatMemory (s : State) (r : InRec) (atomic : Bool) : Option IatEntry :=
  let pa := r.rec_.pa.toNat
  (s.iatFor r).find? fun e => e.pbase ≤ pa && pa + r.rec_.len.toNat ≤ e.pbase + e.psize && e.w && (!atomic || e.a)

/-! ### Streams (17 R355, R362, R366) -/

/-- The sending core that a record's tag names (log 13). -/
def recScore (r : OpRecord) : BitVec 9 := r.rtag.setWidth 9

def recE4 (r : OpRecord) : Bool := r.fl.getLsbD 0

/-- The stream of a received record, new ones expecting 0 (log 20). -/
def State.streamOf (s : State) (r : InRec) : Stream :=
  (s.streams.find? fun t => t.sdev = r.sdev && t.score = recScore r.rec_ && t.e4 = recE4 r.rec_).getD
    ⟨r.sdev, recScore r.rec_, recE4 r.rec_, [], 0⟩

def State.setStream (s : State) (t : Stream) : State :=
  { s with streams := t :: s.streams.filter fun x => !(x.sdev = t.sdev && x.score = t.score && x.e4 = t.e4) }

/-- A record whose sequence number its stream has performed is not performed again (17 R355). -/
def Stream.duplicate (t : Stream) (q : BitVec 32) : Bool := t.done.any (·.1 = q)

/-- A record of an e4 stream waits until every earlier one has been dealt with; others do not wait (17 R366). -/
def Stream.inTurn (t : Stream) (q : BitVec 32) : Bool := !t.e4 || (t.next - q).toNat ≤ 4096

/-- A sequence number dealt with: kept as performed within the window of 4096, with the result of its record, if the record was
performed, and the next one awaited. -/
def Stream.passed (t : Stream) (q : BitVec 32) (performed : Option (List Byte)) : Stream :=
  let done := match performed with
    | some b => (q, b) :: t.done.filter fun x => (q - x.1).toNat < 4096 || (x.1 - q).toNat < 4096
    | none => t.done
  { t with done := done, next := if t.next = q then q + 1 else t.next }

/-! ### Answers (17 R355, R362, R365, R368) -/

/-- Records sent in one frame to the other end of a link that has keys. A frame with anything but acknowledgements is kept until it is
acknowledged; `traffic` says that its records count as operation traffic (17 R355, R356). The other end of a die link hears it. -/
def State.answers (s : State) (i : BitVec 11) (rs : List OpRecord) (traffic : Bool) : State :=
  match s.link? i with
  | none => s
  | some l =>
    if l.state == .dark || l.state == .training || l.state == .failed then s
    else
      let now := s.linkClock i
      let f : TxFrame := ⟨l.txki, BitVec.ofNat 48 l.fn, rs.map fun r => ⟨r, 0xFFFF, ⟨nearDie i, 0⟩, 0, 0, 0⟩, 0, now, false, true⟩
      let t : LinkEnd := { l with
        fn := l.fn + 1
        sentAt := now
        trafficAt := if traffic then now else l.trafficAt
        far := { l.far with heardAt := s.farClock i }
        report := none
        tx := if rs.any fun r => r.op ≠ 0x10 then l.tx ++ [f] else l.tx }
      (s.setLink i t).putFrame i l none 0xFFFF rs

def State.answer (s : State) (i : BitVec 11) (r : OpRecord) (traffic : Bool) : State := s.answers i [r] traffic

/-- The record that acknowledges a frame (17 R355). -/
def ackOf (f : Bool × BitVec 48) : OpRecord := plainRecord 0x10 0 (natLe 8 (ackNum f.1 f.2))

/-- A frame acknowledged to its sender (17 R355). -/
def State.ackFrame (s : State) (i : BitVec 11) (f : Bool × BitVec 48) (traffic : Bool) : State := s.answer i (ackOf f) traffic

/-- A received record leaves with its answers; when it was the last of its frame, the frame is acknowledged in the same frame as they
are sent (log 74). -/
def State.finishRec (s : State) (r : InRec) (ans : List OpRecord) : State :=
  let s := { s with inrecs := s.inrecs.erase r }
  match r.link with
  | none => s
  | some i =>
    if s.inrecs.any fun x => x.link = some i && x.frame = r.frame && isRequest x.rec_ then
      if ans.isEmpty then s else s.answers i ans true
    else s.answers i (ans ++ [ackOf r.frame]) true

/-- The core of this package that sent a record. -/
def senderOf (r : OpRecord) : CoreId := (scoreCore r.rtag.toNat).getD ⟨0, 0⟩

/-- A record refused: a nak with a code and a detail (17 R365, 18 R379), and for a barrier that refuses an arrival its COUNT (log 20). -/
def State.refuseWith (s : State) (r : InRec) (code : BitVec 16) (detail cnt : Nat) : State :=
  let s := s.setStream ((s.streamOf r).passed r.rec_.sseq none)
  let d := BitVec.ofNat 8 detail
  let s := match r.link with
    | some _ => s
    | none =>
      let c := senderOf r.rec_
      s.updCore c (nakRec ⟨r.rec_, r.dest, c, 0, 0, 0⟩ code d cnt)
  s.finishRec r [plainRecord 0x11 r.rec_.rtag (natLe 8 (code.toNat + 2 ^ 16 * d.toNat + 2 ^ 24 * cnt))]

def State.refuse (s : State) (r : InRec) (code : BitVec 16) (detail : Nat) : State := s.refuseWith r code detail 0

/-- The result of a performed record, where the record wants one. -/
def resultOf (r : InRec) (result : List Byte) : List OpRecord :=
  if r.rec_.fl.getLsbD 1 then [plainRecord 0x12 r.rec_.rtag result] else []

/-- A record performed, with the result that it wants. -/
def State.performed (s : State) (r : InRec) (result : List Byte) : State :=
  let s := s.setStream ((s.streamOf r).passed r.rec_.sseq (some result))
  let s := match r.link with
    | some _ => s
    | none =>
      let c := senderOf r.rec_
      s.updCore c (ackRec ⟨r.rec_, r.dest, c, 0, 0, 0⟩)
  s.finishRec r (resultOf r result)

/-- A duplicate is acknowledged again and not performed (17 R355); one that wants a result is given the one of its performing again
(log 73). -/
def State.repeated (s : State) (r : InRec) (t : Stream) : State :=
  s.finishRec r (match t.done.find? (·.1 = r.rec_.sseq) with
    | some (_, b) => resultOf r b
    | none => [])

/-- The link that a record came over carries its answers: it is up, or it drains what is outstanding (17 R352; log 88). -/
def State.answerable (s : State) (r : InRec) : Bool :=
  r.link.all fun i => (s.link? i).any fun l => l.state == .up || l.state == .draining

/-- What a received record of a kind meets first: it is absent, waits for its link, its turn or the barrier that holds it, or it is a
duplicate, or it is to be dealt with by `act`. -/
def State.receive (s : State) (k : Nat) (op : BitVec 8) (act : InRec → State → State) : State :=
  match s.inrecs[k]? with
  | none => s
  | some r =>
    let t := s.streamOf r
    if r.rec_.op ≠ op || !s.answerable r || s.isHeld (.record r) then s
    else if t.duplicate r.rec_.sseq then s.repeated r t
    else if !t.inTurn r.rec_.sseq then s
    else act r s

/-! ### Writes and atomics (17 R365) -/

/-- What R365 step 2 finds of a memory address before it is reached: the key slot, and for a far address its port (16 R336). -/
def State.inboundCheck (s : State) (e : IatEntry) (pa : Nat) : Except MemFault KeyTag :=
  let part := s.partOf e.ctx
  match s.keyTag e.ctx e.key with
  | none => .error (memFault 0x030C 1)
  | some k =>
    if s.isFar part pa && (s.ownLine (lineOf pa)).isNone && (s.farPort part pa).any fun p => s.badPorts.getLsbD p then
      .error (poisonFault 1)
    else .ok k

/-- The pieces of a write record written in order; the first fault undoes the record, which is not performed. -/
def State.writePieces (s : State) (e : IatEntry) : List (Nat × Nat) → List Byte → Except MemFault State
  | [], _ => .ok s
  | (a, n) :: rest, b =>
    match s.inboundCheck e a with
    | .error f => .error f
    | .ok k =>
      match s.writeLine (s.partOf e.ctx) ⟨k, e.wv, e.wvm⟩ a (b.take n) with
      | .error f => .error f
      | .ok s => (s.dropCopies [0, 1, 2, 3] (lineOf a)).writePieces e rest (b.drop n)

/-- The length of a record's payload is LEN, and within what R362 gives its kind; a store of fewer than 8 bytes is a write of its own length
(log 52). -/
def recLenOk (r : OpRecord) : Bool :=
  let n := r.len.toNat
  r.payload.length = n && match r.op.toNat with
    | 1 => 1 ≤ n && n ≤ 1024
    | 2 => n = 2 || n = 4 || n = 8 || n = 16
    | 3 => 8 ≤ n && n ≤ 248
    | _ => true

/-- A received record crosses the die link from the I-die to the die that performs it (17 R351, R352). -/
def State.inward (s : State) (d : Fin 4) (r : InRec) : State := if r.link.isSome then s.cross (idieHop d) else s

/-- The die that performs a record's access to memory. -/
def State.recDie (s : State) (e : IatEntry) (pa : Nat) : Fin 4 :=
  let part := s.partOf e.ctx
  s.ordDie part (lineOf (s.redirect part pa))

/-- WRITE_RECORD_PERFORM (17 R365, R366). A record whose length is none that R362 allows is refused with code 0 (log 21). -/
def execWriteRecordPerform (k : Nat) (s : State) : Out :=
  .next (s.receive k 0x01 fun r s =>
    match if recLenOk r.rec_ then s.iatMemory r false else none with
    | none => s.refuse r 0 0
    | some e =>
      let s := s.inward (s.recDie e r.rec_.pa.toNat) r
      match s.writePieces e (piecesOf r.rec_.pa.toNat r.rec_.payload.length) r.rec_.payload with
      | .error f => s.refuse r f.code f.detail
      | .ok s => s.performed r [])

/-- A barrier action from the payload of an atomic record (log 18). -/
def barOfPayload (init : Bool) (p : List Byte) : BarOp :=
  let a := leNat (p.take 8)
  let b := leNat ((p.drop 8).take 8)
  if init then .init (if bitsOf b 0 3 = 3 then .count else .group) (b.testBit 3) (BitVec.ofNat 64 a)
  else .arrive (BitVec.ofNat 16 a) (if b.testBit 0 then some (b.testBit 1) else none) false

/-- Who makes the arrival of a payload: a peer's queue engine, or its program (15 R321, R326; log 18). -/
def arriverOf (p : List Byte) : Arriver := if (leNat ((p.drop 8).take 8)).testBit 2 then .queue else .program

/-- A barrier action of a received atomic record. An arrival that finds the barrier resetting is held there (15 R322). -/
def State.inboundBar (s : State) (r : InRec) (e : IatEntry) (k : KeyTag) (op : BarOp) : State :=
  match s.barAct (s.partOf e.ctx) ⟨k, e.wv, e.wvm⟩ r.rec_.pa.toNat (arriverOf r.rec_.payload) op with
  | (s, .fault f) => s.refuse r f.code f.detail
  | (s, .refused case cnt) => s.refuseWith r 0x0501 case cnt
  | (s, .held) => { s with held := s.held ++ [.record r] }
  | (s, .done v) => (s.dropCopies [0, 1, 2, 3] (lineOf r.rec_.pa.toNat)).performed r (natLe 8 v.toNat)

/-- An ordinary atomic of a received record, under R138 at the ordering point. -/
def State.inboundAtomic (s : State) (r : InRec) (e : IatEntry) (k : KeyTag) (op : AOp) (ty : Fmt) : State :=
  let b := leNat (r.rec_.payload.take ty.bytes)
  let x := leNat ((r.rec_.payload.drop ty.bytes).take ty.bytes)
  match s.atomicLine (s.partOf e.ctx) ⟨k, e.wv, e.wvm⟩ r.rec_.pa.toNat op ty b x with
  | (s, .error f) => s.refuse r f.code f.detail
  | (s, .ok old) => (s.dropCopies [0, 1, 2, 3] (lineOf r.rec_.pa.toNat)).performed r (natLe ty.bytes old)

/-- A received atomic record performed (17 R365). A record whose operation or type has no meaning is refused with code 0 (log 21). -/
def State.atomicRecord (s : State) (r : InRec) : State :=
  match if recLenOk r.rec_ then s.iatMemory r true else none with
  | none => s.refuse r 0 0
  | some e =>
    let s := s.inward (s.recDie e r.rec_.pa.toNat) r
    match s.inboundCheck e r.rec_.pa.toNat with
    | .error f => s.refuse r f.code f.detail
    | .ok key =>
      let n := r.rec_.aop.toNat
      if n = barAopCode true then s.inboundBar r e key (barOfPayload true r.rec_.payload)
      else if n = barAopCode false then s.inboundBar r e key (barOfPayload false r.rec_.payload)
      else match AOp.ofNum n, Fmt.ofCode r.rec_.ty.toNat with
        | some op, some ty => s.inboundAtomic r e key op ty
        | _, _ => s.refuse r 0 0

/-- ATOMIC_RECORD_PERFORM (17 R365, R366). -/
def execAtomicRecordPerform (k : Nat) (s : State) : Out := .next (s.receive k 0x02 fun r s => s.atomicRecord r)

/-! ### Request records (17 R365, R369) -/

/-- The ring that a request record's DEST names, of a group of an entry's context that the core runs. -/
def State.requestRing (s : State) (r : InRec) : Option (CoreId × Region) :=
  let d := r.dest.toNat
  match coreOfWord (bitsOf d 0 7) (bitsOf d 7 2) with
  | none => none
  | some c =>
    if 15 < bitsOf d 9 7 then none
    else ((s.iatFor r).filter (·.q)).findSome? fun e => (s.ringOf e.ctx c (bitsOf d 9 7)).map fun x => (c, x)

/-- REQUEST_RECORD_APPEND (17 R365, 06 R154): a full ring refuses the record with detail 1 (log 14). -/
def execRequestRecordAppend (k : Nat) (s : State) : Out :=
  .next (s.receive k 0x03 fun r s =>
    match if recLenOk r.rec_ then s.requestRing r else none with
    | none => s.refuse r 0 0
    | some (c, x) =>
      let s := s.inward c.die r
      let from' := (recScore r.rec_).toNat % 128
      let (k, ok) := ringAppend (s.core c) x (ringHeader r.rec_.len.toNat from' 0xFF r.sdev.toNat) r.rec_.payload
      let s := s.setCore c k
      if ok then s.performed r [] else s.refuse r 0 1)

/-! ### Landing records (18 R379) -/

/-- Subcode 1: the record belongs to the context of the group on the destination core. -/
def State.landsIn (s : State) (r : InRec) (ctx : BitVec 10) : Bool :=
  match r.link with
  | some _ => (s.iatFor r).any fun e => e.lz && e.ctx = ctx
  | none =>
    let k := s.core (senderOf r.rec_)
    k.runsGroup && k.ctxId = some ctx

/-- Subcode 4: the reservation and the sender are the slot's. Within the package the slot holds no tag. -/
def slotMatches (r : InRec) (b : Rec64) : Bool :=
  slotRsv b = bitsOf r.rec_.pa.toNat 0 16 && slotSdev b = r.sdev.toNat &&
    slotStag b = (if r.link.isNone then 0 else r.rec_.stag.toNat) && slotScore b = (recScore r.rec_).toNat

/-- The first check of R379 that fails, from subcode 2 on. -/
def landCheck (k : Core) (r : InRec) : Nat :=
  let ep := bitsOf r.dest.toNat 9 7
  let z := Fin.ofNat 16 ep
  let j := bitsOf r.rec_.pa.toNat 16 6
  let off := bitsOf r.rec_.pa.toNat 32 9
  let n := r.rec_.len.toNat
  let b := k.slotRec z j
  if ep < 0x10 || 0x1F < ep || k.layout.slots z ≤ j then 2
  else if !awaitsLanding b then 3
  else if !slotMatches r b then 4
  else if off ≠ barCount b || barTarget b < barCount b + n / 64 then 5
  else if n < 64 || 1024 < n || n % 64 ≠ 0 then 6
  else 0

/-- Arrivals of weight 1 at a slot's barrier, one after another (15 R322). -/
def slotArrive : Nat → Rec64 → Rec64
  | 0, b => b
  | n + 1, b =>
    match barArrive .interface 1 none b with
    | .moved x _ => slotArrive n x
    | _ => b

/-- A landing record accepted: its bytes, its arrivals and the move of its slot, in one action. -/
def landRecord (r : InRec) (k : Core) : Core :=
  let z := Fin.ofNat 16 (bitsOf r.dest.toNat 9 7)
  let j := bitsOf r.rec_.pa.toNat 16 6
  let k := lsWrite (k.layout.slotData z j + 64 * bitsOf r.rec_.pa.toNat 32 9) r.rec_.payload k
  let b := slotArrive (r.rec_.len.toNat / 64) (k.slotRec z j)
  k.putSlotRec z j (putSst b (if barState b = 2 then sstArrived else sstFilling))

/-- LANDING_RECORD_RECEIVE (18 R379). A refused record's beats are counted in the zone it names, where the group declares it. -/
def execLandingRecordReceive (k : Nat) (s : State) : Out :=
  .next (s.receive k 0x04 fun r s =>
    let d := r.dest.toNat
    match coreOfWord (bitsOf d 0 7) (bitsOf d 7 2) with
    | none => s.refuse r 0 1
    | some c =>
      let s := s.inward c.die r
      let core := s.core c
      if !(core.runsGroup && core.ctxId.any fun x => s.landsIn r x) then s.refuse r 0 1
      else
        let sub := landCheck core r
        if sub = 0 then (s.updCore c (landRecord r)).performed r []
        else
          let ep := bitsOf d 9 7
          let z := Fin.ofNat 16 ep
          let s := if 0x10 ≤ ep && ep ≤ 0x1F && 0 < core.layout.slots z then s.updCore c (countRefused z (r.rec_.len.toNat / 64)) else s
          s.refuse r 0 sub)

/-! ### A barrier open again (15 R322) -/

/-- The virtual address of the arrival that a queue's entry makes: of a barrier-signal entry, or the completion barrier of its launch. -/
def State.arrivalVa (s : State) (q : QueueRun) (e : Rec64) : Nat :=
  if entKind e = 4 then bitsOf e.toNat 64 64
  else ((s.launches.find? fun l => l.ctx = q.ctx && l.queue = q.n).map (·.dbar.toNat)).getD 0

/-- Whether a held arrival stands at the barrier at a physical address; one that can no longer be traced there goes back to where it came
from, which makes it again. -/
def State.heldAt (s : State) (pa : Nat) (h : Held) : Bool :=
  match h with
  | .access c id =>
    match ((s.core c).access? id).bind fun a => a.parts.head? with
    | none => true
    | some p =>
      match s.partLeaf c p.va.toNat with
      | none => true
      | some (l, x) => s.redirect (s.partOf x) (l.phys p.va.toNat) = pa
  | .queue ctx n =>
    match (s.queue? ctx n).bind fun q => q.entry.map fun e => s.arrivalVa q e with
    | none => true
    | some va =>
      match s.ctxReach ctx .atomic false va with
      | .error _ => true
      | .ok l => s.redirect (s.partOf ctx) (l.phys va) = pa
  | .record r =>
    match s.iatMemory r true with
    | none => true
    | some e => s.redirect (s.partOf e.ctx) r.rec_.pa.toNat = pa

/-- A held arrival applied: an access at its ordering point, the arrival of a queue's entry, or a record of a peer. -/
def State.applyHeld (s : State) (h : Held) : State :=
  match h with
  | .access c id => s.serve ⟨c, id, 0⟩
  | .queue ctx n =>
    match s.queue? ctx n with
    | none => s
    | some q =>
      match q.entry with
      | none => s
      | some e =>
        let w := if entKind e = 4 then bitsOf e.toNat 128 16 else 1
        s.arriveFor q (s.arrivalVa q e) w fun q s => s.setQueue { q with remote := .done }
  | .record r => if s.inrecs.contains r && s.answerable r then s.atomicRecord r else s

/-- The barrier at a physical address, as memory holds it. -/
def State.barAt (s : State) (pa : Nat) : Rec64 := BitVec.ofNat 512 (s.rdNat pa 64)

/-- The notification of a trip is still to be delivered to a wait entry, or to a BARWAIT whose slot may issue (15 R322). -/
def State.notifying (s : State) (pa : Nat) : Bool :=
  let ph := barPhase (s.barAt pa)
  s.queueWaits pa ph ||
    allCores.any fun c => (s.core c).mayIssue .a && ((s.core c).slot .a).blk == some (.barrier pa ph)

/-- BARRIER_REOPEN (15 R322): a resetting barrier whose waiters are notified is open again, and the arrivals held there are applied
in the order in which they came. -/
def execBarrierReopen (pa : BitVec 52) (s : State) : Out :=
  if !s.resetting.contains pa.toNat || s.notifying pa.toNat then .next s
  else
    let (mine, rest) := s.held.partition (s.heldAt pa.toNat)
    .next (mine.foldl State.applyHeld { s.reopenLine pa.toNat with held := rest })

end Sys2Proof.Machine
end

