-- ==== Sys2Proof/Machine/Fetch.lean ====
section
/-! DEFINITION. Fetching a bundle (02 R26, 13 R306) and placing one where a step fetches it. -/

namespace Sys2Proof.Machine

open Sys2Proof

/-- The address of the bundle at an index: CODE + 64 * PC (13 R306). -/
def bundleAddr (g : GroupInfo) (pc : BitVec 32) : Nat := g.code.toNat + 64 * pc.toNat

/-- The instruction-fetch fault (02 R26, 14 R312). -/
def fetchFault (g : GroupInfo) (pc : BitVec 32) : FaultRec := { code := 0x0103, addr := BitVec.ofNat 64 (bundleAddr g pc) }

/-- The bundle at a slot's PC, read with read permission; past the end of the image, or on any fault of the read, the
instruction-fetch fault. -/
def State.fetch (s : State) (c : CoreId) (g : GroupInfo) (pc : BitVec 32) : State × Except FaultRec Bundle :=
  if g.nbund ≤ pc.toNat then (s, .error (fetchFault g pc))
  else match s.readVa c g.ctx {} (bundleAddr g pc) 64 with
    | (s, .error _) => (s, .error (fetchFault g pc))
    | (s, .ok b) => (s, .ok (BitVec.ofNat 512 (leNat b)))

/-- The malformed-bundle fault: the four SY bits (04 R97). -/
def malformedFault (b : Bundle) : FaultRec := { code := 0x0102, aux := (syBits b).setWidth 64 }

/-- The SY bits of a bundle agree. -/
def syAgrees (b : Bundle) : Bool := syBits b = 0 || syBits b = 0xF

/-- A slot reaches a sync bundle: its arrival is noted once, and it waits (02 R28, R30). -/
def arriveSync (s : State) : State :=
  s.updCore s.cur.1 (·.updSlot s.cur.2 fun t =>
    { t with blk := some .plain, arrived := some (t.arrived.getD (s.cycle s.cur.1.die)) })

/-- The illegal-instruction fault of one lane (04 R97). -/
def illegalFault (sl : Slot) : FaultRec := { code := 0x0101, aux := BitVec.ofNat 64 (2 ^ (Slot.fin sl).val) }

/-- Time passes: each die's cycle counter and the I-die's advance by a free amount (01 R21, log 8). -/
def State.passTime (s : State) : State :=
  { s with
    tick := s.tick + 1
    cycles := Vector.ofFn fun d => s.cycles[d] + Config.elapsed s.tick d.val
    icycles := s.icycles + Config.elapsed s.tick 4
    scycles := Vector.ofFn fun d => s.scycles[d] + Config.elapsed s.tick (5 + d.val) }

/-- The operations and events of the part: every row that is no lane word (spec/95). -/
def isEvent (i : Instr) : Bool := (Sys2Proof.Instr.lane .c i).isNone

/-! ### A place for one bundle -/

/-- A context in the active state, one 64 KiB near page at address 0 and one group on core 0 of die 0 (log 6). -/
def probeCtx : Context where
  id := 0
  state := .active
  desc := 0
  view := 0
  dev := 0
  strict := false
  priMax := 255
  part := 0
  hroot := 0x10000
  troot := 0x40000
  proot := 0xC0000
  qroot := 0xD0000
  qn := 1
  saveB := 0x100000
  saveS := 0x9000
  errB := 0x8000000
  errN := 64
  rzb := 1024
  pfb := 1024
  peb := 1024
  kdrop := 0
  errDrop := 0
  keys := (Vector.replicate 16 none).set 0 (some 0)
  digests := Vector.replicate 16 none
  fabTag := none
  lost := []
  destroyed := []
  errTail := 0

def probePart : List PartRec :=
  (List.finRange 4).map fun d => ⟨d, 0, BitVec.allOnes 96, BitVec.allOnes 64, BitVec.allOnes 32, BitVec.allOnes 32, 0, 0, 0, 0⟩

def probeLayout : Layout where
  window := 0x20000
  spill := ⟨0, 0⟩
  records := ⟨0x10000, 0x1000⟩
  rings := Vector.replicate 16 ⟨0, 0⟩
  zones := Vector.replicate 16 ⟨0, 0⟩

def probeGroup : GroupInfo where
  ctx := 0
  queue := 0
  entry := 0
  g := 0
  serial := 0
  placed := 0
  pri := 0
  asc := .device
  code := 0
  nbund := 1
  nrec := 1
  regs := 256
  accs := 8
  tbud := 1024
  layout := probeLayout
  strict := false
  rzb := 1024
  pfb := 1024
  peb := 1024

/-- The leaf of the page that holds the bundle: near, readable and writable, key slot 0, rewrite mode. -/
def probeLeaf : Leaf := ⟨0, 65536, 0xE0000, 3, 0x41D⟩

def probeCore (k : Core) : Core :=
  { k with
    stat := .running
    grp := some probeGroup
    pre := none
    leaves := [probeLeaf]
    slots := k.slots.map fun t => { t with pc := 0, ended := false, blk := none, arrived := none } }

/-- A bundle in memory under key slot 0 of context 0, a group that runs it on core 0 of die 0, and the slot that moves next. -/
def State.placeBundle (s : State) (sl : Slot) (b : Bundle) : State :=
  ({ s with
    agenda := [.issue ⟨0, 0⟩ sl]
    ctxs := [probeCtx]
    parts := probePart
    mem := memSets s.mem 0 (bytesOf b 0 64)
    lmeta := [⟨0, ⟨0, 0, 0⟩, 0⟩]
    poison := []
    slices := [] }).updCore ⟨0, 0⟩ probeCore

/-- A lane word whose bits but SY are those of NOP. -/
def nopWith (sy : Bool) : LaneWord := if sy then BitVec.ofNat 128 (2 ^ 115) else 0

/-- A bundle with one lane word in its slot and NOP in the others, SY agreeing. -/
def bundleWith (sl : Slot) (w : LaneWord) : Bundle :=
  let n := nopWith (syBit w)
  match sl with
  | .c => bundleOf w n n n
  | .a => bundleOf n w n n
  | .v => bundleOf n n w n
  | .m => bundleOf n n n w

end Sys2Proof.Machine
end

