-- ==== Sys2Proof/Machine/Drain.lean ====
section
/-! DEFINITION. Cores and contexts given up: a core cleared of a context's lines (08 R220), and the end of a draining context (11
R273). -/

namespace Sys2Proof.Machine

open Sys2Proof

/-- A core cleared for another context: its lines are written back and invalidated, and its local store is zero (08 R220, 11
R273). -/
def State.clearCore (s : State) (c : CoreId) : State :=
  let s := (s.core c).lines.foldl (fun s l => if l.dirty then (s.writeTile c l).1 else s) s
  s.updCore c fun k => { k with lines := [], ls := [], leaves := [], nonleaf := [] }

/-- The groups of a context that hold cores. -/
def State.holders (s : State) (ctx : BitVec 10) : Nat := (allCores.filter fun c => ((s.core c).grp).any (·.ctx = ctx)).length

/-- The lines of a context that slices hold, written back and dropped. -/
def State.flushSlices (s : State) (ctx : BitVec 10) : State :=
  (s.slices.filter fun l => l.key.any (·.ctx = ctx)).foldl (fun s l => s.evictLine l.die l.line) s

/-- Every key of a context erased. -/
def Context.eraseKeys (x : Context) : Context :=
  { x with
    keys := Vector.replicate 16 none
    digests := Vector.replicate 16 none
    lost := []
    destroyed := x.destroyed ++ (List.finRange 16).filter fun n => (x.keys[n]).isSome }

/-- Every queue of a context halted, its entry in progress given up. -/
def State.haltAll (s : State) (ctx : BitVec 10) : State :=
  (s.queues.filter (·.ctx = ctx)).foldl (fun s q =>
    s.setQueue { q with state := .halted, kept := .halted, entry := none, remote := .none }) s

/-- A group of the context is running, saved or still to run; a launch that completes counts until it has. -/
def State.hasGroups (s : State) (ctx : BitVec 10) : Bool :=
  0 < s.holders ctx || s.saved.any (·.ctx = ctx) || s.placed.any (·.ctx = ctx) ||
    s.launches.any fun l => l.ctx = ctx && l.stage != .versioning && l.stage != .advanced

/-- R273: a draining context without groups left is destroyed: its lines are written back and invalidated, its keys erased and its
queues halted. -/
def State.finishDrain (s : State) (ctx : BitVec 10) : State :=
  if !(s.ctx? ctx).any (fun x => x.state = .draining) || s.hasGroups ctx then s
  else
    let s := allCores.foldl (fun s c => if (s.core c).owner = some ctx then s.clearCore c else s) s
    let s := (s.flushSlices ctx).haltAll ctx
    State.updCtx { s with launches := s.launches.filter (·.ctx ≠ ctx) } ctx fun x => { x.eraseKeys with state := .destroyed }

end Sys2Proof.Machine
end

