-- ==== Sys2Proof/Machine/Launch.lean ====
section
/-! DEFINITION. Launches (12 R289, 13 R296 to R302, R307): the kernel descriptor and its checks, write versions, the walk of the loop
table, the stages of a launch and its completion. -/

namespace Sys2Proof.Machine

open Sys2Proof

/-! ### Fields of the kernel descriptor (13 R296) -/

def kdCode (d : Rec128) : Nat := bitsOf d.toNat 0 64
def kdNb (d : Rec128) : Nat := bitsOf d.toNat 64 32
def kdEntry (d : Rec128) : Nat := bitsOf d.toNat 96 32
def kdRecs (d : Rec128) : Nat := bitsOf d.toNat 128 64
def kdNrec (d : Rec128) : Nat := bitsOf d.toNat 192 13
def kdRegs (d : Rec128) : Nat := bitsOf d.toNat 208 9
def kdAcc (d : Rec128) : Nat := bitsOf d.toNat 217 4
def kdTbud (d : Rec128) : Nat := bitsOf d.toNat 224 11
def kdLaya (d : Rec128) : Nat := bitsOf d.toNat 256 64
def kdLsw (d : Rec128) : Nat := bitsOf d.toNat 320 4
def kdLayn (d : Rec128) : Nat := bitsOf d.toNat 328 6
def kdOvfb (d : Rec128) : Nat := bitsOf d.toNat 384 64
def kdCmin (d : Rec128) : Nat := bitsOf d.toNat 448 14

/-- A field of loop level l (13 R298). -/
def kdLevel (d : Rec128) (l lo w : Nat) : Nat := bitsOf d.toNat (512 + 64 * l + lo) w

def kdCount (d : Rec128) (l : Nat) : Nat := kdLevel d l 0 32
def kdKind (d : Rec128) (l : Nat) : Nat := kdLevel d l 32 2
def kdLarg (d : Rec128) (l : Nat) : Bool := kdLevel d l 34 1 = 1
def kdOrder (d : Rec128) (l : Nat) : Nat := kdLevel d l 36 3

/-- The eight levels. -/
def levelNums : List Nat := List.range 8

/-! ### The checks of R299 -/

/-- A failed check: FIELD and AUX of the error record. -/
structure Refused where
  field : Nat
  aux   : Nat
  deriving DecidableEq, Repr

/-- A check: its failure where the condition holds. -/
def failIf (b : Bool) (field : Nat) (aux : Nat := 0) : List Refused := if b then [⟨field, aux⟩] else []

/-- The reserved fields of a descriptor, as first bit and width. -/
def kdReserved : List (Nat × Nat) := [(205, 3), (221, 3), (235, 21), (324, 4), (334, 50), (462, 50)]

/-- Reserved fields and limits of R296 to R298. -/
def kdLimits (d : Rec128) : List Refused :=
  kdReserved.flatMap (fun f => failIf (bitsOf d.toNat f.1 f.2 ≠ 0) f.1) ++
    levelNums.flatMap (fun l => failIf (kdLevel d l 35 1 ≠ 0) (547 + 64 * l) ++ failIf (kdLevel d l 39 25 ≠ 0) (551 + 64 * l) ++
      failIf (kdLarg d l && kdCount d l ≠ 0) (512 + 64 * l)) ++
    failIf (kdCode d % 64 ≠ 0) 0 ++ failIf (kdNb d = 0 || 2 ^ 24 < kdNb d) 64 ++ failIf (kdNb d ≤ kdEntry d) 96 ++
    failIf (kdNrec d ≠ 0 && kdRecs d % 64 ≠ 0) 128 ++ failIf (4096 < kdNrec d) 192 ++ failIf (256 < kdRegs d) 208 ++
    failIf (8 < kdAcc d) 217 ++ failIf (kdTbud d = 0 || 1024 < kdTbud d) 224 ++
    failIf (kdLayn d ≠ 0 && kdLaya d % 8 ≠ 0) 256 ++ failIf (kdLsw d = 0 || 8 < kdLsw d) 320 ++ failIf (40 < kdLayn d) 328 ++
    failIf (kdOvfb d % 4096 ≠ 0) 384 ++ failIf (8192 < kdCmin d) 448

/-- The level rules of R299. -/
def kdLevels (d : Rec128) (args : Nat) : List Refused :=
  levelNums.flatMap fun l =>
    let bit := 512 + 64 * l
    let below := fun (p : Nat → Bool) => (List.range l).any p
    failIf (kdKind d l = 0 && kdCount d l ≠ 0) bit ++
      failIf (kdKind d l = 3 && below fun m => kdKind d m = 3) (bit + 32) ++
      failIf ((kdKind d l = 0 && kdLarg d l) || (kdLarg d l && args = 0)) (bit + 34) ++
      failIf ((kdKind d l ≤ 1 && kdOrder d l ≠ 0) ||
        (2 ≤ kdKind d l && below fun m => 2 ≤ kdKind d m && kdOrder d m = kdOrder d l)) (bit + 36)

/-- An entry of the layout table (13 R297): start and size in bytes, kind and number. -/
structure LayEnt where
  lo   : Nat
  size : Nat
  kind : Nat
  idx  : Nat
  high : Nat
  deriving DecidableEq, Repr

def layEnt (w : Nat) : LayEnt := ⟨4096 * bitsOf w 0 16, 4096 * bitsOf w 16 16, bitsOf w 32 8, bitsOf w 40 8, bitsOf w 48 16⟩

/-- An entry with its number. -/
def numbered {α : Type} (l : List α) : List (Nat × α) := (List.range l.length).zip l

/-- A layout entry with a reserved pattern or outside the limits of R297. -/
def layLimits (l : List LayEnt) : List Refused :=
  (numbered l).flatMap fun (j, e) =>
    failIf (e.high ≠ 0 || e.kind = 0 || 4 < e.kind || e.size = 0 || 15 < e.idx || (e.kind ≤ 2 && e.idx ≠ 0)) 256 j

/-- R47: regions past the window, overlapping, or repeated. -/
def layRegions (lsw : Nat) (l : List LayEnt) : List Refused :=
  (numbered l).flatMap fun (j, e) =>
    failIf (131072 * lsw < e.lo + e.size || (l.take j).any fun o =>
      (o.lo < e.lo + e.size && e.lo < o.lo + o.size) || (o.kind = e.kind && (e.kind ≤ 2 || o.idx = e.idx))) 256 j

/-- A ring's ENTRIES outside 1 to 4095, or a zone without a slot. -/
def layCounts (l : List LayEnt) : List Refused :=
  (numbered l).flatMap fun (j, e) =>
    failIf ((e.kind = 3 && ((e.size - 64) / 256 = 0 || 4095 < (e.size - 64) / 256)) || (e.kind = 4 && e.size < 36864)) 256 j

/-- The level at which the running product of the spatial counts, outermost first, first reaches 2^48. -/
def bigLevelFrom : List (Nat × Nat) → Nat → List Refused
  | [], _ => []
  | (l, c) :: rest, p => if 2 ^ 48 ≤ p * c then [⟨512 + 64 * l, 0⟩] else bigLevelFrom rest (p * c)

/-- The check on the product of the spatial counts: a product with a count of zero is zero (13 R299). -/
def bigLevel (l : List (Nat × Nat)) : List Refused := if l.any (·.2 = 0) then [] else bigLevelFrom l 1

/-- The spatial levels of a descriptor by ORDER. -/
def spatialOf (d : Rec128) : List Nat :=
  (List.range 8).flatMap fun o => levelNums.filter fun l => 2 ≤ kdKind d l && kdOrder d l = o

/-- The failure with the lowest FIELD of a check's. -/
def lowest : List Refused → Option Refused
  | [] => none
  | r :: rest =>
    match lowest rest with
    | none => some r
    | some m => if m.field < r.field then some m else some r

/-- The first check that fails, and its failure with the lowest FIELD. -/
def firstRefused : List (List Refused) → Option Refused
  | [] => none
  | c :: rest =>
    match lowest c with
    | some r => some r
    | none => firstRefused rest

/-! ### Layout and levels of a launch -/

def regionOf (l : List LayEnt) (kind idx : Nat) : Region :=
  match l.find? fun e => e.kind = kind && e.idx = idx with
  | none => ⟨0, 0⟩
  | some e => ⟨e.lo, e.size⟩

def layoutOf (d : Rec128) (l : List LayEnt) : Layout where
  window := 131072 * kdLsw d
  spill := regionOf l 1 0
  records := regionOf l 2 0
  rings := Vector.ofFn fun i => regionOf l 3 i.val
  zones := Vector.ofFn fun i => regionOf l 4 i.val

def levelOf (d : Rec128) (args : List Nat) (l : Nat) : Level where
  kind := match kdKind d l with
    | 0 => .unused
    | 1 => .temporal
    | 2 => .cores
    | _ => .dies
  count := if kdLarg d l then args.getD l 0 else kdCount d l
  order := kdOrder d l

/-- The little-endian numbers of `w` bytes in a byte string. -/
def words (w : Nat) : Nat → List Byte → List Nat
  | 0, _ => []
  | n + 1, b => leNat (b.take w) :: words w n (b.drop w)

/-! ### Taking a launch (12 R289, 13 R299) -/

/-- A read of the queue engine for a launch: what it read, or the code of the fault; nothing where it is not needed. -/
def State.launchRead (s : State) (ctx : BitVec 10) (need : Bool) (va n : Nat) : State × Except (BitVec 16) (List Byte) :=
  if !need then (s, .ok [])
  else match s.ctxRead ctx false va n with
    | (s, .error f) => (s, .error f.code)
    | (s, .ok b) => (s, .ok b)

/-- What a read gave, empty where it faulted, and the failure that it means. -/
def readBytes (r : Except (BitVec 16) (List Byte)) : List Byte :=
  match r with
  | .ok b => b
  | .error _ => []

def readFail (r : Except (BitVec 16) (List Byte)) (field : Nat) : List Refused :=
  match r with
  | .ok _ => []
  | .error c => [⟨field, c.toNat⟩]

def readOk (r : Except (BitVec 16) (List Byte)) : Bool := (readFail r 0).isEmpty

/-- The error record of a refused launch. Its FIELD has nine bits (11 R280), and so holds the low nine of R299's number (log 85). -/
def refusedError (kdesc : Nat) (r : Refused) : FaultRec :=
  { code := 0x0601, addr := BitVec.ofNat 64 kdesc, field := BitVec.ofNat 9 r.field, aux := BitVec.ofNat 64 r.aux }

/-- A launch whose checks have passed. -/
def newLaunch (q : QueueRun) (e : Rec64) (d : Rec128) (lay : List LayEnt) (args handles : List Nat) : Launch where
  ctx := q.ctx
  queue := q.n
  entry := BitVec.ofNat 64 q.current
  pri := entPri e
  pre := e.getLsbD 19
  asc := scopeOf (entAsc e)
  kdesc := BitVec.ofNat 64 (bitsOf e.toNat 64 64)
  dbar := BitVec.ofNat 64 (bitsOf e.toNat 320 64)
  desc := d
  levels := Vector.ofFn fun i => levelOf d args i.val
  layout := layoutOf d lay
  handles := (handles.map (BitVec.ofNat 12)).eraseDups
  stage := .versioning
  next := Vector.replicate 4 0
  shared := 0
  started := 0
  ended := 0
  discarded := 0
  claims := []

/-- The entries of a layout table as it was read. -/
def layEnts (d : Rec128) (lay : Except (BitVec 16) (List Byte)) : List LayEnt :=
  if readOk lay then (words 8 (kdLayn d) (readBytes lay)).map layEnt else []

/-- The checks of R299 in their order, over a descriptor with its layout table, its records and its arguments as they were read. -/
def launchChecks (d : Rec128) (args sram : Nat) (lay recs argb : Except (BitVec 16) (List Byte)) (listed : List Refused) :
    List (List Refused) :=
  let ents := layEnts d lay
  let known := fun l => kdKind d l ≠ 0 && (!kdLarg d l || readOk argb)
  let prod := (spatialOf d).map fun l => (l, if known l then (levelOf d (words 4 8 (readBytes argb)) l).count else 1)
  [kdLimits d ++ layLimits ents, kdLevels d args, layRegions (kdLsw d) ents,
    failIf (kdNrec d ≠ 0 && readOk lay && (regionOf ents 2 0).size < 64 * kdNrec d) 192, layCounts ents,
    failIf (131072 * sram < 131072 * kdLsw d + 512 * kdCmin d) 320, bigLevel prod,
    readFail lay 256, readFail recs 128, readFail argb (546 + 64 * ((levelNums.filter (kdLarg d)).headD 0)), listed]

/-- The checks of a descriptor that was read, with the memory that it names. -/
def State.checkLaunch (s : State) (x : Context) (q : QueueRun) (e : Rec64) (d : Rec128) (handles : List Nat) (listed : List Refused) :
    State :=
  let args := bitsOf e.toNat 128 64
  let kdesc := bitsOf e.toNat 64 64
  let (s, lay) := s.launchRead x.id (kdLayn d ≠ 0) (kdLaya d) (8 * kdLayn d)
  let (s, recs) := s.launchRead x.id (kdNrec d ≠ 0) (kdRecs d) (64 * kdNrec d)
  let (s, argb) := s.launchRead x.id (!(levelNums.filter (kdLarg d)).isEmpty && args ≠ 0) args 32
  match firstRefused (launchChecks d args (s.sram x) lay recs argb listed) with
  | some r => s.haltQueue q q.current (refusedError kdesc r)
  | none => { s with launches := s.launches ++ [newLaunch q e d (layEnts d lay) (words 4 8 (readBytes argb)) handles] }

/-- LAUNCH_ENTRY_TAKE (12 R289 step 1): the write list and the descriptor are read and checked. It is also the event that halts a
queue at an entry of a reserved kind. -/
def execLaunchEntryTake (ctx : BitVec 10) (n : BitVec 12) (s : State) : Out :=
  .next (s.take ctx n (fun k => k = 1 || k = 0 || 5 < k) fun q x e s =>
    let wn := bitsOf e.toNat 256 8
    let (s, wl) := s.launchRead ctx (wn ≠ 0) (bitsOf e.toNat 192 64) (2 * wn)
    let handles := if readOk wl then words 2 wn (readBytes wl) else []
    if handles.any (4095 < ·) then s.haltQueue q q.current (entryError q q.current)
    else
      let kdesc := bitsOf e.toNat 64 64
      match s.ctxRead ctx false kdesc 128 with
      | (s, .error f) => s.haltQueue q q.current (refusedError kdesc ⟨0, f.code.toNat⟩)
      | (s, .ok b) => s.checkLaunch x q e (BitVec.ofNat 1024 (leNat b)) handles (readFail wl 0))

/-! ### Stages -/

def State.launch? (s : State) (ctx : BitVec 10) (n : BitVec 12) : Option Launch := s.launches.find? fun l => l.ctx = ctx && l.queue = n

def State.updLaunch (s : State) (ctx : BitVec 10) (n : BitVec 12) (f : Launch → Launch) : State :=
  { s with launches := s.launches.map fun l => if l.ctx = ctx && l.queue = n then f l else l }

def State.dropLaunch (s : State) (ctx : BitVec 10) (n : BitVec 12) : State :=
  { s with launches := s.launches.filter fun l => !(l.ctx = ctx && l.queue = n) }

/-- An earlier launch of the context that lists one of the same handles still runs (12 R289 step 2). -/
def State.interlocked (s : State) (l : Launch) : Bool :=
  (s.launches.takeWhile fun m => !(m.ctx = l.ctx && m.queue = l.queue)).any fun m =>
    m.ctx = l.ctx && m.handles.any fun h => l.handles.contains h

/-- LAUNCH_VERSION_ADVANCE (12 R289 steps 2 to 4; 16 R338): the version of each listed handle in single-write mode advances, or the
launch is refused. The mode is the entry's WVM, whatever its V. -/
def execLaunchVersionAdvance (ctx : BitVec 10) (n : BitVec 12) (s : State) : Out :=
  match s.launch? ctx n, s.queue? ctx n, s.ctx? ctx with
  | some l, some q, some x =>
    if l.stage ≠ .versioning then .next s
    else if s.interlocked l then .next (s.setQueue (q.to .blocked))
    else
      let at' := fun (h : BitVec 12) => x.hroot.toNat + 32 * h.toNat
      let s := l.handles.foldl (fun s h => s.touch (at' h) 32) s
      let single := l.handles.filter fun h => s.rdNat (at' h) 1 / 8 % 2 = 0
      match single.find? fun h => s.rdNat (at' h + 24) 4 = 0xFFFFFFFF with
      | some h => .next ((s.haltQueue q q.current (refusedError l.kdesc.toNat ⟨0, h.toNat⟩)).dropLaunch ctx n)
      | none =>
        let s := single.foldl (fun s h => s.wrNat (at' h + 24) 4 (s.rdNat (at' h + 24) 4 + 1)) s
        .next ((s.setQueue (q.to .running)).updLaunch ctx n fun l => { l with stage := .advanced })
  | _, _, _ => .next s

/-! ### The walk (13 R300 to R302) -/

/-- The spatial levels, outermost first. -/
def Launch.spatial (l : Launch) : List (Nat × Level) :=
  let num := (List.finRange 8).map fun i => (i.val, l.levels[i])
  (List.range 8).flatMap fun o => num.filter fun x => (x.2.kind == .cores || x.2.kind == .dies) && x.2.order = o

/-- How many groups the launch has. -/
def Launch.total (l : Launch) : Nat := (l.spatial.map (·.2.count)).foldl (· * ·) 1

/-- The index of each spatial level for group g, with how many groups one value of it spans. -/
def walkIdx : List (Nat × Level) → Nat → List (Nat × Nat × Nat)
  | [], _ => []
  | (n, v) :: rest, g =>
    let inner := (rest.map (·.2.count)).foldl (· * ·) 1
    (n, g / inner % v.count, inner) :: walkIdx rest g

/-- What s0 to s7 are preloaded with (13 R301). -/
def Launch.preload (l : Launch) (g : Nat) (i : Fin 8) : Word :=
  match l.levels[i].kind with
  | .unused => 0
  | .temporal => BitVec.ofNat 64 l.levels[i].count
  | _ => BitVec.ofNat 64 (((walkIdx l.spatial g).find? (·.1 = i.val)).map (·.2.1) |>.getD 0)

/-- The level that is spatial over dies. -/
def Launch.dieLevel (l : Launch) : Option Nat := (l.spatial.find? fun x => x.2.kind == .dies).map (·.1)

/-- The die of a group, where the walk fixes it (13 R302). -/
def Launch.dieOf (l : Launch) (x : Context) (g : Nat) : Option (Fin 4) :=
  match l.dieLevel with
  | none => none
  | some n =>
    let i := (((walkIdx l.spatial g).find? (·.1 = n)).map (·.2.1)).getD 0
    x.dies[i % x.dies.length]?

/-- The first group from g on that the walk puts on a die. Its index changes at multiples of what one value spans. -/
def Launch.seek (l : Launch) (x : Context) (d : Fin 4) (inner : Nat) : Nat → Nat → Option Nat
  | 0, _ => none
  | fuel + 1, g =>
    if l.total ≤ g then none
    else if l.dieOf x g = some d then some g
    else l.seek x d inner fuel ((g / inner + 1) * inner)

/-- The next pending group of a die: of its own sequence, or of the shared one (13 R303). -/
def Launch.pendingOn (l : Launch) (x : Context) (d : Fin 4) : Option Nat :=
  match l.dieLevel with
  | none => if l.shared < l.total then some l.shared else none
  | some n =>
    let inner := (((walkIdx l.spatial 0).find? (·.1 = n)).map (·.2.2)).getD 1
    l.seek x d inner 10 l.next[d]

/-- A group taken from the pending ones of a die. -/
def Launch.takeGroup (l : Launch) (d : Fin 4) (g : Nat) : Launch :=
  match l.dieLevel with
  | none => { l with shared := g + 1 }
  | some _ => { l with next := l.next.set d (g + 1) }

/-- Groups are pending. -/
def Launch.hasPending (l : Launch) (x : Context) : Bool := (List.finRange 4).any fun d => (l.pendingOn x d).isSome

/-- LAUNCH_DISPATCH (12 R289 step 5): Geyser begins to place the groups; a launch without groups completes at once (13 R307). -/
def execLaunchDispatch (ctx : BitVec 10) (n : BitVec 12) (s : State) : Out :=
  match s.launch? ctx n with
  | none => .next s
  | some l =>
    if l.stage ≠ .advanced || !(s.ctx? ctx).any (fun x => x.state = .active) then .next s
    else .next (s.updLaunch ctx n fun l => { l with stage := if l.total = 0 then .completing else .dispatching })

/-! ### The end of groups and launches (13 R307, 12 R293, R294) -/

/-- A launch whose last group has ended completes; a faulted one whose started groups have ended halts its queue. -/
def State.settleLaunch (s : State) (ctx : BitVec 10) (n : BitVec 12) : State :=
  match s.launch? ctx n, s.queue? ctx n with
  | some l, some q =>
    if l.stage = .faulted && l.started ≤ l.ended then
      ((s.haltQueue q l.entry.toNat (entryError q l.entry.toNat)).dropLaunch ctx n).finishDrain ctx
    else if l.stage = .running && l.started ≤ l.ended && !(s.placed.any fun p => p.ctx = ctx && p.queue = n) then
      s.updLaunch ctx n fun l => { l with stage := .completing }
    else s
  | _, _ => s

/-- A group of a launch has ended. -/
def State.endGroup (s : State) (ctx : BitVec 10) (n : BitVec 12) : State :=
  (s.updLaunch ctx n fun l => { l with ended := l.ended + 1 }).settleLaunch ctx n

/-- A launch becomes faulted: no further group is placed, and those placed and not started are discarded (13 R307). -/
def State.faultLaunch (s : State) (ctx : BitVec 10) (n : BitVec 12) : State :=
  let mine := s.placed.filter fun p => p.ctx = ctx && p.queue = n
  { s.updLaunch ctx n fun l => { l with stage := .faulted, discarded := l.discarded + mine.length } with
    placed := s.placed.filter fun p => !(p.ctx = ctx && p.queue = n) }

/-- LAUNCH_COMPLETE (12 R293): every group has completed; the arrival at DBAR is made and acknowledged, and DONE advances. -/
def execLaunchComplete (ctx : BitVec 10) (n : BitVec 12) (s : State) : Out :=
  match s.launch? ctx n, s.queue? ctx n with
  | some l, some q =>
    if l.stage ≠ .completing then .next s
    else if l.dbar = 0 then .next (((s.completeEntry q).dropLaunch ctx n).finishDrain ctx)
    else
      let s := s.arriveFor q l.dbar.toNat 1 fun q s => (s.completeEntry q).dropLaunch ctx n
      .next ((if (s.queue? ctx n).any (·.state = .halted) then s.dropLaunch ctx n else s).finishDrain ctx)
  | _, _ => .next s

end Sys2Proof.Machine
end

