-- ==== Sys2Proof/Machine/Geyser.lean ====
section
/-! DEFINITION. Geyser and the die dispatchers: batches (13 R303), the choice of pre-emption victims (12 R290), the save-slot rule
(14 R317), the start of a group (13 R304 to R306, 14 R309) and YIELD (05 R126). -/

namespace Sys2Proof.Machine

open Sys2Proof

/-! ### Cores and save slots -/

/-- A core is free for a group (13 R303). -/
def Core.isFree (k : Core) : Bool := k.stat == .free && k.grp.isNone

/-- A die serves groups: it is in service and no reset of it is under way (17 R348, R358). -/
def State.dieServes (s : State) (d : Fin 4) : Bool := s.chip (.cdie d) = some .inService && s.resets[d].isNone

/-- A core that may take a group: free, enabled (on the TQ-288A the first 72 of a die, 01 R19), and of a die that serves. -/
def State.open (s : State) (c : CoreId) : Bool := c.core.val < s.coresPerDie && s.dieServes c.die && (s.core c).isFree

/-- The victims' cores that are kept for a launch while it has groups to start (12 R290). -/
def State.claimsOf (s : State) (l : Launch) : List CoreId :=
  if l.stage == .dispatching || s.placed.any fun p => p.ctx = l.ctx && p.queue = l.queue then l.claims else []

/-- The core of a victim is kept for the launch that pre-empts it. -/
def State.claimed (s : State) (c : CoreId) : Bool := s.launches.any fun l => (s.claimsOf l).contains c

/-- The cores of a partition on a die that are free for every launch, in ascending order. -/
def State.freeCores (s : State) (part : BitVec 6) (d : Fin 4) : List CoreId :=
  (s.partCores part).filter fun c => c.die = d && s.open c && !s.claimed c

/-- The free cores of a die that are kept for a launch. -/
def State.ownCores (s : State) (part : BitVec 6) (d : Fin 4) (l : Launch) : List CoreId :=
  (s.partCores part).filter fun c => c.die = d && s.open c && l.claims.contains c

/-- F of R303: the free cores of a die less the groups that its dispatcher holds and has not started. -/
def State.freeCount (s : State) (part : BitVec 6) (d : Fin 4) : Nat :=
  (s.freeCores part d).length - (s.placed.filter fun p => p.die = d && s.partOf p.ctx = part).length

/-- The save slots of a context, and those that are free (14 R317). -/
def Context.saveSlots (x : Context) : Nat := x.saveS.toNat / 48

def State.freeSlots (s : State) (x : Context) : Nat := x.saveSlots - (s.saved.filter (·.ctx = x.id)).length

/-- A group of the context may start: its free save slots exceed its groups that hold cores. -/
def State.mayStart (s : State) (ctx : BitVec 10) : Bool :=
  match s.ctx? ctx with
  | none => false
  | some x => s.holders ctx < s.freeSlots x

/-- The context runs groups: it is active, or drains. -/
def State.ctxRuns (s : State) (ctx : BitVec 10) : Bool :=
  (s.ctx? ctx).any fun x => x.state = .active || x.state = .draining

/-! ### Resumed groups (12 R287, 14 R318) -/

/-- The die to which a saved group returns: the one the walk gives, or the one with most free cores. -/
def State.resumeDie (s : State) (v : Saved) : Option (Fin 4) :=
  match s.ctx? v.ctx with
  | none => none
  | some x =>
    match (s.launch? v.ctx v.info.queue).bind fun l => l.dieOf x v.info.g with
    | some d => some d
    | none =>
      x.dies.foldl (fun b d =>
        match b with
        | none => some d
        | some e => if s.freeCount x.part e < s.freeCount x.part d then some d else some e) none

/-- A saved group of the partition waits for a core of the die at a priority of at least `pri`. -/
def State.resumeWaits (s : State) (part : BitVec 6) (d : Fin 4) (pri : Nat) : Bool :=
  s.saved.any fun v => s.ctxRuns v.ctx && s.partOf v.ctx = part && pri ≤ v.info.pri.toNat && s.resumeDie v = some d

/-! ### Batches (13 R303, 12 R287) -/

/-- Launch `a` goes before launch `b` in placing groups of a partition. -/
def State.placesBefore (s : State) (part : BitVec 6) (a b : Launch) : Bool :=
  b.pri < a.pri || (a.pri = b.pri && s.turn part true a.pri a.ctx a.queue < s.turn part true b.pri b.ctx b.queue)

/-- The cores of a die on which a launch may start a group, in ascending order: the free ones kept for it, and those that are free for
every launch where no resumed group goes before it (12 R287, R290). -/
def State.coresFor (s : State) (part : BitVec 6) (d : Fin 4) (l : Launch) : List CoreId :=
  let waits := s.resumeWaits part d l.pri.toNat
  (s.partCores part).filter fun c => c.die = d && s.open c && (l.claims.contains c || (!waits && !s.claimed c))

/-- F of R303 for a launch: with the cores kept for it, and less the groups that the dispatcher holds. A resumed group goes first where a
group starts (R304), and takes nothing from F. -/
def State.freeFor (s : State) (part : BitVec 6) (d : Fin 4) (l : Launch) : Nat :=
  let held := s.placed.filter fun p => p.die = d && s.partOf p.ctx = part
  let mine := (held.filter fun p => p.ctx = l.ctx && p.queue = l.queue).length
  let common := (s.freeCores part d).length - (held.length - mine)
  common + (s.ownCores part d l).length - mine

/-- The launches of a partition that have groups pending on a die. -/
def State.dispatching (s : State) (part : BitVec 6) (d : Fin 4) : List Launch :=
  s.launches.filter fun l =>
    l.stage == .dispatching && s.partOf l.ctx = part && s.ctxRuns l.ctx && ((s.ctx? l.ctx).bind fun x => l.pendingOn x d).isSome

/-- The launch of a list that goes first in placing groups. -/
def State.firstPlacing (s : State) (part : BitVec 6) (ls : List Launch) : Option Launch :=
  ls.foldl (fun (b : Option Launch) l =>
    match b with
    | none => some l
    | some m => if s.placesBefore part l m then some l else some m) none

/-- The launch of the partition that places next on a die. -/
def State.placing (s : State) (part : BitVec 6) (d : Fin 4) : Option Launch :=
  s.firstPlacing part ((s.dispatching part d).filter fun l => 0 < s.freeFor part d l)

/-- The groups of a batch: up to n of the pending ones of a die. -/
def Launch.batch (l : Launch) (x : Context) (d : Fin 4) : Nat → Launch × List Nat
  | 0 => (l, [])
  | n + 1 =>
    match l.pendingOn x d with
    | none => (l, [])
    | some g =>
      let (l, gs) := (l.takeGroup d g).batch x d n
      (l, g :: gs)

/-- A batch placed on a die. -/
def State.place (s : State) (x : Context) (l : Launch) (d : Fin 4) : State :=
  let (m, gs) := l.batch x d (min 64 (s.freeFor x.part d l))
  let stage := if m.hasPending x then LaunchStage.dispatching else .running
  let new := gs.map fun g => (⟨d, l.ctx, l.queue, g, s.tick⟩ : Placed)
  (({ s with placed := s.placed ++ new }).updLaunch l.ctx l.queue fun _ => { m with stage := stage }).served x.part true l.pri l.ctx l.queue

/-- The die of a shared sequence's next batch: the largest F, ties to the lowest. -/
def State.batchDie (s : State) (x : Context) (l : Launch) : Option (Fin 4) :=
  x.dies.foldl (fun b d =>
    match b with
    | none => some d
    | some e => if s.freeFor x.part e l < s.freeFor x.part d l then some d else some e) none

/-! ### Victims (12 R290) -/

/-- The groups that launches of a context have still to start on the cores of their victims (12 R290). -/
def State.owed (s : State) (ctx : BitVec 10) : Nat := ((s.launches.filter (·.ctx = ctx)).map fun l => (s.claimsOf l).length).sum

/-- The groups of a context that are being pre-empted, each of which takes a save slot. -/
def State.leaving (s : State) (ctx : BitVec 10) : Nat :=
  (allCores.filter fun c => ((s.core c).grp).any (·.ctx = ctx) && (s.core c).pre.isSome).length

/-- A running group that a launch may pre-empt: its context has a free slot for it beyond those being saved, and the group that takes its core
may start by then, beside those that start on the cores of earlier victims (14 R317). -/
def State.mayTake (s : State) (l : Launch) (c : CoreId) : Bool :=
  let k := s.core c
  match k.grp with
  | none => false
  | some g =>
    k.stat == .running && k.pre.isNone && g.pri < l.pri &&
      match s.ctx? g.ctx, s.ctx? l.ctx with
      | some v, some x =>
        s.leaving v.id < s.freeSlots v && s.holders x.id + s.owed x.id < s.freeSlots x
      | _, _ => false

/-- Victim `a` is taken before victim `b`: the lower priority, then the group placed most recently. -/
def victimBefore (a b : GroupInfo) : Bool := a.pri < b.pri || (a.pri = b.pri && b.placed < a.placed)

/-- The group that a launch pre-empts next among cores. -/
def State.victim (s : State) (l : Launch) (cs : List CoreId) : Option CoreId :=
  (cs.filter (s.mayTake l)).foldl (fun b c =>
    match b with
    | none => some c
    | some e =>
      match (s.core c).grp, (s.core e).grp with
      | some gc, some ge => if victimBefore gc ge then some c else some e
      | _, _ => some e) none

/-- The groups that a launch has still to start on a die, or on any where its dies are chosen batch by batch. -/
def State.toStart (s : State) (x : Context) (l : Launch) (d : Fin 4) : Nat :=
  let held := s.placed.filter fun p => p.ctx = l.ctx && p.queue = l.queue
  match l.dieLevel with
  | none => l.total - l.shared + held.length
  | some _ => ((l.batch x d (l.claims.length + 1)).2).length + (held.filter (·.die = d)).length

/-- The victim that a launch takes on a die: at most one for each group that it has still to start, while no core of its partition is
free for it (12 R290). -/
def State.victimFor (s : State) (part : BitVec 6) (d : Fin 4) (l : Launch) : Option CoreId :=
  match s.ctx? l.ctx with
  | none => none
  | some x =>
    let cs := (s.partCores part).filter fun c => c.core.val < s.coresPerDie
    let own := if l.dieLevel.isSome then l.claims.filter (·.die = d) else l.claims
    if !l.pre || (cs.any fun c => s.open c && (!s.claimed c || l.claims.contains c)) || s.toStart x l d ≤ own.length then none
    else (s.victim l (if l.dieLevel.isSome then cs.filter (·.die = d) else cs)).filter (·.die = d)

/-- Pre-emption by a launch: the first in the order of placing that takes a victim keeps its core for itself (12 R290). -/
def State.takeVictim (s : State) (part : BitVec 6) (d : Fin 4) : State :=
  match s.firstPlacing part ((s.dispatching part d).filter fun l => (s.victimFor part d l).isSome) with
  | none => s
  | some l =>
    match s.victimFor part d l with
    | none => s
    | some c =>
      (s.updLaunch l.ctx l.queue fun m => { m with claims := m.claims ++ [c] }).updCore c fun k =>
        { k with pre := some .stopping, preCause := .launch }

/-- GEYSER_BATCH (13 R303): a batch is formed for a die with free cores; where none can be, a launch that may pre-empt chooses a victim. -/
def execGeyserBatch (part : BitVec 6) (d : Fin 4) (s : State) : Out :=
  match s.placing part d with
  | none => .next (s.takeVictim part d)
  | some l =>
    match s.ctx? l.ctx with
    | none => .next s
    | some x => if l.dieLevel.isNone && s.batchDie x l ≠ some d then .next s else .next (s.place x l d)

/-! ### The start of a group (13 R305, 14 R309) -/

/-- The granules of the new window's end (08 R220): lines that hold one are dropped, dirty ones written back first. Which granules a
line holds is free (log 10); the lines that stay fit the pool. -/
def State.trimLines (s : State) (c : CoreId) (total : Nat) : List TileLine → Nat → State
  | [], _ => s
  | l :: rest, used =>
    if used + l.gran ≤ total && Config.draw s.freeCtr % 2 = 0 then s.drew.trimLines c total rest (used + l.gran)
    else
      let s := s.drew
      let s := if l.dirty then (s.writeTile c l).1 else s
      (s.updCore c fun k => k.dropLine l).trimLines c total rest used

/-- Lines of a core dropped where a group's window grows over them, or where they are more than its SRAM now holds (08 R220, 01 R18). -/
def State.fitLines (s : State) (c : CoreId) (grows : Bool) : State :=
  let k := s.core c
  let total := s.poolGranules k
  if grows || total < ((k.lines.filter (·.adopt.isNone)).map (·.gran)).sum then s.trimLines c total k.lines 0 else s

/-- Cores of a context without a group keep no more lines than their SRAM holds, after an S-die has been lost (01 R18). -/
def State.fitIdle (s : State) (x : Context) : State :=
  (s.partCores x.part).foldl (fun s c =>
    let k := s.core c
    let total := (s.sram x * 131072 - k.winEnd) / 512
    if k.grp.isNone && k.owner = some x.id && total < ((k.lines.filter (·.adopt.isNone)).map (·.gran)).sum then s.trimLines c total k.lines 0
    else s) s

/-- What a launch grants its group. -/
def groupOf (l : Launch) (x : Context) (p : Placed) (serial : Nat) : GroupInfo where
  ctx := l.ctx
  queue := l.queue
  entry := l.entry.toNat
  g := p.g
  serial := serial
  placed := p.since
  pri := l.pri
  asc := l.asc
  code := BitVec.ofNat 56 (kdCode l.desc)
  nbund := kdNb l.desc
  nrec := kdNrec l.desc
  regs := kdRegs l.desc
  accs := kdAcc l.desc
  tbud := kdTbud l.desc
  layout := l.layout
  strict := x.strict
  rzb := x.rzb.toNat
  pfb := x.pfb.toNat
  peb := x.peb.toNat

/-- A slot at group start: its PC at ENTRY and s0 to s7 preloaded; everything else as at reset (13 R301, 14 R309). -/
def startSlot (entry : Nat) (pre : Fin 8 → Word) : SlotState :=
  { SlotState.reset with
    pc := BitVec.ofNat 32 entry
    ended := false
    s := Vector.ofFn fun i => if h : i.val < 8 then pre ⟨i.val, h⟩ else 0 }

/-- A ring header at group start (06 R154). -/
def resetRing (r : Region) (k : Core) : Core :=
  if r.size = 0 then k else lsPut r.off 64 (2 ^ 128 * ((r.size - 64) / 256)) k

/-- OVFP of a core (13 R305). -/
def overflowBase (d : Rec128) (c : CoreId) : Word :=
  if kdOvfb d = 0 then 0 else BitVec.ofNat 64 (kdOvfb d + 0x600000 * (96 * c.die.val + c.core.val))

/-- A core with everything that a group sees as at group start (14 R309); lines, translation caches, LZSEQ and the flags and free space
stay. -/
def freshCore (k : Core) (g : GroupInfo) : Core :=
  { Core.reset with
    stat := .running
    grp := some g
    nextId := k.nextId
    ls := k.ls
    owner := some g.ctx
    winEnd := g.layout.window
    lines := k.lines
    hand := k.hand
    tclock := k.tclock
    leaves := k.leaves
    nonleaf := k.nonleaf
    lzseq := k.lzseq }

/-- R305: a placed group starts on a core. -/
def State.startGroup (s : State) (x : Context) (l : Launch) (p : Placed) (c : CoreId) : State :=
  let g := groupOf l x p s.tick
  let s := if (s.core c).owner = some l.ctx then s else s.clearCore c
  let grows := (s.core c).winEnd < g.layout.window
  let s := s.updCore c fun k => freshCore k g
  let s := s.fitLines c grows
  let (s, recs) := s.ctxRead l.ctx false (kdRecs l.desc) (64 * g.nrec)
  let bytes := match recs with
    | .ok b => b
    | .error _ => bytesOf (s.freeVal (512 * g.nrec)) 0 (64 * g.nrec)
  let s := s.drew.updCore c fun k =>
    let k := if g.nrec = 0 then k else lsWrite g.layout.records.off bytes k
    let k := (List.finRange 16).foldl (fun k i => resetRing g.layout.rings[i] k) k
    let k := (List.finRange 16).foldl (fun k i => resetZone i k) k
    { k with ovfp := overflowBase l.desc c, slots := Vector.replicate 4 (startSlot (kdEntry l.desc) (l.preload p.g)) }
  { s.updLaunch l.ctx l.queue fun l => { l with started := l.started + 1, claims := l.claims.erase c } with placed := s.placed.erase p }

/-- The placed group that the dispatcher of a die starts next for a partition: the highest priority, in batch order, of those that the
save-slot rule lets start (13 R304, 14 R317). -/
def State.startNext (s : State) (part : BitVec 6) (d : Fin 4) : Option (Placed × Launch × Context) :=
  let cands := s.placed.filterMap fun p =>
    match s.launch? p.ctx p.queue, s.ctx? p.ctx with
    | some l, some x => if p.die = d && x.part = part && s.ctxRuns p.ctx && s.mayStart p.ctx && !(s.coresFor part d l).isEmpty then some (p, l, x) else none
    | _, _ => none
  cands.foldl (fun b t =>
    match b with
    | none => some t
    | some u => if u.2.1.pri < t.2.1.pri then some t else some u) none

/-- GROUP_START (13 R304): the lowest-numbered core that is free for the group takes it; a resumed group of the same priority goes first, but
to a core that the launch's own victim has left (12 R290). -/
def execGroupStart (d : Fin 4) (part : BitVec 6) (s : State) : Out :=
  match s.startNext part d with
  | none => .next s
  | some (p, l, x) =>
    match s.coresFor part d l with
    | [] => .next s
    | c :: _ => .next (s.startGroup x l p c)

/-! ### YIELD (05 R126) -/

/-- A placed or pending group of priority at least the yielding group's waits for its die and may start on the core (14 R317). -/
def State.yieldTo (s : State) (c : CoreId) (g : GroupInfo) : Bool :=
  let part := s.partOf g.ctx
  let placed := s.placed.any fun p =>
    p.die = c.die && s.partOf p.ctx = part && s.mayStart p.ctx && (s.launch? p.ctx p.queue).any fun l => g.pri ≤ l.pri
  placed || s.launches.any fun l =>
    l.stage == .dispatching && g.pri ≤ l.pri && s.partOf l.ctx = part && s.ctxRuns l.ctx && s.mayStart l.ctx &&
      ((s.ctx? l.ctx).bind fun x => l.pendingOn x c.die).isSome

/-- YIELD: the group is pre-empted where another waits; otherwise it has no effect. -/
def yieldBody : LaneM Unit := do
  let g ← getGroup
  let yes ← fun s => .ok (s.yieldTo s.cur.1 g, s)
  if yes then modCore fun k => { k with pre := some .stopping, preCause := .yield }

def execYield (h : Head) (s : State) : Out := lane h yieldBody s

end Sys2Proof.Machine
end

