-- ==== Sys2Proof/Machine/Group.lean ====
section
/-! DEFINITION. A group on its core (14 R310, R311, R315 to R317): faults delivered, quiescence, the completion sequence, and
pre-emption up to the save. -/

namespace Sys2Proof.Machine

open Sys2Proof

/-! ### Faults delivered (14 R311) -/

/-- FAULT_RAISE: the first fault that waits on a core is raised to its group. -/
def execFaultRaise (c : CoreId) (s : State) : Out :=
  let k := s.core c
  match k.grp, k.pend with
  | some _, p :: rest => .next (raiseFault c p.fr p.op (s.setCore c { k with pend := rest }))
  | _, _ => .next s

/-! ### Quiescence (14 R311 steps 3 and 4) -/

/-- An access that waits for its token only. -/
def AccKind.isDone (x : AccKind) : Bool :=
  match x with
  | .tile .done _ _ _ _ => true
  | _ => false

/-- A grant, whose status arrives whether it is delivered or not. -/
def AccKind.isGrant (x : AccKind) : Bool :=
  match x with
  | .lzgrant _ _ _ _ => true
  | _ => false

/-- An access that does not go on while the group is trapping: it has faulted, or one that has holds it back. `l` names the earlier
ones of this sort. -/
def settledAccess (k : Core) (l : List Nat) (a : Access) : Bool :=
  a.kind.isDone || (a.raised && !a.kind.isGrant) || (k.acc.any fun b => l.contains b.id && holdsBack b a) ||
    match a.kind with
    | .fence e => !fenceReady k a e
    | .qjoin m => engineBefore k a.id (maskQueues m)
    | .tile _ _ _ _ _ => a.parts.isEmpty && k.tilesStopped
    | _ => false

/-- The accesses of a core that do not go on. -/
def Core.settled (k : Core) : List Nat := k.acc.foldl (fun l a => if settledAccess k l a then l ++ [a.id] else l) []

/-- An engine queue that does not go on: it is empty, its head has faulted or only awaits its token, or something that does not go on
holds it. -/
def queueSettled (k : Core) (e : Fin 6) : Bool :=
  match k.head? e with
  | none => true
  | some o => (o.failed.isSome && !(e = 5 && o.status = 1)) || (o.parked.isSome && k.tilesStopped) || o.held || !engineMayBegin k e o.id ||
      (e = 4 && o.sent.isEmpty && o.pos = 0 && !e4MaySend k o)

/-- Every access and every engine queue of a trapping group has come to rest. -/
def Core.atRest (k : Core) : Bool :=
  k.pend.isEmpty && !k.writingBack && (k.acc.all fun a => k.settled.contains a.id) && (List.finRange 6).all (queueSettled k)

/-- GROUP_QUIESCENT. -/
def execGroupQuiescent (c : CoreId) (s : State) : Out :=
  let k := s.core c
  if k.stat = .trapping false && k.atRest then .next (s.setCore c { k with stat := .trapping true }) else .next s

/-! ### A core given up (14 R310, R313, R315) -/

/-- What stays on a core when its group leaves: the window's bytes, the tile lines without their pins, the translation caches and LZSEQ
(13 R305, 08 R220, 18 R377). -/
def vacant (k : Core) : Core :=
  { Core.reset with
    nextId := k.nextId
    ls := k.ls
    owner := k.owner
    winEnd := k.winEnd
    lines := (k.lines.filter fun l => l.base == .valid && l.adopt.isNone).map fun l => { l with pin := false }
    hand := k.hand
    tclock := k.tclock
    leaves := k.leaves
    nonleaf := k.nonleaf
    lzseq := k.lzseq }

/-- The group leaves its core. No request of it waits at a slice or a barrier any more. -/
def State.vacate (s : State) (c : CoreId) : State :=
  { s.updCore c vacant with
    held := s.held.filter fun h =>
      match h with
      | .access d _ => d ≠ c
      | _ => true
    ingress := s.ingress.filter fun q => q.2.core ≠ c
    mshrs := s.mshrs.map fun m => { m with waiting := m.waiting.filter (·.core ≠ c) } }

/-! ### Completion (14 R310) -/

/-- Dirty lines that are valid begin a write-back. -/
def startBacks (k : Core) : Core :=
  { k with lines := k.lines.map fun l => if l.dirty && l.base == .valid then { l with base := .writingBack, out := none } else l }

/-- Every operation in the engine queues is complete, and none is halted. -/
def Core.enginesDone (k : Core) : Bool := k.e.toList.all fun q => !q.halted && q.ops.all (·.held)

/-- The four slots have executed END (05 R127). -/
def Core.ended (k : Core) : Bool := k.slots.toList.all (·.ended)

/-- Adopted lines invalidated, which returns their slots. -/
def dropAdopted (k : Core) : Core := k.lines.foldl (fun k l => if l.adopt.isSome then k.dropLine l else k) k

/-- The end of the sequence: the completion is a release at the launch entry's scope (R249), and the core is free. -/
def State.complete (s : State) (c : CoreId) (g : GroupInfo) : State :=
  let s := s.releaseAt c g.asc
  let s := s.updCore c dropAdopted
  ((s.vacate c).endGroup g.ctx g.queue).finishDrain g.ctx

/-- COMPLETION_SEQUENCE (14 R310, 18 R388): the sequence goes on by what it may do now. -/
def execCompletionSequence (c : CoreId) (s : State) : Out :=
  let k := s.core c
  match k.grp with
  | none => .next s
  | some g =>
    if k.stat ≠ .running || k.pre.isSome || !k.repins.isEmpty || !k.ended || !k.pend.isEmpty || !k.enginesDone then .next s
    else if k.lines.any fun l => l.pin || (l.dirty && l.base == .valid) then
      let k := startBacks { k with lines := k.lines.map fun l => { l with pin := false, asc := g.asc } }
      .next (s.setCore c k)
    else if k.writingBack || !(k.acc.all (·.kind.isDone)) then .next s
    else if k.landing then
      (if k.landSince.isSome then .next s else .next (s.setCore c { k with landSince := some (s.cycle c.die) }))
    else .next (s.complete c g)

/-! ### Pre-emption (14 R315, 08 R221, 09 R243, 17 R371, 18 R387) -/

/-- Step 2: every access that the slots have issued is performed; in a trapping group, none goes on. -/
def Core.accessesDone (k : Core) : Bool :=
  k.pend.isEmpty &&
    match k.stat with
    | .trapping _ => k.acc.all fun a => k.settled.contains a.id
    | _ => k.acc.all (·.kind.isDone)

/-- e0 has completed its fills, or has been halted. -/
def Core.fillsDone (k : Core) : Bool := k.e[(0 : Fin 6)].halted || k.e[(0 : Fin 6)].ops.isEmpty

/-- What e5 holds of a step that has not begun; the cycles that it has waited for lines stay counted for it (09 R227). -/
def unbegun (now : Nat) (o : EngOp) : EngOp :=
  { o.waitedTo now false with lines := [] }

/-- Steps 3 and 4: e5's parked step and the replay queue are discarded, and the dirty lines begin to be written back. -/
def settleForSave (now : Nat) (k : Core) : Core :=
  let k := k.setQ 5 { k.e[(5 : Fin 6)] with ops := k.e[(5 : Fin 6)].ops.map (unbegun now) }
  let k : Core := { k with slots := k.slots.map fun (t : SlotState) => { t with entry := none } }
  startBacks { k with replay := k.replay.filter (·.failed), adopting := none, pre := some .settling }

/-- An operation of e4 that must end before the save: a landing record sequence that has begun, or an atomic or request that was sent. -/
def endsFirst (o : EngOp) : Bool :=
  o.failed.isNone && !o.held && 0 < o.pos &&
    match o.kind with
    | .lzput _ _ | .fatom _ _ _ _ _ | .freq _ _ => true
    | _ => false

/-- Steps 3 and 4 are done: the copy engines stand between steps (06 R153), every record that e4 and they sent has come back, and no line
is writing back. -/
def Core.settledForSave (k : Core) : Bool :=
  !k.writingBack && k.fillsDone && k.pend.isEmpty &&
    (([1, 2, 3] : List (Fin 6)).all fun e => k.e[e].ops.all fun o => o.failed.isSome || !o.midStep) &&
    ([2, 3, 4] : List (Fin 6)).all fun e => k.e[e].ops.all fun o => (o.failed.isSome || o.sent.isEmpty) && !endsFirst o

/-- A record that e4 or a copy engine of a core has sent is neither answered nor lost with its link (17 R371). -/
def State.recordsOut (s : State) (c : CoreId) : Bool :=
  s.links.any fun x => x.2.tx.any fun f => !f.lost && f.records.any fun t =>
    t.core = c && isRequest t.rec_ && (((s.core c).e4Of t.rec_.rtag).isSome || ((s.core c).copyOf t.rec_.rtag).isSome)

/-- PREEMPTION: the sequence goes on by the step that it may take now. -/
def execPreemption (c : CoreId) (cause : PreemptCause) (s : State) : Out :=
  let k := s.core c
  if k.grp.isNone || k.preCause ≠ cause then .next s
  else match k.pre with
    | some .stopping => if k.accessesDone && k.fillsDone then .next (s.setCore c (settleForSave (s.cycle c.die) k)) else .next s
    | some .settling =>
      if k.settledForSave && !s.recordsOut c then .next (s.setCore c { k with pre := some (.draining (s.cycle c.die)) }) else .next s
    | some (.draining _) => if k.landing then .next s else .next (s.setCore c { k with pre := some .ready })
    | _ => .next s

/-- Since when landing slots are awaited, by a pre-emption or a completion. -/
def Core.landingSince (k : Core) : Option Nat :=
  match k.pre with
  | some (.draining t) => some t
  | some _ => none
  | none => k.landSince

/-- PREEMPTION_BOUND_EXPIRY (R315 step 5, 11 R269): the slots still awaited are torn with cause 2. -/
def execPreemptionBoundExpiry (c : CoreId) (s : State) : Out :=
  let k := s.core c
  match k.grp, k.landingSince with
  | some g, some t => if s.cycle c.die < t + g.peb then .next s else .next (s.tear c awaitsLanding 2)
  | _, _ => .next s

/-! ### The save (14 R316, R317) -/

/-- The lowest free save slot of a context. -/
def State.lowestSlot (s : State) (x : Context) : Option Nat :=
  (List.range x.saveSlots).find? fun k => !s.saved.any fun v => v.ctx = x.id && v.slot = k

/-- The header of a save image (R316). -/
def saveHeader (k : Core) (g : GroupInfo) (c : CoreId) (trap : Bool) : Nat :=
  let bits := fun (l : List Bool) => ((List.range l.length).map fun i => if l.getD i false then 2 ^ i else 0).sum
  let at' := fun (sl : Slot) => (k.slot sl).pc.toNat
  packFields [(64, g.g), (16, g.queue.toNat), (48, 0), (64, g.entry), (32, at' .c), (32, at' .a), (32, at' .v), (32, at' .m),
    (6, bits (k.e.toList.map (·.halted))), (1, if trap then 1 else 0), (4, bits (k.slots.toList.map (·.ended))), (5, 0),
    (8, g.pri.toNat), (2, c.die.val), (7, c.core.val), (15, 0), (16, k.resumes.toNat), (128, 0)]

/-- The 3 MiB of a save slot. -/
def saveAddr (x : Context) (slot : Nat) : Nat := x.saveB.toNat + 0x300000 * slot

/-- The tags to be repinned on resume, and those of adopted lines (R221, R387). -/
def savedTags (k : Core) : List TileLine := (k.lines.filter fun l => l.pin || l.adopt.isSome) ++ k.repins

/-- A word of a save image for each scalar queue entry: its value, and whether it is reserved or marked. -/
def entryWords (e : QEntry 64) : List Nat := [((e.data.getD 0).toNat), (if e.data.isSome then 1 else 0) + if e.marked then 2 else 0]

/-- Where a vector name's value is, as a word of a save image. -/
def locWord (l : Option VLoc) : Nat :=
  match l with
  | none => 0
  | some (.resident _ t) => 1 + 4 * t
  | some (.carve i t) => 2 + 4 * i + 2 ^ 32 * t
  | some (.overflow t) => 3 + 4 * t

/-- The control state of a group, word after word, in an order of the model's own: R316 names what the region holds and not how (log 45).
Scalar files, predicates and loop stacks of the slots; compact predicates; masks; the rename map; scalar queues; token counts; the
counters; and the required editions. -/
def controlWords (k : Core) : List Nat :=
  let slot := fun (t : SlotState) => t.s.toList.map (·.toNat) ++ [t.p.toNat, t.loops.length] ++
    t.loops.flatMap fun l => [l.start.toNat, l.stop.toNat, l.remain.toNat]
  k.slots.toList.flatMap slot ++ k.k.toList.map (fun r => r.count.toNat + 2 ^ 16 * r.width.code + 2 ^ 24 * r.len.toNat) ++
    [k.masks.length] ++ k.masks.flatMap (fun m => (List.range 16).map fun i => bitsOf m.toNat (64 * i) 64) ++ (List.range 1536).map (fun n => locWord (k.vloc n)) ++
    k.q.toList.flatMap (fun l => (List.range 16).flatMap fun i => ((l[i]?).map entryWords).getD [0, 0]) ++
    k.vq.toList.flatMap (fun l => (List.range 4).map fun i => ((l[i]?).map fun e => (entryWords ⟨e.id, e.data.map fun _ => 0, e.marked, false⟩).getD 1 0).getD 4) ++
    k.z.toList.map (fun a => if a.isSome then 1 else 0) ++ k.d.toList ++
    [k.ovfp, k.splls, k.splnm, k.refil, k.blkinv, k.blkrsv, k.aboff, k.scdup, k.tstale, k.tdisc, k.tpfdr, k.cpfiss, k.cpfhit, k.cpflate,
      k.cpfdead, k.trmis, k.trmzs, k.trmsy, k.trmdr, k.trmrp, k.trmst, k.seqlast, k.tierst, k.tierms, k.xwalk, k.xjoin, k.itfail].map
        (·.toNat) ++
    [k.reqEd.length] ++ k.reqEd.flatMap fun r => [r.1.toNat, r.2.toNat]

/-- The kind of an engine operation in a save image: a record's own kind, or e4's. -/
def EngKind.word (x : EngKind) : Nat :=
  match x with
  | .copy _ r _ _ _ | .matrix _ r _ _ => bitsOf r.toNat 0 8
  | .fwr _ _ _ => 0x40
  | .fatom _ _ _ _ _ => 0x41
  | .freq _ _ => 0x42
  | .lzput _ _ => 0x43
  | .mzclr _ _ => 0x50
  | .fill _ => 0

/-- Pinned and adopted tags with their editions, and the operations of e1 to e5 with their progress (log 45). -/
def engineWords (k : Core) (tags : List TileLine) : List Nat :=
  [tags.length] ++ tags.flatMap (fun l => [l.tens.toNat] ++ l.c.toList.map (·.toNat) ++ [l.ed.toNat, if l.adopt.isSome then 1 else 0]) ++
    ([1, 2, 3, 4, 5] : List (Fin 6)).flatMap fun e =>
      k.e[e].ops.length :: k.e[e].ops.flatMap fun o => [o.id, o.bundle.toNat, o.kind.word, o.kind.recIndex.toNat, o.pos, o.status]

/-- Words as a region of 64 KiB. -/
def wordsRegion (l : List Nat) : List Byte := ((l.flatMap (natLe 8)) ++ List.replicate 65536 0).take 65536

/-- A stretch of whole memory lines written under a key by the device itself: no slice holds them afterwards. -/
def State.putRange (s : State) (key : KeyTag) (pa : Nat) (b : List Byte) : State :=
  let s := s.touch pa b.length
  let inside := fun line => decide (pa / 128 ≤ line ∧ line < (pa + b.length) / 128)
  { s with
    mem := memPut s.mem pa b
    lmeta := (natRange (pa / 128) (b.length / 128)).map (⟨·, key, 0⟩) ++ s.lmeta.filter fun m => !inside m.line
    poison := s.poison.filter fun p => !inside (p / 8)
    slices := s.slices.filter fun l => !inside l.line }

/-- A queue of vectors as an image holds it: four entries of 4 KiB, zero where there is none. -/
def queueBytes (l : List (QEntry 32768)) : List Byte :=
  (List.range 4).flatMap fun i => bytesOf ((l[i]?.bind (·.data)).getD 0) 0 4096

/-- The registers that are resident, in the order of their names. -/
def Core.residentVals (k : Core) : List VReg :=
  (List.range 1536).filterMap fun n =>
    match k.vloc n with
    | some (.resident v _) => some v
    | _ => none

/-- The regions of a save image at their offsets (14 R316): control state behind the header, tags and engine operations, vector queues,
accumulators, resident vector registers, and the local store window. -/
def imageRegions (k : Core) : List (Nat × List Byte) :=
  [(0, wordsRegion (List.replicate 8 0 ++ controlWords k)),
   (0x010000, wordsRegion (engineWords k (savedTags k))),
   (0x020000, k.vq.toList.flatMap queueBytes),
   (0x050000, k.z.toList.flatMap fun a => (List.range 16).flatMap fun i => bytesOf ((a.getD 0).extractLsb' (32768 * i) 32768) 0 4096),
   (0x0D0000, (k.residentVals.flatMap fun v => bytesOf v 0 4096) ++ List.replicate (0x100000 - 4096 * k.residentVals.length) 0),
   (0x1D0000, lsRead k 0 k.layout.window)]

/-- A save image written under key slot 0 (11 R278). -/
def State.writeImage (s : State) (x : Context) (slot : Nat) (k : Core) : State :=
  match s.keyTag x.id 0 with
  | none => s
  | some key => (imageRegions k).foldl (fun s r => s.putRange key (saveAddr x slot + r.1) r.2) s

/-- A header written under key slot 0 (11 R278). -/
def State.writeSave (s : State) (x : Context) (slot : Nat) (b : List Byte) : State :=
  match s.keyTag x.id 0 with
  | none => s
  | some key =>
    match s.writeLine x.part ⟨key, 0, true⟩ (saveAddr x slot) b with
    | .ok s => s
    | .error _ => s

/-- A group saved from its core, which becomes free. -/
def State.saveGroup (s : State) (c : CoreId) (g : GroupInfo) (x : Context) (slot : Nat) : State :=
  let k := s.core c
  let trap := match k.stat with
    | .trapping _ => true
    | _ => false
  let s := (s.writeImage x slot k).writeSave x slot (natLe 64 (saveHeader k g c trap))
  let v : Saved := { ctx := g.ctx, slot := slot, info := g, at_ := c, trap := trap, core := dropAdopted k, pins := savedTags k }
  let s := s.updCore c dropAdopted
  { s.vacate c with saved := s.saved ++ [v] }

/-- PREEMPTION_SAVE (R315 steps 6 and 7). -/
def execPreemptionSave (c : CoreId) (s : State) : Out :=
  let k := s.core c
  match k.grp, k.pre with
  | some g, some .ready =>
    match s.ctx? g.ctx with
    | none => .next s
    | some x =>
      match s.lowestSlot x with
      | none => .next s
      | some slot => .next (s.saveGroup c g x slot)
  | _, _ => .next s

end Sys2Proof.Machine
end

