-- ==== Sys2Proof/Machine/Mail.lean ====
section
/-! DEFINITION. The management mailbox (11 R271, R272): the 64-byte command record at offset 0, the doorbell, the status word, and the
records that wait behind a command in progress. -/

namespace Sys2Proof.Machine

open Sys2Proof

/-- A command record (11 R271): the opcode in byte 0, CTXID in bytes 3..2, the argument in bytes 15..8 and ARG2 in bytes 23..16. -/
def cmdRecord (op : Nat) (ctx : BitVec 10) (arg arg2 : Word) : Rec64 :=
  BitVec.ofNat 512 (op + ctx.toNat * 2 ^ 16 + arg.toNat * 2 ^ 64 + arg2.toNat * 2 ^ 128)

/-- A record written at offset 0 and the doorbell rung. While a command is in progress, the record waits behind it (11 R271). -/
def State.post (s : State) (r : Rec64) : State :=
  if s.doorbell then { s with mwait := s.mwait ++ [r] } else { s with mrec := r, doorbell := true }

/-- The management processor deals with a command record. Into an idle mailbox the host writes it now; in one whose doorbell is set, the
record must be the one that stands there, and otherwise the event is none (log 87). The command is in progress until its reply. -/
def State.mailed (s : State) (r : Rec64) (act : State → State) : State :=
  if s.doorbell && s.mrec ≠ r then s else act { s with mrec := r, doorbell := true }

/-- The status word written and the doorbell cleared; a record that waited stands in the mailbox next, its doorbell set (11 R271). -/
def State.reply (s : State) (status : Nat) : State :=
  match s.mwait with
  | [] => { s with mbox := BitVec.ofNat 64 status, doorbell := false }
  | r :: rest => { s with mbox := BitVec.ofNat 64 status, mrec := r, mwait := rest }

/-- Done. -/
def State.replyDone (s : State) : State := s.reply 0

/-- Refused by state, by value and by attestation: nothing changes but the status. -/
def State.refuseState (s : State) : State := s.reply 1
def State.refuseValue (s : State) : State := s.reply 2
def State.refuseAttest (s : State) : State := s.reply 3

/-- A command that names a context: one that is not in use is refused by state (R272). -/
def State.command (s : State) (op : Nat) (ctx : BitVec 10) (arg : Word) (act : Context → State → State) : State :=
  s.mailed (cmdRecord op ctx arg 0) fun s =>
    match s.ctx? ctx with
    | none => s.refuseState
    | some x => act x s

end Sys2Proof.Machine
end

