-- ==== Sys2Proof/Machine/Matrix.lean ====
section
/-! DEFINITION. Matrix records and the term-cell array (09): MREC, MCONV, MZST, MZLD, MZCLR, MTERM, and the steps that e5 performs. -/

namespace Sys2Proof.Machine

open Sys2Proof

/-! ### Ill-formed records (09 R233) -/

/-- Where a record is ill-formed: a bit of the record, or a word of a tensor's entry. -/
inductive MatBad
  | field (bit : Nat)
  | entry (t : BitVec 12) (word : Nat)
  deriving DecidableEq, Repr

/-- The first of a list of conditions that holds. -/
def firstBad (l : List (Bool × MatBad)) : Option MatBad := (l.find? (·.1)).map (·.2)

/-- A record of the kinds that have a B operand. -/
def matHasB (kind : Nat) : Bool := kind = 0x10 || kind = 0x11

/-- The fields that a record of a kind must leave zero, lowest first (R229). -/
def matZeroFields (kind : Nat) (r : Rec64) : List (Bool × MatBad) :=
  let only := fun (b : Bool) (lo w : Nat) => (b && recBits r lo w ≠ 0, MatBad.field lo)
  let b := !matHasB kind
  [only b 11 1, only b 12 1, only b 15 2, only (kind ≠ 0x12) 17 2, only true 19 1, only b 32 12, only true 44 20,
    only b 128 32, only b 240 32, only b 352 32, only b 464 32]

/-- The chunk width of two operands (03 R70). -/
def chunkWidth (a b : TEnt) : Nat := if blockFmt a.cfmt || blockFmt b.cfmt then 32 else 16

/-- The condition of an entry that R197 names. -/
def entryBad (t : BitVec 12) (x : TEnt) : Option MatBad := x.illFormed.map (.entry t)

/-- The conditions on the entries of a record, in the order of R233. -/
def matEntryBad (kind : Nat) (r : Rec64) (a b : TEnt) : Option MatBad :=
  let ta := matTa r
  let tb := matTb r
  if matHasB kind then
    firstBad [
      (a.t[0] ≠ b.t[0], .entry ta 6),
      (a.t[0] % chunkWidth a b ≠ 0, .entry ta 6),
      (128 < a.t[1], .entry ta 6), (128 < b.t[1], .entry tb 6),
      (a.t[2] ≠ 1 || a.t[3] ≠ 1, .entry ta 6), (b.t[2] ≠ 1 || b.t[3] ≠ 1, .entry tb 6),
      (kind = 0x10 && a.win, .entry ta 0), (kind = 0x11 && !a.win, .entry ta 0), (b.win, .entry tb 0)]
  else
    firstBad [
      (128 < a.t[0] || 128 < a.t[1] || a.t[2] ≠ 1 || a.t[3] ≠ 1, .entry ta 6),
      (kind = 0x12 && a.win, .entry ta 0)]

/-- R233: the first condition that makes a record ill-formed for the instruction that issues it. -/
def matIllFormed (kind accs : Nat) (r : Rec64) (a b : TEnt) : Option MatBad :=
  let first : List (Bool × MatBad) := [(matKind r ≠ kind, .field 0)]
  let last : List (Bool × MatBad) := [(accs ≤ (matZd r).val, .field 8)]
  match firstBad (first ++ matZeroFields kind r ++ last) with
  | some x => some x
  | none =>
    match entryBad (matTa r) a with
    | some x => some x
    | none =>
      match (if matHasB kind then entryBad (matTb r) b else none) with
      | some x => some x
      | none => matEntryBad kind r a b

/-- The matrix-record fault (09 R234, 14 R312). -/
def matRecordFault (idx : BitVec 12) (r : Rec64) (x : MatBad) : FaultRec :=
  match x with
  | .field b => { code := 0x0402, idx := idx, kind := BitVec.ofNat 8 (matKind r), field := BitVec.ofNat 9 b }
  | .entry t w => { code := 0x0402, idx := t, kind := BitVec.ofNat 8 (matKind r), field := BitVec.ofNat 9 w, tfld := true }

/-! ### Issuing a record (09 R237) -/

/-- MREC, MCONV, MZST and MZLD: the record and its entries are read once. An ill-formed record halts e5 where it stands; its fault
follows once the operations before it are complete (R234). -/
def matBody (kind : Nat) (h : Head) (o : RecOp) : LaneM Unit := do
  let r ← readRecord o.idx
  let b ← readBases o
  let g ← getGroup
  let ea ← getEntry (matTa r)
  let eb ← if matHasB kind then getEntry (matTb r) else pure 0
  let id ← nextId
  let op := freshOp h id (← curSlot) (← curBundle) o.push ⟨g.asc, {}, .rlx⟩ .none (.matrix o.idx r b [ea, eb])
  match matIllFormed kind g.accs r (tEnt ea) (tEnt eb) with
  | none => enterEngine 5 op none
  | some x =>
    enterEngine 5 { op with failed := some (matRecordFault o.idx r x), status := 1 } none
    modCore fun k => k.setQ 5 { k.e[(5 : Fin 6)] with halted := true }

def execMrec (h : Head) (o : RecOp) (s : State) : Out := lane h (matBody 0x10 h o) s
def execMconv (h : Head) (o : RecOp) (s : State) : Out := lane h (matBody 0x11 h o) s
def execMzst (h : Head) (o : RecOp) (s : State) : Out := lane h (matBody 0x12 h o) s
def execMzld (h : Head) (o : RecOp) (s : State) : Out := lane h (matBody 0x13 h o) s

/-- MZCLR (09 R239). -/
def mzclrBody (h : Head) (o : MzClrOp) : LaneM Unit := do
  let z ← accOperand o.z
  let id ← nextId
  enterEngine 5 (freshOp h id (← curSlot) (← curBundle) none ⟨.group, {}, .rlx⟩ .none (.mzclr z o.inv)) none

def execMzclr (h : Head) (o : MzClrOp) (s : State) : Out := lane h (mzclrBody h o) s

/-- A term counter, and a core with it cleared. -/
def readTerm (t : TermSel) (k : Core) : Word :=
  match t with
  | .trmis => k.trmis
  | .trmzs => k.trmzs
  | .trmsy => k.trmsy
  | .trmdr => k.trmdr
  | .trmrp => k.trmrp
  | .trmst => k.trmst

def clearTerm (t : TermSel) (k : Core) : Core :=
  match t with
  | .trmis => { k with trmis := 0 }
  | .trmzs => { k with trmzs := 0 }
  | .trmsy => { k with trmsy := 0 }
  | .trmdr => { k with trmdr := 0 }
  | .trmrp => { k with trmrp := 0 }
  | .trmst => { k with trmst := 0 }

/-- MTERM (09 R240): it waits until e5 has completed what it holds, or is halted. -/
def mtermBody (o : MTermOp) : LaneM Unit := do
  let k ← getCore
  let q := k.e[(5 : Fin 6)]
  guardStall (q.halted || q.ops.all (·.held))
  writeS o.d (readTerm o.sel k)
  if o.clr then modCore (clearTerm o.sel)

def execMterm (h : Head) (o : MTermOp) (s : State) : Out := lane h (mtermBody o) s

/-! ### Steps -/

/-- A record in e5. -/
structure MatOp where
  op   : EngOp
  idx  : BitVec 12
  rec_ : Rec64
  b    : Vector Word 4
  ents : List Rec128

def matOp? (o : EngOp) : Option MatOp :=
  match o.kind with
  | .matrix idx r b ents => some ⟨o, idx, r, b, ents⟩
  | _ => none

/-- The entry of TA or TB as read at issue. -/
def MatOp.ent (x : MatOp) (i : Nat) : Rec128 := x.ents.getD i 0

/-- A fault of a step, with what R234 records. -/
def MatOp.fault (x : MatOp) (f : FaultRec) : FaultRec :=
  { f with
    src := engineSrc 5
    bundle := x.op.bundle
    idx := x.idx
    kind := BitVec.ofNat 8 (matKind x.rec_)
    loop := loopBits (matLoop x.rec_ x.op.pos) }

/-- A step that faults: the record stops and the fault waits to be raised (09 R234). -/
def MatOp.fail (x : MatOp) (f : FaultRec) (k : Core) : Core :=
  let k := k.unpark .e5
  let k := failRecord x.op (x.fault f) k
  { k with pend := k.pend ++ [⟨x.fault f, .engine 5 x.op.id⟩] }

/-- The hint on an operand's line: the record's field, or the instruction's where that is zero (09 R232). -/
def MatOp.hint (x : MatOp) (code : Nat) : Hint :=
  match code with
  | 0 => x.op.hint
  | 1 => .pin
  | 2 => .last
  | _ => .stream

/-- The lookup of a tile in a step. -/
def MatOp.look (x : MatOp) (k : Core) (t : BitVec 12) (e : Rec128) (c : Vector Word 4) (h : Hint) : Look where
  tens := t
  ent := e
  c := c
  ed := k.required t
  hint := h
  asc := x.op.asc
  origin := stepOrigin x.op x.idx x.rec_ false
  pf := false

/-- How an operand's lookup ends: its line, or the step has faulted or waits. -/
inductive Operands
  | lines (l : List TileLine)
  | stop

/-- A step's operand looked up: outside the tensor it is a fault; on a miss the step waits in the replay queue, holding the lines it
has (09 R232, R241). Its hint is not applied yet, and a line that the miss allocates starts with none, which is the model's choice (log 115). -/
def State.operand (s : State) (c : CoreId) (x : MatOp) (t : BitVec 12) (e : Rec128) (co : Vector Word 4)
    (have' : List TileLine) (noFill : Bool) : State × Option TileLine :=
  if !(tEnt e).coordsOk co then
    (s.updCore c (x.fail { code := 0x0405, tens := t }), none)
  else
    let q := { x.look (s.core c) t e co .none with noFill := noFill }
    let s := s.updCore c fun k => k.setOp 5 { x.op with lines := have'.map (·.idx) }
    match s.demand c .e5 q with
    | (s, some l) => (s, some l)
    | (s, none) =>
      let now := s.cycle c.die
      ((s.updCore c fun k =>
          let parked := if (k.waiter? .e5).isSome then some (x.op.parked.getD now) else none
          k.setOp 5 { x.op with lines := have'.map (·.idx), parked := parked }).countPinned c,
        none)

/-- A step's last act: the hint of a record's field on the operand's line (09 R232, 08 R210). -/
def MatOp.mark (x : MatOp) (code : Nat) (l : TileLine) (k : Core) : Core :=
  match k.lineIdx l.idx with
  | none => k
  | some l => k.setLine (hintLine (x.hint code) l)

/-- A step is done: the counters of steps and of waiting, and the next step or the record's completion. -/
def State.stepDone (s : State) (c : CoreId) (x : MatOp) : State :=
  let waited := match x.op.parked with
    | none => 0
    | some t => s.cycle c.die - t
  let o := { x.op with pos := x.op.pos + 1, lines := [], parked := none, waited := 0 }
  let s := s.updCore c fun k =>
    let k := { k with trmst := count k.trmst, trmrp := countN k.trmrp (x.op.waited + waited) }
    if matSteps x.rec_ ≤ o.pos then completeOp 5 o k else k.setOp 5 o
  s.settleTiles c

/-! ### Products (03 R70, 09 R232) -/

/-- An operand's element at (t, l) of a step, without its scale, and the terms it is recoded into (03 R68). -/
def opndVal (x : TEnt) (v : LineData) (tk t l : Nat) : FVal :=
  let n := t + tk * l
  if blockFmt x.cfmt then codeVal x.cf (scaleType (x.scaleOf v n)) (x.codeAt v n) else x.valAt v n

def opndTerms (x : TEnt) (v : LineData) (tk t l : Nat) : Nat :=
  let n := t + tk * l
  if blockFmt x.cfmt then blockTerms x.cf (x.scaleOf v n) (x.codeAt v n) else termCount (x.valAt v n)

/-- The scale of the block that holds (t, l): none where the block is invalid or reserved. -/
def opndScale (x : TEnt) (v : LineData) (tk t l : Nat) : Option Int :=
  if blockFmt x.cfmt then
    let sc := x.scaleOf v (t + tk * l)
    if blockBad x.cf sc then none else some (blockScale sc)
  else some 0

/-- The weight of a product's leading bit, of those that are not zero. -/
def leadBit (p : FVal) : Option Int :=
  match p with
  | .fin _ m e => if m = 0 then none else some ((Nat.log2 m : Int) + e)
  | _ => none

/-- A product truncated to a multiple of 2^u, as that multiple. -/
def truncTo (u : Int) (p : FVal) : Int :=
  match p with
  | .fin neg m e =>
    let n : Int := if u ≤ e then (m * 2 ^ (e - u).toNat : Nat) else (m / 2 ^ (u - e).toNat : Nat)
    if neg then -n else n
  | _ => 0

def FVal.isNan (v : FVal) : Bool :=
  match v with
  | .nan => true
  | _ => false

def FVal.isInf (neg : Bool) (v : FVal) : Bool :=
  match v with
  | .inf n => n == neg
  | _ => false

/-- R70: the sum of one chunk from its products, before its scales. -/
def chunkSum (ps : List FVal) : FVal :=
  if ps.any FVal.isNan || (ps.any (FVal.isInf true) && ps.any (FVal.isInf false)) then .nan
  else if ps.any (FVal.isInf true) then .inf true
  else if ps.any (FVal.isInf false) then .inf false
  else match (ps.filterMap leadBit).max? with
    | none => .fin false 0 0
    | some t => ofScaled false ((ps.map (truncTo (t - 62))).foldl (· + ·) 0) (t - 62)

/-- A value rounded to FP32. -/
def roundF32 (v : FVal) : Nat := fpEncode fp32 .rne v

/-- R70: an accumulator element after one chunk. -/
def addChunk (acc : Nat) (s : FVal) : Nat := roundF32 (fAdd .rne (fpDecode fp32 acc) (fpDecode fp32 (roundF32 s)))

/-- The operands of a product step: entries, data, coordinates along K. -/
structure Product where
  a  : TEnt
  b  : TEnt
  va : LineData
  vb : LineData
  ka : Nat
  kb : Nat

def Product.tk (p : Product) : Nat := p.a.t[0]

/-- part(t) of R232. -/
def Product.part (p : Product) (t : Nat) : Bool := p.ka * p.tk + t < p.a.ext[0] && p.kb * p.tk + t < p.b.ext[0]

/-- The chunks of a step with the positions of each that take part; chunks without any are left out. -/
def Product.chunks (p : Product) : List (List Nat) :=
  let w := chunkWidth p.a p.b
  ((List.range (p.tk / w)).map fun c => (natRange (c * w) w).filter p.part).filter fun l => !l.isEmpty

/-- The sum of a chunk for output (i, j), with its scales. -/
def Product.sum (p : Product) (ts : List Nat) (i j : Nat) : FVal :=
  let t0 := ts.headD 0
  match opndScale p.a p.va p.tk t0 i, opndScale p.b p.vb p.tk t0 j with
  | some x, some y => (chunkSum (ts.map fun t => fMul (opndVal p.a p.va p.tk t i) (opndVal p.b p.vb p.tk t j))).scale (x + y)
  | _, _ => .nan

/-- An accumulator element after a step. -/
def Product.element (p : Product) (i j acc : Nat) : Nat := p.chunks.foldl (fun acc ts => addChunk acc (p.sum ts i j)) acc

/-- An accumulator with a window replaced. -/
def putWindow (z : Acc) (row col m n : Nat) (f : Nat → Nat → Nat → Nat) : Acc :=
  BitVec.ofNat 524288 (packW 32 ((List.range 16384).map fun e =>
    let i := e / 128
    let j := e % 128
    let old := accGet z i j
    if row ≤ i && i < row + m && col ≤ j && j < col + n then f (i - row) (j - col) old else old))

/-- The terms of the recoded operand: a row for each k-step, a count for each lane (09 R225). -/
def Product.terms (p : Product) (recB : Bool) : List (List Nat) :=
  let n := if recB then p.b.t[1] else p.a.t[1]
  (List.range p.tk).map fun t => (List.range n).map fun l =>
    if !p.part t then 0 else if recB then opndTerms p.b p.vb p.tk t l else opndTerms p.a p.va p.tk t l

/-- The column groups of a k-step: eight lanes each. -/
def laneGroups : Nat → List Nat → List (List Nat)
  | 0, _ => []
  | g + 1, l => l.take 8 :: laneGroups g (l.drop 8)

def groupMax (l : List Nat) : Nat := l.foldl max 0

/-- R226: when each group ends a k-step, from the ends of its last one and of all groups sixteen k-steps before; and the stretches
in which a group with terms is drift-stalled. That a group without terms in the k-step it is held at does not count is the model's choice
(log 114). -/
def advance (ends held work : List Nat) : List Nat × List (Nat × Nat) :=
  let gate := groupMax held
  let rows := (ends.zip work).map fun x => (max x.1 gate + x.2, x.1, gate, x.2)
  (rows.map (·.1), (rows.filter fun r => 0 < r.2.2.2 && r.2.1 < r.2.2.1).map fun r => (r.2.1, r.2.2.1))

/-- The stalls of a step, k-step by k-step; `past` holds the ends of earlier k-steps, latest first. -/
def driftFrom : List (List Nat) → List (List Nat) → List (Nat × Nat)
  | [], _ => []
  | work :: rest, past =>
    let (ends, stalls) := advance (past.headD (List.replicate 16 0)) (past.getD 15 (List.replicate 16 0)) work
    stalls ++ driftFrom rest (ends :: past.take 16)

/-- The cycles that at least one stretch covers. -/
def covered (l : List (Nat × Nat)) : Nat :=
  ((l.flatMap fun x => natRange x.1 (x.2 - x.1)).eraseDups).length

/-- The term counters after a step (09 R227). -/
def countTerms (p : Product) (recB : Bool) (k : Core) : Core :=
  let rows := p.terms recB
  let parts := (List.range p.tk).filter p.part
  let lanes := if recB then p.b.t[1] else p.a.t[1]
  let issued := (rows.map (·.sum)).sum
  let nonzero := (rows.map fun l => (l.filter (0 < ·)).length).sum
  let sync := (rows.map fun l => ((laneGroups 16 l).map fun g => groupMax g * g.length - g.sum).sum).sum
  let drift := covered (driftFrom (rows.map fun l => (laneGroups 16 l).map groupMax) [])
  { k with
    trmis := countN k.trmis issued
    trmzs := countN k.trmzs (parts.length * lanes - nonzero)
    trmsy := countN k.trmsy sync
    trmdr := countN k.trmdr drift }

/-- The tile blocks of an operand that a step decodes, each counted once (03 R62). -/
def countOperand (x : TEnt) (v : LineData) (tk lanes : Nat) (chunks : List (List Nat)) (k : Core) : Core :=
  if !blockFmt x.cfmt then k
  else
    let blocks := (List.range lanes).flatMap fun l => chunks.map fun ts => (ts.headD 0 + tk * l) / 32
    blocks.eraseDups.foldl (fun k b => countBlock x.cf (x.scaleOf v (32 * b)) k) k

/-- A window that passes the accumulator's edge (09 R232, R238). -/
def windowBad (row col : Int) (m n : Nat) : Bool := row < 0 || col < 0 || 128 < row + m || 128 < col + n

/-- A product or convolution step (09 R232). -/
def State.productStep (s : State) (c : CoreId) (x : MatOp) : State :=
  let r := x.rec_
  let i := matLoop r x.op.pos
  let ca := matCoords x.b[0] (matSa r) i
  let cb := matCoords x.b[1] (matSb r) i
  match s.operand c x (matTa r) (x.ent 0) ca [] false with
  | (s, none) => s
  | (s, some la) =>
    match s.operand c x (matTb r) (x.ent 1) cb [la] false with
    | (s, none) => s
    | (s, some lb) =>
      let a := tEnt (x.ent 0)
      let b := tEnt (x.ent 1)
      let row := matWindow r x.b[2] i 0
      let col := matWindow r x.b[2] i 1
      let k := s.core c
      if windowBad row col a.t[1] b.t[1] then s.setCore c (x.fail { code := 0x0403 } k)
      else match k.z[matZd r] with
        | none => s.setCore c (x.fail (accFault (matZd r)) k)
        | some z =>
          let p : Product := ⟨a, b, la.data, lb.data, ca[0].toNat, cb[0].toNat⟩
          let z' := putWindow z row.toNat col.toNat a.t[1] b.t[1] p.element
          let k := countTerms p (matRecB r) { k with z := k.z.set (matZd r) (some z') }
          let k := countOperand b lb.data p.tk b.t[1] p.chunks (countOperand a la.data p.tk a.t[1] p.chunks k)
          (s.setCore c (x.mark (matHb r) lb (x.mark (matHa r) la k))).stepDone c x

/-! ### Accumulator stores and loads (09 R238) -/

/-- An MZST step: the coordinates, the window and the accumulator are checked before the lookup, whose miss allocates without a
fill. -/
def State.storeStep (s : State) (c : CoreId) (x : MatOp) : State :=
  let r := x.rec_
  let i := matLoop r x.op.pos
  let ca := matCoords x.b[0] (matSa r) i
  let e := x.ent 0
  let a := tEnt e
  let row := matWindow r x.b[2] i 0
  let col := matWindow r x.b[2] i 1
  let k := s.core c
  if !a.coordsOk ca then s.setCore c (x.fail { code := 0x0405, tens := matTa r } k)
  else if windowBad row col a.t[1] a.t[0] then s.setCore c (x.fail { code := 0x0403 } k)
  else match k.z[matZd r] with
    | none => s.setCore c (x.fail (accFault (matZd r)) k)
    | some z =>
      match s.operand c x (matTa r) e ca [] true with
      | (s, none) => s
      | (s, some l) =>
        let val := fun (n : Nat) =>
          let j0 := n % a.t[0]
          let j1 := n / a.t[0]
          if a.inside (a.place ca n) then some (fpDecode fp32 (accGet z (row.toNat + j1) (col.toNat + j0))) else none
        let v := a.encodeLine (matRm r) ((List.range a.count).map val)
        let q := x.look (s.core c) (matTa r) e ca .none
        (s.updCore c fun k => x.mark (matHa r) l (k.setLine (writtenLine q v l))).stepDone c x

/-- An MZLD step. -/
def State.loadStep (s : State) (c : CoreId) (x : MatOp) : State :=
  let r := x.rec_
  let i := matLoop r x.op.pos
  let ca := matCoords x.b[0] (matSa r) i
  let a := tEnt (x.ent 0)
  match s.operand c x (matTa r) (x.ent 0) ca [] false with
  | (s, none) => s
  | (s, some l) =>
    let row := matWindow r x.b[2] i 0
    let col := matWindow r x.b[2] i 1
    let k := s.core c
    if windowBad row col a.t[1] a.t[0] then s.setCore c (x.fail { code := 0x0403 } k)
    else
      let z := (k.z[matZd r]).getD 0
      let z' := putWindow z row.toNat col.toNat a.t[1] a.t[0] fun j1 j0 _ => roundF32 (a.valAt l.data (j0 + a.t[0] * j1))
      let k := { k with z := k.z.set (matZd r) (some z') }
      let k := if blockFmt a.cfmt then
          (List.range (a.count / 32)).foldl (fun k b => countBlock a.cf (a.scaleOf l.data (32 * b)) k) k
        else k
      (s.setCore c (x.mark (matHa r) l k)).stepDone c x

/-! ### Look-ahead (09 R241) -/

/-- The record and step that lie `n` steps after the current one, among the records that will be performed and that nothing holds back
(06 R142). -/
def stepAhead (k : Core) : Nat → List EngOp → Option MatOp
  | _, [] => none
  | n, o :: rest =>
    if o.failed.isSome || !engineMayBegin k 5 o.id then none
    else match matOp? o with
      | none => stepAhead k n rest
      | some x =>
        let left := matSteps x.rec_ - o.pos
        if n < left then some { x with op := { o with pos := o.pos + n } } else stepAhead k (n - left) rest

/-- The operand lines of a later step looked up: a line allocated fills as TPF's does. -/
def State.lookAhead (s : State) (c : CoreId) (n : Nat) : State :=
  match stepAhead (s.core c) n (s.core c).e[(5 : Fin 6)].ops with
  | none => s
  | some x =>
    if (s.core c).enginesStop then s
    else
    let r := x.rec_
    let i := matLoop r x.op.pos
    let one := fun (s : State) (t : BitVec 12) (e : Rec128) (co : Vector Word 4) =>
      if !(tEnt e).coordsOk co then s
      else
        let q := { x.look (s.core c) t e co .none with origin := stepOrigin x.op x.idx r true, demand := false }
        (s.lookup c q).1
    let s := if matKind r = 0x12 then s else one s (matTa r) (x.ent 0) (matCoords x.b[0] (matSa r) i)
    let s := if matHasB (matKind r) then one s (matTb r) (x.ent 1) (matCoords x.b[1] (matSb r) i) else s
    s.settleTiles c

/-! ### Events -/

/-- ACCM (09 R228): ZD is valid and zero before the first step. `status` 2 says that it has been applied. -/
def applyAccm (x : MatOp) (k : Core) : Core × MatOp :=
  if matAccm x.rec_ && x.op.pos = 0 && x.op.status ≠ 2 then
    let o := { x.op with status := 2 }
    ({ k.setOp 5 o with z := k.z.set (matZd x.rec_) (some 0) }, { x with op := o })
  else (k, x)

/-- The head of e5 goes on: an ill-formed record's fault follows (R234), a record without steps completes, and otherwise its next
step is performed. e5 stops between steps for a pre-emption (R243). -/
def State.e5Step (s : State) (c : CoreId) (kinds : List Nat) (step : State → MatOp → State) : State :=
  let k := s.core c
  match k.head? 5 with
  | none => s
  | some o =>
    match matOp? o, o.failed with
    | none, _ => s
    | some x, some f =>
      if o.status ≠ 1 then s
      else
        let f := { f with src := engineSrc 5, bundle := o.bundle }
        let k := failRecord { o with status := 0 } f k
        s.setCore c { k with pend := k.pend ++ [⟨f, .engine 5 x.op.id⟩] }
    | some x, none =>
      if k.enginesStop || o.held || !engineMayBegin k 5 o.id || !kinds.contains (matKind x.rec_) then s
      else if matSteps x.rec_ = 0 then s.updCore c (completeOp 5 o)
      else
        let (k, x) := applyAccm x k
        step (s.setCore c k) { x with op := x.op.waitedTo (s.cycle c.die) true }

/-- MATRIX_STEP (09 R232): the current step of a product or convolution, or a look-ahead of up to eight steps (R241). -/
def execMatrixStep (c : CoreId) (ahead : Nat) (s : State) : Out :=
  if ahead = 0 then .next (s.e5Step c [0x10, 0x11] fun s x => s.productStep c x)
  else if ahead ≤ 8 then .next (s.lookAhead c ahead)
  else .next s

/-- ACCUMULATOR_STORE_STEP (09 R238). -/
def execAccumulatorStoreStep (c : CoreId) (ahead : Nat) (s : State) : Out :=
  if ahead = 0 then .next (s.e5Step c [0x12] fun s x => s.storeStep c x)
  else if ahead ≤ 8 then .next (s.lookAhead c ahead)
  else .next s

/-- ACCUMULATOR_LOAD_STEP (09 R238). -/
def execAccumulatorLoadStep (c : CoreId) (ahead : Nat) (s : State) : Out :=
  if ahead = 0 then .next (s.e5Step c [0x13] fun s x => s.loadStep c x)
  else if ahead ≤ 8 then .next (s.lookAhead c ahead)
  else .next s

/-- MZCLR_PERFORM (09 R239). -/
def execMzclrPerform (c : CoreId) (s : State) : Out :=
  let k := s.core c
  match k.ready? 5 with
  | none => .next s
  | some o =>
    match o.kind with
    | .mzclr z inv =>
      if k.enginesStop then .next s
      else .next (s.updCore c fun k => completeOp 5 o { k with z := k.z.set z (if inv then none else some 0) })
    | _ => .next s

end Sys2Proof.Machine
end

