-- ==== Sys2Proof/Machine/Resume.lean ====
section
/-! DEFINITION. What becomes of a trapping or saved group: GRESUME and GABORT (14 R313, R314; 17 R370) and the restoration of a
pre-empted group (14 R318). -/

namespace Sys2Proof.Machine

open Sys2Proof

/-! ### The modes that a fault admits (14 R312) -/

def admitsRetry (code : BitVec 16) : Bool :=
  !([0x0107, 0x0108, 0x0305, 0x0401, 0x0402, 0x0403, 0x0501] : List (BitVec 16)).contains code

def admitsSkip (code : BitVec 16) : Bool := code ≠ 0x0104

/-! ### Records that went out with a faulted operation (17 R370) -/

/-- A request record of a lost frame belongs to an operation or a part of one. -/
def TxFrame.lostFor (f : TxFrame) (c : CoreId) (test : TxRec → Bool) : Bool := f.lost && f.records.any fun t => t.core = c && test t

/-- Some link keeps a record of it to be sent again. -/
def State.keepsLost (s : State) (c : CoreId) (test : TxRec → Bool) : Bool := s.links.any fun x => x.2.tx.any (·.lostFor c test)

/-- Such records dropped: the operation completes as failed. -/
def State.dropLost (s : State) (c : CoreId) (test : TxRec → Bool) : State :=
  { s with links := s.links.map fun x => (x.1, { x.2 with tx := x.2.tx.filter fun f => !f.lostFor c test }) }

/-! ### Retry (14 R314) -/

/-- A part that faulted is sent again: as its record where one is kept, else through its leaf, which is translated anew. -/
def State.retryPart (s : State) (c : CoreId) (id i : Nat) (p : Part) : State :=
  match p.stage with
  | .failed _ =>
    if s.keepsLost c fun t => t.id = id && t.part = i then s.setPart c id i .atSlice
    else (s.setPart c id i .sent).updCore c fun k => missPage k p.va.toNat
  | _ => s

def State.retryAccess (s : State) (c : CoreId) (id : Nat) : State :=
  match (s.core c).access? id with
  | none => s
  | some a =>
    let s := s.updCore c fun k => k.setAccess { a with raised := false }
    let s := ((List.range a.parts.length).zip a.parts).foldl (fun s x => s.retryPart c id x.1 x.2) s
    s.settleTiles c

/-- The source range of an FWR that is retried is in the scoreboard again (17 R371). -/
def EngOp.rangeAgain (o : EngOp) : List Range :=
  match o.kind with
  | .fwr off len _ => [⟨o.id, off, off + len, false⟩]
  | _ => []

/-- An operation that stopped goes on at the element, record or step that faulted. -/
def retryOp (e : Fin 6) (id : Nat) (k : Core) : Core :=
  match k.findOp e id with
  | none => k
  | some o => { k with ranges := k.ranges ++ o.rangeAgain }.setOp e { o with failed := none, lines := if e = 5 then [] else o.lines, parked := none }

/-- The commands that waited for a fill look up again: the V slot's when it issues, e5's and TPIN's now. -/
def State.retryWaiter (s : State) (c : CoreId) (w : WaiterKind) : State :=
  match w with
  | .v => s
  | .e5 =>
    match (s.core c).head? 5 with
    | none => s
    | some o => s.updCore c (retryOp 5 o.id)
  | .m id => s.retryAccess c id

/-- The line whose write-back met a fault; none where the group has left the core since. -/
def Core.backLine (k : Core) (t : BitVec 12) (c : Vector Word 4) : Option TileLine :=
  k.lines.find? fun l => l.tens = t && l.c = c && l.base == .writingBack

/-- What a resumed group does with a recorded fault in retry mode. A line still writing back is written again once no fault stands for
it. -/
def State.retryFault (s : State) (c : CoreId) (p : PendFault) : State :=
  match p.op with
  | .access id => s.retryAccess c id
  | .engine e id => s.updCore c (retryOp e id)
  | .fill who => who.foldl (fun s w => s.retryWaiter c w) s
  | .tileWait w => s.retryWaiter c w
  | .writeBack t x => s.updCore c fun k => if (k.backLine t x).isSome then k else tileDone TileCmd.isWb t x k
  | _ => s

/-! ### Skip (14 R314) -/

/-- A slot passes its bundle. -/
def passBundle (n : BitVec 32) (sl : Slot) (k : Core) : Core :=
  k.updSlot sl fun t => if t.pc = n then { t with pc := n + 1, solo := none } else t

/-- A slot performs the instruction at its bundle with a destination of zero, once that can be written: a read that it awaited there, or the
arrival that met a synchronous barrier fault (14 R314, 15 R327). -/
def passFailed (n : BitVec 32) (sl : Slot) (k : Core) : Core :=
  k.updSlot sl fun t => if t.pc = n then { t with failed := true } else t

/-- The slots that a synchronous fault stopped: those of an illegal-instruction's mask, else the one that met it. -/
def faultSlots (p : PendFault) (sl : Slot) : List Slot :=
  if p.fr.code = 0x0101 then allSlots.filter fun x => p.fr.aux.getLsbD (Slot.fin x).val || x == sl else [sl]

/-- An access performed without what faulted: zero for what it did not load, nothing further stored. -/
def State.skipAccess (s : State) (c : CoreId) (id : Nat) : State :=
  match (s.core c).access? id with
  | none => s
  | some a =>
    let s := s.dropLost c fun t => t.id = id
    match a.kind with
    | .tile _ _ _ _ _ => s.updCore c (finishTile a)
    | .mem _ true st =>
      let s := if st then s.ackParts c a 0 else s
      s.updCore c fun k =>
        retire a (if a.parts.length = 32 then deliverVec a (BitVec.ofNat 32768 (leNat a.bytes)) k
          else deliver a (extendTo a.ty (leNat a.bytes)) k)
    | .mem _ false _ => (s.ackParts c a 0).updCore c (retire a)
    | _ => s.updCore c fun k => retire a (deliver a 0 k)

/-- An operation that completes as failed: its token is pushed and its range leaves; a FATOM's destination is written zero. -/
def skipOp (e : Fin 6) (id : Nat) (k : Core) : Core :=
  match k.findOp e id with
  | none => k
  | some o =>
    let o := { o with failed := none, sent := [], lines := [], parked := none, got := none }
    completeOp e o (deliverTo o.slot o.id o.dropped o.dest 0 (k.setOp e o))

/-- A V-slot command that is to complete as failed when it issues again: its waiter names no tile. -/
def failedWaiter : Waiter := ⟨.v, 0, 0, Vector.replicate 4 (BitVec.allOnes 64), 0, false, none, false, true⟩

def State.skipWaiter (s : State) (c : CoreId) (w : WaiterKind) : State :=
  match w with
  | .v => s.updCore c (·.park failedWaiter)
  | .e5 =>
    match (s.core c).head? 5 with
    | none => s
    | some o => s.updCore c (skipOp 5 o.id)
  | .m id => s.skipAccess c id

def State.skipFault (s : State) (c : CoreId) (p : PendFault) : State :=
  match p.op with
  | .lane sl n =>
    if p.fr.code = 0x0501 then s.updCore c (passFailed n sl)
    else s.updCore c fun k => (faultSlots p sl).foldl (fun k x => passBundle n x k) k
  | .read sl n => s.updCore c (passFailed n sl)
  | .trap n => s.updCore c (passBundle n .c)
  | .access id => s.skipAccess c id
  | .engine e id =>
    let s := s.dropLost c fun t => t.id = id
    s.updCore c (skipOp e id)
  | .fill who => who.foldl (fun s w => s.skipWaiter c w) s
  | .tileWait w => s.skipWaiter c w
  | .writeBack t x => s.updCore c fun k =>
      match k.backLine t x with
      | some l => endWriteBack l k
      | none => tileDone TileCmd.isWb t x k
  | .rendezvous | .other => s

/-! ### GRESUME and GABORT (14 R313) -/

/-- The core that an argument names; `mode` is bit 16. None where another bit is set or no such core exists. -/
def groupArg (arg : Word) (mode : Bool) : Option CoreId :=
  let v := arg.toNat
  if bitsOf v 7 1 ≠ 0 || bitsOf v 10 6 ≠ 0 || bitsOf v 17 47 ≠ 0 || (!mode && bitsOf v 16 1 ≠ 0) then none
  else if h : bitsOf v 0 7 < 96 then some ⟨Fin.ofNat 4 (bitsOf v 8 2), ⟨bitsOf v 0 7, h⟩⟩ else none

/-- The core on which a command acts: where it has come while its group was being pre-empted, the one to which the group was restored
(R315). -/
def State.groupAt (s : State) (ctx : BitVec 10) (c : CoreId) : CoreId :=
  (allCores.find? fun d => (s.core d).gcmd = some c && (s.core d).ctxId = some ctx).getD c

/-- A command on a trapping group of an active context: refused where the argument is bad, the context is not active, or no such group is
there; it waits until the group is quiescent, and where a pre-emption is under way until the group is restored. -/
def State.groupCommand (s : State) (op : Nat) (ctx : BitVec 10) (arg : Word) (mode : Bool)
    (act : CoreId → GroupInfo → State → State) : State :=
  s.command op ctx arg fun x s =>
    match groupArg arg mode with
    | none => s.refuseValue
    | some named =>
      let c := s.groupAt ctx named
      let k := s.core c
      if s.saved.any fun v => v.ctx = ctx && v.core.gcmd = some named then s
      else match k.grp, k.stat with
        | some g, .trapping quiet =>
          if g.ctx ≠ ctx then s.refuseState
          else if k.pre.isSome then s.setCore c { k with gcmd := some named }
          else if x.state ≠ .active then s.refuseState
          else if !quiet then s
          else act c g (s.setCore c { k with gcmd := none })
        | _, _ => s.refuseState

/-- GRESUME in one mode: refused by value unless every fault recorded admits it. -/
def State.gresume (s : State) (c : CoreId) (admits : BitVec 16 → Bool) (one : State → PendFault → State) : State :=
  let fs := (s.core c).faults
  if !fs.all fun p => admits p.fr.code then s.refuseValue
  else (((fs.foldl one s).updCore c resumeCore).settleTiles c).replyDone

/-- GRESUME_RETRY: mode 0. -/
def execGresumeRetry (ctx : BitVec 10) (arg : Word) (s : State) : Out :=
  if arg.getLsbD 16 then .next s
  else .next (s.groupCommand 0x13 ctx arg true fun c _ s => s.gresume c admitsRetry fun s p => s.retryFault c p)

/-- GRESUME_SKIP: mode 1. -/
def execGresumeSkip (ctx : BitVec 10) (arg : Word) (s : State) : Out :=
  if !arg.getLsbD 16 then .next s
  else .next (s.groupCommand 0x13 ctx arg true fun c _ s => s.gresume c admitsSkip fun s p => s.skipFault c p)

/-- Lines of an aborted group: dirty ones are invalidated without a write-back, adopted ones too. -/
def abortLines (k : Core) : Core := k.lines.foldl (fun k l => if l.dirty || l.adopt.isSome then k.dropLine l else k) k

/-- A group stopped for good: its operations and lines are discarded, its landing slots that are not free torn with cause 3 (18 R389), and
its core is free. -/
def State.abortGroup (s : State) (c : CoreId) : State :=
  let s := s.dropLost c fun _ => true
  ((s.updCore c abortLines).tear c (fun b => slotSst b ≠ sstFree) 3).vacate c

/-- GABORT: the group is faulted, and its launch with it. -/
def execGabort (ctx : BitVec 10) (arg : Word) (s : State) : Out :=
  .next (s.groupCommand 0x14 ctx arg false fun c g s =>
    (((s.abortGroup c).faultLaunch g.ctx g.queue).endGroup g.ctx g.queue).replyDone)

/-! ### Restoration (14 R318, 08 R221, 18 R387) -/

/-- A saved group that another of the same die goes before: a higher priority, or an equal one saved earlier. -/
def State.restoreFirst (s : State) (v : Saved) (d : Fin 4) : Bool :=
  let part := s.partOf v.ctx
  let before := s.saved.takeWhile fun w => !(w.ctx = v.ctx && w.slot = v.slot)
  let rival := fun (w : Saved) => s.ctxRuns w.ctx && s.partOf w.ctx = part && s.resumeDie w = some d
  (s.saved.all fun w => !(rival w && v.info.pri < w.info.pri)) && before.all fun w => !(rival w && w.info.pri = v.info.pri)

/-- A placed group of higher priority that may start takes the core first, and so does a pending one that would be placed on the die
(12 R287, R290). -/
def State.placedFirst (s : State) (v : Saved) (d : Fin 4) : Bool :=
  let part := s.partOf v.ctx
  let placed := (s.startNext part d).any fun p => v.info.pri < p.2.1.pri
  placed || s.launches.any fun l =>
    l.stage == .dispatching && v.info.pri < l.pri && s.partOf l.ctx = part && s.ctxRuns l.ctx && s.mayStart l.ctx &&
      (s.ctx? l.ctx).any fun x => (l.pendingOn x d).isSome && (l.dieLevel.isSome || s.batchDie x l = some d)

/-- The record at an index of a group's record area. -/
def Core.recordAt (k : Core) (i : BitVec 12) : Rec64 := BitVec.ofNat 512 (lsNat k (k.layout.records.off + 64 * i.toNat) 64)

/-- The record and entries of an operation read again (06 R153, 09 R243). A record that has become ill-formed, or a handle entry that is no
longer valid, stays as it was read at issue (log 84). -/
def State.rereadOp (s : State) (c : CoreId) (o : EngOp) : State × EngOp :=
  match o.kind with
  | .copy i r b h sh =>
    let r1 := (s.core c).recordAt i
    let r := if (copyIllFormed (matKind r) r1).isNone then r1 else r
    let f := copyRec r
    let (s, h1) := s.handleEntry c f.hdl
    let (s, sh1) := if isBlockCode f.sfmt then s.handleEntry c f.shdl else (s, sh)
    let h1 := if (handleOf f.hdl h1).isSome then h1 else h
    let sh1 := if (handleOf f.shdl sh1).isSome then sh1 else sh
    (s, { o with kind := .copy i r b h1 sh1 })
  | .matrix i r b ents =>
    let r1 := (s.core c).recordAt i
    let accs := ((s.core c).grp.map (·.accs)).getD 0
    let read := fun (s : State) (r : Rec64) =>
      let (s, ea) := s.tensorEntry c (matTa r)
      let (s, eb) := if matHasB (matKind r) then s.tensorEntry c (matTb r) else (s, ents.getD 1 0)
      (s, ea, eb)
    let (t, ea, eb) := read s r1
    let r := if (matIllFormed (matKind r) accs r1 (tEnt ea) (tEnt eb)).isNone then r1 else r
    let (s, ea, eb) := read t r
    (s, { o with kind := .matrix i r b [ea, eb] })
  | _ => (s, o)

def State.rereadQueue (s : State) (c : CoreId) (e : Fin 6) : State :=
  ((s.core c).e[e].ops).foldl (fun s o =>
    let (s, o) := s.rereadOp c o
    s.updCore c fun k => k.setOp e o) s

/-- An adopted tag adopts its slot again with the saved edition, as LZADOPT does (18 R384, R387). -/
def State.readopt (s : State) (c : CoreId) (l : TileLine) (z : Fin 16) (j : Nat) : State :=
  match (s.clearTag c l).roomFor c l 0 with
  | (s, none) => s
  | (s, some idx) =>
    s.updCore c fun k =>
      let data := BitVec.ofNat 262144 (lsNat k (k.layout.slotData z j) (512 * l.gran))
      let l := { l with idx := idx, data := data, dirty := false, base := .valid, grp := k.serial, stamp := k.tclock, out := none
                        last := false, stream := false, pin := false, pf := false, pfHit := false }
      countAdopt z ({ k with lines := k.lines ++ [l], tclock := k.tclock + 1 }.putSlotRec z j (putSst (k.slotRec z j) sstAdopted))

/-- Bytes of memory from an address on, as cells from 0. -/
def cellsFrom (mem : List Host.Cell) (a n : Nat) : List Host.Cell :=
  (mem.filter fun x => decide (a ≤ x.1 ∧ x.1 < a + n)).map fun x => (x.1 - a, x.2)

/-- The number that 4 KiB of cells hold, from an offset on. -/
def cellsValue (l : List Host.Cell) (off : Nat) : VReg :=
  BitVec.ofNat 32768 ((l.filter fun x => decide (off ≤ x.1 ∧ x.1 < off + 4096)).map fun x => x.2.toNat * 256 ^ (x.1 - off)).sum

/-- A stretch of a save image verifies under a key: every line of it was written under that key, and none is poisoned (16 R337). -/
def State.verifies (s : State) (key : KeyTag) (pa n : Nat) : Bool :=
  let inside := fun line => decide (pa / 128 ≤ line ∧ line < (pa + n) / 128)
  ((s.lmeta.filter fun m => inside m.line && m.key.gen = key.gen).length = n / 128) && !s.poison.any fun p => inside (p / 8)

/-- A region of a save image read back under key slot 0. One that does not verify gives arbitrary bytes (log 45). -/
def State.readRegion (s : State) (x : Context) (slot : Nat) (r : Nat × Nat) : List Host.Cell :=
  let pa := saveAddr x slot + r.1
  let s := ((s.slices.filter fun l => pa / 128 ≤ l.line && l.line < (pa + r.2) / 128 && !l.shared).map (·.line)).foldl State.recallLine s
  if ((s.keyTag x.id 0).any fun k => s.verifies k pa r.2) || r.2 = 0 then cellsFrom s.mem pa r.2
  else
    let v : BitVec (8 * r.2) := Config.freeBits (8 * r.2) (s.freeCtr + r.1)
    ((natRange 0 r.2).zip (bytesOf v 0 r.2)).filter fun c => c.2 != 0

/-- The entries of a vector queue with the data of an image, which has four entries for each. -/
def withQueue (l : List Host.Cell) (q : Fin 12) (es : List (QEntry 32768)) : List (QEntry 32768) :=
  es.mapIdx fun i e => { e with data := e.data.map fun _ => cellsValue l (16384 * q.val + 4096 * i) }

/-- The resident registers with the data of an image, where they stand by name. -/
def withResidents (l : List Host.Cell) (k : Core) : Core :=
  let names := (List.range 1536).filter fun n => (k.vloc n).any (·.isResident)
  (names.zip (List.range names.length)).foldl (fun k x =>
    match k.vloc x.1 with
    | some (.resident _ t) => k.setV x.1 (.resident (cellsValue l (4096 * x.2)) t)
    | _ => k) k

/-- An accumulator with the data of an image. -/
def accFrom (l : List Host.Cell) (z : Fin 8) : Acc :=
  BitVec.ofNat 524288 ((List.range 16).map fun i => (cellsValue l (65536 * z.val + 4096 * i)).toNat * 2 ^ (32768 * i)).sum

/-- A saved core with what its image holds at the offsets that R316 gives: the PCs, ends and halts of the header, RESUMES, vector queues,
accumulators, resident registers and the window. -/
def State.fromImage (s : State) (x : Context) (v : Saved) : Core :=
  let read := s.readRegion x v.slot
  let head := ((read (0, 128)).map fun c => c.2.toNat * 256 ^ c.1).sum
  let queues := read (0x020000, 0x030000)
  let accs := read (0x050000, 0x080000)
  let k := withResidents (read (0x0D0000, 0x100000)) v.core
  { k with
    slots := Vector.ofFn fun i =>
      { k.slots[i] with pc := BitVec.ofNat 32 (bitsOf head (192 + 32 * i.val) 32), ended := head.testBit (327 + i.val) }
    e := Vector.ofFn fun i => { k.e[i] with halted := head.testBit (320 + i.val) }
    resumes := BitVec.ofNat 16 (bitsOf head 368 16)
    vq := Vector.ofFn fun i => withQueue queues i k.vq[i]
    z := Vector.ofFn fun i => k.z[i].map fun _ => accFrom accs i
    ls := read (0x1D0000, v.info.layout.window) }

/-- A core as a restored group finds it: the group's state from its image, the core's own lines, translations and LZSEQ. Its copies of
handle and tensor entries are read anew, and its bounds are those of the last RESUME (11 R269). -/
def restored (v : Saved) (x : Context) (k : Core) : Core :=
  { v.core with
    grp := some { v.info with rzb := x.rzb.toNat, pfb := x.pfb.toNat, peb := x.peb.toNat }
    stat := if v.trap then .trapping true else .running
    pre := none
    landSince := none
    nextId := max k.nextId v.core.nextId
    owner := some v.ctx
    winEnd := v.info.layout.window
    lines := k.lines
    hand := k.hand
    tclock := k.tclock
    leaves := k.leaves
    nonleaf := k.nonleaf
    walks := []
    repins := v.pins.filter (·.adopt.isNone)
    hcache := []
    tcache := []
    lzseq := k.lzseq
    slots := v.core.slots.map fun t => { t with blk := none, arrived := none }
    resumes := if v.core.resumes = BitVec.allOnes 16 then v.core.resumes else v.core.resumes + 1 }

/-- The records that a group still has out follow it to its core. -/
def State.moveRecords (s : State) (a b : CoreId) (k : Core) : State :=
  let mine := fun (t : TxRec) => t.core = a && ((k.e4Of t.rec_.rtag).isSome || (k.copyOf t.rec_.rtag).isSome || (k.access? t.id).isSome)
  { s with links := s.links.map fun x => (x.1, { x.2 with
      tx := x.2.tx.map fun f => { f with records := f.records.map fun t => if mine t then { t with core := b } else t } }) }

/-- A saved group restored on a core, before any slot issues. -/
def State.restoreGroup (s : State) (v : Saved) (x : Context) (c : CoreId) : State :=
  let s := if (s.core c).owner = some v.ctx then s else s.clearCore c
  let grows := (s.core c).winEnd < v.info.layout.window
  let v := { v with core := s.fromImage x v }
  let s := { s.updCore c (restored v x) with saved := s.saved.filter fun w => !(w.ctx = v.ctx && w.slot = v.slot) }
  let s := s.fitLines c grows
  let s := s.moveRecords v.at_ c v.core
  let s := ([1, 2, 3, 5] : List (Fin 6)).foldl (fun s e => s.rereadQueue c e) s
  let s := v.pins.foldl (fun s l =>
    match l.adopt with
    | some (z, j) => s.readopt c l z j
    | none => s) s
  let s := s.repinNext c (s.core c).repins
  if v.trap then s.groupError c { code := 0x0604 } else s

/-- The kernel of a saved group still fits the SRAM of its context's cores (01 R18). -/
def State.stillFits (s : State) (v : Saved) (x : Context) : Bool :=
  (s.launch? v.ctx v.info.queue).all fun l => v.info.layout.window + 512 * kdCmin l.desc ≤ 131072 * s.sram x

/-- A saved group discarded as GABORT discards one, with an error record that names its queue (01 R18). -/
def State.discardSaved (s : State) (v : Saved) : State :=
  let s := s.dropLost v.at_ fun t => (v.core.e4Of t.rec_.rtag).isSome || (v.core.copyOf t.rec_.rtag).isSome || (v.core.access? t.id).isSome
  let s := { s with saved := s.saved.filter fun w => !(w.ctx = v.ctx && w.slot = v.slot) }
  let s := s.appendError v.ctx { code := 0x0603, src := 12 } 0 0 v.info.queue.toNat
  (((s.faultLaunch v.ctx v.info.queue).endGroup v.ctx v.info.queue)).finishDrain v.ctx

/-- GROUP_RESTORE: the lowest-numbered free core of the group's die takes it. -/
def execGroupRestore (ctx : BitVec 10) (save : Nat) (s : State) : Out :=
  match s.saved.find? (fun v => v.ctx = ctx && v.slot = save), s.ctx? ctx with
  | some v, some x =>
    if s.ctxRuns ctx && !s.stillFits v x then .next (s.discardSaved v)
    else match s.resumeDie v with
    | none => .next s
    | some d =>
      if !s.ctxRuns ctx || !s.restoreFirst v d || s.placedFirst v d then .next s
      else match s.freeCores (s.partOf ctx) d with
        | [] => .next s
        | c :: _ => .next (s.restoreGroup v x c)
  | _, _ => .next s

end Sys2Proof.Machine
end

