-- ==== Sys2Proof/Machine/Suspend.lean ====
section
/-! DEFINITION. Contexts suspended, by command or by the quarantine of a chiplet (11 R273; 12 R283; 17 R350), and key slots that a die
loses (11 R276). -/

namespace Sys2Proof.Machine

open Sys2Proof

/-- Every group of a context on a core begins to be pre-empted (14 R315). -/
def preemptFor (cause : PreemptCause) (k : Core) : Core := if k.pre.isSome then k else { k with pre := some .stopping, preCause := cause }

def State.preemptAll (s : State) (test : CoreId → GroupInfo → Bool) (cause : PreemptCause) : State :=
  allCores.foldl (fun s c => if ((s.core c).grp).any (test c) then s.updCore c (preemptFor cause) else s) s

/-- The queues of a context enter their suspended state, but for halted ones (12 R283). -/
def State.suspendQueues (s : State) (ctx : BitVec 10) : State :=
  (s.queues.filter fun q => q.ctx = ctx && q.state ≠ .halted && q.state ≠ .suspended).foldl (fun s q =>
    s.setQueue { q with state := .suspended, kept := q.state }) s

/-- R273: dispatch stops, the running groups are pre-empted, and the queues are suspended. -/
def State.suspendCtx (s : State) (ctx : BitVec 10) : State :=
  let s := s.updCtx ctx fun x => { x with state := .suspended }
  (s.preemptAll (fun _ g => g.ctx = ctx) .suspend).suspendQueues ctx

def State.setChip (s : State) (c : Chip) (st : ChipState) : State :=
  { s with chips := s.chips.map fun x => if x.1 = c then (c, st) else x }

/-- The slots of a context that hold a key. -/
def Context.held (x : Context) : List (Fin 16) := (List.finRange 16).filter fun i => x.keys[i].isSome

/-- A die loses its key slots (11 R276). -/
def State.loseKeys (s : State) (d : Fin 4) : State :=
  { s with ctxs := s.ctxs.map fun x =>
      if (s.partDies x.part).contains d then { x with lost := x.lost.filter (·.1 ≠ d) ++ x.held.map fun n => (d, n) } else x }

/-- The contexts whose partition includes a die. -/
def State.ctxsOn (s : State) (d : Fin 4) : List Context := s.ctxs.filter fun x => (s.partDies x.part).contains d

/-- Quarantine suspends the active contexts of a die's partitions, with an error record each (17 R350). -/
def State.suspendOn (s : State) (d : Fin 4) : State :=
  ((s.ctxsOn d).filter (·.state = .active)).foldl (fun s x =>
    (s.suspendCtx x.id).appendError x.id { code := 0x0603, src := 12 } 0 d.val 0) s

/-- Lines that an S-die's loss takes: which granules lie on it is free (log 10), but the lines that stay fit the pool of a core with
2 MiB, and an adopted line lies in the window, which is the C-die's. The others are invalidated without a write-back, and the dirty
ones counted in KDROP (01 R18). -/
def State.loseLines (s : State) (c : CoreId) (total : Nat) : List TileLine → Nat → State
  | [], _ => s
  | l :: rest, used =>
    if l.adopt.isSome then s.loseLines c total rest used
    else if used + l.gran ≤ total && Config.draw s.freeCtr % 2 = 0 then s.drew.loseLines c total rest (used + l.gran)
    else
      let s := s.drew.updCore c fun k => k.dropLine l
      (if l.dirty then s.updCtx l.ctx fun x => { x with kdrop := count x.kdrop } else s).loseLines c total rest used

def State.loseGranules (s : State) (c : CoreId) : State :=
  s.loseLines c ((16 * 131072 - (s.core c).winEnd) / 512) (s.core c).lines 0

/-- Quarantine of a chiplet (17 R350, 01 R18): for a C-die its key slots are erased, for an S-die the lines on it are lost; the
contexts of the partitions that include the C-die are suspended. -/
def State.quarantineChip (s : State) (c : Chip) : State :=
  let s := s.setChip c .quarantined
  match c with
  | .cdie d => (s.loseKeys d).suspendOn d
  | .sdie d =>
    let s := s.suspendOn d
    (allCores.filter (·.die = d)).foldl (fun s c => s.loseGranules c) s
  | .idie => s

end Sys2Proof.Machine
end

