-- ==== Sys2Proof/Machine/LinkFail.lean ====
section
/-! DEFINITION. What a link does when it loses its keys or fails (17 R352, R370; 18 R389), die resets (17 R358, R359) and the links of a
quarantined chiplet (17 R350). -/

namespace Sys2Proof.Machine

open Sys2Proof

/-! ### Ends -/

/-- The chiplets that a die link joins (17 R351). -/
def linkEnds (i : BitVec 11) : List Chip :=
  match i.toNat with
  | 0 => [.cdie 0, .cdie 1]
  | 1 => [.cdie 0, .cdie 2]
  | 2 => [.cdie 0, .cdie 3]
  | 3 => [.cdie 1, .cdie 2]
  | 4 => [.cdie 1, .cdie 3]
  | 5 => [.cdie 2, .cdie 3]
  | 6 => [.cdie 0, .idie]
  | 7 => [.cdie 1, .idie]
  | 8 => [.cdie 2, .idie]
  | 9 => [.cdie 3, .idie]
  | _ => []

def isDieLink (i : BitVec 11) : Bool := i.toNat < 10

/-- The C-dies that a link joins. -/
def linkDies (i : BitVec 11) : List (Fin 4) := (linkEnds i).filterMap fun c =>
  match c with
  | .cdie d => some d
  | _ => none

/-- The die links of a die. -/
def dieLinksOf (d : Fin 4) : List (BitVec 11) := ((List.range 10).map (BitVec.ofNat 11)).filter fun i => (linkDies i).contains d

/-- A link end without keys: dark or failed. Frames set aside for a retry stay (17 R370). -/
def LinkEnd.unkeyed (l : LinkEnd) (st : LinkState) (cause : BitVec 8) : LinkEnd :=
  { l with state := st, cause := cause, txki := false, rxki := false, win := false, fn := 0, rxKeys := Vector.replicate 2 false
           winL := 0, winLeft := 0, seen := [], attempts := 0, tx := l.tx.filter (·.lost), rolling := false, report := none
           closing := none, snoops := [], overdue := [] }

/-- A link end just keyed: index 0 in both directions, numbering from 0 (17 R352). -/
def LinkEnd.keyed (l : LinkEnd) : LinkEnd :=
  { l.unkeyed .keyed l.cause with rxKeys := (Vector.replicate 2 false).set 0 true }

/-! ### Failure (17 R370) -/

/-- A record that its link never acknowledged: its operation completes as failed. -/
def failRec (t : TxRec) (k : Core) : Core :=
  let f := fun (va : Nat) => fabricFault va 1 0 0
  match k.e4Of t.rec_.rtag with
  | some o =>
    match o.kind with
    | .freq _ _ => k.setOp 4 (o.resolved 3)
    | .lzput _ _ => k.setOp 4 { o with sent := [], status := if o.status % 2 ^ 16 = 0 then o.status + 2 else o.status }
    | _ => failSent 4 o (f t.va) k
  | none =>
    match k.copyOf t.rec_.rtag with
    | some (e, o) => failSent e o (copyRecFault o t f) k
    | none =>
      match k.lineOf t.rec_.rtag with
      | some l => failWriteBack l (f t.va) k
      | none =>
        match k.access? t.id with
        | none => k
        | some a =>
          match a.kind with
          | .lzgrant _ _ _ _ => k.setAccess { a with raised := true, wv := 3 }
          | _ => failPart t f a k

def State.failSentRec (s : State) (t : TxRec) : State :=
  if isEngineTag t.rec_.rtag then s.queueAnswer t.rec_.rtag (.failed (fabricFault t.va 1 0 0))
  else s.updCore t.core (failRec t)

/-- A frame of a link that fails: the records that a retry sends again are kept. -/
def State.keptFrame (s : State) (f : TxFrame) : TxFrame :=
  { f with
    lost := true
    records := f.records.filter fun t =>
      isRequest t.rec_ && (f.lost || (!isEngineTag t.rec_.rtag && keepsRec (s.core t.core) t)) }

/-- An unfinished LZPUT of a core to a die of this package that can no longer be reached ends with status 2, whether it has sent a record or
not (18 R389). -/
def cutLzputs (dev : BitVec 16) (far : Fin 4) (k : Core) : Core :=
  k.e[(4 : Fin 6)].ops.foldl (fun k o =>
    match o.kind with
    | .lzput g _ =>
      let v := leNat g
      if BitVec.ofNat 16 (bitsOf v 16 16) = dev && bitsOf v 39 2 = far.val && !o.held && o.failed.isNone &&
          (o.pos < bitsOf v 96 32 || !o.sent.isEmpty) then
        k.setOp 4 { o.cutOff with sent := [] }
      else k
    | _ => k) k

/-- A received record within the package that crosses between two dies. -/
def InRec.crosses (r : InRec) (a b : Fin 4) : Bool :=
  r.link.isNone &&
    let x := bitsOf (recScore r.rec_).toNat 7 2
    let y := bitsOf r.dest.toNat 7 2
    (x = a.val && y = b.val) || (x = b.val && y = a.val)

/-- Landing traffic between two dies of the package is cut (18 R389). -/
def State.cutDies (s : State) (a b : Fin 4) : State :=
  let cut := fun (here far : Fin 4) (s : State) => (allCores.filter (·.die = here)).foldl (fun s c =>
    (s.tear c (fun r => awaitsLanding r && slotSdev r = s.device.toNat && bitsOf (slotScore r) 7 2 = far.val) 1).updCore c
      (cutLzputs s.device far)) s
  { cut b a (cut a b s) with inrecs := s.inrecs.filter fun r => !r.crosses a b }

/-- Landing slots that await a device are torn (18 R389). -/
def State.tearFrom (s : State) (dev : BitVec 16) : State :=
  allCores.foldl (fun s c => s.tear c (fun r => awaitsLanding r && slotSdev r = dev.toNat) 1) s

/-- An exchange with a chiplet begins now (17 R349). -/
def State.setExam (s : State) (c : Chip) : State := { s with exams := (c, s.icycles) :: s.exams.filter (·.1 ≠ c) }

/-- Links of a die that drains for its reset are dark: from the last of them on it can answer (17 R349, R360). -/
def State.noteDark (s : State) (i : BitVec 11) : State :=
  (linkDies i).foldl (fun s d => if s.resets[d].any (·.settled) then s.setExam (.cdie d) else s) s

/-- R370: a link goes to failed. -/
def State.failLink (s : State) (i : BitVec 11) (cause : BitVec 8) : State :=
  match s.link? i with
  | none => s
  | some l =>
    let sent := ((l.tx.filter fun f => !f.lost).flatMap (·.records)).filter fun t => isRequest t.rec_
    let kept := (l.tx.map s.keptFrame).filter fun f => !f.records.isEmpty
    let s := (s.setLink i ({ l with tx := kept }.unkeyed .failed cause)).noteDark i
    let s := { s with inrecs := s.inrecs.filter fun r => r.link ≠ some i }
    let s := sent.foldl State.failSentRec s
    match linkDies i with
    | [a, b] => s.cutDies a b
    | [_] => s
    | _ => s.tearFrom l.peer

/-! ### What a die reset does (17 R358 to R360) -/

/-- Requests that wait at a die's slices are made again by the cores that sent them. -/
def State.resendAt (s : State) (d : Fin 4) : State :=
  let reqs := ((s.mshrs.filter (·.die = d)).flatMap (·.waiting)) ++ (s.ingress.filter (·.1 = d)).map (·.2)
  let s := { s with mshrs := s.mshrs.filter (·.die ≠ d), ingress := s.ingress.filter (·.1 ≠ d) }
  reqs.foldl (fun s r => s.setPart r.core r.id r.part .sent) s

/-- Ownership that a die holds returns, and nothing of its time is kept. -/
def DirEntry.forget (e : DirEntry) (d : Fin 4) : DirEntry :=
  { e with owner := if e.owner = some d then none else e.owner, since := 0, lost := e.lost.set d none }

/-- Copies that other dies share of lines homed on a die are dropped (R360). -/
def State.dropHomed (s : State) (d : Fin 4) : State :=
  { s with slices := s.slices.filter fun l => !(l.shared && (s.partAt (128 * l.line)).any fun p => s.homeDie p (128 * l.line) = d) }

/-- PART of a context: as its descriptor holds it until an ACTIVATE has read it. -/
def State.ctxPart (s : State) (x : Context) : BitVec 6 :=
  if x.state = .creating || x.state = .keyed then BitVec.ofNat 6 (bitsOf (s.rdNat (x.desc.toNat + 3) 1) 0 6) else x.part

/-- A context in use belongs to a partition. -/
def State.partUsed (s : State) (part : BitVec 6) : Bool := s.ctxs.any fun x => x.state ≠ .destroyed && s.ctxPart x = part

/-- The die itself: cores, slices, its counters (00 R8, 01 R21), and its partition records, but those of a partition with a context in
use, which keeps the die (11 R264, R265; 17 R358, R360; log 91). A core's numbering of accesses goes on. -/
def State.resetDie (s : State) (d : Fin 4) : State :=
  let parts := s.parts.filter fun (p : PartRec) => p.die ≠ d || s.partUsed p.part
  let s := (allCores.filter (·.die = d)).foldl (fun s c => s.updCore c fun k => { Core.reset with nextId := k.nextId }) s
  let young := fun (i : BitVec 11) (f : TxFrame) =>
    if (if f.own then isDieLink i && nearDie i = d else f.records.any (·.core.die = d)) then { f with sentAt := 0 } else f
  let s := { s with
    cycles := s.cycles.set d 0
    scrce := s.scrce.set d 0
    scrue := s.scrue.set d 0
    slices := s.slices.filter fun l => l.die ≠ d || l.swap
    dir := s.dir.map fun (e : DirEntry) => e.forget d
    links := s.links.map fun (x : BitVec 11 × LinkEnd) => (x.1, { x.2 with tx := x.2.tx.map (young x.1) }) }
  let s := (s.dropHomed d).loseKeys d
  s.remapTo { s with parts := parts }

/-- A line that a die held modified and lost: poison over its eight sectors, an entry with its address and channel in its home die's log, and
a count (R359). -/
def State.poisonLine (s : State) (line : Nat) : State :=
  let channel := ((s.partAt (128 * line)).map fun p => s.channelOf p (128 * line)).getD (0, 0, 0)
  let home := channel.1
  { s with
    poison := s.poison.filter (fun p => p / 8 ≠ line) ++ natRange (8 * line) 8
    logs := s.logs ++ [(.cdie home, .timeout (128 * line) channel)]
    dlpois := count s.dlpois }

/-- R359 step 2. Lines of pairs in progress are the swap unit's, on the I-die (16 R341). -/
def State.poisonHeld (s : State) (d : Fin 4) : State :=
  ((s.slices.filter fun l => l.die = d && !l.shared && !l.swap && l.dirty ≠ 0).map (·.line)).foldl State.poisonLine s

/-- The groups of a forcibly reset die are faulted, and their launches with them (R359 step 1, R372 case 6). -/
def State.faultGroups (s : State) (d : Fin 4) : State :=
  (allCores.filter (·.die = d)).foldl (fun s c =>
    match (s.core c).grp with
    | none => s
    | some g =>
      let s := s.groupError c { code := 0x0503, src := 11, aux := 6 }
      ((s.abortGroup c).faultLaunch g.ctx g.queue).endGroup g.ctx g.queue) s

def LinkState.alive (x : LinkState) : Bool := x != .dark && x != .failed

/-- The links of a die that are neither dark nor failed fail. -/
def State.failLinksOf (s : State) (d : Fin 4) (cause : BitVec 8) : State :=
  (dieLinksOf d).foldl (fun s i => if (s.link? i).any (·.state.alive) then s.failLink i cause else s) s

/-- R359: a forced reset of a die, up to its rejoining. -/
def State.forceReset (s : State) (d : Fin 4) (cause : BitVec 8) : State :=
  if s.chip (.cdie d) = some .quarantined || s.resets[d].any (·.forced) then s
  else
    let s := ((s.failLinksOf d cause).faultGroups d).resendAt d
    let s := ((s.poisonHeld d).resetDie d).setChip (.cdie d) .resetting
    { s.setExam (.cdie d) with resets := s.resets.set d (some ⟨true, true⟩) }

/-- PACKAGE_RESET (17 R350, R351, R355, R364): everything as at reset but what the package does not lose: memory with the keys, stamps
and poison of its lines, configuration planes and wear (log 25). The channels keep the bytes, which no partition reaches until PARTSET. -/
def State.resetPackage (s : State) : State :=
  let s := State.remapTo { s with slices := [] } { s with parts := [] }
  { State.reset with
  agenda := s.agenda
  tick := s.tick
  freeCtr := s.freeCtr
  outbox := s.outbox
  variant := s.variant
  device := s.device
  mem := s.mem
  lmeta := s.lmeta
  poison := s.poison
  keyGen := s.keyGen
  planes := s.planes
  ageing := s.ageing }

/-- A chiplet declared dead: a C-die is reset by force, and a forced reset of the I-die is a package reset (R356, R359, R360). -/
def State.declareDead (s : State) (c : Chip) (cause : BitVec 8) : State :=
  match c with
  | .cdie d => s.forceReset d cause
  | .sdie _ => s
  | .idie => s.resetPackage

/-- R370: a link fails; a die link that does declares the far die dead, the one that its record names as PEER (R351, R356). -/
def State.linkFailure (s : State) (i : BitVec 11) (cause : BitVec 8) : State :=
  let s := s.failLink i cause
  if isDieLink i then
    match s.link? i with
    | none => s
    | some l => s.declareDead (.cdie (Fin.ofNat 4 l.peer.toNat)) cause
  else s

/-- R356: an end of a link has heard nothing for HBB cycles; over a die link it declares the chiplet at the other end dead. -/
def State.unheard (s : State) (i : BitVec 11) (far : Bool) : State :=
  let s := s.failLink i 4
  match linkEnds i with
  | [a, b] => s.declareDead (if far then a else b) 4
  | _ => s

/-- R350: a quarantined chiplet's links stay dark. -/
def State.quarantine (s : State) (c : Chip) : State :=
  let s := ((List.range 10).map (BitVec.ofNat 11)).foldl (fun s i =>
    if (linkEnds i).contains c then
      let s := if (s.link? i).any (·.state.alive) then s.failLink i 1 else s
      s.updLink i (·.unkeyed .dark 1)
    else s) s
  s.quarantineChip c

end Sys2Proof.Machine
end

