-- ==== Sys2Proof/Machine/Links.lean ====
section
/-! DEFINITION. Links (17 R351 to R357, R361, R362): received frames, retransmission, heartbeats, sleeping and waking, key rollover,
training and draining, link records and LINKCTL. -/

namespace Sys2Proof.Machine

open Sys2Proof

/-! ### Frames received (17 R354, R355, R361, R362) -/

/-- The operation codes of R362. -/
def knownOp (op : BitVec 8) : Bool := ([1, 2, 3, 4, 0x10, 0x11, 0x12, 0x20, 0x21] : List (BitVec 8)).contains op

/-- Key index as the place of a key. -/
def kiFin (ki : Bool) : Fin 2 := if ki then 1 else 0

def LinkEnd.hasKey (l : LinkEnd) (ki : Bool) : Bool := l.rxKeys[kiFin ki]

/-- The SPDM codes by which a control record is a KEY_UPDATE or its acknowledgement; the manual names the messages and not their
codes (log 24). -/
def keyUpdateCode : Byte := 0xE9
def keyUpdateAckCode : Byte := 0x69

def isControl (code : Byte) (r : OpRecord) : Bool := r.op = 0x21 && r.payload.head? = some code

/-- Records that wait at a link end to be dealt with by events of their own. -/
def kept (r : OpRecord) : Bool := isRequest r || r.op = 0x10 || r.op = 0x11 || r.op = 0x12 || isControl keyUpdateAckCode r

/-- Operation traffic (17 R356): requests, naks and results, and acknowledgements of frames that carried an operation record. -/
def LinkEnd.traffic (l : LinkEnd) (r : OpRecord) : Bool :=
  isRequest r || r.op = 0x11 || r.op = 0x12 ||
    (r.op = 0x10 && l.tx.any fun f => leNat r.payload = ackNum f.ki f.fn && f.records.any fun t => isRequest t.rec_)

/-- The window after a frame that verifies (R354): the first under the newest key opens the old key's, and the 1024th further one closes
it. -/
def LinkEnd.window (l : LinkEnd) (f : Frame) : LinkEnd :=
  if l.win then
    if l.winLeft ≤ 1 then
      { l with win := false, winLeft := 0, rxKeys := l.rxKeys.set (kiFin !l.rxki) false, seen := l.seen.filter (·.1 = l.rxki) }
    else { l with winLeft := l.winLeft - 1 }
  else if f.ki = l.rxki && l.hasKey !l.rxki then { l with win := true, winL := f.reportL.getD 0, winLeft := 1024 }
  else l

/-- A KEY_UPDATE may install a new key: the window of the rollover before has closed (R353). -/
def LinkEnd.mayInstall (l : LinkEnd) : Bool := !l.win && !l.hasKey !l.rxki

/-- A KEY_UPDATE installs the new key at the other index. -/
def LinkEnd.install (l : LinkEnd) : LinkEnd :=
  if !l.mayInstall then l
  else { l with rxki := !l.rxki, rxKeys := l.rxKeys.set (kiFin !l.rxki) true, seen := l.seen.filter (·.1 = l.rxki) }

/-- A frame accepted: its records wait, KEY_UPDATE is performed, and a frame without request records is acknowledged at once. A KEY_UPDATE
that is repeated under the old key is acknowledged again. -/
def State.acceptFrame (s : State) (l : LinkEnd) (f : Frame) : State :=
  let now := s.linkClock f.link
  let traffic := f.records.any l.traffic
  let new := (f.records.filter kept).map fun r => (⟨some f.link, f.sdev, f.dest, r, (f.ki, f.fn)⟩ : InRec)
  let l := { l with seen := (f.ki, f.fn) :: l.seen, heardAt := now, trafficAt := if traffic then now else l.trafficAt }
  let update := f.records.any (isControl keyUpdateCode)
  let s := { s.setLink f.link (if update then l.install else l) with inrecs := s.inrecs ++ new }
  let s := if update then s.answer f.link (plainRecord 0x21 0 [keyUpdateAckCode]) false else s
  if f.records.any isRequest || f.records.all (·.op = 0x10) then s else s.ackFrame f.link (f.ki, f.fn) false

/-- Operation records are taken while the link is up. In draining it takes those that are outstanding, for it ends when none is (R352; log
88). -/
def LinkEnd.takes (l : LinkEnd) : Bool := l.state == .up || l.state == .draining

/-- FRAME_RECEIVE: the FCS, the key, the tag, the old key's window, the frame number and the operation codes are checked in this order;
what fails is dropped, counted and not acknowledged. -/
def execFrameReceive (f : Frame) (s : State) : Out :=
  match s.link? f.link with
  | none => .next s
  | some l =>
    let badfr := fun (l : LinkEnd) => .next (s.setLink f.link { l with badfr := count l.badfr })
    let kwdrop := fun (l : LinkEnd) => .next (s.setLink f.link { l with kwdrop := count l.kwdrop })
    if !f.fcsOk then badfr l
    else if !l.hasKey f.ki then kwdrop l
    else if !f.tagOk then badfr l
    else
      let w := l.window f
      if f.ki ≠ l.rxki && l.win && l.winL < f.fn then kwdrop w
      else if l.seen.contains (f.ki, f.fn) then .next (s.setLink f.link { w with replay := count w.replay })
      else if f.records.any fun r => !knownOp r.op then badfr w
      else if f.records.any isRequest && !l.takes then .next (s.setLink f.link w)
      else if f.records.any (isControl keyUpdateCode) && f.ki = w.rxki && !w.mayInstall then .next (s.setLink f.link w)
      else .next (s.acceptFrame w f)

/-! ### Retransmission (17 R355, R370) -/

/-- An operation waits for the answer to a record that was set aside: it has been retried. -/
def State.awaitsAgain (s : State) (t : TxRec) : Bool :=
  let k := s.core t.core
  match k.e4Of t.rec_.rtag with
  | some o => o.failed.isNone
  | none =>
    match k.copyOf t.rec_.rtag with
    | some (_, o) => o.failed.isNone
    | none => (k.access? t.id).any fun a => (a.parts[t.part]?).any fun p => p.stage = .atSlice

/-- The die whose cycles a frame's sender counts. -/
def TxFrame.die (f : TxFrame) : Fin 4 := (f.records.head?.map (·.core.die)).getD 0

/-- A frame is due to be sent again: it is unacknowledged after RTB cycles, or was set aside and its operation awaits it. -/
def State.dueFrame (s : State) (i : BitVec 11) (l : LinkEnd) (f : TxFrame) : Bool :=
  if f.lost then l.state == .up && f.records.any s.awaitsAgain
  else f.sentAt + l.rtb.toNat ≤ s.txClock i f.own ⟨f.die, 0⟩ &&
    (l.takes || (l.state == .waking && !f.records.any fun t => isRequest t.rec_))

/-- The frame sent again under the current key with a new number. -/
def State.resend (s : State) (i : BitVec 11) (l : LinkEnd) (f : TxFrame) : State :=
  let now := s.linkClock i
  let g : TxFrame := { f with ki := l.txki, fn := BitVec.ofNat 48 l.fn, sentAt := s.txClock i f.own ⟨f.die, 0⟩, lost := false
                              retries := if f.lost then 0 else f.retries + 1 }
  let t : LinkEnd := { l with
    fn := l.fn + 1
    tx := l.tx.erase f ++ [g]
    sentAt := now
    trafficAt := if f.records.any (fun t => l.traffic t.rec_) then now else l.trafficAt
    far := { l.far with heardAt := s.farClock i }
    report := none
    retx := if f.lost then l.retx else count l.retx }
  let e4 := (f.records.find? fun t => isRequest t.rec_ && t.rec_.fl.getLsbD 0).map (·.core)
  (s.setLink i t).putFrame i l e4 ((f.records.head?.map (·.dest)).getD 0xFFFF) (f.records.map (·.rec_))

/-- RETRANSMISSION_TIMEOUT: after 8 retransmissions of one frame the link fails. -/
def execRetransmissionTimeout (i : BitVec 11) (ki : Bool) (fn : BitVec 48) (s : State) : Out :=
  match s.link? i with
  | none => .next s
  | some l =>
    match l.tx.find? fun f => f.ki = ki && f.fn = fn && s.dueFrame i l f with
    | none => .next s
    | some f => if !f.lost && 8 ≤ f.retries then .next (s.linkFailure i 3) else .next (s.resend i l f)

/-! ### Heartbeats, sleeping and waking (17 R352, R356, R357) -/

/-- HEARTBEAT_SEND: an end has sent nothing for 2^12 cycles of its die. Of a die link both ends lie in the package: the near end's is
sent as a frame, and the far end's is heard at the near one (log 90). -/
def execHeartbeatSend (i : BitVec 11) (s : State) : Out :=
  match s.link? i with
  | none => .next s
  | some l =>
    if !(l.state == .up || l.state == .waking) then .next s
    else if l.sentAt + 4096 ≤ s.linkClock i then .next (s.answer i (plainRecord 0x20 0 []) false)
    else if isDieLink i && l.far.sentAt + 4096 ≤ s.farClock i then
      .next (s.setLink i { l with heardAt := s.linkClock i, far := { l.far with sentAt := s.farClock i } })
    else .next s

/-- From when an end's heartbeat bound counts; not in sleeping. -/
def LinkEnd.listensFrom (l : LinkEnd) (far : Bool) : Option Nat :=
  match l.state with
  | .up | .draining => some (if far then l.far.heardAt else l.heardAt)
  | .waking => some (if far then l.far.wakeAt else l.wakeAt)
  | _ => none

/-- HEARTBEAT_BOUND_EXPIRY at an end of a link: the far one is that of a die link. -/
def execHeartbeatBoundExpiry (x : LinkSide) (s : State) : Out :=
  match s.link? x.link with
  | none => .next s
  | some l =>
    match l.listensFrom x.far with
    | none => .next s
    | some t =>
      let now := if x.far then s.farClock x.link else s.linkClock x.link
      if (!x.far || isDieLink x.link) && t + l.hbb.toNat ≤ now then .next (s.unheard x.link x.far) else .next s

/-- No operation traffic for 2^20 cycles of either die (R352). -/
def State.idleLink (s : State) (i : BitVec 11) (l : LinkEnd) : Bool :=
  l.trafficAt + 2 ^ 20 ≤ s.linkClock i || (isDieLink i && l.far.trafficAt + 2 ^ 20 ≤ s.farClock i)

/-- LINK_IDLE_SLEEP. -/
def execLinkIdleSleep (i : BitVec 11) (s : State) : Out :=
  match s.link? i with
  | none => .next s
  | some l => if l.state == .up && s.idleLink i l then .next (s.setLink i { l with state := .sleeping }) else .next s

/-- A device that a core has something to send to: by a record of e4, a grant, or a peer leaf that it has walked. -/
def Core.sendsTo (k : Core) (dev : BitVec 16) : Bool :=
  let leaf := k.leaves.any fun l => l.isPeer && BitVec.ofNat 16 l.pdev = dev
  (leaf && (k.writingBack || k.acc.any (fun a => a.parts.any fun p => p.stage = .sent) || [2, 3, 4].any fun e => !k.e[Fin.ofNat 6 e].ops.isEmpty)) ||
    (k.e[(4 : Fin 6)].ops.any fun o =>
      match o.kind with
      | .freq d _ => BitVec.ofNat 16 d.toNat = dev
      | .lzput g _ => BitVec.ofNat 16 (bitsOf (leNat g) 16 16) = dev
      | _ => false) ||
    k.acc.any fun a =>
      match a.kind with
      | .lzgrant _ _ d _ => BitVec.ofNat 16 d.toNat = dev
      | _ => false

/-- The queue engine has an arrival to make at a barrier of a device (15 R326). -/
def State.engineSendsTo (s : State) (dev : BitVec 16) : Bool :=
  let toBlock := fun (ctx : BitVec 10) (va : Nat) =>
    match s.ctxReach ctx .atomic false va with
    | .ok l => l.isPeer && BitVec.ofNat 16 l.pdev = dev
    | .error _ => false
  (s.queues.any fun q => q.entry.any fun e => entKind e = 4 && toBlock q.ctx (bitsOf e.toNat 64 64)) ||
    s.launches.any fun l => l.stage == .completing && l.dbar ≠ 0 && toBlock l.ctx l.dbar.toNat

/-- A frame that carries operation traffic (17 R356). -/
def TxFrame.operates (f : TxFrame) : Bool := f.records.any fun t => isRequest t.rec_ || t.rec_.op = 0x11 || t.rec_.op = 0x12

/-- Traffic or a snoop is due on a link. -/
def State.trafficDue (s : State) (i : BitVec 11) (l : LinkEnd) : Bool :=
  !l.snoops.isEmpty || l.tx.any (fun f => if f.lost then f.records.any s.awaitsAgain else f.operates) ||
    s.inrecs.any (fun r => r.link = some i && isRequest r.rec_) ||
    (!isDieLink i && (s.engineSendsTo l.peer || allCores.any fun c => (s.core c).sendsTo l.peer))

def LinkEnd.wake (l : LinkEnd) (now far : Nat) : LinkEnd :=
  { l with state := .waking, wakeAt := now, far := { l.far with wakeAt := far } }

/-- LINK_WAKE. -/
def execLinkWake (i : BitVec 11) (s : State) : Out :=
  match s.link? i with
  | none => .next s
  | some l => if l.state == .sleeping && s.trafficDue i l then .next (s.setLink i (l.wake (s.linkClock i) (s.farClock i))) else .next s

/-- A link that comes up counts from now at each end. -/
def LinkEnd.comeUp (l : LinkEnd) (now far : Nat) : LinkEnd :=
  { l.carried now far with state := .up, snoops := [], overdue := [] }

/-- LINK_WAKE_COMPLETE. -/
def execLinkWakeComplete (i : BitVec 11) (s : State) : Out :=
  match s.link? i with
  | none => .next s
  | some l => if l.state == .waking then .next (s.setLink i (l.comeUp (s.linkClock i) (s.farClock i))) else .next s

/-- WAKE_BOUND_EXPIRY (R357): a snoop that has waited WAKEB cycles is counted once, and keeps waiting. -/
def execWakeBoundExpiry (i : BitVec 11) (s : State) : Out :=
  match s.link? i with
  | none => .next s
  | some l =>
    match l.snoops.find? fun w =>
      !l.overdue.contains w.line && w.since + l.wakeb.toNat ≤ (if w.far then s.farClock i else s.linkClock i) with
    | none => .next s
    | some w => .next (s.setLink i { l with overdue := w.line :: l.overdue, wakeovr := count l.wakeovr })

/-! ### Key rollover (17 R353) -/

/-- A rollover of the sending direction begins with KEY_UPDATE; the old key is used until it is acknowledged. -/
def State.startRollover (s : State) (i : BitVec 11) : State :=
  (s.updLink i fun l => { l with rolling := true }).answer i (plainRecord 0x21 0 [keyUpdateCode]) false

/-- A rollover may begin: none is in progress, and the window of the one before has closed, which the sender knows by its acknowledgements
(R353; log 89). -/
def LinkEnd.mayRoll (l : LinkEnd) : Bool := l.state == .up && !l.rolling && l.closing.isNone

/-- KEY_ROLLOVER_START: FN has reached 2^47. -/
def execKeyRolloverStart (i : BitVec 11) (s : State) : Out :=
  match s.link? i with
  | none => .next s
  | some l => if l.mayRoll && 2 ^ 47 ≤ l.fn then .next (s.startRollover i) else .next s

/-- The sender goes over to its new key: later frames go under the new index from FN 0, and the first of them reports the highest number
under the old one (R353, R354). -/
def LinkEnd.rollOver (l : LinkEnd) : LinkEnd :=
  if l.rolling then
    { l with rolling := false, txki := !l.txki, fn := 0, report := some (BitVec.ofNat 48 (l.fn - 1)), closing := some 0 }
  else l

/-- KEY_UPDATE_ACK: every later frame goes under the new index, from FN 0. -/
def execKeyUpdateAck (i : BitVec 11) (s : State) : Out :=
  match s.takeAnswer i (isControl keyUpdateAckCode) with
  | none => .next s
  | some s => .next (s.updLink i LinkEnd.rollOver)

/-! ### Training, keys and draining (17 R352, R360) -/

/-- A link begins to train. -/
def LinkEnd.train (l : LinkEnd) : LinkEnd := { l with state := .training, attempts := 0 }

/-- LINK_TRAINING_DONE: over a peer link a probe has been answered on every valid path, of which there is one at least. -/
def execLinkTrainingDone (i : BitVec 11) (s : State) : Out :=
  match s.link? i with
  | none => .next s
  | some l =>
    if l.state == .training && (isDieLink i || l.pv ≠ 0) then
      .next (s.setLink i { l with state := .attesting, attempts := 0, wakeAt := s.icycles })
    else .next s

/-- LINK_TRAINING_ATTEMPT_FAIL: the sixteenth fails the link. -/
def execLinkTrainingAttemptFail (i : BitVec 11) (s : State) : Out :=
  match s.link? i with
  | none => .next s
  | some l =>
    if l.state != .training then .next s
    else if l.attempts < 15 then .next (s.setLink i { l with attempts := l.attempts + 1 })
    else .next (s.linkFailure i 2)

/-- LINK_KEYED_UP: for a die link, no die that it joins is still being reset (R360). -/
def execLinkKeyedUp (i : BitVec 11) (s : State) : Out :=
  match s.link? i with
  | none => .next s
  | some l =>
    if l.state == .keyed && (linkDies i).all (fun d => s.resets[d].isNone) then .next (s.setLink i (l.comeUp (s.linkClock i) (s.farClock i)))
    else .next s

/-- Requests between the dies of a link that are not performed. -/
def State.crossing (s : State) (i : BitVec 11) : Bool :=
  match linkDies i with
  | [a, b] =>
    let crosses := fun (d : Fin 4) (c : CoreId) => (d = a && c.die = b) || (d = b && c.die = a)
    (s.mshrs.any fun m => m.waiting.any fun r => crosses m.die r.core) || (s.ingress.any fun q => crosses q.1 q.2.core) ||
      s.inrecs.any (·.crosses a b)
  | _ => false

/-- LINK_DRAIN_DONE: nothing is outstanding in either direction; the link is dark and its keys are erased. -/
def execLinkDrainDone (i : BitVec 11) (s : State) : Out :=
  match s.link? i with
  | none => .next s
  | some l =>
    if l.state != .draining || l.tx.any (fun f => !f.lost && f.operates) || s.crossing i || s.inrecs.any (fun r => r.link = some i) then .next s
    else .next ((s.setLink i (l.unkeyed .dark 5)).noteDark i)

/-! ### Link records (17 R351) -/

/-- The STATE code of a link (R351). -/
def LinkState.code : LinkState → Nat
  | .dark => 0
  | .training => 1
  | .attesting => 2
  | .keyed => 3
  | .up => 4
  | .draining => 5
  | .waking => 6
  | .sleeping => 7
  | .failed => 8

/-- The 64-byte record of a link end, which the host reads at BAR 2 offset 64 · i (R351). -/
def LinkEnd.bits (l : LinkEnd) : Rec64 :=
  let b := fun (x : Bool) => if x then 1 else 0
  BitVec.ofNat 512 (packFields ([(4, l.state.code), (1, b l.txki), (1, b l.rxki), (1, b l.win), (1, b l.v), (8, l.cause.toNat),
    (16, l.peer.toNat)] ++ l.paths.toList.map (fun p => (8, p.toNat)) ++ [(4, l.pv.toNat), (4, l.psw.toNat), (24, 0),
    (32, l.wakeb.toNat), (32, l.hbb.toNat), (32, l.rtb.toNat), (64, l.retx.toNat), (64, l.kwdrop.toNat), (64, l.replay.toNat),
    (64, l.badfr.toNat), (64, l.wakeovr.toNat)]))

/-- A write of an RW field. A value of HBB or WAKEB that breaks HBB ≥ 4 × WAKEB is ignored. V and PEER of a die link are not
written. -/
def LinkEnd.writeField (l : LinkEnd) (die : Bool) (f : LinkField) : LinkEnd :=
  match f with
  | .v b => if die then l else if b && !l.v && l.state == .dark then { l with v := true }.train else { l with v := b }
  | .peer d => if die then l else { l with peer := d }
  | .path k b => { l with paths := l.paths.set k b }
  | .pv b => { l with pv := b }
  | .psw b => { l with psw := b }
  | .wakeb w => if 4 * w.toNat ≤ l.hbb.toNat then { l with wakeb := w } else l
  | .hbb w => if 4 * l.wakeb.toNat ≤ w.toNat then { l with hbb := w } else l
  | .rtb w => { l with rtb := w }
  | .retx n => { l with retx := n }
  | .kwdrop n => { l with kwdrop := n }
  | .replay n => { l with replay := n }
  | .badfr n => { l with badfr := n }
  | .wakeovr n => { l with wakeovr := n }

/-- The record of a link: one that is kept, or a peer-link slot at reset. -/
def State.linkRecord (s : State) (i : BitVec 11) : Option LinkEnd :=
  match s.link? i with
  | some l => some l
  | none => if 16 ≤ i.toNat && i.toNat < 1040 then some (LinkEnd.reset false 0) else none

/-- LINK_RECORD_WRITE. -/
def execLinkRecordWrite (i : BitVec 11) (f : LinkField) (s : State) : Out :=
  match s.linkRecord i with
  | none => .next s
  | some l => .next (s.setLink i (l.writeField (isDieLink i) f))

/-! ### LINKCTL (17 R351, R352) -/

/-- A LINKCTL with an action: its record number must be one of R351 and its other bits zero; a link in another state than the action
needs is refused by state. An argument with another action is not this command. -/
def State.linkctl (s : State) (action : Nat) (arg : Word) (ok : BitVec 11 → LinkEnd → Bool) (act : BitVec 11 → LinkEnd → State → State) :
    State :=
  let v := arg.toNat
  if bitsOf v 16 4 ≠ action then s
  else s.mailed (cmdRecord 0x20 0 arg 0) fun s =>
    if bitsOf v 20 44 ≠ 0 || 1040 ≤ bitsOf v 0 16 then s.refuseValue
    else
      let i := BitVec.ofNat 11 (bitsOf v 0 16)
      match s.linkRecord i with
      | none => s.refuseValue
      | some l => if ok i l then (act i l s).replyDone else s.refuseState

/-- A link may be brought up: it is dark, a peer slot is in use, and no chiplet at its ends is quarantined or being reset (R348, R350). -/
def State.mayTrain (s : State) (i : BitVec 11) (l : LinkEnd) : Bool :=
  l.state == .dark && l.v &&
    (linkEnds i).all fun c => s.chip c ≠ some .quarantined && s.chip c ≠ some .resetting

def execLinkctlBringUp (arg : Word) (s : State) : Out := .next (s.linkctl 1 arg s.mayTrain fun i l s => s.setLink i l.train)

def execLinkctlDrain (arg : Word) (s : State) : Out :=
  .next (s.linkctl 2 arg (fun _ l => l.state == .up) fun i l s => s.setLink i { l with state := .draining })

def execLinkctlSleep (arg : Word) (s : State) : Out :=
  .next (s.linkctl 3 arg (fun _ l => l.state == .up) fun i l s => s.setLink i { l with state := .sleeping })

def execLinkctlWake (arg : Word) (s : State) : Out :=
  .next (s.linkctl 4 arg (fun _ l => l.state == .sleeping) fun i l s => s.setLink i (l.wake (s.linkClock i) (s.farClock i)))

/-- Rekey: a second rollover of the direction does not begin before the window of the first has closed. -/
def execLinkctlRekey (arg : Word) (s : State) : Out :=
  .next (s.linkctl 5 arg (fun _ l => l.mayRoll) fun i _ s => s.startRollover i)

def execLinkctlReset (arg : Word) (s : State) : Out :=
  .next (s.linkctl 6 arg (fun _ l => l.state == .failed) fun i l s => s.setLink i (l.unkeyed .dark 5))

end Sys2Proof.Machine
end

