-- ==== Sys2Proof/Machine/Attest.lean ====
section
/-! DEFINITION. Attestation (17 R348 to R350), the measurement policy's verdict (11 R272), die resets by command and rejoining (17 R358
to R360), and the reset of the package. -/

namespace Sys2Proof.Machine

open Sys2Proof

/-! ### Measurements (17 R349, 11 R272) -/

/-- The kind byte of a chiplet in the policy; a peer device is 3. -/
def chipKind : Chip → Byte
  | .cdie _ => 0
  | .sdie _ => 1
  | .idie => 2

/-- The digest of all measurement blocks. -/
def measDigest (meas : List (BitVec 512)) : BitVec 512 := Config.sha3 (meas.flatMap fun m => bytesOf m 0 64)

/-- The policy that applies to an attestation begun at a cycle of the I-die: a new one only to those that begin after it. -/
def State.policyFor (s : State) (since : Nat) : List (Byte × BitVec 512) :=
  ((s.oldPolicies.find? fun p => since < p.1).map (·.2)).getD s.policy

/-- A digest satisfies the policy: an entry of its own kind holds it. -/
def State.policyOk (s : State) (since : Nat) (kind : Byte) (d : BitVec 512) : Bool := (s.policyFor since).contains (kind, d)

def State.setMeasure (s : State) (c : Chip) (d : BitVec 512) : State :=
  { s with measures := (c, d) :: s.measures.filter (·.1 ≠ c) }

/-! ### Exchanges with chiplets (17 R348, R349, R352) -/

/-- The links of a chiplet in attesting, with the I-die cycle at which each got there. -/
def State.attestingLinks (s : State) (c : Chip) : List (BitVec 11 × Nat) :=
  s.links.filterMap fun x => if (linkEnds x.1).contains c && x.2.state == .attesting then some (x.1, x.2.wakeAt) else none

/-- An exchange with a chiplet is in progress: over a C-die's links, over the link of the C-die beneath an S-die, or within the I-die. -/
def State.attests (s : State) (c : Chip) : Bool :=
  match c with
  | .cdie _ => (s.chip c = some .attesting || s.chip c = some .inService) && !(s.attestingLinks c).isEmpty
  | .sdie d => s.chip c = some .attesting && s.chip (.cdie d) = some .inService
  | .idie => s.chip c = some .attesting

/-- Links in attesting whose chiplets are all in service are keyed. -/
def State.keyLinks (s : State) : State :=
  { s with links := s.links.map fun x =>
      if isDieLink x.1 && x.2.state == .attesting && (linkEnds x.1).all (fun c => s.chip c = some .inService) then (x.1, x.2.keyed)
      else x }

/-- Since when an exchange has gone on that no link shows: an S-die's since its C-die can relay it, a die's own since it has reset. -/
def State.examSince (s : State) (c : Chip) : Option Nat := (s.exams.find? (·.1 = c)).map (·.2)

/-- Since when an exchange has gone on: since a link of the chiplet reached attesting, or, where none shows it, since it could answer, or since
the package's reset. -/
def State.attestSince (s : State) (c : Chip) : Nat :=
  match (s.attestingLinks c).map (·.2) with
  | [] => (s.examSince c).getD 0
  | a :: l => l.foldl min a

/-- The cycle whose policy applies to an exchange: where no link shows when it began, the policy of now (log 36). -/
def State.measuredFrom (s : State) (c : Chip) : Nat := if (s.attestingLinks c).isEmpty then (s.examSince c).getD s.icycles else s.attestSince c

/-- Every step of an exchange but the measurements has succeeded; with a peer device it is mutual (R349). -/
def exchangeOk (v : Exchange) (peer : Bool) : Bool :=
  v.spdm14 && v.algorithms && v.chain && v.signature && v.session && (!peer || v.bothWays)

/-- An exchange begun at a cycle of the I-die has been answered in time (R349). -/
def State.inTime (s : State) (since : Nat) : Bool := s.icycles < since + 2 ^ 28

/-- A chiplet comes into service with its measurements. Its S-die can answer from now on. -/
def State.intoService (s : State) (c : Chip) (d : BitVec 512) : State :=
  let s := (s.setChip c .inService).setMeasure c d
  match c with
  | .cdie n => s.setExam (.sdie n)
  | _ => s

/-- ATTESTATION_COMPLETE: the exchange has come to its end. A chiplet that fails at any step, or that answers too late, is quarantined; a
peer link that does is dark with CAUSE 1. -/
def execAttestationComplete (t : AttestTarget) (v : Exchange) (meas : List (BitVec 512)) (s : State) : Out :=
  let d := measDigest meas
  match t with
  | .chip c =>
    if !s.attests c then .next s
    else if exchangeOk v false && s.inTime (s.attestSince c) && s.policyOk (s.measuredFrom c) (chipKind c) d then .next (s.intoService c d).keyLinks
    else .next (s.quarantine c)
  | .peer i =>
    match s.link? i with
    | none => .next s
    | some l =>
      if isDieLink i || l.state != .attesting then .next s
      else if exchangeOk v true && s.inTime l.wakeAt && s.policyOk l.wakeAt 3 d then .next (s.setLink i l.keyed)
      else .next (s.setLink i (l.unkeyed .dark 1))

/-- A die that resets can attest again: a forced reset is done, and an orderly one waits until its links are dark (R358, R360). -/
def State.rejoins (s : State) (d : Fin 4) : Bool :=
  match s.resets[d] with
  | none => false
  | some r => r.settled && (r.forced || !(dieLinksOf d).any fun i => (s.link? i).any (·.state.alive))

/-- The die as it is after its reset; an orderly one takes place now. -/
def State.rejoining (s : State) (d : Fin 4) : State :=
  { (if s.resets[d].any (·.forced) then s else s.resetDie d) with resets := s.resets.set d none }

/-- ATTESTATION_TIMEOUT: no answer within 2^28 cycles of the I-die. -/
def execAttestationTimeout (t : AttestTarget) (s : State) : Out :=
  match t with
  | .chip c =>
    if s.attests c && !s.inTime (s.attestSince c) then .next (s.quarantine c)
    else match c with
      | .cdie d => if s.rejoins d && !s.inTime (s.attestSince c) then .next ((s.rejoining d).quarantine c) else .next s
      | _ => .next s
  | .peer i =>
    match s.link? i with
    | none => .next s
    | some l =>
      if !isDieLink i && l.state == .attesting && !s.inTime l.wakeAt then .next (s.setLink i (l.unkeyed .dark 1))
      else .next s

/-! ### Die reset (17 R358 to R360) -/

/-- The die of a DIERESET's argument; none where another bit is set. -/
def resetArg (arg : Word) : Option (Fin 4) :=
  if bitsOf arg.toNat 2 6 ≠ 0 || bitsOf arg.toNat 9 55 ≠ 0 then none else some (Fin.ofNat 4 (bitsOf arg.toNat 0 2))

/-- R358 steps 2 and 3: the die's slices write back and drop every line, ownership returns, and its links drain. -/
def State.settleDie (s : State) (d : Fin 4) : State :=
  let s := ((s.slices.filter (·.die = d)).map (·.line)).foldl (fun s l => s.evictLine d l) s
  let s := (s.resendAt d).dropHomed d
  let s := { s with dir := s.dir.map fun (e : DirEntry) => if e.owner = some d then { e with owner := none } else e }
  let s := (dieLinksOf d).foldl (fun s i => s.updLink i fun l => if l.state.alive then { l with state := .draining } else l) s
  { s.setExam (.cdie d) with resets := s.resets.set d (some ⟨false, true⟩) }

/-- DIERESET_ORDERLY: the first occurrence is the command, which begins to pre-empt the die's groups; a later one goes on when they are
gone. -/
def execDieresetOrderly (arg : Word) (s : State) : Out :=
  if arg.getLsbD 8 then .next s
  else match resetArg arg with
    | none => .next (s.mailed (cmdRecord 0x21 0 arg 0) State.refuseValue)
    | some d =>
      match s.resets[d] with
      | none => .next (s.mailed (cmdRecord 0x21 0 arg 0) fun s =>
        if s.chip (.cdie d) = some .quarantined then s.refuseState
        else
          let s := s.preemptAll (fun c _ => c.die = d) .dieReset
          { s.setChip (.cdie d) .resetting with resets := s.resets.set d (some ⟨false, false⟩) }.replyDone)
      | some r =>
        if r.forced || r.settled then .next (s.mailed (cmdRecord 0x21 0 arg 0) State.refuseState)
        else if allCores.any (fun c => c.die = d && ((s.core c).grp).isSome) then .next s
        else .next (s.settleDie d)

/-- DIERESET_FORCED. -/
def execDieresetForced (arg : Word) (s : State) : Out :=
  if !arg.getLsbD 8 then .next s
  else .next (s.mailed (cmdRecord 0x21 0 arg 0) fun s =>
    match resetArg arg with
    | none => s.refuseValue
    | some d =>
      if s.chip (.cdie d) = some .quarantined || s.resets[d].any (·.forced) then s.refuseState else (s.forceReset d 5).replyDone)

/-- The digest that a binding of a partition is checked against: of its C-dies in order, each with its S-die where one is in service, and
the I-die (11 R275). -/
def State.partDigest (s : State) (part : BitVec 6) : BitVec 512 :=
  let of := fun (c : Chip) => if s.chip c = some .inService then ((s.measures.find? (·.1 = c)).map (·.2)).toList else []
  let all := (s.partDies part).flatMap (fun d => of (.cdie d) ++ of (.sdie d)) ++ of .idie
  Config.sha3 (all.flatMap fun m => bytesOf m 0 64)

/-- R276: a die that rejoins receives its key slots again where the measurements still match each binding; otherwise the slot is erased
on every die. -/
def State.restoreKeys (s : State) (d : Fin 4) : State :=
  (s.ctxsOn d).foldl (fun s x =>
    let mine := (x.lost.filter (·.1 = d)).map (·.2)
    let bad := fun (n : Fin 16) => mine.contains n && (x.digests[n]).any fun g => g ≠ s.partDigest x.part
    let keys := Vector.ofFn fun n => if bad n then none else x.keys[n]
    s.updCtx x.id fun y => { y with keys := keys, lost := y.lost.filter (·.1 ≠ d) }) s

/-- The links of a die whose reset ends begin to train, but where the chiplet at the other end is quarantined or being reset. -/
def State.trainLinks (s : State) (d : Fin 4) : State :=
  (dieLinksOf d).foldl (fun s i => s.updLink i fun l =>
    if l.state.alive then l
    else
      let l := l.unkeyed .dark l.cause
      if s.mayTrain i l then l.train else l) s

/-- DIE_REJOIN (R360): the die, reset, has attested again, within the bound of R349. It is in service with its key slots restored, and its
links train; or it is quarantined. An orderly reset waits until its links are dark. -/
def execDieRejoin (d : Fin 4) (v : Exchange) (meas : List (BitVec 512)) (s : State) : Out :=
  if !s.rejoins d then .next s
  else
    let since := s.attestSince (.cdie d)
    let ok := exchangeOk v false && s.inTime since && s.policyOk since 0 (measDigest meas)
    let s := s.rejoining d
    if ok then .next (((s.intoService (.cdie d) (measDigest meas)).restoreKeys d).trainLinks d)
    else .next (s.quarantine (.cdie d))

/-- PACKAGE_RESET. -/
def execPackageReset (s : State) : Out := .next s.resetPackage

end Sys2Proof.Machine
end

