-- ==== Sys2Proof/Machine/Paging.lean ====
section
/-! DEFINITION. PGPF and PGIN (16 R343 to R345) and the completion of a translation walk (16 R331, R332). -/

namespace Sys2Proof.Machine

open Sys2Proof

/-- A far handle on a package without far-memory ports raises the capability-absent fault (16 R343). -/
def guardFar (h : Handle) (va : BitVec 56) : LaneM Unit := fun s =>
  if h.space == .far && s.farPorts = 0 then .error (.fault { code := 0x0108, addr := va.setWidth 64 }) else .ok ((), s)

/-- A walk for PGPF starts, or it joins one in flight on its page (16 R332, R344). -/
def beginWalk (va : Nat) (k : Core) : Core :=
  if k.walksPage va then { k with xjoin := count k.xjoin }
  else { k with walks := k.walks ++ [⟨va / 65536, []⟩], xwalk := count k.xwalk }

/-- PGPF (16 R343, R344). -/
def pgpfBody (h : Head) (o : PgpfOp) : LaneM Unit := do
  let (hd, va) ← handleAddr o.ad o.o.ssc 1 1 false
  guardFar hd va
  let id ← nextId
  let dest ← reserveDest o.d id
  issueAccess (freshAccess h id (← curSlot) (← curBundle) (.pgpf va) hd.space.kind o.o dest)
  modCore (beginWalk va.toNat)

def execPgpf (h : Head) (o : PgpfOp) (s : State) : Out := lane h (pgpfBody h o) s

/-- The near page that FB names: a handle index and an offset in 4 KiB units, under the checks of R130 with size 1 (16 R343, R345). -/
def nearAddr (b : Word) : LaneM (Option (BitVec 56)) := fun s =>
  let n : BitVec 12 := b.setWidth 12
  let off := bitsOf b.toNat 12 52 * 4096
  let (s, e) := s.handleEntry s.cur.1 n
  .ok ((handleOf n e).bind fun h =>
    if h.space == .peer || h.bound < off + 1 then none else some (BitVec.ofNat 56 (h.base + off)), s)

/-- PGIN (16 R343, R345). -/
def pginBody (h : Head) (o : PginOp) : LaneM Unit := do
  let (hd, va) ← handleAddr o.ad o.o.ssc 1 1 false
  guardFar hd va
  let b ← readS o.n
  let near ← nearAddr b
  let id ← nextId
  let dest ← reserveDest o.d id
  issueAccess (freshAccess h id (← curSlot) (← curBundle) (.pgin va near) .g o.o dest)

def execPgin (h : Head) (o : PginOp) (s : State) : Out := lane h (pginBody h o) s

/-- The status word of a page that has a leaf (16 R344). -/
def leafStatus (l : Leaf) : Word :=
  let bit := fun (b : Bool) => if b then 1 else 0
  let size := if l.size = 2 ^ 30 then 2 else if l.size = 2 ^ 21 then 1 else 0
  BitVec.ofNat 64 (packFields [(1, 1), (2, l.apt), (1, bit l.canR), (1, bit l.canW), (1, bit l.canA), (1, bit l.rap), (4, l.key.val),
    (1, bit l.fmode), (2, l.swap), (1, bit l.bad), (2, size), (15, 0), (6, if l.swap = 0 then 0 else l.pair), (26, 0)])

/-- The status word of a page without one: the translation detail of R346; a far leaf refused for want of far ports counts as refused
(log 26). -/
def faultStatus (f : MemFault) : Word := BitVec.ofNat 64 ((if f.code = 0x0108 then 3 else f.detail) * 2 ^ 24)

def walkStatus (r : WalkResult) : Word :=
  match r.leaf with
  | .ok l => leafStatus l
  | .error f => faultStatus f

/-- A PGPF that waits for the walk of a page. -/
def waitsPage (page : Nat) (a : Access) : Bool :=
  match a.kind with
  | .pgpf va => va.toNat / 65536 = page
  | _ => false

/-- An access waits for the translation of a page: a PGPF, or a part whose leaf is not cached. -/
def Core.missing (k : Core) (page : Nat) : Bool :=
  k.acc.any fun a => waitsPage page a ||
    a.parts.any fun p => p.stage = .sent && p.va.toNat / 65536 = page && !k.leaves.any (·.maps p.va.toNat)

/-- The PGPFs of a page performed with a status. -/
def finishPgpf (page : Nat) (w : Word) (k : Core) : Core :=
  (k.acc.filter fun a => waitsPage page a && mayPerform k a).foldl (fun k a => retire a (deliver a w k)) k

/-- A walk that has read some of its words and reads the others in later events, as every word is a load of its own (16 R332). How many it
has read is free (log 7). -/
def State.firstWords (s : State) (mine : Option Walk) (r : WalkResult) : Option Walk :=
  match mine with
  | none => none
  | some w =>
    let n := Config.draw s.freeCtr % (r.words.length + 1)
    if n < r.words.length && w.held.length < n then some { w with held := r.words.take n } else none

/-- TRANSLATION_WALK (16 R331, R332): a walk on a core for the 64 KiB page of an address completes. A leaf is cached for the
accesses that wait for it; a fault fails every part of an access that waits for that page; a PGPF takes its status. A page whose cached
leaf has been discarded meanwhile is walked anew. `cached` starts the walk at a cached non-leaf entry. -/
def execTranslationWalk (c : CoreId) (va : BitVec 56) (cached : Bool) (s : State) : Out :=
  let k := s.core c
  let page := va.toNat / 65536
  let mine := (k.walks.take 32).find? (·.page = page)
  if mine.isNone && (k.walksPage va.toNat || !k.missing page) then .next s
  else
    match k.ctxId.bind s.ctx? with
    | none => .next s
    | some x =>
      let held := ((mine.map (·.held)).getD [])
      let r := if cached then s.walkCached k x va.toNat held else s.walk x va.toNat held
      let again := mine.isNone
      let s := s.touchWalk r
      match s.firstWords mine r with
      | some w => .next (s.drew.setCore c { k with walks := k.walks.map fun m => if m.page = page then w else m })
      | none =>
      let k := { installWalk r k with
        walks := k.walks.filter (·.page ≠ page)
        xwalk := if again then count k.xwalk else k.xwalk }
      let k := match r.leaf with
        | .ok _ => k
        | .error f => failParts va.toNat f k
      .next (s.setCore c (finishPgpf page (walkStatus r) k))

end Sys2Proof.Machine
end

