-- ==== Sys2Proof/Machine/Swap.lean ====
section
/-! DEFINITION. The swap unit (16 R341, R342), failed far ports (R336), Fumarole (R340) and self-refresh (01 R24). -/

namespace Sys2Proof.Machine

open Sys2Proof

/-! ### Moving lines -/

/-- Two ranges of `n` numbers from `a` and `b` on, exchanged. -/
def exchange (a b n x : Nat) : Nat :=
  if a ≤ x && x < a + n then x - a + b else if b ≤ x && x < b + n then x - b + a else x

/-- A slot blocked at a barrier whose line moves. -/
def moveBlock (f : Nat → Nat) (t : SlotState) : SlotState :=
  match t.blk with
  | some (.barrier pa ph) => { t with blk := some (.barrier (f pa) ph) }
  | _ => t

/-- R341: the contents of two lines exchanged: bytes, keys, stamps, poison and sequence counters, and with them what the device notes
of barriers there. -/
def State.exchangeLines (s : State) (a b : Nat) : State :=
  let x := memGets s.mem (128 * a) 128
  let y := memGets s.mem (128 * b) 128
  let onLine := exchange a b 1
  let onPa := exchange (128 * a) (128 * b) 128
  { s with
    mem := memSets (memSets s.mem (128 * a) y) (128 * b) x
    lmeta := s.lmeta.map fun (m : LineMeta) => { m with line := onLine m.line }
    poison := s.poison.map (exchange (8 * a) (8 * b) 8)
    slices := s.slices.map fun (l : SliceLine) => { l with line := onLine l.line }
    resetting := s.resetting.map onPa
    cores := s.cores.map fun (k : Core) => { k with slots := k.slots.map (moveBlock onPa) } }

/-- Poison over every sector of a line where it stands. -/
def State.spoilLine (s : State) (line : Nat) : State :=
  let s := s.recallLine line
  { s with poison := s.poison.filter (fun p => p / 8 ≠ line) ++ natRange (8 * line) 8 }

/-- Every slice copy of the lines of a page written back if dirty and dropped, and their ownership returned (16 R342). -/
def State.recallRange (s : State) (pa n : Nat) : State :=
  let lines := s.slices.map (·.line) ++ s.dir.map (·.line)
  (lines.filter fun l => pa ≤ 128 * l && 128 * l < pa + n).foldl State.recallLine s

/-! ### A pair (16 R342) -/

/-- A leaf maps one of the pages of a pair. -/
def SwapPair.leafOf (p : SwapPair) (l : Leaf) : Bool := l.pa = p.leafF || l.pa = p.leafN

def SwapPair.nonLeafOf (p : SwapPair) (n : NonLeaf) : Bool := n.covers p.vaF.toNat || n.covers p.vaN.toNat

def State.pair? (s : State) (part : BitVec 6) (i : Fin 64) : Option SwapPair := s.pairs.find? fun p => p.part = part && p.idx = i

def State.setPair (s : State) (p : SwapPair) : State :=
  { s with pairs := s.pairs.map fun q => if q.part = p.part && q.idx = p.idx then p else q }

/-- A field of word 1 of a leaf written. -/
def State.putLeaf (s : State) (pa lo w x : Nat) : State := s.wrNat (pa + 8) 8 (putBits (s.rdNat (pa + 8) 8) lo w x)

/-- Why a pair is not begun, by the detail codes of R345, or its two leaves. A far page of a partition without far ports has no
translation (log 26). -/
def State.pairLeaves (s : State) (x : Context) (far : BitVec 56) (near : Option (BitVec 56)) : Except Nat (Leaf × Leaf) :=
  match near with
  | none => .error 1
  | some n =>
    match (s.walk x far.toNat).leaf, (s.walk x n.toNat).leaf with
    | .ok f, .ok n =>
      if f.isFar && (s.fports x.part).isEmpty then .error 1
      else if !f.isFar || !n.isNear then .error 2
      else if f.size ≠ n.size || f.size = 2 ^ 30 then .error 3
      else if f.swap ≠ 0 || n.swap ≠ 0 || s.pairs.any (fun p => p.covers f.frame || p.covers n.frame) then .error 4
      else if f.bad || n.bad then .error 5
      else .ok (f, n)
    | _, _ => .error 1

/-- PGIN takes its status, if its group still waits for it. -/
def State.finishPgin (s : State) (c : CoreId) (id status : Nat) : State :=
  s.updCore c fun k =>
    match k.access? id with
    | none => k
    | some a =>
      match a.kind with
      | .pgin _ _ => retire a (deliver a (BitVec.ofNat 64 status) k)
      | _ => k

/-- R342, begin and recall: the leaves are marked, the cached entries discarded and the slice copies recalled. -/
def State.beginPair (s : State) (p : SwapPair) : State :=
  let s := ((s.putLeaf p.leafF 12 2 2).putLeaf p.leafF 14 6 p.idx.val).putLeaf p.leafN 12 2 1
  let s := (s.putLeaf p.leafN 14 6 p.idx.val).discard p.ctx p.leafOf p.nonLeafOf
  let s := (s.recallRange p.farB p.size).recallRange p.nearB p.size
  { s with pairs := p :: s.pairs }

/-- The PGINs of a partition's groups that no pair has been begun for. -/
def State.pgins (s : State) (part : BitVec 6) : List (CoreId × Access) :=
  allCores.flatMap fun c =>
    if (s.core c).ctxId.map s.partOf = some part then
      ((s.core c).acc.filter fun a =>
        (match a.kind with
          | .pgin _ _ => true
          | _ => false) && mayPerform (s.core c) a && !s.pairs.any fun p => p.core = c && p.acc = a.id).map fun a => (c, a)
    else []

/-- A PGIN that has reached the swap unit: its status where it is not started, or its pair begun once no access that used an old entry
is in flight. -/
def State.takePgin (s : State) (part : BitVec 6) (i : Fin 64) (c : CoreId) (a : Access) : State :=
  match a.kind, (s.core c).ctxId.bind s.ctx? with
  | .pgin far near, some x =>
    if 64 ≤ (s.pairs.filter (·.part = part)).length then s.finishPgin c a.id 1
    else match s.pairLeaves x far near with
      | .error d => s.finishPgin c a.id (2 + 2 ^ 8 * d)
      | .ok (f, n) =>
        let p : SwapPair := ⟨part, i, x.id, f.pa, n.pa, BitVec.ofNat 56 f.va, BitVec.ofNat 56 n.va, f.frame, n.frame, f.size, 0, false,
          c, a.id⟩
        if (s.pair? part i).isNone && s.unused x.id p.leafOf then s.beginPair p else s
  | _, _ => s

/-- SWAP_PAIR_BEGIN (16 R342, R345): the swap unit of a partition takes a PGIN. Which of those under way arrives first is free (10
R258, log 7). -/
def execSwapPairBegin (part : BitVec 6) (i : Fin 64) (s : State) : Out :=
  let l := s.pgins part
  match l[Config.draw s.freeCtr % l.length]? with
  | none => .next s
  | some (c, a) => .next (s.drew.takePgin part i c a)

/-- How many lines each page of a pair has. -/
def SwapPair.lines (p : SwapPair) : Nat := p.size / 128

/-- One line of a pair exchanged and its progress bit set. A line that a failed far port holds is poisoned where it comes to stand, and
the failure noted (16 R341, R342). -/
def State.exchangeNext (s : State) (part : BitVec 6) (i : Fin 64) : State :=
  match s.pair? part i with
  | none => s
  | some p =>
    if p.lines ≤ p.done then s
    else
      let a := p.farB / 128 + p.done
      let b := p.nearB / 128 + p.done
      let bad := (s.farPort part (128 * a)).any fun n => s.badPorts.getLsbD n
      let s := ((s.needChannel part a).needChannel part b).exchangeLines a b
      let s := if bad then (s.spoilLine a).spoilLine b else s
      s.setPair { p with done := p.done + 1, portFail := p.portFail || bad }

/-- A request waits for the data of a line. -/
def State.awaited (s : State) (line : Nat) : Bool :=
  (s.mshrs.any fun m => m.line = line) || s.ingress.any fun q => s.reqLine q.2 = some line

/-- SWAP_LINE_EXCHANGE (16 R341): in ascending order, after the requests for either line that have arrived. -/
def execSwapLineExchange (part : BitVec 6) (i : Fin 64) (s : State) : Out :=
  match s.pair? part i with
  | none => .next s
  | some p =>
    if s.awaited (p.farB / 128 + p.done) || s.awaited (p.nearB / 128 + p.done) then .next s
    else .next (s.exchangeNext part i)

/-- The leaf of a page that has moved to a frame: ADDR and APT exchanged, SWAP 0. FMODE of a leaf that is now near is 0, as R330 has it
(log 27). -/
def State.moveLeaf (s : State) (pa frame apt : Nat) : State :=
  let s := s.wrNat pa 8 (putBits (s.rdNat pa 8) 9 43 (frame / 512))
  let s := ((s.putLeaf pa 0 2 apt).putLeaf pa 12 2 0).putLeaf pa 14 6 0
  if apt = 1 then s.putLeaf pa 11 1 0 else s

/-- R342, end and free. -/
def State.endPair (s : State) (p : SwapPair) : State :=
  let s := (s.recallRange p.farB p.size).recallRange p.nearB p.size
  let s := ((s.moveLeaf p.leafF p.nearB 1).moveLeaf p.leafN p.farB 2).discard p.ctx p.leafOf p.nonLeafOf
  { s with pairs := s.pairs.filter fun q => !(q.part = p.part && q.idx = p.idx) }.finishPgin p.core p.acc (if p.portFail then 3 else 0)

/-- SWAP_PAIR_END (16 R342): when every line is exchanged and no access that used the pair's entries is in flight. -/
def execSwapPairEnd (part : BitVec 6) (i : Fin 64) (s : State) : Out :=
  match s.pair? part i with
  | none => .next s
  | some p => if p.done < p.lines || !s.unused p.ctx p.leafOf then .next s else .next (s.endPair p)

/-- A context's pairs run to their ends (16 R342). -/
def State.completePairs (s : State) (ctx : BitVec 10) : State :=
  (s.pairs.filter (·.ctx = ctx)).foldl (fun s p =>
    let s := (List.range p.lines).foldl (fun s _ => s.exchangeNext p.part p.idx) s
    match s.pair? p.part p.idx with
    | none => s
    | some p => s.endPair p) s

/-! ### Far ports (16 R336, R342) -/

/-- The lines of a pair's far page that a port carries. -/
def State.portLines (s : State) (p : SwapPair) (port : Nat) : List Nat :=
  (natRange (p.farB / 128) p.lines).filter fun l => s.farPort p.part (128 * l) = some port

/-- A pair whose far page a failed port carries in part: the lines that lie there are poisoned in place. -/
def State.failPair (s : State) (port : Nat) (p : SwapPair) : State :=
  match s.portLines p port with
  | [] => s
  | l => (l.foldl State.spoilLine s).setPair { p with portFail := true }

/-- FAR_PORT_FAILURE (16 R336, R342): every access that reaches the port meets poison from now on. -/
def execFarPortFailure (port : Fin 10) (s : State) : Out :=
  let s := { s with badPorts := s.badPorts ||| BitVec.ofNat 10 (2 ^ port.val) }
  .next (s.pairs.foldl (fun s p => s.failPair port.val p) s)

/-! ### Fumarole (16 R340) -/

/-- FUMAROLE_SCRUB: one line of near memory scrubbed, in memory only. A corrected line keeps its stamp and sequence counter. -/
def execFumaroleScrub (line : Nat) (r : ScrubResult) (s : State) : Out :=
  match s.partAt (128 * line) with
  | none => .next s
  | some part =>
    if !s.isNear part (128 * line) then .next s
    else
      let d := s.homeDie part (128 * line)
      match r with
      | .clean => .next s
      | .corrected => .next { s with scrce := s.scrce.set d (count s.scrce[d]) }
      | .bad m =>
        let secs := (natRange 0 8).filter fun i => m.getLsbD i
        let new := (secs.map (8 * line + ·)).filter fun p => !s.poison.contains p
        if secs.isEmpty then .next s
        else .next { s with
          poison := s.poison ++ new
          logs := s.logs ++ ([(.cdie d, .uncorrectable (128 * line) (s.pseudoOf part (128 * line)))] : List (Chip × LogEntry))
          scrue := s.scrue.set d (count s.scrue[d]) }

/-! ### Self-refresh (01 R24) -/

/-- The pseudo-channel of a near line of a partition's memory. -/
def State.pseudoAt (s : State) (line : Nat) : Option PseudoChan :=
  match s.partAt (128 * line) with
  | none => none
  | some part => if s.isNear part (128 * line) then some (s.pseudoOf part (128 * line)) else none

/-- SELF_REFRESH_ENTRY: an idle pseudo-channel enters self-refresh; a request for it wins. -/
def execSelfRefreshEntry (pc : PseudoChan) (s : State) : Out :=
  let r := s.refreshOf pc
  if r.asleep || s.mshrs.any fun m => s.pseudoAt m.line = some pc then .next s else .next (s.setRefresh { r with asleep := true })

/-- SELF_REFRESH_EXIT: a pseudo-channel leaves self-refresh for a request that waits, which is then served. -/
def execSelfRefreshExit (pc : PseudoChan) (s : State) : Out :=
  let r := s.refreshOf pc
  match r.waiting with
  | [] => .next s
  | line :: _ => if r.asleep then .next (s.setRefresh (r.wake line)) else .next s

end Sys2Proof.Machine
end

