-- ==== Sys2Proof/Machine/Contexts.lean ====
section
/-! DEFINITION. The commands on contexts (11 R268 to R277): CREATE, BIND, ACTIVATE, SUSPEND, RESUME, DRAIN, DESTROY, RECLAIM,
KEYDESTROY, and with them QRESET (12 R295), XLFLUSH (16 R333) and FABTAG. -/

namespace Sys2Proof.Machine

open Sys2Proof

/-! ### CREATE (11 R268, R273) -/

/-- The lowest identifier that is not in use; none where all 1024 are (log 28). -/
def State.freeCtx (s : State) : Option (BitVec 10) :=
  ((List.range 1024).map (BitVec.ofNat 10)).find? fun i => (s.ctx? i).isNone

/-- A context in creating: its RW fields are not read yet. -/
def newContext (id : BitVec 10) (desc : BitVec 52) : Context where
  id := id
  state := .creating
  desc := desc
  view := 0
  dev := 0
  strict := false
  priMax := 0
  part := 0
  hroot := 0
  troot := 0
  proot := 0
  qroot := 0
  qn := 0
  saveB := 0
  saveS := 0
  errB := 0
  errN := 0
  rzb := 0
  pfb := 0
  peb := 0
  kdrop := 0
  errDrop := 0
  keys := Vector.replicate 16 none
  digests := Vector.replicate 16 none
  fabTag := none
  lost := []
  destroyed := []
  errTail := 0

/-- CREATE: the RO fields of the descriptor are written, and the status word carries the identifier. -/
def execCreate (arg : Word) (s : State) : Out :=
  .next (s.mailed (cmdRecord 1 0 arg 0) fun s =>
    match s.freeCtx with
    | none => s.refuseValue
    | some id =>
      if arg.toNat % 128 ≠ 0 || 2 ^ 52 ≤ arg.toNat then s.refuseValue
      else
        let d := s.rdNat arg.toNat 128 &&& descRw
        let x := newContext id (arg.setWidth 52)
        let s := { s.wrNat arg.toNat 128 (d + id.toNat) with ctxs := s.ctxs ++ [x] }
        (s.publishCtx x).reply (id.toNat * 2 ^ 32))

/-! ### BIND (11 R274 to R276) -/

/-- A binding record of 4864 bytes. -/
def bindSlot (b : List Byte) : Nat := leNat (b.take 1)
def bindSession (b : List Byte) : BitVec 32 := BitVec.ofNat 32 (leNat ((b.drop 4).take 4))
def bindDigest (b : List Byte) : BitVec 512 := BitVec.ofNat 512 (leNat ((b.drop 48).take 64))

/-- Its reserved bytes are zero. -/
def bindReserved (b : List Byte) : Bool := ((b.drop 1).take 3).all (· = 0) && (b.drop 4739).all (· = 0)

/-- Every die of the partition is attested and none is quarantined. -/
def State.partAttested (s : State) (part : BitVec 6) : Bool :=
  !(s.partDies part).isEmpty && (s.partDies part).all fun d => s.chip (.cdie d) = some .inService

/-- The root accepts the binding of a model key. -/
def State.bindOk (s : State) (part : BitVec 6) (b : List Byte) : Bool :=
  bindReserved b && Config.sessionOpen s.tick (bindSession b) && Config.sigOk b && s.partAttested part &&
    bindDigest b = s.partDigest part

/-- The number of a model key (11 R276). -/
def modelKey (k : BitVec 256) : Nat := 2 ^ 256 + k.toNat

/-- A first BIND generates key slot 0 from the package's random source; the context is keyed. -/
def State.firstBind (s : State) (x : Context) : Context × State :=
  if x.state = .creating then
    ({ x with state := .keyed, keys := x.keys.set 0 (some s.keyGen), destroyed := x.destroyed.filter (· ≠ 0) }, { s with keyGen := s.keyGen + 1 })
  else (x, s)

/-- A key installed in a slot with its binding's digest. -/
def Context.install (x : Context) (n : Fin 16) (gen : Nat) (d : BitVec 512) : Context :=
  { x with keys := x.keys.set n (some gen), digests := x.digests.set n (some d), destroyed := x.destroyed.filter (· ≠ n) }

/-- BIND of a record whose slot is free. -/
def State.bindKey (s : State) (x : Context) (b : List Byte) : State :=
  let n := Fin.ofNat 16 (bindSlot b)
  let done := fun (x : Context) (s : State) => (s.updCtx x.id fun _ => x).replyDone
  if n = 0 then
    if bindReserved b && (b.drop 4).all (· = 0) && s.partAttested x.part then
      let (x, s) := s.firstBind x
      done x s
    else s.refuseAttest
  else match s.bindOk x.part b, Config.unwrapKey b with
    | true, some k =>
      let (x, s) := s.firstBind x
      done (x.install n (modelKey k) (bindDigest b)) s
    | _, _ => s.refuseAttest

/-- BIND. -/
def execBind (ctx : BitVec 10) (arg : Word) (s : State) : Out :=
  .next (s.command 2 ctx arg fun x s =>
    let b := s.cohRead arg.toNat 4864
    let s := s.touch arg.toNat 4864
    let n := bindSlot b
    if arg.toNat % 64 ≠ 0 then s.refuseValue
    else if x.state = .draining || x.state = .destroyed then s.refuseState
    else if 15 < n || (n = 0 && x.state ≠ .creating) || (x.keys[Fin.ofNat 16 n]).isSome then s.refuseValue
    else s.bindKey { x with part := s.ctxPart x } b)

/-! ### ACTIVATE and RESUME (11 R268, R270; 12 R281) -/

/-- A context with the RW fields of its descriptor. -/
def State.readDesc (s : State) (x : Context) : Context :=
  let d := s.rdNat x.desc.toNat 128
  let f := fun (w lo : Nat) => BitVec.ofNat w (bitsOf d lo w)
  { x with
    view := f 2 10
    dev := f 2 12
    strict := bitsOf d 14 1 = 1
    priMax := f 8 16
    part := f 6 24
    hroot := f 64 64
    troot := f 64 128
    proot := f 64 192
    qroot := f 64 256
    qn := f 16 320
    saveB := f 64 384
    saveS := f 32 448
    errB := f 64 512
    errN := f 16 576
    rzb := f 32 640
    pfb := f 32 672
    peb := f 32 704 }

/-- The most queues that a view allows (11 R267). -/
def Context.maxQueues (x : Context) : Nat := if x.view = 0 then 4096 else if x.view = 1 then 2048 else 1024

/-- The regions of R270 as base and size in bytes. -/
def Context.regions (x : Context) : List (Nat × Nat) :=
  [(x.hroot.toNat, 0x20000), (x.troot.toNat, 0x80000), (x.qroot.toNat, 64 * x.qn.toNat), (x.saveB.toNat, 65536 * x.saveS.toNat),
    (x.errB.toNat, 64 + 64 * x.errN.toNat)]

/-- Two regions overlap: neither is empty, and they share an address. -/
def overlaps (a b : Nat × Nat) : Bool := a.2 ≠ 0 && b.2 ≠ 0 && a.1 < b.1 + b.2 && b.1 < a.1 + a.2

/-- No two ranges of a list overlap. -/
def disjoint : List (Nat × Nat) → Bool
  | [] => true
  | a :: r => (r.all fun b => !overlaps a b) && disjoint r

/-- A power of two from 64 to 32,768. -/
def isRingSize (n : Nat) : Bool := ((List.range 10).map fun i => 64 * 2 ^ i).contains n

/-- VIEW and DEV name exactly the dies of the partition. -/
def State.viewMatches (s : State) (x : Context) : Bool :=
  x.view ≠ 3 && (if x.view = 0 then x.dev = 0 else if x.view = 1 then x.dev.toNat < 2 else true) && x.dies = s.partDies x.part

/-- The limits of the RW fields (11 R268). -/
def Context.limits (x : Context) : Bool :=
  ([x.hroot, x.troot, x.proot, x.errB] : List Word).all (fun a => a.toNat % 4096 = 0) && x.saveB.toNat % 65536 = 0 && x.proot.toNat < 2 ^ 52 && x.qn ≠ 0 &&
    x.qn.toNat ≤ x.maxQueues && isRingSize x.errN.toNat && ([x.rzb, x.pfb, x.peb] : List (BitVec 32)).all fun b => 1024 ≤ b.toNat

/-- NL and BASE of every queue descriptor (12 R281). -/
def State.queuesOk (s : State) (x : Context) : Bool :=
  (List.range x.qn.toNat).all fun n =>
    let d := x.qroot.toNat + 64 * n
    let nl := bitsOf (s.rdNat (d + 8) 1) 0 5
    s.rdNat d 8 % 4096 = 0 && 4 ≤ nl && nl ≤ 16

/-- R270: what an ACTIVATE or a RESUME needs. -/
def State.descOk (s : State) (x : Context) : Bool :=
  s.viewMatches x && x.limits && 0x300000 * (s.partCores x.part).length ≤ 65536 * x.saveS.toNat &&
    disjoint x.regions && (x.regions.all fun r => s.nearB x.part ≤ r.1 && r.1 + r.2 ≤ s.nearEnd x.part) && s.queuesOk x

/-- A queue as its descriptor has it, with what the device keeps of it. -/
def State.readQueue (s : State) (x : Context) (q : QueueRun) : QueueRun :=
  let d := x.qroot.toNat + 64 * q.n.toNat
  let w := s.rdNat (d + 8) 1
  { q with base := BitVec.ofNat 64 (s.rdNat d 8), nl := bitsOf w 0 5, en := bitsOf w 5 1 = 1 }

/-- Queue `n` of a context at ACTIVATE. -/
def freshQueue (ctx : BitVec 10) (n : Nat) : QueueRun where
  ctx := ctx
  n := BitVec.ofNat 12 n
  state := .idle
  kept := .idle
  base := 0
  nl := 0
  en := false
  head := 0
  done := 0
  lastErr := 0
  entry := none
  remote := .none
  moved := 0
  appended := (0, 0)

/-- A queue that comes into use: every field of its descriptor but BASE, NL and EN is reset (12 R281). -/
def State.openQueue (s : State) (x : Context) (n : Nat) : State :=
  let q := s.readQueue x (freshQueue x.id n)
  let d := x.qroot.toNat + 64 * n
  State.publishQueue { s.wrNat d 64 (bitsOf (s.rdNat d 64) 0 70) with queues := s.queues ++ [q] } q

/-- A table of the device in memory cleared to zero, in memory and in the lines that slices hold of it; its lines keep their keys. -/
def State.clearTable (s : State) (pa n : Nat) : State :=
  let mine := fun (a : Nat) => pa ≤ a && a < pa + n
  let s := s.touch pa n
  { s with
    mem := s.mem.filter fun c => !mine c.1
    poison := s.poison.filter fun p => !mine (16 * p)
    slices := (s.slices.filter fun l => !(mine (128 * l.line) && l.shared)).map fun l =>
      if mine (128 * l.line) then { l with data := 0, poison := 0, seq := l.seq + 1 } else l }

/-- ACTIVATE: the descriptor is read, the error ring's header and the queues are reset, and queues may dispatch. The handle table (16 R328)
and the tensor table (08 R196) are cleared here, where the device first reads their places (log 61). -/
def State.activated (s : State) (x : Context) : State :=
  let s := s.updCtx x.id fun _ => { x with state := .active, errTail := 0 }
  let s := (s.clearTable x.hroot.toNat 0x20000).clearTable x.troot.toNat 0x80000
  (List.range x.qn.toNat).foldl (fun s n => s.openQueue x n) (s.wrNat x.errB.toNat 64 0)

def execActivate (ctx : BitVec 10) (s : State) : Out :=
  .next (s.command 3 ctx 0 fun x s =>
    let x := s.readDesc x
    let s := s.touch x.desc.toNat 128
    if x.state ≠ .keyed then s.refuseState
    else if !s.descOk x then s.refuseValue
    else (s.activated x).replyDone)

/-- A queue resumed: its descriptor is read again and it takes its kept state. -/
def State.resumeQueue (s : State) (x : Context) (n : Nat) : State :=
  match s.queue? x.id (BitVec.ofNat 12 n) with
  | none => s.openQueue x n
  | some q => let q := s.readQueue x q; (s.setQueue { q with state := q.real }).armLine (lineOf (s.qdesc q.ctx q.n))

/-- RESUME: the descriptor is read again, cores keep the lines that their SRAM holds, queues take their kept states, and saved groups return as
cores free. A queue beyond QN stays
suspended, and one that was not in use before is reset as at ACTIVATE (log 29). -/
def execResume (ctx : BitVec 10) (s : State) : Out :=
  .next (s.command 5 ctx 0 fun x s =>
    let x := s.readDesc x
    let s := s.touch x.desc.toNat 128
    if x.state ≠ .suspended then s.refuseState
    else if !s.descOk x then s.refuseValue
    else
      let s := (s.updCtx ctx fun _ => { x with state := .active }).fitIdle x
      ((List.range x.qn.toNat).foldl (fun s n => s.resumeQueue x n) s).replyDone)

/-! ### SUSPEND and DRAIN (11 R273) -/

/-- SUSPEND: the groups are pre-empted by events that follow. -/
def execSuspend (ctx : BitVec 10) (s : State) : Out :=
  .next (s.command 4 ctx 0 fun x s => if x.state ≠ .active then s.refuseState else (s.suspendCtx ctx).replyDone)

/-- DRAIN: no new launch is dispatched; the context is destroyed when no group is left. -/
def execDrain (ctx : BitVec 10) (s : State) : Out :=
  .next (s.command 6 ctx 0 fun x s =>
    if x.state ≠ .active && x.state ≠ .suspended then s.refuseState
    else (((s.updCtx ctx fun x => { x with state := .draining }).suspendQueues ctx).finishDrain ctx).replyDone)

/-! ### Keys and lines given up (11 R273, R277) -/

/-- The tile lines of a core that meet a test dropped without a write-back; how many were dirty. -/
def Core.dropTiles (k : Core) (test : TileLine → Bool) : Nat × Core :=
  let l := k.lines.filter test
  ((l.filter (·.dirty)).length, l.foldl (fun k l => k.dropLine l) k)

/-- The virtual addresses of the storage of a tile line's elements and scale bytes; none where a handle is not valid or names a peer. -/
def State.linePlaces (s : State) (c : CoreId) (l : TileLine) : List Nat :=
  let x := tEnt l.ent
  let at_ := fun (n : BitVec 12) (off : Int) =>
    ((handleOf n (s.handleEntry c n).2).filter fun h => h.space != .peer).map fun h => (h.base + off).toNat
  ((x.insideList l.c).map (x.place l.c)).flatMap fun g =>
    if blockFmt x.sfmt then (at_ x.hdl (x.codeBit g / 8)).toList ++ (at_ x.shdl (x.soff + x.blockNo g : Nat)).toList
    else (at_ x.hdl (x.storedAt g)).toList

/-- A tile line stands under a key slot of a context: it was filled under it, or, where no fill gave it its data, its storage lies in a
page of that slot (R277, 08 R214). -/
def State.lineUnder (s : State) (x : Context) (n : Fin 16) (c : CoreId) (l : TileLine) : Bool :=
  l.ctx = x.id &&
    if l.keys.isEmpty then
      (s.linePlaces c l).any fun va =>
        match (s.walk x va).leaf with
        | .ok f => f.key = n
        | .error _ => false
    else l.keys.any fun k => k.ctx = x.id && k.slot = n

/-- Tile lines of every core that meet a test, and slice lines that meet another, dropped; the dirty ones are counted in KDROP. -/
def State.dropLines (s : State) (ctx : BitVec 10) (tile : CoreId → TileLine → Bool) (line : SliceLine → Bool) : State :=
  let n := (allCores.map fun c => ((s.core c).dropTiles (tile c)).1).sum
  let m := (s.slices.filter fun l => line l && !l.shared && l.dirty ≠ 0).length
  let s := { s with
    cores := Vector.ofFn fun i => (s.cores[i].dropTiles (tile (coreAt i))).2
    slices := s.slices.filter fun l => !line l }
  s.updCtx ctx fun x => { x with kdrop := countN x.kdrop (n + m) }

/-- A slice line written under a key of a context. -/
def SliceLine.ofCtx (ctx : BitVec 10) (l : SliceLine) : Bool := l.key.any fun (k : KeyTag) => k.ctx = ctx

/-- KEYDESTROY (R277). -/
def execKeydestroy (ctx : BitVec 10) (arg : Word) (s : State) : Out :=
  .next (s.command 9 ctx arg fun x s =>
    if 15 < arg.toNat then s.refuseValue
    else if x.state = .creating || x.state = .destroyed then s.refuseState
    else
      let n := Fin.ofNat 16 arg.toNat
      let s := s.dropLines ctx (s.lineUnder x n) fun (l : SliceLine) => l.key.any fun (k : KeyTag) => k.ctx = ctx && k.slot = n
      (s.updCtx ctx fun x => { x with
        keys := x.keys.set n none
        digests := x.digests.set n none
        lost := x.lost.filter (·.2 ≠ n)
        destroyed := if (x.keys[n]).isSome then n :: x.destroyed else x.destroyed }).replyDone)

/-- The groups of a context stopped without saving, their landing slots torn. -/
def State.stopGroups (s : State) (ctx : BitVec 10) : State :=
  allCores.foldl (fun s c => if ((s.core c).grp).any (·.ctx = ctx) then s.abortGroup c else s) s

/-- DESTROY: the context's pairs run to their ends first (16 R342). -/
def execDestroy (ctx : BitVec 10) (s : State) : Out :=
  .next (s.command 7 ctx 0 fun x s =>
    if x.state = .destroyed then s.refuseState
    else
      let s := (s.completePairs ctx).dropLines ctx (fun _ (l : TileLine) => l.ctx = ctx) (SliceLine.ofCtx ctx)
      let s := (s.stopGroups ctx).haltAll ctx
      let s := { s with
        launches := s.launches.filter (·.ctx ≠ ctx)
        placed := s.placed.filter (·.ctx ≠ ctx)
        saved := s.saved.filter (·.ctx ≠ ctx) }
      (s.updCtx ctx fun x => { x.eraseKeys with state := .destroyed }).replyDone)

/-- Memory from an address on cleared to zero, with the keys, stamps and poison of its lines, and any slice copy. -/
def State.wipe (s : State) (pa n : Nat) : State :=
  let out := fun (a w : Nat) => a < pa || pa + n < a + w
  { s with
    mem := s.mem.filter fun c => out c.1 1
    lmeta := s.lmeta.filter fun m => out (128 * m.line) 128
    poison := s.poison.filter fun p => out (16 * p) 16
    slices := s.slices.filter fun l => out (128 * l.line) 128 }

/-- A core that a context last ran on, cleared to zero. -/
def reclaimCore (ctx : BitVec 10) (k : Core) : Core :=
  if k.owner = some ctx then { k with owner := none, ls := [], lines := [], leaves := [], nonleaf := [] } else k

/-- RECLAIM: local stores, save area and slices of the context are zero, and its identifier is free. -/
def execReclaim (ctx : BitVec 10) (s : State) : Out :=
  .next (s.command 8 ctx 0 fun x s =>
    if x.state ≠ .destroyed then s.refuseState
    else
      let s := s.wipe x.saveB.toNat (65536 * x.saveS.toNat)
      let s := s.wrNat (x.desc.toNat + 96) 8 0
      { s with
        cores := s.cores.map (reclaimCore ctx)
        slices := s.slices.filter fun (l : SliceLine) => !l.ofCtx ctx
        ctxs := s.ctxs.filter (·.id ≠ ctx)
        queues := s.queues.filter (·.ctx ≠ ctx)
        rotation := s.rotation.filter (·.ctx ≠ ctx) }.replyDone)

/-! ### QRESET, XLFLUSH and FABTAG -/

/-- QRESET (12 R295). The queue of a context that is not active is suspended, with idle kept (R283, log 30). -/
def execQreset (ctx : BitVec 10) (arg : Word) (s : State) : Out :=
  .next (s.command 0x11 ctx arg fun x s =>
    if x.state = .creating || x.state = .keyed || x.state = .destroyed then s.refuseState
    else if x.qn.toNat ≤ arg.toNat then s.refuseValue
    else match s.queue? ctx (arg.setWidth 12) with
      | none => s.refuseState
      | some q =>
        if q.state ≠ .halted then s.refuseState
        else
          let t := s.tail q
          let s := s.wrNat (s.qdesc ctx q.n + 24) 8 (max (s.resv q) t)
          (s.setQueue { q with
            head := BitVec.ofNat 64 t
            done := BitVec.ofNat 64 t
            lastErr := 0
            state := if x.state = .active then .idle else .suspended
            kept := .idle }).replyDone)

/-- XLFLUSH (16 R333): it waits for the accesses that used an entry it discards. -/
def execXlflush (ctx : BitVec 10) (arg : Word) (s : State) : Out :=
  .next (s.command 0x12 ctx arg fun x s =>
    let top := bitsOf arg.toNat 56 8
    let va := bitsOf arg.toNat 0 56
    let leaf := fun (l : Leaf) => top = 0xFF || l.maps va
    if top ≠ 0 && top ≠ 0xFF then s.refuseValue
    else if x.state = .creating || x.state = .destroyed then s.refuseState
    else if !s.unused ctx leaf then s
    else (s.discard ctx leaf fun n => top = 0xFF || n.covers va).replyDone)

/-- FABTAG (11 R272, 17 R362). -/
def execFabtag (ctx : BitVec 10) (arg : Word) (s : State) : Out :=
  .next (s.command 0x23 ctx arg fun x s =>
    let t : BitVec 16 := arg.setWidth 16
    if 2 ^ 16 ≤ arg.toNat || s.ctxs.any (fun y => y.id ≠ ctx && y.fabTag = some t) then s.refuseValue
    else if x.state ≠ .creating && x.state ≠ .keyed && x.state ≠ .suspended then s.refuseState
    else (s.updCtx ctx fun x => { x with fabTag := some t }).replyDone)

end Sys2Proof.Machine
end

