-- ==== Sys2Proof/Machine/Control.lean ====
section
/-! DEFINITION. Control instructions of every slot: NOP, END, branches, calls and hardware loops (05 R113 to R117, R127, R128). -/

namespace Sys2Proof.Machine

open Sys2Proof

/-- NOP (05 R128): it ignores its guard (04 R98) and honours its scheduling fields. -/
def execNop (h : Head) (s : State) : Out := .next (issueWith h false (pure ()) s)

/-- END (05 R127): the slot's PC stays and it issues nothing further. -/
def endBody : LaneM Unit := modSlot fun t => { t with pc := t.pc - 1, ended := true }

def execEndSlot (h : Head) (s : State) : Out := lane h endBody s

/-- BR (05 R113). -/
def brBody (o : BrOp) : LaneM Unit := do
  let n ← curBundle
  let v ← readS o.src
  if ccTest o.cc v then setPc (n + o.disp)

def execBr (h : Head) (o : BrOp) (s : State) : Out := lane h (brBody o) s

/-- BRX (05 R113): FA is popped before FB. -/
def brxBody (o : BrxOp) : LaneM Unit := do
  let t ← readS o.tgt
  let v ← readS o.src
  if ccTest o.cc v then setPc (t.setWidth 32)

def execBrx (h : Head) (o : BrxOp) (s : State) : Out := lane h (brxBody o) s

/-- CALL (05 R113): the register takes n + 1 zero-extended. -/
def callBody (o : RegDisp) : LaneM Unit := do
  let n ← curBundle
  writeS o.r ((n + 1).setWidth 64)
  setPc (n + o.disp)

def execCall (h : Head) (o : RegDisp) (s : State) : Out := lane h (callBody o) s

/-- RET (05 R113). -/
def retBody (o : Operand) : LaneM Unit := do
  let t ← readS o
  setPc (t.setWidth 32)

def execRet (h : Head) (o : Operand) (s : State) : Out := lane h (retBody o) s

/-- The control-stack fault: the depth, and END of the top entry where there is one (05 R129, 14 R312). -/
def controlStack (l : List LoopEntry) : FaultRec :=
  let top := match l with
    | [] => 0
    | e :: _ => e.stop.toNat
  { code := 0x0105, aux := BitVec.ofNat 64 (l.length + 2 ^ 32 * top) }

/-- LPSET (05 R116). -/
def lpsetBody (o : RegDisp) : LaneM Unit := do
  let n ← curBundle
  let v ← readS o.r
  let cnt := min v.toNat 0xFFFFFFFF
  let t ← getSlot
  if cnt = 0 then setPc (n + o.disp + 1)
  else
    guardFault (t.loops.length < 4) (controlStack t.loops)
    modSlot fun t => { t with loops := ⟨n + 1, n + o.disp, BitVec.ofNat 32 cnt⟩ :: t.loops }

def execLpset (h : Head) (o : RegDisp) (s : State) : Out := lane h (lpsetBody o) s

/-- LPEND, closing form (05 R117). -/
def lpendBody : LaneM Unit := do
  let n ← curBundle
  let t ← getSlot
  match t.loops with
  | [] => faultWith (controlStack [])
  | e :: r =>
    guardFault (e.stop == n) (controlStack t.loops)
    if 1 < e.remain.toNat then modSlot fun t => { t with loops := { e with remain := e.remain - 1 } :: r, pc := e.start }
    else modSlot fun t => { t with loops := r }

def execLpend (h : Head) (s : State) : Out := lane h lpendBody s

/-- LPEND, exit form (05 R117). -/
def lpendExitBody (disp : BitVec 32) : LaneM Unit := do
  let n ← curBundle
  let t ← getSlot
  match t.loops with
  | [] => faultWith (controlStack [])
  | _ :: r => modSlot fun t => { t with loops := r, pc := n + disp }

def execLpendExit (h : Head) (o : BitVec 32) (s : State) : Out := lane h (lpendExitBody o) s

end Sys2Proof.Machine
end

