-- ==== Sys2Proof/Machine/Legal.lean ====
section
/-! DEFINITION. What makes a lane word illegal by the state of its group (04 R85, R96; 02 R41, R44): an accumulator above the grant, a
register group past v1535, a record index beyond the declared records. These are checked when the word is decoded, and so also where
its guard suppresses it (R97). -/

namespace Sys2Proof.Machine

open Sys2Proof

/-- An accumulator operand lies within the grant. -/
def accGranted (g : GroupInfo) (o : Operand) : Bool :=
  match o.name with
  | .z n => n.val < g.accs
  | _ => true

/-- The vector registers of a second source. -/
def Src2.operands (o : Src2) : List Operand :=
  match o with
  | .reg r => [r]
  | .imm _ => []

/-- The operands of a vector instruction that a compact predicate groups, with its scheduling fields: all of them, where the
instruction may take a group of more than one register. -/
def Instr.grouped (i : Instr) : Option (Head × List Operand) :=
  match i with
  | .vadd h o | .vsub h o | .vmul h o | .vmin h o | .vmax h o | .vand h o | .vor h o | .vxor h o | .vshl h o | .vshr h o
  | .vsar h o => some (h, [o.d, o.a] ++ Src2.operands o.b)
  | .vfma h o | .vfms h o => some (h, [o.d, o.a, o.b, o.c])
  | .vabs h o | .vneg h o | .vrcp h o | .vrsq h o | .vsqrt h o | .vexp2 h o | .vlog2 h o | .vnot h o => some (h, [o.d, o.a])
  | .vcmp h o => some (h, [o.d, o.a] ++ Src2.operands o.b)
  | .vsel h o => some (h, [o.d, o.a, o.b, o.sel])
  | .vmov h o => some (h, [o.d, o.a])
  | .vcvt h o => if o.src.isWide || o.ty.isWide then none else some (h, [o.d, o.a])
  | .vrotr h o | .vrotc h o | .vbcr h o | .vbcc h o => some (h, [o.d, o.a])
  | .vredr h o | .vredc h o => some (h, [o.d, o.a])
  | .vtrn h o => some (h, [o.d, o.a])
  | _ => none

/-- A group of `len` registers ends at v1535 or before. -/
def groupFits (len : Nat) (o : Operand) : Bool :=
  match o.name with
  | .v n => n.val + len ≤ 1536
  | _ => true

/-- How many registers an instruction's compact predicate groups (02 R41). -/
def groupLen (h : Head) (k : Core) : Nat :=
  match h.gk with
  | none => 1
  | some n => (k.kreg n).len.toNat

/-- The record index of a record command. -/
def Instr.recordIdx (i : Instr) : Option (BitVec 12) :=
  match i with
  | .cpin _ o | .cpout _ o | .gath _ o | .scat _ o | .mrec _ o | .mconv _ o | .mzst _ o | .mzld _ o => some o.idx
  | _ => none

/-- The accumulator operand of an instruction that names one. -/
def Instr.accNamed (i : Instr) : Option Operand :=
  match i with
  | .vzrd _ o => some o.a
  | .vzwr _ o => some o.d
  | .mzclr _ o => some o.z
  | _ => none

/-- A lane word is legal for the group on its core. -/
def legalFor (g : GroupInfo) (k : Core) (i : Instr) : Bool :=
  ((Instr.accNamed i).all (accGranted g)) && ((Instr.recordIdx i).all fun n => n.toNat < g.nrec) &&
    (Instr.grouped i).all fun x => x.2.all (groupFits (groupLen x.1 k))

end Sys2Proof.Machine
end

