-- ==== Sys2Proof/Machine/Manage.lean ====
section
/-! DEFINITION. What the management processor does that names no context: PARTSET (11 R264, R265), IATSET (17 R364), MPOLICY and refused
opcodes (11 R272), power, ageing and configuration (01 R20, R22, R23); and the host's own accesses to memory (12 R285). -/

namespace Sys2Proof.Machine

open Sys2Proof

/-! ### PARTSET (11 R264, R265) -/

/-- The record that an image holds for a die. -/
def partOfBits (die : Fin 4) (v : Nat) : PartRec where
  die := die
  part := BitVec.ofNat 6 (bitsOf v 224 6)
  cores := BitVec.ofNat 96 (bitsOf v 0 96)
  slices := BitVec.ofNat 64 (bitsOf v 96 64)
  chan0 := BitVec.ofNat 32 (bitsOf v 160 32)
  chan1 := BitVec.ofNat 32 (bitsOf v 192 32)
  nearB := BitVec.ofNat 64 (bitsOf v 256 64)
  farB := BitVec.ofNat 64 (bitsOf v 320 64)
  farS := BitVec.ofNat 64 (bitsOf v 384 64)
  fports := BitVec.ofNat 10 (bitsOf v 448 10)

/-- The near and far ranges of a partition as base and size. -/
def State.partRanges (s : State) (part : BitVec 6) : List (Nat × Nat) :=
  [(s.nearB part, s.nearEnd part - s.nearB part), (s.farB part, s.farS part)]

/-- Two records of different partitions share a core, a slice, a channel or a far port. -/
def PartRec.clashes (a b : PartRec) : Bool :=
  a.part ≠ b.part &&
    (a.fports &&& b.fports ≠ 0 ||
      (a.die = b.die && (a.cores &&& b.cores ≠ 0 || a.slices &&& b.slices ≠ 0 || a.chan0 &&& b.chan0 ≠ 0 || a.chan1 &&& b.chan1 ≠ 0)))

/-- A record that R264 and R265 allow by itself: a core, a slice and a channel, bases and size in whole GiB, and far ports that the
package has. -/
def State.recOk (s : State) (r : PartRec) : Bool :=
  r.cores ≠ 0 && r.slices ≠ 0 && (r.chan0 ≠ 0 || r.chan1 ≠ 0) &&
    (([r.nearB, r.farB, r.farS] : List Word).all fun a => a.toNat % 2 ^ 30 = 0) && (setBits r.fports 10).all (· < s.farPorts)

/-- The dies that the records of one partition may span: those of one device of a view (11 R267), or three on the way to all four, which
PARTSET reaches record by record (log 31). -/
def diesOk (l : List (Fin 4)) : Bool :=
  ([[], [0], [1], [2], [3], [0, 1], [2, 3], [0, 1, 2, 3]] : List (List (Fin 4))).contains l || l.length = 3

/-- R265: the records of a state may stand together. -/
def State.partsOk (s : State) : Bool :=
  s.parts.all fun a =>
    s.recOk a && diesOk (s.partDies a.part) &&
      s.parts.all fun b =>
        !a.clashes b && (a.part ≠ b.part || (a.nearB = b.nearB && a.fports = b.fports)) &&
          (a.part = b.part || (s.partRanges a.part).all fun x => (s.partRanges b.part).all fun y => !overlaps x y)

/-- PARTSET: a record with V = 0 takes the die's record of the partition out of force. The channels keep their bytes, which the new
records reach at their own addresses (R266). -/
def execPartset (arg : Word) (s : State) : Out :=
  .next (s.mailed (cmdRecord 0x10 0 arg 0) fun s =>
    if bitsOf arg.toNat 2 4 ≠ 0 then s.refuseValue
    else
      let die := Fin.ofNat 4 (bitsOf arg.toNat 0 2)
      let v := s.rdNat (arg.toNat / 64 * 64) 64
      let s := s.touch (arg.toNat / 64 * 64) 64
      let r := partOfBits die v
      let rest := s.parts.filter fun (p : PartRec) => !(p.die = die && p.part = r.part)
      let t : State := { s with parts := if bitsOf v 230 1 = 1 then rest ++ [r] else rest }
      if s.partUsed r.part then s.refuseState else if !t.partsOk then s.refuseValue else (s.remapTo t).replyDone)

/-! ### IATSET (11 R272, 17 R364) -/

/-- The entry's memory lies in one range of a partition. -/
def State.inRange (s : State) (part : BitVec 6) (pa n : Nat) : Bool :=
  (s.partRanges part).any fun r => r.1 ≤ pa && pa + n ≤ r.1 + r.2

/-- An entry image that R272 lets in place of another. -/
def State.iatOk (s : State) (old : Option IatEntry) (e : IatEntry) : Bool :=
  match s.ctx? e.ctx with
  | none => false
  | some x =>
    let part := s.ctxPart x
    e.pbase % 65536 = 0 && e.psize % 65536 = 0 && s.inRange part e.pbase e.psize && (x.keys[e.key]).isSome &&
      !(old.any fun o => (s.ctx? o.ctx).any fun y => s.ctxPart y ≠ part)

/-- The reserved bits of an entry are zero in the table. -/
def iatClean (v : Nat) : BitVec 256 := BitVec.ofNat 256 (putBits (putBits (putBits v 6 2 0) 22 10 0) 224 32 0)

/-- IATSET: an image with V = 0 clears the entry. -/
def execIatset (arg : Word) (arg2 : Word) (s : State) : Out :=
  .next (s.mailed (cmdRecord 0x22 0 arg arg2) fun s =>
    if arg.toNat % 32 ≠ 0 || 1024 ≤ arg2.toNat then s.refuseValue
    else
      let i := Fin.ofNat 1024 arg2.toNat
      let v := iatClean (s.rdNat arg.toNat 32)
      let s := s.touch arg.toNat 32
      let rest := s.iat.filter (·.1 ≠ i)
      let old := ((s.iat.find? (·.1 = i)).map (·.2)).bind iatOf
      match iatOf v with
      | none => { s with iat := rest }.replyDone
      | some e => if s.iatOk old e then { s with iat := (i, v) :: rest }.replyDone else s.refuseValue)

/-! ### MPOLICY (11 R272) -/

/-- An entry of 72 bytes: a kind, seven zero bytes and a digest. -/
def policyEntry (b : List Byte) (i : Nat) : List Byte := (b.drop (16 + 72 * i)).take 72

def entryOk (e : List Byte) : Bool := (e.head?.any fun k => k.toNat ≤ 3) && ((e.drop 1).take 7).all (· = 0)

def entryOf (e : List Byte) : Byte × BitVec 512 := (e.headD 0, BitVec.ofNat 512 (leNat (e.drop 8)))

/-- MPOLICY: a header or an entry that breaks its layout is refused by value, a signature that does not verify by attestation. -/
def execMpolicy (arg : Word) (s : State) : Out :=
  .next (s.mailed (cmdRecord 0x24 0 arg 0) fun s =>
    let h := s.cohRead arg.toNat 16
    let s := s.touch arg.toNat 16
    let n := leNat (h.take 4)
    if arg.toNat % 64 ≠ 0 || n = 0 || 1024 < n || !(h.drop 4).all (· = 0) then s.refuseValue
    else
      let b := s.cohRead arg.toNat (16 + 72 * n + 4627)
      let s := s.touch arg.toNat (16 + 72 * n + 4627)
      let es := (List.range n).map (policyEntry b)
      if !es.all entryOk then s.refuseValue
      else if !Config.sigOk b then s.refuseAttest
      else { s with policy := es.map entryOf, oldPolicies := s.oldPolicies ++ [(s.icycles, s.policy)] }.replyDone)

/-! ### Records that are refused (11 R271, R272) -/

/-- The opcodes that name a context. -/
def ctxOpcodes : List Nat := [0x02, 0x03, 0x04, 0x05, 0x06, 0x07, 0x08, 0x09, 0x11, 0x12, 0x13, 0x14, 0x23]

/-- The opcodes that name none. -/
def plainOpcodes : List Nat := [0x01, 0x10, 0x20, 0x21, 0x22, 0x24]

/-- The commands without an argument. -/
def noArgument : List Nat := [0x03, 0x04, 0x05, 0x06, 0x07, 0x08]

/-- A command record that R272 refuses by value whatever the device holds: an opcode that is not assigned, a byte that must be zero, or a
LINKCTL with another action. -/
def recRefused (r : Rec64) : Bool :=
  let v := r.toNat
  let op := bitsOf v 0 8
  let arg := bitsOf v 64 64
  !(ctxOpcodes.contains op || plainOpcodes.contains op) || bitsOf v 8 8 ≠ 0 || bitsOf v 32 32 ≠ 0 || bitsOf v 192 320 ≠ 0 ||
    (op ≠ 0x22 && bitsOf v 128 64 ≠ 0) || (plainOpcodes.contains op && bitsOf v 16 16 ≠ 0) || (noArgument.contains op && arg ≠ 0) ||
    (op = 0x20 && (bitsOf arg 16 4 = 0 || 6 < bitsOf arg 16 4))

/-- A record with a CTXID above 1023, which is not in use. -/
def ctxOutside (r : Rec64) : Bool := ctxOpcodes.contains (bitsOf r.toNat 0 8) && 1024 ≤ bitsOf r.toNat 16 16

/-- MAILBOX_INVALID_OPCODE. A record that is some command's is no such event. -/
def execMailboxInvalidOpcode (rec : Rec64) (s : State) : Out :=
  if recRefused rec then .next (s.mailed rec State.refuseValue)
  else if ctxOutside rec then .next (s.mailed rec State.refuseState)
  else .next s

/-! ### Power, ageing, configuration (01 R20, R22, R23) -/

/-- POWER_LIMIT_REACHED: each lowered clock is logged; nothing else changes. -/
def execPowerLimitReached (dies : BitVec 4) (s : State) : Out :=
  let l := (List.finRange 4).filter fun d => dies.getLsbD d.val
  .next { s with
    clocks := Vector.ofFn fun d => if l.contains d then s.clocks[d] + 1 else s.clocks[d]
    logs := s.logs ++ l.map fun d => (Chip.cdie d, LogEntry.clock) }

/-- The ageing monitor of a die; one of which nothing is kept is as at reset. -/
def State.ageingOf (s : State) (c : Chip) : Ageing := ((s.ageing.find? (·.1 = c)).map (·.2)).getD ⟨0, 0, false, false, 0⟩

def State.setAgeing (s : State) (c : Chip) (a : Ageing) : State := { s with ageing := (c, a) :: s.ageing.filter (·.1 ≠ c) }

/-- AGEING_THRESHOLD_CROSSING: a die's monitor predicts `days`. A prediction that falls below the threshold sets the flag and is counted
and logged; any other is only reported. -/
def execAgeingThresholdCrossing (c : Chip) (days : Nat) (s : State) : Out :=
  let a := s.ageingOf c
  if days < a.threshold && !a.below then
    .next { s.setAgeing c { a with days := days, below := true, flag := true, crossings := count a.crossings } with
      logs := s.logs ++ ([(c, .ageing days)] : List (Chip × LogEntry)) }
  else .next (s.setAgeing c { a with days := days, below := days < a.threshold })

/-- AGEING_FLAG_CLEAR. -/
def execAgeingFlagClear (c : Chip) (s : State) : Out := .next (s.setAgeing c { s.ageingOf c with flag := false })

/-- Zero written to a management counter (00 R8). -/
def State.clearCounter (s : State) (x : MgmtCounter) : State :=
  match x with
  | .scrce d => { s with scrce := s.scrce.set d 0 }
  | .scrue d => { s with scrue := s.scrue.set d 0 }
  | .dlpois => { s with dlpois := 0 }
  | .waits pc => s.setRefresh { s.refreshOf pc with waits := 0 }
  | .crossings c => s.setAgeing c { s.ageingOf c with crossings := 0 }

/-- A field of a plane written, the fields in rising order. -/
def planeSet : List (Nat × Nat) → Nat → Nat → List (Nat × Nat)
  | [], a, v => [(a, v)]
  | (x, w) :: r, a, v => if a < x then (a, v) :: (x, w) :: r else if a = x then (a, v) :: r else (x, w) :: planeSet r a v

/-- The resident plane of a unit. -/
def State.plane (s : State) (u : Chip) : List (Nat × Nat) := ((s.planes.find? (·.unit = u)).map (·.fields)).getD []

/-- DIFFERENCE_LIST_APPLY: the plane that the list produces becomes resident where its checksum matches; otherwise the old plane stays
whole and the mismatch is logged. -/
def execDifferenceListApply (u : Chip) (l : DiffList) (s : State) : Out :=
  let p := l.changes.foldl (fun p c => planeSet p c.1 c.2) (s.plane u)
  if Config.planeSum p = l.checksum then .next { s with planes := ⟨u, p⟩ :: s.planes.filter (·.unit ≠ u) }
  else .next { s with logs := s.logs ++ ([(u, .planeMismatch u)] : List (Chip × LogEntry)) }

/-! ### The host's accesses to memory (12 R285, 04 R105) -/

/-- Pieces of bytes written line by line under a key; one that faults ends it. -/
def State.hostPieces (s : State) (part : BitVec 6) (w : Stamping) : List (Nat × Nat) → List Byte → State
  | [], _ => s
  | (a, n) :: rest, b =>
    match s.writeLine part w a (b.take n) with
    | .error _ => s
    | .ok s => (s.dropCopies [0, 1, 2, 3] (lineOf a)).hostPieces part w rest (b.drop n)

/-- Bytes as a plain write leaves them: RO and reserved fields of the device's structures are not written (00 R5, R12). -/
def State.hostBytes (s : State) (pa : Nat) (b : List Byte) : List Byte :=
  (atOffset pa b).map fun x => s.keepFields x.1 (s.cohByte x.1) x.2

/-- HOST_LINK_MEMORY_ACCESS. Plain bytes are written where the device keeps its own structures; bytes under a key of a context go to its
partition's ranges, under R338, and to addresses outside them they are not written (log 62). -/
def execHostLinkMemoryAccess (a : HostAccess) (s : State) : Out :=
  match a with
  | .read pa n => .next (s.touch pa.toNat n)
  | .write pa b =>
    let n := lineOf (pa.toNat + b.length - 1) + 1 - lineOf pa.toNat
    .next ((natRange (lineOf pa.toNat) n).foldl State.armLine (s.cohWrite pa.toNat (s.hostBytes pa.toNat b)))
  | .writeKeyed pa b ctx key wv rewrite =>
    match s.ctx? ctx, s.keyTag ctx key with
    | some x, some k =>
      let part := s.ctxPart x
      if s.inRange part pa.toNat b.length then .next (s.hostPieces part ⟨k, wv, rewrite⟩ (piecesOf pa.toNat b.length) b)
      else .next s
    | _, _ => .next s
  | .mail rec => .next (s.post rec)
  | .clear x => .next (s.clearCounter x)
  | .threshold c days =>
    let a := s.ageingOf c
    .next (s.setAgeing c { a with threshold := days, below := a.below && a.days < days })

end Sys2Proof.Machine
end

