-- ==== Sys2Proof/Machine/Scalar.lean ====
section
/-! DEFINITION. Scalar integer instructions, moves, compare and queue control (05 R110 to R112, R118, R119). -/

namespace Sys2Proof.Machine

open Sys2Proof

/-! ### Results (05 R110) -/

def mulhOf (ty : STy) (a b : Word) : Word :=
  match ty with
  | .i64 => BitVec.ofInt 64 (a.toInt * b.toInt / 2 ^ 64)
  | .n64 => BitVec.ofNat 64 (a.toNat * b.toNat / 2 ^ 64)

/-- div(a, b) of R110: the quotient rounded toward zero; the two corners have their stated results. -/
def divOf (ty : STy) (a b : Word) : Word :=
  if b = 0 then BitVec.allOnes 64
  else match ty with
    | .i64 => BitVec.ofInt 64 (a.toInt.tdiv b.toInt)
    | .n64 => BitVec.ofNat 64 (a.toNat / b.toNat)

/-- rem(a, b) of R110: it takes the sign of a. -/
def remOf (ty : STy) (a b : Word) : Word :=
  if b = 0 then a
  else match ty with
    | .i64 => BitVec.ofInt 64 (a.toInt.tmod b.toInt)
    | .n64 => BitVec.ofNat 64 (a.toNat % b.toNat)

/-- The shift count b[5:0]. -/
def shiftOf (b : Word) : Nat := b.toNat % 64

def minOf (ty : STy) (a b : Word) : Word := if scalarOrd ty b a = .lt then b else a

def maxOf (ty : STy) (a b : Word) : Word := if scalarOrd ty a b = .lt then b else a

/-- The number of leading zero bits among the lowest `n` bits. -/
def clzFrom : Nat → Nat → Nat
  | 0, _ => 0
  | n + 1, v => if v.testBit n then 0 else 1 + clzFrom n v

/-- The number of one bits among the lowest `n` bits. -/
def popcFrom : Nat → Nat → Nat
  | 0, _ => 0
  | n + 1, v => (if v.testBit n then 1 else 0) + popcFrom n v

/-! ### The two shapes -/

/-- A binary operation: a, then b, then the destination (05 R110). -/
def binBody (f : STy → Word → Word → Word) (o : SBin) : LaneM Unit := do
  let a ← readS o.a
  let b ← readSrc2 o.b
  writeS o.d (f o.ty a b)

/-- A unary operation. -/
def unBody (f : Word → Word) (o : SUn) : LaneM Unit := do
  let a ← readS o.a
  writeS o.d (f a)

/-! ### Meanings -/

def execAdd (h : Head) (o : SBin) (s : State) : Out := lane h (binBody (fun _ a b => a + b) o) s
def execSub (h : Head) (o : SBin) (s : State) : Out := lane h (binBody (fun _ a b => a - b) o) s
def execMul (h : Head) (o : SBin) (s : State) : Out := lane h (binBody (fun _ a b => a * b) o) s
def execMulh (h : Head) (o : SBin) (s : State) : Out := lane h (binBody mulhOf o) s
def execDiv (h : Head) (o : SBin) (s : State) : Out := lane h (binBody divOf o) s
def execRem (h : Head) (o : SBin) (s : State) : Out := lane h (binBody remOf o) s
def execAnd (h : Head) (o : SBin) (s : State) : Out := lane h (binBody (fun _ a b => a &&& b) o) s
def execOr (h : Head) (o : SBin) (s : State) : Out := lane h (binBody (fun _ a b => a ||| b) o) s
def execXor (h : Head) (o : SBin) (s : State) : Out := lane h (binBody (fun _ a b => a ^^^ b) o) s
def execShl (h : Head) (o : SBin) (s : State) : Out := lane h (binBody (fun _ a b => a <<< shiftOf b) o) s
def execShr (h : Head) (o : SBin) (s : State) : Out := lane h (binBody (fun _ a b => a >>> shiftOf b) o) s
def execSar (h : Head) (o : SBin) (s : State) : Out := lane h (binBody (fun _ a b => a.sshiftRight (shiftOf b)) o) s
def execMin (h : Head) (o : SBin) (s : State) : Out := lane h (binBody minOf o) s
def execMax (h : Head) (o : SBin) (s : State) : Out := lane h (binBody maxOf o) s
def execClz (h : Head) (o : SUn) (s : State) : Out := lane h (unBody (fun a => BitVec.ofNat 64 (clzFrom 64 a.toNat)) o) s
def execPopc (h : Head) (o : SUn) (s : State) : Out := lane h (unBody (fun a => BitVec.ofNat 64 (popcFrom 64 a.toNat)) o) s
def execMov (h : Head) (o : SUn) (s : State) : Out := lane h (unBody (fun a => a) o) s

/-- SEL (05 R111). -/
def selBody (o : SSel) : LaneM Unit := do
  let a ← readS o.a
  let b ← readS o.b
  let p ← readS o.p
  writeS o.d (if p != 0 then a else b)

def execSel (h : Head) (o : SSel) (s : State) : Out := lane h (selBody o) s

/-- MOVI, low form (05 R111). -/
def moviBody (o : SImm) : LaneM Unit := writeS o.d (o.imm.signExtend 64)

def execMovi (h : Head) (o : SImm) (s : State) : Out := lane h (moviBody o) s

/-- MOVI, high form (05 R111): it reads FD, which names a register. -/
def moviHighBody (o : SImm) : LaneM Unit := do
  let a ← readS o.d
  writeS o.d (o.imm ++ a.setWidth 32)

def execMoviHigh (h : Head) (o : SImm) (s : State) : Out := lane h (moviHighBody o) s

/-- CMP (05 R112). -/
def cmpBody (o : SCmp) : LaneM Unit := do
  let a ← readS o.a
  let b ← readSrc2 o.b
  match o.d.name with
  | .p n =>
    let old ← readPred n
    writePred n (joinOf o.join old (condOf o.cond (scalarOrd o.ty a b)))
  | _ => illegal

def execCmp (h : Head) (o : SCmp) (s : State) : Out := lane h (cmpBody o) s

/-- QDROP (05 R118). -/
def qdropBody (o : Operand) : LaneM Unit :=
  match o.name with
  | .q n =>
    if n.val < 12 then modCore fun k => { k with vq := k.vq.set (vectorQ n.val) (dropEntries k.vq[vectorQ n.val]) }
    else modCore fun k => { k with q := k.q.set (scalarQ n.val) (dropEntries k.q[scalarQ n.val]) }
  | _ => illegal

def execQdrop (h : Head) (o : Operand) (s : State) : Out := lane h (qdropBody o) s

/-- The counts of a token queue: never reserved (05 R119). -/
def tokenCounts (n : Nat) : Word := BitVec.ofNat 64 ((16 - n) * 2 ^ 32 + n)

/-- The result of QCNT (05 R119). -/
def qcntOf (k : Core) (n : Name) : Word :=
  match n with
  | .q n => if n.val < 12 then queueCounts n.val k.vq[vectorQ n.val] else queueCounts n.val k.q[scalarQ n.val]
  | .d i => tokenCounts k.d[i]
  | _ => 0

/-- A core with one more entry in a queue register, as a push of this cycle leaves it; a push whose consumer has ended is
discarded (05 R119, R127). -/
def withPush (k : Core) (n : Name) : Core :=
  match n with
  | .q n =>
    if n.val < 12 || (k.slot (consumerOf n.val)).ended then k
    else { k with q := k.q.set (scalarQ n.val) (k.q[scalarQ n.val] ++ [⟨0, some 0, false, true⟩]) }
  | _ => k

/-- QCNT (05 R119): the counts after its own push, where it pushes to the queue it counts. -/
def qcntBody (o : QCntOp) : LaneM Unit := do
  let k ← getCore
  writeS o.d (qcntOf (if o.d.name = o.q.name then withPush k o.d.name else k) o.q.name)

def execQcnt (h : Head) (o : QCntOp) (s : State) : Out := lane h (qcntBody o) s

end Sys2Proof.Machine
end

