-- ==== Sys2Proof/Machine/Lane.lean ====
section
/-! DEFINITION. Sync bundles (02 R28 to R30): their four lanes issued together, and the rendezvous bound. -/

namespace Sys2Proof.Machine

open Sys2Proof

/-- The meaning of a lane word, as Dispatch gives it. An event is no lane word. -/
def execWord (i : Instr) (s : State) : Out :=
  match i with
  | .nop h => execNop h s
  | .endSlot h => execEndSlot h s
  | .br h o => execBr h o s
  | .brx h o => execBrx h o s
  | .call h o => execCall h o s
  | .ret h o => execRet h o s
  | .lpset h o => execLpset h o s
  | .lpend h => execLpend h s
  | .lpendExit h o => execLpendExit h o s
  | .add h o => execAdd h o s
  | .sub h o => execSub h o s
  | .mul h o => execMul h o s
  | .mulh h o => execMulh h o s
  | .div h o => execDiv h o s
  | .rem h o => execRem h o s
  | .and h o => execAnd h o s
  | .or h o => execOr h o s
  | .xor h o => execXor h o s
  | .shl h o => execShl h o s
  | .shr h o => execShr h o s
  | .sar h o => execSar h o s
  | .min h o => execMin h o s
  | .max h o => execMax h o s
  | .clz h o => execClz h o s
  | .popc h o => execPopc h o s
  | .sel h o => execSel h o s
  | .mov h o => execMov h o s
  | .movi h o => execMovi h o s
  | .moviHigh h o => execMoviHigh h o s
  | .cmp h o => execCmp h o s
  | .qdrop h o => execQdrop h o s
  | .qcnt h o => execQcnt h o s
  | .tidwr h o => execTidwr h o s
  | .tidrd h o => execTidrd h o s
  | .rdsys h o => execRdsys h o s
  | .wrsys h o => execWrsys h o s
  | .wrsysImmediate h o => execWrsysImmediate h o s
  | .rdcyc h o => execRdcyc h o s
  | .trap h o => execTrap h o s
  | .yield h => execYield h s
  | .ld h o => execLd h o s
  | .st h o => execSt h o s
  | .ldl h o => execLdl h o s
  | .stl h o => execStl h o s
  | .ldq h o => execLdq h o s
  | .ldqLocal h o => execLdqLocal h o s
  | .stq h o => execStq h o s
  | .stqLocal h o => execStqLocal h o s
  | .aadd h o => execAadd h o s
  | .amin h o => execAmin h o s
  | .amax h o => execAmax h o s
  | .aand h o => execAand h o s
  | .aor h o => execAor h o s
  | .axor h o => execAxor h o s
  | .axchg h o => execAxchg h o s
  | .acas h o => execAcas h o s
  | .afadd h o => execAfadd h o s
  | .fence h o => execFence h o s
  | .qjoin h o => execQjoin h o s
  | .cpin h o => execCpin h o s
  | .cpout h o => execCpout h o s
  | .gath h o => execGath h o s
  | .scat h o => execScat h o s
  | .msend h o => execMsend h o s
  | .rget h o => execRget h o s
  | .rgetPop h o => execRgetPop h o s
  | .rwait h o => execRwait h o s
  | .fwr h o => execFwr h o s
  | .freq h o => execFreq h o s
  | .fatom h o => execFatom h o s
  | .lzoffer h o => execLzoffer h o s
  | .lzgrant h o => execLzgrant h o s
  | .lzput h o => execLzput h o s
  | .lzadopt h o => execLzadopt h o s
  | .lzfree h o => execLzfree h o s
  | .lzstat h o => execLzstat h o s
  | .barinit h o => execBarinit h o s
  | .bararv h o => execBararv h o s
  | .barwait h o => execBarwait h o s
  | .bartst h o => execBartst h o s
  | .pgpf h o => execPgpf h o s
  | .pgin h o => execPgin h o s
  | .launch h o => execLaunch h o s
  | .qentry h o => execQentry h o s
  | .vadd h o => execVadd h o s
  | .vsub h o => execVsub h o s
  | .vmul h o => execVmul h o s
  | .vfma h o => execVfma h o s
  | .vfms h o => execVfms h o s
  | .vmin h o => execVmin h o s
  | .vmax h o => execVmax h o s
  | .vabs h o => execVabs h o s
  | .vneg h o => execVneg h o s
  | .vrcp h o => execVrcp h o s
  | .vrsq h o => execVrsq h o s
  | .vsqrt h o => execVsqrt h o s
  | .vexp2 h o => execVexp2 h o s
  | .vlog2 h o => execVlog2 h o s
  | .vand h o => execVand h o s
  | .vor h o => execVor h o s
  | .vxor h o => execVxor h o s
  | .vnot h o => execVnot h o s
  | .vshl h o => execVshl h o s
  | .vshr h o => execVshr h o s
  | .vsar h o => execVsar h o s
  | .vcmp h o => execVcmp h o s
  | .vsel h o => execVsel h o s
  | .mpush h o => execMpush h o s
  | .minv h => execMinv h s
  | .mpop h => execMpop h s
  | .vskipz h o => execVskipz h o s
  | .kset h o => execKset h o s
  | .kget h o => execKget h o s
  | .vmov h o => execVmov h o s
  | .vins h o => execVins h o s
  | .vext h o => execVext h o s
  | .vcvt h o => execVcvt h o s
  | .vpack4 h o => execVpack4 h o s
  | .vunpack4 h o => execVunpack4 h o s
  | .vpack6 h o => execVpack6 h o s
  | .vunpack6 h o => execVunpack6 h o s
  | .vqnt h o => execVqnt h o s
  | .vdeq h o => execVdeq h o s
  | .vrotr h o => execVrotr h o s
  | .vrotc h o => execVrotc h o s
  | .vbcr h o => execVbcr h o s
  | .vbcc h o => execVbcc h o s
  | .vredr h o => execVredr h o s
  | .vredc h o => execVredc h o s
  | .vtrn h o => execVtrn h o s
  | .vzrd h o => execVzrd h o s
  | .vzwr h o => execVzwr h o s
  | .trd h o => execTrd h o s
  | .twr h o => execTwr h o s
  | .tpf h o => execTpf h o s
  | .tpfItinerary h o => execTpfItinerary h o s
  | .tpin h o => execTpin h o s
  | .tunpin h o => execTunpin h o s
  | .tlast h o => execTlast h o s
  | .tstream h o => execTstream h o s
  | .tinv h o => execTinv h o s
  | .twb h o => execTwb h o s
  | .tcmt h o => execTcmt h o s
  | .tedacq h o => execTedacq h o s
  | .mrec h o => execMrec h o s
  | .mconv h o => execMconv h o s
  | .mzst h o => execMzst h o s
  | .mzld h o => execMzld h o s
  | .mzclr h o => execMzclr h o s
  | .mterm h o => execMterm h o s
  | _ => .next s

/-! ### Issue of a sync bundle -/

/-- The scheduling fields of a lane word. -/
def wordHead (sl : Slot) (i : Instr) : Option Head := (Instr.lane sl i).map (·.1)

/-- The four slots stand at one sync bundle and may issue (02 R28). -/
def Core.meets (k : Core) : Bool :=
  Sys2Proof.Machine.allSlots.all fun sl => k.mayIssue sl && (k.slot sl).arrived.isSome && (k.slot sl).pc = (k.slot .c).pc

/-- Each token counter holds a token for every lane of the bundle that pops it: a token pushed by the bundle is not seen in it (02
R29). -/
def Core.tokensFor (k : Core) (heads : List Head) : Bool :=
  (List.finRange 8).all fun i => (heads.filter fun h => h.qx = some i).length ≤ k.d[i]

/-- No queue register holds more than its depth (02 R31, R32). -/
def Core.queuesFit (k : Core) : Bool :=
  ((List.finRange 20).all fun i => k.q[i].length ≤ depthOf (i.val + 12)) && (List.finRange 12).all fun i => k.vq[i].length ≤ depthOf i.val

def settleQueue {w : Nat} (l : List (QEntry w)) : List (QEntry w) := l.map fun (e : QEntry w) => { e with fresh := false }

/-- The bundle has issued: what its lanes pushed is visible. -/
def endBundle (k : Core) : Core := { k with bundling := false, q := k.q.map settleQueue, vq := k.vq.map settleQueue }

/-- The end of one lane of a sync bundle. -/
inductive LaneEnd
  | issued
  | faulted
  | blocked (k : Option BlockKind)
  deriving DecidableEq, Repr

/-- How a lane ended, from the core after it: a fault makes the group trapping, and an instruction that issues leaves its bundle. -/
def laneEnd (k : Core) (sl : Slot) : LaneEnd :=
  if k.stat ≠ .running then .faulted
  else if (k.slot sl).arrived.isNone then .issued
  else .blocked (k.slot sl).blk

/-- A lane that faulted: its group goes on with the other lanes of the bundle; only this lane is left of it (log 32). -/
def leaveSolo (n : BitVec 32) (sl : Slot) (k : Core) : Core :=
  { k.updSlot sl fun t => if t.pc = n then { t with solo := some n, arrived := none } else t with stat := .running }

/-- The lanes of a sync bundle, one after the other: the state, whether one faulted; or the first slot that cannot issue. -/
def runLanes (c : CoreId) (n : BitVec 32) : List (Slot × Instr) → Bool → State → Except (Slot × Option BlockKind) (State × Bool)
  | [], f, s => .ok (s, f)
  | (sl, i) :: rest, f, s =>
    match execWord i { s with cur := (c, sl) } with
    | .next t =>
      match laneEnd (t.core c) sl with
      | .issued => runLanes c n rest f t
      | .faulted => runLanes c n rest true (t.updCore c (leaveSolo n sl))
      | .blocked b => .error (sl, b)
    | _ => .error (sl, some .plain)

/-- The instruction of a lane word that is legal in its slot for the group on the core (04 R96, R97). -/
def decodeFor (g : GroupInfo) (k : Core) (sl : Slot) (w : LaneWord) : Option Instr :=
  match decode sl w with
  | .ok i => if legalFor g k i then some i else none
  | .error _ => none

/-- The lanes that decode, and a mask of those that do not (04 R97). -/
def decodeLanes (g : GroupInfo) (k : Core) (b : Bundle) : List (Slot × Instr) × Nat :=
  ([.a, .v, .m, .c] : List Slot).foldl (fun r sl =>
    match decodeFor g k sl (laneOf b sl) with
    | some i => (r.1 ++ [(sl, i)], r.2)
    | none => (r.1, r.2 + 2 ^ (Slot.fin sl).val)) ([], 0)

/-- The order in which the lanes of a bundle act, which is one core cycle for all: a WRSYS first, since what a lane counts in that cycle is
counted after it (05 R122); an END after the others, since they meet a slot that has not ended yet; and a QCNT last, since it sees
every pop of the cycle (05 R119). -/
def laneRank (x : Slot × Instr) : Nat :=
  match x.2 with
  | .wrsys _ _ | .wrsysImmediate _ _ => 0
  | .endSlot _ => 2
  | .qcnt _ _ => 3
  | _ => 1

def laneOrder (l : List (Slot × Instr)) : List (Slot × Instr) :=
  (l.filter (laneRank · = 0)) ++ (l.filter (laneRank · = 1)) ++
    (l.filter (laneRank · = 2)) ++ l.filter (laneRank · = 3)

/-- Each lane tried by itself on the state before the bundle: whether every one can issue, and the state with what the lanes that cannot
keep meanwhile: their slots blocked, a lookup parked, a read counted. -/
def tryLanes (c : CoreId) : List (Slot × Instr) → Bool → State → Bool × State
  | [], ok, s => (ok, s)
  | (sl, i) :: rest, ok, s =>
    match execWord i { s with cur := (c, sl) } with
    | .next t =>
      match laneEnd (t.core c) sl with
      | .blocked _ => tryLanes c rest false t
      | _ => tryLanes c rest ok s
    | _ => tryLanes c rest false s

/-- The slots of a mask, C first. -/
def maskSlots (m : Nat) : List Slot := allSlots.filter fun sl => m.testBit (Slot.fin sl).val

/-- A decoded sync bundle issues whole, or none of it: where a lane by itself cannot issue, or all together cannot, it waits (02 R28). -/
def State.issueBundle (s : State) (c : CoreId) (n : BitVec 32) (l : List (Slot × Instr)) : State :=
  let wait := fun (sl : Slot) (b : Option BlockKind) => s.updCore c (·.updSlot sl fun t => { t with blk := b })
  if !(s.core c).tokensFor (l.filterMap fun x => wordHead x.1 x.2) then wait .c (some .plain)
  else
    let start := s.updCore c fun k => { k with bundling := true }
    match tryLanes c l true start with
    | (false, t) => { t.updCore c fun k => { k with bundling := false } with cur := s.cur }
    | (true, _) =>
      match runLanes c n (laneOrder l) false start with
      | .error (sl, b) => wait sl b
      | .ok (t, f) =>
        if !(t.core c).queuesFit then wait .c (some .plain)
        else t.updCore c fun k => { endBundle k with stat := if f then .trapping false else k.stat }

/-- SYNC_BUNDLE_ISSUE (02 R28, R29; 04 R97). -/
def execSyncBundleIssue (c : CoreId) (s : State) : Out :=
  let k := s.core c
  let n := (k.slot .c).pc
  match k.grp with
  | none => .next s
  | some g =>
    if !k.meets then .next s
    else match s.fetch c g n with
      | (s, .error f) => .next (laneFault f { s with cur := (c, .c) })
      | (s, .ok b) =>
        if syBits b ≠ 0xF then .next s
        else match decodeLanes g k b with
          | (l, 0) => .next (s.issueBundle c n l)
          | (_, m) =>
            let sl := (maskSlots m).headD .c
            .next (raiseFault c { code := 0x0101, src := Slot.src sl, bundle := n, aux := BitVec.ofNat 64 m } (.lane sl n) s)

/-! ### The rendezvous bound (02 R30) -/

/-- The slots that stand at a sync bundle, C first, with the cycle at which each arrived. -/
def Core.arrivals (k : Core) : List (Slot × Nat) :=
  Sys2Proof.Machine.allSlots.filterMap fun sl => (k.slot sl).arrived.map fun t => (sl, t)

/-- The slot that arrived first of those that stand at a sync bundle; C, A, V, M where they came in one cycle. -/
def firstOf : List (Slot × Nat) → Option (Slot × Nat)
  | [] => none
  | x :: r =>
    match firstOf r with
    | none => some x
    | some y => if y.2 < x.2 then some y else some x

/-- The PCs of C, A, V and M, C lowest (14 R312). -/
def pcsOf (k : Core) : BitVec 128 :=
  BitVec.ofNat 128 (packFields (allSlots.map fun sl => (32, (k.slot sl).pc.toNat)))

/-- RENDEZVOUS_BOUND_EXPIRY: the sync bundle waited for longest raises the rendezvous fault. -/
def execRendezvousBoundExpiry (c : CoreId) (s : State) : Out :=
  let k := s.core c
  match k.grp, firstOf k.arrivals with
  | some g, some (sl, t) =>
    if k.stat ≠ .running || k.pre.isSome || s.cycle c.die < t + g.rzb then .next s
    else .next (raiseFault c { code := 0x0104, src := Slot.src sl, bundle := (k.slot sl).pc, loop := pcsOf k } .rendezvous s)
  | _, _ => .next s

end Sys2Proof.Machine
end

