-- ==== Sys2Proof/Machine/Dispatch.lean ====
section
/-! DEFINITION. The dispatch of every instruction and event to its meaning, one arm per constructor of Instr. -/

namespace Sys2Proof.Machine

open Sys2Proof

def exec (i : Instr) (s : State) : Host.Outcome State Fault Refusal :=
  match i with
  | .nop h => Sys2Proof.Machine.execNop h s
  | .endSlot h => Sys2Proof.Machine.execEndSlot h s
  | .br h o => Sys2Proof.Machine.execBr h o s
  | .brx h o => Sys2Proof.Machine.execBrx h o s
  | .call h o => Sys2Proof.Machine.execCall h o s
  | .ret h o => Sys2Proof.Machine.execRet h o s
  | .lpset h o => Sys2Proof.Machine.execLpset h o s
  | .lpend h => Sys2Proof.Machine.execLpend h s
  | .lpendExit h o => Sys2Proof.Machine.execLpendExit h o s
  | .add h o => Sys2Proof.Machine.execAdd h o s
  | .sub h o => Sys2Proof.Machine.execSub h o s
  | .mul h o => Sys2Proof.Machine.execMul h o s
  | .mulh h o => Sys2Proof.Machine.execMulh h o s
  | .div h o => Sys2Proof.Machine.execDiv h o s
  | .rem h o => Sys2Proof.Machine.execRem h o s
  | .and h o => Sys2Proof.Machine.execAnd h o s
  | .or h o => Sys2Proof.Machine.execOr h o s
  | .xor h o => Sys2Proof.Machine.execXor h o s
  | .shl h o => Sys2Proof.Machine.execShl h o s
  | .shr h o => Sys2Proof.Machine.execShr h o s
  | .sar h o => Sys2Proof.Machine.execSar h o s
  | .min h o => Sys2Proof.Machine.execMin h o s
  | .max h o => Sys2Proof.Machine.execMax h o s
  | .clz h o => Sys2Proof.Machine.execClz h o s
  | .popc h o => Sys2Proof.Machine.execPopc h o s
  | .sel h o => Sys2Proof.Machine.execSel h o s
  | .mov h o => Sys2Proof.Machine.execMov h o s
  | .movi h o => Sys2Proof.Machine.execMovi h o s
  | .moviHigh h o => Sys2Proof.Machine.execMoviHigh h o s
  | .cmp h o => Sys2Proof.Machine.execCmp h o s
  | .qdrop h o => Sys2Proof.Machine.execQdrop h o s
  | .qcnt h o => Sys2Proof.Machine.execQcnt h o s
  | .tidwr h o => Sys2Proof.Machine.execTidwr h o s
  | .tidrd h o => Sys2Proof.Machine.execTidrd h o s
  | .rdsys h o => Sys2Proof.Machine.execRdsys h o s
  | .wrsys h o => Sys2Proof.Machine.execWrsys h o s
  | .wrsysImmediate h o => Sys2Proof.Machine.execWrsysImmediate h o s
  | .rdcyc h o => Sys2Proof.Machine.execRdcyc h o s
  | .trap h o => Sys2Proof.Machine.execTrap h o s
  | .yield h => Sys2Proof.Machine.execYield h s
  | .ld h o => Sys2Proof.Machine.execLd h o s
  | .st h o => Sys2Proof.Machine.execSt h o s
  | .ldl h o => Sys2Proof.Machine.execLdl h o s
  | .stl h o => Sys2Proof.Machine.execStl h o s
  | .ldq h o => Sys2Proof.Machine.execLdq h o s
  | .ldqLocal h o => Sys2Proof.Machine.execLdqLocal h o s
  | .stq h o => Sys2Proof.Machine.execStq h o s
  | .stqLocal h o => Sys2Proof.Machine.execStqLocal h o s
  | .aadd h o => Sys2Proof.Machine.execAadd h o s
  | .amin h o => Sys2Proof.Machine.execAmin h o s
  | .amax h o => Sys2Proof.Machine.execAmax h o s
  | .aand h o => Sys2Proof.Machine.execAand h o s
  | .aor h o => Sys2Proof.Machine.execAor h o s
  | .axor h o => Sys2Proof.Machine.execAxor h o s
  | .axchg h o => Sys2Proof.Machine.execAxchg h o s
  | .acas h o => Sys2Proof.Machine.execAcas h o s
  | .afadd h o => Sys2Proof.Machine.execAfadd h o s
  | .fence h o => Sys2Proof.Machine.execFence h o s
  | .qjoin h o => Sys2Proof.Machine.execQjoin h o s
  | .cpin h o => Sys2Proof.Machine.execCpin h o s
  | .cpout h o => Sys2Proof.Machine.execCpout h o s
  | .gath h o => Sys2Proof.Machine.execGath h o s
  | .scat h o => Sys2Proof.Machine.execScat h o s
  | .msend h o => Sys2Proof.Machine.execMsend h o s
  | .rget h o => Sys2Proof.Machine.execRget h o s
  | .rgetPop h o => Sys2Proof.Machine.execRgetPop h o s
  | .rwait h o => Sys2Proof.Machine.execRwait h o s
  | .fwr h o => Sys2Proof.Machine.execFwr h o s
  | .freq h o => Sys2Proof.Machine.execFreq h o s
  | .fatom h o => Sys2Proof.Machine.execFatom h o s
  | .lzoffer h o => Sys2Proof.Machine.execLzoffer h o s
  | .lzgrant h o => Sys2Proof.Machine.execLzgrant h o s
  | .lzput h o => Sys2Proof.Machine.execLzput h o s
  | .lzadopt h o => Sys2Proof.Machine.execLzadopt h o s
  | .lzfree h o => Sys2Proof.Machine.execLzfree h o s
  | .lzstat h o => Sys2Proof.Machine.execLzstat h o s
  | .barinit h o => Sys2Proof.Machine.execBarinit h o s
  | .bararv h o => Sys2Proof.Machine.execBararv h o s
  | .barwait h o => Sys2Proof.Machine.execBarwait h o s
  | .bartst h o => Sys2Proof.Machine.execBartst h o s
  | .pgpf h o => Sys2Proof.Machine.execPgpf h o s
  | .pgin h o => Sys2Proof.Machine.execPgin h o s
  | .launch h o => Sys2Proof.Machine.execLaunch h o s
  | .qentry h o => Sys2Proof.Machine.execQentry h o s
  | .vadd h o => Sys2Proof.Machine.execVadd h o s
  | .vsub h o => Sys2Proof.Machine.execVsub h o s
  | .vmul h o => Sys2Proof.Machine.execVmul h o s
  | .vfma h o => Sys2Proof.Machine.execVfma h o s
  | .vfms h o => Sys2Proof.Machine.execVfms h o s
  | .vmin h o => Sys2Proof.Machine.execVmin h o s
  | .vmax h o => Sys2Proof.Machine.execVmax h o s
  | .vabs h o => Sys2Proof.Machine.execVabs h o s
  | .vneg h o => Sys2Proof.Machine.execVneg h o s
  | .vrcp h o => Sys2Proof.Machine.execVrcp h o s
  | .vrsq h o => Sys2Proof.Machine.execVrsq h o s
  | .vsqrt h o => Sys2Proof.Machine.execVsqrt h o s
  | .vexp2 h o => Sys2Proof.Machine.execVexp2 h o s
  | .vlog2 h o => Sys2Proof.Machine.execVlog2 h o s
  | .vand h o => Sys2Proof.Machine.execVand h o s
  | .vor h o => Sys2Proof.Machine.execVor h o s
  | .vxor h o => Sys2Proof.Machine.execVxor h o s
  | .vnot h o => Sys2Proof.Machine.execVnot h o s
  | .vshl h o => Sys2Proof.Machine.execVshl h o s
  | .vshr h o => Sys2Proof.Machine.execVshr h o s
  | .vsar h o => Sys2Proof.Machine.execVsar h o s
  | .vcmp h o => Sys2Proof.Machine.execVcmp h o s
  | .vsel h o => Sys2Proof.Machine.execVsel h o s
  | .mpush h o => Sys2Proof.Machine.execMpush h o s
  | .minv h => Sys2Proof.Machine.execMinv h s
  | .mpop h => Sys2Proof.Machine.execMpop h s
  | .vskipz h o => Sys2Proof.Machine.execVskipz h o s
  | .kset h o => Sys2Proof.Machine.execKset h o s
  | .kget h o => Sys2Proof.Machine.execKget h o s
  | .vmov h o => Sys2Proof.Machine.execVmov h o s
  | .vins h o => Sys2Proof.Machine.execVins h o s
  | .vext h o => Sys2Proof.Machine.execVext h o s
  | .vcvt h o => Sys2Proof.Machine.execVcvt h o s
  | .vpack4 h o => Sys2Proof.Machine.execVpack4 h o s
  | .vunpack4 h o => Sys2Proof.Machine.execVunpack4 h o s
  | .vpack6 h o => Sys2Proof.Machine.execVpack6 h o s
  | .vunpack6 h o => Sys2Proof.Machine.execVunpack6 h o s
  | .vqnt h o => Sys2Proof.Machine.execVqnt h o s
  | .vdeq h o => Sys2Proof.Machine.execVdeq h o s
  | .vrotr h o => Sys2Proof.Machine.execVrotr h o s
  | .vrotc h o => Sys2Proof.Machine.execVrotc h o s
  | .vbcr h o => Sys2Proof.Machine.execVbcr h o s
  | .vbcc h o => Sys2Proof.Machine.execVbcc h o s
  | .vredr h o => Sys2Proof.Machine.execVredr h o s
  | .vredc h o => Sys2Proof.Machine.execVredc h o s
  | .vtrn h o => Sys2Proof.Machine.execVtrn h o s
  | .vzrd h o => Sys2Proof.Machine.execVzrd h o s
  | .vzwr h o => Sys2Proof.Machine.execVzwr h o s
  | .trd h o => Sys2Proof.Machine.execTrd h o s
  | .twr h o => Sys2Proof.Machine.execTwr h o s
  | .tpf h o => Sys2Proof.Machine.execTpf h o s
  | .tpfItinerary h o => Sys2Proof.Machine.execTpfItinerary h o s
  | .tpin h o => Sys2Proof.Machine.execTpin h o s
  | .tunpin h o => Sys2Proof.Machine.execTunpin h o s
  | .tlast h o => Sys2Proof.Machine.execTlast h o s
  | .tstream h o => Sys2Proof.Machine.execTstream h o s
  | .tinv h o => Sys2Proof.Machine.execTinv h o s
  | .twb h o => Sys2Proof.Machine.execTwb h o s
  | .tcmt h o => Sys2Proof.Machine.execTcmt h o s
  | .tedacq h o => Sys2Proof.Machine.execTedacq h o s
  | .mrec h o => Sys2Proof.Machine.execMrec h o s
  | .mconv h o => Sys2Proof.Machine.execMconv h o s
  | .mzst h o => Sys2Proof.Machine.execMzst h o s
  | .mzld h o => Sys2Proof.Machine.execMzld h o s
  | .mzclr h o => Sys2Proof.Machine.execMzclr h o s
  | .mterm h o => Sys2Proof.Machine.execMterm h o s
  | .syncBundleIssue c => Sys2Proof.Machine.execSyncBundleIssue c s
  | .rendezvousBoundExpiry c => Sys2Proof.Machine.execRendezvousBoundExpiry c s
  | .loadDataArrival c id => Sys2Proof.Machine.execLoadDataArrival c id s
  | .writeAcknowledgement c id also => Sys2Proof.Machine.execWriteAcknowledgement c id also s
  | .tokenPushRelease c e => Sys2Proof.Machine.execTokenPushRelease c e s
  | .copyStep c e => Sys2Proof.Machine.execCopyStep c e s
  | .messageAppend c id => Sys2Proof.Machine.execMessageAppend c id s
  | .fillComplete c line => Sys2Proof.Machine.execFillComplete c line s
  | .fillFault c line => Sys2Proof.Machine.execFillFault c line s
  | .writeBackAck c line => Sys2Proof.Machine.execWriteBackAck c line s
  | .pinnedFullBoundExpiry c => Sys2Proof.Machine.execPinnedFullBoundExpiry c s
  | .matrixStep c ahead => Sys2Proof.Machine.execMatrixStep c ahead s
  | .accumulatorStoreStep c ahead => Sys2Proof.Machine.execAccumulatorStoreStep c ahead s
  | .accumulatorLoadStep c ahead => Sys2Proof.Machine.execAccumulatorLoadStep c ahead s
  | .mzclrPerform c => Sys2Proof.Machine.execMzclrPerform c s
  | .geyserBatch part die => Sys2Proof.Machine.execGeyserBatch part die s
  | .groupStart die part => Sys2Proof.Machine.execGroupStart die part s
  | .completionSequence c => Sys2Proof.Machine.execCompletionSequence c s
  | .faultRaise c => Sys2Proof.Machine.execFaultRaise c s
  | .groupQuiescent c => Sys2Proof.Machine.execGroupQuiescent c s
  | .preemption c cause => Sys2Proof.Machine.execPreemption c cause s
  | .preemptionBoundExpiry c => Sys2Proof.Machine.execPreemptionBoundExpiry c s
  | .preemptionSave c => Sys2Proof.Machine.execPreemptionSave c s
  | .groupRestore ctx save => Sys2Proof.Machine.execGroupRestore ctx save s
  | .launchEntryTake ctx q => Sys2Proof.Machine.execLaunchEntryTake ctx q s
  | .launchVersionAdvance ctx q => Sys2Proof.Machine.execLaunchVersionAdvance ctx q s
  | .launchDispatch ctx q => Sys2Proof.Machine.execLaunchDispatch ctx q s
  | .launchComplete ctx q => Sys2Proof.Machine.execLaunchComplete ctx q s
  | .copyEntryTake ctx q => Sys2Proof.Machine.execCopyEntryTake ctx q s
  | .copyEntryComplete ctx q => Sys2Proof.Machine.execCopyEntryComplete ctx q s
  | .joinEntryTake ctx q => Sys2Proof.Machine.execJoinEntryTake ctx q s
  | .joinSatisfied ctx q => Sys2Proof.Machine.execJoinSatisfied ctx q s
  | .barrierSignalEntryTake ctx q => Sys2Proof.Machine.execBarrierSignalEntryTake ctx q s
  | .waitEntryTake ctx q => Sys2Proof.Machine.execWaitEntryTake ctx q s
  | .waitSatisfied ctx q => Sys2Proof.Machine.execWaitSatisfied ctx q s
  | .queueEngineAppend c id => Sys2Proof.Machine.execQueueEngineAppend c id s
  | .barrierArrival c id => Sys2Proof.Machine.execBarrierArrival c id s
  | .barrierReopen pa => Sys2Proof.Machine.execBarrierReopen pa s
  | .sliceRequestArrival c id part ch => Sys2Proof.Machine.execSliceRequestArrival c id part ch s
  | .sliceFillDataArrival die line => Sys2Proof.Machine.execSliceFillDataArrival die line s
  | .ownershipBackoffExpiry c id => Sys2Proof.Machine.execOwnershipBackoffExpiry c id s
  | .selfRefreshEntry pc => Sys2Proof.Machine.execSelfRefreshEntry pc s
  | .selfRefreshExit pc => Sys2Proof.Machine.execSelfRefreshExit pc s
  | .fumaroleScrub line r => Sys2Proof.Machine.execFumaroleScrub line r s
  | .translationWalk c va cached => Sys2Proof.Machine.execTranslationWalk c va cached s
  | .swapPairBegin part pair => Sys2Proof.Machine.execSwapPairBegin part pair s
  | .swapLineExchange part pair => Sys2Proof.Machine.execSwapLineExchange part pair s
  | .swapPairEnd part pair => Sys2Proof.Machine.execSwapPairEnd part pair s
  | .farPortFailure port => Sys2Proof.Machine.execFarPortFailure port s
  | .lzgrantStatus c id => Sys2Proof.Machine.execLzgrantStatus c id s
  | .lzadoptComplete c => Sys2Proof.Machine.execLzadoptComplete c s
  | .lzputComplete c id => Sys2Proof.Machine.execLzputComplete c id s
  | .fwrComplete c id => Sys2Proof.Machine.execFwrComplete c id s
  | .fatomComplete c id => Sys2Proof.Machine.execFatomComplete c id s
  | .freqStatus c id => Sys2Proof.Machine.execFreqStatus c id s
  | .frameReceive f => Sys2Proof.Machine.execFrameReceive f s
  | .writeRecordPerform k => Sys2Proof.Machine.execWriteRecordPerform k s
  | .atomicRecordPerform k => Sys2Proof.Machine.execAtomicRecordPerform k s
  | .requestRecordAppend k => Sys2Proof.Machine.execRequestRecordAppend k s
  | .landingRecordReceive k => Sys2Proof.Machine.execLandingRecordReceive k s
  | .ackRecordReceive link ki fn => Sys2Proof.Machine.execAckRecordReceive link ki fn s
  | .nakRecordReceive link rtag code detail => Sys2Proof.Machine.execNakRecordReceive link rtag code detail s
  | .resultRecordReceive link rtag old => Sys2Proof.Machine.execResultRecordReceive link rtag old s
  | .retransmissionTimeout link ki fn => Sys2Proof.Machine.execRetransmissionTimeout link ki fn s
  | .heartbeatSend link => Sys2Proof.Machine.execHeartbeatSend link s
  | .heartbeatBoundExpiry link => Sys2Proof.Machine.execHeartbeatBoundExpiry link s
  | .linkIdleSleep link => Sys2Proof.Machine.execLinkIdleSleep link s
  | .linkWake link => Sys2Proof.Machine.execLinkWake link s
  | .linkWakeComplete link => Sys2Proof.Machine.execLinkWakeComplete link s
  | .wakeBoundExpiry link => Sys2Proof.Machine.execWakeBoundExpiry link s
  | .keyRolloverStart link => Sys2Proof.Machine.execKeyRolloverStart link s
  | .keyUpdateAck link => Sys2Proof.Machine.execKeyUpdateAck link s
  | .linkTrainingDone link => Sys2Proof.Machine.execLinkTrainingDone link s
  | .linkTrainingAttemptFail link => Sys2Proof.Machine.execLinkTrainingAttemptFail link s
  | .attestationComplete t v meas => Sys2Proof.Machine.execAttestationComplete t v meas s
  | .attestationTimeout t => Sys2Proof.Machine.execAttestationTimeout t s
  | .linkKeyedUp link => Sys2Proof.Machine.execLinkKeyedUp link s
  | .linkDrainDone link => Sys2Proof.Machine.execLinkDrainDone link s
  | .dieRejoin die v meas => Sys2Proof.Machine.execDieRejoin die v meas s
  | .powerLimitReached dies => Sys2Proof.Machine.execPowerLimitReached dies s
  | .ageingThresholdCrossing c days => Sys2Proof.Machine.execAgeingThresholdCrossing c days s
  | .ageingFlagClear c => Sys2Proof.Machine.execAgeingFlagClear c s
  | .differenceListApply u l => Sys2Proof.Machine.execDifferenceListApply u l s
  | .linkRecordWrite link f => Sys2Proof.Machine.execLinkRecordWrite link f s
  | .packageReset => Sys2Proof.Machine.execPackageReset s
  | .create arg => Sys2Proof.Machine.execCreate arg s
  | .bind ctx arg => Sys2Proof.Machine.execBind ctx arg s
  | .activate ctx => Sys2Proof.Machine.execActivate ctx s
  | .suspend ctx => Sys2Proof.Machine.execSuspend ctx s
  | .resume ctx => Sys2Proof.Machine.execResume ctx s
  | .drain ctx => Sys2Proof.Machine.execDrain ctx s
  | .destroy ctx => Sys2Proof.Machine.execDestroy ctx s
  | .reclaim ctx => Sys2Proof.Machine.execReclaim ctx s
  | .keydestroy ctx arg => Sys2Proof.Machine.execKeydestroy ctx arg s
  | .partset arg => Sys2Proof.Machine.execPartset arg s
  | .qreset ctx arg => Sys2Proof.Machine.execQreset ctx arg s
  | .xlflush ctx arg => Sys2Proof.Machine.execXlflush ctx arg s
  | .gresumeRetry ctx arg => Sys2Proof.Machine.execGresumeRetry ctx arg s
  | .gresumeSkip ctx arg => Sys2Proof.Machine.execGresumeSkip ctx arg s
  | .gabort ctx arg => Sys2Proof.Machine.execGabort ctx arg s
  | .linkctlBringUp arg => Sys2Proof.Machine.execLinkctlBringUp arg s
  | .linkctlDrain arg => Sys2Proof.Machine.execLinkctlDrain arg s
  | .linkctlSleep arg => Sys2Proof.Machine.execLinkctlSleep arg s
  | .linkctlWake arg => Sys2Proof.Machine.execLinkctlWake arg s
  | .linkctlRekey arg => Sys2Proof.Machine.execLinkctlRekey arg s
  | .linkctlReset arg => Sys2Proof.Machine.execLinkctlReset arg s
  | .dieresetOrderly arg => Sys2Proof.Machine.execDieresetOrderly arg s
  | .dieresetForced arg => Sys2Proof.Machine.execDieresetForced arg s
  | .iatset arg arg2 => Sys2Proof.Machine.execIatset arg arg2 s
  | .fabtag ctx arg => Sys2Proof.Machine.execFabtag ctx arg s
  | .mpolicy arg => Sys2Proof.Machine.execMpolicy arg s
  | .mailboxInvalidOpcode rec => Sys2Proof.Machine.execMailboxInvalidOpcode rec s
  | .fabricOutRecordSend c src => Sys2Proof.Machine.execFabricOutRecordSend c src s
  | .barrierSignalEntryComplete ctx q => Sys2Proof.Machine.execBarrierSignalEntryComplete ctx q s
  | .hostLinkMemoryAccess a => Sys2Proof.Machine.execHostLinkMemoryAccess a s

end Sys2Proof.Machine
end

