-- ==== Sys2Proof/Machine/Step.lean ====
section
/-! DEFINITION. One step: the mover that comes next, its fetch and decode where it is a slot, and the instruction or event that it
performs. -/

namespace Sys2Proof.Machine

open Sys2Proof

/-- A slot reaches issue (02 R26 to R28, 04 R97): its bundle is fetched, the SY bits checked, and its own lane decoded and
executed. At a sync bundle it waits for SYNC_BUNDLE_ISSUE, but where its lane alone is left of it (log 32). -/
def stepSlot (c : CoreId) (sl : Slot) (s : State) : Host.Outcome State Fault Refusal :=
  let s := { s with cur := (c, sl) }
  match (s.core c).grp with
  | none => .next s
  | some g =>
    if !(s.core c).mayIssue sl then .next s
    else match s.fetch c g ((s.core c).slot sl).pc with
      | (s, .error f) => .next (laneFault f s)
      | (s, .ok b) =>
        if !syAgrees b then .next (laneFault (malformedFault b) s)
        else if syBits b ≠ 0 && ((s.core c).slot sl).solo ≠ some ((s.core c).slot sl).pc then .next (arriveSync s)
        else match decodeFor g (s.core c) sl (laneOf b sl) with
          | none => .next (laneFault (illegalFault sl) s)
          | some i => exec i s

/-- What moves at this step: the head of the agenda, or, where it names none, a free mover (log 1). -/
def nextMover (s : State) : Mover × State :=
  match s.agenda with
  | [] => (Config.mover s.tick, s)
  | m :: rest => (m, { s with agenda := rest })

/-- What the mover does. -/
def act (m : Mover) (s : State) : Host.Outcome State Fault Refusal :=
  match m with
  | .issue c sl => stepSlot c sl s
  | .event i => if isEvent i then exec i s else .next s

/-- One step. Time passes by a free amount on each die (01 R21, log 8); then the mover acts, and its traffic crosses the links between the
dies, which must be up for it (17 R352). -/
def step (s : State) : Host.Outcome State Fault Refusal :=
  let (m, s) := nextMover s
  let s := s.passTime
  match act m s with
  | .next t => .next (s.overLinks t)
  | .fault f => .fault f
  | .refused r => .refused r

/-- The state with one instruction placed where step fetches it (log 6): the lane word in its slot of a bundle whose other lanes
are NOP, with its SY bit in every lane. -/
def State.withFetchWord (s : State) (nbits w : Nat) : State :=
  s.placeBundle (tableLane nbits w).1 (bundleWith (tableLane nbits w).1 (tableLane nbits w).2)

end Sys2Proof.Machine
end

