-- ==== Sys2Proof/Safety.lean ====
section
/-! DEFINITION. The terms in which statements about the machine are made: when a lane word issues and the state in which it has issued,
what a safe run is, and what it means that an instruction leaves a part of the machine alone. -/

namespace Sys2Proof.Machine

open Sys2Proof

/-! ### Issue -/

/-- A word with this head, in the slot that moves, issues: its group runs, its scheduling fields let it, and its guard reads true (02
R27, R45; 04 R75). -/
def Issues (h : Head) (s : State) : Prop :=
  (s.core s.cur.1).mayIssue s.cur.2 = true ∧ guardOf h ((s.core s.cur.1).slot s.cur.2) = true ∧
    schedReady h false (s.core s.cur.1) s.cur.2 = true

/-- It is suppressed: it issues under a guard that reads false (04 R75). -/
def Suppressed (h : Head) (s : State) : Prop :=
  (s.core s.cur.1).mayIssue s.cur.2 = true ∧ guardOf h ((s.core s.cur.1).slot s.cur.2) = false ∧
    schedReady h true (s.core s.cur.1) s.cur.2 = true

/-- The state in which it has issued and not acted: its token is popped and its slot's PC stands at the next bundle. -/
def started (h : Head) (s : State) : State := s.updCore s.cur.1 (startIssue h s.cur.2)

/-! ### What an instruction does beyond its operands -/

/-- The core of the slot that moves. -/
abbrev State.here (s : State) : Core := s.core s.cur.1

/-- An access that the word's lane issues in a state that it has reached: it takes the core's next number, the slot and the bundle. -/
def laneAccess (h : Head) (kind : AccKind) (sk : SKind) (o : Order) (d : Dest) (s : State) : Access :=
  freshAccess h s.here.nextId s.cur.2 ((s.here.slot s.cur.2).pc - 1) kind sk o d

/-- An engine operation that the word's lane issues in a state that it has reached. -/
def laneOp (h : Head) (push : Option (Fin 8)) (o : Order) (d : Dest) (kind : EngKind) (s : State) : EngOp :=
  freshOp h s.here.nextId s.cur.2 ((s.here.slot s.cur.2).pc - 1) push o d kind

/-- The state once an access has entered the core of the slot that moves (02 R49). -/
def State.entered (s : State) (a : Access) : State := s.updCore s.cur.1 (withAccess a)

/-- The state once an operation has entered an engine queue of that core (02 R48). -/
def State.queued (s : State) (e : Fin 6) (o : EngOp) (r : Option Range) : State := s.updCore s.cur.1 (withOp e o r)

/-- The slot that moves goes on at a bundle. -/
def State.goTo (s : State) (n : BitVec 32) : State := s.updCore s.cur.1 (·.updSlot s.cur.2 fun t => { t with pc := n })

/-- The queue can take one more operation, with its range where it has one (02 R48, R50). -/
def Core.takes (k : Core) (e : Fin 6) (ranged : Bool) : Bool := k.queueOpen e && (!ranged || k.ranges.length < 32)

/-- A number read as i64 or n64 (05 R110). -/
def asInt (ty : STy) (a : Word) : Int :=
  match ty with
  | .i64 => a.toInt
  | .n64 => a.toNat

/-- A vector instruction that issues, reads its sources and finds room for its results takes the state in which its destination holds
them: the register at offset j is what `f` makes of the sources and of its old value (07 R163). -/
def VecCompletes (i : Instr) (h : Head) (single : Bool) (w : Nat) (merge : Bool) (d : Operand) (srcs : List Src2)
    (f : VGuard → List Given → Nat → VReg → VReg) : Prop :=
  ∀ s r s1 t, Issues h s → vecRead h single w merge d srcs (started h s) = .ok (r, s1) →
    putGroup (keepNames r.x.len d srcs) d (r.results f) s1 = .ok ((), t) → exec i s = .next t

/-- The same for an instruction of containers: each active element is what `f` makes of the containers of the sources (07 R161). -/
def ElementsComplete (i : Instr) (h : Head) (ty : Option Fmt) (d : Operand) (srcs : List Src2) (f : List (BitVec 32) → BitVec 32) : Prop :=
  VecCompletes i h false 32 false d srcs (elementwise fun _ gs j e => f (gs.map fun g => g.at ty j e))

/-! ### Commands of the mailbox -/

/-- The mailbox takes a command record now: it is idle, or the record that stands in it is this one (11 R271). -/
def Mails (r : Rec64) (s : State) : Prop := s.doorbell = true → s.mrec = r

/-- The state in which a command record is in progress. -/
def rung (r : Rec64) (s : State) : State := { s with mrec := r, doorbell := true }

/-! ### A step -/

/-- What a step answers for what its mover has done since `s`: the traffic of a next state crosses the links between the dies (17
R352). -/
def crossing (s : State) (r : Out) : Out :=
  match r with
  | .next t => .next (s.overLinks t)
  | .fault f => .fault f
  | .refused r => .refused r

/-! ### Sync bundles -/

/-- The lanes of a sync bundle, each in its slot and one after the other: the state in which all have issued, where each does (02 R28). -/
def lanesIssue (c : CoreId) : List (Slot × Instr) → State → Option State
  | [], s => some s
  | (sl, i) :: rest, s =>
    match exec i { s with cur := (c, sl) } with
    | .next t => if laneEnd (t.core c) sl = .issued then lanesIssue c rest t else none
    | _ => none

/-- The core on which the lanes of a sync bundle begin to issue. -/
def State.bundled (s : State) (c : CoreId) : State := s.updCore c fun k => { k with bundling := true }

/-! ### Safety -/

/-- A run from a state that never stops. -/
def SafeFrom (s : State) : Prop := ∀ n, ∃ t, Sys2Proof.core.run n s = .next t

/-- Memory and every local store, those of saved groups among them, are in canonical form. -/
def Canonical (s : State) : Prop :=
  Memory.wf s.mem = true ∧ (∀ c, Memory.wf (s.core c).ls = true) ∧ ∀ v ∈ s.saved, Memory.wf v.core.ls = true

/-- No queue register holds more entries than its depth (02 R31), and no sync bundle is half issued. -/
def Core.bounded (k : Core) : Prop :=
  k.bundling = false ∧ (∀ i : Fin 20, k.q[i].length ≤ 16) ∧ ∀ i : Fin 12, k.vq[i].length ≤ 4

/-- Every core is so, and every saved group. -/
def QueuesBounded (s : State) : Prop := (∀ c, (s.core c).bounded) ∧ ∀ v ∈ s.saved, v.core.bounded

/-! ### What is left alone -/

/-- Every byte of memory reads as before. -/
def SameMemory (s t : State) : Prop := ∀ a, t.cohByte a = s.cohByte a

/-- No fault has been raised on the core of the slot that moved. -/
def NoFault (s t : State) : Prop := (t.core s.cur.1).stat = (s.core s.cur.1).stat ∧ (t.core s.cur.1).faults = (s.core s.cur.1).faults

/-- Every core but one is as before. -/
def OtherCores (c : CoreId) (s t : State) : Prop := ∀ d, d ≠ c → t.core d = s.core d

/-- Every slot of a core but one is as before. -/
def OtherSlots (sl : Slot) (k l : Core) : Prop := ∀ x, x ≠ sl → l.slot x = k.slot x

/-- Every part of the machine but the cores is as before: the contexts, queues, launches, links, keys, counters and memory. -/
def OutsideCores (s t : State) : Prop := t = { s with cores := t.cores }

/-- The registers of a slot that only its own instructions reach (02 R35, R26, 05 R115): scalar registers, predicates, PC, loop stack,
and whether it has ended. -/
def SameRegisters (a b : SlotState) : Prop := b.s = a.s ∧ b.p = a.p ∧ b.pc = a.pc ∧ b.loops = a.loops ∧ b.ended = a.ended

/-- What a word of the scalar block leaves alone, whether it issues, is suppressed or stays blocked, where no fault is raised: all but its
core, its slot's PC and scheduling state, the registers in `dst`, the queue registers that its operands `ops` name, the token that QX
pops, and, of earlier accesses and engine operations, whether their result is still wanted (05 R109). -/
def ScalarFrame (h : Head) (dst ops : List Operand) (s t : State) : Prop :=
  OutsideCores s t ∧ OtherCores s.cur.1 s t ∧ OtherSlots s.cur.2 s.here t.here ∧ SameMemory s t ∧
  (∃ slots q d acc e, t.here = { s.here with slots := slots, q := q, d := d, acc := acc, e := e }) ∧
  (∀ n : Fin 64, (∀ o ∈ dst, o.name ≠ .s n) → (t.here.slot s.cur.2).s[n] = (s.here.slot s.cur.2).s[n]) ∧
  (∀ n : Fin 16, (∀ o ∈ dst, o.name ≠ .p n) → (t.here.slot s.cur.2).pred n = (s.here.slot s.cur.2).pred n) ∧
  (t.here.slot s.cur.2).sb = (s.here.slot s.cur.2).sb ∧ (t.here.slot s.cur.2).ended = (s.here.slot s.cur.2).ended ∧
  (∀ j : Fin 20, (∀ o ∈ ops, ∀ n : Fin 32, o.name = .q n → n.val ≠ j.val + 12) → t.here.q[j] = s.here.q[j]) ∧
  (∀ j : Fin 8, h.qx ≠ some j → t.here.d[j] = s.here.d[j]) ∧
  t.here.acc.map (fun a => { a with dropped := true }) = s.here.acc.map (fun a => { a with dropped := true }) ∧
  ∀ j : Fin 6, t.here.e[j].halted = s.here.e[j].halted ∧
    t.here.e[j].ops.map (fun o => { o with dropped := true }) = s.here.e[j].ops.map (fun o => { o with dropped := true })

/-- The register operands among sources. -/
def srcOps : Src2 → List Operand
  | .reg o => [o]
  | .imm _ => []

/-- What a word has put into the lists of its core: nothing, or one access at the end of its list, or one operation at the end of an engine
queue, with the core's next number, the slot and its bundle. Of those that stood there only whether their result is still wanted may have
changed (02 R33, R48, R49). -/
def OneEnters (s t : State) : Prop :=
  ∃ (a : List Access) (o : Fin 6 → List EngOp),
    t.here.acc.map (fun x => { x with dropped := true }) = (s.here.acc ++ a).map (fun x => { x with dropped := true }) ∧
    (∀ j : Fin 6, t.here.e[j].halted = s.here.e[j].halted ∧
      t.here.e[j].ops.map (fun x => { x with dropped := true }) = (s.here.e[j].ops ++ o j).map (fun x => { x with dropped := true })) ∧
    ((t.here.nextId = s.here.nextId ∧ a = [] ∧ ∀ j, o j = []) ∨
      (t.here.nextId = s.here.nextId + 1 ∧
        ((∃ x : Access, a = [x] ∧ x.id = s.here.nextId ∧ x.slot = s.cur.2 ∧ x.bundle = (s.here.slot s.cur.2).pc ∧ ∀ j, o j = []) ∨
          (a = [] ∧ ∃ (e : Fin 6) (x : EngOp), o e = [x] ∧ x.id = s.here.nextId ∧ x.slot = s.cur.2 ∧
            x.bundle = (s.here.slot s.cur.2).pc ∧ ∀ j, j ≠ e → o j = []))))

/-- What a word that issues an access or an engine operation leaves alone where no fault is raised: everything outside its core, every
byte of memory and of the local store, the registers of every slot, the vector, mask and accumulator state, the tile lines, and the
accesses and operations that stood in the lists of its core. -/
def IssueFrame (s t : State) : Prop :=
  OutsideCores s t ∧ OtherCores s.cur.1 s t ∧ OtherSlots s.cur.2 s.here t.here ∧ SameMemory s t ∧ OneEnters s t ∧
  (∃ slots q vq d acc e nextId ranges hcache walks xwalk xjoin, t.here = { s.here with
    slots := slots, q := q, vq := vq, d := d, acc := acc, e := e, nextId := nextId, ranges := ranges, hcache := hcache
    walks := walks, xwalk := xwalk, xjoin := xjoin }) ∧
  (t.here.slot s.cur.2).s = (s.here.slot s.cur.2).s ∧ (t.here.slot s.cur.2).p = (s.here.slot s.cur.2).p ∧
  (t.here.slot s.cur.2).loops = (s.here.slot s.cur.2).loops ∧ (t.here.slot s.cur.2).ended = (s.here.slot s.cur.2).ended

/-! ### Vector instructions -/

/-- The head, the destination and the sources of a vector instruction that writes vector registers or q8 to q11. -/
def vecParts : Instr → Option (Head × Operand × List Src2)
  | .vadd h o | .vsub h o | .vmul h o | .vmin h o | .vmax h o | .vand h o | .vor h o | .vxor h o | .vshl h o | .vshr h o
  | .vsar h o => some (h, o.d, [.reg o.a, o.b])
  | .vfma h o | .vfms h o => some (h, o.d, [.reg o.a, .reg o.b, .reg o.c])
  | .vabs h o | .vneg h o | .vrcp h o | .vrsq h o | .vsqrt h o | .vexp2 h o | .vlog2 h o | .vnot h o => some (h, o.d, [.reg o.a])
  | .vcmp h o => some (h, o.d, [.reg o.a, o.b])
  | .vsel h o => some (h, o.d, [.reg o.a, .reg o.b, .reg o.sel])
  | .vmov h o => some (h, o.d, [.reg o.a])
  | .vins h o => some (h, o.d, [.reg o.a, .reg o.idx, .reg o.val])
  | .vcvt h o => some (h, o.d, [.reg o.a])
  | .vpack4 h o | .vpack6 h o => some (h, o.d, [.reg o.a])
  | .vunpack4 h o | .vunpack6 h o => some (h, o.d, [.reg o.a])
  | .vqnt h o => some (h, o.d, .reg o.a :: (o.scale.map Src2.reg).toList)
  | .vdeq h o => some (h, o.d, [.reg o.a])
  | .vrotr h o | .vrotc h o | .vbcr h o | .vbcc h o => some (h, o.d, [.reg o.a, o.s])
  | .vredr h o | .vredc h o => some (h, o.d, [.reg o.a])
  | .vtrn h o => some (h, o.d, [.reg o.a])
  | _ => none

/-- No register is spilled and none needs to be: every mapped name is resident, and the group's share has room for a group of
registers (02 R39). -/
def Core.roomy (k : Core) : Prop :=
  (∀ n l, k.vloc n = some l → l.isResident = true) ∧ ∀ g, k.grp = some g → k.residents.length + 8 ≤ g.regs

/-- What such an instruction leaves alone where nothing is spilled and no fault is raised: all but its core; of its core the scalar
state of every slot, the local store, compact predicates, the mask stack and accumulators, and every counter but those of invalid and
reserved blocks (03 R62); and every vector name that is neither in
its destination's group nor in the group of a last use. -/
def VectorFrame (h : Head) (d : Operand) (srcs : List Src2) (s t : State) : Prop :=
  t = { s with cores := t.cores, freeCtr := t.freeCtr } ∧ OtherCores s.cur.1 s t ∧ OtherSlots s.cur.2 s.here t.here ∧
  SameMemory s t ∧
  (∃ slots q vq dq v clock inv rsv, t.here = { s.here with
    slots := slots, q := q, vq := vq, d := dq, v := v, vclock := clock, blkinv := inv, blkrsv := rsv }) ∧
  (t.here.slot s.cur.2).s = (s.here.slot s.cur.2).s ∧ (t.here.slot s.cur.2).p = (s.here.slot s.cur.2).p ∧
  (t.here.slot s.cur.2).loops = (s.here.slot s.cur.2).loops ∧ (t.here.slot s.cur.2).sb = (s.here.slot s.cur.2).sb ∧
  (t.here.slot s.cur.2).ended = (s.here.slot s.cur.2).ended ∧
  ∀ n, n ∉ groupNames (groupLen h s.here) d →
    (∀ o ∈ srcOperands srcs, o.last = true → n ∉ groupNames (groupLen h s.here) o) → t.here.vloc n = s.here.vloc n

end Sys2Proof.Machine
end

