-- ==== Sys2Proof/Certificates/Slice0/Obligations.lean ====
section
/-! DEFINITION. The statements about the machine that are to be proved. A completion statement says for which states and operands an
instruction answers a next state, and which; its hypotheses speak of the state and the operands alone: that the word issues, that its
operands can be read (with the state after each reading, since a queue operand is popped), and that its destination has room. -/

open Sys2Proof Sys2Proof.Machine

/-- ADD SUB MUL MULH DIV REM AND OR XOR SHL SHR SAR MIN MAX: where the word issues, its sources can be read and its destination can be written, the next state is the one in which the destination has taken the result of the table. (05 R110) -/
def Obligations.ScalarBinaryResult : Prop :=
  ∀ p ∈ ([(.add, fun _ a b => BitVec.ofNat 64 (a.toNat + b.toNat)),
      (.sub, fun _ a b => BitVec.ofInt 64 ((a.toNat : Int) - b.toNat)),
      (.mul, fun _ a b => BitVec.ofNat 64 (a.toNat * b.toNat)),
      (.mulh, fun ty a b => BitVec.ofInt 64 (asInt ty a * asInt ty b / 2 ^ 64)),
      (.div, fun ty a b => if b = 0 then BitVec.allOnes 64 else BitVec.ofInt 64 ((asInt ty a).tdiv (asInt ty b))),
      (.rem, fun ty a b => if b = 0 then a else BitVec.ofInt 64 ((asInt ty a).tmod (asInt ty b))),
      (.and, fun _ a b => a &&& b), (.or, fun _ a b => a ||| b), (.xor, fun _ a b => a ^^^ b),
      (.shl, fun _ a b => BitVec.ofNat 64 (a.toNat * 2 ^ (b.toNat % 64))),
      (.shr, fun _ a b => BitVec.ofNat 64 (a.toNat / 2 ^ (b.toNat % 64))),
      (.sar, fun _ a b => BitVec.ofInt 64 (a.toInt / 2 ^ (b.toNat % 64))),
      (.min, fun ty a b => if asInt ty a ≤ asInt ty b then a else b),
      (.max, fun ty a b => if asInt ty a < asInt ty b then b else a)] :
      List ((Head → SBin → Instr) × (STy → Word → Word → Word))),
    ∀ h o s a b s1 s2 t, Issues h s → readS o.a (started h s) = .ok (a, s1) → readSrc2 o.b s1 = .ok (b, s2) →
      writeS o.d (p.2 o.ty a b) s2 = .ok ((), t) → Sys2Proof.Machine.exec (p.1 h o) s = .next t

/-- CLZ POPC MOV SEL MOVI (low and high): where the word issues, its sources can be read and its destination can be written, the next state is the one in which the destination has taken the result. (05 R110, 05 R111) -/
def Obligations.ScalarUnaryResult : Prop :=
  (∀ p ∈ ([(.clz, fun a => BitVec.ofNat 64 (if a = 0 then 64 else 63 - Nat.log2 a.toNat)),
      (.popc, fun a => BitVec.ofNat 64 ((List.range 64).countP fun i => a.getLsbD i)), (.mov, fun a => a)] :
      List ((Head → SUn → Instr) × (Word → Word))),
    ∀ h o s a s1 t, Issues h s → readS o.a (started h s) = .ok (a, s1) → writeS o.d (p.2 a) s1 = .ok ((), t) →
      Sys2Proof.Machine.exec (p.1 h o) s = .next t) ∧
  (∀ h o s a b p s1 s2 s3 t, Issues h s → readS o.a (started h s) = .ok (a, s1) → readS o.b s1 = .ok (b, s2) →
    readS o.p s2 = .ok (p, s3) → writeS o.d (if p = 0 then b else a) s3 = .ok ((), t) →
      Sys2Proof.Machine.exec (.sel h o) s = .next t) ∧
  (∀ h o s t, Issues h s → writeS o.d (BitVec.ofInt 64 o.imm.toInt) (started h s) = .ok ((), t) →
    Sys2Proof.Machine.exec (.movi h o) s = .next t) ∧
  (∀ h o s a s1 t, Issues h s → readS o.d (started h s) = .ok (a, s1) →
    writeS o.d (BitVec.ofNat 64 (o.imm.toNat * 2 ^ 32 + a.toNat % 2 ^ 32)) s1 = .ok ((), t) →
      Sys2Proof.Machine.exec (.moviHigh h o) s = .next t)

/-- CMP: where the word issues and its sources can be read, the next state has the named predicate set to the condition joined with its old value by the tables of the rule; a CMP whose destination is p15 leaves the predicates alone. (05 R112, 02 R35) -/
def Obligations.CompareResult : Prop :=
  ∀ h o s a b s1 s2 n, Issues h s → readS o.a (started h s) = .ok (a, s1) → readSrc2 o.b s1 = .ok (b, s2) → o.d.name = .p n →
    let x := asInt o.ty a
    let y := asInt o.ty b
    let c := match o.cond with
      | .eq => decide (x = y) | .ne => decide (x ≠ y) | .lt => decide (x < y)
      | .le => decide (x ≤ y) | .gt => decide (y < x) | .ge => decide (y ≤ x)
    let old := (s.here.slot s.cur.2).pred n
    let new := match o.join with
      | .set => c | .and => old && c | .or => old || c
    ∃ t, Sys2Proof.Machine.exec (.cmp h o) s = .next t ∧
      (n ≠ 15 → ∀ m, (t.here.slot s.cur.2).pred m = if m = n then new else (s.here.slot s.cur.2).pred m) ∧
      (n = 15 → t = s2)

/-- NOP END BR BRX CALL RET LPSET LPEND (closing and exit): where the word issues, its operands can be read and the loop stack permits it, the slot goes on at the bundle that the rule names, the loop stack is as the rule says, and CALL has written its register. (05 R113, 05 R116, 05 R117, 05 R127, 05 R128) -/
def Obligations.BranchResult : Prop :=
  (∀ h s, s.here.mayIssue s.cur.2 = true → schedReady h false s.here s.cur.2 = true →
    Sys2Proof.Machine.exec (.nop h) s = .next (started h s)) ∧
  (∀ h s, Issues h s → Sys2Proof.Machine.exec (.endSlot h) s =
    .next ((started h s).updCore s.cur.1 (·.updSlot s.cur.2 fun t => { t with pc := t.pc - 1, ended := true }))) ∧
  (∀ h o s v s1, Issues h s → readS o.src (started h s) = .ok (v, s1) →
    Sys2Proof.Machine.exec (.br h o) s =
      .next (if ccTest o.cc v then s1.goTo ((s.here.slot s.cur.2).pc + o.disp) else s1)) ∧
  (∀ h o s a v s1 s2, Issues h s → readS o.tgt (started h s) = .ok (a, s1) → readS o.src s1 = .ok (v, s2) →
    Sys2Proof.Machine.exec (.brx h o) s = .next (if ccTest o.cc v then s2.goTo (a.setWidth 32) else s2)) ∧
  (∀ h o s s1, Issues h s → writeS o.r (((s.here.slot s.cur.2).pc + 1).setWidth 64) (started h s) = .ok ((), s1) →
    Sys2Proof.Machine.exec (.call h o) s = .next (s1.goTo ((s.here.slot s.cur.2).pc + o.disp))) ∧
  (∀ h o s a s1, Issues h s → readS o (started h s) = .ok (a, s1) →
    Sys2Proof.Machine.exec (.ret h o) s = .next (s1.goTo (a.setWidth 32))) ∧
  (∀ h o s v s1, Issues h s → readS o.r (started h s) = .ok (v, s1) →
    ((s.here.slot s.cur.2).loops.length < 4 ∨ v = 0) →
    let n := (s.here.slot s.cur.2).pc
    Sys2Proof.Machine.exec (.lpset h o) s = .next (if v = 0 then s1.goTo (n + o.disp + 1) else
      s1.updCore s.cur.1 (·.updSlot s.cur.2 fun t =>
        { t with loops := ⟨n + 1, n + o.disp, BitVec.ofNat 32 (min v.toNat 0xFFFFFFFF)⟩ :: t.loops }))) ∧
  (∀ h s e r, Issues h s → (s.here.slot s.cur.2).loops = e :: r → e.stop = (s.here.slot s.cur.2).pc →
    Sys2Proof.Machine.exec (.lpend h) s = .next ((started h s).updCore s.cur.1 (·.updSlot s.cur.2 fun t =>
      if 1 < e.remain.toNat then { t with loops := { e with remain := e.remain - 1 } :: r, pc := e.start }
      else { t with loops := r }))) ∧
  (∀ h disp s e r, Issues h s → (s.here.slot s.cur.2).loops = e :: r →
    Sys2Proof.Machine.exec (.lpendExit h disp) s = .next ((started h s).updCore s.cur.1 (·.updSlot s.cur.2 fun t =>
      { t with loops := r, pc := (s.here.slot s.cur.2).pc + disp })))

/-- QDROP QCNT TIDWR TIDRD: where the word issues and its operands can be read and written, QDROP leaves the entries that R118 says, QCNT writes free, reserved and filled counts, TIDWR changes the masked word of the cached entry and sends it to the table, and TIDRD writes the word of the entry with its reserved bits zero. (05 R118, 05 R119, 05 R120, 05 R121) -/
def Obligations.QueueAndTableResult : Prop :=
  (∀ h o s n, Issues h s → o.name = .q n →
    Sys2Proof.Machine.exec (.qdrop h o) s = .next ((started h s).updCore s.cur.1 fun k =>
      if n.val < 12 then { k with vq := k.vq.set (vectorQ n.val) (dropEntries k.vq[vectorQ n.val]) }
      else { k with q := k.q.set (scalarQ n.val) (dropEntries k.q[scalarQ n.val]) })) ∧
  (∀ h o s n t, Issues h s → o.q.name = .q n → o.d.name ≠ o.q.name →
    writeS o.d (if n.val < 12 then queueCounts n.val (started h s).here.vq[vectorQ n.val]
      else queueCounts n.val (started h s).here.q[scalarQ n.val]) (started h s) = .ok ((), t) →
    Sys2Proof.Machine.exec (.qcnt h o) s = .next t) ∧
  (∀ h o s i t, Issues h s → o.q.name = .d i →
    writeS o.d (BitVec.ofNat 64 ((16 - (started h s).here.d[i]) * 2 ^ 32 + (started h s).here.d[i])) (started h s) = .ok ((), t) →
    Sys2Proof.Machine.exec (.qcnt h o) s = .next t) ∧
  (∀ h o s i v e x s1 s2 s3, Issues h s → readS o.idx (started h s) = .ok (i, s1) → i.toNat + o.base.toNat ≤ 4095 →
    readS o.val s1 = .ok (v, s2) → getEntry (BitVec.ofNat 12 (i.toNat + o.base.toNat)) s2 = .ok (e, s3) →
    s3.here.ctxId.bind s3.ctx? = some x →
    let n : BitVec 12 := BitVec.ofNat 12 (i.toNat + o.base.toNat)
    let w := v.toNat &&& tensorMask o.w.toNat
    let s4 := s3.updCore s3.cur.1 fun k =>
      { k with tcache := ⟨n, putBytes e (8 * o.w.toNat) (natLe 8 w)⟩ :: k.tcache.filter (·.n ≠ n) }
    tagRoom s4.here s4.cur.2 0 = true →
    Sys2Proof.Machine.exec (.tidwr h o) s = .next (s4.entered (laneAccess h
      (.tidwr (x.troot.toNat + 128 * n.toNat + 8 * o.w.toNat) (BitVec.ofNat 64 w)) .t ⟨.device, {}, .rlx⟩ .none s4))) ∧
  (∀ h o s i e s1 s2 t, Issues h s → readS o.idx (started h s) = .ok (i, s1) → i.toNat + o.base.toNat ≤ 4095 →
    getEntry (BitVec.ofNat 12 (i.toNat + o.base.toNat)) s1 = .ok (e, s2) →
    writeS o.d (BitVec.ofNat 64 (bitsOf e.toNat (64 * o.w.toNat) 64 &&& tensorMask o.w.toNat)) s2 = .ok ((), t) →
    Sys2Proof.Machine.exec (.tidrd h o) s = .next t)

/-- RDSYS WRSYS (register and immediate) RDCYC TRAP YIELD: a read of an assigned register writes its value; a write of an assigned number has the effect of its access code; RDCYC writes the cycle counter of the core's die; TRAP raises the program trap with its code and value and leaves the slot at its bundle; YIELD pre-empts the group exactly where another waits. (05 R122, 05 R123, 05 R124, 05 R125, 05 R126) -/
def Obligations.SystemRegisterResult : Prop :=
  (∀ h o s v t, Issues h s → (started h s).sysRead s.cur.1 o.sys.toNat = some v → writeS o.r v (started h s) = .ok ((), t) →
    Sys2Proof.Machine.exec (.rdsys h o) s = .next t) ∧
  (∀ h o s v s1, Issues h s → sysAssigned o.sys.toNat = true → readS o.r (started h s) = .ok (v, s1) →
    Sys2Proof.Machine.exec (.wrsys h o) s = .next (s1.updCore s1.cur.1 (sysWrite o.sys.toNat v))) ∧
  (∀ h o s, Issues h s → sysAssigned o.sys.toNat = true →
    Sys2Proof.Machine.exec (.wrsysImmediate h o) s =
      .next ((started h s).updCore s.cur.1 (sysWrite o.sys.toNat (BitVec.ofInt 64 o.imm.toInt)))) ∧
  (∀ h o s t, Issues h s → writeS o (BitVec.ofNat 64 s.cycles[s.cur.1.die]) (started h s) = .ok ((), t) →
    Sys2Proof.Machine.exec (.rdcyc h o) s = .next t) ∧
  (∀ h o s v s1, Issues h s → readS o.src (started h s) = .ok (v, s1) →
    let n := (s.here.slot s.cur.2).pc
    Sys2Proof.Machine.exec (.trap h o) s = .next (raiseFault s.cur.1
      { code := 0x0107, src := Slot.src s.cur.2, bundle := n, addr := o.code.setWidth 64, aux := v } (.trap n) (s1.goTo n))) ∧
  (∀ h s g, Issues h s → s.here.grp = some g →
    Sys2Proof.Machine.exec (.yield h) s = .next (if (started h s).yieldTo s.cur.1 g then
      (started h s).updCore s.cur.1 fun k => { k with pre := some .stopping, preCause := .yield } else started h s))

/-- LD ST LDL STL LDQ LDQ_LOCAL STQ STQ_LOCAL: where the word issues, its address passes the checks of R130, its data operand can be read or its destination reserved, and the slot has a tag for each part, the next state is the one in which the access has entered the core with exactly the parts that the instruction names: one element of the type, or the 32 lines of 4 KiB, or a local range. (06 R130, 06 R132, 06 R135, 06 R136, 02 R49) -/
def Obligations.LoadStoreIssue : Prop :=
  (∀ h o s hd va d s1 s2, Issues h s →
    handleAddr o.ad o.o.ssc o.ty.bytes o.ty.bytes true (started h s) = .ok ((hd, va), s1) →
    reserveDest o.d s1.here.nextId s1 = .ok (d, s2) → tagRoom s2.here s2.cur.2 1 = true →
    Sys2Proof.Machine.exec (.ld h o) s = .next (s2.entered
      (handleAccess (laneAccess h (.mem .add true false) .g o.o d s2) hd o.ty [⟨va, o.ty.bytes, .load, .sent⟩]))) ∧
  (∀ h o s hd va b s1 s2, Issues h s →
    handleAddr o.ad o.o.ssc o.ty.bytes o.ty.bytes false (started h s) = .ok ((hd, va), s1) →
    readS o.b s1 = .ok (b, s2) → tagRoom s2.here s2.cur.2 1 = true →
    Sys2Proof.Machine.exec (.st h o) s = .next (s2.entered (handleAccess (laneAccess h (.mem .add false true) hd.space.kind o.o .none s2)
      hd o.ty [⟨va, o.ty.bytes, .store (natLe o.ty.bytes b.toNat), .sent⟩]))) ∧
  (∀ h o s off d s1 s2, Issues h s → localAddr o.ad o.o.ssc o.ty.bytes o.ty.bytes false (started h s) = .ok (off, s1) →
    reserveDest o.d s1.here.nextId s1 = .ok (d, s2) → tagRoom s2.here s2.cur.2 0 = true →
    Sys2Proof.Machine.exec (.ldl h o) s =
      .next (s2.entered { laneAccess h (.lstore off o.ty.bytes none) .l o.o d s2 with ty := o.ty })) ∧
  (∀ h o s off b s1 s2, Issues h s → localAddr o.ad o.o.ssc o.ty.bytes o.ty.bytes true (started h s) = .ok (off, s1) →
    readS o.b s1 = .ok (b, s2) → tagRoom s2.here s2.cur.2 0 = true →
    Sys2Proof.Machine.exec (.stl h o) s = .next (s2.entered
      { laneAccess h (.lstore off o.ty.bytes (some (natLe o.ty.bytes b.toNat))) .l o.o .none s2 with ty := o.ty })) ∧
  (∀ h o s hd va d s1 s2, Issues h s → handleAddr o.ad o.o.ssc 4096 128 true (started h s) = .ok ((hd, va), s1) →
    reserveDest o.q s1.here.nextId s1 = .ok (d, s2) → tagRoom s2.here s2.cur.2 32 = true →
    Sys2Proof.Machine.exec (.ldq h o) s = .next (s2.entered (handleAccess (laneAccess h (.mem .add true false) .g o.o d s2) hd .n64
      ((List.range 32).map fun i => ⟨va + BitVec.ofNat 56 (128 * i), 128, .load, .sent⟩)))) ∧
  (∀ h o s off d s1 s2, Issues h s → localAddr o.ad o.o.ssc 4096 128 false (started h s) = .ok (off, s1) →
    reserveDest o.q s1.here.nextId s1 = .ok (d, s2) → tagRoom s2.here s2.cur.2 0 = true →
    Sys2Proof.Machine.exec (.ldqLocal h o) s = .next (s2.entered (laneAccess h (.lstore off 4096 none) .l o.o d s2))) ∧
  (∀ h o s hd va n v s1 s2, Issues h s → handleAddr o.ad o.o.ssc 4096 128 false (started h s) = .ok ((hd, va), s1) →
    o.q.name = .q n → popVector n.val false s1 = .ok (v, s2) → tagRoom s2.here s2.cur.2 32 = true →
    Sys2Proof.Machine.exec (.stq h o) s = .next (s2.entered (handleAccess (laneAccess h (.mem .add false true) hd.space.kind o.o .none s2)
      hd .n64 ((List.range 32).map fun i =>
        ⟨va + BitVec.ofNat 56 (128 * i), 128, .store (bytesOf v (128 * i) 128), .sent⟩)))) ∧
  (∀ h o s off n v s1 s2, Issues h s → localAddr o.ad o.o.ssc 4096 128 true (started h s) = .ok (off, s1) →
    o.q.name = .q n → popVector n.val false s1 = .ok (v, s2) → tagRoom s2.here s2.cur.2 0 = true →
    Sys2Proof.Machine.exec (.stqLocal h o) s =
      .next (s2.entered (laneAccess h (.lstore off 4096 (some (bytesOf v 0 4096))) .l o.o .none s2)))

/-- AADD AMIN AMAX AAND AOR AXOR AXCHG ACAS AFADD FENCE QJOIN: where the word issues, its address passes the checks of R130, its operands can be read, its destination reserved and the slot has tags, the next state is the one in which the access has entered the core with the operation, the operand, and for ACAS the expected value that its destination held; FENCE and QJOIN enter with their order and mask. (06 R130, 06 R137, 06 R138, 06 R141, 06 R142) -/
def Obligations.AtomicIssue : Prop :=
  (∀ p ∈ ([(.aadd, .add), (.amin, .min), (.amax, .max), (.aand, .and), (.aor, .or), (.axor, .xor), (.axchg, .xchg),
      (.afadd, .fadd)] : List ((Head → AtOp → Instr) × AOp)),
    (∀ h o s hd va b dst d s1 s2 s3, Issues h s →
      handleAddr o.ad o.o.ssc o.ty.bytes o.ty.bytes false (started h s) = .ok ((hd, va), s1) →
      readS o.b s1 = .ok (b, s2) → o.d = some dst → reserveDest dst s2.here.nextId s2 = .ok (d, s3) →
      tagRoom s3.here s3.cur.2 1 = true →
      Sys2Proof.Machine.exec (p.1 h o) s = .next (s3.entered (handleAccess (laneAccess h (.mem p.2 true true) hd.space.kind o.o d s3)
        hd o.ty [⟨va, o.ty.bytes, .atomic p.2 b 0, .sent⟩]))) ∧
    (∀ h o s hd va b s1 s2, Issues h s →
      handleAddr o.ad o.o.ssc o.ty.bytes o.ty.bytes false (started h s) = .ok ((hd, va), s1) →
      readS o.b s1 = .ok (b, s2) → o.d = none → tagRoom s2.here s2.cur.2 1 = true →
      Sys2Proof.Machine.exec (p.1 h o) s = .next (s2.entered (handleAccess (laneAccess h (.mem p.2 false true) hd.space.kind o.o .none s2)
        hd o.ty [⟨va, o.ty.bytes, .atomic p.2 b 0, .sent⟩])))) ∧
  (∀ h o s hd va b dst x d s1 s2 s3 s4, Issues h s →
    handleAddr o.ad o.o.ssc o.ty.bytes o.ty.bytes false (started h s) = .ok ((hd, va), s1) →
    readS o.b s1 = .ok (b, s2) → o.d = some dst → readS dst s2 = .ok (x, s3) → reserveDest dst s3.here.nextId s3 = .ok (d, s4) →
    tagRoom s4.here s4.cur.2 1 = true →
    Sys2Proof.Machine.exec (.acas h o) s = .next (s4.entered (handleAccess (laneAccess h (.mem .cas true true) hd.space.kind o.o d s4)
      hd o.ty [⟨va, o.ty.bytes, .atomic .cas b x, .sent⟩]))) ∧
  (∀ h o s, Issues h s → tagRoom (started h s).here s.cur.2 0 = true →
    Sys2Proof.Machine.exec (.fence h o) s = .next ((started h s).entered (laneAccess h (.fence o.engines) .g o.o .none (started h s)))) ∧
  (∀ h m s, Issues h s → tagRoom (started h s).here s.cur.2 0 = true →
    Sys2Proof.Machine.exec (.qjoin h m) s =
      .next ((started h s).entered (laneAccess h (.qjoin m) .l ⟨.slot, {}, .rlx⟩ .none (started h s))))

/-- CPIN CPOUT GATH SCAT MREC MCONV MZST MZLD MZCLR: where the word issues, its record and bases are read, the record is well formed and the queue can take the operation, the next state is the one in which the operation stands at the end of its queue (e1 CPIN, e2 CPOUT, e3 GATH and SCAT, e5 the matrix ones) with the record, the bases and the entries that were read. (06 R143, 09 R237, 09 R239, 02 R48) -/
def Obligations.RecordCommandIssue : Prop :=
  (∀ p ∈ ([(.cpin, 0x20, 1), (.cpout, 0x21, 2), (.gath, 0x22, 3), (.scat, 0x23, 3)] :
      List ((Head → RecOp → Instr) × Nat × Fin 6)),
    ∀ h o s r b hd sh s1 s2 s3 s4, Issues h s → readRecord o.idx (started h s) = .ok (r, s1) → readBases o s1 = .ok (b, s2) →
      copyIllFormed p.2.1 r = none → recordHandle (copyRec r).hdl s2 = .ok (hd, s3) →
      (if isBlockCode (copyRec r).sfmt then recordHandle (copyRec r).shdl s3 = .ok (sh, s4) else sh = 0 ∧ s4 = s3) →
      s4.here.takes p.2.2 true = true →
      Sys2Proof.Machine.exec (p.1 h o) s = .next (s4.queued p.2.2
        (laneOp h o.push ⟨copyScope (copyRec r).asc, {}, .rlx⟩ .none (.copy o.idx r b hd sh) s4)
        ((copyRec r).range s4.here.nextId b[1]))) ∧
  (∀ p ∈ ([(.mrec, 0x10), (.mconv, 0x11), (.mzst, 0x12), (.mzld, 0x13)] : List ((Head → RecOp → Instr) × Nat)),
    ∀ h o s r b g ea eb s1 s2 s3 s4, Issues h s → readRecord o.idx (started h s) = .ok (r, s1) → readBases o s1 = .ok (b, s2) →
      s2.here.grp = some g → getEntry (matTa r) s2 = .ok (ea, s3) →
      (if matHasB p.2 then getEntry (matTb r) s3 = .ok (eb, s4) else eb = 0 ∧ s4 = s3) →
      matIllFormed p.2 g.accs r (tEnt ea) (tEnt eb) = none → s4.here.takes 5 false = true →
      Sys2Proof.Machine.exec (p.1 h o) s = .next (s4.queued 5
        (laneOp h o.push ⟨g.asc, {}, .rlx⟩ .none (.matrix o.idx r b [ea, eb]) s4) none)) ∧
  (∀ h o s z s1, Issues h s → accOperand o.z (started h s) = .ok (z, s1) → s1.here.takes 5 false = true →
    Sys2Proof.Machine.exec (.mzclr h o) s =
      .next (s1.queued 5 (laneOp h none ⟨.group, {}, .rlx⟩ .none (.mzclr z o.inv) s1) none))

/-- MSEND RGET RGET_POP RWAIT MTERM: MSEND enters with the payload read at issue; RGET writes all ones for an empty ring and the oldest entry's offset otherwise; the pop form raises HEAD by one and writes it; RWAIT completes once the ring holds min(count, ENTRIES) messages and writes how many it holds; MTERM writes a term counter once e5 has nothing left to complete, and clears it where asked. (06 R154, 06 R155, 06 R156, 06 R157, 09 R240) -/
def Obligations.MessageResult : Prop :=
  (∀ h o s dst src p d s1 s2 s3 s4, Issues h s → readS o.dst (started h s) = .ok (dst, s1) → readS o.src s1 = .ok (src, s2) →
    checkLocalRead src.toInt o.len.toNat s2 = .ok (p, s3) → src.toNat % 8 = 0 → rangeStalls s3.here false p o.len.toNat = false →
    guardOrder h .l noOrder s3 = .ok ((), s3) → reserveDest o.d s3.here.nextId s3 = .ok (d, s4) → tagRoom s4.here s4.cur.2 0 = true →
    Sys2Proof.Machine.exec (.msend h o) s =
      .next (s4.entered (laneAccess h (.msend dst (lsRead s3.here p o.len.toNat)) .l noOrder d s4))) ∧
  (∀ h o s r s1 t, Issues h s → myRing o.ring (started h s) = .ok (r, s1) →
    guardOrder h .l noOrder s1 = .ok ((), s1) → writeS o.d (if ringHead s1.here r = ringTail s1.here r then BitVec.allOnes 64
      else BitVec.ofNat 64 (ringEntryAt s1.here r (ringHead s1.here r))) s1 = .ok ((), t) →
    Sys2Proof.Machine.exec (.rget h o) s = .next t) ∧
  (∀ h o s r s1 t, Issues h s → myRing o.ring (started h s) = .ok (r, s1) →
    guardOrder h .l noOrder s1 = .ok ((), s1) → ringHead s1.here r = ringTail s1.here r → writeS o.d (BitVec.allOnes 64) s1 = .ok ((), t) →
    Sys2Proof.Machine.exec (.rgetPop h o) s = .next t) ∧
  (∀ h o s r s1 t, Issues h s → myRing o.ring (started h s) = .ok (r, s1) →
    guardOrder h .l noOrder s1 = .ok ((), s1) → ringHead s1.here r ≠ ringTail s1.here r → writeS o.d (BitVec.ofNat 64 (ringHead s1.here r + 1))
      (s1.updCore s1.cur.1 (lsPut (r.off + 8) 8 (ringHead s1.here r + 1))) = .ok ((), t) →
    Sys2Proof.Machine.exec (.rgetPop h o) s = .next t) ∧
  (∀ h o s r n s1 s2 t, Issues h s → myRing o.ring (started h s) = .ok (r, s1) → readS o.cnt s1 = .ok (n, s2) →
    guardOrder h .l noOrder s2 = .ok ((), s2) → min n.toNat (ringEntries s2.here r) ≤ ringTail s2.here r - ringHead s2.here r →
    writeS o.d (BitVec.ofNat 64 (ringTail s2.here r - ringHead s2.here r)) s2 = .ok ((), t) →
    Sys2Proof.Machine.exec (.rwait h o) s = .next t) ∧
  (∀ h o s t, Issues h s →
    ((started h s).here.e[(5 : Fin 6)].halted || (started h s).here.e[(5 : Fin 6)].ops.all (·.held)) = true →
    writeS o.d (readTerm o.sel (started h s).here) (started h s) = .ok ((), t) →
    Sys2Proof.Machine.exec (.mterm h o) s = .next (if o.clr then t.updCore t.cur.1 (clearTerm o.sel) else t))

/-- FWR FATOM FREQ: where the word issues, its operands can be read, the handle is of space peer with the storage kind named and the offset within its bound, the lengths and alignments are those of the rules, its destination can be reserved and e4 can take it, the next state is the one in which the operation stands at the end of e4. (17 R367, 17 R368, 17 R369, 02 R48) -/
def Obligations.FabricIssue : Prop :=
  (∀ h o s n a l hd p s1 s2 s3 s4 s5, Issues h s → readS o.len (started h s) = .ok (n, s1) → readS o.ad.fa s1 = .ok (a, s2) →
    readS o.src s2 = .ok (l, s3) → getHandle o.ad.hdl s3 = .ok (hd, s4) → hd.space = .peer → o.o.ssc.p = true →
    8 ≤ n.toNat → n.toNat ≤ 65536 → n.toNat % 8 = 0 → l.toNat % 8 = 0 →
    0 ≤ a.toInt + o.ad.off.toInt → a.toInt + o.ad.off.toInt + n.toNat ≤ hd.bound →
    checkLocalRead l.toInt n.toNat s4 = .ok (p, s5) → (hd.base + (a.toInt + o.ad.off.toInt)) % 8 = 0 → s5.here.takes 4 true = true →
    Sys2Proof.Machine.exec (.fwr h o) s = .next (s5.queued 4
      (laneOp h o.push o.o .none (.fwr p n.toNat (BitVec.ofInt 56 (hd.base + (a.toInt + o.ad.off.toInt)))) s5)
      (some ⟨s5.here.nextId, p, p + n.toNat, false⟩))) ∧
  (∀ h o s a hd b x d s1 s2 s3 s4 s5, Issues h s → readS o.ad.fa (started h s) = .ok (a, s1) → getHandle o.ad.hdl s1 = .ok (hd, s2) →
    hd.space = .peer → o.o.ssc.p = true → 0 ≤ a.toInt + o.ad.off.toInt → a.toInt + o.ad.off.toInt + o.ty.bytes ≤ hd.bound →
    (hd.base + (a.toInt + o.ad.off.toInt)) % o.ty.bytes = 0 → readS o.b s2 = .ok (b, s3) →
    (match o.op, o.d with
      | .cas, some r => readS r s3 = .ok (x, s4)
      | _, _ => x = 0 ∧ s4 = s3) →
    (match o.d with
      | some r => reserveDest r s4.here.nextId s4 = .ok (d, s5)
      | none => d = .none ∧ s5 = s4) → s5.here.takes 4 false = true →
    Sys2Proof.Machine.exec (.fatom h o) s = .next (s5.queued 4
      (laneOp h none o.o d (.fatom o.op o.ty b x (BitVec.ofInt 56 (hd.base + (a.toInt + o.ad.off.toInt)))) s5) none)) ∧
  (∀ h o s dst src p d s1 s2 s3 s4, Issues h s → readS o.dst (started h s) = .ok (dst, s1) → readS o.src s1 = .ok (src, s2) →
    checkLocalRead src.toInt o.len.toNat s2 = .ok (p, s3) → src.toNat % 8 = 0 → rangeStalls s3.here false p o.len.toNat = false →
    guardOrder h .l noOrder s3 = .ok ((), s3) → reserveDest o.d s3.here.nextId s3 = .ok (d, s4) → s4.here.takes 4 false = true →
    Sys2Proof.Machine.exec (.freq h o) s = .next (s4.queued 4
      (laneOp h o.push (relOrder o.rel) d (.freq dst (lsRead s3.here p o.len.toNat)) s4) none))

/-- LZOFFER LZGRANT LZPUT LZADOPT LZFREE LZSTAT: where no earlier acquire over L holds the instruction back, a free slot of a declared zone is offered with its size in bytes; an offered slot is reserved and its grant record enters, or status 2 is written where the destination word has other bits; LZPUT enters e4 with the grant record that it read; an arrived slot is adopted where the tag and the way are free; a slot that awaits records is torn with cause 4 and another offered, arrived or torn one is freed; LZSTAT writes the slot word. (18 R378, 18 R381, 18 R382, 18 R383, 18 R384, 18 R385) -/
def Obligations.LandingIssue : Prop :=
  (∀ h o s j b n s1 s2, Issues h s → namedSlot o.zone o.j (started h s) = .ok ((j, b), s1) → readS o.b s1 = .ok (n, s2) →
    guardOrder h .l noOrder s2 = .ok ((), s2) → slotSst b = sstFree → 64 ≤ n.toNat → n.toNat ≤ 32768 → n.toNat % 64 = 0 →
    Sys2Proof.Machine.exec (.lzoffer h o) s = .next (s2.updCore s2.cur.1 (·.putSlotRec o.zone.toFin j
      (putField (putField (putSst (putField (putField (putField b 8 3 0) 12 1 0) 64 64 (n.toNat / 64)) sstOffered) 264 8 0)
        336 16 n.toNat)))) ∧
  (∀ h o s cookie j b w d s1 s2 s3 s5, Issues h s → readS o.d (started h s) = .ok (cookie, s1) →
    namedSlot o.zone o.j s1 = .ok ((j, b), s2) → readS o.w s2 = .ok (w, s3) →
    guardOrder h .l noOrder s3 = .ok ((), s3) → slotSst b = sstOffered → badTarget w = false →
    let rsv := s3.here.lzseq + 1
    let t := w.toNat
    let b' := putField (putField (putField (putField (putSst b sstReserved) 272 16 rsv.toNat) 288 16 (bitsOf t 0 16)) 304 16
      (if BitVec.ofNat 16 (bitsOf t 0 16) = s3.device then 0 else bitsOf t 32 16)) 320 9 (bitsOf t 16 9)
    let s4 := s3.updCore s3.cur.1 fun k => { k with lzseq := rsv }.putSlotRec o.zone.toFin j b'
    reserveDest o.d s4.here.nextId s4 = .ok (d, s5) → tagRoom s5.here s5.cur.2 0 = true →
    Sys2Proof.Machine.exec (.lzgrant h o) s = .next (s5.entered (laneAccess h (.lzgrant o.zone.toFin j w
      (grantRecord s3.device s3.cur.1 o.zone.toNat j rsv.toNat (slotBytes b') cookie)) .p (relOrder o.rel) d s5))) ∧
  (∀ h o s cookie j b w s1 s2 s3 t, Issues h s → readS o.d (started h s) = .ok (cookie, s1) →
    namedSlot o.zone o.j s1 = .ok ((j, b), s2) → readS o.w s2 = .ok (w, s3) →
    guardOrder h .l noOrder s3 = .ok ((), s3) → slotSst b = sstOffered → badTarget w = true →
    writeS o.d 2 s3 = .ok ((), t) → Sys2Proof.Machine.exec (.lzgrant h o) s = .next t) ∧
  (∀ h o s g src p off d s1 s2 s3 s4 s5, Issues h s → readS o.g (started h s) = .ok (g, s1) → readS o.src s1 = .ok (src, s2) →
    o.o.ssc.p = true → checkLocalRead (g.toInt + o.off.toInt) 32 s2 = .ok (p, s3) → rangeStalls s3.here false p 32 = false →
    guardOrder h .l noOrder s3 = .ok ((), s3) →
    grantOk (leNat (lsRead s3.here p 32)) src = true →
    checkLocalRead src.toInt (bitsOf (leNat (lsRead s3.here p 32)) 96 32) s3 = .ok (off, s4) →
    reserveDest o.d s4.here.nextId s4 = .ok (d, s5) → s5.here.takes 4 true = true →
    Sys2Proof.Machine.exec (.lzput h o) s = .next (s5.queued 4
      (laneOp h o.push o.o d (.lzput (lsRead s3.here p 32) off) s5)
      (some ⟨s5.here.nextId, off, off + bitsOf (leNat (lsRead s3.here p 32)) 96 32, false⟩))) ∧
  (∀ h o s x s1 victims idx hand, Issues h s → adoption o (s.here.slot .a).entry (started h s) = .ok (x, s1) →
    (s1.core s.cur.1).tagged x.tens x.c = none →
    (s1.core s.cur.1).plan (s1.poolGranules (s1.core s.cur.1)) 0 (Config.draw s1.freeCtr) (tagSet x.tens x.c)
      (s1.core s.cur.1).adopting.isSome =
      .place victims idx hand → victims.any (·.dirty) = false →
    let k := s1.core s.cur.1
    let l := adoptLine x (k.ctxId.getD 0) ((k.grp.map (·.asc)).getD .device) idx { victims.foldl evictTile k with hand := hand }
    Sys2Proof.Machine.exec (.lzadopt h o) s =
      .next (forgetEntry (((s1.setCore s.cur.1 l).drew.settleTiles s.cur.1).updCore s.cur.1 fun k => { k with adopting := none }))) ∧
  (∀ h o s j b s1, Issues h s → namedSlot o.zone o.j (started h s) = .ok ((j, b), s1) →
    guardOrder h .l noOrder s1 = .ok ((), s1) → slotSst b ≠ sstFree → slotSst b ≠ sstAdopted →
    Sys2Proof.Machine.exec (.lzfree h o) s = .next (if slotSst b = sstReserved ∨ slotSst b = sstFilling then
      s1.drew.updCore s1.cur.1 (tearSlot o.zone.toFin j 4 s1.freeCtr)
      else s1.updCore s1.cur.1 (·.putSlotRec o.zone.toFin j slotReset))) ∧
  (∀ h o s j b s1 t, Issues h s → o.ssc.l = true → namedSlot o.zone o.j (started h s) = .ok ((j, b), s1) →
    guardOrder h .l ⟨.group, o.ssc, if o.acq then .acq else .rlx⟩ s1 = .ok ((), s1) →
    writeS o.d (BitVec.ofNat 64 (packFields [(3, slotSst b), (5, 0), (8, slotCause b), (16, slotRsv b), (16, barCount b),
      (16, barTarget b)])) s1 = .ok ((), t) →
    Sys2Proof.Machine.exec (.lzstat h o) s = .next t)

/-- BARINIT BARARV BARWAIT BARTST PGPF PGIN LAUNCH QENTRY: where the word issues, its address and operands pass their checks and the slot has a tag, the next state is the one in which the access has entered with what the instruction names; BARWAIT, whose read finds the phase awaited or TORN, writes the barrier word. (15 R323, 15 R324, 16 R343, 12 R291, 12 R292) -/
def Obligations.BarrierPagingLaunchIssue : Prop :=
  (∀ h o s hd va b d s1 s2 s3, Issues h s → handleAddr o.ad o.o.ssc 64 64 false (started h s) = .ok ((hd, va), s1) →
    readS o.t s1 = .ok (b, s2) → reserveDest o.d s2.here.nextId s2 = .ok (d, s3) → tagRoom s3.here s3.cur.2 1 = true →
    Sys2Proof.Machine.exec (.barinit h o) s = .next (s3.entered (handleAccess (laneAccess h .barinit hd.space.kind o.o d s3) hd .n64
      [⟨va, 64, .bar (.init o.kind o.rearm b), .sent⟩]))) ∧
  (∀ h o s hd va w d s1 s2 s3, Issues h s → (s.here.slot s.cur.2).failed = false →
    handleAddr o.ad o.o.ssc 64 64 false (started h s) = .ok ((hd, va), s1) →
    readS o.w s1 = .ok (w, s2) → 1 ≤ w.toNat → w.toNat ≤ 65535 →
    (match o.d with
      | some r => reserveDest r s2.here.nextId s2 = .ok (d, s3)
      | none => d = .none ∧ s3 = s2) → tagRoom s3.here s3.cur.2 1 = true →
    Sys2Proof.Machine.exec (.bararv h o) s = .next (s3.entered (handleAccess
      (laneAccess h (.bararv o.d.isSome) hd.space.kind o.o d s3) hd .n64
      [⟨va, 64, .bar (.arrive (w.setWidth 16) (if o.pchk then some o.pexp else none) o.d.isSome), .sent⟩]))) ∧
  (∀ h o s off ph s1 s2 t, Issues h s → o.loc = true → localAddr o.ad o.o.ssc 64 64 false (started h s) = .ok (off, s1) →
    readS o.ph s1 = .ok (ph, s2) → guardOrder h .l o.o s2 = .ok ((), s2) →
    let b : Rec64 := BitVec.ofNat 512 (lsNat s2.here off 64)
    barMet b (ph.getLsbD 0) = true → writeS o.d (barWord b false) s2 = .ok ((), t) →
    Sys2Proof.Machine.exec (.barwait h o) s = .next t) ∧
  (∀ h o s hd va ph s1 s2 v l w hz vz pz u1 u2 t, Issues h s → o.loc = false →
    handleAddr o.ad o.o.ssc 64 64 true (started h s) = .ok ((hd, va), s1) → readS o.ph s1 = .ok (ph, s2) →
    guardOrder h .g o.o s2 = .ok ((), s2) → (s.here.slot s.cur.2).failed = false →
    s.readVa s.cur.1 (s.here.ctxId.getD 0) { viaHandle hd false with acq := true } va.toNat 64 = (v, .ok l) →
    let b : Rec64 := BitVec.ofNat 512 (leNat l)
    barMet b (ph.getLsbD 0) = true → w = v.updCore s.cur.1 (startIssue h s.cur.2) →
    handleAddr o.ad o.o.ssc 64 64 true w = .ok ((hz, vz), u1) → readS o.ph u1 = .ok (pz, u2) →
    guardOrder h .g o.o u2 = .ok ((), u2) → writeS o.d (barWord b false) u2 = .ok ((), t) →
    Sys2Proof.Machine.exec (.barwait h o) s = .next t) ∧
  (∀ h o s off d s1 s2, Issues h s → o.loc = true → localAddr o.ad o.o.ssc 64 64 false (started h s) = .ok (off, s1) →
    reserveDest o.d s1.here.nextId s1 = .ok (d, s2) → tagRoom s2.here s2.cur.2 0 = true →
    Sys2Proof.Machine.exec (.bartst h o) s = .next (s2.entered (laneAccess h (.bartst (some off)) .l o.o d s2))) ∧
  (∀ h o s hd va d s1 s2, Issues h s → o.loc = false → handleAddr o.ad o.o.ssc 64 64 true (started h s) = .ok ((hd, va), s1) →
    reserveDest o.d s1.here.nextId s1 = .ok (d, s2) → tagRoom s2.here s2.cur.2 1 = true →
    Sys2Proof.Machine.exec (.bartst h o) s = .next (s2.entered (handleAccess (laneAccess h (.bartst none) .g o.o d s2) hd .n64
      [⟨va, 64, .load, .sent⟩]))) ∧
  (∀ h o s hd va d s1 s2, Issues h s → handleAddr o.ad o.o.ssc 1 1 false (started h s) = .ok ((hd, va), s1) →
    (hd.space = .far → s1.farPorts ≠ 0) → reserveDest o.d s1.here.nextId s1 = .ok (d, s2) → tagRoom s2.here s2.cur.2 0 = true →
    Sys2Proof.Machine.exec (.pgpf h o) s = .next ((s2.entered (laneAccess h (.pgpf va) hd.space.kind o.o d s2)).updCore s2.cur.1
      (beginWalk va.toNat))) ∧
  (∀ h o s hd va b near d s1 s2 s3 s4, Issues h s → handleAddr o.ad o.o.ssc 1 1 false (started h s) = .ok ((hd, va), s1) →
    (hd.space = .far → s1.farPorts ≠ 0) → readS o.n s1 = .ok (b, s2) → nearAddr b s2 = .ok (near, s3) →
    reserveDest o.d s3.here.nextId s3 = .ok (d, s4) → tagRoom s4.here s4.cur.2 0 = true →
    Sys2Proof.Machine.exec (.pgin h o) s = .next (s4.entered (laneAccess h (.pgin va near) .g o.o d s4))) ∧
  (∀ h o s args hd va q g d s1 s2 s3 s4, Issues h s → readS o.d (started h s) = .ok (args, s1) →
    handleAddr o.ad anySsc 64 1 false s1 = .ok ((hd, va), s2) → readS o.q s2 = .ok (q, s3) → s3.here.grp = some g →
    reserveDest o.d s3.here.nextId s3 = .ok (d, s4) → tagRoom s4.here s4.cur.2 0 = true →
    Sys2Proof.Machine.exec (.launch h o) s = .next (s4.entered (laneAccess h (.append q (BitVec.ofNat 512
      (1 + 2 ^ 8 * g.pri.toNat + 2 ^ 16 * (if o.done = 0 then 3 else o.done.toNat) + (if o.pre then 2 ^ 19 else 0) +
        2 ^ 64 * va.toNat + 2 ^ 128 * args.toNat))) .g o.o d s4))) ∧
  (∀ h o s a q p d s1 s2 s3 s4, Issues h s → readS o.fa (started h s) = .ok (a, s1) → readS o.q s1 = .ok (q, s2) →
    checkLocalRead (a.toInt + o.off.toInt) 64 s2 = .ok (p, s3) → (a.toInt + o.off.toInt) % 64 = 0 →
    rangeStalls s3.here false p 64 = false → guardOrder h .l noOrder s3 = .ok ((), s3) → reserveDest o.d s3.here.nextId s3 = .ok (d, s4) → tagRoom s4.here s4.cur.2 0 = true →
    Sys2Proof.Machine.exec (.qentry h o) s =
      .next (s4.entered (laneAccess h (.append q (BitVec.ofNat 512 (lsNat s3.here p 64))) .g o.o d s4)))

/-- VADD VSUB VMUL VMIN VMAX VFMA VFMS VABS VNEG VSQRT VRCP VRSQ VEXP2 VLOG2: the instruction completes, and every active element of its destination is the operation of its type on the elements of its sources: floats with the arithmetic of chapter 3 and the rounding mode, integers exactly and then wrapped or saturated. (07 R163, 07 R166, 07 R167, 07 R168, 07 R169) -/
def Obligations.VectorArithmeticResult : Prop :=
  (∀ p ∈ ([(.vadd, fun (o : VBin) => byType o.ty o.rm o.sat (· + ·) (fAdd o.rm)),
      (.vsub, fun o => byType o.ty o.rm o.sat (· - ·) fun a b => fAdd o.rm a b.neg),
      (.vmul, fun o => byType o.ty o.rm o.sat (· * ·) fMul),
      (.vmin, fun o => byType o.ty .rne false min fMin), (.vmax, fun o => byType o.ty .rne false max fMax)] :
      List ((Head → VBin → Instr) × (VBin → BitVec 32 → BitVec 32 → BitVec 32))),
    ∀ h o, ElementsComplete (p.1 h o) h (some o.ty) o.d [.reg o.a, o.b] fun l => p.2 o (l.getD 0 0) (l.getD 1 0)) ∧
  (∀ p ∈ ([(.vfma, false), (.vfms, true)] : List ((Head → VTern → Instr) × Bool)), ∀ h o,
    ElementsComplete (p.1 h o) h (some o.ty) o.d [.reg o.a, .reg o.b, .reg o.c] fun l =>
      let v := fun i => elemVal o.ty (l.getD i 0)
      putVal o.ty o.rm (fFma o.rm (v 0) (v 1) (if p.2 then (v 2).neg else v 2))) ∧
  (∀ p ∈ ([(.vabs, fun (o : VUn) => unType o.ty .rne o.sat (fun a => (a.natAbs : Int)) fAbs),
      (.vneg, fun o => unType o.ty .rne o.sat (fun a => -a) FVal.neg),
      (.vsqrt, fun o a => putVal o.ty o.rm (fSqrt (elemVal o.ty a))), (.vrcp, fun o => approxElem .rcp o.ty),
      (.vrsq, fun o => approxElem .rsq o.ty), (.vexp2, fun o => approxElem .exp2 o.ty),
      (.vlog2, fun o => approxElem .log2 o.ty)] : List ((Head → VUn → Instr) × (VUn → BitVec 32 → BitVec 32))),
    ∀ h o, ElementsComplete (p.1 h o) h (some o.ty) o.d [.reg o.a] fun l => p.2 o (l.getD 0 0))

/-- VAND VOR VXOR VNOT VSHL VSHR VSAR VCMP VSEL: the instruction completes, and every active element of its destination is the operation on the bits of the type, the comparison as all ones or zero, or the selected container. (07 R163, 07 R170, 07 R171, 07 R172) -/
def Obligations.VectorBitsResult : Prop :=
  (∀ p ∈ ([(.vand, fun _ a b => a &&& b), (.vor, fun _ a b => a ||| b), (.vxor, fun _ a b => a ^^^ b),
      (.vshl, fun w a n => if w ≤ n then 0 else a * 2 ^ n % 2 ^ w), (.vshr, fun w a n => if w ≤ n then 0 else a / 2 ^ n),
      (.vsar, fun w a n => let top := if 2 ^ (w - 1) ≤ a then 2 ^ w - 1 else 0
        if w ≤ n then top else a / 2 ^ n + (top - top / 2 ^ n))] :
      List ((Head → VBin → Instr) × (Nat → Nat → Nat → Nat))),
    ∀ h o, ElementsComplete (p.1 h o) h (some o.ty) o.d [.reg o.a, o.b] fun l =>
      toContainer o.ty (p.2 o.ty.width (containerBits o.ty (l.getD 0 0)) (containerBits o.ty (l.getD 1 0)))) ∧
  (∀ h o, ElementsComplete (.vnot h o) h (some o.ty) o.d [.reg o.a] fun l =>
    toContainer o.ty (2 ^ o.ty.width - 1 - containerBits o.ty (l.getD 0 0))) ∧
  (∀ h o, ElementsComplete (.vcmp h o) h (some o.ty) o.d [.reg o.a, o.b] fun l =>
    if compareElems o.ty o.cond (l.getD 0 0) (l.getD 1 0) then BitVec.allOnes 32 else 0) ∧
  (∀ h o, ElementsComplete (.vsel h o) h none o.d [.reg o.a, .reg o.b, .reg o.sel] fun l =>
    if l.getD 2 0 ≠ 0 then l.getD 0 0 else l.getD 1 0)

/-- MPUSH MINV MPOP VSKIPZ KSET KGET VEXT: MPUSH puts the active comparison on the stack where it has fewer than 32 entries; MINV complements the top within its parent; MPOP removes it; VSKIPZ goes on at n + DISP exactly where the top is all zero; KSET writes COUNT (clamped to the elements of LEN registers), WIDTH and LEN, but for k0, which it leaves; KGET reads them; VEXT writes a container of its source, or 0 past the end or where the element is inactive. (07 R173, 07 R174, 07 R175, 07 R176, 07 R177, 07 R180) -/
def Obligations.MaskStackResult : Prop :=
  (∀ h o s x gs s1 s2, Issues h s → vguard h true 32 (started h s) = .ok (x, s1) → s1.here.masks.length < 32 →
    gather 1 (groupNames 1 o.a ++ groupNames 1 o.b) [.reg o.a, .reg o.b] s1 = .ok (gs, s2) →
    let at' := fun i c => (gs.getD i (.pat 0)).at (some o.ty) 0 c
    Sys2Proof.Machine.exec (.mpush h o) s = .next (s2.updCore s2.cur.1 fun k =>
      { k with masks := ofBits (fun c => x.active 32 1024 0 c && compareElems o.ty o.cond (at' 0 c) (at' 1 c)) :: k.masks })) ∧
  (∀ h s t r, Issues h s → s.here.masks = t :: r → Sys2Proof.Machine.exec (.minv h) s =
    .next ((started h s).updCore s.cur.1 fun k => { k with masks := (r.head?.getD (BitVec.allOnes 1024) &&& ~~~ t) :: r })) ∧
  (∀ h s t r, Issues h s → s.here.masks = t :: r → Sys2Proof.Machine.exec (.mpop h) s =
    .next ((started h s).updCore s.cur.1 fun k => { k with masks := r })) ∧
  (∀ h disp s, Issues h s → Sys2Proof.Machine.exec (.vskipz h disp) s =
    .next (if s.here.masks.head? = some 0 then (started h s).goTo ((s.here.slot s.cur.2).pc + disp) else started h s)) ∧
  (∀ h o s a (n : Fin 16) s1, Issues h s → readS o.src (started h s) = .ok (a, s1) → o.k.name = .k n →
    Sys2Proof.Machine.exec (.kset h o) s = .next (if n = 0 then s1 else s1.updCore s1.cur.1 fun k => { k with
      k := k.k.set n ⟨BitVec.ofInt 16 (min (max 0 (a.toInt + o.imm.toInt)) (o.len.toNat * perReg o.width)), o.width, o.len⟩ })) ∧
  (∀ h o s n t, Issues h s → o.k.name = .k n →
    let p := (started h s).here.kreg n
    writeS o.d (BitVec.ofNat 64 (p.count.toNat + KWidth.code p.width * 2 ^ 16 + p.len.toNat * 2 ^ 19)) (started h s) = .ok ((), t) →
    Sys2Proof.Machine.exec (.kget h o) s = .next t) ∧
  (∀ h o s x gs s1 s2 s3 t, Issues h s → vguard h true 32 (started h s) = .ok (x, s1) → guardGroup x.len o.a s1 = .ok ((), s2) →
    gather x.len (groupNames x.len o.a) [.reg o.a, .reg o.idx] s2 = .ok (gs, s3) →
    let i := (scalarOf (gs.getD 1 (.pat 0))).toNat
    let c := (gs.getD 0 (.pat 0)).at none 0 i
    writeS o.d (if 1024 ≤ i ∨ x.active 32 1024 0 i = false then 0 else if o.sx then c.signExtend 64 else c.setWidth 64) s3 =
      .ok ((), t) → Sys2Proof.Machine.exec (.vext h o) s = .next t)

/-- VMOV VINS VPACK4 VPACK6 VUNPACK4 VUNPACK6 VROTR VROTC VBCR VBCC VREDR VREDC VTRN: the instruction completes, and its destination holds the elements that its rule names: a container or a narrow view, the inserted container, the packed or unpacked codes of a part, the container at the rotated, broadcast or transposed position, or the reduction of each row or column by the fixed tree over the active elements. That the result of a reduction is an element of its type where a line has one active element, and the shift that c.row, c.col or c.idx gives, are the model’s choice (log 86): R187 and R188 do not say it. (07 R178, 07 R179, 07 R182, 07 R183, 07 R187, 07 R188, 07 R189) -/
def Obligations.VectorMoveResult : Prop :=
  (∀ h o, o.view = .cont → ElementsComplete (.vmov h o) h none o.d [.reg o.a] fun l => l.getD 0 0) ∧
  (∀ h o, o.view ≠ .cont → let w := viewBits o.view
    VecCompletes (.vmov h o) h false w (w = 6) o.d [.reg o.a] fun x gs j old => BitVec.ofNat 32768 (overlay w 0 (32768 / w)
      (fun i => if x.active w (32768 / w) j i then some ((gs.getD 0 (.pat 0)).narrow w j i) else none) old.toNat)) ∧
  (∀ h o, VecCompletes (.vins h o) h true 32 false o.d [.reg o.a, .reg o.idx, .reg o.val] (elementwise fun _ gs j e =>
    if e = (scalarOf (gs.getD 1 (.pat 0))).toNat then (gs.getD 2 (.pat 0)).at none j e else (gs.getD 0 (.pat 0)).at none j e)) ∧
  (∀ p ∈ ([(.vpack4, 4), (.vpack6, 6)] : List ((Head → VPackOp → Instr) × Nat)), ∀ h o,
    VecCompletes (p.1 h o) h true 32 true o.d [.reg o.a] fun x gs j old =>
      BitVec.ofNat 32768 (overlay p.2 (p.2 * 1024 * o.part.toNat) 1024
        (fun i => if x.active 32 1024 j i then some (((gs.getD 0 (.pat 0)).at none j i).toNat % 2 ^ p.2) else none) old.toNat)) ∧
  (∀ p ∈ ([(.vunpack4, 4), (.vunpack6, 6)] : List ((Head → VUnpackOp → Instr) × Nat)), ∀ h o,
    VecCompletes (p.1 h o) h true 32 false o.d [.reg o.a] (elementwise fun _ gs j i =>
      let c := bitsOf ((gs.getD 0 (.pat 0)).bytes j) (p.2 * (1024 * o.part.toNat + i)) p.2
      if o.sx then (BitVec.ofNat p.2 c).signExtend 32 else BitVec.ofNat 32 c)) ∧
  (∀ p ∈ ([(.vrotr, 64, fun t r c => (r, (c + 64 - t) % 64)), (.vbcr, 64, fun t r _ => (r, t)),
      (.vrotc, 16, fun t r c => ((r + 16 - t) % 16, c)), (.vbcc, 16, fun t _ c => (t, c))] :
      List ((Head → VRotOp → Instr) × Nat × (Nat → Nat → Nat → Nat × Nat))), ∀ h o,
    VecCompletes (p.1 h o) h false 32 false o.d [.reg o.a, o.s] (elementwise fun _ gs j e =>
      let at' := p.2.2 (axisShift o.s (gs.getD 1 (.pat 0)) e % p.2.1).toNat (e / 64) (e % 64)
      (gs.getD 0 (.pat 0)).at none j (64 * at'.1 + at'.2))) ∧
  (∀ p ∈ ([(.vredr, 16, 6, (fun l i => 64 * l + i), (· / 64)), (.vredc, 64, 4, (fun l i => 64 * i + l), (· % 64))] :
      List ((Head → VRedOp → Instr) × Nat × Nat × (Nat → Nat → Nat) × (Nat → Nat))), ∀ h o,
    VecCompletes (p.1 h o) h false 32 false o.d [.reg o.a] (elementwise fun x gs j e =>
      ((List.range p.2.1).map fun l => redOut o.ty ((treeReduce (redElem o) p.2.2.1 ((List.range (2 ^ p.2.2.1)).map fun i =>
        if x.active 32 1024 j (p.2.2.2.1 l i) then some ((gs.getD 0 (.pat 0)).at (some o.ty) j (p.2.2.2.1 l i)) else none)).getD
          0)).getD (p.2.2.2.2 e) 0)) ∧
  (∀ h o, VecCompletes (.vtrn h o) h false 32 false o.d [.reg o.a] (elementwise fun _ gs j e =>
    (gs.getD 0 (.pat 0)).at none j (64 * (e % 16) + 16 * (e % 64 / 16) + e / 64)))

/-- VCVT VQNT VDEQ VZRD VZWR: the instruction completes; a conversion between 32-bit containers converts each element, one to or from 64-bit elements takes the half that it names; VQNT writes the blocks that hold an active element; VDEQ counts each reserved or invalid block that holds one and writes the decoded values; VZRD copies a part of a valid accumulator and VZWR writes one, which is then valid. (07 R181, 07 R184, 07 R185, 07 R186, 07 R190, 07 R191) -/
def Obligations.VectorConvertResult : Prop :=
  (∀ h o, o.src.isWide = false → o.ty.isWide = false → ElementsComplete (.vcvt h o) h (some o.src) o.d [.reg o.a] fun l =>
    toContainer o.ty (convert o.src o.ty o.rm (containerBits o.src (l.getD 0 0)))) ∧
  (∀ h o, o.src.isWide = true → o.ty.isWide = true → VecCompletes (.vcvt h o) h true 32 false o.d [.reg o.a] fun x gs j old =>
    wideDest x old fun m => convert o.src o.ty o.rm ((gs.getD 0 (.pat 0)).wide o.src j m)) ∧
  (∀ h o, o.src.isWide = false → o.ty.isWide = true → VecCompletes (.vcvt h o) h true 32 false o.d [.reg o.a] fun x gs j old =>
    wideDest x old fun m => convert o.src o.ty o.rm
      (containerBits o.src ((gs.getD 0 (.pat 0)).at (some o.src) j ((if o.half then 512 else 0) + m)))) ∧
  (∀ h o, o.src.isWide = true → o.ty.isWide = false → VecCompletes (.vcvt h o) h true 32 true o.d [.reg o.a] fun x gs j old =>
    let half := if o.half then 512 else 0
    ofElems fun e => if half ≤ e && e < half + 512 && x.active 32 1024 j e then
      toContainer o.ty (convert o.src o.ty o.rm ((gs.getD 0 (.pat 0)).wide o.src j (e - half))) else elem old e) ∧
  (∀ h o, VecCompletes (.vqnt h o) h true 32 true o.d (.reg o.a :: (o.scale.map Src2.reg).toList) fun x gs j old =>
    BitVec.ofNat 32768 ((List.range 32).foldl (quantBlock o (o.scale.map fun _ => (scalarOf (gs.getD 1 (.pat 0))).toNat % 64)
      (x.active 32 1024 j) fun e => elemVal .f32 ((gs.getD 0 (.pat 0)).at (some .f32) j e))
        (old.toNat % 2 ^ (8 * (scaleAt o.ty + 32))))) ∧
  (∀ h o s x olds gs s1 s2 s3 s4 s5 t, Issues h s → vguard h true 32 (started h s) = .ok (x, s1) →
    guardGroup x.len o.d s1 = .ok ((), s2) → guardGroup x.len o.a s2 = .ok ((), s3) →
    (if x.guards then oldGroup x.len o.d s3 = .ok (olds, s4) else olds = [] ∧ s4 = s3) →
    let keep := groupNames x.len o.d ++ groupNames x.len o.a
    gather x.len keep [.reg o.a] s4 = .ok (gs, s5) →
    let img := (gs.getD 0 (.pat 0)).bytes 0
    let s6 := s5.updCore s5.cur.1 fun k => (List.range 32).foldl (fun k b =>
      if (natRange (32 * b) 32).any (x.active 32 1024 0) then countBlock o.ty (imageScale o.ty img b) k else k) k
    putGroup keep o.d [ofElems fun e => if x.active 32 1024 0 e then
      putVal .f32 .rne (blockVal o.ty (imageScale o.ty img (e / 32)) (bitsOf img (o.ty.width * e) o.ty.width))
      else elem (olds.getD 0 0) e] s6 = .ok ((), t) →
    Sys2Proof.Machine.exec (.vdeq h o) s = .next t) ∧
  (∀ h o s z a r s1 s2 t, Issues h s → accOperand o.a (started h s) = .ok (z, s1) → s1.here.accBusy z = false →
    s1.here.z[z] = some a → vecRead h true 32 false o.d [] s1 = .ok (r, s2) →
    putGroup (keepNames r.x.len o.d []) o.d (r.results (elementwise fun _ _ _ e =>
      BitVec.ofNat 32 (bitsOf a.toNat (32 * (1024 * o.part.toNat + e)) 32))) s2 = .ok ((), t) →
    Sys2Proof.Machine.exec (.vzrd h o) s = .next t) ∧
  (∀ h o s z x gs s1 s2 s3, Issues h s → accOperand o.d (started h s) = .ok (z, s1) → s1.here.accBusy z = false →
    vguard h true 32 s1 = .ok (x, s2) → gather 1 (groupNames 1 o.a) [.reg o.a] s2 = .ok (gs, s3) →
    Sys2Proof.Machine.exec (.vzwr h o) s = .next (s3.updCore s3.cur.1 fun k =>
      { k with z := k.z.set z (some (putPart (k.z[z].getD 0) o.part.toNat fun e =>
        if x.active 32 1024 0 e then (gs.getD 0 (.pat 0)).at none 0 e
        else BitVec.ofNat 32 (bitsOf (k.z[z].getD 0).toNat (32 * (1024 * o.part.toNat + e)) 32))) }))

/-- TRD TWR: where the word issues, its coordinates and entry pass their checks, its guard and registers let it act, no command of the slot has failed, and the lookup hits a line, TRD writes the containers of the segment to its destination where they are active, and TWR leaves the line with the active elements of the segment replaced, dirty and no older than the required edition. Which elements of a 64-bit format are active (COUNT against the index m, the mask of container 2m) is the model’s choice (log 71), argued from R43 and R181. (07 R192, 07 R193, 07 R194, 08 R201, 02 R43, 07 R181) -/
def Obligations.TileTransferResult : Prop :=
  (∀ h o s q l r u s1 s2 s3 t, Issues h s → tileLook false h o (started h s) = .ok (q, s1) →
    ((s1.core s.cur.1).waiter? .v).any (·.failed) = false →
    trdFinish h o q (freshLine q 0 1024 (s1.core s.cur.1)).data s1 = .ok ((), u) → s1.demand s.cur.1 .v q = (s2, some l) →
    vecRead h true 32 false o.r [] s2 = .ok (r, s3) →
    putGroup (keepNames r.x.len o.r []) o.r (r.results fun g _ _ old => ofElems fun e =>
      if segActive (tEnt q.ent) g e then segContainer (tEnt q.ent) l.data o.seg.toNat e else elem old e) s3 = .ok ((), t) →
    Sys2Proof.Machine.exec (.trd h o) s = .next t) ∧
  (∀ h o s q l x gs u s1 s2 s3 s4, Issues h s → tileLook true h o (started h s) = .ok (q, s1) →
    ((s1.core s.cur.1).waiter? .v).any (·.failed) = false →
    twrFinish h o q (freshLine q 0 1024 (s1.core s.cur.1)) s1 = .ok ((), u) → s1.demand s.cur.1 .v q = (s2, some l) →
    vguard h true 32 s2 = .ok (x, s3) → gather 1 (groupNames 1 o.r) [.reg o.r] s3 = .ok (gs, s4) →
    Sys2Proof.Machine.exec (.twr h o) s = .next (s4.updCore s4.cur.1 (·.setLine (writtenLine q
      (twrData (tEnt q.ent) x (fun e => (gs.getD 0 (.pat 0)).at none 0 e) o.seg.toNat l.data) l))))

/-- TPF TPF_ITINERARY TPIN TUNPIN TLAST TSTREAM TINV TWB TCMT TEDACQ: where the word issues, its operands pass their checks and the slot has tags, the flags of the lines named are changed at issue, dirty lines named begin to be written back, and the access enters with the tiles that it must wait for and acts as far as it can at once; TEDACQ that finds its edition (or does not wait) raises the required edition and writes what it found. (08 R202, 08 R211, 08 R214, 08 R215, 08 R216, 08 R217, 08 R218, 08 R219) -/
def Obligations.TileInstructionResult : Prop :=
  (let enters := fun (h : Head) (push : Option (Fin 8)) (asc : Scope) (o : Order) (kind : AccKind) (s : State) =>
    (s.entered { laneAccess h kind .t o .none s with push := push, asc := asc }).settleTiles s.cur.1
  let rlx : Order := ⟨.slot, {}, .rlx⟩
  (∀ h o s c e g s1 s2, Issues h s → readCoords o.c0 o.c1 o.c2 o.c3 (started h s) = .ok (c, s1) →
    formedEntry o.t none s1 = .ok (e, s2) → (tEnt e).coordsOk c = true → s2.here.grp = some g → tagRoom s2.here s2.cur.2 0 = true →
    Sys2Proof.Machine.exec (.tpf h o) s = .next (enters h o.push g.asc rlx (.tile (.pf false h.ch none) o.t e [c] []) s2)) ∧
  (∀ h o s off n g p e s1 s2 s3 s4, Issues h s → readS o.off (started h s) = .ok (off, s1) → readS o.n s1 = .ok (n, s2) →
    s2.here.grp = some g → 1 ≤ n.toNat → n.toNat ≤ 64 → checkLocalRead off.toInt (16 * n.toNat) s2 = .ok (p, s3) →
    formedEntry o.t none s3 = .ok (e, s4) → rangeStalls s4.here false p (16 * n.toNat) = false → tagRoom s4.here s4.cur.2 0 = true →
    Sys2Proof.Machine.exec (.tpfItinerary h o) s =
      .next (enters h o.push g.asc rlx (.tile (.pf false .none none) o.t e (itinerary s4.here p n.toNat) []) s4)) ∧
  (∀ h o s c e g s1 s2, Issues h s → readCoords o.c0 o.c1 o.c2 o.c3 (started h s) = .ok (c, s1) →
    formedEntry o.t none s1 = .ok (e, s2) → (tEnt e).coordsOk c = true → s2.here.tagged o.t c = none → s2.here.grp = some g →
    tagRoom s2.here s2.cur.2 0 = true →
    Sys2Proof.Machine.exec (.tpin h o) s = .next (enters h o.push g.asc rlx (.tile .pin o.t e [c] []) s2)) ∧
  (∀ h o s c e l s1 s2, Issues h s → readCoords o.c0 o.c1 o.c2 o.c3 (started h s) = .ok (c, s1) →
    formedEntry o.t none s1 = .ok (e, s2) → (tEnt e).coordsOk c = true → s2.here.tagged o.t c = some l →
    let first := l.base == .valid && l.pf && !l.pfHit
    let s3 := s2.updCore s2.cur.1 fun k =>
      { k with tclock := k.tclock + 1, cpfhit := if first then count k.cpfhit else k.cpfhit }.setLine
        (hintLine .pin (touchLine { l with pfHit := l.pfHit || first } k))
    tagRoom s3.here s3.cur.2 0 = true →
    Sys2Proof.Machine.exec (.tpin h o) s = .next (enters h o.push .device rlx (.tile .done o.t e [] []) s3)) ∧
  (∀ p ∈ ([(.tunpin, fun l => { l with pin := false }), (.tlast, hintLine .last), (.tstream, hintLine .stream)] :
      List ((Head → TileOp → Instr) × (TileLine → TileLine))),
    ∀ h o s c s1, Issues h s → readCoords o.c0 o.c1 o.c2 o.c3 (started h s) = .ok (c, s1) →
      let s2 := s1.updCore s1.cur.1 fun k => { k with lines := k.lines.map fun l => if namesLine o c l then p.2 l else l }
      tagRoom s2.here s2.cur.2 0 = true →
      Sys2Proof.Machine.exec (p.1 h o) s = .next (enters h o.push .device rlx (.tile .done o.t 0 [] []) s2)) ∧
  (∀ h o s c s1, Issues h s → readCoords o.c0 o.c1 o.c2 o.c3 (started h s) = .ok (c, s1) →
    let ts := (s1.here.lines.filter (namesLine o c)).map (·.c)
    let s2 := s1.updCore s1.cur.1 fun k =>
      { k with lines := k.lines.map fun l => if namesLine o c l then { l with discard := true } else l }
    tagRoom s2.here s2.cur.2 0 = true →
    Sys2Proof.Machine.exec (.tinv h o) s = .next (enters h o.push .device rlx (.tile .inv o.t 0 ts []) s2)) ∧
  (∀ h o s c ts s1 s2, Issues h s → readCoords o.c0 o.c1 o.c2 o.c3 (started h s) = .ok (c, s1) →
    startWriteBacks o c (scopeOr o.asc) s1 = .ok (ts, s2) → tagRoom s2.here s2.cur.2 0 = true →
    Sys2Proof.Machine.exec (.twb h o) s = .next (enters h o.push (scopeOr o.asc) rlx (.tile .wb o.t 0 ts []) s2)) ∧
  (∀ h o s c e x ts s1 s2 s3 s4, Issues h s → readCoords o.c0 o.c1 o.c2 o.c3 (started h s) = .ok (c, s1) →
    formedEntry o.t none s1 = .ok (e, s2) → editionHandle e false s2 = .ok (x, s3) →
    startWriteBacks o c (scopeOr o.asc) s3 = .ok (ts, s4) → tagRoom s4.here s4.cur.2 0 = true →
    Sys2Proof.Machine.exec (.tcmt h o) s = .next (enters h o.push (scopeOr o.asc) ⟨scopeOr o.asc, { g := true, t := true }, .rel⟩
      (.tile .commit o.t e ts (if o.all then [] else [c])) s4)) ∧
  (∀ h o s w e hd va v b s1 s2 s3 r y wy ey hy u1 u2 u3 u4, Issues h s →
    let kept := (s.here.slot s.cur.2).entry
    let fits := fun (s : State) => s.here.reqEd.any (·.1 = o.t) = true ∨ s.here.reqEd.length < 128
    let waits : Order := ⟨o.asc, { g := true, t := true }, .acq⟩
    readS o.w (started h s) = .ok (w, s1) → formedEntry o.t kept s1 = .ok (e, s2) → fits s2 →
    editionHandle e true s2 = .ok ((hd, va), s3) → guardOrder h .t waits s3 = .ok ((), s3) → (s.here.slot s.cur.2).failed = false →
    (s.updCore s.cur.1 (·.updSlot s.cur.2 fun t => { t with entry := some e })).readVa s.cur.1 (s.here.ctxId.getD 0)
      { viaHandle hd false with acq := true } va 8 = (r, .ok b) →
    v = BitVec.ofNat 64 (leNat b) → (o.nowait = true ∨ w.toNat ≤ v.toNat) → y = r.updCore s.cur.1 (startIssue h s.cur.2) →
    readS o.w y = .ok (wy, u1) → formedEntry o.t kept u1 = .ok (ey, u2) → fits u2 → editionHandle ey true u2 = .ok (hy, u3) →
    guardOrder h .t waits u3 = .ok ((), u3) → writeS o.d v (u3.updCore u3.cur.1 (raiseRequired o.t v)) = .ok ((), u4) →
    tagRoom u4.here u4.cur.2 0 = true →
    Sys2Proof.Machine.exec (.tedacq h o) s = .next (enters h o.push .device rlx (.tile .done o.t 0 [] []) u4)))

/-- COMPLETION_SEQUENCE: once the four slots have ended and the engines are done, pins are cleared and dirty lines begin their write-backs; with none left and every access performed, slots that still land are awaited; otherwise the completion is released at the launch entry's scope and the core is free. (14 R310, 18 R388) -/
def Obligations.CompletionSequenceSteps : Prop :=
  ∀ c s g, (s.core c).grp = some g → (s.core c).stat = .running → (s.core c).pre = none → (s.core c).repins = [] →
    (s.core c).ended = true → (s.core c).pend = [] → (s.core c).enginesDone = true →
    ((s.core c).lines.any (fun l => l.pin || (l.dirty && l.base == .valid)) = true →
      Sys2Proof.Machine.exec (.completionSequence c) s = .next (s.setCore c (startBacks { s.core c with
        lines := (s.core c).lines.map fun l => { l with pin := false, asc := g.asc } }))) ∧
    ((s.core c).lines.any (fun l => l.pin || (l.dirty && l.base == .valid)) = false → (s.core c).writingBack = false →
      (s.core c).acc.all (·.kind.isDone) = true →
      ((s.core c).landing = true → (s.core c).landSince = none → Sys2Proof.Machine.exec (.completionSequence c) s =
        .next (s.setCore c { s.core c with landSince := some (s.cycle c.die) })) ∧
      ((s.core c).landing = false → Sys2Proof.Machine.exec (.completionSequence c) s = .next (s.complete c g)))

/-- PREEMPTION PREEMPTION_BOUND_EXPIRY PREEMPTION_SAVE: stopping goes on to settling once the accesses and fills are done, settling to draining, draining to ready once no slot lands; at the bound the slots still awaited are torn with cause 2; a ready group is saved to the lowest free save slot of its context, and its core is free. (14 R315, 14 R316, 11 R269) -/
def Obligations.PreemptionSteps : Prop :=
  (∀ c cause s, (s.core c).grp.isSome = true → (s.core c).preCause = cause →
    ((s.core c).pre = some .stopping → (s.core c).accessesDone = true → (s.core c).fillsDone = true →
      Sys2Proof.Machine.exec (.preemption c cause) s = .next (s.setCore c (settleForSave (s.cycle c.die) (s.core c)))) ∧
    ((s.core c).pre = some .settling → (s.core c).settledForSave = true → s.recordsOut c = false → Sys2Proof.Machine.exec (.preemption c cause) s =
      .next (s.setCore c { s.core c with pre := some (.draining (s.cycle c.die)) })) ∧
    (∀ t, (s.core c).pre = some (.draining t) → (s.core c).landing = false → Sys2Proof.Machine.exec (.preemption c cause) s =
      .next (s.setCore c { s.core c with pre := some .ready }))) ∧
  (∀ c s g t, (s.core c).grp = some g → (s.core c).landingSince = some t → t + g.peb ≤ s.cycle c.die →
    Sys2Proof.Machine.exec (.preemptionBoundExpiry c) s = .next (s.tear c awaitsLanding 2)) ∧
  (∀ c s g x n, (s.core c).grp = some g → (s.core c).pre = some .ready → s.ctx? g.ctx = some x → s.lowestSlot x = some n →
    ∃ t, Sys2Proof.Machine.exec (.preemptionSave c) s = .next t ∧ (t.core c).grp = none ∧ (t.core c).stat = .free ∧
      ∃ v, t.saved = s.saved ++ [v] ∧ v.ctx = g.ctx ∧ v.slot = n ∧ v.info = g ∧ v.core = dropAdopted (s.core c))

/-- LOAD_DATA_ARRIVAL WRITE_ACKNOWLEDGEMENT: the bytes of a local load (of 4 KiB, any of its 8-byte units at a time), the parts of a load, or the old value of an atomic are written to the destination and the access is performed; a local store is written, an acknowledged store, a FENCE whose covered accesses are performed, a QJOIN whose operations are complete and a table write are performed. That a late result is dropped where a later instruction has taken the destination is the model’s choice (log 11), and so is the draw of the units that a local transfer of 4 KiB moves at a time (log 80). (02 R33, 02 R46, 06 R132, 06 R141, 06 R142, 10 R249, 05 R121) -/
def Obligations.AccessReturns : Prop :=
  (∀ c id s a, (s.core c).access? id = some a →
    (∀ off n, a.kind = .lstore off n none → mayPerform (s.core c) a = true → n ≠ 4096 →
      Sys2Proof.Machine.exec (.loadDataArrival c id) s =
        .next (s.setCore c (retire a (deliver a (extendTo a.ty (leNat (lsRead (s.core c) off n))) (s.core c))))) ∧
    (∀ off, a.kind = .lstore off 4096 none → mayPerform (s.core c) a = true →
      let u := a.units ++ (s.unitsNow a).map fun i => (i, lsRead (s.core c) (off + 8 * i) 8)
      Sys2Proof.Machine.exec (.loadDataArrival c id) s = .next (s.drew.setCore c
        (if u.length < 512 then (s.core c).setAccess { a with units := u }
          else retire a (deliverVec a (BitVec.ofNat 32768 (leNat (unitBytes u))) (s.core c))))) ∧
    (∀ op, a.kind = .mem op true false → a.ended = true → a.parts ≠ [] → a.fault? = none → a.parts.length ≠ 32 →
      Sys2Proof.Machine.exec (.loadDataArrival c id) s =
        .next (s.updCore c fun k => retire a (deliver a (extendTo a.ty (leNat a.bytes)) k))) ∧
    (∀ off n b, a.kind = .lstore off n (some b) → mayPerform (s.core c) a = true → n ≠ 4096 → ∀ also,
      Sys2Proof.Machine.exec (.writeAcknowledgement c id also) s = .next (s.updCore c fun k => retire a (lsWrite off b k))) ∧
    (∀ off b, a.kind = .lstore off 4096 (some b) → mayPerform (s.core c) a = true → ∀ also,
      let k := (s.unitsNow a).foldl (fun k i => lsWrite (off + 8 * i) ((b.drop (8 * i)).take 8) k) (s.core c)
      let u := a.units ++ (s.unitsNow a).map fun i => (i, [])
      Sys2Proof.Machine.exec (.writeAcknowledgement c id also) s =
        .next (s.drew.setCore c (if u.length < 512 then k.setAccess { a with units := u } else retire a k))) ∧
    (∀ e, a.kind = .fence e → fenceReady (s.core c) a e = true → ∀ also,
      Sys2Proof.Machine.exec (.writeAcknowledgement c id also) s =
        .next ((s.fenced c a.ord a.asc).updCore c (retire a))) ∧
    (∀ m, a.kind = .qjoin m → engineBefore (s.core c) a.id (maskQueues m) = false → ∀ also,
      Sys2Proof.Machine.exec (.writeAcknowledgement c id also) s = .next (s.updCore c (retire a))) ∧
    (∀ pa w, a.kind = .tidwr pa w → ∀ also,
      Sys2Proof.Machine.exec (.writeAcknowledgement c id also) s = .next ((s.wrNat pa 8 w.toNat).updCore c (retire a))) ∧
    (∀ op, a.kind = .mem op false true → a.ended = true → a.parts ≠ [] → a.fault? = none → ∀ also,
      Sys2Proof.Machine.exec (.writeAcknowledgement c id also) s =
        .next (((s.ackParts c a also).noteSeq c a).updCore c (retire a))))

/-- COPY_STEP FWR_COMPLETE FATOM_COMPLETE FREQ_STATUS LZPUT_COMPLETE TOKEN_PUSH_RELEASE: a step of CPIN, CPOUT or GATH that is done is followed by the next; a copy record past its last step, and an e4 operation whose records have all come back, is complete: it leaves its queue, its range and scoreboard slot are released, its status or result is written and its token is pushed, or its push is held while the token queue is full; a held push goes on once there is room. (02 R34, 06 R150, 06 R153, 17 R367, 17 R368, 17 R369, 18 R383) -/
def Obligations.EngineQueueEvents : Prop :=
  (∀ c e s o x ctx, (s.core c).ready? e = some o → (s.core c).ctxId = some ctx → copyCtx c (s.core c).ls ctx o = some x → x.r.steps ≤ o.pos →
    o.sent = [] → Sys2Proof.Machine.exec (.copyStep c e) s = .next (s.updCore c (completeOp e o))) ∧
  (∀ c e s o x ctx t, (s.core c).ready? e = some o → (s.core c).ctxId = some ctx → copyCtx c (s.core c).ls ctx o = some x →
    o.sent = [] → o.pos + 1 < x.r.steps → (s.core c).enginesStop = false → queueTag (s.core c) e = true → x.r.kind ≠ 0x23 →
    s.copyRun x o = (t, .done []) →
    Sys2Proof.Machine.exec (.copyStep c e) s =
      .next (t.updCore c fun k => k.setOp e { o with pos := o.pos + 1, status := 0, got := none, waited := 0 })) ∧
  (∀ c id s o off len va, (s.core c).e4Done id = some o → o.kind = .fwr off len va → len ≤ o.pos →
    Sys2Proof.Machine.exec (.fwrComplete c id) s = .next (s.updCore c (completeOp 4 o))) ∧
  (∀ c id s o op ty b x va, (s.core c).e4Done id = some o → o.kind = .fatom op ty b x va →
    Sys2Proof.Machine.exec (.fatomComplete c id) s = .next (s.updCore c fun k =>
      completeOp 4 o (deliverTo o.slot o.id o.dropped o.dest (extendTo ty (o.status % 2 ^ ty.width)) k))) ∧
  (∀ c id s o dst p, (s.core c).e4Done id = some o → o.kind = .freq dst p →
    Sys2Proof.Machine.exec (.freqStatus c id) s = .next (s.updCore c fun k =>
      completeOp 4 o (deliverTo o.slot o.id o.dropped o.dest (BitVec.ofNat 64 o.status) k))) ∧
  (∀ c id s o g off, (s.core c).e4Done id = some o → o.kind = .lzput g off → (bitsOf (leNat g) 96 32 ≤ o.pos ∨ o.status % 2 ^ 16 ≠ 0) →
    Sys2Proof.Machine.exec (.lzputComplete c id) s = .next (s.updCore c fun k =>
      completeOp 4 o (deliverTo o.slot o.id o.dropped o.dest (BitVec.ofNat 64 o.status) k))) ∧
  (∀ c e s o, (s.core c).head? e = some o → o.held = true → tokenRoom o.push (s.core c) = true →
    Sys2Proof.Machine.exec (.tokenPushRelease c e) s = .next (s.setCore c (pushToken o.push
      ((s.core c).setQ e { (s.core c).e[e] with ops := (s.core c).e[e].ops.filter (·.id ≠ o.id) }))))

/-- MATRIX_STEP ACCUMULATOR_STORE_STEP ACCUMULATOR_LOAD_STEP MZCLR_PERFORM: the step of a record at the head of e5, whose tiles are inside their tensors and hit and whose window lies in the accumulator, adds the products to a valid accumulator, writes the window to the tile, or writes the tile to the window, and then the hints act on the operand lines, the step is counted and the record goes on or completes, the cycles that it was parked being counted; MZCLR makes its accumulator zero, or invalid, and completes. (09 R228, 09 R232, 09 R238, 09 R239) -/
def Obligations.MatrixStepResult : Prop :=
  (∀ c s o x k1 x0 x1 s1 la s2 lb z, (s.core c).head? 5 = some o → matOp? o = some x → o.failed = none → (s.core c).enginesStop = false →
    o.held = false → engineMayBegin (s.core c) 5 o.id = true → (matKind x.rec_ = 0x10 ∨ matKind x.rec_ = 0x11) →
    matSteps x.rec_ ≠ 0 → applyAccm x (s.core c) = (k1, x0) →
    x1 = { x0 with op := x0.op.waitedTo (s.cycle c.die) true } →
    let r := x1.rec_
    let i := matLoop r x1.op.pos
    let ca := matCoords x1.b[0] (matSa r) i
    let cb := matCoords x1.b[1] (matSb r) i
    let row := matWindow r x1.b[2] i 0
    let col := matWindow r x1.b[2] i 1
    let a := tEnt (x1.ent 0)
    let b := tEnt (x1.ent 1)
    (s.setCore c k1).operand c x1 (matTa r) (x1.ent 0) ca [] false = (s1, some la) →
    s1.operand c x1 (matTb r) (x1.ent 1) cb [la] false = (s2, some lb) →
    windowBad row col a.t[1] b.t[1] = false → (s2.core c).z[matZd r] = some z →
    let p : Product := ⟨a, b, la.data, lb.data, ca[0].toNat, cb[0].toNat⟩
    let k2 := countTerms p (matRecB r) { s2.core c with
      z := (s2.core c).z.set (matZd r) (some (putWindow z row.toNat col.toNat a.t[1] b.t[1] p.element)) }
    Sys2Proof.Machine.exec (.matrixStep c 0) s = .next ((s2.setCore c
      (x1.mark (matHb r) lb (x1.mark (matHa r) la (countOperand b lb.data p.tk b.t[1] p.chunks
        (countOperand a la.data p.tk a.t[1] p.chunks k2))))).stepDone c x1)) ∧
  (∀ c s o x k1 x0 x1 z s1 l, (s.core c).head? 5 = some o → matOp? o = some x → o.failed = none → (s.core c).enginesStop = false →
    o.held = false → engineMayBegin (s.core c) 5 o.id = true → matKind x.rec_ = 0x12 → matSteps x.rec_ ≠ 0 →
    applyAccm x (s.core c) = (k1, x0) →
    x1 = { x0 with op := x0.op.waitedTo (s.cycle c.die) true } →
    let r := x1.rec_
    let i := matLoop r x1.op.pos
    let ca := matCoords x1.b[0] (matSa r) i
    let row := matWindow r x1.b[2] i 0
    let col := matWindow r x1.b[2] i 1
    let a := tEnt (x1.ent 0)
    a.coordsOk ca = true → windowBad row col a.t[1] a.t[0] = false → k1.z[matZd r] = some z →
    (s.setCore c k1).operand c x1 (matTa r) (x1.ent 0) ca [] true = (s1, some l) →
    let v := a.encodeLine (matRm r) ((List.range a.count).map fun n => if a.inside (a.place ca n) then
      some (fpDecode fp32 (accGet z (row.toNat + n / a.t[0]) (col.toNat + n % a.t[0]))) else none)
    Sys2Proof.Machine.exec (.accumulatorStoreStep c 0) s = .next ((s1.updCore c fun k => x1.mark (matHa r) l
      (k.setLine (writtenLine (x1.look (s1.core c) (matTa r) (x1.ent 0) ca .none) v l))).stepDone c x1)) ∧
  (∀ c s o x k1 x0 x1 s1 l, (s.core c).head? 5 = some o → matOp? o = some x → o.failed = none → (s.core c).enginesStop = false →
    o.held = false → engineMayBegin (s.core c) 5 o.id = true → matKind x.rec_ = 0x13 → matSteps x.rec_ ≠ 0 →
    applyAccm x (s.core c) = (k1, x0) →
    x1 = { x0 with op := x0.op.waitedTo (s.cycle c.die) true } →
    let r := x1.rec_
    let i := matLoop r x1.op.pos
    let row := matWindow r x1.b[2] i 0
    let col := matWindow r x1.b[2] i 1
    let a := tEnt (x1.ent 0)
    (s.setCore c k1).operand c x1 (matTa r) (x1.ent 0) (matCoords x1.b[0] (matSa r) i) [] false = (s1, some l) →
    windowBad row col a.t[1] a.t[0] = false →
    let z := putWindow (((s1.core c).z[matZd r]).getD 0) row.toNat col.toNat a.t[1] a.t[0] fun j1 j0 _ =>
      roundF32 (a.valAt l.data (j0 + a.t[0] * j1))
    let k2 := { s1.core c with z := (s1.core c).z.set (matZd r) (some z) }
    let k3 := if blockFmt a.cfmt then
      (List.range (a.count / 32)).foldl (fun k b => countBlock a.cf (a.scaleOf l.data (32 * b)) k) k2 else k2
    Sys2Proof.Machine.exec (.accumulatorLoadStep c 0) s = .next ((s1.setCore c (x1.mark (matHa r) l k3)).stepDone c x1)) ∧
  (∀ c s o (z : Fin 8) inv, (s.core c).ready? 5 = some o → o.kind = .mzclr z inv → (s.core c).enginesStop = false →
    Sys2Proof.Machine.exec (.mzclrPerform c) s = .next (s.updCore c fun k =>
      completeOp 5 o { k with z := k.z.set z (if inv then none else some 0) }))

/-- FILL_COMPLETE FILL_FAULT WRITE_BACK_ACK PINNED_FULL_BOUND_EXPIRY: the fill at the head of e0 makes its line valid with the tile read; a fill that faults gives its line up, silently for a prefetch; a line that is writing back and has met no fault ends once it is written and acknowledged; a waiter, of the V slot, of the M slot or of a record step of e5, whose candidates stayed pinned for the bound leaves the replay queue and raises the pinned-full fault, which also stops the record. (08 R201, 08 R203, 08 R204, 08 R209, 09 R234) -/
def Obligations.TileEvents : Prop :=
  (∀ c line s o l v ks s1, (s.core c).fillHead line = some (o, l) → s.fillTile c l.ctx l.ent l.c = (s1, .ok (v, ks)) →
    Sys2Proof.Machine.exec (.fillComplete c line) s = .next
      ((s1.updCore c fun k => (k.popFill o).setLine { l with base := .valid, data := v, keys := ks }).settleTiles c)) ∧
  (∀ c line s o l f s1, (s.core c).fillHead line = some (o, l) → s.fillTile c l.ctx l.ent l.c = (s1, .error f) →
    let s2 := s1.updCore c fun k => (k.popFill o).loseLine l
    Sys2Proof.Machine.exec (.fillFault c line) s = .next ((if l.origin.silent then s2.updCore c countDropped
      else s2.raiseFill c l f.code).settleTiles c)) ∧
  (∀ c line s l s1, (s.core c).lineIdx line = some l → l.base = .writingBack → (s.core c).stopped l = false → l.out = none →
    s.writeTile c l = (s1, .done, []) →
    Sys2Proof.Machine.exec (.writeBackAck c line) s = .next ((s1.updCore c (endWriteBack l)).settleTiles c)) ∧
  (∀ c line s l, (s.core c).lineIdx line = some l → l.base = .writingBack → (s.core c).stopped l = false → l.out = some [] →
    Sys2Proof.Machine.exec (.writeBackAck c line) s = .next ((s.updCore c (endWriteBack l)).settleTiles c)) ∧
  (∀ c s g w, let s1 := s.countPinned c
    (s1.core c).grp = some g →
    (s1.core c).replay.find? (fun w => w.since.any fun t => t + g.pfb ≤ s1.cycle c.die) = some w →
    let f := pinnedFault w.tens w.c ((s1.core c).waiterOrigin w)
    let k1 : Core := { (s1.core c).unpark w.who with
      acc := (s1.core c).acc.map fun a => if w.who = .m a.id then { a with raised := true } else a }
    let k2 : Core := match w.who, k1.head? 5 with
      | .e5, some o => failRecord (o.waitedTo (s1.cycle c.die) false) f k1
      | _, _ => k1
    Sys2Proof.Machine.exec (.pinnedFullBoundExpiry c) s = .next (raiseFault c f (.fill [w.who]) (s1.setCore c k2)) ∧
      k2.waiter? w.who = none)

/-- SLICE_REQUEST_ARRIVAL BARRIER_ARRIVAL SLICE_FILL_DATA_ARRIVAL OWNERSHIP_BACKOFF_EXPIRY TRANSLATION_WALK: a load, store or atomic, and an arrival under its own event, reaches its slice, an atomic with the ownership of its line, or it waits for its back-off, which is counted; an arrival at a resident line is performed there; the data of a miss arrive and its waiting requests are performed in order; a delayed atomic takes ownership once its back-off has passed; a walk may first read some of its words, caches the leaf once it has all, or fails the accesses that wait for the page. (10 R259, 10 R261, 06 R139, 15 R322, 16 R331, 16 R332) -/
def Obligations.SliceEvents : Prop :=
  (∀ c id part ch s a p l x, (s.core c).access? id = some a → a.kind.isArrival = false → a.parts[part]? = some p →
    p.stage = .sent → mayPerform (s.core c) a = true → s.partLeaf c p.va.toNat = some (l, x) →
    s.leafCheck x a.peer (if p.op.isAtomic then .atomic else if p.op = .load then .read else .write) l = none →
    l.isPeer = false → ch.useCopy = false → ch.keepCopy = false → ch.evict = none →
    let pt := s.partOf x
    let line := lineOf (s.redirect pt (l.phys p.va.toNat))
    let far := s.farCheck pt l (l.phys p.va.toNat) false
    let owns := p.op.isAtomic && !(s.pairAt pt (l.phys p.va.toNat)).isSome
    let path := reqPath c (if p.op.isAtomic then s.homeDie pt (128 * line) else s.ordDie pt line)
      (s.pairAt pt (l.phys p.va.toNat)).isSome far.port
    far.fault = none → s.linksUp path = true → (owns = true → s.ownerBusy c line = false) →
    let s1 := (s.updCore c (countTier far)).carried path
    let waits := owns && s1.backingOff pt c line
    let s2 := if owns then s1.takeOwnership pt c line else s1
    (waits = true → Sys2Proof.Machine.exec (.sliceRequestArrival c id part ch) s = .next
      ((s1.setPart c id part .atSlice).updCore c fun k => { k with aboff := count k.aboff })) ∧
    (waits = false →
      Sys2Proof.Machine.exec (.sliceRequestArrival c id part ch) s = .next (s2.arrive (s2.ordDie pt line) line ⟨c, id, part⟩))) ∧
  (∀ c id s a p l x v tag die at' t, (s.core c).access? id = some a → a.kind.isArrival = true → a.parts = [p] → p.op.isAtomic = true →
    p.stage = .sent → mayPerform (s.core c) a = true → s.partLeaf c p.va.toNat = some (l, x) →
    s.leafCheck x a.peer .atomic l = none → l.isPeer = false →
    let pt := s.partOf x
    let line := lineOf (s.redirect pt (l.phys p.va.toNat))
    let far := s.farCheck pt l (l.phys p.va.toNat) false
    let inPair := (s.pairAt pt (l.phys p.va.toNat)).isSome
    let path := reqPath c (s.homeDie pt (128 * line)) inPair far.port
    far.fault = none → s.linksUp path = true → (inPair = true ∨ s.ownerBusy c line = false) →
    let s1 := (s.updCore c (countTier far)).carried path
    (inPair = true ∨ s1.backingOff pt c line = false) →
    let s2 := if inPair then s1 else s1.takeOwnership pt c line
    s2.mshrs.any (fun m => m.line = line) = false → s2.ingress.any (fun q => s2.reqLine q.2 = some line) = false →
    (s2.ownLine line).any (fun o => s2.needOf ⟨c, id, 0⟩ &&& ~~~ o.valid = 0) = true → (s2.core c).access? id = some a → s2.partLeaf c p.va.toNat = some (l, x) →
    (if releases a.ord then s2.releaseAt c a.asc else s2).performPart c a p l x = (t, .done v tag die at') →
    Sys2Proof.Machine.exec (.barrierArrival c id) s = .next (t.setPart c id 0 (.done v tag die at'))) ∧
  (∀ die line s m r rest, s.mshrs.find? (fun m => m.die = die && m.line = line) = some m → m.waiting = r :: rest →
    let part := ((s.core r.core).ctxId.map s.partOf).getD 0
    s.asleepAt part line = false →
    let s1 := s.ensureSectors part line (s.hintOf m) ((m.waiting.map s.needOf).foldl (· ||| ·) 0)
    Sys2Proof.Machine.exec (.sliceFillDataArrival die line) s = .next ((m.waiting.foldl State.serve
      { s1 with mshrs := s1.mshrs.filter fun x => !(x.die = die && x.line = line) }).drainIngress)) ∧
  (∀ c id s a p l x, (s.core c).access? id = some a → a.parts = [p] → s.partLeaf c p.va.toNat = some (l, x) → p.stage = .atSlice →
    p.op.isAtomic = true → l.isPeer = false → s.isHeld (.access c id) = false →
    let pt := s.partOf x
    let line := lineOf (s.redirect pt (l.phys p.va.toNat))
    s.backingOff pt c line = false → s.ownerBusy c line = false → s.mshrs.any (fun m => m.waiting.contains ⟨c, id, 0⟩) = false →
    s.ingress.any (fun q => q.2 = ⟨c, id, 0⟩) = false →
    let s1 := s.takeOwnership pt c line
    Sys2Proof.Machine.exec (.ownershipBackoffExpiry c id) s = .next (s1.arrive (s1.ordDie pt line) line ⟨c, id, 0⟩)) ∧
  (∀ c va cached s x, let page := va.toNat / 65536
    let mine := ((s.core c).walks.take 32).find? (·.page = page)
    (mine.isSome = true ∨ ((s.core c).walksPage va.toNat = false ∧ (s.core c).missing page = true)) →
    (s.core c).ctxId.bind s.ctx? = some x →
    let held := (mine.map (·.held)).getD []
    let r := if cached then s.walkCached (s.core c) x va.toNat held else s.walk x va.toNat held
    let s1 := s.touchWalk r
    let k1 := { installWalk r (s.core c) with
      walks := (s.core c).walks.filter (·.page ≠ page), xwalk := if mine.isNone then count (s.core c).xwalk else (s.core c).xwalk }
    let k2 := match r.leaf with
      | .ok _ => k1
      | .error f => failParts va.toNat f k1
    Sys2Proof.Machine.exec (.translationWalk c va cached) s = .next (match s1.firstWords mine r with
      | some w => s1.drew.setCore c { s.core c with walks := (s.core c).walks.map fun (m : Walk) => if m.page = page then w else m }
      | none => s1.setCore c (finishPgpf page (walkStatus r) k2)))

/-- ACK_RECORD_RECEIVE NAK_RECORD_RECEIVE RESULT_RECORD_RECEIVE: an answer that waits is taken. An acknowledgement ends the records of the frame it names, those excepted that want a result or whose nak waits (the reading of the model, log 74); a nak takes its record from its frame, sets it aside where its operation may be retried, and gives the operation the code, the detail and for a barrier its COUNT; a result is given to the atomic that asked for it. (17 R355, 17 R368, 17 R372) -/
def Obligations.AnswersReceived : Prop :=
  (∀ link ki fn s s1 l f, s.takeAnswer link (isAck ki fn) = some s1 → s1.link? link = some l → l.tx.find? (·.named ki fn) = some f →
    f.records.all (fun t => isRequest t.rec_) = true →
    let keep := f.records.filter fun t => t.rec_.fl.getLsbD 1 || s1.nakWaits link t
    let ended := f.records.filter fun t => !s1.nakWaits link t
    (keep = [] → Sys2Proof.Machine.exec (.ackRecordReceive link ki fn) s =
      .next (ended.foldl State.acked (s1.setLink link { l.countAck ki with tx := l.tx.filter fun x => !x.named ki fn }))) ∧
    (keep ≠ [] → Sys2Proof.Machine.exec (.ackRecordReceive link ki fn) s = .next (ended.foldl State.acked
      (s1.setLink link { l.countAck ki with tx := l.tx.map fun x => if x.named ki fn then { x with records := keep } else x })))) ∧
  (∀ link rtag code detail s s1 l t, s.takeAnswer link (isNak rtag code detail) = some s1 → s1.link? link = some l →
    l.recOf rtag = some t →
    (keepsRec (s1.core t.core) t = true → Sys2Proof.Machine.exec (.nakRecordReceive link rtag code detail) s =
      .next ((s1.setLink link (l.loseRec t)).nakked t code detail (s.nakCount link rtag code detail))) ∧
    (keepsRec (s1.core t.core) t = false → Sys2Proof.Machine.exec (.nakRecordReceive link rtag code detail) s =
      .next ((s1.setLink link (l.dropRec rtag)).nakked t code detail (s.nakCount link rtag code detail)))) ∧
  (∀ link rtag old s s1 l t, s.takeAnswer link (isResult rtag old) = some s1 → s1.link? link = some l → l.recOf rtag = some t →
    t.rec_.fl.getLsbD 1 = true → Sys2Proof.Machine.exec (.resultRecordReceive link rtag old) s =
      .next ((s1.setLink link (l.dropRec rtag)).updCore t.core (resultRec t old)))

/-- MESSAGE_APPEND LZGRANT_STATUS LZADOPT_COMPLETE: the message at the head of its stream to a ring is appended, or refused, and its status 0, 1 or 2 is written; a grant within the package is delivered in the same way, in issue order with the messages of its slot to its ring, and a grant to another device takes the status that came back, and another status than 0 makes a slot that is still reserved under the number of the grant offered again; a blocked LZADOPT is tried again. (06 R155, 18 R382, 18 R384) -/
def Obligations.MessagesAndGrantsEnd : Prop :=
  (∀ c id s a ctx dst b, (s.core c).access? id = some a → (s.core c).ctxId = some ctx → a.kind = .msend dst b →
    s.earlierMsg c a = false → mayPerform (s.core c) a = true →
    let s1 := s.cross (dieHop c.die (Fin.ofNat 4 (bitsOf dst.toNat 8 2)))
    ((2 ^ 14 ≤ dst.toNat || dst.toNat.testBit 7) = true →
      Sys2Proof.Machine.exec (.messageAppend c id) s = .next (s1.updCore c fun k => retire a (deliver a 2 k))) ∧
    (∀ rc r, (2 ^ 14 ≤ dst.toNat || dst.toNat.testBit 7) = false → coreOfWord (bitsOf dst.toNat 0 7) (bitsOf dst.toNat 8 2) = some rc →
      s.ringOf ctx rc (bitsOf dst.toNat 10 4) = some r →
      let k := ringAppend (s.core rc) r (ringHeader b.length c.core.val c.die.val 0) b
      (k.2 = true → Sys2Proof.Machine.exec (.messageAppend c id) s =
        .next ((s1.setCore rc k.1).updCore c fun k => retire a (deliver a 0 k))) ∧
      (k.2 = false → Sys2Proof.Machine.exec (.messageAppend c id) s =
        .next ((s1.setCore rc k.1).updCore c fun k => retire a (deliver a 1 k))))) ∧
  (∀ c id s a ctx z j w b, (s.core c).access? id = some a → (s.core c).ctxId = some ctx → a.kind = .lzgrant z j w b →
    (BitVec.ofNat 16 (bitsOf w.toNat 0 16) = s.device → s.earlierMsg c a = false → mayPerform (s.core c) a = true →
      let s0 := s.cross (dieHop c.die (Fin.ofNat 4 (bitsOf w.toNat 23 2)))
      let s1 := if releases a.ord then s0.releaseAt c a.asc else s0
      let d := s1.deliverMsg ctx c (bitsOf w.toNat 16 7) (bitsOf w.toNat 23 2) (bitsOf w.toNat 25 4) b
      Sys2Proof.Machine.exec (.lzgrantStatus c id) s = .next (d.1.updCore c (endGrant a z j d.2 b))) ∧
    (BitVec.ofNat 16 (bitsOf w.toNat 0 16) ≠ s.device → a.raised = true →
      Sys2Proof.Machine.exec (.lzgrantStatus c id) s = .next (s.updCore c (endGrant a z j a.wv.toNat b)))) ∧
  (∀ c s h o s1 x s2 t, (s.core c).adopting = some (h, o) → let s0 := { s with cur := (c, .a) }
    Issues h s0 → started h s0 = s1 → adoption o (s0.here.slot .a).entry s1 = .ok (x, s2) → s2.tryAdopt c x = .done t →
    Sys2Proof.Machine.exec (.lzadoptComplete c) s =
      .next { forgetEntry (t.updCore c fun k => { k with adopting := none }) with cur := s.cur })

/-- WRITE_RECORD_PERFORM ATOMIC_RECORD_PERFORM REQUEST_RECORD_APPEND LANDING_RECORD_RECEIVE: a record of its kind whose link carries answers, that no barrier holds, that its stream has not performed, that is in turn and whose length its kind allows crosses the die link to the die that performs it: a write or an atomic that an entry of the inbound aperture table admits is performed at the memory it names; a request is appended to the ring it names, or refused where the ring is full (with code 0 and detail 1: the model's choice, log 14, since R365 gives a full ring no code); a landing record that passes every check lands in its slot. (17 R355, 17 R365, 17 R366, 18 R379) -/
def Obligations.RecordsReceived : Prop :=
  (∀ k s (r : InRec) s1, s.inrecs[k]? = some r → s.answerable r = true → s.isHeld (.record r) = false →
    (s.streamOf r).duplicate r.rec_.sseq = false → (s.streamOf r).inTurn r.rec_.sseq = true →
    (∀ e t, r.rec_.op = 0x01 → recLenOk r.rec_ = true → s.iatMemory r false = some e → s.inward (s.recDie e r.rec_.pa.toNat) r = s1 →
      s1.writePieces e (piecesOf r.rec_.pa.toNat r.rec_.payload.length) r.rec_.payload = .ok t →
      Sys2Proof.Machine.exec (.writeRecordPerform k) s = .next (t.performed r [])) ∧
    (∀ e key op ty t old, r.rec_.op = 0x02 → recLenOk r.rec_ = true → s.iatMemory r true = some e →
      s.inward (s.recDie e r.rec_.pa.toNat) r = s1 → s1.inboundCheck e r.rec_.pa.toNat = .ok key →
      AOp.ofNum r.rec_.aop.toNat = some op → Fmt.ofCode r.rec_.ty.toNat = some ty →
      s1.atomicLine (s1.partOf e.ctx) ⟨key, e.wv, e.wvm⟩ r.rec_.pa.toNat op ty (leNat (r.rec_.payload.take ty.bytes))
        (leNat ((r.rec_.payload.drop ty.bytes).take ty.bytes)) = (t, .ok old) →
      Sys2Proof.Machine.exec (.atomicRecordPerform k) s = .next
        ((t.dropCopies [0, 1, 2, 3] (lineOf r.rec_.pa.toNat)).performed r (natLe ty.bytes old))) ∧
    (∀ c x, r.rec_.op = 0x03 → recLenOk r.rec_ = true → s.requestRing r = some (c, x) → s.inward c.die r = s1 →
      let m := ringAppend (s1.core c) x (ringHeader r.rec_.len.toNat ((recScore r.rec_).toNat % 128) 0xFF r.sdev.toNat) r.rec_.payload
      (m.2 = true → Sys2Proof.Machine.exec (.requestRecordAppend k) s = .next ((s1.setCore c m.1).performed r [])) ∧
      (m.2 = false → Sys2Proof.Machine.exec (.requestRecordAppend k) s = .next ((s1.setCore c m.1).refuse r 0 1))) ∧
    (∀ c x, r.rec_.op = 0x04 → coreOfWord (bitsOf r.dest.toNat 0 7) (bitsOf r.dest.toNat 7 2) = some c →
      s.inward c.die r = s1 → (s1.core c).runsGroup = true → (s1.core c).ctxId = some x → s1.landsIn r x = true → landCheck (s1.core c) r = 0 →
      Sys2Proof.Machine.exec (.landingRecordReceive k) s = .next ((s1.updCore c (landRecord r)).performed r [])))

/-- FABRIC_OUT_RECORD_SEND: e4 sends the next record of the operation at its head, which an earlier acquire or its own release does not hold; which is a write of FWR (at most 1024 bytes within a page), the atomic of FATOM, the request of FREQ, or the next 1024 bytes of LZPUT, over a link or within the package; a part of a store or an ordinary atomic through a peer leaf goes out in a write or atomic record over the link of the leaf's device; a grant to another device goes out as a request record; a release takes its effect at the scope of its ASC as its record goes. That a store of fewer than 8 bytes is a write record of its own length is the model's choice (log 52). (17 R362, 17 R366, 17 R367, 17 R368, 17 R369, 16 R335, 18 R382, 18 R383) -/
def Obligations.FabricRecordSent : Prop :=
  (∀ c s o off len va s1 l i li, (s.core c).ready? 4 = some o → o.kind = .fwr off len va → (s.core c).enginesStop = false →
    e4MaySend (s.core c) o = true → queueTag (s.core c) 4 = true → o.pos < len → s.peerLeaf c .write (va.toNat + o.pos) = (s1, .ok l) →
    s1.linkUse c true (BitVec.ofNat 16 l.pdev) = .carries i li →
    let n := min (min 1024 (len - o.pos)) (l.size - (va.toNat + o.pos) % l.size)
    let b := lsRead (s1.core c) (off + o.pos) n
    let r := s1.opRecord c (BitVec.ofNat 16 l.pdev) true false 0x01 (l.phys (va.toNat + o.pos)) 0 0 b
    let s2 := if releases o.ord then s1.releaseAt c o.asc else s1
    Sys2Proof.Machine.exec (.fabricOutRecordSend c .e4) s = .next
      ((s2.sendFrame c i li ⟨r, 0xFFFF, c, o.id, 0, va.toNat + o.pos⟩ true).updCore c fun k => k.setOp 4 (o.sends r.rtag b.length))) ∧
  (∀ c id part s a p b l x i li, (s.core c).access? id = some a → a.parts[part]? = some p → p.stage = .sent →
    mayPerform (s.core c) a = true → p.op = .store b → s.partLeaf c p.va.toNat = some (l, x) → s.leafCheck x a.peer .write l = none →
    l.isPeer = true → s.linkUse c false (BitVec.ofNat 16 l.pdev) = .carries i li →
    let s1 := if releases a.ord then s.releaseAt c a.asc else s
    let r := s1.opRecord c (BitVec.ofNat 16 l.pdev) false false 0x01 (l.phys p.va.toNat) 0 0 b
    Sys2Proof.Machine.exec (.fabricOutRecordSend c (.access id part)) s = .next
      ((s1.sendFrame c i li ⟨r, 0xFFFF, c, id, part, p.va.toNat⟩ false).setPart c id part .atSlice)) ∧
  (∀ c id part s a p op b e l x i li, (s.core c).access? id = some a → a.parts[part]? = some p → p.stage = .sent →
    mayPerform (s.core c) a = true → p.op = .atomic op b e → s.partLeaf c p.va.toNat = some (l, x) →
    s.leafCheck x a.peer .atomic l = none → l.isPeer = true → s.linkUse c false (BitVec.ofNat 16 l.pdev) = .carries i li →
    let s1 := if releases a.ord then s.releaseAt c a.asc else s
    let r := s1.opRecord c (BitVec.ofNat 16 l.pdev) false (a.dest ≠ .none || a.kind.isCommit) 0x02 (l.phys p.va.toNat) (AOp.num op)
      a.ty.code.toNat (atomPayload op a.ty b e)
    Sys2Proof.Machine.exec (.fabricOutRecordSend c (.access id part)) s = .next
      ((s1.sendFrame c i li ⟨r, 0xFFFF, c, id, part, p.va.toNat⟩ false).setPart c id part .atSlice)) ∧
  (∀ c s o op ty b e va s1 l i li, (s.core c).ready? 4 = some o → o.kind = .fatom op ty b e va → (s.core c).enginesStop = false →
    e4MaySend (s.core c) o = true → queueTag (s.core c) 4 = true → o.pos = 0 → s.peerLeaf c .atomic va.toNat = (s1, .ok l) →
    s1.linkUse c true (BitVec.ofNat 16 l.pdev) = .carries i li →
    let r := s1.opRecord c (BitVec.ofNat 16 l.pdev) true (o.dest ≠ .none) 0x02 (l.phys va.toNat) (AOp.num op) ty.code.toNat
      (atomPayload op ty b e)
    let s2 := if releases o.ord then s1.releaseAt c o.asc else s1
    Sys2Proof.Machine.exec (.fabricOutRecordSend c .e4) s = .next
      ((s2.sendFrame c i li ⟨r, 0xFFFF, c, o.id, 0, va.toNat⟩ true).updCore c fun k => k.setOp 4 (o.sends r.rtag r.payload.length))) ∧
  (∀ c s o dst b i li, (s.core c).ready? 4 = some o → o.kind = .freq dst b → (s.core c).enginesStop = false →
    e4MaySend (s.core c) o = true → queueTag (s.core c) 4 = true → o.pos = 0 →
    let dev := BitVec.ofNat 16 (bitsOf dst.toNat 0 16)
    dst.toNat < 2 ^ 29 → dev ≠ s.device → s.linkUse c true dev = .carries i li →
    let r := s.opRecord c dev true false 0x03 0 0 0 b
    let s1 := if releases o.ord then s.releaseAt c o.asc else s
    let dest := ringDest (bitsOf dst.toNat 16 7) (bitsOf dst.toNat 23 2) (bitsOf dst.toNat 25 4)
    Sys2Proof.Machine.exec (.fabricOutRecordSend c .e4) s = .next
      ((s1.sendFrame c i li ⟨r, dest, c, o.id, 0, dst.toNat⟩ true).updCore c fun k => k.setOp 4 (o.sends r.rtag b.length))) ∧
  (∀ c s o g off, (s.core c).ready? 4 = some o → o.kind = .lzput g off → ((s.core c).enginesStop = false ∨ o.pos ≠ 0) →
    e4MaySend (s.core c) o = true → queueTag (s.core c) 4 = true → o.pos < bitsOf (leNat g) 96 32 → o.status % 2 ^ 16 = 0 →
    let dev := BitVec.ofNat 16 (bitsOf (leNat g) 16 16)
    let dest := BitVec.ofNat 16 (bitsOf (leNat g) 32 16)
    let die := Fin.ofNat 4 (bitsOf dest.toNat 7 2)
    let b := lsRead (s.core c) (off + o.pos) (min 1024 (bitsOf (leNat g) 96 32 - o.pos))
    let r := s.opRecord c dev true false 0x04 (bitsOf (leNat g) 64 16 + 2 ^ 16 * bitsOf (leNat g) 48 6 + 2 ^ 32 * (o.pos / 64)) 0 0 b
    let s1 := if releases o.ord then s.releaseAt c o.asc else s
    (∀ i li, dev ≠ s.device → s.linkUse c true dev = .carries i li → Sys2Proof.Machine.exec (.fabricOutRecordSend c .e4) s = .next
      ((s1.sendFrame c i li ⟨r, dest, c, o.id, 0, 0⟩ true).updCore c fun k => k.setOp 4 (o.sends r.rtag b.length))) ∧
    (∀ s2, dev = s.device → s.dieCut c.die die = false → s1.cross (dieHop c.die die) = s2 →
      Sys2Proof.Machine.exec (.fabricOutRecordSend c .e4) s = .next
        ((({ s2 with inrecs := s2.inrecs ++ [(⟨none, s.device, dest, r, (false, 0)⟩ : InRec)] }).bumpSeq c dev true).updCore c
          fun k => k.setOp 4 (o.sends r.rtag b.length)))) ∧
  (∀ c id s a z j w b i l, (s.core c).access? id = some a → a.kind = .lzgrant z j w b → a.push = none → a.raised = false →
    mayPerform (s.core c) a = true → BitVec.ofNat 16 (bitsOf w.toNat 0 16) ≠ s.device →
    s.linkUse c false (BitVec.ofNat 16 (bitsOf w.toNat 0 16)) = .carries i l →
    let r := s.opRecord c (BitVec.ofNat 16 (bitsOf w.toNat 0 16)) false false 0x03 0 0 0 b
    let s1 := if releases a.ord then s.releaseAt c a.asc else s
    Sys2Proof.Machine.exec (.fabricOutRecordSend c (.msg id)) s = .next
      ((s1.sendFrame c i l ⟨r, ringDest (bitsOf w.toNat 16 7) (bitsOf w.toNat 23 2) (bitsOf w.toNat 25 4), c, id, 0, 0⟩ false).updCore c
        fun k => k.setAccess { a with push := some 0 }))

/-- COPY_ENTRY_TAKE JOIN_ENTRY_TAKE BARRIER_SIGNAL_ENTRY_TAKE WAIT_ENTRY_TAKE COPY_ENTRY_COMPLETE JOIN_SATISFIED BARRIER_SIGNAL_ENTRY_COMPLETE WAIT_SATISFIED: a well-formed entry that is the first of its partition is taken, HEAD advancing: a copy goes on, a join or wait whose condition does not hold blocks its queue, a signal makes its arrival. A copy that a copy engine serves moves bytes: a free number of them that ends at a line of TO, in stretches of at most 32 lines, upwards or, where TO overlaps FROM above it, downwards (how many engines there are and how a copy is cut is the model's choice, log 83); a copy whose bytes are all moved, a join or wait whose condition holds, and a signal whose arrival is made, complete: DONE advances. (12 R286, 12 R287, 12 R288, 12 R293, 15 R326) -/
def Obligations.QueueEntriesRun : Prop :=
  (∀ ctx n s q x s1 e t p, s.queue? ctx n = some q → s.ctx? ctx = some x → s.headOf q = (s1, .entry e) → s1.first q e = true →
    entIllFormed x e = false → s1.takeEntry q e .running = (t, p) →
    (entKind e = 2 → Sys2Proof.Machine.exec (.copyEntryTake ctx n) s = .next t) ∧
    (entKind e = 3 → Sys2Proof.Machine.exec (.joinEntryTake ctx n) s =
      .next (if t.joined ctx e then t else t.setQueue (p.to .blocked))) ∧
    (∀ u, entKind e = 4 → t.isHeld (.queue p.ctx p.n) = false → t.engineArrive p.ctx (bitsOf e.toNat 64 64) (bitsOf e.toNat 128 16) = (u, .done) →
      Sys2Proof.Machine.exec (.barrierSignalEntryTake ctx n) s = .next (u.setQueue { p with remote := .done })) ∧
    (∀ u b, entKind e = 5 → t.waitMet ctx e = (u, .ok b) →
      Sys2Proof.Machine.exec (.waitEntryTake ctx n) s = .next (if b then u else u.setQueue (p.to .blocked)))) ∧
  (∀ ctx n s q e, s.queue? ctx n = some q → q.entry = some e → q.state ≠ .halted →
    (∀ t, entKind e = 2 → s.copyEngineFor q (entPri e) = true →
      let len := bitsOf e.toNat 192 64
      let edge := copyEdge (copyDown (bitsOf e.toNat 64 64) (bitsOf e.toNat 128 64) len) (bitsOf e.toNat 128 64) len q.moved
      let part := Config.draw s.freeCtr % ((len - q.moved - edge + 127) / 128 + 2)
      let now := if part = 0 then len - q.moved else min (len - q.moved) (edge + 128 * (part - 1))
      s.drew.copyBytes ctx (bitsOf e.toNat 64 64) (bitsOf e.toNat 128 64) len (now / 128 + 1) q.moved now = (t, none) →
      Sys2Proof.Machine.exec (.copyEntryComplete ctx n) s = .next (if q.moved + now = len then
        t.completeEntry { q with moved := q.moved + now } else t.setQueue { q with moved := q.moved + now })) ∧
    (entKind e = 3 → s.joined ctx e = true → Sys2Proof.Machine.exec (.joinSatisfied ctx n) s = .next (s.completeEntry q)) ∧
    (entKind e = 4 → q.remote = .done → Sys2Proof.Machine.exec (.barrierSignalEntryComplete ctx n) s = .next (s.completeEntry q)) ∧
    (∀ t, entKind e = 4 → q.remote = .none → s.isHeld (.queue q.ctx q.n) = false →
      s.engineArrive ctx (bitsOf e.toNat 64 64) (bitsOf e.toNat 128 16) = (t, .done) →
      Sys2Proof.Machine.exec (.barrierSignalEntryComplete ctx n) s = .next (t.completeEntry q)) ∧
    (∀ t, entKind e = 5 → s.waitMet ctx e = (t, .ok true) →
      Sys2Proof.Machine.exec (.waitSatisfied ctx n) s = .next (t.completeEntry q)))

/-- QUEUE_ENGINE_APPEND BARRIER_REOPEN: an append that its release lets go, in the order of cores, writes its entry with its stamp at the index it reserves, raises TAIL and gives the index in its status word; a queue that is absent or not enabled gives status 2, a halted one 3, a full one 1. A resetting barrier with no notification outstanding is open again, and the arrivals held at it are applied in the order in which they came. (12 R285, 12 R291, 12 R292, 15 R322) -/
def Obligations.AppendsAndReopening : Prop :=
  (∀ c id s a ctx qw e, (s.core c).access? id = some a → (s.core c).ctxId = some ctx → a.kind = .append qw e → a.raised = false →
    mayPerform (s.core c) a = true → s.inAppendOrder c ctx qw = true →
    let s1 := (if releases a.ord then s.releaseAt c a.asc else s).cross (idieHop c.die)
    let gives := fun (t : State) (w : Nat) => Sys2Proof.Machine.exec (.queueEngineAppend c id) s =
      .next (t.updCore c fun k => retire a (deliver a (BitVec.ofNat 64 w) k))
    (s1.queue? ctx (BitVec.ofNat 12 qw.toNat) = none → gives s1 2) ∧
    (∀ q x, s1.queue? ctx (BitVec.ofNat 12 qw.toNat) = some q → s1.ctx? ctx = some x →
      (x.qn.toNat ≤ qw.toNat ∨ q.en = false → gives s1 2) ∧
      (qw.toNat < x.qn.toNat → q.en = true →
        (q.state = .halted → gives s1 3) ∧
        (q.state ≠ .halted →
          (q.head.toNat + 2 ^ q.nl ≤ s1.resv q → gives (s1.touch (s1.qdesc ctx q.n) 64) 1) ∧
          (∀ s2, s1.resv q < q.head.toNat + 2 ^ q.nl →
            (s1.touch (s1.qdesc ctx q.n) 64).ctxWrite ctx false (q.entryVa (s1.resv q)) (bytesOf (putField e 448 64 (s1.resv q)) 0 64) = (s2, none) →
            let d := s2.qdesc ctx q.n
            let s3 := (s2.wrNat (d + 24) 8 (s1.resv q + 1)).wrNat (d + 16) 8 (max (s2.tail q) (s1.resv q + 1))
            gives (s3.setQueue { q with state := if q.state = .idle then .armed else q.state, appended := (s3.icycles, (coreIdx c).val) }) (2 ^ 32 * (s1.resv q % 2 ^ 32))))))) ∧
  (∀ pa s, s.resetting.contains pa.toNat = true → s.notifying pa.toNat = false →
    Sys2Proof.Machine.exec (.barrierReopen pa) s = .next ((s.held.filter (s.heldAt pa.toNat)).foldl State.applyHeld
      { s.reopenLine pa.toNat with held := s.held.filter fun h => !s.heldAt pa.toNat h }))

/-- LAUNCH_ENTRY_TAKE LAUNCH_VERSION_ADVANCE LAUNCH_DISPATCH LAUNCH_COMPLETE: a launch entry whose write list and descriptor are read and whose descriptor passes every check becomes a launch; once no earlier launch that lists one of its handles runs, the versions of its single-write handles advance; Geyser then places its groups, or a launch without groups completes; when every group has completed, the arrival at DBAR is made and DONE advances. (12 R289, 12 R293, 13 R299, 13 R307, 15 R326) -/
def Obligations.LaunchStages : Prop :=
  (∀ ctx n s q x s1 e t p s2 wl s3 b (d : Rec128) s4 lay s5 recs s6 argb, s.queue? ctx n = some q → s.ctx? ctx = some x →
    s.headOf q = (s1, .entry e) → s1.first q e = true → entKind e = 1 → entIllFormed x e = false →
    s1.takeEntry q e .running = (t, p) →
    let wn := bitsOf e.toNat 256 8
    let args := bitsOf e.toNat 128 64
    t.launchRead ctx (wn ≠ 0) (bitsOf e.toNat 192 64) (2 * wn) = (s2, .ok wl) →
    (words 2 wn wl).any (4095 < ·) = false → s2.ctxRead ctx false (bitsOf e.toNat 64 64) 128 = (s3, .ok b) →
    d = BitVec.ofNat 1024 (leNat b) → s3.launchRead x.id (kdLayn d ≠ 0) (kdLaya d) (8 * kdLayn d) = (s4, .ok lay) →
    s4.launchRead x.id (kdNrec d ≠ 0) (kdRecs d) (64 * kdNrec d) = (s5, .ok recs) →
    s5.launchRead x.id (!(levelNums.filter (kdLarg d)).isEmpty && args ≠ 0) args 32 = (s6, .ok argb) →
    firstRefused (launchChecks d args (s6.sram x) (.ok lay) (.ok recs) (.ok argb) []) = none →
    Sys2Proof.Machine.exec (.launchEntryTake ctx n) s = .next
      { s6 with launches := s6.launches ++ [newLaunch p e d (layEnts d (.ok lay)) (words 4 8 argb) (words 2 wn wl)] }) ∧
  (∀ ctx n s l q x, s.launch? ctx n = some l → s.queue? ctx n = some q → s.ctx? ctx = some x → l.stage = .versioning →
    s.interlocked l = false →
    let at' := fun (h : BitVec 12) => x.hroot.toNat + 32 * h.toNat
    let u := l.handles.foldl (fun t h => t.touch (at' h) 32) s
    let single := l.handles.filter fun h => u.rdNat (at' h) 1 / 8 % 2 = 0
    single.all (fun h => u.rdNat (at' h + 24) 4 ≠ 0xFFFFFFFF) = true →
    Sys2Proof.Machine.exec (.launchVersionAdvance ctx n) s = .next
      (((single.foldl (fun t h => t.wrNat (at' h + 24) 4 (t.rdNat (at' h + 24) 4 + 1)) u).setQueue (q.to .running)).updLaunch ctx n
        fun l => { l with stage := .advanced })) ∧
  (∀ ctx n s l x, s.launch? ctx n = some l → l.stage = .advanced → s.ctx? ctx = some x → x.state = .active →
    Sys2Proof.Machine.exec (.launchDispatch ctx n) s = .next
      (s.updLaunch ctx n fun l => { l with stage := if l.total = 0 then .completing else .dispatching })) ∧
  (∀ ctx n s l q, s.launch? ctx n = some l → s.queue? ctx n = some q → l.stage = .completing → l.dbar = 0 →
    Sys2Proof.Machine.exec (.launchComplete ctx n) s = .next (((s.completeEntry q).dropLaunch ctx n).finishDrain ctx)) ∧
  (∀ ctx n s l q t, s.launch? ctx n = some l → s.queue? ctx n = some q → l.stage = .completing → l.dbar ≠ 0 → q.remote = .none → s.isHeld (.queue q.ctx q.n) = false →
    s.engineArrive ctx l.dbar.toNat 1 = (t, .done) → ((t.completeEntry q).queue? ctx n).any (·.state = .halted) = false →
    Sys2Proof.Machine.exec (.launchComplete ctx n) s = .next (((t.completeEntry q).dropLaunch ctx n).finishDrain ctx))

/-- GEYSER_BATCH GROUP_START GROUP_RESTORE: a batch of the launch that places next is formed for a die with free cores, or for the die with the most of them where the launch has one sequence; the group that is next starts on the lowest core free for it, its four slots at ENTRY with their preloaded registers; a saved group that goes first returns to the lowest free core of its die. (13 R303, 13 R304, 13 R305, 14 R318) -/
def Obligations.GroupsPlaced : Prop :=
  (∀ part d s l x, s.placing part d = some l → s.ctx? l.ctx = some x → (l.dieLevel = none → s.batchDie x l = some d) →
    Sys2Proof.Machine.exec (.geyserBatch part d) s = .next (s.place x l d)) ∧
  (∀ die part s p l x c cs, s.startNext part die = some (p, l, x) → s.coresFor part die l = c :: cs →
    ∃ t, Sys2Proof.Machine.exec (.groupStart die part) s = .next t ∧ t.placed = (s.startGroup x l p c).placed ∧
      (t.core c).ovfp = overflowBase l.desc c ∧ ∀ sl, (t.core c).slot sl = startSlot (kdEntry l.desc) (l.preload p.g)) ∧
  (∀ ctx save s v x d c cs, s.saved.find? (fun v => v.ctx = ctx && v.slot = save) = some v → s.ctx? ctx = some x →
    s.ctxRuns ctx = true → s.stillFits v x = true → s.resumeDie v = some d → s.restoreFirst v d = true → s.placedFirst v d = false →
    s.freeCores (s.partOf ctx) d = c :: cs →
    Sys2Proof.Machine.exec (.groupRestore ctx save) s = .next (s.restoreGroup v x c))

/-- FAULT_RAISE GROUP_QUIESCENT GRESUME_RETRY GRESUME_SKIP GABORT: on a core that runs a group, the first fault that waits is raised to the group and leaves those that wait; a trapping group whose accesses and queues have come to rest becomes quiescent; where the mailbox takes the command, at a quiescent trapping group of an active context that is not being pre-empted, GRESUME in a mode that every recorded fault admits retries or skips each and lets the group run again; GABORT stops the group, faults its launch and counts its end. (14 R311, 14 R313, 14 R314) -/
def Obligations.TrappingGroups : Prop :=
  (∀ c s g p rest, (s.core c).grp = some g → (s.core c).pend = p :: rest →
    Sys2Proof.Machine.exec (.faultRaise c) s = .next (raiseFault c p.fr p.op (s.setCore c { s.core c with pend := rest }))) ∧
  (∀ c s, (s.core c).stat = .trapping false → (s.core c).atRest = true →
    Sys2Proof.Machine.exec (.groupQuiescent c) s = .next (s.setCore c { s.core c with stat := .trapping true })) ∧
  (∀ ctx arg (mode : Bool) s x n g, let c := s.groupAt ctx n
    groupArg arg mode = some n → s.ctx? ctx = some x → x.state = .active →
    s.saved.any (fun v => v.ctx = ctx && v.core.gcmd = some n) = false → (s.core c).grp = some g → g.ctx = ctx →
    (s.core c).stat = .trapping true → (s.core c).pre = none →
    let at' := fun (op : Nat) => (rung (cmdRecord op ctx arg 0) s).setCore c { s.core c with gcmd := none }
    (mode = true → arg.getLsbD 16 = false → Mails (cmdRecord 0x13 ctx arg 0) s →
      (s.core c).faults.all (fun p => admitsRetry p.fr.code) = true → Sys2Proof.Machine.exec (.gresumeRetry ctx arg) s =
        .next (((((s.core c).faults.foldl (fun t p => t.retryFault c p) (at' 0x13)).updCore c resumeCore).settleTiles c).reply 0)) ∧
    (mode = true → arg.getLsbD 16 = true → Mails (cmdRecord 0x13 ctx arg 0) s →
      (s.core c).faults.all (fun p => admitsSkip p.fr.code) = true → Sys2Proof.Machine.exec (.gresumeSkip ctx arg) s =
        .next (((((s.core c).faults.foldl (fun t p => t.skipFault c p) (at' 0x13)).updCore c resumeCore).settleTiles c).reply 0)) ∧
    (mode = false → Mails (cmdRecord 0x14 ctx arg 0) s → Sys2Proof.Machine.exec (.gabort ctx arg) s =
      .next (((((at' 0x14).abortGroup c).faultLaunch ctx g.queue).endGroup ctx g.queue).reply 0)))

/-- FRAME_RECEIVE RETRANSMISSION_TIMEOUT HEARTBEAT_SEND HEARTBEAT_BOUND_EXPIRY LINK_IDLE_SLEEP LINK_WAKE LINK_WAKE_COMPLETE WAKE_BOUND_EXPIRY: a frame that passes every check is accepted; a frame that is due is sent again, the eighth retransmission being the last; an end that has sent nothing for 2^12 cycles of its die sends a heartbeat (that the far end of a die link is heard at the near one in the same event, and no frame of it is shown, is the model's choice, log 90), where an end has heard nothing for HBB the link fails and over a die link the chiplet at the other end is declared dead; an idle link sleeps, wakes for traffic, and is up when waking is done; a snoop that has waited WAKEB is counted once. (17 R352, 17 R354, 17 R355, 17 R356, 17 R357) -/
def Obligations.LinkTraffic : Prop :=
  (∀ f s l, s.link? f.link = some l → f.fcsOk = true → l.hasKey f.ki = true → f.tagOk = true →
    ¬ (f.ki ≠ l.rxki ∧ l.win = true ∧ l.winL < f.fn) → l.seen.contains (f.ki, f.fn) = false →
    f.records.all (fun r => knownOp r.op) = true → (f.records.any isRequest = true → l.takes = true) →
    (f.records.any (isControl keyUpdateCode) = true → f.ki = (l.window f).rxki → (l.window f).mayInstall = true) →
    Sys2Proof.Machine.exec (.frameReceive f) s = .next (s.acceptFrame (l.window f) f)) ∧
  (∀ i ki fn s l f, s.link? i = some l → l.tx.find? (fun f => f.ki = ki && f.fn = fn && s.dueFrame i l f) = some f →
    (f.lost = true ∨ f.retries < 8 → Sys2Proof.Machine.exec (.retransmissionTimeout i ki fn) s = .next (s.resend i l f)) ∧
    (f.lost = false → 8 ≤ f.retries → Sys2Proof.Machine.exec (.retransmissionTimeout i ki fn) s = .next (s.linkFailure i 3))) ∧
  (∀ i s l, s.link? i = some l →
    ((l.state = .up ∨ l.state = .waking) → l.sentAt + 4096 ≤ s.linkClock i →
      Sys2Proof.Machine.exec (.heartbeatSend i) s = .next (s.answer i (plainRecord 0x20 0 []) false)) ∧
    ((l.state = .up ∨ l.state = .waking) → s.linkClock i < l.sentAt + 4096 → isDieLink i = true →
      l.far.sentAt + 4096 ≤ s.farClock i → Sys2Proof.Machine.exec (.heartbeatSend i) s =
        .next (s.setLink i { l with heardAt := s.linkClock i, far := { l.far with sentAt := s.farClock i } })) ∧
    (∀ t, l.listensFrom false = some t → isDieLink i = false → t + l.hbb.toNat ≤ s.linkClock i →
      Sys2Proof.Machine.exec (.heartbeatBoundExpiry ⟨i, false⟩) s = .next (s.failLink i 4)) ∧
    (∀ t far a b, linkEnds i = [a, b] → l.listensFrom far = some t →
      t + l.hbb.toNat ≤ (if far then s.farClock i else s.linkClock i) → Sys2Proof.Machine.exec (.heartbeatBoundExpiry ⟨i, far⟩) s =
        .next ((s.failLink i 4).declareDead (if far then a else b) 4)) ∧
    (l.state = .up → (l.trafficAt + 2 ^ 20 ≤ s.linkClock i ∨ (isDieLink i = true ∧ l.far.trafficAt + 2 ^ 20 ≤ s.farClock i)) →
      Sys2Proof.Machine.exec (.linkIdleSleep i) s = .next (s.setLink i { l with state := .sleeping })) ∧
    (l.state = .sleeping → s.trafficDue i l = true → Sys2Proof.Machine.exec (.linkWake i) s = .next
      (s.setLink i { l with state := .waking, wakeAt := s.linkClock i, far := { l.far with wakeAt := s.farClock i } })) ∧
    (l.state = .waking → Sys2Proof.Machine.exec (.linkWakeComplete i) s =
      .next (s.setLink i (l.comeUp (s.linkClock i) (s.farClock i)))) ∧
    (∀ w, l.snoops.find? (fun w => !l.overdue.contains w.line &&
        w.since + l.wakeb.toNat ≤ (if w.far then s.farClock i else s.linkClock i)) = some w →
      Sys2Proof.Machine.exec (.wakeBoundExpiry i) s =
        .next (s.setLink i { l with overdue := w.line :: l.overdue, wakeovr := count l.wakeovr })))

/-- KEY_ROLLOVER_START KEY_UPDATE_ACK LINK_TRAINING_DONE LINK_TRAINING_ATTEMPT_FAIL LINK_KEYED_UP LINK_DRAIN_DONE LINK_RECORD_WRITE: a rollover starts at FN 2^47, where the window of the one before has closed (by the sender's own count of acknowledgements, which is the model's choice, log 89), and ends with the new index, FN 0 and the highest number under the old key to be reported; a trained link attests, the sixteenth failed attempt fails the link; a keyed link whose dies are not being reset comes up; a draining link with nothing outstanding is dark and unkeyed; a write of a field of a link record is made. (17 R351, 17 R352, 17 R353, 17 R360) -/
def Obligations.LinkKeysAndTraining : Prop :=
  (∀ i s l, s.link? i = some l →
    (l.state = .up → l.rolling = false → l.closing = none → 2 ^ 47 ≤ l.fn →
      Sys2Proof.Machine.exec (.keyRolloverStart i) s = .next (s.startRollover i)) ∧
    (l.state = .training → (isDieLink i = true ∨ l.pv ≠ 0) → Sys2Proof.Machine.exec (.linkTrainingDone i) s =
      .next (s.setLink i { l with state := .attesting, attempts := 0, wakeAt := s.icycles })) ∧
    (l.state = .training → l.attempts < 15 → Sys2Proof.Machine.exec (.linkTrainingAttemptFail i) s =
      .next (s.setLink i { l with attempts := l.attempts + 1 })) ∧
    (l.state = .training → 15 ≤ l.attempts →
      Sys2Proof.Machine.exec (.linkTrainingAttemptFail i) s = .next (s.linkFailure i 2)) ∧
    (l.state = .keyed → (linkDies i).all (fun d => s.resets[d].isNone) = true →
      Sys2Proof.Machine.exec (.linkKeyedUp i) s = .next (s.setLink i (l.comeUp (s.linkClock i) (s.farClock i)))) ∧
    (l.state = .draining → l.tx.any (fun f => !f.lost && f.operates) = false → s.crossing i = false → s.inrecs.any (fun r => r.link = some i) = false →
      Sys2Proof.Machine.exec (.linkDrainDone i) s = .next ((s.setLink i (l.unkeyed .dark 5)).noteDark i)) ∧
    (∀ f, Sys2Proof.Machine.exec (.linkRecordWrite i f) s = .next (s.setLink i (l.writeField (isDieLink i) f)))) ∧
  (∀ i s s1 l, s.takeAnswer i (isControl keyUpdateAckCode) = some s1 → s1.link? i = some l → l.rolling = true →
    Sys2Proof.Machine.exec (.keyUpdateAck i) s = .next (s1.setLink i { l with
      rolling := false, txki := !l.txki, fn := 0, report := some (BitVec.ofNat 48 (l.fn - 1)), closing := some 0 }))

/-- LINKCTL_BRING_UP LINKCTL_DRAIN LINKCTL_SLEEP LINKCTL_WAKE LINKCTL_REKEY LINKCTL_RESET: where the mailbox takes the command, with a link number below 1040 in bits 15..0, its action in bits 19..16 and every other bit zero, the link trains, drains, sleeps, wakes, begins a rollover or is dark, and the status is 0. (17 R351, 17 R352, 11 R272) -/
def Obligations.LinkCommands : Prop :=
  (∀ arg s l, let r := cmdRecord 0x20 0 arg 0
    let i := BitVec.ofNat 11 (bitsOf arg.toNat 0 16)
    bitsOf arg.toNat 16 4 = 1 → bitsOf arg.toNat 20 44 = 0 → bitsOf arg.toNat 0 16 < 1040 → Mails r s →
    s.linkRecord i = some l → (rung r s).mayTrain i l = true →
    Sys2Proof.Machine.exec (.linkctlBringUp arg) s = .next (((rung r s).setLink i { l with state := .training, attempts := 0 }).reply 0)) ∧
  (∀ arg s l, let r := cmdRecord 0x20 0 arg 0
    let i := BitVec.ofNat 11 (bitsOf arg.toNat 0 16)
    bitsOf arg.toNat 16 4 = 2 → bitsOf arg.toNat 20 44 = 0 → bitsOf arg.toNat 0 16 < 1040 → Mails r s →
    s.linkRecord i = some l → l.state = .up →
    Sys2Proof.Machine.exec (.linkctlDrain arg) s = .next (((rung r s).setLink i { l with state := .draining }).reply 0)) ∧
  (∀ arg s l, let r := cmdRecord 0x20 0 arg 0
    let i := BitVec.ofNat 11 (bitsOf arg.toNat 0 16)
    bitsOf arg.toNat 16 4 = 3 → bitsOf arg.toNat 20 44 = 0 → bitsOf arg.toNat 0 16 < 1040 → Mails r s →
    s.linkRecord i = some l → l.state = .up →
    Sys2Proof.Machine.exec (.linkctlSleep arg) s = .next (((rung r s).setLink i { l with state := .sleeping }).reply 0)) ∧
  (∀ arg s l, let r := cmdRecord 0x20 0 arg 0
    let i := BitVec.ofNat 11 (bitsOf arg.toNat 0 16)
    bitsOf arg.toNat 16 4 = 4 → bitsOf arg.toNat 20 44 = 0 → bitsOf arg.toNat 0 16 < 1040 → Mails r s →
    s.linkRecord i = some l → l.state = .sleeping →
    Sys2Proof.Machine.exec (.linkctlWake arg) s = .next (((rung r s).setLink i { l with
      state := .waking, wakeAt := s.linkClock i, far := { l.far with wakeAt := s.farClock i } }).reply 0)) ∧
  (∀ arg s l, let r := cmdRecord 0x20 0 arg 0
    let i := BitVec.ofNat 11 (bitsOf arg.toNat 0 16)
    bitsOf arg.toNat 16 4 = 5 → bitsOf arg.toNat 20 44 = 0 → bitsOf arg.toNat 0 16 < 1040 → Mails r s →
    s.linkRecord i = some l → l.state = .up → l.rolling = false → l.closing = none →
    Sys2Proof.Machine.exec (.linkctlRekey arg) s = .next (((rung r s).startRollover i).reply 0)) ∧
  (∀ arg s l, let r := cmdRecord 0x20 0 arg 0
    let i := BitVec.ofNat 11 (bitsOf arg.toNat 0 16)
    bitsOf arg.toNat 16 4 = 6 → bitsOf arg.toNat 20 44 = 0 → bitsOf arg.toNat 0 16 < 1040 → Mails r s →
    s.linkRecord i = some l → l.state = .failed →
    Sys2Proof.Machine.exec (.linkctlReset arg) s = .next (((rung r s).setLink i (l.unkeyed .dark 5)).reply 0))

/-- ATTESTATION_COMPLETE ATTESTATION_TIMEOUT DIERESET_ORDERLY DIERESET_FORCED DIE_REJOIN PACKAGE_RESET: a chiplet or peer link whose exchange succeeds at every step, in time and with accepted measurements is in service or keyed, another, or one whose time has run out, is quarantined or dark; an orderly reset pre-empts the die groups and then settles the die, a forced one resets it at once; a die that is reset rejoins when it attests within its bound; package reset keeps memory and what log entry 25 names. The model's choices here: from when the bound of an exchange counts (log 34), which policy judges it (log 36), that key slots return before the links train (log 38), and what package reset keeps (log 25). (17 R348, 17 R349, 17 R350, 17 R358, 17 R359, 17 R360, 11 R276) -/
def Obligations.DiesAttestAndReset : Prop :=
  (∀ c v meas s, s.attests c = true →
    let good := exchangeOk v false = true ∧ s.icycles < s.attestSince c + 2 ^ 28 ∧
      s.policyOk (s.measuredFrom c) (chipKind c) (measDigest meas) = true
    (good → Sys2Proof.Machine.exec (.attestationComplete (.chip c) v meas) s = .next (s.intoService c (measDigest meas)).keyLinks) ∧
    (¬ good → Sys2Proof.Machine.exec (.attestationComplete (.chip c) v meas) s = .next (s.quarantine c)) ∧
    (s.attestSince c + 2 ^ 28 ≤ s.icycles →
      Sys2Proof.Machine.exec (.attestationTimeout (.chip c)) s = .next (s.quarantine c))) ∧
  (∀ i v meas s l, s.link? i = some l → isDieLink i = false → l.state = .attesting →
    let good := exchangeOk v true = true ∧ s.icycles < l.wakeAt + 2 ^ 28 ∧ s.policyOk l.wakeAt 3 (measDigest meas) = true
    (good → Sys2Proof.Machine.exec (.attestationComplete (.peer i) v meas) s = .next (s.setLink i l.keyed)) ∧
    (¬ good → Sys2Proof.Machine.exec (.attestationComplete (.peer i) v meas) s = .next (s.setLink i (l.unkeyed .dark 1))) ∧
    (l.wakeAt + 2 ^ 28 ≤ s.icycles →
      Sys2Proof.Machine.exec (.attestationTimeout (.peer i)) s = .next (s.setLink i (l.unkeyed .dark 1)))) ∧
  (∀ arg s (d : Fin 4), let r := cmdRecord 0x21 0 arg 0
    resetArg arg = some d →
    (arg.getLsbD 8 = false → Mails r s → s.chip (.cdie d) ≠ some .quarantined → s.resets[d] = none →
      Sys2Proof.Machine.exec (.dieresetOrderly arg) s = .next (State.reply
        { ((rung r s).preemptAll (fun c _ => c.die = d) .dieReset).setChip (.cdie d) .resetting with
          resets := s.resets.set d (some ⟨false, false⟩) } 0)) ∧
    (arg.getLsbD 8 = false → s.resets[d] = some ⟨false, false⟩ → (∀ c, c.die = d → (s.core c).grp = none) →
      Sys2Proof.Machine.exec (.dieresetOrderly arg) s = .next (s.settleDie d)) ∧
    (arg.getLsbD 8 = true → Mails r s → s.chip (.cdie d) ≠ some .quarantined → s.resets[d].any (·.forced) = false →
      Sys2Proof.Machine.exec (.dieresetForced arg) s = .next (((rung r s).forceReset d 5).reply 0))) ∧
  (∀ (d : Fin 4) v meas s r, s.resets[d] = some r → r.settled = true →
    (r.forced = false → (dieLinksOf d).any (fun i => (s.link? i).any (·.state.alive)) = false) →
    let since := s.attestSince (.cdie d)
    let u := { (if r.forced then s else s.resetDie d) with resets := s.resets.set d none }
    let good := exchangeOk v false = true ∧ s.icycles < since + 2 ^ 28 ∧ s.policyOk since 0 (measDigest meas) = true
    (good → Sys2Proof.Machine.exec (.dieRejoin d v meas) s =
      .next (((u.intoService (.cdie d) (measDigest meas)).restoreKeys d).trainLinks d)) ∧
    (¬ good → Sys2Proof.Machine.exec (.dieRejoin d v meas) s = .next (u.quarantine (.cdie d))) ∧
    (s.attests (.cdie d) = false → since + 2 ^ 28 ≤ s.icycles →
      Sys2Proof.Machine.exec (.attestationTimeout (.chip (.cdie d))) s = .next (u.quarantine (.cdie d)))) ∧
  (∀ s, let p := State.remapTo { s with slices := [] } { s with parts := [] }
    Sys2Proof.Machine.exec .packageReset s = .next { State.reset with
    agenda := s.agenda, tick := s.tick, freeCtr := s.freeCtr, outbox := s.outbox, variant := s.variant, device := s.device, mem := p.mem,
    lmeta := p.lmeta, poison := p.poison, keyGen := s.keyGen, planes := s.planes, ageing := s.ageing })

/-- SWAP_PAIR_BEGIN SWAP_LINE_EXCHANGE SWAP_PAIR_END FAR_PORT_FAILURE FUMAROLE_SCRUB SELF_REFRESH_ENTRY SELF_REFRESH_EXIT: the PGIN that arrives begins a pair whose leaves are as R345 needs and whose entries no access uses; the lines of a pair that no request awaits are exchanged one after another; a pair whose lines are all exchanged and whose entries no access uses ends; a failed port is noted and the lines of pairs on it poisoned; a scrubbed line counts or is poisoned; an idle pseudo-channel sleeps and wakes for a request that waits. (16 R336, 16 R340, 16 R341, 16 R342, 16 R345, 01 R24) -/
def Obligations.NearMemoryUpkeep : Prop :=
  (∀ part i s c a far near x f n, (s.pgins part)[Config.draw s.freeCtr % (s.pgins part).length]? = some (c, a) →
    a.kind = .pgin far near → (s.core c).ctxId.bind s.ctx? = some x → (s.pairs.filter (·.part = part)).length < 64 →
    s.drew.pairLeaves x far near = .ok (f, n) → s.pair? part i = none →
    let p : SwapPair := ⟨part, i, x.id, f.pa, n.pa, BitVec.ofNat 56 f.va, BitVec.ofNat 56 n.va, f.frame, n.frame, f.size, 0, false,
      c, a.id⟩
    s.drew.unused x.id p.leafOf = true →
    Sys2Proof.Machine.exec (.swapPairBegin part i) s = .next (s.drew.beginPair p)) ∧
  (∀ part i s p, s.pair? part i = some p →
    let a := p.farB / 128 + p.done
    let b := p.nearB / 128 + p.done
    (p.done < p.lines → s.awaited a = false → s.awaited b = false →
      (s.farPort part (128 * a)).any (fun n => s.badPorts.getLsbD n) = false →
      Sys2Proof.Machine.exec (.swapLineExchange part i) s =
        .next ((((s.needChannel part a).needChannel part b).exchangeLines a b).setPair { p with done := p.done + 1 })) ∧
    (p.lines ≤ p.done → s.unused p.ctx p.leafOf = true → Sys2Proof.Machine.exec (.swapPairEnd part i) s = .next (s.endPair p))) ∧
  (∀ (port : Fin 10) s, Sys2Proof.Machine.exec (.farPortFailure port) s = .next
    (s.pairs.foldl (fun s p => s.failPair port.val p) { s with badPorts := s.badPorts ||| BitVec.ofNat 10 (2 ^ port.val) })) ∧
  (∀ line (s : State) part, s.partAt (128 * line) = some part → s.isNear part (128 * line) = true →
    let d : Fin 4 := s.homeDie part (128 * line)
    Sys2Proof.Machine.exec (.fumaroleScrub line .clean) s = .next s ∧
    Sys2Proof.Machine.exec (.fumaroleScrub line .corrected) s = .next { s with scrce := s.scrce.set d (count s.scrce[d]) } ∧
    (∀ m, m ≠ 0 → Sys2Proof.Machine.exec (.fumaroleScrub line (.bad m)) s = .next { s with
      poison := s.poison ++ (((natRange 0 8).filter fun i => m.getLsbD i).map (8 * line + ·)).filter fun p => !s.poison.contains p
      logs := s.logs ++ [(.cdie d, .uncorrectable (128 * line) (s.pseudoOf part (128 * line)))]
      scrue := s.scrue.set d (count s.scrue[d]) })) ∧
  (∀ pc s, ((s.refreshOf pc).asleep = false → s.mshrs.any (fun m => s.pseudoAt m.line = some pc) = false →
      Sys2Proof.Machine.exec (.selfRefreshEntry pc) s = .next (s.setRefresh { s.refreshOf pc with asleep := true })) ∧
    (∀ line rest, (s.refreshOf pc).waiting = line :: rest → (s.refreshOf pc).asleep = true →
      Sys2Proof.Machine.exec (.selfRefreshExit pc) s = .next (s.setRefresh ((s.refreshOf pc).wake line))))

/-- CREATE BIND ACTIVATE RESUME SUSPEND DRAIN KEYDESTROY DESTROY RECLAIM QRESET XLFLUSH FABTAG: each, where the mailbox takes the command, in a state of the context and with an argument that its rule allows, has its effect and gives status 0, CREATE with the identifier in its status word; BIND for a record of slot 0 and for one of a slot from 1 to 15, whose key it installs where the session, the signature, the attestation and the digest pass and the key unwraps, and which it refuses otherwise. The model's choices here: CREATE takes the lowest free identifier (log 28), QRESET leaves the queue of a context that is not active suspended with idle kept (log 30), ACTIVATE clears the handle and tensor tables (log 61), and RESUME resets a queue that was not in use before (log 29). (11 R268, 11 R270, 11 R272, 11 R273, 11 R275, 11 R276, 11 R277, 12 R295, 16 R333) -/
def Obligations.ContextCommands : Prop :=
  (∀ arg s id, Mails (cmdRecord 1 0 arg 0) s → s.freeCtx = some id → arg.toNat % 128 = 0 → arg.toNat < 2 ^ 52 →
    let s1 := rung (cmdRecord 1 0 arg 0) s
    let x := newContext id (arg.setWidth 52)
    Sys2Proof.Machine.exec (.create arg) s = .next ((State.publishCtx
      { s1.wrNat arg.toNat 128 ((s1.rdNat arg.toNat 128 &&& descRw) + id.toNat) with ctxs := s1.ctxs ++ [x] } x).reply (id.toNat * 2 ^ 32))) ∧
  (∀ ctx arg s x, s.ctx? ctx = some x →
    let at' := fun (op : Nat) (a : Word) => rung (cmdRecord op ctx a 0) s
    let may := fun (op : Nat) (a : Word) => Mails (cmdRecord op ctx a 0) s
    let b := (at' 2 arg).cohRead arg.toNat 4864
    let u := (at' 2 arg).touch arg.toNat 4864
    (may 2 arg → arg.toNat % 64 = 0 → x.state = .creating → bindSlot b = 0 → x.keys[(0 : Fin 16)] = none → bindReserved b = true →
      (b.drop 4).all (· = 0) = true → u.partAttested (u.ctxPart x) = true →
      Sys2Proof.Machine.exec (.bind ctx arg) s = .next ((State.updCtx { u with keyGen := s.keyGen + 1 } x.id fun _ =>
        { x with part := u.ctxPart x, state := .keyed, keys := x.keys.set 0 (some s.keyGen),
                 destroyed := x.destroyed.filter (· ≠ 0) }).reply 0)) ∧
    (∀ n : Fin 16, may 2 arg → arg.toNat % 64 = 0 → x.state ≠ .draining → x.state ≠ .destroyed → bindSlot b = n.val → n ≠ 0 →
      x.keys[n] = none →
      let took := bindReserved b && Config.sessionOpen u.tick (bindSession b) && Config.sigOk b && u.partAttested (u.ctxPart x) &&
        bindDigest b = u.partDigest (u.ctxPart x)
      let fresh := x.state = .creating
      let y : Context := { x with
        part := u.ctxPart x, state := (if fresh then .keyed else x.state), keys := (if fresh then x.keys.set 0 (some s.keyGen) else x.keys),
        destroyed := (if fresh then x.destroyed.filter (· ≠ 0) else x.destroyed) }
      let bound := fun k : BitVec 256 => (State.updCtx { u with keyGen := if fresh then s.keyGen + 1 else s.keyGen } x.id fun _ =>
        { y with keys := y.keys.set n (some (2 ^ 256 + k.toNat)), digests := y.digests.set n (some (bindDigest b)),
                 destroyed := y.destroyed.filter (· ≠ n) }).reply 0
      Sys2Proof.Machine.exec (.bind ctx arg) s =
        .next (if took then ((Config.unwrapKey b).map bound).getD (u.reply 3) else u.reply 3)) ∧
    (∀ y t, (at' 3 0).readDesc x = y → (at' 3 0).touch x.desc.toNat 128 = t → may 3 0 → x.state = .keyed → t.descOk y = true →
        Sys2Proof.Machine.exec (.activate ctx) s = .next ((t.activated y).reply 0)) ∧
    (∀ y t, (at' 5 0).readDesc x = y → (at' 5 0).touch x.desc.toNat 128 = t → may 5 0 → x.state = .suspended → t.descOk y = true →
        Sys2Proof.Machine.exec (.resume ctx) s = .next (((List.range y.qn.toNat).foldl (fun t n => t.resumeQueue y n)
          (State.fitIdle (t.updCtx ctx fun _ => { y with state := .active }) y)).reply 0)) ∧
    (may 4 0 → x.state = .active → Sys2Proof.Machine.exec (.suspend ctx) s = .next (((at' 4 0).suspendCtx ctx).reply 0)) ∧
    (may 6 0 → x.state = .active ∨ x.state = .suspended → Sys2Proof.Machine.exec (.drain ctx) s =
      .next (((((at' 6 0).updCtx ctx fun x => { x with state := .draining }).suspendQueues ctx).finishDrain ctx).reply 0)) ∧
    (∀ n : Fin 16, may 9 arg → arg = BitVec.ofNat 64 n.val → x.state ≠ .creating → x.state ≠ .destroyed →
      let under := fun (k : KeyTag) => decide (k.ctx = ctx) && decide (k.slot = n)
      Sys2Proof.Machine.exec (.keydestroy ctx arg) s = .next
        ((((at' 9 arg).dropLines ctx ((at' 9 arg).lineUnder x n) fun l => l.key.any under).updCtx ctx fun y => { y with
          keys := y.keys.set n none, digests := y.digests.set n none, lost := y.lost.filter (·.2 ≠ n),
          destroyed := if (y.keys[n]).isSome then n :: y.destroyed else y.destroyed }).reply 0)) ∧
    (may 7 0 → x.state ≠ .destroyed →
      let s1 := ((((at' 7 0).completePairs ctx).dropLines ctx (fun _ l => l.ctx = ctx) (SliceLine.ofCtx ctx)).stopGroups ctx).haltAll ctx
      Sys2Proof.Machine.exec (.destroy ctx) s = .next ((State.updCtx { s1 with
        launches := s1.launches.filter (·.ctx ≠ ctx), placed := s1.placed.filter (·.ctx ≠ ctx),
        saved := s1.saved.filter (·.ctx ≠ ctx) } ctx fun x => { x.eraseKeys with state := .destroyed }).reply 0)) ∧
    (may 8 0 → x.state = .destroyed → ∃ t, Sys2Proof.Machine.exec (.reclaim ctx) s = .next t ∧ t.mbox = 0 ∧
      t.ctxs = s.ctxs.filter (·.id ≠ ctx) ∧ t.queues = s.queues.filter (·.ctx ≠ ctx) ∧ ∀ c, t.core c = reclaimCore ctx (s.core c)) ∧
    (∀ q, may 0x11 arg → arg.toNat < x.qn.toNat → x.state ≠ .creating → x.state ≠ .keyed → x.state ≠ .destroyed →
      s.queue? ctx (arg.setWidth 12) = some q → q.state = .halted → Sys2Proof.Machine.exec (.qreset ctx arg) s = .next
        ((((at' 0x11 arg).wrNat (s.qdesc ctx q.n + 24) 8 (max (s.resv q) (s.tail q))).setQueue { q with
          head := BitVec.ofNat 64 (s.tail q), done := BitVec.ofNat 64 (s.tail q), lastErr := 0, kept := .idle,
          state := if x.state = .active then .idle else .suspended }).reply 0)) ∧
    (may 0x12 arg → bitsOf arg.toNat 56 8 = 0 → x.state ≠ .creating → x.state ≠ .destroyed →
      s.unused ctx (fun l => l.maps (bitsOf arg.toNat 0 56)) = true → Sys2Proof.Machine.exec (.xlflush ctx arg) s = .next
        (((at' 0x12 arg).discard ctx (fun l => l.maps (bitsOf arg.toNat 0 56)) fun n => n.covers (bitsOf arg.toNat 0 56)).reply 0)) ∧
    (may 0x23 arg → arg.toNat < 2 ^ 16 → s.ctxs.all (fun y => y.id = ctx || y.fabTag ≠ some (arg.setWidth 16)) = true →
      x.state = .creating ∨ x.state = .keyed ∨ x.state = .suspended → Sys2Proof.Machine.exec (.fabtag ctx arg) s =
        .next (((at' 0x23 arg).updCtx ctx fun x => { x with fabTag := some (arg.setWidth 16) }).reply 0)))

/-- PARTSET IATSET MPOLICY MAILBOX_INVALID_OPCODE POWER_LIMIT_REACHED AGEING_THRESHOLD_CROSSING AGEING_FLAG_CLEAR DIFFERENCE_LIST_APPLY HOST_LINK_MEMORY_ACCESS: where the mailbox takes the command, each command with an argument that its rule allows has its effect and gives status 0; a record with no valid opcode gives status 2; a power limit, an ageing crossing and a difference list are recorded; host bytes are written and arm the queues whose TAIL they raise, a record written while a command is in progress waits, and a management counter takes zero. (01 R20, 01 R22, 01 R23, 11 R264, 11 R265, 11 R271, 11 R272, 17 R364) -/
def Obligations.ManagementEvents : Prop :=
  (∀ arg s (die : Fin 4) r, Mails (cmdRecord 0x10 0 arg 0) s → bitsOf arg.toNat 2 4 = 0 → die = Fin.ofNat 4 (bitsOf arg.toNat 0 2) →
    r = partOfBits die (s.rdNat (arg.toNat / 64 * 64) 64) →
    let u := (rung (cmdRecord 0x10 0 arg 0) s).touch (arg.toNat / 64 * 64) 64
    let t : State := { u with parts := (u.parts.filter fun (p : PartRec) => !(p.die = die && p.part = r.part)) ++
      (if bitsOf (s.rdNat (arg.toNat / 64 * 64) 64) 230 1 = 1 then [r] else []) }
    u.partUsed r.part = false → t.partsOk = true →
    Sys2Proof.Machine.exec (.partset arg) s = .next ((u.remapTo t).reply 0)) ∧
  (∀ arg (i : Fin 1024) s e, Mails (cmdRecord 0x22 0 arg (BitVec.ofNat 64 i.val)) s → arg.toNat % 32 = 0 → iatOf (iatClean (s.rdNat arg.toNat 32)) = some e →
    let u := (rung (cmdRecord 0x22 0 arg (BitVec.ofNat 64 i.val)) s).touch arg.toNat 32
    u.iatOk (((u.iat.find? (·.1 = i)).map (·.2)).bind iatOf) e = true →
    Sys2Proof.Machine.exec (.iatset arg (BitVec.ofNat 64 i.val)) s =
      .next (State.reply { u with iat := (i, iatClean (s.rdNat arg.toNat 32)) :: u.iat.filter (·.1 ≠ i) } 0)) ∧
  (∀ arg s n, Mails (cmdRecord 0x24 0 arg 0) s → arg.toNat % 64 = 0 → leNat ((s.cohRead arg.toNat 16).take 4) = n → 1 ≤ n → n ≤ 1024 →
    ((s.cohRead arg.toNat 16).drop 4).all (· = 0) = true →
    let u := (rung (cmdRecord 0x24 0 arg 0) s).touch arg.toNat 16
    let b := u.cohRead arg.toNat (16 + 72 * n + 4627)
    let t := u.touch arg.toNat (16 + 72 * n + 4627)
    let es := (List.range n).map (policyEntry b)
    es.all entryOk = true →
    Sys2Proof.Machine.exec (.mpolicy arg) s = .next (if Config.sigOk b then
      State.reply { t with policy := es.map entryOf, oldPolicies := t.oldPolicies ++ [(t.icycles, t.policy)] } 0
      else t.reply 3)) ∧
  (∀ r s, Mails r s → bitsOf r.toNat 0 8 ∉ ctxOpcodes ++ plainOpcodes →
    Sys2Proof.Machine.exec (.mailboxInvalidOpcode r) s = .next ((rung r s).reply 2)) ∧
  (∀ dies s, ∃ t, Sys2Proof.Machine.exec (.powerLimitReached dies) s = .next t ∧
    (∀ d : Fin 4, t.clocks[d] = if dies.getLsbD d.val then s.clocks[d] + 1 else s.clocks[d]) ∧
    t = { s with clocks := t.clocks, logs := s.logs ++
      ((List.finRange 4).filter fun d => dies.getLsbD d.val).map fun d => (Chip.cdie d, LogEntry.clock) }) ∧
  (∀ c days s, days < (s.ageingOf c).threshold → (s.ageingOf c).below = false →
    Sys2Proof.Machine.exec (.ageingThresholdCrossing c days) s = .next
      { s.setAgeing c { s.ageingOf c with
          days := days, below := true, flag := true, crossings := count (s.ageingOf c).crossings } with
        logs := s.logs ++ [(c, .ageing days)] }) ∧
  (∀ c s, Sys2Proof.Machine.exec (.ageingFlagClear c) s = .next (s.setAgeing c { s.ageingOf c with flag := false })) ∧
  (∀ u l s, let p := l.changes.foldl (fun p c => planeSet p c.1 c.2) (s.plane u)
    Sys2Proof.Machine.exec (.differenceListApply u l) s = .next (if Config.planeSum p = l.checksum then
      { s with planes := ⟨u, p⟩ :: s.planes.filter (·.unit ≠ u) } else { s with logs := s.logs ++ [(u, .planeMismatch u)] })) ∧
  (∀ pa b s, Sys2Proof.Machine.exec (.hostLinkMemoryAccess (.write pa b)) s = .next
      ((natRange (lineOf pa.toNat) (lineOf (pa.toNat + b.length - 1) + 1 - lineOf pa.toNat)).foldl State.armLine
        (s.cohWrite pa.toNat (s.hostBytes pa.toNat b))) ∧
    ∀ n, Sys2Proof.Machine.exec (.hostLinkMemoryAccess (.read pa n)) s = .next (s.touch pa.toNat n)) ∧
  (∀ r s, Sys2Proof.Machine.exec (.hostLinkMemoryAccess (.mail r)) s = .next
    (if s.doorbell then { s with mwait := s.mwait ++ [r] } else { s with mrec := r, doorbell := true })) ∧
  (∀ s, Sys2Proof.Machine.exec (.hostLinkMemoryAccess (.clear .dlpois)) s = .next { s with dlpois := 0 } ∧
    ∀ d, Sys2Proof.Machine.exec (.hostLinkMemoryAccess (.clear (.scrue d))) s = .next { s with scrue := s.scrue.set d 0 })

/-- SYNC_BUNDLE_ISSUE RENDEZVOUS_BOUND_EXPIRY (the order A, V, M, C in which the lanes of one bundle act, a QCNT last, is the model's choice, log 32): where the four slots of a running group stand at one sync bundle whose lanes all decode to words legal for the group and whose tokens are there, the bundle issues if each lane by itself can, each can after those before it and every queue holds what is pushed; a sync bundle of four NOP lanes without scheduling fields issues, and each slot goes on at the next bundle; where the bundle waited for longest has waited for the bound, the rendezvous fault is raised with the PCs of the slots. (02 R28, 02 R29, 02 R30, 04 R97, 14 R312) -/
def Obligations.SyncBundles : Prop :=
  (∀ c s g n s1 b l t, (s.core c).grp = some g → (s.core c).meets = true → ((s.core c).slot .c).pc = n →
    s.fetch c g n = (s1, .ok b) → syBits b = 0xF → decodeLanes g (s.core c) b = (l, 0) →
    (s1.core c).tokensFor (l.filterMap fun x => wordHead x.1 x.2) = true →
    (∀ x ∈ l, (lanesIssue c [x] (s1.bundled c)).isSome = true) → lanesIssue c (laneOrder l) (s1.bundled c) = some t →
    (t.core c).queuesFit = true → Sys2Proof.Machine.exec (.syncBundleIssue c) s = .next (t.updCore c endBundle)) ∧
  (∀ c s g s1 b (h : Slot → Head), (s.core c).grp = some g → (s.core c).meets = true →
    s.fetch c g ((s.core c).slot .c).pc = (s1, .ok b) → (s1.core c).meets = true → (s1.core c).queuesFit = true → syBits b = 0xF →
    (∀ sl, decode sl (laneOf b sl) = .ok (.nop (h sl)) ∧ (h sl).sbw = 0 ∧ (h sl).sbs = none ∧ (h sl).qx = none) →
    ∃ t, Sys2Proof.Machine.exec (.syncBundleIssue c) s = .next t ∧ ∀ sl, (t.core c).slot sl =
      { (s1.core c).slot sl with pc := ((s1.core c).slot sl).pc + 1, blk := none, arrived := none, solo := none, entry := none }) ∧
  (∀ c s g sl t, (s.core c).grp = some g → firstOf (s.core c).arrivals = some (sl, t) → (s.core c).stat = .running →
    (s.core c).pre = none → t + g.rzb ≤ s.cycle c.die →
    Sys2Proof.Machine.exec (.rendezvousBoundExpiry c) s = .next (raiseFault c
      { code := 0x0104, src := Slot.src sl, bundle := ((s.core c).slot sl).pc, loop := pcsOf (s.core c) } .rendezvous s))

/-- What the device writes for itself, a write of bytes of one line at its ordering point under a key that the line verifies under, to addresses that hold none of the structures of the device, and a write to the local store: every byte written reads as written afterwards, and every other byte reads as before. That the sectors of a line are fetched into a slice that holds it or has room for it changes no byte that is read. (00 R10, 02 R46, 06 R132, 10 R248, 10 R259, 16 R337) -/
def Obligations.MemoryWrites : Prop :=
  (∀ (s t : State) (a : Nat) (l : List Byte), Memory.wf s.mem = true → s.cohWrite a l = t →
    (∀ i, i < l.length → t.cohByte (a + i) = l.getD i 0) ∧ ∀ d, (d < a ∨ a + l.length ≤ d) → t.cohByte d = s.cohByte d) ∧
  (∀ (s : State) (part : BitVec 6) (line : Nat) (stream : Bool) (need : BitVec 8),
    (s.ownLine line).isSome = true ∨
      (s.sliceLines (s.ordDie part line) (s.homeSlice part (s.ordDie part line) (128 * line))).length < 8192 →
    ∀ a, (s.ensureSectors part line stream need).cohByte a = s.cohByte a) ∧
  (∀ (s t s1 : State) (part : BitVec 6) (w : Stamping) (pa : Nat) (b : List Byte) (stream : Bool) (l : SliceLine),
    s.redirect part pa = pa → pa % 128 + b.length ≤ 128 →
    (∀ a, pa ≤ a → a < pa + b.length → s.ctxs.findSome? (·.fieldMap? a) = none) →
    s.ensureSectors part (lineOf pa) stream (sectorMask (partialSectors (atOffset (pa % 128) b))) = s1 →
    s1.ownLine (lineOf pa) = some l → keyIs l.key w.key = true → s.writeLine part w pa b stream = .ok t →
    (∀ i, i < b.length → t.cohByte (pa + i) = b.getD i 0) ∧ ∀ d, (d < pa ∨ pa + b.length ≤ d) → t.cohByte d = s1.cohByte d) ∧
  (∀ (k : Core) (off : Nat) (b : List Byte), Memory.wf k.ls = true →
    (∀ i, i < b.length → memGet (lsWrite off b k).ls (off + i) = b.getD i 0) ∧
    ∀ d, (d < off ∨ off + b.length ≤ d) → memGet (lsWrite off b k).ls d = memGet k.ls d)

/-- Every lane word: in a slot that may not issue nothing changes; where its scheduling fields do not let it issue, its slot stays blocked at its bundle and nothing else changes; suppressed, it only pops its token and moves past its bundle. NOP, which has no guard to obey, waits on its scheduling fields alone. (A BARARV whose fault at issue was skipped has no effect but on its destination, its scheduling fields included, and is not meant here.) (02 R27, 02 R45, 02 R34, 04 R75) -/
def Obligations.IssueRules : Prop :=
  ∀ sl i h n p s, Instr.lane sl i = some (h, n, p) →
    (s.here.mayIssue s.cur.2 = false → Sys2Proof.Machine.exec i s = .next s) ∧
    ((∀ g, i ≠ .nop g) → ((s.here.slot s.cur.2).failed = true → ∀ g o, i ≠ .bararv g o) →
      (s.here.mayIssue s.cur.2 = true → schedReady h (!guardOf h (s.here.slot s.cur.2)) s.here s.cur.2 = false →
        Sys2Proof.Machine.exec i s = .next (blockSlot .plain s)) ∧
      (Suppressed h s → Sys2Proof.Machine.exec i s = .next (started h s))) ∧
    (∀ g, i = .nop g → s.here.mayIssue s.cur.2 = true → schedReady h false s.here s.cur.2 = false →
      Sys2Proof.Machine.exec i s = .next (blockSlot .plain s))

/-- A scalar source gives its register once no earlier write of it is outstanding, a constant gives its value, a 64-bit queue register gives its oldest entry that is neither marked nor pushed in the bundle being issued and pops it unless it is peeked at, an entry not yet filled or an empty queue blocks, and an empty queue whose producer has ended raises the queue-deadlock fault; a scalar destination takes the value, in a queue register as its newest entry, where it has room; the address of an access through a handle is checked in the order of the rule. That the write of a register drops the result of an earlier outstanding access to it is the reading of log 11; the AUX value of the queue-deadlock fault is DEDUCED in log entry 65. (02 R31, 02 R32, 02 R33, 04 R82, 05 R108, 05 R109, 05 R118, 05 R127, 06 R130) -/
def Obligations.OperandAndAddressForms : Prop :=
  (∀ (o : Operand) (n : Fin 64) (s : State), o.name = .s n → readS o s =
    if s.here.regPending s.cur.2 n then .error (.stall .plain) else .ok ((s.here.slot s.cur.2).s[n], s)) ∧
  (∀ (o : Operand) (s : State), (o.name = .zero → readS o s = .ok (0, s)) ∧ (o.name = .one → readS o s = .ok (1, s)) ∧
    (o.name = .ones → readS o s = .ok (BitVec.allOnes 64, s))) ∧
  (∀ (i : BitVec 32) (s : State), readSrc2 (.imm i) s = .ok (BitVec.ofInt 64 i.toInt, s)) ∧
  (∀ (o : Operand) (n : Fin 32) (s : State) (l r : List (QEntry 64)) (e : QEntry 64), o.name = .q n → 12 ≤ n.val →
    s.here.q[scalarQ n.val] = l ++ e :: r → (∀ x ∈ l, x.marked = true ∨ x.fresh = true) → e.marked = false → e.fresh = false →
      (∀ v, e.data = some v → readS o s = .ok (v, s.updCore s.cur.1 fun k =>
        if o.peek then k else { k with q := k.q.set (scalarQ n.val) (l ++ r) })) ∧
      (e.data = none → readS o s = .error (.stall .plain))) ∧
  (∀ (o : Operand) (n : Fin 32) (s : State), o.name = .q n → 12 ≤ n.val →
    (∀ x ∈ s.here.q[scalarQ n.val], x.marked = true ∨ x.fresh = true) → readS o s =
      .error (if (s.here.slot (producerOf n.val)).ended then
        .fault { code := 0x0106, aux := BitVec.ofNat 64 (1600 + n.val) } else .stall .plain)) ∧
  (∀ (o : Operand) (n : Fin 64) (v : Word) (s : State), o.name = .s n → ∃ t, writeS o v s = .ok ((), t) ∧
    ∀ m : Fin 64, (t.here.slot s.cur.2).s[m] = if m = n then v else (s.here.slot s.cur.2).s[m]) ∧
  (∀ (o : Operand) (v : Word) (s : State), o.name = .zero → writeS o v s = .ok ((), s)) ∧
  (∀ (o : Operand) (n : Fin 32) (v : Word) (s : State), o.name = .q n → 12 ≤ n.val → s.here.bundling = false →
    writeS o v s =
      if (s.here.slot (consumerOf n.val)).ended then .ok ((), s)
      else if 16 ≤ s.here.q[scalarQ n.val].length then .error (.stall .plain)
      else .ok ((), s.updCore s.cur.1 fun k =>
        { k with q := k.q.set (scalarQ n.val) (k.q[scalarQ n.val] ++ [⟨0, some v, false, false⟩]) })) ∧
  (∀ ad ssc size align load s a s1 s2 e, readS ad.fa s = .ok (a, s1) → s1.handleEntry s1.cur.1 ad.hdl = (s2, e) →
    (handleOf ad.hdl e = none → handleAddr ad ssc size align load s =
      .error (.fault { code := 0x0301, aux := ad.hdl.setWidth 64 })) ∧
    (∀ hd, handleOf ad.hdl e = some hd → ∀ o : Int, o = a.toInt + ad.off.toInt → handleAddr ad ssc size align load s =
      if !sscNames ssc hd.space.kind then .error (.fault { code := 0x0301, aux := ad.hdl.setWidth 64 })
      else if load && hd.space == .peer then .error (.fault { code := 0x0305, addr := BitVec.ofInt 64 (hd.base + o) })
      else if o < 0 ∨ (hd.bound : Int) < o + size then
        .error (.fault { code := 0x0302, aux := ad.hdl.setWidth 64, addr := BitVec.ofInt 64 o })
      else if (hd.base + o) % align ≠ 0 then .error (.fault { code := 0x0303, addr := BitVec.ofInt 64 (hd.base + o) })
      else .ok ((hd, BitVec.ofInt 56 (hd.base + o)), s2)))

/-- The scalar operations, moves, compare, QCNT, RDCYC, RDSYS, the branches, CALL, RET and the loop instructions: where one answers a next state and raises no fault, everything outside its core and every byte of memory is as before, and of its core only its slot, the registers in its destination, the queue registers that it names, the token that it pops, and which earlier results are still wanted may change; all but the loop instructions leave the loop stack. (02 R27, 02 R32, 05 R108, 05 R109, 05 R110, 05 R112, 05 R113, 05 R115) -/
def Obligations.ScalarWordsFrame : Prop :=
  ∀ s t, NoFault s t →
    (∀ c ∈ ([.add, .sub, .mul, .mulh, .div, .rem, .and, .or, .xor, .shl, .shr, .sar, .min, .max] : List (Head → SBin → Instr)),
      ∀ h o, Sys2Proof.Machine.exec (c h o) s = .next t →
        ScalarFrame h [o.d] (o.d :: o.a :: srcOps o.b) s t ∧ (t.here.slot s.cur.2).loops = (s.here.slot s.cur.2).loops) ∧
    (∀ c ∈ ([.clz, .popc, .mov] : List (Head → SUn → Instr)), ∀ h o, Sys2Proof.Machine.exec (c h o) s = .next t →
      ScalarFrame h [o.d] [o.d, o.a] s t ∧ (t.here.slot s.cur.2).loops = (s.here.slot s.cur.2).loops) ∧
    (∀ c ∈ ([.movi, .moviHigh] : List (Head → SImm → Instr)), ∀ h o, Sys2Proof.Machine.exec (c h o) s = .next t →
      ScalarFrame h [o.d] [o.d] s t ∧ (t.here.slot s.cur.2).loops = (s.here.slot s.cur.2).loops) ∧
    (∀ h o, Sys2Proof.Machine.exec (.sel h o) s = .next t →
      ScalarFrame h [o.d] [o.d, o.a, o.b, o.p] s t ∧ (t.here.slot s.cur.2).loops = (s.here.slot s.cur.2).loops) ∧
    (∀ h o, Sys2Proof.Machine.exec (.cmp h o) s = .next t →
      ScalarFrame h [o.d] (o.a :: srcOps o.b) s t ∧ (t.here.slot s.cur.2).loops = (s.here.slot s.cur.2).loops) ∧
    (∀ h o, Sys2Proof.Machine.exec (.qcnt h o) s = .next t →
      ScalarFrame h [o.d] [o.d] s t ∧ (t.here.slot s.cur.2).loops = (s.here.slot s.cur.2).loops) ∧
    (∀ h o, Sys2Proof.Machine.exec (.rdcyc h o) s = .next t →
      ScalarFrame h [o] [o] s t ∧ (t.here.slot s.cur.2).loops = (s.here.slot s.cur.2).loops) ∧
    (∀ h o, Sys2Proof.Machine.exec (.rdsys h o) s = .next t →
      ScalarFrame h [o.r] [o.r] s t ∧ (t.here.slot s.cur.2).loops = (s.here.slot s.cur.2).loops) ∧
    (∀ h o, Sys2Proof.Machine.exec (.br h o) s = .next t →
      ScalarFrame h [] [o.src] s t ∧ (t.here.slot s.cur.2).loops = (s.here.slot s.cur.2).loops) ∧
    (∀ h o, Sys2Proof.Machine.exec (.brx h o) s = .next t →
      ScalarFrame h [] [o.tgt, o.src] s t ∧ (t.here.slot s.cur.2).loops = (s.here.slot s.cur.2).loops) ∧
    (∀ h o, Sys2Proof.Machine.exec (.call h o) s = .next t →
      ScalarFrame h [o.r] [o.r] s t ∧ (t.here.slot s.cur.2).loops = (s.here.slot s.cur.2).loops) ∧
    (∀ h o, Sys2Proof.Machine.exec (.ret h o) s = .next t →
      ScalarFrame h [] [o] s t ∧ (t.here.slot s.cur.2).loops = (s.here.slot s.cur.2).loops) ∧
    (∀ h o, Sys2Proof.Machine.exec (.lpset h o) s = .next t → ScalarFrame h [] [o.r] s t) ∧
    (∀ h, Sys2Proof.Machine.exec (.lpend h) s = .next t → ScalarFrame h [] [] s t) ∧
    (∀ h o, Sys2Proof.Machine.exec (.lpendExit h o) s = .next t → ScalarFrame h [] [] s t)

/-- The loads, stores, queue transfers, atomics, FENCE, QJOIN, MSEND, FWR, FREQ, FATOM, LZPUT, BARINIT, BARARV, BARTST, PGPF, PGIN, LAUNCH and QENTRY: where one answers a next state and raises no fault, either nothing has entered, or one access stands at the end of its core's list or one operation at the end of an engine queue, with the core's next number, the slot and its bundle; those that stood there are as before, but for whether their result is still wanted (log 11), and so are every byte of memory, of the local store and every register of every slot; what it stores and what it loads come with its own performance. A BARARV whose fault was skipped changes only its destination. (02 R33, 02 R48, 02 R49, 06 R135, 06 R136, 06 R137, 06 R141, 06 R142) -/
def Obligations.IssueWordsFrame : Prop :=
  ∀ s t, NoFault s t →
    (∀ c ∈ ([.ld, .ldl] : List (Head → LdOp → Instr)), ∀ h o, Sys2Proof.Machine.exec (c h o) s = .next t → IssueFrame s t) ∧
    (∀ c ∈ ([.st, .stl] : List (Head → StOp → Instr)), ∀ h o, Sys2Proof.Machine.exec (c h o) s = .next t → IssueFrame s t) ∧
    (∀ c ∈ ([.ldq, .ldqLocal, .stq, .stqLocal] : List (Head → QMemOp → Instr)), ∀ h o,
      Sys2Proof.Machine.exec (c h o) s = .next t → IssueFrame s t) ∧
    (∀ c ∈ ([.aadd, .amin, .amax, .aand, .aor, .axor, .axchg, .acas, .afadd] : List (Head → AtOp → Instr)), ∀ h o,
      Sys2Proof.Machine.exec (c h o) s = .next t → IssueFrame s t) ∧
    (∀ h o, Sys2Proof.Machine.exec (.fence h o) s = .next t → IssueFrame s t) ∧
    (∀ h o, Sys2Proof.Machine.exec (.qjoin h o) s = .next t → IssueFrame s t) ∧
    (∀ h o, Sys2Proof.Machine.exec (.msend h o) s = .next t → IssueFrame s t) ∧
    (∀ h o, Sys2Proof.Machine.exec (.fwr h o) s = .next t → IssueFrame s t) ∧
    (∀ h o, Sys2Proof.Machine.exec (.freq h o) s = .next t → IssueFrame s t) ∧
    (∀ h o, Sys2Proof.Machine.exec (.fatom h o) s = .next t → IssueFrame s t) ∧
    (∀ h o, Sys2Proof.Machine.exec (.lzput h o) s = .next t → IssueFrame s t) ∧
    (∀ h o, Sys2Proof.Machine.exec (.barinit h o) s = .next t → IssueFrame s t) ∧
    (∀ h o, Sys2Proof.Machine.exec (.bararv h o) s = .next t →
      ((s.here.slot s.cur.2).failed = false → IssueFrame s t) ∧
      ((s.here.slot s.cur.2).failed = true → ScalarFrame h o.d.toList o.d.toList s t)) ∧
    (∀ h o, Sys2Proof.Machine.exec (.bartst h o) s = .next t → IssueFrame s t) ∧
    (∀ h o, Sys2Proof.Machine.exec (.pgpf h o) s = .next t → IssueFrame s t) ∧
    (∀ h o, Sys2Proof.Machine.exec (.pgin h o) s = .next t → IssueFrame s t) ∧
    (∀ h o, Sys2Proof.Machine.exec (.launch h o) s = .next t → IssueFrame s t) ∧
    (∀ h o, Sys2Proof.Machine.exec (.qentry h o) s = .next t → IssueFrame s t)

/-- The computing vector instructions, conversions, packings, quantisations and movements: where every mapped name is resident, the share of the group has room, and one answers a next state without a fault, everything outside its core but the count of free values drawn, every byte of memory and of the local store, every scalar register, the compact predicates, the mask stack and the accumulators are as before but for the counts of invalid and reserved blocks, and every vector name outside its destination group and the groups of its last uses keeps its value. (02 R36, 02 R37, 02 R38, 02 R39, 02 R41, 07 R163, 07 R164) -/
def Obligations.VectorWordsFrame : Prop :=
  ∀ i h d srcs s t, vecParts i = some (h, d, srcs) → s.here.roomy → Sys2Proof.Machine.exec i s = .next t → NoFault s t →
    VectorFrame h d srcs s t

/-- Whatever lane word a slot executes, in whatever state and with whatever outcome, every other core is as before and every other slot of its core keeps its scalar registers, predicates, PC and loop stack and has ended or not as before. (02 R25, 02 R27, 02 R35) -/
def Obligations.LaneWordsStayOnTheirCore : Prop :=
  ∀ sl i x s t, Instr.lane sl i = some x → Sys2Proof.Machine.exec i s = .next t →
    OtherCores s.cur.1 s t ∧ ∀ other, other ≠ s.cur.2 → SameRegisters (s.here.slot other) ((t.core s.cur.1).slot other)

/-- Where a fault is raised to the group on a core and memory is in canonical form: the core keeps everything but the fault, recorded last, and that its group is trapping; every other core is as before; and where the error ring has room, the record stands in the entry that TAIL names, TAIL, as the device keeps it and as memory shows it, is one more, and every other byte of memory reads as before; where it has none, the count of dropped records rises, TAIL is as it was and every byte of memory outside the descriptor's ERRDROP field reads as before. (11 R279, 11 R280, 14 R311, 14 R312) -/
def Obligations.FaultTaken : Prop :=
  ∀ (c : CoreId) (f : FaultRec) (op : FaultOp) (s t : State) (g : GroupInfo) (x : Context) (tail at_ : Nat),
    raiseFault c f op s = t → (s.core c).grp = some g → s.ctx? g.ctx = some x → Memory.wf s.mem = true →
    x.errTail.toNat = tail → x.errB.toNat + 64 + 64 * (tail % x.errN.toNat) = at_ →
    t.core c = { s.core c with
      faults := (s.core c).faults ++ [⟨f, op⟩]
      stat := match (s.core c).stat with
        | .trapping q => .trapping q
        | _ => .trapping false } ∧
    OtherCores c s t ∧
    (tail < s.rdNat (x.errB.toNat + 8) 8 + x.errN.toNat →
      t.cohRead at_ 64 = natLe 64 (errorBits f c.core.val c.die.val g.queue.toNat tail) ∧
      t.rdNat x.errB.toNat 8 = (tail + 1) % 2 ^ 64 ∧ t.ctx? g.ctx = some { x with errTail := x.errTail + 1 } ∧
      ∀ a, (a < at_ ∨ at_ + 64 ≤ a) → (a < x.errB.toNat ∨ x.errB.toNat + 8 ≤ a) → t.cohByte a = s.cohByte a) ∧
    (s.rdNat (x.errB.toNat + 8) 8 + x.errN.toNat ≤ tail → t.ctx? g.ctx = some { x with errDrop := count x.errDrop } ∧
      (∀ a, (a < x.desc.toNat + 112 ∨ x.desc.toNat + 120 ≤ a) → t.cohByte a = s.cohByte a) ∧
      ((x.errB.toNat + 8 ≤ x.desc.toNat + 112 ∨ x.desc.toNat + 120 ≤ x.errB.toNat) → t.rdNat x.errB.toNat 8 = s.rdNat x.errB.toNat 8))

/-- At State.reset every die link is dark with the reset values of its map, no context, queue, launch, group or key exists, every chiplet attests, FETYPE has its reset value, the barriers, pairs, directories and partition records hold nothing, the mailbox is idle, the cycle counters are zero, the memory is in canonical form and every queue register within its depth. That memory lists nothing, that registers without a stated reset value hold zero and that the device is a TQ-384A are the choices of logs 3, 4 and 5, on which the clauses on memory and cores rest. (01 R21, 11 R264, 11 R271, 17 R348, 17 R351, 17 R368) -/
def Obligations.ResetState : Prop :=
  (∀ x ∈ State.reset.links, x.2.state = .dark ∧ x.2.txki = false ∧ x.2.rxki = false ∧ x.2.v = true ∧ x.2.cause = 0 ∧
    x.2.wakeb = 0x10000 ∧ x.2.hbb = 0x400000 ∧ x.2.rtb = 0x4000 ∧ x.2.retx = 0 ∧ x.2.kwdrop = 0 ∧ x.2.replay = 0 ∧
    x.2.badfr = 0 ∧ x.2.wakeovr = 0) ∧
  State.reset.links.length = 10 ∧ State.reset.ctxs = [] ∧ State.reset.queues = [] ∧ State.reset.launches = [] ∧
  State.reset.saved = [] ∧ State.reset.fetype = 0x9A71 ∧ (∀ x ∈ State.reset.chips, x.2 = .attesting) ∧
  State.reset.held = [] ∧ State.reset.pairs = [] ∧ State.reset.dir = [] ∧ State.reset.parts = [] ∧
  State.reset.doorbell = false ∧ State.reset.mbox = 0 ∧ (∀ d : Fin 4, State.reset.cycles[d] = 0 ∧ State.reset.scycles[d] = 0) ∧
  (∀ c, (State.reset.core c).grp = none ∧ (State.reset.core c).stat = .free ∧ (State.reset.core c).faults = []) ∧
  Canonical State.reset ∧ QueuesBounded State.reset

/-- Where the next mover is a slot whose group may issue and the bundle at its PC is fetched: with SY bits that disagree the malformed-bundle fault is raised; at a sync bundle the slot waits, but where its lane alone is left of it (log 32); otherwise a lane that does not decode, or whose word is not legal for its group, raises the illegal-instruction fault, and one that decodes to a legal word is executed in the state that the fetch leaves. A fetch that faults raises its fault. Where the next mover is an event, the event is executed. What is done crosses the links between the dies, which must be up for it. That the mover comes from an agenda or is free, and that time passes by a free amount first, are the choices of logs 1 and 8. (02 R26, 02 R27, 02 R28, 04 R96, 04 R97) -/
def Obligations.StepRunsDecoded : Prop :=
  (∀ (s s0 s1 : State) (c : CoreId) (sl : Slot) (g : GroupInfo), nextMover s = (.issue c sl, s0) →
    { s0.passTime with cur := (c, sl) } = s1 → (s1.core c).grp = some g → (s1.core c).mayIssue sl = true →
    let ends := crossing s0.passTime
    (∀ f s2, s1.fetch c g ((s1.core c).slot sl).pc = (s2, .error f) → step s = ends (.next (laneFault f s2))) ∧
    (∀ b s2, s1.fetch c g ((s1.core c).slot sl).pc = (s2, .ok b) →
      let word := decode sl (laneOf b sl)
      let bad := ends (.next (laneFault { code := 0x0101, aux := BitVec.ofNat 64 (2 ^ (Slot.fin sl).val) } s2))
      (syAgrees b = false → step s = ends (.next (laneFault { code := 0x0102, aux := (syBits b).setWidth 64 } s2))) ∧
      (syBits b = 0xF → ((s2.core c).slot sl).solo ≠ some ((s2.core c).slot sl).pc → step s = ends (.next (arriveSync s2))) ∧
      (syAgrees b = true → syBits b = 0 ∨ ((s2.core c).slot sl).solo = some ((s2.core c).slot sl).pc →
        (∀ i, word = .ok i → legalFor g (s2.core c) i = true → step s = ends (Sys2Proof.Machine.exec i s2)) ∧
        (∀ i, word = .ok i → legalFor g (s2.core c) i = false → step s = bad) ∧
        (∀ e, word = .error e → step s = bad)))) ∧
  (∀ (s s0 : State) (i : Instr), nextMover s = (.event i, s0) → isEvent i = true →
    step s = crossing s0.passTime (Sys2Proof.Machine.exec i s0.passTime))

/-- The all-zero word is NOP in every slot, and each other lane word that the manual writes out is the instruction that stands beside it: the C, A and V words of the bundle of R98; the examples of CMP, FENCE, CPIN, MPUSH, TPIN, MREC, MZCLR, QENTRY, BARARV, PGIN, FWR and LZGRANT at their entries; and the MREC, AADD, CPIN, AFADD and LZPUT words of the programs of 19 and 20. (04 R98, 05 R112, 06 R141, 06 R143, 07 R175, 08 R213, 09 R239, 12 R291, 15 R323, 16 R343, 17 R367, 18 R380) -/
def Obligations.WordsDecode : Prop :=
  (∀ sl, decode sl 0 = .ok (.nop { gs := 0 })) ∧
  decode .c 0x1107800000000800800000000002E000#128 =
    .ok (.add {} ⟨.i64, ⟨.s 4, false, false⟩, ⟨.s 4, false, false⟩, .imm 1⟩) ∧
  decode .a 0x3407801200000A00600000A000105070#128 =
    .ok (.ld { sbs := some 1 } ⟨.i64, ⟨.s 5, false, false⟩, ⟨⟨.s 3, false, false⟩, 5, 8⟩, ⟨.group, { g := true }, .rlx⟩⟩) ∧
  decode .v 0x04078E00000019014016000000000000#128 =
    .ok (.vadd { gk := some 3 } ⟨.f32, .rne, false, ⟨.v 12, false, false⟩, ⟨.v 10, true, false⟩, .reg (⟨.v 11, false, false⟩)⟩) ∧
  decode .c 0x12378000000CE4006000000000C8E002#128 =
    .ok (.cmp {} ⟨.i64, ⟨.p 2, false, false⟩, ⟨.s 3, false, false⟩, .imm 100, .lt, .set⟩) ∧
  decode .a 0x3587800000000000000000000000B200#128 =
    .ok (.fence {} ⟨⟨.die, { l := true, g := true }, .rel⟩, false⟩) ∧
  decode .a 0x46078000000010012D40D40007200000#128 =
    .ok (.cpin {} ⟨⟨.s 8, false, false⟩, ⟨.s 9, false, false⟩, ⟨.zero, false, false⟩, ⟨.zero, false, false⟩, 3, some 1⟩) ∧
  decode .v 0x05978000000000006D40000000000004#128 =
    .ok (.mpush {} ⟨.f32, .gt, ⟨.v 3, false, false⟩, ⟨.zero, false, false⟩⟩) ∧
  decode .m 0x44178000000002004D40D4000E000000#128 =
    .ok (.tpin {} ⟨7, ⟨.s 1, false, false⟩, ⟨.s 2, false, false⟩, ⟨.zero, false, false⟩, ⟨.zero, false, false⟩, false, none, none⟩) ∧
  decode .m 0x45078000000010012014D40005600000#128 =
    .ok (.mrec {} ⟨⟨.s 8, false, false⟩, ⟨.s 9, false, false⟩, ⟨.s 10, false, false⟩, ⟨.zero, false, false⟩, 2, some 3⟩) ∧
  decode .m 0x05278000000D04000000000000000000#128 =
    .ok (.mzclr {} ⟨⟨.z 2, false, false⟩, false⟩) ∧
  decode .a 0x3917800000000800C00E00000800D200#128 =
    .ok (.qentry {} ⟨⟨.s 4, false, false⟩, ⟨.s 7, false, false⟩, ⟨.s 6, false, false⟩, 0x400, ⟨.device, { g := true }, .rel⟩⟩) ∧
  decode .a 0x38178000000000D40D4200600000D200#128 =
    .ok (.bararv {} ⟨none, ⟨.one, false, false⟩, false, false, ⟨⟨.zero, false, false⟩, 3, 0⟩, ⟨.device, { g := true }, .rel⟩⟩) ∧
  decode .a 0x3897801400000800600C00A00000D000#128 =
    .ok (.pgin { sbs := some 2 } ⟨⟨.s 4, false, false⟩, ⟨.s 6, false, false⟩, ⟨⟨.s 3, false, false⟩, 5, 0⟩, ⟨.device, { g := true }, .rlx⟩⟩) ∧
  decode .a 0x3707800000000A00600800C000014803#128 =
    .ok (.fwr {} ⟨⟨.s 5, false, false⟩, ⟨.s 4, false, false⟩, ⟨⟨.s 3, false, false⟩, 6, 0⟩, ⟨.fabric, { p := true }, .rlx⟩, some 1⟩) ∧
  decode .a 0x3797800000000800A00C000000040000#128 =
    .ok (.lzgrant {} ⟨⟨.s 4, false, false⟩, 2, ⟨.s 5, false, false⟩, ⟨.s 6, false, false⟩, none⟩) ∧
  decode .m 0x45078010020014016018D40000000000#128 =
    .ok (.mrec { sbw := 1, sbs := some 0 } ⟨⟨.s 10, false, false⟩, ⟨.s 11, false, false⟩, ⟨.s 12, false, false⟩, ⟨.zero, false, false⟩, 0, none⟩) ∧
  decode .a 0x34878000000014D40D420040000090B0#128 =
    .ok (.aadd {} ⟨.n64, some (⟨.s 10, false, false⟩), ⟨.one, false, false⟩, ⟨⟨.zero, false, false⟩, 2, 0⟩, ⟨.die, { g := true }, .rlx⟩⟩) ∧
  decode .a 0x46078000000014D40D40D40001000000#128 =
    .ok (.cpin {} ⟨⟨.s 10, false, false⟩, ⟨.zero, false, false⟩, ⟨.zero, false, false⟩, ⟨.zero, false, false⟩, 0, some 0⟩) ∧
  decode .a 0x35078000000030D4001800E200004800#128 =
    .ok (.afadd {} ⟨.f32, some (⟨.s 24, false, false⟩), ⟨.s 12, false, false⟩, ⟨⟨.zero, false, false⟩, 7, 0x10000⟩, ⟨.group, { p := true }, .rlx⟩⟩) ∧
  decode .a 0x37A7801201001E01C00E000000114800#128 =
    .ok (.lzput { sbs := some 1, qx := some 0 } ⟨⟨.s 15, false, false⟩, ⟨.s 14, false, false⟩, 8, ⟨.s 7, false, false⟩, ⟨.fabric, { p := true }, .rlx⟩, none⟩)

/-- For every slot and every instruction that is well formed in it, whatever its operands, the decoder answers the instruction for the word that the encoder writes. (04 R74, 04 R79, 04 R81, 04 R82, 04 R83, 04 R84, 04 R85, 04 R86, 04 R87, 04 R96) -/
def Obligations.DecodeOfEncode : Prop :=
  ∀ sl i, i.wf sl = true → decode sl (encode sl i) = .ok i

/-- Where memory, every local store and every saved local store list their bytes at rising addresses and no zero byte, so do those of the state that a step answers. The form, and that an unlisted byte is zero, are the choices of the model (log 5). (02 R46, 10 R248) -/
def Obligations.CanonicalKept : Prop :=
  ∀ s t, Canonical s → step s = .next t → Canonical t

/-- Where no queue register of a core or of a saved group holds more than its depth and no sync bundle is half issued, the same holds in the state that a step answers, be it a lane word, a whole sync bundle or an event. (02 R31, 02 R32, 02 R29) -/
def Obligations.QueuesBoundedKept : Prop :=
  ∀ s t, QueuesBounded s → step s = .next t → QueuesBounded t

/-- For every tensor index and every four coordinates, the set is the low seven bits of x xor x[63:7] xor x[63:14] xor x[63:21] xor x[63:28], where x is the 64-bit sum T + 5 c[0] + 17 c[1] + 33 c[2] + 65 c[3]. (08 R205) -/
def Obligations.TagSetFunction : Prop :=
  ∀ (t : BitVec 12) (crd : Vector Word 4) (x : BitVec 64),
    x = t.setWidth 64 + 5 * crd[0] + 17 * crd[1] + 33 * crd[2] + 65 * crd[3] →
    tagSet t crd = (x ^^^ x >>> 7 ^^^ x >>> 14 ^^^ x >>> 21 ^^^ x >>> 28).toNat % 128

/-- When a group starts on a core, in each of its four slots s0 to s7 hold what its loop table gives for the level of that number (the index of the group at a spatial level, the trip count of a temporal one, zero for an unused one), s8 to s63 hold zero and p0 to p14 false; p15 always reads true and a write to it is discarded; a scalar register or predicate that an operand names is that of the slot that executes, and no lane word changes a register of another slot. (02 R35) -/
def Obligations.GroupStartRegisters : Prop :=
  (∀ (s t : State) (die : Fin 4) (part : BitVec 6) (p : Placed) (l : Launch) (x : Context) (c : CoreId) (rest : List CoreId),
    s.startNext part die = some (p, l, x) → s.coresFor part die l = c :: rest →
    Sys2Proof.Machine.exec (.groupStart die part) s = .next t →
    ∀ sl,
      (∀ i : Fin 8, ∀ r : Fin 64, r.val = i.val →
        (l.levels[i].kind = .unused → ((t.core c).slot sl).s[r] = 0) ∧
        (l.levels[i].kind = .temporal → ((t.core c).slot sl).s[r] = BitVec.ofNat 64 l.levels[i].count) ∧
        (∀ outer inner v, l.spatial = outer ++ (i.val, v) :: inner →
          ((t.core c).slot sl).s[r] =
            BitVec.ofNat 64 (p.g / ((inner.map (·.2.count)).foldl (· * ·) 1) % v.count))) ∧
      (∀ r : Fin 64, 8 ≤ r.val → ((t.core c).slot sl).s[r] = 0) ∧
      (∀ n : Fin 16, ((t.core c).slot sl).pred n = decide (n = 15))) ∧
  (∀ (t : SlotState) (b : Bool), t.pred 15 = true ∧ t.setPred 15 b = t) ∧
  (∀ (o : Operand) (n : Fin 64) (v : Word) (s t : State), o.name = .s n → readS o s = .ok (v, t) →
    v = (s.here.slot s.cur.2).s[n]) ∧
  (∀ (n : Fin 16) (s : State), readPred n s = .ok ((s.here.slot s.cur.2).pred n, s)) ∧
  (∀ sl i x s t, Instr.lane sl i = some x → Sys2Proof.Machine.exec i s = .next t → ∀ other, other ≠ s.cur.2 →
    (t.here.slot other).s = (s.here.slot other).s ∧ (t.here.slot other).p = (s.here.slot other).p)
end

