-- ==== Sys2Proof/Laws/Decode.lean ====
section
/-! SUPPORT. What the decoder answers. -/

namespace Sys2Proof

/-- An accepted word decodes to a well-formed instruction that encodes to that word. -/
theorem decode_ok {sl : Slot} {w : LaneWord} {i : Instr} (h : decode sl w = .ok i) : i.wf sl = true ∧ encode sl i = w := by
  unfold decode at h
  split at h
  · cases h
  · split at h
    · cases h
    · split at h
      · cases h
      · split at h
        · split at h
          · cases h; exact ⟨by assumption, by assumption⟩
          · cases h
        · cases h

/-- The decoder is sound for every instruction. -/
theorem decode_sound (i : Instr) : ∀ sl w, decode sl w = .ok i → i.wf sl = true ∧ encode sl i = w :=
  fun _ _ => decode_ok

end Sys2Proof
end

