-- ==== Sys2Proof/Laws/State.lean ====
section
/-! SUPPORT. One lemma for each field of the state and each plain update of it, true by unfolding, so that no proof unfolds an update. -/

namespace Sys2Proof.Machine

open Sys2Proof

/-! ### A core replaced -/

@[simp] theorem State.setCore_agenda (s : State) (c : CoreId) (k : Core) : (s.setCore c k).agenda = s.agenda := rfl
@[simp] theorem State.setCore_cur (s : State) (c : CoreId) (k : Core) : (s.setCore c k).cur = s.cur := rfl
@[simp] theorem State.setCore_tick (s : State) (c : CoreId) (k : Core) : (s.setCore c k).tick = s.tick := rfl
@[simp] theorem State.setCore_freeCtr (s : State) (c : CoreId) (k : Core) : (s.setCore c k).freeCtr = s.freeCtr := rfl
@[simp] theorem State.setCore_outbox (s : State) (c : CoreId) (k : Core) : (s.setCore c k).outbox = s.outbox := rfl
@[simp] theorem State.setCore_crossed (s : State) (c : CoreId) (k : Core) : (s.setCore c k).crossed = s.crossed := rfl
@[simp] theorem State.setCore_slept (s : State) (c : CoreId) (k : Core) : (s.setCore c k).slept = s.slept := rfl
@[simp] theorem State.setCore_behind (s : State) (c : CoreId) (k : Core) : (s.setCore c k).behind = s.behind := rfl
@[simp] theorem State.setCore_exams (s : State) (c : CoreId) (k : Core) : (s.setCore c k).exams = s.exams := rfl
@[simp] theorem State.setCore_variant (s : State) (c : CoreId) (k : Core) : (s.setCore c k).variant = s.variant := rfl
@[simp] theorem State.setCore_device (s : State) (c : CoreId) (k : Core) : (s.setCore c k).device = s.device := rfl
@[simp] theorem State.setCore_cycles (s : State) (c : CoreId) (k : Core) : (s.setCore c k).cycles = s.cycles := rfl
@[simp] theorem State.setCore_icycles (s : State) (c : CoreId) (k : Core) : (s.setCore c k).icycles = s.icycles := rfl
@[simp] theorem State.setCore_scycles (s : State) (c : CoreId) (k : Core) : (s.setCore c k).scycles = s.scycles := rfl
@[simp] theorem State.setCore_mem (s : State) (c : CoreId) (k : Core) : (s.setCore c k).mem = s.mem := rfl
@[simp] theorem State.setCore_lmeta (s : State) (c : CoreId) (k : Core) : (s.setCore c k).lmeta = s.lmeta := rfl
@[simp] theorem State.setCore_poison (s : State) (c : CoreId) (k : Core) : (s.setCore c k).poison = s.poison := rfl
@[simp] theorem State.setCore_slices (s : State) (c : CoreId) (k : Core) : (s.setCore c k).slices = s.slices := rfl
@[simp] theorem State.setCore_mshrs (s : State) (c : CoreId) (k : Core) : (s.setCore c k).mshrs = s.mshrs := rfl
@[simp] theorem State.setCore_ingress (s : State) (c : CoreId) (k : Core) : (s.setCore c k).ingress = s.ingress := rfl
@[simp] theorem State.setCore_dir (s : State) (c : CoreId) (k : Core) : (s.setCore c k).dir = s.dir := rfl
@[simp] theorem State.setCore_published (s : State) (c : CoreId) (k : Core) : (s.setCore c k).published = s.published := rfl
@[simp] theorem State.setCore_pairs (s : State) (c : CoreId) (k : Core) : (s.setCore c k).pairs = s.pairs := rfl
@[simp] theorem State.setCore_parts (s : State) (c : CoreId) (k : Core) : (s.setCore c k).parts = s.parts := rfl
@[simp] theorem State.setCore_ctxs (s : State) (c : CoreId) (k : Core) : (s.setCore c k).ctxs = s.ctxs := rfl
@[simp] theorem State.setCore_keyGen (s : State) (c : CoreId) (k : Core) : (s.setCore c k).keyGen = s.keyGen := rfl
@[simp] theorem State.setCore_queues (s : State) (c : CoreId) (k : Core) : (s.setCore c k).queues = s.queues := rfl
@[simp] theorem State.setCore_launches (s : State) (c : CoreId) (k : Core) : (s.setCore c k).launches = s.launches := rfl
@[simp] theorem State.setCore_placed (s : State) (c : CoreId) (k : Core) : (s.setCore c k).placed = s.placed := rfl
@[simp] theorem State.setCore_saved (s : State) (c : CoreId) (k : Core) : (s.setCore c k).saved = s.saved := rfl
@[simp] theorem State.setCore_rotation (s : State) (c : CoreId) (k : Core) : (s.setCore c k).rotation = s.rotation := rfl
@[simp] theorem State.setCore_mbox (s : State) (c : CoreId) (k : Core) : (s.setCore c k).mbox = s.mbox := rfl
@[simp] theorem State.setCore_mrec (s : State) (c : CoreId) (k : Core) : (s.setCore c k).mrec = s.mrec := rfl
@[simp] theorem State.setCore_mwait (s : State) (c : CoreId) (k : Core) : (s.setCore c k).mwait = s.mwait := rfl
@[simp] theorem State.setCore_doorbell (s : State) (c : CoreId) (k : Core) : (s.setCore c k).doorbell = s.doorbell := rfl
@[simp] theorem State.setCore_policy (s : State) (c : CoreId) (k : Core) : (s.setCore c k).policy = s.policy := rfl
@[simp] theorem State.setCore_oldPolicies (s : State) (c : CoreId) (k : Core) : (s.setCore c k).oldPolicies = s.oldPolicies := rfl
@[simp] theorem State.setCore_chips (s : State) (c : CoreId) (k : Core) : (s.setCore c k).chips = s.chips := rfl
@[simp] theorem State.setCore_measures (s : State) (c : CoreId) (k : Core) : (s.setCore c k).measures = s.measures := rfl
@[simp] theorem State.setCore_links (s : State) (c : CoreId) (k : Core) : (s.setCore c k).links = s.links := rfl
@[simp] theorem State.setCore_iat (s : State) (c : CoreId) (k : Core) : (s.setCore c k).iat = s.iat := rfl
@[simp] theorem State.setCore_fetype (s : State) (c : CoreId) (k : Core) : (s.setCore c k).fetype = s.fetype := rfl
@[simp] theorem State.setCore_inrecs (s : State) (c : CoreId) (k : Core) : (s.setCore c k).inrecs = s.inrecs := rfl
@[simp] theorem State.setCore_streams (s : State) (c : CoreId) (k : Core) : (s.setCore c k).streams = s.streams := rfl
@[simp] theorem State.setCore_outs (s : State) (c : CoreId) (k : Core) : (s.setCore c k).outs = s.outs := rfl
@[simp] theorem State.setCore_nextTag (s : State) (c : CoreId) (k : Core) : (s.setCore c k).nextTag = s.nextTag := rfl
@[simp] theorem State.setCore_resets (s : State) (c : CoreId) (k : Core) : (s.setCore c k).resets = s.resets := rfl
@[simp] theorem State.setCore_logs (s : State) (c : CoreId) (k : Core) : (s.setCore c k).logs = s.logs := rfl
@[simp] theorem State.setCore_clocks (s : State) (c : CoreId) (k : Core) : (s.setCore c k).clocks = s.clocks := rfl
@[simp] theorem State.setCore_ageing (s : State) (c : CoreId) (k : Core) : (s.setCore c k).ageing = s.ageing := rfl
@[simp] theorem State.setCore_planes (s : State) (c : CoreId) (k : Core) : (s.setCore c k).planes = s.planes := rfl
@[simp] theorem State.setCore_refresh (s : State) (c : CoreId) (k : Core) : (s.setCore c k).refresh = s.refresh := rfl
@[simp] theorem State.setCore_scrce (s : State) (c : CoreId) (k : Core) : (s.setCore c k).scrce = s.scrce := rfl
@[simp] theorem State.setCore_scrue (s : State) (c : CoreId) (k : Core) : (s.setCore c k).scrue = s.scrue := rfl
@[simp] theorem State.setCore_dlpois (s : State) (c : CoreId) (k : Core) : (s.setCore c k).dlpois = s.dlpois := rfl
@[simp] theorem State.setCore_badPorts (s : State) (c : CoreId) (k : Core) : (s.setCore c k).badPorts = s.badPorts := rfl
@[simp] theorem State.setCore_held (s : State) (c : CoreId) (k : Core) : (s.setCore c k).held = s.held := rfl
@[simp] theorem State.setCore_resetting (s : State) (c : CoreId) (k : Core) : (s.setCore c k).resetting = s.resetting := rfl

/-! ### A core updated -/

@[simp] theorem State.updCore_agenda (s : State) (c : CoreId) (f : Core → Core) : (s.updCore c f).agenda = s.agenda := rfl
@[simp] theorem State.updCore_cur (s : State) (c : CoreId) (f : Core → Core) : (s.updCore c f).cur = s.cur := rfl
@[simp] theorem State.updCore_tick (s : State) (c : CoreId) (f : Core → Core) : (s.updCore c f).tick = s.tick := rfl
@[simp] theorem State.updCore_freeCtr (s : State) (c : CoreId) (f : Core → Core) : (s.updCore c f).freeCtr = s.freeCtr := rfl
@[simp] theorem State.updCore_outbox (s : State) (c : CoreId) (f : Core → Core) : (s.updCore c f).outbox = s.outbox := rfl
@[simp] theorem State.updCore_crossed (s : State) (c : CoreId) (f : Core → Core) : (s.updCore c f).crossed = s.crossed := rfl
@[simp] theorem State.updCore_slept (s : State) (c : CoreId) (f : Core → Core) : (s.updCore c f).slept = s.slept := rfl
@[simp] theorem State.updCore_behind (s : State) (c : CoreId) (f : Core → Core) : (s.updCore c f).behind = s.behind := rfl
@[simp] theorem State.updCore_exams (s : State) (c : CoreId) (f : Core → Core) : (s.updCore c f).exams = s.exams := rfl
@[simp] theorem State.updCore_variant (s : State) (c : CoreId) (f : Core → Core) : (s.updCore c f).variant = s.variant := rfl
@[simp] theorem State.updCore_device (s : State) (c : CoreId) (f : Core → Core) : (s.updCore c f).device = s.device := rfl
@[simp] theorem State.updCore_cycles (s : State) (c : CoreId) (f : Core → Core) : (s.updCore c f).cycles = s.cycles := rfl
@[simp] theorem State.updCore_icycles (s : State) (c : CoreId) (f : Core → Core) : (s.updCore c f).icycles = s.icycles := rfl
@[simp] theorem State.updCore_scycles (s : State) (c : CoreId) (f : Core → Core) : (s.updCore c f).scycles = s.scycles := rfl
@[simp] theorem State.updCore_mem (s : State) (c : CoreId) (f : Core → Core) : (s.updCore c f).mem = s.mem := rfl
@[simp] theorem State.updCore_lmeta (s : State) (c : CoreId) (f : Core → Core) : (s.updCore c f).lmeta = s.lmeta := rfl
@[simp] theorem State.updCore_poison (s : State) (c : CoreId) (f : Core → Core) : (s.updCore c f).poison = s.poison := rfl
@[simp] theorem State.updCore_slices (s : State) (c : CoreId) (f : Core → Core) : (s.updCore c f).slices = s.slices := rfl
@[simp] theorem State.updCore_mshrs (s : State) (c : CoreId) (f : Core → Core) : (s.updCore c f).mshrs = s.mshrs := rfl
@[simp] theorem State.updCore_ingress (s : State) (c : CoreId) (f : Core → Core) : (s.updCore c f).ingress = s.ingress := rfl
@[simp] theorem State.updCore_dir (s : State) (c : CoreId) (f : Core → Core) : (s.updCore c f).dir = s.dir := rfl
@[simp] theorem State.updCore_published (s : State) (c : CoreId) (f : Core → Core) : (s.updCore c f).published = s.published := rfl
@[simp] theorem State.updCore_pairs (s : State) (c : CoreId) (f : Core → Core) : (s.updCore c f).pairs = s.pairs := rfl
@[simp] theorem State.updCore_parts (s : State) (c : CoreId) (f : Core → Core) : (s.updCore c f).parts = s.parts := rfl
@[simp] theorem State.updCore_ctxs (s : State) (c : CoreId) (f : Core → Core) : (s.updCore c f).ctxs = s.ctxs := rfl
@[simp] theorem State.updCore_keyGen (s : State) (c : CoreId) (f : Core → Core) : (s.updCore c f).keyGen = s.keyGen := rfl
@[simp] theorem State.updCore_queues (s : State) (c : CoreId) (f : Core → Core) : (s.updCore c f).queues = s.queues := rfl
@[simp] theorem State.updCore_launches (s : State) (c : CoreId) (f : Core → Core) : (s.updCore c f).launches = s.launches := rfl
@[simp] theorem State.updCore_placed (s : State) (c : CoreId) (f : Core → Core) : (s.updCore c f).placed = s.placed := rfl
@[simp] theorem State.updCore_saved (s : State) (c : CoreId) (f : Core → Core) : (s.updCore c f).saved = s.saved := rfl
@[simp] theorem State.updCore_rotation (s : State) (c : CoreId) (f : Core → Core) : (s.updCore c f).rotation = s.rotation := rfl
@[simp] theorem State.updCore_mbox (s : State) (c : CoreId) (f : Core → Core) : (s.updCore c f).mbox = s.mbox := rfl
@[simp] theorem State.updCore_mrec (s : State) (c : CoreId) (f : Core → Core) : (s.updCore c f).mrec = s.mrec := rfl
@[simp] theorem State.updCore_mwait (s : State) (c : CoreId) (f : Core → Core) : (s.updCore c f).mwait = s.mwait := rfl
@[simp] theorem State.updCore_doorbell (s : State) (c : CoreId) (f : Core → Core) : (s.updCore c f).doorbell = s.doorbell := rfl
@[simp] theorem State.updCore_policy (s : State) (c : CoreId) (f : Core → Core) : (s.updCore c f).policy = s.policy := rfl
@[simp] theorem State.updCore_oldPolicies (s : State) (c : CoreId) (f : Core → Core) : (s.updCore c f).oldPolicies = s.oldPolicies := rfl
@[simp] theorem State.updCore_chips (s : State) (c : CoreId) (f : Core → Core) : (s.updCore c f).chips = s.chips := rfl
@[simp] theorem State.updCore_measures (s : State) (c : CoreId) (f : Core → Core) : (s.updCore c f).measures = s.measures := rfl
@[simp] theorem State.updCore_links (s : State) (c : CoreId) (f : Core → Core) : (s.updCore c f).links = s.links := rfl
@[simp] theorem State.updCore_iat (s : State) (c : CoreId) (f : Core → Core) : (s.updCore c f).iat = s.iat := rfl
@[simp] theorem State.updCore_fetype (s : State) (c : CoreId) (f : Core → Core) : (s.updCore c f).fetype = s.fetype := rfl
@[simp] theorem State.updCore_inrecs (s : State) (c : CoreId) (f : Core → Core) : (s.updCore c f).inrecs = s.inrecs := rfl
@[simp] theorem State.updCore_streams (s : State) (c : CoreId) (f : Core → Core) : (s.updCore c f).streams = s.streams := rfl
@[simp] theorem State.updCore_outs (s : State) (c : CoreId) (f : Core → Core) : (s.updCore c f).outs = s.outs := rfl
@[simp] theorem State.updCore_nextTag (s : State) (c : CoreId) (f : Core → Core) : (s.updCore c f).nextTag = s.nextTag := rfl
@[simp] theorem State.updCore_resets (s : State) (c : CoreId) (f : Core → Core) : (s.updCore c f).resets = s.resets := rfl
@[simp] theorem State.updCore_logs (s : State) (c : CoreId) (f : Core → Core) : (s.updCore c f).logs = s.logs := rfl
@[simp] theorem State.updCore_clocks (s : State) (c : CoreId) (f : Core → Core) : (s.updCore c f).clocks = s.clocks := rfl
@[simp] theorem State.updCore_ageing (s : State) (c : CoreId) (f : Core → Core) : (s.updCore c f).ageing = s.ageing := rfl
@[simp] theorem State.updCore_planes (s : State) (c : CoreId) (f : Core → Core) : (s.updCore c f).planes = s.planes := rfl
@[simp] theorem State.updCore_refresh (s : State) (c : CoreId) (f : Core → Core) : (s.updCore c f).refresh = s.refresh := rfl
@[simp] theorem State.updCore_scrce (s : State) (c : CoreId) (f : Core → Core) : (s.updCore c f).scrce = s.scrce := rfl
@[simp] theorem State.updCore_scrue (s : State) (c : CoreId) (f : Core → Core) : (s.updCore c f).scrue = s.scrue := rfl
@[simp] theorem State.updCore_dlpois (s : State) (c : CoreId) (f : Core → Core) : (s.updCore c f).dlpois = s.dlpois := rfl
@[simp] theorem State.updCore_badPorts (s : State) (c : CoreId) (f : Core → Core) : (s.updCore c f).badPorts = s.badPorts := rfl
@[simp] theorem State.updCore_held (s : State) (c : CoreId) (f : Core → Core) : (s.updCore c f).held = s.held := rfl
@[simp] theorem State.updCore_resetting (s : State) (c : CoreId) (f : Core → Core) : (s.updCore c f).resetting = s.resetting := rfl

/-! ### A free value drawn -/

@[simp] theorem State.drew_agenda (s : State) : (s.drew ).agenda = s.agenda := rfl
@[simp] theorem State.drew_cur (s : State) : (s.drew ).cur = s.cur := rfl
@[simp] theorem State.drew_tick (s : State) : (s.drew ).tick = s.tick := rfl
@[simp] theorem State.drew_outbox (s : State) : (s.drew ).outbox = s.outbox := rfl
@[simp] theorem State.drew_crossed (s : State) : (s.drew ).crossed = s.crossed := rfl
@[simp] theorem State.drew_slept (s : State) : (s.drew ).slept = s.slept := rfl
@[simp] theorem State.drew_behind (s : State) : (s.drew ).behind = s.behind := rfl
@[simp] theorem State.drew_exams (s : State) : (s.drew ).exams = s.exams := rfl
@[simp] theorem State.drew_variant (s : State) : (s.drew ).variant = s.variant := rfl
@[simp] theorem State.drew_device (s : State) : (s.drew ).device = s.device := rfl
@[simp] theorem State.drew_cycles (s : State) : (s.drew ).cycles = s.cycles := rfl
@[simp] theorem State.drew_icycles (s : State) : (s.drew ).icycles = s.icycles := rfl
@[simp] theorem State.drew_scycles (s : State) : (s.drew ).scycles = s.scycles := rfl
@[simp] theorem State.drew_mem (s : State) : (s.drew ).mem = s.mem := rfl
@[simp] theorem State.drew_lmeta (s : State) : (s.drew ).lmeta = s.lmeta := rfl
@[simp] theorem State.drew_poison (s : State) : (s.drew ).poison = s.poison := rfl
@[simp] theorem State.drew_slices (s : State) : (s.drew ).slices = s.slices := rfl
@[simp] theorem State.drew_mshrs (s : State) : (s.drew ).mshrs = s.mshrs := rfl
@[simp] theorem State.drew_ingress (s : State) : (s.drew ).ingress = s.ingress := rfl
@[simp] theorem State.drew_dir (s : State) : (s.drew ).dir = s.dir := rfl
@[simp] theorem State.drew_published (s : State) : (s.drew ).published = s.published := rfl
@[simp] theorem State.drew_pairs (s : State) : (s.drew ).pairs = s.pairs := rfl
@[simp] theorem State.drew_parts (s : State) : (s.drew ).parts = s.parts := rfl
@[simp] theorem State.drew_ctxs (s : State) : (s.drew ).ctxs = s.ctxs := rfl
@[simp] theorem State.drew_keyGen (s : State) : (s.drew ).keyGen = s.keyGen := rfl
@[simp] theorem State.drew_queues (s : State) : (s.drew ).queues = s.queues := rfl
@[simp] theorem State.drew_launches (s : State) : (s.drew ).launches = s.launches := rfl
@[simp] theorem State.drew_placed (s : State) : (s.drew ).placed = s.placed := rfl
@[simp] theorem State.drew_saved (s : State) : (s.drew ).saved = s.saved := rfl
@[simp] theorem State.drew_rotation (s : State) : (s.drew ).rotation = s.rotation := rfl
@[simp] theorem State.drew_mbox (s : State) : (s.drew ).mbox = s.mbox := rfl
@[simp] theorem State.drew_mrec (s : State) : (s.drew ).mrec = s.mrec := rfl
@[simp] theorem State.drew_mwait (s : State) : (s.drew ).mwait = s.mwait := rfl
@[simp] theorem State.drew_doorbell (s : State) : (s.drew ).doorbell = s.doorbell := rfl
@[simp] theorem State.drew_policy (s : State) : (s.drew ).policy = s.policy := rfl
@[simp] theorem State.drew_oldPolicies (s : State) : (s.drew ).oldPolicies = s.oldPolicies := rfl
@[simp] theorem State.drew_chips (s : State) : (s.drew ).chips = s.chips := rfl
@[simp] theorem State.drew_measures (s : State) : (s.drew ).measures = s.measures := rfl
@[simp] theorem State.drew_links (s : State) : (s.drew ).links = s.links := rfl
@[simp] theorem State.drew_iat (s : State) : (s.drew ).iat = s.iat := rfl
@[simp] theorem State.drew_fetype (s : State) : (s.drew ).fetype = s.fetype := rfl
@[simp] theorem State.drew_inrecs (s : State) : (s.drew ).inrecs = s.inrecs := rfl
@[simp] theorem State.drew_streams (s : State) : (s.drew ).streams = s.streams := rfl
@[simp] theorem State.drew_outs (s : State) : (s.drew ).outs = s.outs := rfl
@[simp] theorem State.drew_nextTag (s : State) : (s.drew ).nextTag = s.nextTag := rfl
@[simp] theorem State.drew_resets (s : State) : (s.drew ).resets = s.resets := rfl
@[simp] theorem State.drew_logs (s : State) : (s.drew ).logs = s.logs := rfl
@[simp] theorem State.drew_clocks (s : State) : (s.drew ).clocks = s.clocks := rfl
@[simp] theorem State.drew_ageing (s : State) : (s.drew ).ageing = s.ageing := rfl
@[simp] theorem State.drew_planes (s : State) : (s.drew ).planes = s.planes := rfl
@[simp] theorem State.drew_refresh (s : State) : (s.drew ).refresh = s.refresh := rfl
@[simp] theorem State.drew_scrce (s : State) : (s.drew ).scrce = s.scrce := rfl
@[simp] theorem State.drew_scrue (s : State) : (s.drew ).scrue = s.scrue := rfl
@[simp] theorem State.drew_dlpois (s : State) : (s.drew ).dlpois = s.dlpois := rfl
@[simp] theorem State.drew_badPorts (s : State) : (s.drew ).badPorts = s.badPorts := rfl
@[simp] theorem State.drew_held (s : State) : (s.drew ).held = s.held := rfl
@[simp] theorem State.drew_resetting (s : State) : (s.drew ).resetting = s.resetting := rfl
@[simp] theorem State.drew_cores (s : State) : (s.drew ).cores = s.cores := rfl
@[simp] theorem State.drew_freeCtr (s : State) : s.drew.freeCtr = s.freeCtr + 1 := rfl

/-! ### A status word of the mailbox written -/

@[simp] theorem State.reply_agenda (s : State) (n : Nat) : (s.reply n).agenda = s.agenda := by unfold State.reply; split <;> rfl
@[simp] theorem State.reply_cur (s : State) (n : Nat) : (s.reply n).cur = s.cur := by unfold State.reply; split <;> rfl
@[simp] theorem State.reply_tick (s : State) (n : Nat) : (s.reply n).tick = s.tick := by unfold State.reply; split <;> rfl
@[simp] theorem State.reply_freeCtr (s : State) (n : Nat) : (s.reply n).freeCtr = s.freeCtr := by unfold State.reply; split <;> rfl
@[simp] theorem State.reply_outbox (s : State) (n : Nat) : (s.reply n).outbox = s.outbox := by unfold State.reply; split <;> rfl
@[simp] theorem State.reply_crossed (s : State) (n : Nat) : (s.reply n).crossed = s.crossed := by unfold State.reply; split <;> rfl
@[simp] theorem State.reply_slept (s : State) (n : Nat) : (s.reply n).slept = s.slept := by unfold State.reply; split <;> rfl
@[simp] theorem State.reply_behind (s : State) (n : Nat) : (s.reply n).behind = s.behind := by unfold State.reply; split <;> rfl
@[simp] theorem State.reply_exams (s : State) (n : Nat) : (s.reply n).exams = s.exams := by unfold State.reply; split <;> rfl
@[simp] theorem State.reply_variant (s : State) (n : Nat) : (s.reply n).variant = s.variant := by unfold State.reply; split <;> rfl
@[simp] theorem State.reply_device (s : State) (n : Nat) : (s.reply n).device = s.device := by unfold State.reply; split <;> rfl
@[simp] theorem State.reply_cycles (s : State) (n : Nat) : (s.reply n).cycles = s.cycles := by unfold State.reply; split <;> rfl
@[simp] theorem State.reply_icycles (s : State) (n : Nat) : (s.reply n).icycles = s.icycles := by unfold State.reply; split <;> rfl
@[simp] theorem State.reply_scycles (s : State) (n : Nat) : (s.reply n).scycles = s.scycles := by unfold State.reply; split <;> rfl
@[simp] theorem State.reply_mem (s : State) (n : Nat) : (s.reply n).mem = s.mem := by unfold State.reply; split <;> rfl
@[simp] theorem State.reply_lmeta (s : State) (n : Nat) : (s.reply n).lmeta = s.lmeta := by unfold State.reply; split <;> rfl
@[simp] theorem State.reply_poison (s : State) (n : Nat) : (s.reply n).poison = s.poison := by unfold State.reply; split <;> rfl
@[simp] theorem State.reply_slices (s : State) (n : Nat) : (s.reply n).slices = s.slices := by unfold State.reply; split <;> rfl
@[simp] theorem State.reply_mshrs (s : State) (n : Nat) : (s.reply n).mshrs = s.mshrs := by unfold State.reply; split <;> rfl
@[simp] theorem State.reply_ingress (s : State) (n : Nat) : (s.reply n).ingress = s.ingress := by unfold State.reply; split <;> rfl
@[simp] theorem State.reply_dir (s : State) (n : Nat) : (s.reply n).dir = s.dir := by unfold State.reply; split <;> rfl
@[simp] theorem State.reply_published (s : State) (n : Nat) : (s.reply n).published = s.published := by unfold State.reply; split <;> rfl
@[simp] theorem State.reply_pairs (s : State) (n : Nat) : (s.reply n).pairs = s.pairs := by unfold State.reply; split <;> rfl
@[simp] theorem State.reply_parts (s : State) (n : Nat) : (s.reply n).parts = s.parts := by unfold State.reply; split <;> rfl
@[simp] theorem State.reply_ctxs (s : State) (n : Nat) : (s.reply n).ctxs = s.ctxs := by unfold State.reply; split <;> rfl
@[simp] theorem State.reply_keyGen (s : State) (n : Nat) : (s.reply n).keyGen = s.keyGen := by unfold State.reply; split <;> rfl
@[simp] theorem State.reply_queues (s : State) (n : Nat) : (s.reply n).queues = s.queues := by unfold State.reply; split <;> rfl
@[simp] theorem State.reply_launches (s : State) (n : Nat) : (s.reply n).launches = s.launches := by unfold State.reply; split <;> rfl
@[simp] theorem State.reply_placed (s : State) (n : Nat) : (s.reply n).placed = s.placed := by unfold State.reply; split <;> rfl
@[simp] theorem State.reply_saved (s : State) (n : Nat) : (s.reply n).saved = s.saved := by unfold State.reply; split <;> rfl
@[simp] theorem State.reply_rotation (s : State) (n : Nat) : (s.reply n).rotation = s.rotation := by unfold State.reply; split <;> rfl
@[simp] theorem State.reply_policy (s : State) (n : Nat) : (s.reply n).policy = s.policy := by unfold State.reply; split <;> rfl
@[simp] theorem State.reply_oldPolicies (s : State) (n : Nat) : (s.reply n).oldPolicies = s.oldPolicies := by unfold State.reply; split <;> rfl
@[simp] theorem State.reply_chips (s : State) (n : Nat) : (s.reply n).chips = s.chips := by unfold State.reply; split <;> rfl
@[simp] theorem State.reply_measures (s : State) (n : Nat) : (s.reply n).measures = s.measures := by unfold State.reply; split <;> rfl
@[simp] theorem State.reply_links (s : State) (n : Nat) : (s.reply n).links = s.links := by unfold State.reply; split <;> rfl
@[simp] theorem State.reply_iat (s : State) (n : Nat) : (s.reply n).iat = s.iat := by unfold State.reply; split <;> rfl
@[simp] theorem State.reply_fetype (s : State) (n : Nat) : (s.reply n).fetype = s.fetype := by unfold State.reply; split <;> rfl
@[simp] theorem State.reply_inrecs (s : State) (n : Nat) : (s.reply n).inrecs = s.inrecs := by unfold State.reply; split <;> rfl
@[simp] theorem State.reply_streams (s : State) (n : Nat) : (s.reply n).streams = s.streams := by unfold State.reply; split <;> rfl
@[simp] theorem State.reply_outs (s : State) (n : Nat) : (s.reply n).outs = s.outs := by unfold State.reply; split <;> rfl
@[simp] theorem State.reply_nextTag (s : State) (n : Nat) : (s.reply n).nextTag = s.nextTag := by unfold State.reply; split <;> rfl
@[simp] theorem State.reply_resets (s : State) (n : Nat) : (s.reply n).resets = s.resets := by unfold State.reply; split <;> rfl
@[simp] theorem State.reply_logs (s : State) (n : Nat) : (s.reply n).logs = s.logs := by unfold State.reply; split <;> rfl
@[simp] theorem State.reply_clocks (s : State) (n : Nat) : (s.reply n).clocks = s.clocks := by unfold State.reply; split <;> rfl
@[simp] theorem State.reply_ageing (s : State) (n : Nat) : (s.reply n).ageing = s.ageing := by unfold State.reply; split <;> rfl
@[simp] theorem State.reply_planes (s : State) (n : Nat) : (s.reply n).planes = s.planes := by unfold State.reply; split <;> rfl
@[simp] theorem State.reply_refresh (s : State) (n : Nat) : (s.reply n).refresh = s.refresh := by unfold State.reply; split <;> rfl
@[simp] theorem State.reply_scrce (s : State) (n : Nat) : (s.reply n).scrce = s.scrce := by unfold State.reply; split <;> rfl
@[simp] theorem State.reply_scrue (s : State) (n : Nat) : (s.reply n).scrue = s.scrue := by unfold State.reply; split <;> rfl
@[simp] theorem State.reply_dlpois (s : State) (n : Nat) : (s.reply n).dlpois = s.dlpois := by unfold State.reply; split <;> rfl
@[simp] theorem State.reply_badPorts (s : State) (n : Nat) : (s.reply n).badPorts = s.badPorts := by unfold State.reply; split <;> rfl
@[simp] theorem State.reply_held (s : State) (n : Nat) : (s.reply n).held = s.held := by unfold State.reply; split <;> rfl
@[simp] theorem State.reply_resetting (s : State) (n : Nat) : (s.reply n).resetting = s.resetting := by unfold State.reply; split <;> rfl
@[simp] theorem State.reply_cores (s : State) (n : Nat) : (s.reply n).cores = s.cores := by unfold State.reply; split <;> rfl
@[simp] theorem State.reply_mbox (s : State) (n : Nat) : (s.reply n).mbox = BitVec.ofNat 64 n := by unfold State.reply; split <;> rfl
theorem State.reply_doorbell (s : State) (n : Nat) (h : s.mwait = []) : (s.reply n).doorbell = false := by simp [State.reply, h]

/-! ### Slice lines -/

@[simp] theorem State.putLine_agenda (s : State) (l : SliceLine) : (s.putLine l).agenda = s.agenda := rfl
@[simp] theorem State.putLine_cur (s : State) (l : SliceLine) : (s.putLine l).cur = s.cur := rfl
@[simp] theorem State.putLine_tick (s : State) (l : SliceLine) : (s.putLine l).tick = s.tick := rfl
@[simp] theorem State.putLine_freeCtr (s : State) (l : SliceLine) : (s.putLine l).freeCtr = s.freeCtr := rfl
@[simp] theorem State.putLine_outbox (s : State) (l : SliceLine) : (s.putLine l).outbox = s.outbox := rfl
@[simp] theorem State.putLine_crossed (s : State) (l : SliceLine) : (s.putLine l).crossed = s.crossed := rfl
@[simp] theorem State.putLine_slept (s : State) (l : SliceLine) : (s.putLine l).slept = s.slept := rfl
@[simp] theorem State.putLine_behind (s : State) (l : SliceLine) : (s.putLine l).behind = s.behind := rfl
@[simp] theorem State.putLine_exams (s : State) (l : SliceLine) : (s.putLine l).exams = s.exams := rfl
@[simp] theorem State.putLine_variant (s : State) (l : SliceLine) : (s.putLine l).variant = s.variant := rfl
@[simp] theorem State.putLine_device (s : State) (l : SliceLine) : (s.putLine l).device = s.device := rfl
@[simp] theorem State.putLine_cycles (s : State) (l : SliceLine) : (s.putLine l).cycles = s.cycles := rfl
@[simp] theorem State.putLine_icycles (s : State) (l : SliceLine) : (s.putLine l).icycles = s.icycles := rfl
@[simp] theorem State.putLine_scycles (s : State) (l : SliceLine) : (s.putLine l).scycles = s.scycles := rfl
@[simp] theorem State.putLine_mem (s : State) (l : SliceLine) : (s.putLine l).mem = s.mem := rfl
@[simp] theorem State.putLine_lmeta (s : State) (l : SliceLine) : (s.putLine l).lmeta = s.lmeta := rfl
@[simp] theorem State.putLine_poison (s : State) (l : SliceLine) : (s.putLine l).poison = s.poison := rfl
@[simp] theorem State.putLine_mshrs (s : State) (l : SliceLine) : (s.putLine l).mshrs = s.mshrs := rfl
@[simp] theorem State.putLine_ingress (s : State) (l : SliceLine) : (s.putLine l).ingress = s.ingress := rfl
@[simp] theorem State.putLine_dir (s : State) (l : SliceLine) : (s.putLine l).dir = s.dir := rfl
@[simp] theorem State.putLine_published (s : State) (l : SliceLine) : (s.putLine l).published = s.published := rfl
@[simp] theorem State.putLine_pairs (s : State) (l : SliceLine) : (s.putLine l).pairs = s.pairs := rfl
@[simp] theorem State.putLine_parts (s : State) (l : SliceLine) : (s.putLine l).parts = s.parts := rfl
@[simp] theorem State.putLine_ctxs (s : State) (l : SliceLine) : (s.putLine l).ctxs = s.ctxs := rfl
@[simp] theorem State.putLine_keyGen (s : State) (l : SliceLine) : (s.putLine l).keyGen = s.keyGen := rfl
@[simp] theorem State.putLine_queues (s : State) (l : SliceLine) : (s.putLine l).queues = s.queues := rfl
@[simp] theorem State.putLine_launches (s : State) (l : SliceLine) : (s.putLine l).launches = s.launches := rfl
@[simp] theorem State.putLine_placed (s : State) (l : SliceLine) : (s.putLine l).placed = s.placed := rfl
@[simp] theorem State.putLine_saved (s : State) (l : SliceLine) : (s.putLine l).saved = s.saved := rfl
@[simp] theorem State.putLine_rotation (s : State) (l : SliceLine) : (s.putLine l).rotation = s.rotation := rfl
@[simp] theorem State.putLine_mbox (s : State) (l : SliceLine) : (s.putLine l).mbox = s.mbox := rfl
@[simp] theorem State.putLine_mrec (s : State) (l : SliceLine) : (s.putLine l).mrec = s.mrec := rfl
@[simp] theorem State.putLine_mwait (s : State) (l : SliceLine) : (s.putLine l).mwait = s.mwait := rfl
@[simp] theorem State.putLine_doorbell (s : State) (l : SliceLine) : (s.putLine l).doorbell = s.doorbell := rfl
@[simp] theorem State.putLine_policy (s : State) (l : SliceLine) : (s.putLine l).policy = s.policy := rfl
@[simp] theorem State.putLine_oldPolicies (s : State) (l : SliceLine) : (s.putLine l).oldPolicies = s.oldPolicies := rfl
@[simp] theorem State.putLine_chips (s : State) (l : SliceLine) : (s.putLine l).chips = s.chips := rfl
@[simp] theorem State.putLine_measures (s : State) (l : SliceLine) : (s.putLine l).measures = s.measures := rfl
@[simp] theorem State.putLine_links (s : State) (l : SliceLine) : (s.putLine l).links = s.links := rfl
@[simp] theorem State.putLine_iat (s : State) (l : SliceLine) : (s.putLine l).iat = s.iat := rfl
@[simp] theorem State.putLine_fetype (s : State) (l : SliceLine) : (s.putLine l).fetype = s.fetype := rfl
@[simp] theorem State.putLine_inrecs (s : State) (l : SliceLine) : (s.putLine l).inrecs = s.inrecs := rfl
@[simp] theorem State.putLine_streams (s : State) (l : SliceLine) : (s.putLine l).streams = s.streams := rfl
@[simp] theorem State.putLine_outs (s : State) (l : SliceLine) : (s.putLine l).outs = s.outs := rfl
@[simp] theorem State.putLine_nextTag (s : State) (l : SliceLine) : (s.putLine l).nextTag = s.nextTag := rfl
@[simp] theorem State.putLine_resets (s : State) (l : SliceLine) : (s.putLine l).resets = s.resets := rfl
@[simp] theorem State.putLine_logs (s : State) (l : SliceLine) : (s.putLine l).logs = s.logs := rfl
@[simp] theorem State.putLine_clocks (s : State) (l : SliceLine) : (s.putLine l).clocks = s.clocks := rfl
@[simp] theorem State.putLine_ageing (s : State) (l : SliceLine) : (s.putLine l).ageing = s.ageing := rfl
@[simp] theorem State.putLine_planes (s : State) (l : SliceLine) : (s.putLine l).planes = s.planes := rfl
@[simp] theorem State.putLine_refresh (s : State) (l : SliceLine) : (s.putLine l).refresh = s.refresh := rfl
@[simp] theorem State.putLine_scrce (s : State) (l : SliceLine) : (s.putLine l).scrce = s.scrce := rfl
@[simp] theorem State.putLine_scrue (s : State) (l : SliceLine) : (s.putLine l).scrue = s.scrue := rfl
@[simp] theorem State.putLine_dlpois (s : State) (l : SliceLine) : (s.putLine l).dlpois = s.dlpois := rfl
@[simp] theorem State.putLine_badPorts (s : State) (l : SliceLine) : (s.putLine l).badPorts = s.badPorts := rfl
@[simp] theorem State.putLine_held (s : State) (l : SliceLine) : (s.putLine l).held = s.held := rfl
@[simp] theorem State.putLine_resetting (s : State) (l : SliceLine) : (s.putLine l).resetting = s.resetting := rfl
@[simp] theorem State.putLine_cores (s : State) (l : SliceLine) : (s.putLine l).cores = s.cores := rfl
@[simp] theorem State.dropCopies_agenda (s : State) (d : List (Fin 4)) (n : Nat) : (s.dropCopies d n).agenda = s.agenda := rfl
@[simp] theorem State.dropCopies_cur (s : State) (d : List (Fin 4)) (n : Nat) : (s.dropCopies d n).cur = s.cur := rfl
@[simp] theorem State.dropCopies_tick (s : State) (d : List (Fin 4)) (n : Nat) : (s.dropCopies d n).tick = s.tick := rfl
@[simp] theorem State.dropCopies_freeCtr (s : State) (d : List (Fin 4)) (n : Nat) : (s.dropCopies d n).freeCtr = s.freeCtr := rfl
@[simp] theorem State.dropCopies_outbox (s : State) (d : List (Fin 4)) (n : Nat) : (s.dropCopies d n).outbox = s.outbox := rfl
theorem State.dropCopies_crossed (s : State) (d : List (Fin 4)) (n : Nat) : ∃ p, (s.dropCopies d n).crossed = p ++ s.crossed := ⟨_, rfl⟩
@[simp] theorem State.dropCopies_slept (s : State) (d : List (Fin 4)) (n : Nat) : (s.dropCopies d n).slept = s.slept := rfl
@[simp] theorem State.dropCopies_behind (s : State) (d : List (Fin 4)) (n : Nat) : (s.dropCopies d n).behind = s.behind := rfl
@[simp] theorem State.dropCopies_exams (s : State) (d : List (Fin 4)) (n : Nat) : (s.dropCopies d n).exams = s.exams := rfl
@[simp] theorem State.dropCopies_variant (s : State) (d : List (Fin 4)) (n : Nat) : (s.dropCopies d n).variant = s.variant := rfl
@[simp] theorem State.dropCopies_device (s : State) (d : List (Fin 4)) (n : Nat) : (s.dropCopies d n).device = s.device := rfl
@[simp] theorem State.dropCopies_cycles (s : State) (d : List (Fin 4)) (n : Nat) : (s.dropCopies d n).cycles = s.cycles := rfl
@[simp] theorem State.dropCopies_icycles (s : State) (d : List (Fin 4)) (n : Nat) : (s.dropCopies d n).icycles = s.icycles := rfl
@[simp] theorem State.dropCopies_scycles (s : State) (d : List (Fin 4)) (n : Nat) : (s.dropCopies d n).scycles = s.scycles := rfl
@[simp] theorem State.dropCopies_mem (s : State) (d : List (Fin 4)) (n : Nat) : (s.dropCopies d n).mem = s.mem := rfl
@[simp] theorem State.dropCopies_lmeta (s : State) (d : List (Fin 4)) (n : Nat) : (s.dropCopies d n).lmeta = s.lmeta := rfl
@[simp] theorem State.dropCopies_poison (s : State) (d : List (Fin 4)) (n : Nat) : (s.dropCopies d n).poison = s.poison := rfl
@[simp] theorem State.dropCopies_mshrs (s : State) (d : List (Fin 4)) (n : Nat) : (s.dropCopies d n).mshrs = s.mshrs := rfl
@[simp] theorem State.dropCopies_ingress (s : State) (d : List (Fin 4)) (n : Nat) : (s.dropCopies d n).ingress = s.ingress := rfl
@[simp] theorem State.dropCopies_dir (s : State) (d : List (Fin 4)) (n : Nat) : (s.dropCopies d n).dir = s.dir := rfl
@[simp] theorem State.dropCopies_published (s : State) (d : List (Fin 4)) (n : Nat) : (s.dropCopies d n).published = s.published := rfl
@[simp] theorem State.dropCopies_pairs (s : State) (d : List (Fin 4)) (n : Nat) : (s.dropCopies d n).pairs = s.pairs := rfl
@[simp] theorem State.dropCopies_parts (s : State) (d : List (Fin 4)) (n : Nat) : (s.dropCopies d n).parts = s.parts := rfl
@[simp] theorem State.dropCopies_ctxs (s : State) (d : List (Fin 4)) (n : Nat) : (s.dropCopies d n).ctxs = s.ctxs := rfl
@[simp] theorem State.dropCopies_keyGen (s : State) (d : List (Fin 4)) (n : Nat) : (s.dropCopies d n).keyGen = s.keyGen := rfl
@[simp] theorem State.dropCopies_queues (s : State) (d : List (Fin 4)) (n : Nat) : (s.dropCopies d n).queues = s.queues := rfl
@[simp] theorem State.dropCopies_launches (s : State) (d : List (Fin 4)) (n : Nat) : (s.dropCopies d n).launches = s.launches := rfl
@[simp] theorem State.dropCopies_placed (s : State) (d : List (Fin 4)) (n : Nat) : (s.dropCopies d n).placed = s.placed := rfl
@[simp] theorem State.dropCopies_saved (s : State) (d : List (Fin 4)) (n : Nat) : (s.dropCopies d n).saved = s.saved := rfl
@[simp] theorem State.dropCopies_rotation (s : State) (d : List (Fin 4)) (n : Nat) : (s.dropCopies d n).rotation = s.rotation := rfl
@[simp] theorem State.dropCopies_mbox (s : State) (d : List (Fin 4)) (n : Nat) : (s.dropCopies d n).mbox = s.mbox := rfl
@[simp] theorem State.dropCopies_mrec (s : State) (d : List (Fin 4)) (n : Nat) : (s.dropCopies d n).mrec = s.mrec := rfl
@[simp] theorem State.dropCopies_mwait (s : State) (d : List (Fin 4)) (n : Nat) : (s.dropCopies d n).mwait = s.mwait := rfl
@[simp] theorem State.dropCopies_doorbell (s : State) (d : List (Fin 4)) (n : Nat) : (s.dropCopies d n).doorbell = s.doorbell := rfl
@[simp] theorem State.dropCopies_policy (s : State) (d : List (Fin 4)) (n : Nat) : (s.dropCopies d n).policy = s.policy := rfl
@[simp] theorem State.dropCopies_oldPolicies (s : State) (d : List (Fin 4)) (n : Nat) : (s.dropCopies d n).oldPolicies = s.oldPolicies := rfl
@[simp] theorem State.dropCopies_chips (s : State) (d : List (Fin 4)) (n : Nat) : (s.dropCopies d n).chips = s.chips := rfl
@[simp] theorem State.dropCopies_measures (s : State) (d : List (Fin 4)) (n : Nat) : (s.dropCopies d n).measures = s.measures := rfl
@[simp] theorem State.dropCopies_links (s : State) (d : List (Fin 4)) (n : Nat) : (s.dropCopies d n).links = s.links := rfl
@[simp] theorem State.dropCopies_iat (s : State) (d : List (Fin 4)) (n : Nat) : (s.dropCopies d n).iat = s.iat := rfl
@[simp] theorem State.dropCopies_fetype (s : State) (d : List (Fin 4)) (n : Nat) : (s.dropCopies d n).fetype = s.fetype := rfl
@[simp] theorem State.dropCopies_inrecs (s : State) (d : List (Fin 4)) (n : Nat) : (s.dropCopies d n).inrecs = s.inrecs := rfl
@[simp] theorem State.dropCopies_streams (s : State) (d : List (Fin 4)) (n : Nat) : (s.dropCopies d n).streams = s.streams := rfl
@[simp] theorem State.dropCopies_outs (s : State) (d : List (Fin 4)) (n : Nat) : (s.dropCopies d n).outs = s.outs := rfl
@[simp] theorem State.dropCopies_nextTag (s : State) (d : List (Fin 4)) (n : Nat) : (s.dropCopies d n).nextTag = s.nextTag := rfl
@[simp] theorem State.dropCopies_resets (s : State) (d : List (Fin 4)) (n : Nat) : (s.dropCopies d n).resets = s.resets := rfl
@[simp] theorem State.dropCopies_logs (s : State) (d : List (Fin 4)) (n : Nat) : (s.dropCopies d n).logs = s.logs := rfl
@[simp] theorem State.dropCopies_clocks (s : State) (d : List (Fin 4)) (n : Nat) : (s.dropCopies d n).clocks = s.clocks := rfl
@[simp] theorem State.dropCopies_ageing (s : State) (d : List (Fin 4)) (n : Nat) : (s.dropCopies d n).ageing = s.ageing := rfl
@[simp] theorem State.dropCopies_planes (s : State) (d : List (Fin 4)) (n : Nat) : (s.dropCopies d n).planes = s.planes := rfl
@[simp] theorem State.dropCopies_refresh (s : State) (d : List (Fin 4)) (n : Nat) : (s.dropCopies d n).refresh = s.refresh := rfl
@[simp] theorem State.dropCopies_scrce (s : State) (d : List (Fin 4)) (n : Nat) : (s.dropCopies d n).scrce = s.scrce := rfl
@[simp] theorem State.dropCopies_scrue (s : State) (d : List (Fin 4)) (n : Nat) : (s.dropCopies d n).scrue = s.scrue := rfl
@[simp] theorem State.dropCopies_dlpois (s : State) (d : List (Fin 4)) (n : Nat) : (s.dropCopies d n).dlpois = s.dlpois := rfl
@[simp] theorem State.dropCopies_badPorts (s : State) (d : List (Fin 4)) (n : Nat) : (s.dropCopies d n).badPorts = s.badPorts := rfl
@[simp] theorem State.dropCopies_held (s : State) (d : List (Fin 4)) (n : Nat) : (s.dropCopies d n).held = s.held := rfl
@[simp] theorem State.dropCopies_resetting (s : State) (d : List (Fin 4)) (n : Nat) : (s.dropCopies d n).resetting = s.resetting := rfl
@[simp] theorem State.dropCopies_cores (s : State) (d : List (Fin 4)) (n : Nat) : (s.dropCopies d n).cores = s.cores := rfl

/-! ### A slot of a core replaced or updated -/

@[simp] theorem Core.setSlot_stat (k : Core) (sl : Slot) (x : SlotState) : (k.setSlot sl x).stat = k.stat := rfl
@[simp] theorem Core.setSlot_grp (k : Core) (sl : Slot) (x : SlotState) : (k.setSlot sl x).grp = k.grp := rfl
@[simp] theorem Core.setSlot_pre (k : Core) (sl : Slot) (x : SlotState) : (k.setSlot sl x).pre = k.pre := rfl
@[simp] theorem Core.setSlot_preCause (k : Core) (sl : Slot) (x : SlotState) : (k.setSlot sl x).preCause = k.preCause := rfl
@[simp] theorem Core.setSlot_landSince (k : Core) (sl : Slot) (x : SlotState) : (k.setSlot sl x).landSince = k.landSince := rfl
@[simp] theorem Core.setSlot_q (k : Core) (sl : Slot) (x : SlotState) : (k.setSlot sl x).q = k.q := rfl
@[simp] theorem Core.setSlot_vq (k : Core) (sl : Slot) (x : SlotState) : (k.setSlot sl x).vq = k.vq := rfl
@[simp] theorem Core.setSlot_d (k : Core) (sl : Slot) (x : SlotState) : (k.setSlot sl x).d = k.d := rfl
@[simp] theorem Core.setSlot_v (k : Core) (sl : Slot) (x : SlotState) : (k.setSlot sl x).v = k.v := rfl
@[simp] theorem Core.setSlot_vclock (k : Core) (sl : Slot) (x : SlotState) : (k.setSlot sl x).vclock = k.vclock := rfl
@[simp] theorem Core.setSlot_k (k : Core) (sl : Slot) (x : SlotState) : (k.setSlot sl x).k = k.k := rfl
@[simp] theorem Core.setSlot_masks (k : Core) (sl : Slot) (x : SlotState) : (k.setSlot sl x).masks = k.masks := rfl
@[simp] theorem Core.setSlot_z (k : Core) (sl : Slot) (x : SlotState) : (k.setSlot sl x).z = k.z := rfl
@[simp] theorem Core.setSlot_e (k : Core) (sl : Slot) (x : SlotState) : (k.setSlot sl x).e = k.e := rfl
@[simp] theorem Core.setSlot_acc (k : Core) (sl : Slot) (x : SlotState) : (k.setSlot sl x).acc = k.acc := rfl
@[simp] theorem Core.setSlot_nextId (k : Core) (sl : Slot) (x : SlotState) : (k.setSlot sl x).nextId = k.nextId := rfl
@[simp] theorem Core.setSlot_ranges (k : Core) (sl : Slot) (x : SlotState) : (k.setSlot sl x).ranges = k.ranges := rfl
@[simp] theorem Core.setSlot_ls (k : Core) (sl : Slot) (x : SlotState) : (k.setSlot sl x).ls = k.ls := rfl
@[simp] theorem Core.setSlot_owner (k : Core) (sl : Slot) (x : SlotState) : (k.setSlot sl x).owner = k.owner := rfl
@[simp] theorem Core.setSlot_winEnd (k : Core) (sl : Slot) (x : SlotState) : (k.setSlot sl x).winEnd = k.winEnd := rfl
@[simp] theorem Core.setSlot_lines (k : Core) (sl : Slot) (x : SlotState) : (k.setSlot sl x).lines = k.lines := rfl
@[simp] theorem Core.setSlot_hand (k : Core) (sl : Slot) (x : SlotState) : (k.setSlot sl x).hand = k.hand := rfl
@[simp] theorem Core.setSlot_tclock (k : Core) (sl : Slot) (x : SlotState) : (k.setSlot sl x).tclock = k.tclock := rfl
@[simp] theorem Core.setSlot_reqEd (k : Core) (sl : Slot) (x : SlotState) : (k.setSlot sl x).reqEd = k.reqEd := rfl
@[simp] theorem Core.setSlot_replay (k : Core) (sl : Slot) (x : SlotState) : (k.setSlot sl x).replay = k.replay := rfl
@[simp] theorem Core.setSlot_hcache (k : Core) (sl : Slot) (x : SlotState) : (k.setSlot sl x).hcache = k.hcache := rfl
@[simp] theorem Core.setSlot_tcache (k : Core) (sl : Slot) (x : SlotState) : (k.setSlot sl x).tcache = k.tcache := rfl
@[simp] theorem Core.setSlot_leaves (k : Core) (sl : Slot) (x : SlotState) : (k.setSlot sl x).leaves = k.leaves := rfl
@[simp] theorem Core.setSlot_nonleaf (k : Core) (sl : Slot) (x : SlotState) : (k.setSlot sl x).nonleaf = k.nonleaf := rfl
@[simp] theorem Core.setSlot_walks (k : Core) (sl : Slot) (x : SlotState) : (k.setSlot sl x).walks = k.walks := rfl
@[simp] theorem Core.setSlot_pend (k : Core) (sl : Slot) (x : SlotState) : (k.setSlot sl x).pend = k.pend := rfl
@[simp] theorem Core.setSlot_faults (k : Core) (sl : Slot) (x : SlotState) : (k.setSlot sl x).faults = k.faults := rfl
@[simp] theorem Core.setSlot_resumes (k : Core) (sl : Slot) (x : SlotState) : (k.setSlot sl x).resumes = k.resumes := rfl
@[simp] theorem Core.setSlot_ovfp (k : Core) (sl : Slot) (x : SlotState) : (k.setSlot sl x).ovfp = k.ovfp := rfl
@[simp] theorem Core.setSlot_splls (k : Core) (sl : Slot) (x : SlotState) : (k.setSlot sl x).splls = k.splls := rfl
@[simp] theorem Core.setSlot_splnm (k : Core) (sl : Slot) (x : SlotState) : (k.setSlot sl x).splnm = k.splnm := rfl
@[simp] theorem Core.setSlot_refil (k : Core) (sl : Slot) (x : SlotState) : (k.setSlot sl x).refil = k.refil := rfl
@[simp] theorem Core.setSlot_blkinv (k : Core) (sl : Slot) (x : SlotState) : (k.setSlot sl x).blkinv = k.blkinv := rfl
@[simp] theorem Core.setSlot_blkrsv (k : Core) (sl : Slot) (x : SlotState) : (k.setSlot sl x).blkrsv = k.blkrsv := rfl
@[simp] theorem Core.setSlot_aboff (k : Core) (sl : Slot) (x : SlotState) : (k.setSlot sl x).aboff = k.aboff := rfl
@[simp] theorem Core.setSlot_scdup (k : Core) (sl : Slot) (x : SlotState) : (k.setSlot sl x).scdup = k.scdup := rfl
@[simp] theorem Core.setSlot_tstale (k : Core) (sl : Slot) (x : SlotState) : (k.setSlot sl x).tstale = k.tstale := rfl
@[simp] theorem Core.setSlot_tdisc (k : Core) (sl : Slot) (x : SlotState) : (k.setSlot sl x).tdisc = k.tdisc := rfl
@[simp] theorem Core.setSlot_tpfdr (k : Core) (sl : Slot) (x : SlotState) : (k.setSlot sl x).tpfdr = k.tpfdr := rfl
@[simp] theorem Core.setSlot_cpfiss (k : Core) (sl : Slot) (x : SlotState) : (k.setSlot sl x).cpfiss = k.cpfiss := rfl
@[simp] theorem Core.setSlot_cpfhit (k : Core) (sl : Slot) (x : SlotState) : (k.setSlot sl x).cpfhit = k.cpfhit := rfl
@[simp] theorem Core.setSlot_cpflate (k : Core) (sl : Slot) (x : SlotState) : (k.setSlot sl x).cpflate = k.cpflate := rfl
@[simp] theorem Core.setSlot_cpfdead (k : Core) (sl : Slot) (x : SlotState) : (k.setSlot sl x).cpfdead = k.cpfdead := rfl
@[simp] theorem Core.setSlot_trmis (k : Core) (sl : Slot) (x : SlotState) : (k.setSlot sl x).trmis = k.trmis := rfl
@[simp] theorem Core.setSlot_trmzs (k : Core) (sl : Slot) (x : SlotState) : (k.setSlot sl x).trmzs = k.trmzs := rfl
@[simp] theorem Core.setSlot_trmsy (k : Core) (sl : Slot) (x : SlotState) : (k.setSlot sl x).trmsy = k.trmsy := rfl
@[simp] theorem Core.setSlot_trmdr (k : Core) (sl : Slot) (x : SlotState) : (k.setSlot sl x).trmdr = k.trmdr := rfl
@[simp] theorem Core.setSlot_trmrp (k : Core) (sl : Slot) (x : SlotState) : (k.setSlot sl x).trmrp = k.trmrp := rfl
@[simp] theorem Core.setSlot_trmst (k : Core) (sl : Slot) (x : SlotState) : (k.setSlot sl x).trmst = k.trmst := rfl
@[simp] theorem Core.setSlot_seqlast (k : Core) (sl : Slot) (x : SlotState) : (k.setSlot sl x).seqlast = k.seqlast := rfl
@[simp] theorem Core.setSlot_tierst (k : Core) (sl : Slot) (x : SlotState) : (k.setSlot sl x).tierst = k.tierst := rfl
@[simp] theorem Core.setSlot_tierms (k : Core) (sl : Slot) (x : SlotState) : (k.setSlot sl x).tierms = k.tierms := rfl
@[simp] theorem Core.setSlot_xwalk (k : Core) (sl : Slot) (x : SlotState) : (k.setSlot sl x).xwalk = k.xwalk := rfl
@[simp] theorem Core.setSlot_xjoin (k : Core) (sl : Slot) (x : SlotState) : (k.setSlot sl x).xjoin = k.xjoin := rfl
@[simp] theorem Core.setSlot_itfail (k : Core) (sl : Slot) (x : SlotState) : (k.setSlot sl x).itfail = k.itfail := rfl
@[simp] theorem Core.setSlot_lzseq (k : Core) (sl : Slot) (x : SlotState) : (k.setSlot sl x).lzseq = k.lzseq := rfl
@[simp] theorem Core.setSlot_adopting (k : Core) (sl : Slot) (x : SlotState) : (k.setSlot sl x).adopting = k.adopting := rfl
@[simp] theorem Core.setSlot_repins (k : Core) (sl : Slot) (x : SlotState) : (k.setSlot sl x).repins = k.repins := rfl
@[simp] theorem Core.setSlot_gcmd (k : Core) (sl : Slot) (x : SlotState) : (k.setSlot sl x).gcmd = k.gcmd := rfl
@[simp] theorem Core.setSlot_bundling (k : Core) (sl : Slot) (x : SlotState) : (k.setSlot sl x).bundling = k.bundling := rfl
@[simp] theorem Core.updSlot_stat (k : Core) (sl : Slot) (f : SlotState → SlotState) : (k.updSlot sl f).stat = k.stat := rfl
@[simp] theorem Core.updSlot_grp (k : Core) (sl : Slot) (f : SlotState → SlotState) : (k.updSlot sl f).grp = k.grp := rfl
@[simp] theorem Core.updSlot_pre (k : Core) (sl : Slot) (f : SlotState → SlotState) : (k.updSlot sl f).pre = k.pre := rfl
@[simp] theorem Core.updSlot_preCause (k : Core) (sl : Slot) (f : SlotState → SlotState) : (k.updSlot sl f).preCause = k.preCause := rfl
@[simp] theorem Core.updSlot_landSince (k : Core) (sl : Slot) (f : SlotState → SlotState) : (k.updSlot sl f).landSince = k.landSince := rfl
@[simp] theorem Core.updSlot_q (k : Core) (sl : Slot) (f : SlotState → SlotState) : (k.updSlot sl f).q = k.q := rfl
@[simp] theorem Core.updSlot_vq (k : Core) (sl : Slot) (f : SlotState → SlotState) : (k.updSlot sl f).vq = k.vq := rfl
@[simp] theorem Core.updSlot_d (k : Core) (sl : Slot) (f : SlotState → SlotState) : (k.updSlot sl f).d = k.d := rfl
@[simp] theorem Core.updSlot_v (k : Core) (sl : Slot) (f : SlotState → SlotState) : (k.updSlot sl f).v = k.v := rfl
@[simp] theorem Core.updSlot_vclock (k : Core) (sl : Slot) (f : SlotState → SlotState) : (k.updSlot sl f).vclock = k.vclock := rfl
@[simp] theorem Core.updSlot_k (k : Core) (sl : Slot) (f : SlotState → SlotState) : (k.updSlot sl f).k = k.k := rfl
@[simp] theorem Core.updSlot_masks (k : Core) (sl : Slot) (f : SlotState → SlotState) : (k.updSlot sl f).masks = k.masks := rfl
@[simp] theorem Core.updSlot_z (k : Core) (sl : Slot) (f : SlotState → SlotState) : (k.updSlot sl f).z = k.z := rfl
@[simp] theorem Core.updSlot_e (k : Core) (sl : Slot) (f : SlotState → SlotState) : (k.updSlot sl f).e = k.e := rfl
@[simp] theorem Core.updSlot_acc (k : Core) (sl : Slot) (f : SlotState → SlotState) : (k.updSlot sl f).acc = k.acc := rfl
@[simp] theorem Core.updSlot_nextId (k : Core) (sl : Slot) (f : SlotState → SlotState) : (k.updSlot sl f).nextId = k.nextId := rfl
@[simp] theorem Core.updSlot_ranges (k : Core) (sl : Slot) (f : SlotState → SlotState) : (k.updSlot sl f).ranges = k.ranges := rfl
@[simp] theorem Core.updSlot_ls (k : Core) (sl : Slot) (f : SlotState → SlotState) : (k.updSlot sl f).ls = k.ls := rfl
@[simp] theorem Core.updSlot_owner (k : Core) (sl : Slot) (f : SlotState → SlotState) : (k.updSlot sl f).owner = k.owner := rfl
@[simp] theorem Core.updSlot_winEnd (k : Core) (sl : Slot) (f : SlotState → SlotState) : (k.updSlot sl f).winEnd = k.winEnd := rfl
@[simp] theorem Core.updSlot_lines (k : Core) (sl : Slot) (f : SlotState → SlotState) : (k.updSlot sl f).lines = k.lines := rfl
@[simp] theorem Core.updSlot_hand (k : Core) (sl : Slot) (f : SlotState → SlotState) : (k.updSlot sl f).hand = k.hand := rfl
@[simp] theorem Core.updSlot_tclock (k : Core) (sl : Slot) (f : SlotState → SlotState) : (k.updSlot sl f).tclock = k.tclock := rfl
@[simp] theorem Core.updSlot_reqEd (k : Core) (sl : Slot) (f : SlotState → SlotState) : (k.updSlot sl f).reqEd = k.reqEd := rfl
@[simp] theorem Core.updSlot_replay (k : Core) (sl : Slot) (f : SlotState → SlotState) : (k.updSlot sl f).replay = k.replay := rfl
@[simp] theorem Core.updSlot_hcache (k : Core) (sl : Slot) (f : SlotState → SlotState) : (k.updSlot sl f).hcache = k.hcache := rfl
@[simp] theorem Core.updSlot_tcache (k : Core) (sl : Slot) (f : SlotState → SlotState) : (k.updSlot sl f).tcache = k.tcache := rfl
@[simp] theorem Core.updSlot_leaves (k : Core) (sl : Slot) (f : SlotState → SlotState) : (k.updSlot sl f).leaves = k.leaves := rfl
@[simp] theorem Core.updSlot_nonleaf (k : Core) (sl : Slot) (f : SlotState → SlotState) : (k.updSlot sl f).nonleaf = k.nonleaf := rfl
@[simp] theorem Core.updSlot_walks (k : Core) (sl : Slot) (f : SlotState → SlotState) : (k.updSlot sl f).walks = k.walks := rfl
@[simp] theorem Core.updSlot_pend (k : Core) (sl : Slot) (f : SlotState → SlotState) : (k.updSlot sl f).pend = k.pend := rfl
@[simp] theorem Core.updSlot_faults (k : Core) (sl : Slot) (f : SlotState → SlotState) : (k.updSlot sl f).faults = k.faults := rfl
@[simp] theorem Core.updSlot_resumes (k : Core) (sl : Slot) (f : SlotState → SlotState) : (k.updSlot sl f).resumes = k.resumes := rfl
@[simp] theorem Core.updSlot_ovfp (k : Core) (sl : Slot) (f : SlotState → SlotState) : (k.updSlot sl f).ovfp = k.ovfp := rfl
@[simp] theorem Core.updSlot_splls (k : Core) (sl : Slot) (f : SlotState → SlotState) : (k.updSlot sl f).splls = k.splls := rfl
@[simp] theorem Core.updSlot_splnm (k : Core) (sl : Slot) (f : SlotState → SlotState) : (k.updSlot sl f).splnm = k.splnm := rfl
@[simp] theorem Core.updSlot_refil (k : Core) (sl : Slot) (f : SlotState → SlotState) : (k.updSlot sl f).refil = k.refil := rfl
@[simp] theorem Core.updSlot_blkinv (k : Core) (sl : Slot) (f : SlotState → SlotState) : (k.updSlot sl f).blkinv = k.blkinv := rfl
@[simp] theorem Core.updSlot_blkrsv (k : Core) (sl : Slot) (f : SlotState → SlotState) : (k.updSlot sl f).blkrsv = k.blkrsv := rfl
@[simp] theorem Core.updSlot_aboff (k : Core) (sl : Slot) (f : SlotState → SlotState) : (k.updSlot sl f).aboff = k.aboff := rfl
@[simp] theorem Core.updSlot_scdup (k : Core) (sl : Slot) (f : SlotState → SlotState) : (k.updSlot sl f).scdup = k.scdup := rfl
@[simp] theorem Core.updSlot_tstale (k : Core) (sl : Slot) (f : SlotState → SlotState) : (k.updSlot sl f).tstale = k.tstale := rfl
@[simp] theorem Core.updSlot_tdisc (k : Core) (sl : Slot) (f : SlotState → SlotState) : (k.updSlot sl f).tdisc = k.tdisc := rfl
@[simp] theorem Core.updSlot_tpfdr (k : Core) (sl : Slot) (f : SlotState → SlotState) : (k.updSlot sl f).tpfdr = k.tpfdr := rfl
@[simp] theorem Core.updSlot_cpfiss (k : Core) (sl : Slot) (f : SlotState → SlotState) : (k.updSlot sl f).cpfiss = k.cpfiss := rfl
@[simp] theorem Core.updSlot_cpfhit (k : Core) (sl : Slot) (f : SlotState → SlotState) : (k.updSlot sl f).cpfhit = k.cpfhit := rfl
@[simp] theorem Core.updSlot_cpflate (k : Core) (sl : Slot) (f : SlotState → SlotState) : (k.updSlot sl f).cpflate = k.cpflate := rfl
@[simp] theorem Core.updSlot_cpfdead (k : Core) (sl : Slot) (f : SlotState → SlotState) : (k.updSlot sl f).cpfdead = k.cpfdead := rfl
@[simp] theorem Core.updSlot_trmis (k : Core) (sl : Slot) (f : SlotState → SlotState) : (k.updSlot sl f).trmis = k.trmis := rfl
@[simp] theorem Core.updSlot_trmzs (k : Core) (sl : Slot) (f : SlotState → SlotState) : (k.updSlot sl f).trmzs = k.trmzs := rfl
@[simp] theorem Core.updSlot_trmsy (k : Core) (sl : Slot) (f : SlotState → SlotState) : (k.updSlot sl f).trmsy = k.trmsy := rfl
@[simp] theorem Core.updSlot_trmdr (k : Core) (sl : Slot) (f : SlotState → SlotState) : (k.updSlot sl f).trmdr = k.trmdr := rfl
@[simp] theorem Core.updSlot_trmrp (k : Core) (sl : Slot) (f : SlotState → SlotState) : (k.updSlot sl f).trmrp = k.trmrp := rfl
@[simp] theorem Core.updSlot_trmst (k : Core) (sl : Slot) (f : SlotState → SlotState) : (k.updSlot sl f).trmst = k.trmst := rfl
@[simp] theorem Core.updSlot_seqlast (k : Core) (sl : Slot) (f : SlotState → SlotState) : (k.updSlot sl f).seqlast = k.seqlast := rfl
@[simp] theorem Core.updSlot_tierst (k : Core) (sl : Slot) (f : SlotState → SlotState) : (k.updSlot sl f).tierst = k.tierst := rfl
@[simp] theorem Core.updSlot_tierms (k : Core) (sl : Slot) (f : SlotState → SlotState) : (k.updSlot sl f).tierms = k.tierms := rfl
@[simp] theorem Core.updSlot_xwalk (k : Core) (sl : Slot) (f : SlotState → SlotState) : (k.updSlot sl f).xwalk = k.xwalk := rfl
@[simp] theorem Core.updSlot_xjoin (k : Core) (sl : Slot) (f : SlotState → SlotState) : (k.updSlot sl f).xjoin = k.xjoin := rfl
@[simp] theorem Core.updSlot_itfail (k : Core) (sl : Slot) (f : SlotState → SlotState) : (k.updSlot sl f).itfail = k.itfail := rfl
@[simp] theorem Core.updSlot_lzseq (k : Core) (sl : Slot) (f : SlotState → SlotState) : (k.updSlot sl f).lzseq = k.lzseq := rfl
@[simp] theorem Core.updSlot_adopting (k : Core) (sl : Slot) (f : SlotState → SlotState) : (k.updSlot sl f).adopting = k.adopting := rfl
@[simp] theorem Core.updSlot_repins (k : Core) (sl : Slot) (f : SlotState → SlotState) : (k.updSlot sl f).repins = k.repins := rfl
@[simp] theorem Core.updSlot_gcmd (k : Core) (sl : Slot) (f : SlotState → SlotState) : (k.updSlot sl f).gcmd = k.gcmd := rfl
@[simp] theorem Core.updSlot_bundling (k : Core) (sl : Slot) (f : SlotState → SlotState) : (k.updSlot sl f).bundling = k.bundling := rfl

/-! ### Reading what was written -/

/-- The index of a core determines it. -/
theorem coreIdx_inj {a b : CoreId} (h : coreIdx a = coreIdx b) : a = b := by
  obtain ⟨⟨d, hd⟩, ⟨e, he⟩⟩ := a
  obtain ⟨⟨d', hd'⟩, ⟨e', he'⟩⟩ := b
  simp [coreIdx] at h
  have : d = d' ∧ e = e' := by omega
  simp [this.1, this.2]

@[simp] theorem State.setCore_core (s : State) (c : CoreId) (k : Core) : (s.setCore c k).core c = k := by
  simp [State.core, State.setCore]

theorem State.setCore_core_ne (s : State) {c d : CoreId} (h : c ≠ d) (k : Core) : (s.setCore c k).core d = s.core d := by
  have : coreIdx c ≠ coreIdx d := fun e => h (coreIdx_inj e)
  have : (coreIdx c).val ≠ (coreIdx d).val := fun e => this (Fin.ext e)
  simp [State.core, State.setCore, Vector.getElem_set, this]

@[simp] theorem State.updCore_core (s : State) (c : CoreId) (f : Core → Core) : (s.updCore c f).core c = f (s.core c) := by
  simp [State.updCore]

theorem State.updCore_core_ne (s : State) {c d : CoreId} (h : c ≠ d) (f : Core → Core) : (s.updCore c f).core d = s.core d :=
  s.setCore_core_ne h _

/-- An update that leaves its core as it is changes nothing. -/
theorem State.updCore_same (s : State) (c : CoreId) (f : Core → Core) (h : f (s.core c) = s.core c) : s.updCore c f = s := by
  rw [State.updCore, h, State.setCore, State.core]
  simp

/-- Two updates of one core are one. -/
@[simp] theorem State.updCore_updCore (s : State) (c : CoreId) (f g : Core → Core) :
    (s.updCore c f).updCore c g = s.updCore c fun k => g (f k) := by
  rw [State.updCore, State.updCore_core, State.updCore, State.setCore, State.setCore, State.updCore, State.setCore]
  simp [Vector.set_set]

/-- Two slots have one number only if they are one slot. -/
theorem Slot.fin_inj {a b : Slot} (h : Slot.fin a = Slot.fin b) : a = b := by
  cases a <;> cases b <;> first | rfl | exact absurd h (by decide)

@[simp] theorem Core.setSlot_slot (k : Core) (sl : Slot) (x : SlotState) : (k.setSlot sl x).slot sl = x := by
  simp [Core.slot, Core.setSlot]

theorem Core.setSlot_slot_ne (k : Core) {a b : Slot} (h : a ≠ b) (x : SlotState) : (k.setSlot a x).slot b = k.slot b := by
  have : (Slot.fin a).val ≠ (Slot.fin b).val := fun e => h (Slot.fin_inj (Fin.ext e))
  simp [Core.slot, Core.setSlot, Vector.getElem_set, this]

@[simp] theorem Core.updSlot_slot (k : Core) (sl : Slot) (f : SlotState → SlotState) : (k.updSlot sl f).slot sl = f (k.slot sl) := by
  simp [Core.updSlot]

theorem Core.updSlot_slot_ne (k : Core) {a b : Slot} (h : a ≠ b) (f : SlotState → SlotState) : (k.updSlot a f).slot b = k.slot b :=
  k.setSlot_slot_ne h _

end Sys2Proof.Machine
end

