-- ==== Sys2Proof/Laws/Memory.lean ====
section
/-! SUPPORT. The memory list: what a read after a write gives, and that every operation keeps the canonical form. -/

namespace Sys2Proof.Machine

open Sys2Proof

/-! ### Reading after writing -/

theorem memAbove_get {a : Nat} : ∀ {m : List Host.Cell}, memAbove a m = true → Memory.wf m = true → ∀ b ≤ a, memGet m b = 0
  | [], _, _, _, _ => rfl
  | (x, v) :: r, h, w, b, hb => by
    have hx : a < x := by simpa [memAbove] using h
    simp only [Memory.wf, Bool.and_eq_true] at w
    have : b ≠ x := by omega
    simp only [memGet, this, if_false]
    exact memAbove_get (a := x) w.1.2 w.2 b (by omega)

/-- A read of a byte after a write to it gives what was written. -/
theorem memGet_memSet : ∀ {m : List Host.Cell}, Memory.wf m = true → ∀ a b, memGet (memSet m a b) a = b
  | [], _, a, b => by by_cases h : b = 0#8 <;> simp [memSet, memGet, h]
  | (x, c) :: r, w, a, b => by
    have w' := w
    simp only [Memory.wf, Bool.and_eq_true] at w
    unfold memSet
    by_cases h1 : a < x
    · simp only [h1, if_true]
      by_cases h : b = 0#8
      · have : a ≠ x := by omega
        simp [h, memGet, this]
        exact memAbove_get (a := x) w.1.2 w.2 a (by omega)
      · simp [h, memGet]
    · simp only [h1, if_false]
      by_cases h2 : a = x
      · subst h2
        simp only [if_true]
        by_cases h : b = 0#8
        · simp [h]
          exact memAbove_get w.1.2 w.2 a (Nat.le_refl a)
        · simp [h, memGet]
      · simp only [h2, if_false, memGet]
        exact memGet_memSet w.2 a b

/-- A write leaves every other byte alone. -/
theorem memGet_memSet_ne : ∀ (m : List Host.Cell) {a d : Nat}, d ≠ a → ∀ b, memGet (memSet m a b) d = memGet m d
  | [], a, d, h, b => by by_cases hb : b = 0#8 <;> simp [memSet, memGet, hb, h]
  | (x, c) :: r, a, d, h, b => by
    unfold memSet
    by_cases h1 : a < x
    · by_cases hb : b = 0#8 <;> simp [h1, hb, memGet, h]
    · by_cases h2 : a = x
      · subst h2
        by_cases hb : b = 0#8 <;> simp [hb, memGet, h]
      · simp only [h1, h2, if_false, memGet, memGet_memSet_ne r h b]

/-! ### The canonical form -/

theorem memAbove_mono {x y : Nat} (h : x < y) : ∀ {m : List Host.Cell}, memAbove y m = true → memAbove x m = true
  | [], _ => rfl
  | (z, _) :: _, hm => by simp [memAbove] at *; omega

theorem memAbove_set {x a : Nat} (h : x < a) (b : Byte) :
    ∀ {m : List Host.Cell}, memAbove x m = true → Memory.wf m = true → memAbove x (memSet m a b) = true
  | [], _, _ => by by_cases hb : b = 0#8 <;> simp [memSet, memAbove, hb, h]
  | (y, c) :: r, hm, w => by
    have hy : x < y := by simpa [memAbove] using hm
    simp only [Memory.wf, Bool.and_eq_true] at w
    unfold memSet
    by_cases h1 : a < y
    · by_cases hb : b = 0#8 <;> simp [h1, hb, memAbove, h, hy]
    · by_cases h2 : a = y
      · subst h2
        by_cases hb : b = 0#8
        · simpa [hb] using memAbove_mono h w.1.2
        · simp [hb, memAbove, h]
      · simp [h1, h2, memAbove, hy]

/-- A write keeps the canonical form. -/
theorem memSet_wf : ∀ {m : List Host.Cell}, Memory.wf m = true → ∀ a b, Memory.wf (memSet m a b) = true
  | [], _, a, b => by by_cases h : b = 0#8 <;> simp [memSet, Memory.wf, memAbove, h]
  | (x, c) :: r, w, a, b => by
    have w' := w
    simp only [Memory.wf, Bool.and_eq_true] at w
    obtain ⟨⟨hc, hr⟩, wr⟩ := w
    unfold memSet
    by_cases h1 : a < x
    · by_cases hb : b = 0#8
      · simp [h1, hb, w']
      · have ha : memAbove a ((x, c) :: r) = true := by simp [memAbove, h1]
        simp [h1, hb, Memory.wf, hr, wr, ha]
        simpa using hc
    · by_cases h2 : a = x
      · subst h2
        by_cases hb : b = 0#8
        · simp [hb, wr]
        · simp [hb, Memory.wf, hr, wr]
      · have h3 : x < a := by omega
        simp only [h1, h2, if_false, Memory.wf, Bool.and_eq_true]
        exact ⟨⟨hc, memAbove_set h3 b hr wr⟩, memSet_wf wr a b⟩

theorem memSets_wf : ∀ (l : List Byte) {m : List Host.Cell}, Memory.wf m = true → ∀ a, Memory.wf (memSets m a l) = true
  | [], _, w, _ => w
  | b :: r, _, w, a => memSets_wf r (memSet_wf w a b) (a + 1)

/-- Cells left out keep the form. -/
theorem memFilter_above {x : Nat} (p : Host.Cell → Bool) :
    ∀ {m : List Host.Cell}, memAbove x m = true → Memory.wf m = true → memAbove x (m.filter p) = true
  | [], _, _ => rfl
  | (y, c) :: r, h, w => by
    simp only [Memory.wf, Bool.and_eq_true] at w
    have hy : x < y := by simpa [memAbove] using h
    by_cases hp : p (y, c) = true
    · simp [hp, memAbove, hy]
    · simp only [List.filter_cons, hp]
      exact memFilter_above p (memAbove_mono hy w.1.2) w.2

theorem memFilter_wf (p : Host.Cell → Bool) : ∀ {m : List Host.Cell}, Memory.wf m = true → Memory.wf (m.filter p) = true
  | [], _ => rfl
  | (y, c) :: r, w => by
    have w' := w
    simp only [Memory.wf, Bool.and_eq_true] at w
    by_cases hp : p (y, c) = true
    · simp only [List.filter_cons, hp, if_true, Memory.wf, Bool.and_eq_true]
      exact ⟨⟨w.1.1, memFilter_above p w.1.2 w.2⟩, memFilter_wf p w.2⟩
    · simp only [List.filter_cons, hp]
      exact memFilter_wf p w.2

/-- The addresses of a list in the form are all above what its head is above. -/
theorem memAbove_all {x : Nat} : ∀ {m : List Host.Cell}, memAbove x m = true → Memory.wf m = true → ∀ c ∈ m, x < c.1
  | [], _, _, _, h => by simp at h
  | (y, v) :: r, h, w, c, hc => by
    simp only [Memory.wf, Bool.and_eq_true] at w
    have hy : x < y := by simpa [memAbove] using h
    rcases List.mem_cons.1 hc with e | e
    · subst e; exact hy
    · exact memAbove_all (memAbove_mono hy w.1.2) w.2 c e

/-- Two lists in the form, the first below the second, make one. -/
theorem memAppend_wf : ∀ {l r : List Host.Cell}, Memory.wf l = true → Memory.wf r = true → (∀ a ∈ l, ∀ b ∈ r, a.1 < b.1) →
    Memory.wf (l ++ r) = true
  | [], _, _, wr, _ => wr
  | (x, v) :: l, r, wl, wr, h => by
    simp only [Memory.wf, Bool.and_eq_true] at wl
    have hr : memAbove x (l ++ r) = true := by
      cases l with
      | nil =>
        cases r with
        | nil => rfl
        | cons b r => simpa [memAbove] using h (x, v) (by simp) b (by simp)
      | cons a l => simpa [memAbove] using wl.1.2
    simp only [List.cons_append, Memory.wf, Bool.and_eq_true]
    exact ⟨⟨wl.1.1, hr⟩, memAppend_wf wl.2 wr fun a ha b hb => h a (List.mem_cons_of_mem _ ha) b hb⟩

/-- Consecutive bytes with their addresses, the zero ones left out, are in the form. -/
theorem memRun_wf : ∀ (l : List Byte) (a : Nat),
    Memory.wf (((natRange a l.length).zip l).filter fun x => x.2 != 0) = true ∧
      ∀ c ∈ ((natRange a l.length).zip l).filter (fun x => x.2 != 0), a ≤ c.1 ∧ c.1 < a + l.length
  | [], _ => by simp [natRange, Memory.wf]
  | b :: r, a => by
    have step : natRange a (b :: r).length = a :: natRange (a + 1) r.length := by
      simp [natRange, List.range_succ_eq_map, Function.comp_def, Nat.add_assoc, Nat.add_comm 1]
    obtain ⟨w, m⟩ := memRun_wf r (a + 1)
    rw [step, List.zip_cons_cons]
    by_cases hb : b = 0
    · simp only [hb, List.filter_cons, bne_self_eq_false, Bool.false_eq_true, if_false]
      refine ⟨w, fun c hc => ?_⟩
      have := m c hc
      simp only [List.length_cons]
      omega
    · have hb' : (b != 0) = true := by simpa using hb
      simp only [List.filter_cons, hb', if_true]
      refine ⟨?_, fun c hc => ?_⟩
      · refine memAppend_wf (l := [(a, b)]) ?_ w fun x hx y hy => ?_
        · simpa [Memory.wf, memAbove] using hb
        · have := (m y hy).1
          simp only [List.mem_singleton] at hx
          subst hx
          show a < y.1
          omega
      · rcases List.mem_cons.1 hc with e | e
        · subst e; simp
        · have := m c e
          simp only [List.length_cons]
          omega

/-- A run of bytes put in place of what a range of memory held keeps the form. -/
theorem memPut_wf {m : List Host.Cell} (h : Memory.wf m = true) (a : Nat) (l : List Byte) : Memory.wf (memPut m a l) = true := by
  obtain ⟨w, r⟩ := memRun_wf l a
  refine memAppend_wf (memAppend_wf (memFilter_wf _ h) w fun x hx y hy => ?_) (memFilter_wf _ h) fun x hx y hy => ?_
  · have h1 : x.1 < a := by simpa using (List.mem_filter.1 hx).2
    have := (r y hy).1
    omega
  · have h2 : a + l.length ≤ y.1 := by simpa using (List.mem_filter.1 hy).2
    rcases List.mem_append.1 hx with e | e
    · have : x.1 < a := by simpa using (List.mem_filter.1 e).2
      omega
    · have := (r x e).2
      omega

/-! ### The operations on the state -/

theorem State.cohSet_mem_wf (s : State) (h : Memory.wf s.mem = true) (a : Nat) (b : Byte) : Memory.wf (s.cohSet a b).mem = true := by
  unfold State.cohSet
  cases s.ownLine (lineOf a) with
  | none => exact memSet_wf h a b
  | some l =>
    dsimp only
    split
    · exact h
    · exact memSet_wf h a b

theorem State.cohBytes_mem_wf : ∀ (l : List Byte) (s : State), Memory.wf s.mem = true → ∀ a, Memory.wf (s.cohBytes a l).mem = true
  | [], _, h, _ => h
  | b :: r, s, h, a => State.cohBytes_mem_wf r (s.cohSet a b) (s.cohSet_mem_wf h a b) (a + 1)

/-- A line that is needed leaves everything but the list of requests that wait for a sleeping channel. -/
theorem State.needChannel_slept (s : State) (p : BitVec 6) (n : Nat) : ∃ l, s.needChannel p n = { s with slept := s.slept ++ l } := by
  unfold State.needChannel
  split
  · exact ⟨_, rfl⟩
  · exact ⟨[], by simp⟩

theorem foldNeed_slept (f : State → Nat → State) (hf : ∀ s n, ∃ l, f s n = { s with slept := s.slept ++ l }) :
    ∀ (x : List Nat) (s : State), ∃ l, x.foldl f s = { s with slept := s.slept ++ l }
  | [], s => ⟨[], by simp⟩
  | n :: r, s => by
    obtain ⟨a, ha⟩ := hf s n
    obtain ⟨b, hb⟩ := foldNeed_slept f hf r (f s n)
    exact ⟨a ++ b, by rw [List.foldl_cons, hb, ha, ← List.append_assoc]⟩

/-- Bytes that the device reaches for itself leave everything but that list (01 R24). -/
theorem State.touch_slept (s : State) (a n : Nat) : ∃ l, s.touch a n = { s with slept := s.slept ++ l } := by
  unfold State.touch
  split
  · exact ⟨[], by simp⟩
  · refine foldNeed_slept _ (fun s n => ?_) _ s
    split
    · split
      · exact ⟨[], by simp⟩
      · exact s.needChannel_slept _ n
    · exact ⟨[], by simp⟩

theorem State.cohWrite_mem_wf (l : List Byte) (s : State) (h : Memory.wf s.mem = true) (a : Nat) :
    Memory.wf (s.cohWrite a l).mem = true := by
  obtain ⟨x, hx⟩ := s.touch_slept a l.length
  exact State.cohBytes_mem_wf l (s.touch a l.length) (by rw [hx]; exact h) a

theorem State.wrNat_mem_wf (s : State) (h : Memory.wf s.mem = true) (a n v : Nat) : Memory.wf (s.wrNat a n v).mem = true :=
  State.cohWrite_mem_wf _ s h a

theorem foldSets_wf (d : Nat → List Byte) (at' : Nat → Nat) :
    ∀ (l : List Nat) {m : List Host.Cell}, Memory.wf m = true →
      Memory.wf (l.foldl (fun m i => memSets m (at' i) (d i)) m) = true
  | [], _, w => w
  | i :: r, _, w => foldSets_wf d at' r (memSets_wf (d i) w (at' i))

theorem State.needChannel_mem (s : State) (p : BitVec 6) (n : Nat) : (s.needChannel p n).mem = s.mem := by
  obtain ⟨l, h⟩ := s.needChannel_slept p n
  rw [h]

theorem State.writeBack_mem_wf (s : State) (h : Memory.wf s.mem = true) (l : SliceLine) : Memory.wf (s.writeBack l).mem = true := by
  unfold State.writeBack
  split
  · exact h
  · refine foldSets_wf _ _ _ ?_
    split
    · rw [State.needChannel_mem]; exact h
    · exact h

/-- A step that keeps the form keeps it over a list. -/
theorem foldl_mem_wf {α : Type} (f : State → α → State) (hf : ∀ s a, Memory.wf s.mem = true → Memory.wf (f s a).mem = true) :
    ∀ (l : List α) (s : State), Memory.wf s.mem = true → Memory.wf (l.foldl f s).mem = true
  | [], _, h => h
  | a :: r, s, h => foldl_mem_wf f hf r (f s a) (hf s a h)

theorem State.evictLine_mem_wf (s : State) (h : Memory.wf s.mem = true) (d : Fin 4) (n : Nat) :
    Memory.wf (s.evictLine d n).mem = true := by
  unfold State.evictLine
  refine foldl_mem_wf _ (fun s l h => ?_) _ s h
  split
  · exact h
  · exact s.writeBack_mem_wf h l

theorem State.recallLine_mem_wf (s : State) (h : Memory.wf s.mem = true) (n : Nat) : Memory.wf (s.recallLine n).mem = true :=
  foldl_mem_wf _ (fun s d h => s.evictLine_mem_wf h d n) _ s h

theorem State.makeRoom_mem_wf (s : State) (h : Memory.wf s.mem = true) (d : Fin 4) (n : Nat) : Memory.wf (s.makeRoom d n).mem = true := by
  unfold State.makeRoom
  dsimp only
  split
  · exact h
  · split
    · exact h
    · exact State.evictLine_mem_wf s.drew h _ _

theorem State.ensureSectors_mem_wf (s : State) (h : Memory.wf s.mem = true) (p : BitVec 6) (n : Nat) (b : Bool) (need : BitVec 8) :
    Memory.wf (s.ensureSectors p n b need).mem = true := by
  have hw : Memory.wf (s.needChannel p n).mem = true := by rw [State.needChannel_mem]; exact h
  unfold State.ensureSectors
  split
  · split
    · exact h
    · exact hw
  · have room : ∀ (b : Prop) [Decidable b] (t : State), Memory.wf t.mem = true → ∀ d n,
        Memory.wf (if b then t else t.makeRoom d n).mem = true := fun b _ t ht d n => by
      split
      · exact ht
      · exact t.makeRoom_mem_wf ht d n
    simp only [State.drew]
    split
    · exact room _ s h _ _
    · exact room _ _ hw _ _

/-- A line read keeps the form: a line that it evicts is written back. -/
theorem State.readLine_mem_wf (s : State) (h : Memory.wf s.mem = true) (p : BitVec 6) (k : KeyTag) (a n : Nat) (b : Bool) :
    Memory.wf (s.readLine p k a n b).1.mem = true := by
  unfold State.readLine
  dsimp only
  split <;> exact s.ensureSectors_mem_wf h p _ b _

/-- A queue's descriptor written keeps the form, and so do queues that arm. -/
theorem State.publishQueue_mem_wf (s : State) (h : Memory.wf s.mem = true) (q : QueueRun) : Memory.wf (s.publishQueue q).mem = true := by
  unfold State.publishQueue
  generalize s.qdesc q.ctx q.n = d
  generalize bitsOf (s.rdNat (d + 8) 1) 0 6 + 64 * q.state.code = w
  exact State.wrNat_mem_wf _ (State.wrNat_mem_wf _ (State.wrNat_mem_wf _ (s.wrNat_mem_wf h _ _ _) _ _ _) _ _ _) _ _ _

theorem State.setQueue_mem_wf (s : State) (h : Memory.wf s.mem = true) (q : QueueRun) : Memory.wf (s.setQueue q).mem = true := by
  unfold State.setQueue
  refine State.publishQueue_mem_wf _ ?_ q
  exact h

theorem State.armLine_mem_wf (s : State) (n : Nat) (h : Memory.wf s.mem = true) : Memory.wf (s.armLine n).mem = true := by
  unfold State.armLine
  refine foldl_mem_wf _ (fun s q h => ?_) _ s h
  split
  · exact s.setQueue_mem_wf h _
  · exact h

/-- A line written keeps the form. -/
theorem State.writeOffsets_mem_wf (s t : State) (hs : Memory.wf s.mem = true) (p : BitVec 6) (w : Stamping) (a : Nat)
    (l : List (Nat × Byte)) (b : Bool) (h : s.writeOffsets p w a l b = .ok t) : Memory.wf t.mem = true := by
  unfold State.writeOffsets at h
  dsimp only at h
  split at h
  · cases h
  · simp only [Except.map] at h
    split at h
    · cases h
    · cases h
      refine State.armLine_mem_wf _ _ ?_
      have h1 := s.ensureSectors_mem_wf hs p
      simp only [State.drew_mem, State.putLine_mem]
      split
      · exact h1 _ b _
      · exact State.ensureSectors_mem_wf _ (h1 _ b _) p _ b _

/-- A table cleared, and a range wiped, keep the form (08 R196, 11 R273, 16 R328). -/
theorem State.clearTable_mem_wf (s : State) (h : Memory.wf s.mem = true) (a n : Nat) : Memory.wf (s.clearTable a n).mem = true := by
  obtain ⟨l, e⟩ := s.touch_slept a n
  simp only [State.clearTable, e]
  exact memFilter_wf _ h

theorem State.wipe_mem_wf (s : State) (h : Memory.wf s.mem = true) (a n : Nat) : Memory.wf (s.wipe a n).mem = true := memFilter_wf _ h

theorem foldMoved_wf (new : Nat → Nat) : ∀ (l : List Host.Cell) (m : List Host.Cell), Memory.wf m = true →
    Memory.wf (l.foldl (fun m c => memSet m (new c.1) c.2) m) = true
  | [], _, h => h
  | c :: r, _, h => foldMoved_wf new r _ (memSet_wf h (new c.1) c.2)

/-- Bytes that other partition records reach at other addresses keep the form (11 R266). -/
theorem State.remapTo_mem_wf (s t : State) (h : Memory.wf s.mem = true) : Memory.wf (s.remapTo t).mem = true := by
  unfold State.remapTo
  split
  · exact h
  · exact foldMoved_wf _ _ _ (memFilter_wf _ (foldl_mem_wf _ (fun s n h => s.recallLine_mem_wf h n) _ s h))

theorem State.reset_mem_wf : Memory.wf State.reset.mem = true := rfl

end Sys2Proof.Machine
end

