-- ==== Sys2Proof/Laws/Lane.lean ====
section
/-! SUPPORT. What a lane word does, once for all: it acts on the state in which it has issued, is suppressed, stays blocked or raises its
fault; and what a raised fault leaves. -/

namespace Sys2Proof.Machine

open Sys2Proof

/-- A word whose body succeeds takes the state that its body answers. -/
theorem lane_next {h : Head} {body : LaneM Unit} {s t : State} (hi : Issues h s) (hb : body (started h s) = .ok ((), t)) :
    lane h body s = .next t := by
  obtain ⟨h1, h2, h3⟩ := hi
  simp only [started] at hb
  simp [lane, issueLane, issueWith, h1, h2, h3, hb, settle]

/-- A word whose body faults takes the state before it, with the fault raised. -/
theorem lane_fault {h : Head} {body : LaneM Unit} {s : State} {f : FaultRec} (hi : Issues h s)
    (hb : body (started h s) = .error (.fault f)) : lane h body s = .next (laneFault f s) := by
  obtain ⟨h1, h2, h3⟩ := hi
  simp only [started] at hb
  simp [lane, issueLane, issueWith, h1, h2, h3, hb, settle, stopLane]

/-- A word whose body meets a fault in a memory access of its own takes the state before it but for the counts of that access, with the fault
raised. -/
theorem lane_accessFault {h : Head} {body : LaneM Unit} {s : State} {f : FaultRec} {r : Trail} (hi : Issues h s)
    (hb : body (started h s) = .error (.accessFault f r)) :
    lane h body s = .next (laneFault f (s.updCore s.cur.1 r.onto)) := by
  obtain ⟨h1, h2, h3⟩ := hi
  simp only [started] at hb
  simp [lane, issueLane, issueWith, h1, h2, h3, hb, settle, stopLane]

/-- A word whose body blocks leaves the state before it, with the slot blocked. -/
theorem lane_stall {h : Head} {body : LaneM Unit} {s : State} {b : BlockKind} (hi : Issues h s)
    (hb : body (started h s) = .error (.stall b)) : lane h body s = .next (blockSlot b s) := by
  obtain ⟨h1, h2, h3⟩ := hi
  simp only [started] at hb
  simp [lane, issueLane, issueWith, h1, h2, h3, hb, settle, stopLane]

/-- A suppressed word issues and does nothing. -/
theorem lane_suppressed {h : Head} {body : LaneM Unit} {s : State} (hi : Suppressed h s) : lane h body s = .next (started h s) := by
  obtain ⟨h1, h2, h3⟩ := hi
  simp [lane, issueLane, issueWith, h1, h2, h3, started]

/-- A slot that may not issue does not move. -/
theorem lane_idle {h : Head} {body : LaneM Unit} {s : State} (hi : (s.core s.cur.1).mayIssue s.cur.2 = false) :
    lane h body s = .next s := by
  simp [lane, issueLane, issueWith, hi]

/-- Every outcome of a word of a lane. -/
theorem lane_cases {h : Head} {body : LaneM Unit} {s t : State} (e : lane h body s = .next t) :
    t = s ∨ t = blockSlot .plain s ∨ (Suppressed h s ∧ t = started h s) ∨
      (Issues h s ∧
        ((∃ b, body (started h s) = .error (.stall b) ∧ t = blockSlot b s) ∨
          (∃ f, body (started h s) = .error (.fault f) ∧ t = laneFault f s) ∨
          (∃ f r, body (started h s) = .error (.accessFault f r) ∧ t = laneFault f (s.updCore s.cur.1 r.onto)) ∨
          body (started h s) = .ok ((), t))) := by
  cases h1 : (s.core s.cur.1).mayIssue s.cur.2 with
  | false => rw [lane_idle h1] at e; cases e; exact .inl rfl
  | true =>
    cases h2 : guardOf h ((s.core s.cur.1).slot s.cur.2) with
    | false =>
      cases h3 : schedReady h true (s.core s.cur.1) s.cur.2 with
      | false =>
        simp [lane, issueLane, issueWith, h1, h2, h3] at e
        exact .inr (.inl e.symm)
      | true =>
        have hs : Suppressed h s := ⟨h1, h2, h3⟩
        rw [lane_suppressed hs] at e
        cases e
        exact .inr (.inr (.inl ⟨hs, rfl⟩))
    | true =>
      cases h3 : schedReady h false (s.core s.cur.1) s.cur.2 with
      | false =>
        simp [lane, issueLane, issueWith, h1, h2, h3] at e
        exact .inr (.inl e.symm)
      | true =>
        have hi : Issues h s := ⟨h1, h2, h3⟩
        refine .inr (.inr (.inr ⟨hi, ?_⟩))
        cases hb : body (started h s) with
        | ok r => rw [lane_next (t := r.2) hi (by rw [hb])] at e; cases e; exact .inr (.inr (.inr rfl))
        | error x =>
          cases x with
          | stall b => rw [lane_stall hi hb] at e; cases e; exact .inl ⟨b, rfl, rfl⟩
          | fault f => rw [lane_fault hi hb] at e; cases e; exact .inr (.inl ⟨f, rfl, rfl⟩)
          | accessFault f r => rw [lane_accessFault hi hb] at e; cases e; exact .inr (.inr (.inl ⟨f, r, rfl, rfl⟩))

/-! ### A raised fault (14 R311) -/

/-- The error record of a fault changes no core. -/
theorem State.cohBytes_cores : ∀ (l : List Byte) (s : State) (a : Nat), (s.cohBytes a l).cores = s.cores
  | [], _, _ => rfl
  | b :: r, s, a => by
    rw [State.cohBytes, State.cohBytes_cores r]
    unfold State.cohSet
    cases s.ownLine (lineOf a) with
    | none => rfl
    | some l => dsimp only; split <;> rfl

theorem State.wrNat_cores (s : State) (a n v : Nat) : (s.wrNat a n v).cores = s.cores := by
  obtain ⟨l, h⟩ := s.touch_slept a (natLe n v).length
  exact (State.cohBytes_cores _ (s.touch a _) a).trans (by rw [h])

theorem State.updCtx_cores (s : State) (c : BitVec 10) (f : Context → Context) : (s.updCtx c f).cores = s.cores := by
  unfold State.updCtx
  split
  · rfl
  · simp [State.publishCtx, State.wrNat_cores, State.setCtx]

theorem State.appendError_cores (s : State) (c : BitVec 10) (f : FaultRec) (a b q : Nat) : (s.appendError c f a b q).cores = s.cores := by
  unfold State.appendError
  split
  · rfl
  · dsimp only
    split
    · simp [State.setCtx, State.wrNat_cores]
    · simp [State.setCtx, State.wrNat_cores]

theorem State.groupError_cores (s : State) (c : CoreId) (f : FaultRec) : (s.groupError c f).cores = s.cores := by
  unfold State.groupError
  split
  · rfl
  · exact s.appendError_cores _ f _ _ _

/-- The core that a fault is raised on: the fault is recorded, and the group is trapping. -/
theorem raiseFault_core (c : CoreId) (f : FaultRec) (op : FaultOp) (s : State) :
    (raiseFault c f op s).core c = { s.core c with
      faults := (s.core c).faults ++ [⟨f, op⟩]
      stat := match (s.core c).stat with
        | .trapping q => .trapping q
        | _ => .trapping false } := by
  have : (s.groupError c f).core c = s.core c := by simp [State.core, State.groupError_cores]
  cases h : (s.core c).stat <;> simp [raiseFault, State.updCore_core, this, h]

theorem raiseFault_core_ne {c d : CoreId} (h : c ≠ d) (f : FaultRec) (op : FaultOp) (s : State) :
    (raiseFault c f op s).core d = s.core d := by
  exact (State.updCore_core_ne _ h _).trans (by simp [State.core, State.groupError_cores])

end Sys2Proof.Machine
end

