-- ==== Sys2Proof/Laws/Operands.lean ====
section
/-! SUPPORT. The operand forms and the shared operations of the lanes, one lemma for each: what it answers when it succeeds, and the state
that it leaves. -/

namespace Sys2Proof.Machine

open Sys2Proof

/-! ### Bodies in sequence -/

theorem bind_ok {α β : Type} {m : LaneM α} {f : α → LaneM β} {s s1 : State} {a : α} (h : m s = .ok (a, s1)) :
    (m >>= f) s = f a s1 := by
  show (m s >>= fun p => f p.1 p.2) = _
  rw [h]; rfl

theorem bind_inv {α β : Type} {m : LaneM α} {f : α → LaneM β} {s : State} {r : β × State} (h : (m >>= f) s = .ok r) :
    ∃ a s1, m s = .ok (a, s1) ∧ f a s1 = .ok r := by
  change (m s >>= fun p => f p.1 p.2) = _ at h
  cases e : m s with
  | error x => rw [e] at h; cases h
  | ok p => rw [e] at h; exact ⟨p.1, p.2, rfl, h⟩

/-- A body in sequence, for use as a rewriting rule once what its first part answers is known. -/
theorem bind_app {α β : Type} (m : LaneM α) (f : α → LaneM β) (s : State) :
    (m >>= f) s = (match m s with | .ok p => f p.1 p.2 | .error e => .error e) := by
  show (m s >>= fun p => f p.1 p.2) = _
  cases m s <;> rfl

theorem pure_app {α : Type} (a : α) (s : State) : (pure a : LaneM α) s = .ok (a, s) := rfl
theorem guardFault_true (f : FaultRec) (s : State) : guardFault true f s = .ok ((), s) := rfl
theorem guardStall_true (s : State) : guardStall true s = .ok ((), s) := rfl
theorem guardLegal_true (s : State) : guardLegal true s = .ok ((), s) := rfl

theorem getGroup_ok {s : State} {g : GroupInfo} (h : (s.core s.cur.1).grp = some g) : getGroup s = .ok (g, s) := by
  simp [getGroup, h]

theorem pure_inv {α : Type} {a : α} {s : State} {r : α × State} (h : (pure a : LaneM α) s = .ok r) : r = (a, s) := by
  cases h; rfl

@[simp] theorem getCore_ok (s : State) : getCore s = .ok (s.core s.cur.1, s) := rfl
@[simp] theorem getSlot_ok (s : State) : getSlot s = .ok ((s.core s.cur.1).slot s.cur.2, s) := rfl
@[simp] theorem curSlot_ok (s : State) : curSlot s = .ok (s.cur.2, s) := rfl
@[simp] theorem curCore_ok (s : State) : curCore s = .ok (s.cur.1, s) := rfl
@[simp] theorem modCore_ok (f : Core → Core) (s : State) : modCore f s = .ok ((), s.updCore s.cur.1 f) := rfl

@[simp] theorem nextId_ok (s : State) : nextId s = .ok ((s.core s.cur.1).nextId, s) := rfl
@[simp] theorem curBundle_ok (s : State) : curBundle s = .ok (((s.core s.cur.1).slot s.cur.2).pc - 1, s) := rfl

/-- A guard that holds goes on in the same state. -/
theorem guardStall_inv {b : Bool} {s : State} {r : Unit × State} (h : guardStall b s = .ok r) : b = true ∧ r = ((), s) := by
  cases b with
  | false => cases h
  | true => cases h; exact ⟨rfl, rfl⟩

theorem guardFault_inv {b : Bool} {f : FaultRec} {s : State} {r : Unit × State} (h : guardFault b f s = .ok r) :
    b = true ∧ r = ((), s) := by
  cases b with
  | false => cases h
  | true => cases h; exact ⟨rfl, rfl⟩

theorem guardLegal_inv {b : Bool} {s : State} {r : Unit × State} (h : guardLegal b s = .ok r) : b = true ∧ r = ((), s) := by
  cases b with
  | false => cases h
  | true => cases h; exact ⟨rfl, rfl⟩

theorem getGroup_inv {s : State} {r : GroupInfo × State} (h : getGroup s = .ok r) :
    (s.core s.cur.1).grp = some r.1 ∧ r.2 = s := by
  unfold getGroup at h
  split at h
  · cases h; exact ⟨by assumption, rfl⟩
  · cases h

/-! ### Sources -/

/-- A scalar register reads as it stands, once no outstanding access or operation writes it (05 R109). -/
theorem readReg_inv {n : Fin 64} {s t : State} {v : Word} (h : readReg n s = .ok (v, t)) :
    (s.core s.cur.1).regPending s.cur.2 n = false ∧ v = ((s.core s.cur.1).slot s.cur.2).s[n] ∧ t = s := by
  unfold readReg at h
  obtain ⟨_, _, h1, h⟩ := bind_inv h
  cases h1
  obtain ⟨_, _, h1, h⟩ := bind_inv h
  cases h1
  obtain ⟨_, _, h1, h⟩ := bind_inv h
  obtain ⟨hp, h1⟩ := guardStall_inv h1
  cases h1
  obtain ⟨_, _, h1, h⟩ := bind_inv h
  cases h1
  cases h
  exact ⟨by simpa using hp, rfl, rfl⟩

/-- A pop changes the one queue and nothing else (02 R32). -/
theorem popScalar_state {n : Nat} {p : Bool} {s t : State} {v : Word} (h : popScalar n p s = .ok (v, t)) :
    ∃ q, t = s.updCore s.cur.1 fun k => { k with q := k.q.set (scalarQ n) q } := by
  unfold popScalar at h
  obtain ⟨_, _, h1, h⟩ := bind_inv h
  cases h1
  generalize popResult _ _ _ _ = r at h
  cases r with
  | error e => cases h
  | ok p =>
    obtain ⟨_, _, h1, h⟩ := bind_inv h
    cases h1
    cases h
    exact ⟨_, rfl⟩

theorem popVector_state {n : Nat} {p : Bool} {s t : State} {v : VReg} (h : popVector n p s = .ok (v, t)) :
    ∃ q, t = s.updCore s.cur.1 fun k => { k with vq := k.vq.set (vectorQ n) q } := by
  unfold popVector at h
  obtain ⟨_, _, h1, h⟩ := bind_inv h
  cases h1
  generalize popResult _ _ _ _ = r at h
  cases r with
  | error e => cases h
  | ok p =>
    obtain ⟨_, _, h1, h⟩ := bind_inv h
    cases h1
    cases h
    exact ⟨_, rfl⟩

/-- A scalar source changes nothing but the queue that it pops. -/
theorem readS_state {o : Operand} {s t : State} {v : Word} (h : readS o s = .ok (v, t)) :
    t = s ∨ ∃ n q, o.name = .q n ∧ t = s.updCore s.cur.1 fun k => { k with q := k.q.set (scalarQ n.val) q } := by
  cases e : o.name <;> simp only [readS, e] at h
  case s n => exact .inl (readReg_inv h).2.2
  case q n =>
    split at h
    · cases h
    · obtain ⟨q, e'⟩ := popScalar_state h
      exact .inr ⟨n, q, rfl, e'⟩
  case p n =>
    obtain ⟨_, _, h1, h⟩ := bind_inv h
    obtain ⟨_, _, h2, h1⟩ := bind_inv h1
    cases h2
    cases h1
    cases h
    exact .inl rfl
  all_goals first | (cases h; exact .inl rfl) | cases h

/-- Whatever a scalar source is, only the scalar queues of the core may differ afterwards. -/
theorem readS_queues {o : Operand} {s t : State} {v : Word} (h : readS o s = .ok (v, t)) :
    ∃ q, t = s.updCore s.cur.1 fun k => { k with q := q } := by
  rcases readS_state h with rfl | ⟨n, q, _, e⟩
  · exact ⟨(t.core t.cur.1).q, (State.updCore_same _ _ _ rfl).symm⟩
  · refine ⟨(s.core s.cur.1).q.set (scalarQ n.val) q, ?_⟩
    rw [e]; rfl

theorem readSrc2_queues {o : Src2} {s t : State} {v : Word} (h : readSrc2 o s = .ok (v, t)) :
    ∃ q, t = s.updCore s.cur.1 fun k => { k with q := q } := by
  cases o with
  | reg r => exact readS_queues h
  | imm i => cases h; exact ⟨(s.core s.cur.1).q, (State.updCore_same _ _ _ rfl).symm⟩

/-! ### Destinations -/

/-- The core whose outstanding writes of a register are dropped, as a later write to it does (05 R109, log 11). -/
def dropWrites (sl : Slot) (n : Fin 64) (k : Core) : Core :=
  { k with
    acc := k.acc.map fun a => if a.slot == sl && a.dest == .sreg n then { a with dropped := true } else a
    e := k.e.map fun q => { q with ops := q.ops.map fun o => if o.slot == sl && o.dest == .sreg n then { o with dropped := true } else o } }

/-- A register written takes the value, and earlier outstanding writes to it are dropped. -/
theorem writeReg_ok (n : Fin 64) (v : Word) (s : State) :
    writeReg n v s = .ok ((), s.updCore s.cur.1 fun k =>
      (dropWrites s.cur.2 n k).updSlot s.cur.2 fun t => { t with s := t.s.set n v }) := by
  unfold writeReg
  rw [bind_ok (curSlot_ok s), bind_ok (modCore_ok _ s)]
  simp only [modSlot, State.updCore_updCore, State.updCore_cur]
  rfl

/-- A push appends one entry, or is discarded where the consumer has ended (05 R127). -/
theorem pushScalar_state {n : Nat} {v : Word} {s t : State} (h : pushScalar n v s = .ok ((), t)) :
    t = s ∨ ∃ q, t = s.updCore s.cur.1 fun k => { k with q := k.q.set (scalarQ n) q } := by
  unfold pushScalar at h
  obtain ⟨_, _, h1, h⟩ := bind_inv h
  cases h1
  split at h
  · cases h; exact .inl rfl
  · obtain ⟨_, _, h1, h⟩ := bind_inv h
    obtain ⟨_, h1⟩ := guardStall_inv h1
    cases h1
    cases h
    exact .inr ⟨_, rfl⟩

/-- What a scalar destination does: a register is written, a queue pushed, and c.zero discards. -/
theorem writeS_state {o : Operand} {v : Word} {s t : State} (h : writeS o v s = .ok ((), t)) :
    (∃ n, o.name = .s n ∧ t = s.updCore s.cur.1 fun k =>
      (dropWrites s.cur.2 n k).updSlot s.cur.2 fun x => { x with s := x.s.set n v }) ∨
    (∃ n q, o.name = .q n ∧ t = s.updCore s.cur.1 fun k => { k with q := k.q.set (scalarQ n.val) q }) ∨ t = s := by
  cases e : o.name <;> simp only [writeS, e] at h
  case s n =>
    rw [writeReg_ok] at h
    cases h
    exact .inl ⟨n, rfl, rfl⟩
  case q n =>
    split at h
    · cases h
    · rcases pushScalar_state h with rfl | ⟨q, e'⟩
      · exact .inr (.inr rfl)
      · exact .inr (.inl ⟨n, q, rfl, e'⟩)
  all_goals first | (cases h; exact .inr (.inr rfl)) | cases h

/-- A reserved destination: nothing of the core but its queues, and the outstanding writes of the register, may differ. -/
theorem reserve_state {q : Fin 32} {id : Nat} {s t : State} {d : Dest} (h : reserve q id s = .ok (d, t)) :
    ∃ x y, t = s.updCore s.cur.1 fun k => { k with q := x, vq := y } := by
  have same : s = s.updCore s.cur.1 fun k => { k with q := (s.core s.cur.1).q, vq := (s.core s.cur.1).vq } :=
    (State.updCore_same _ _ _ rfl).symm
  unfold reserve at h
  obtain ⟨_, _, h1, h⟩ := bind_inv h
  cases h1
  split at h
  · cases h; exact ⟨_, _, same⟩
  · split at h
    · obtain ⟨_, _, h1, h⟩ := bind_inv h
      obtain ⟨_, h1⟩ := guardStall_inv h1
      cases h1
      obtain ⟨_, _, h1, h⟩ := bind_inv h
      cases h1
      cases h
      exact ⟨(s.core s.cur.1).q, _, rfl⟩
    · obtain ⟨_, _, h1, h⟩ := bind_inv h
      obtain ⟨_, h1⟩ := guardStall_inv h1
      cases h1
      obtain ⟨_, _, h1, h⟩ := bind_inv h
      cases h1
      cases h
      exact ⟨_, (s.core s.cur.1).vq, rfl⟩

/-- A destination reserved for access `id`: a register, whose outstanding writes are dropped; a queue entry; or none. -/
theorem reserveDest_state {o : Operand} {id : Nat} {s t : State} {d : Dest} (h : reserveDest o id s = .ok (d, t)) :
    (∃ n, o.name = .s n ∧ d = .sreg n ∧ t = s.updCore s.cur.1 (dropWrites s.cur.2 n)) ∨
      ∃ x y, t = s.updCore s.cur.1 fun k => { k with q := x, vq := y } := by
  cases e : o.name <;> simp only [reserveDest, e] at h
  case s n =>
    obtain ⟨_, _, h1, h⟩ := bind_inv h
    cases h1
    obtain ⟨_, _, h1, h⟩ := bind_inv h
    cases h1
    cases h
    exact .inl ⟨n, rfl, rfl, rfl⟩
  case q n => exact .inr (reserve_state h)
  all_goals
    cases h
    exact .inr ⟨(s.core s.cur.1).q, (s.core s.cur.1).vq, (State.updCore_same _ _ _ rfl).symm⟩

/-- The number that the next access takes, the slot that moves and its PC are the same after a destination is reserved. -/
theorem reserveDest_keeps {o : Operand} {id : Nat} {s t : State} {d : Dest} (h : reserveDest o id s = .ok (d, t)) :
    t.cur = s.cur ∧ (t.core t.cur.1).nextId = (s.core s.cur.1).nextId ∧ (t.core t.cur.1).slots = (s.core s.cur.1).slots := by
  rcases reserveDest_state h with ⟨n, _, _, rfl⟩ | ⟨x, y, rfl⟩ <;> simp [dropWrites]

/-! ### Handles and addresses -/

theorem handleEntry_state (s : State) (c : CoreId) (n : BitVec 12) :
    ∃ l, (s.handleEntry c n).1 = s.updCore c fun k => { k with hcache := l } := by
  unfold State.handleEntry
  dsimp only
  have same : s = s.updCore c fun k => { k with hcache := (s.core c).hcache } := (State.updCore_same _ _ _ rfl).symm
  split
  · exact ⟨_, same⟩
  · split
    · exact ⟨_, same⟩
    · exact ⟨_, rfl⟩

/-- A handle read: only the core's handle cache may differ (06 R130). -/
theorem getHandle_state {n : BitVec 12} {s t : State} {x : Handle} (h : getHandle n s = .ok (x, t)) :
    ∃ l, t = s.updCore s.cur.1 fun k => { k with hcache := l } := by
  obtain ⟨l, e⟩ := handleEntry_state s s.cur.1 n
  unfold getHandle at h
  dsimp only at h
  split at h
  · cases h; exact ⟨l, e⟩
  · cases h

/-- An address formed: what it checked, and that only the scalar queues and the handle cache of the core may differ (06 R130). -/
theorem handleAddr_inv {ad : Addr} {ssc : Ssc} {size align : Nat} {load : Bool} {s t : State} {hd : Handle} {va : BitVec 56}
    (h : handleAddr ad ssc size align load s = .ok ((hd, va), t)) :
    ∃ a s1, readS ad.fa s = .ok (a, s1) ∧ getHandle ad.hdl s1 = .ok (hd, t) ∧ sscNames ssc hd.space.kind = true ∧
      (load && hd.space == .peer) = false ∧ 0 ≤ a.toInt + ad.off.toInt ∧ a.toInt + ad.off.toInt + size ≤ hd.bound ∧
      (hd.base + (a.toInt + ad.off.toInt)) % align = 0 ∧ va = BitVec.ofInt 56 (hd.base + (a.toInt + ad.off.toInt)) := by
  unfold handleAddr at h
  obtain ⟨a, s1, ha, h⟩ := bind_inv h
  obtain ⟨x, s2, hh, h⟩ := bind_inv h
  obtain ⟨_, _, h1, h⟩ := bind_inv h
  obtain ⟨g1, h1⟩ := guardFault_inv h1
  cases h1
  obtain ⟨_, _, h1, h⟩ := bind_inv h
  obtain ⟨g2, h1⟩ := guardFault_inv h1
  cases h1
  obtain ⟨_, _, h1, h⟩ := bind_inv h
  obtain ⟨g3, h1⟩ := guardFault_inv h1
  cases h1
  obtain ⟨_, _, h1, h⟩ := bind_inv h
  obtain ⟨g4, h1⟩ := guardFault_inv h1
  cases h1
  cases h
  simp only [Bool.and_eq_true, decide_eq_true_eq] at g3 g4
  exact ⟨a, s1, ha, hh, g1, by simpa only [Bool.not_eq_true'] using g2, g3.1, g3.2, g4, rfl⟩

theorem handleAddr_state {ad : Addr} {ssc : Ssc} {size align : Nat} {load : Bool} {s t : State} {r : Handle × BitVec 56}
    (h : handleAddr ad ssc size align load s = .ok (r, t)) :
    ∃ q l, t = s.updCore s.cur.1 fun k => { k with q := q, hcache := l } := by
  obtain ⟨a, s1, ha, hh, _⟩ := handleAddr_inv (hd := r.1) (va := r.2) h
  obtain ⟨q, rfl⟩ := readS_queues ha
  obtain ⟨l, rfl⟩ := getHandle_state hh
  exact ⟨q, l, by simp⟩

/-- A local offset formed: what it checked, and that only the scalar queues of the core may differ (06 R130, R135). -/
theorem localAddr_inv {ad : Addr} {ssc : Ssc} {size align : Nat} {store : Bool} {s t : State} {off : Nat}
    (h : localAddr ad ssc size align store s = .ok (off, t)) :
    ∃ a g, readS ad.fa s = .ok (a, t) ∧ (t.core t.cur.1).grp = some g ∧ ssc.l = true ∧ (off : Int) = a.toInt + ad.off.toInt ∧
      (if store then g.layout.writable off size else g.layout.readable off size) = true ∧ off % align = 0 ∧
      rangeStalls (t.core t.cur.1) store off size = false := by
  unfold localAddr localOffset at h
  obtain ⟨o, s1, h1, h⟩ := bind_inv h
  obtain ⟨a, s2, ha, h1⟩ := bind_inv h1
  cases h1
  obtain ⟨g, s3, hgrp, h⟩ := bind_inv h
  have hg := (getGroup_inv hgrp).1
  have e := (getGroup_inv hgrp).2
  dsimp only at e hg
  rw [e] at h
  clear hgrp e
  obtain ⟨_, _, h1, h⟩ := bind_inv h
  obtain ⟨g1, h1⟩ := guardFault_inv h1
  cases h1
  obtain ⟨_, _, h1, h⟩ := bind_inv h
  obtain ⟨g2, h1⟩ := guardFault_inv h1
  cases h1
  obtain ⟨_, _, h1, h⟩ := bind_inv h
  obtain ⟨g3, h1⟩ := guardFault_inv h1
  cases h1
  obtain ⟨_, _, h1, h⟩ := bind_inv h
  cases h1
  obtain ⟨_, _, h1, h⟩ := bind_inv h
  obtain ⟨g4, h1⟩ := guardStall_inv h1
  cases h1
  cases h
  simp only [Bool.and_eq_true, decide_eq_true_eq] at g2 g3
  have e : ((a.toInt + ad.off.toInt).toNat : Int) = a.toInt + ad.off.toInt := Int.toNat_of_nonneg g2.1
  exact ⟨a, g, ha, hg, g1, e, g2.2, by rw [← e] at g3; exact_mod_cast g3, by simpa using g4⟩

/-! ### Entering the core's lists -/

/-- An access enters where the slot has tags for its parts. -/
theorem issueAccess_ok {a : Access} {s : State} (h : tagRoom (s.core s.cur.1) a.slot a.parts.length = true) :
    issueAccess a s = .ok ((), s.updCore s.cur.1 (withAccess a)) := by
  unfold issueAccess
  rw [bind_ok (getCore_ok s)]
  rw [h]
  rfl

theorem issueAccess_inv {a : Access} {s : State} {r : Unit × State} (h : issueAccess a s = .ok r) :
    tagRoom (s.core s.cur.1) a.slot a.parts.length = true ∧ r = ((), s.updCore s.cur.1 (withAccess a)) := by
  unfold issueAccess at h
  obtain ⟨_, _, h1, h⟩ := bind_inv h
  cases h1
  obtain ⟨_, _, h1, h⟩ := bind_inv h
  obtain ⟨g, h1⟩ := guardStall_inv h1
  cases h1
  cases h
  exact ⟨g, rfl⟩

/-- An operation enters a queue that can take it. -/
theorem enterEngine_ok {e : Fin 6} {o : EngOp} {r : Option Range} {s : State} (h : (s.core s.cur.1).queueOpen e = true)
    (hr : r.isNone = true ∨ (s.core s.cur.1).ranges.length < 32) :
    enterEngine e o r s = .ok ((), s.updCore s.cur.1 (withOp e o r)) := by
  unfold enterEngine
  rw [bind_ok (getCore_ok s), h]
  have : (r.isNone || decide ((s.core s.cur.1).ranges.length < 32)) = true := by
    rcases hr with hr | hr <;> simp [hr]
  rw [this]
  rfl

theorem enterEngine_inv {e : Fin 6} {o : EngOp} {r : Option Range} {s : State} {u : Unit × State}
    (h : enterEngine e o r s = .ok u) :
    (s.core s.cur.1).queueOpen e = true ∧ u = ((), s.updCore s.cur.1 (withOp e o r)) := by
  unfold enterEngine at h
  obtain ⟨_, _, h1, h⟩ := bind_inv h
  cases h1
  obtain ⟨_, _, h1, h⟩ := bind_inv h
  obtain ⟨g, h1⟩ := guardStall_inv h1
  cases h1
  obtain ⟨_, _, h1, h⟩ := bind_inv h
  obtain ⟨_, h1⟩ := guardStall_inv h1
  cases h1
  cases h
  exact ⟨g, rfl⟩

end Sys2Proof.Machine
end

