-- ==== Sys2Proof/Laws/PerInstr.lean ====
section
/-! SUPPORT. One lemma per constructor: the decoder answers the instruction only for words that the encoder gives it. -/

namespace Sys2Proof.Laws.DecodeSound

open Sys2Proof

/-- What the decoder reads as the instruction is well formed in its slot and encodes to exactly the word read (04 R96). -/
def Statement (i : Instr) : Prop := ∀ sl w, decode sl w = .ok i → i.wf sl = true ∧ encode sl i = w

theorem nop (h : Head) : Statement (.nop h) := decode_sound _
theorem endSlot (h : Head) : Statement (.endSlot h) := decode_sound _
theorem br (h : Head) (o : BrOp) : Statement (.br h o) := decode_sound _
theorem brx (h : Head) (o : BrxOp) : Statement (.brx h o) := decode_sound _
theorem call (h : Head) (o : RegDisp) : Statement (.call h o) := decode_sound _
theorem ret (h : Head) (o : Operand) : Statement (.ret h o) := decode_sound _
theorem lpset (h : Head) (o : RegDisp) : Statement (.lpset h o) := decode_sound _
theorem lpend (h : Head) : Statement (.lpend h) := decode_sound _
theorem lpendExit (h : Head) (o : BitVec 32) : Statement (.lpendExit h o) := decode_sound _
theorem add (h : Head) (o : SBin) : Statement (.add h o) := decode_sound _
theorem sub (h : Head) (o : SBin) : Statement (.sub h o) := decode_sound _
theorem mul (h : Head) (o : SBin) : Statement (.mul h o) := decode_sound _
theorem mulh (h : Head) (o : SBin) : Statement (.mulh h o) := decode_sound _
theorem div (h : Head) (o : SBin) : Statement (.div h o) := decode_sound _
theorem rem (h : Head) (o : SBin) : Statement (.rem h o) := decode_sound _
theorem and (h : Head) (o : SBin) : Statement (.and h o) := decode_sound _
theorem or (h : Head) (o : SBin) : Statement (.or h o) := decode_sound _
theorem xor (h : Head) (o : SBin) : Statement (.xor h o) := decode_sound _
theorem shl (h : Head) (o : SBin) : Statement (.shl h o) := decode_sound _
theorem shr (h : Head) (o : SBin) : Statement (.shr h o) := decode_sound _
theorem sar (h : Head) (o : SBin) : Statement (.sar h o) := decode_sound _
theorem min (h : Head) (o : SBin) : Statement (.min h o) := decode_sound _
theorem max (h : Head) (o : SBin) : Statement (.max h o) := decode_sound _
theorem clz (h : Head) (o : SUn) : Statement (.clz h o) := decode_sound _
theorem popc (h : Head) (o : SUn) : Statement (.popc h o) := decode_sound _
theorem sel (h : Head) (o : SSel) : Statement (.sel h o) := decode_sound _
theorem mov (h : Head) (o : SUn) : Statement (.mov h o) := decode_sound _
theorem movi (h : Head) (o : SImm) : Statement (.movi h o) := decode_sound _
theorem moviHigh (h : Head) (o : SImm) : Statement (.moviHigh h o) := decode_sound _
theorem cmp (h : Head) (o : SCmp) : Statement (.cmp h o) := decode_sound _
theorem qdrop (h : Head) (o : Operand) : Statement (.qdrop h o) := decode_sound _
theorem qcnt (h : Head) (o : QCntOp) : Statement (.qcnt h o) := decode_sound _
theorem tidwr (h : Head) (o : TidWrOp) : Statement (.tidwr h o) := decode_sound _
theorem tidrd (h : Head) (o : TidRdOp) : Statement (.tidrd h o) := decode_sound _
theorem rdsys (h : Head) (o : SysOp) : Statement (.rdsys h o) := decode_sound _
theorem wrsys (h : Head) (o : SysOp) : Statement (.wrsys h o) := decode_sound _
theorem wrsysImmediate (h : Head) (o : SysImm) : Statement (.wrsysImmediate h o) := decode_sound _
theorem rdcyc (h : Head) (o : Operand) : Statement (.rdcyc h o) := decode_sound _
theorem trap (h : Head) (o : TrapOp) : Statement (.trap h o) := decode_sound _
theorem yield (h : Head) : Statement (.yield h) := decode_sound _
theorem ld (h : Head) (o : LdOp) : Statement (.ld h o) := decode_sound _
theorem st (h : Head) (o : StOp) : Statement (.st h o) := decode_sound _
theorem ldl (h : Head) (o : LdOp) : Statement (.ldl h o) := decode_sound _
theorem stl (h : Head) (o : StOp) : Statement (.stl h o) := decode_sound _
theorem ldq (h : Head) (o : QMemOp) : Statement (.ldq h o) := decode_sound _
theorem ldqLocal (h : Head) (o : QMemOp) : Statement (.ldqLocal h o) := decode_sound _
theorem stq (h : Head) (o : QMemOp) : Statement (.stq h o) := decode_sound _
theorem stqLocal (h : Head) (o : QMemOp) : Statement (.stqLocal h o) := decode_sound _
theorem aadd (h : Head) (o : AtOp) : Statement (.aadd h o) := decode_sound _
theorem amin (h : Head) (o : AtOp) : Statement (.amin h o) := decode_sound _
theorem amax (h : Head) (o : AtOp) : Statement (.amax h o) := decode_sound _
theorem aand (h : Head) (o : AtOp) : Statement (.aand h o) := decode_sound _
theorem aor (h : Head) (o : AtOp) : Statement (.aor h o) := decode_sound _
theorem axor (h : Head) (o : AtOp) : Statement (.axor h o) := decode_sound _
theorem axchg (h : Head) (o : AtOp) : Statement (.axchg h o) := decode_sound _
theorem acas (h : Head) (o : AtOp) : Statement (.acas h o) := decode_sound _
theorem afadd (h : Head) (o : AtOp) : Statement (.afadd h o) := decode_sound _
theorem fence (h : Head) (o : FenceOp) : Statement (.fence h o) := decode_sound _
theorem qjoin (h : Head) (o : BitVec 6) : Statement (.qjoin h o) := decode_sound _
theorem cpin (h : Head) (o : RecOp) : Statement (.cpin h o) := decode_sound _
theorem cpout (h : Head) (o : RecOp) : Statement (.cpout h o) := decode_sound _
theorem gath (h : Head) (o : RecOp) : Statement (.gath h o) := decode_sound _
theorem scat (h : Head) (o : RecOp) : Statement (.scat h o) := decode_sound _
theorem msend (h : Head) (o : MSendOp) : Statement (.msend h o) := decode_sound _
theorem rget (h : Head) (o : RGetOp) : Statement (.rget h o) := decode_sound _
theorem rgetPop (h : Head) (o : RGetOp) : Statement (.rgetPop h o) := decode_sound _
theorem rwait (h : Head) (o : RWaitOp) : Statement (.rwait h o) := decode_sound _
theorem fwr (h : Head) (o : FwrOp) : Statement (.fwr h o) := decode_sound _
theorem freq (h : Head) (o : FreqOp) : Statement (.freq h o) := decode_sound _
theorem fatom (h : Head) (o : FatomOp) : Statement (.fatom h o) := decode_sound _
theorem lzoffer (h : Head) (o : LzOfferOp) : Statement (.lzoffer h o) := decode_sound _
theorem lzgrant (h : Head) (o : LzGrantOp) : Statement (.lzgrant h o) := decode_sound _
theorem lzput (h : Head) (o : LzPutOp) : Statement (.lzput h o) := decode_sound _
theorem lzadopt (h : Head) (o : LzAdoptOp) : Statement (.lzadopt h o) := decode_sound _
theorem lzfree (h : Head) (o : LzFreeOp) : Statement (.lzfree h o) := decode_sound _
theorem lzstat (h : Head) (o : LzStatOp) : Statement (.lzstat h o) := decode_sound _
theorem barinit (h : Head) (o : BarInitOp) : Statement (.barinit h o) := decode_sound _
theorem bararv (h : Head) (o : BarArvOp) : Statement (.bararv h o) := decode_sound _
theorem barwait (h : Head) (o : BarWaitOp) : Statement (.barwait h o) := decode_sound _
theorem bartst (h : Head) (o : BarTstOp) : Statement (.bartst h o) := decode_sound _
theorem pgpf (h : Head) (o : PgpfOp) : Statement (.pgpf h o) := decode_sound _
theorem pgin (h : Head) (o : PginOp) : Statement (.pgin h o) := decode_sound _
theorem launch (h : Head) (o : LaunchOp) : Statement (.launch h o) := decode_sound _
theorem qentry (h : Head) (o : QEntryOp) : Statement (.qentry h o) := decode_sound _
theorem vadd (h : Head) (o : VBin) : Statement (.vadd h o) := decode_sound _
theorem vsub (h : Head) (o : VBin) : Statement (.vsub h o) := decode_sound _
theorem vmul (h : Head) (o : VBin) : Statement (.vmul h o) := decode_sound _
theorem vfma (h : Head) (o : VTern) : Statement (.vfma h o) := decode_sound _
theorem vfms (h : Head) (o : VTern) : Statement (.vfms h o) := decode_sound _
theorem vmin (h : Head) (o : VBin) : Statement (.vmin h o) := decode_sound _
theorem vmax (h : Head) (o : VBin) : Statement (.vmax h o) := decode_sound _
theorem vabs (h : Head) (o : VUn) : Statement (.vabs h o) := decode_sound _
theorem vneg (h : Head) (o : VUn) : Statement (.vneg h o) := decode_sound _
theorem vrcp (h : Head) (o : VUn) : Statement (.vrcp h o) := decode_sound _
theorem vrsq (h : Head) (o : VUn) : Statement (.vrsq h o) := decode_sound _
theorem vsqrt (h : Head) (o : VUn) : Statement (.vsqrt h o) := decode_sound _
theorem vexp2 (h : Head) (o : VUn) : Statement (.vexp2 h o) := decode_sound _
theorem vlog2 (h : Head) (o : VUn) : Statement (.vlog2 h o) := decode_sound _
theorem vand (h : Head) (o : VBin) : Statement (.vand h o) := decode_sound _
theorem vor (h : Head) (o : VBin) : Statement (.vor h o) := decode_sound _
theorem vxor (h : Head) (o : VBin) : Statement (.vxor h o) := decode_sound _
theorem vnot (h : Head) (o : VUn) : Statement (.vnot h o) := decode_sound _
theorem vshl (h : Head) (o : VBin) : Statement (.vshl h o) := decode_sound _
theorem vshr (h : Head) (o : VBin) : Statement (.vshr h o) := decode_sound _
theorem vsar (h : Head) (o : VBin) : Statement (.vsar h o) := decode_sound _
theorem vcmp (h : Head) (o : VCmpOp) : Statement (.vcmp h o) := decode_sound _
theorem vsel (h : Head) (o : VSelOp) : Statement (.vsel h o) := decode_sound _
theorem mpush (h : Head) (o : MPushOp) : Statement (.mpush h o) := decode_sound _
theorem minv (h : Head) : Statement (.minv h) := decode_sound _
theorem mpop (h : Head) : Statement (.mpop h) := decode_sound _
theorem vskipz (h : Head) (o : BitVec 32) : Statement (.vskipz h o) := decode_sound _
theorem kset (h : Head) (o : KSetOp) : Statement (.kset h o) := decode_sound _
theorem kget (h : Head) (o : KGetOp) : Statement (.kget h o) := decode_sound _
theorem vmov (h : Head) (o : VMovOp) : Statement (.vmov h o) := decode_sound _
theorem vins (h : Head) (o : VInsOp) : Statement (.vins h o) := decode_sound _
theorem vext (h : Head) (o : VExtOp) : Statement (.vext h o) := decode_sound _
theorem vcvt (h : Head) (o : VCvtOp) : Statement (.vcvt h o) := decode_sound _
theorem vpack4 (h : Head) (o : VPackOp) : Statement (.vpack4 h o) := decode_sound _
theorem vunpack4 (h : Head) (o : VUnpackOp) : Statement (.vunpack4 h o) := decode_sound _
theorem vpack6 (h : Head) (o : VPackOp) : Statement (.vpack6 h o) := decode_sound _
theorem vunpack6 (h : Head) (o : VUnpackOp) : Statement (.vunpack6 h o) := decode_sound _
theorem vqnt (h : Head) (o : VQntOp) : Statement (.vqnt h o) := decode_sound _
theorem vdeq (h : Head) (o : VDeqOp) : Statement (.vdeq h o) := decode_sound _
theorem vrotr (h : Head) (o : VRotOp) : Statement (.vrotr h o) := decode_sound _
theorem vrotc (h : Head) (o : VRotOp) : Statement (.vrotc h o) := decode_sound _
theorem vbcr (h : Head) (o : VRotOp) : Statement (.vbcr h o) := decode_sound _
theorem vbcc (h : Head) (o : VRotOp) : Statement (.vbcc h o) := decode_sound _
theorem vredr (h : Head) (o : VRedOp) : Statement (.vredr h o) := decode_sound _
theorem vredc (h : Head) (o : VRedOp) : Statement (.vredc h o) := decode_sound _
theorem vtrn (h : Head) (o : VTrnOp) : Statement (.vtrn h o) := decode_sound _
theorem vzrd (h : Head) (o : VZOp) : Statement (.vzrd h o) := decode_sound _
theorem vzwr (h : Head) (o : VZOp) : Statement (.vzwr h o) := decode_sound _
theorem trd (h : Head) (o : TileVOp) : Statement (.trd h o) := decode_sound _
theorem twr (h : Head) (o : TileVOp) : Statement (.twr h o) := decode_sound _
theorem tpf (h : Head) (o : TileOp) : Statement (.tpf h o) := decode_sound _
theorem tpfItinerary (h : Head) (o : TpfItinOp) : Statement (.tpfItinerary h o) := decode_sound _
theorem tpin (h : Head) (o : TileOp) : Statement (.tpin h o) := decode_sound _
theorem tunpin (h : Head) (o : TileOp) : Statement (.tunpin h o) := decode_sound _
theorem tlast (h : Head) (o : TileOp) : Statement (.tlast h o) := decode_sound _
theorem tstream (h : Head) (o : TileOp) : Statement (.tstream h o) := decode_sound _
theorem tinv (h : Head) (o : TileOp) : Statement (.tinv h o) := decode_sound _
theorem twb (h : Head) (o : TileOp) : Statement (.twb h o) := decode_sound _
theorem tcmt (h : Head) (o : TileOp) : Statement (.tcmt h o) := decode_sound _
theorem tedacq (h : Head) (o : TEdAcqOp) : Statement (.tedacq h o) := decode_sound _
theorem mrec (h : Head) (o : RecOp) : Statement (.mrec h o) := decode_sound _
theorem mconv (h : Head) (o : RecOp) : Statement (.mconv h o) := decode_sound _
theorem mzst (h : Head) (o : RecOp) : Statement (.mzst h o) := decode_sound _
theorem mzld (h : Head) (o : RecOp) : Statement (.mzld h o) := decode_sound _
theorem mzclr (h : Head) (o : MzClrOp) : Statement (.mzclr h o) := decode_sound _
theorem mterm (h : Head) (o : MTermOp) : Statement (.mterm h o) := decode_sound _
theorem syncBundleIssue (c : CoreId) : Statement (.syncBundleIssue c) := decode_sound _
theorem rendezvousBoundExpiry (c : CoreId) : Statement (.rendezvousBoundExpiry c) := decode_sound _
theorem loadDataArrival (c : CoreId) (id : Nat) : Statement (.loadDataArrival c id) := decode_sound _
theorem writeAcknowledgement (c : CoreId) (id : Nat) (also : BitVec 4) : Statement (.writeAcknowledgement c id also) := decode_sound _
theorem tokenPushRelease (c : CoreId) (e : Fin 6) : Statement (.tokenPushRelease c e) := decode_sound _
theorem copyStep (c : CoreId) (e : Fin 6) : Statement (.copyStep c e) := decode_sound _
theorem messageAppend (c : CoreId) (id : Nat) : Statement (.messageAppend c id) := decode_sound _
theorem fillComplete (c : CoreId) (line : Nat) : Statement (.fillComplete c line) := decode_sound _
theorem fillFault (c : CoreId) (line : Nat) : Statement (.fillFault c line) := decode_sound _
theorem writeBackAck (c : CoreId) (line : Nat) : Statement (.writeBackAck c line) := decode_sound _
theorem pinnedFullBoundExpiry (c : CoreId) : Statement (.pinnedFullBoundExpiry c) := decode_sound _
theorem matrixStep (c : CoreId) (ahead : Nat) : Statement (.matrixStep c ahead) := decode_sound _
theorem accumulatorStoreStep (c : CoreId) (ahead : Nat) : Statement (.accumulatorStoreStep c ahead) := decode_sound _
theorem accumulatorLoadStep (c : CoreId) (ahead : Nat) : Statement (.accumulatorLoadStep c ahead) := decode_sound _
theorem mzclrPerform (c : CoreId) : Statement (.mzclrPerform c) := decode_sound _
theorem geyserBatch (part : BitVec 6) (die : Fin 4) : Statement (.geyserBatch part die) := decode_sound _
theorem groupStart (die : Fin 4) (part : BitVec 6) : Statement (.groupStart die part) := decode_sound _
theorem completionSequence (c : CoreId) : Statement (.completionSequence c) := decode_sound _
theorem faultRaise (c : CoreId) : Statement (.faultRaise c) := decode_sound _
theorem groupQuiescent (c : CoreId) : Statement (.groupQuiescent c) := decode_sound _
theorem preemption (c : CoreId) (cause : PreemptCause) : Statement (.preemption c cause) := decode_sound _
theorem preemptionBoundExpiry (c : CoreId) : Statement (.preemptionBoundExpiry c) := decode_sound _
theorem preemptionSave (c : CoreId) : Statement (.preemptionSave c) := decode_sound _
theorem groupRestore (ctx : BitVec 10) (save : Nat) : Statement (.groupRestore ctx save) := decode_sound _
theorem launchEntryTake (ctx : BitVec 10) (q : BitVec 12) : Statement (.launchEntryTake ctx q) := decode_sound _
theorem launchVersionAdvance (ctx : BitVec 10) (q : BitVec 12) : Statement (.launchVersionAdvance ctx q) := decode_sound _
theorem launchDispatch (ctx : BitVec 10) (q : BitVec 12) : Statement (.launchDispatch ctx q) := decode_sound _
theorem launchComplete (ctx : BitVec 10) (q : BitVec 12) : Statement (.launchComplete ctx q) := decode_sound _
theorem copyEntryTake (ctx : BitVec 10) (q : BitVec 12) : Statement (.copyEntryTake ctx q) := decode_sound _
theorem copyEntryComplete (ctx : BitVec 10) (q : BitVec 12) : Statement (.copyEntryComplete ctx q) := decode_sound _
theorem joinEntryTake (ctx : BitVec 10) (q : BitVec 12) : Statement (.joinEntryTake ctx q) := decode_sound _
theorem joinSatisfied (ctx : BitVec 10) (q : BitVec 12) : Statement (.joinSatisfied ctx q) := decode_sound _
theorem barrierSignalEntryTake (ctx : BitVec 10) (q : BitVec 12) : Statement (.barrierSignalEntryTake ctx q) := decode_sound _
theorem waitEntryTake (ctx : BitVec 10) (q : BitVec 12) : Statement (.waitEntryTake ctx q) := decode_sound _
theorem waitSatisfied (ctx : BitVec 10) (q : BitVec 12) : Statement (.waitSatisfied ctx q) := decode_sound _
theorem queueEngineAppend (c : CoreId) (id : Nat) : Statement (.queueEngineAppend c id) := decode_sound _
theorem barrierArrival (c : CoreId) (id : Nat) : Statement (.barrierArrival c id) := decode_sound _
theorem barrierReopen (pa : BitVec 52) : Statement (.barrierReopen pa) := decode_sound _
theorem sliceRequestArrival (c : CoreId) (id : Nat) (part : Nat) (ch : SliceChoice) : Statement (.sliceRequestArrival c id part ch) := decode_sound _
theorem sliceFillDataArrival (die : Fin 4) (line : Nat) : Statement (.sliceFillDataArrival die line) := decode_sound _
theorem ownershipBackoffExpiry (c : CoreId) (id : Nat) : Statement (.ownershipBackoffExpiry c id) := decode_sound _
theorem selfRefreshEntry (pc : PseudoChan) : Statement (.selfRefreshEntry pc) := decode_sound _
theorem selfRefreshExit (pc : PseudoChan) : Statement (.selfRefreshExit pc) := decode_sound _
theorem fumaroleScrub (line : Nat) (r : ScrubResult) : Statement (.fumaroleScrub line r) := decode_sound _
theorem translationWalk (c : CoreId) (va : BitVec 56) (cached : Bool) : Statement (.translationWalk c va cached) := decode_sound _
theorem swapPairBegin (part : BitVec 6) (pair : Fin 64) : Statement (.swapPairBegin part pair) := decode_sound _
theorem swapLineExchange (part : BitVec 6) (pair : Fin 64) : Statement (.swapLineExchange part pair) := decode_sound _
theorem swapPairEnd (part : BitVec 6) (pair : Fin 64) : Statement (.swapPairEnd part pair) := decode_sound _
theorem farPortFailure (port : Fin 10) : Statement (.farPortFailure port) := decode_sound _
theorem lzgrantStatus (c : CoreId) (id : Nat) : Statement (.lzgrantStatus c id) := decode_sound _
theorem lzadoptComplete (c : CoreId) : Statement (.lzadoptComplete c) := decode_sound _
theorem lzputComplete (c : CoreId) (id : Nat) : Statement (.lzputComplete c id) := decode_sound _
theorem fwrComplete (c : CoreId) (id : Nat) : Statement (.fwrComplete c id) := decode_sound _
theorem fatomComplete (c : CoreId) (id : Nat) : Statement (.fatomComplete c id) := decode_sound _
theorem freqStatus (c : CoreId) (id : Nat) : Statement (.freqStatus c id) := decode_sound _
theorem frameReceive (f : Frame) : Statement (.frameReceive f) := decode_sound _
theorem writeRecordPerform (k : Nat) : Statement (.writeRecordPerform k) := decode_sound _
theorem atomicRecordPerform (k : Nat) : Statement (.atomicRecordPerform k) := decode_sound _
theorem requestRecordAppend (k : Nat) : Statement (.requestRecordAppend k) := decode_sound _
theorem landingRecordReceive (k : Nat) : Statement (.landingRecordReceive k) := decode_sound _
theorem ackRecordReceive (link : BitVec 11) (ki : Bool) (fn : BitVec 48) : Statement (.ackRecordReceive link ki fn) := decode_sound _
theorem nakRecordReceive (link : BitVec 11) (rtag : BitVec 32) (code : BitVec 16) (detail : BitVec 8) : Statement (.nakRecordReceive link rtag code detail) := decode_sound _
theorem resultRecordReceive (link : BitVec 11) (rtag : BitVec 32) (old : Word) : Statement (.resultRecordReceive link rtag old) := decode_sound _
theorem retransmissionTimeout (link : BitVec 11) (ki : Bool) (fn : BitVec 48) : Statement (.retransmissionTimeout link ki fn) := decode_sound _
theorem heartbeatSend (link : BitVec 11) : Statement (.heartbeatSend link) := decode_sound _
theorem heartbeatBoundExpiry (link : LinkSide) : Statement (.heartbeatBoundExpiry link) := decode_sound _
theorem linkIdleSleep (link : BitVec 11) : Statement (.linkIdleSleep link) := decode_sound _
theorem linkWake (link : BitVec 11) : Statement (.linkWake link) := decode_sound _
theorem linkWakeComplete (link : BitVec 11) : Statement (.linkWakeComplete link) := decode_sound _
theorem wakeBoundExpiry (link : BitVec 11) : Statement (.wakeBoundExpiry link) := decode_sound _
theorem keyRolloverStart (link : BitVec 11) : Statement (.keyRolloverStart link) := decode_sound _
theorem keyUpdateAck (link : BitVec 11) : Statement (.keyUpdateAck link) := decode_sound _
theorem linkTrainingDone (link : BitVec 11) : Statement (.linkTrainingDone link) := decode_sound _
theorem linkTrainingAttemptFail (link : BitVec 11) : Statement (.linkTrainingAttemptFail link) := decode_sound _
theorem attestationComplete (t : AttestTarget) (v : Exchange) (meas : List (BitVec 512)) : Statement (.attestationComplete t v meas) := decode_sound _
theorem attestationTimeout (t : AttestTarget) : Statement (.attestationTimeout t) := decode_sound _
theorem linkKeyedUp (link : BitVec 11) : Statement (.linkKeyedUp link) := decode_sound _
theorem linkDrainDone (link : BitVec 11) : Statement (.linkDrainDone link) := decode_sound _
theorem dieRejoin (die : Fin 4) (v : Exchange) (meas : List (BitVec 512)) : Statement (.dieRejoin die v meas) := decode_sound _
theorem powerLimitReached (dies : BitVec 4) : Statement (.powerLimitReached dies) := decode_sound _
theorem ageingThresholdCrossing (c : Chip) (days : Nat) : Statement (.ageingThresholdCrossing c days) := decode_sound _
theorem ageingFlagClear (c : Chip) : Statement (.ageingFlagClear c) := decode_sound _
theorem differenceListApply (u : Chip) (l : DiffList) : Statement (.differenceListApply u l) := decode_sound _
theorem linkRecordWrite (link : BitVec 11) (f : LinkField) : Statement (.linkRecordWrite link f) := decode_sound _
theorem packageReset : Statement (.packageReset) := decode_sound _
theorem create (arg : Word) : Statement (.create arg) := decode_sound _
theorem bind (ctx : BitVec 10) (arg : Word) : Statement (.bind ctx arg) := decode_sound _
theorem activate (ctx : BitVec 10) : Statement (.activate ctx) := decode_sound _
theorem suspend (ctx : BitVec 10) : Statement (.suspend ctx) := decode_sound _
theorem resume (ctx : BitVec 10) : Statement (.resume ctx) := decode_sound _
theorem drain (ctx : BitVec 10) : Statement (.drain ctx) := decode_sound _
theorem destroy (ctx : BitVec 10) : Statement (.destroy ctx) := decode_sound _
theorem reclaim (ctx : BitVec 10) : Statement (.reclaim ctx) := decode_sound _
theorem keydestroy (ctx : BitVec 10) (arg : Word) : Statement (.keydestroy ctx arg) := decode_sound _
theorem partset (arg : Word) : Statement (.partset arg) := decode_sound _
theorem qreset (ctx : BitVec 10) (arg : Word) : Statement (.qreset ctx arg) := decode_sound _
theorem xlflush (ctx : BitVec 10) (arg : Word) : Statement (.xlflush ctx arg) := decode_sound _
theorem gresumeRetry (ctx : BitVec 10) (arg : Word) : Statement (.gresumeRetry ctx arg) := decode_sound _
theorem gresumeSkip (ctx : BitVec 10) (arg : Word) : Statement (.gresumeSkip ctx arg) := decode_sound _
theorem gabort (ctx : BitVec 10) (arg : Word) : Statement (.gabort ctx arg) := decode_sound _
theorem linkctlBringUp (arg : Word) : Statement (.linkctlBringUp arg) := decode_sound _
theorem linkctlDrain (arg : Word) : Statement (.linkctlDrain arg) := decode_sound _
theorem linkctlSleep (arg : Word) : Statement (.linkctlSleep arg) := decode_sound _
theorem linkctlWake (arg : Word) : Statement (.linkctlWake arg) := decode_sound _
theorem linkctlRekey (arg : Word) : Statement (.linkctlRekey arg) := decode_sound _
theorem linkctlReset (arg : Word) : Statement (.linkctlReset arg) := decode_sound _
theorem dieresetOrderly (arg : Word) : Statement (.dieresetOrderly arg) := decode_sound _
theorem dieresetForced (arg : Word) : Statement (.dieresetForced arg) := decode_sound _
theorem iatset (arg : Word) (arg2 : Word) : Statement (.iatset arg arg2) := decode_sound _
theorem fabtag (ctx : BitVec 10) (arg : Word) : Statement (.fabtag ctx arg) := decode_sound _
theorem mpolicy (arg : Word) : Statement (.mpolicy arg) := decode_sound _
theorem mailboxInvalidOpcode (rec : Rec64) : Statement (.mailboxInvalidOpcode rec) := decode_sound _
theorem fabricOutRecordSend (c : CoreId) (src : OutSrc) : Statement (.fabricOutRecordSend c src) := decode_sound _
theorem barrierSignalEntryComplete (ctx : BitVec 10) (q : BitVec 12) : Statement (.barrierSignalEntryComplete ctx q) := decode_sound _
theorem hostLinkMemoryAccess (a : HostAccess) : Statement (.hostLinkMemoryAccess a) := decode_sound _

end Sys2Proof.Laws.DecodeSound
end

