-- ==== Sys2Proof/Tests/Slice0.lean ====
section
/-! SUPPORT. Tests: the well-formedness checks refuse ill-formed terms, lane words written out from the encoding decode to their
instructions, single steps give what the manual's tables give, and the hypotheses of each statement can be met. -/

open Sys2Proof Sys2Proof.Machine

set_option Elab.async false

/-! ### States for the tests -/

/-- A handle entry of a space (1 near, 2 far, 3 peer) with a base and a bound (16 R328). -/
def tHandle (space base bound : Nat) : BitVec 256 := BitVec.ofNat 256 (1 + 2 * space + 2 ^ 64 * base + 2 ^ 128 * bound)

/-- Ring 2 of four entries, zone 3 of one slot, the record region, and the first 64 KiB free. -/
def tLayout : Layout :=
  { probeLayout with
    rings := probeLayout.rings.set 2 ⟨0x11000, 0x1000⟩
    zones := probeLayout.zones.set 3 ⟨0x12000, 0x9000⟩ }

/-- The entry of a tensor of 64 by 64 elements of f32 in tiles of 64 by 16, stored row by row under handle 1, with its edition word
under handle 1 at offset 64 (08 R196). -/
def tEntry : BitVec 1024 := BitVec.ofNat 1024 (1 + 2 ^ 20 + 2 ^ 128 * 64 + 2 ^ 160 * 64 + 2 ^ 192 + 2 ^ 224 + 2 ^ 256 + 2 ^ 288 * 64 +
  2 ^ 384 * 64 + 2 ^ 400 * 16 + 2 ^ 416 + 2 ^ 432 + 2 ^ 576 + 2 ^ 640 * 64)

/-- The entry of a window view over an image of 8 by 8 points of 64 channels, with a kernel of one point (09 R235, R236). -/
def tWindow : BitVec 1024 := BitVec.ofNat 1024 (1 + 2 ^ 20 * 3 + 2 ^ 24 + 2 ^ 128 * 64 + 2 ^ 160 * 8 + 2 ^ 192 * 8 + 2 ^ 224 + 2 ^ 256 +
  2 ^ 288 * 64 + 2 ^ 320 * 512 + 2 ^ 384 * 64 + 2 ^ 400 * 16 + 2 ^ 416 + 2 ^ 432 + 2 ^ 576 + 2 ^ 704 + 2 ^ 712 + 2 ^ 720 + 2 ^ 728 +
  2 ^ 736 + 2 ^ 744 + 2 ^ 768 * 8 + 2 ^ 784 * 8)

/-- A group with that layout; handles 1 to 3 of the three spaces; one entry in every queue register, one token in every counter;
vector registers 8 to 23 mapped; one mask pushed. -/
def tCore (k : Core) : Core :=
  { k with
    grp := some { probeGroup with layout := tLayout }
    hcache := [⟨1, tHandle 1 0 65536⟩, ⟨2, tHandle 2 0 65536⟩, ⟨3, tHandle 3 0 1048576⟩]
    tcache := [⟨5, tEntry⟩, ⟨6, tWindow⟩]
    q := Vector.replicate 20 [⟨0, some 7, false, false⟩]
    vq := Vector.replicate 12 [⟨0, some 0, false, false⟩]
    d := Vector.replicate 8 1
    v := (natRange 8 16).map fun n => (n, .resident (BitVec.ofNat 32768 n) n)
    vclock := 30
    nextId := 5 }

/-- Core 0 of die 0 runs that group, and one of its slots moves, with these scalar registers. -/
def tState (sl : Slot) (w : List (Fin 64 × Word)) : State :=
  ({ State.reset.placeBundle sl 0 with cur := (⟨0, 0⟩, sl) }.updCore ⟨0, 0⟩ tCore).updCore ⟨0, 0⟩
    (·.updSlot sl fun t => { t with s := w.foldl (fun (v : Vector Word 64) (p : Fin 64 × Word) => v.set p.1 p.2) t.s })

/-- The same state with bytes of the local store set. -/
def tLocal (off n v : Nat) (s : State) : State := s.updCore ⟨0, 0⟩ (lsPut off n v)

/-- A copy record of four f32 elements through handle 1 (06 R144). -/
def tCopy (kind : Nat) : Nat := kind + 2 ^ 32 + 2 ^ 160 * 4 + 2 ^ 192 + 2 ^ 224 + 2 ^ 256 + 2 ^ 288 * 4

/-- A matrix record of one step on tensors (09 R229). -/
def tMatrix (kind ta tb : Nat) : Nat := kind + 2 ^ 20 * ta + 2 ^ 32 * tb + 2 ^ 64 + 2 ^ 176 + 2 ^ 288 + 2 ^ 400

/-- The barrier of slot 0 of zone 3 in a state of 18 R375. -/
def tSlotRec (sst : Nat) : Nat := 2 + 2 ^ 256 * sst + 2 ^ 336 * 4096

abbrev rS (n : Fin 64) : Operand := ⟨.s n, false, false⟩
abbrev rV (n : Fin 1536) : Operand := ⟨.v n, false, false⟩
abbrev rQ (n : Fin 32) : Operand := ⟨.q n, false, false⟩
abbrev rP (n : Fin 16) : Operand := ⟨.p n, false, false⟩
abbrev rK (n : Fin 16) : Operand := ⟨.k n, false, false⟩
abbrev rZ (n : Fin 8) : Operand := ⟨.z n, false, false⟩
abbrev zero : Operand := ⟨.zero, false, false⟩
abbrev one : Operand := ⟨.one, false, false⟩
abbrev ordG : Order := ⟨.device, { g := true, p := true }, .rlx⟩
abbrev ordL : Order := ⟨.group, { l := true }, .rlx⟩

/-- A word that issues by what its three conditions evaluate to. -/
theorem issues (h : Head) (s : State)
    (e : (s.here.mayIssue s.cur.2 && guardOf h (s.here.slot s.cur.2) && schedReady h false s.here s.cur.2) = true) : Issues h s := by
  simp only [Bool.and_eq_true] at e
  exact ⟨e.1.1, e.1.2, e.2⟩

/-- What a reading that succeeds answers. -/
def gotV {ε α : Type} : (x : Except ε α) → x.isOk = true → α
  | .ok v, _ => v
  | .error _, h => nomatch h

/-- A reading that succeeds answers it, in any form that a statement gives the pair. -/
theorem ok {ε α β : Type} {x : Except ε (α × β)} (h : x.isOk = true) : x = .ok ((gotV x h).1, (gotV x h).2) := by
  cases x with
  | ok v => rfl
  | error _ => exact nomatch h

theorem ok2 {ε α β γ : Type} {x : Except ε ((α × β) × γ)} (h : x.isOk = true) :
    x = .ok (((gotV x h).1.1, (gotV x h).1.2), (gotV x h).2) := ok h

theorem okU {ε β : Type} {x : Except ε (Unit × β)} (h : x.isOk = true) : x = .ok ((), (gotV x h).2) := ok h

theorem okR {α ε β : Type} {x : α × Except ε β} (h : x.2.isOk = true) : x = (x.1, .ok (gotV x.2 h)) := by
  obtain ⟨a, v | v⟩ := x
  · exact nomatch h
  · rfl

theorem som {α : Type} {x : Option α} (h : x.isSome = true) : x = some (x.get h) := by simp

theorem ifT {c p q : Prop} {_ : Decidable c} (h : c) (hp : p) : if c then p else q := by rw [if_pos h]; exact hp

theorem ifF {c p q : Prop} {_ : Decidable c} (h : ¬c) (hq : q) : if c then p else q := by rw [if_neg h]; exact hq

/-- An access performed at issue that nothing holds back. -/
theorem mayGo {h : Head} {k : SKind} {o : Order} {s : State}
    (e : mayPerform s.here (freshAccess h s.here.nextId s.cur.2 ((s.here.slot s.cur.2).pc - 1) (.lstore 0 0 none) k o .none) = true) :
    guardOrder h k o s = .ok ((), s) := by
  have f : ∀ b : Bool, b = true → guardStall b s = .ok ((), s) := fun b e => by rw [e]; rfl
  exact f _ e

/-- What a plan that finds a way answers. -/
def planOf : Plan → List TileLine × Nat × Nat
  | .place v i n => (v, i, n)
  | _ => ([], 0, 0)

theorem placed {p : Plan} (h : (match p with | .place _ _ _ => true | _ => false) = true) :
    p = .place (planOf p).1 (planOf p).2.1 (planOf p).2.2 := by
  cases p <;> first | rfl | cases h

/-- The hypotheses of a vector instruction's completion can be met, whatever it writes. -/
def VecMet (h : Head) (single : Bool) (w : Nat) (merge : Bool) (d : Operand) (srcs : List Src2) : Prop :=
  ∀ f, ¬ ∀ s r s1 t, Issues h s → vecRead h single w merge d srcs (started h s) = .ok (r, s1) →
    putGroup (keepNames r.x.len d srcs) d (r.results f) s1 = .ok ((), t) → False

/-- One register is written where the group's share has room. -/
theorem putOne {keep : List Nat} {n : Fin 1536} {x : VReg} {s : State} {g : GroupInfo} (hg : s.here.grp = some g)
    (hr : s.here.residents.length < g.regs) : (putGroup keep (rV n) [x] s).isOk = true := by
  have a : ∀ l m, allocV l m s = .ok ((), s) := fun l m => by
    simp [allocV, bind_app, getGroup_ok hg, Nat.not_le.2 hr, pure_app]
  simp [putGroup, natRange, writeNames, writeV, bind_app, a, pure_app, Except.isOk, Except.toBool]

theorem vecMet {single merge : Bool} {w : Nat} {n : Fin 1536} {srcs : List Src2} {g : GroupInfo} (s : State) (hi : Issues {} s)
    (hr : (vecRead {} false 32 merge (rV n) srcs (started {} s)).isOk = true)
    (hl : (gotV _ hr).1.x.len = 1) (hg : (gotV _ hr).2.here.grp = some g)
    (hn : (gotV _ hr).2.here.residents.length < g.regs) : VecMet {} single w merge (rV n) srcs := fun f H => by
  have e : (gotV _ hr).1.results f = [f (gotV _ hr).1.x (gotV _ hr).1.gs 0 ((gotV _ hr).1.olds.getD 0 0)] := by
    show (List.range _).map _ = _
    rw [hl]; rfl
  exact H s _ _ _ hi (ok hr) (by rw [e]; exact okU (putOne hg hn))

theorem okD {α β : Type} {x : α × Option β} (h : x.2.isSome = true) : x = (x.1, some (x.2.get h)) := by
  obtain ⟨a, v | v⟩ := x
  · cases h
  · rfl

/-- A valid line of tensor 5 at coordinates zero. -/
def tLine : TileLine where
  idx := 8 * tagSet 5 (Vector.replicate 4 0)
  ctx := 0
  tens := 5
  c := Vector.replicate 4 0
  ed := 0
  base := .valid
  pin := false
  dirty := true
  adopt := none
  last := false
  stream := false
  grp := 0
  stamp := 0
  gran := 8
  data := 0
  keys := []
  ent := tEntry
  asc := .device
  origin := ⟨2, 0, 0, 0, 0, false, false⟩
  evict := false
  discard := false
  pf := false
  pfHit := false
  out := none

/-- The test state with that line held. -/
def tTile (sl : Slot) : State := (tState sl [(1, 0x100), (2, 1), (3, 0)]).updCore ⟨0, 0⟩ fun k => { k with lines := [tLine] }

/-! ### States for the events -/

abbrev c0 : CoreId := ⟨0, 0⟩

/-- The test state with its core changed. -/
def tWith (f : Core → Core) : State := (tState .a []).updCore c0 f

/-- Access number 5 of the A slot. -/
def tAccess (kind : AccKind) : Access where
  id := 5
  slot := .a
  bundle := 0
  sbs := none
  kind := kind
  sk := .g
  asc := .device
  ssc := { g := true }
  ord := .rlx
  dest := .sreg 4
  ty := .n64
  stream := false
  wvm := false
  wv := 0
  peer := false
  dropped := false
  push := none
  parts := []
  units := []
  raised := false

/-- Engine operation number 5 of the A slot. -/
def tOp (kind : EngKind) : EngOp where
  id := 5
  slot := .a
  bundle := 0
  sbs := none
  push := none
  asc := .device
  ssc := { g := true }
  ord := .rlx
  dest := .sreg 4
  hint := .none
  kind := kind
  pos := 0
  lines := []
  sent := []
  status := 0
  held := false
  failed := none
  parked := none
  got := none
  waited := 0
  dropped := false

def tAcc (a : Access) : State := tWith fun k => { k with acc := [a] }

def tEng (e : Fin 6) (o : EngOp) : State := tWith fun k => k.setQ e { ops := [o], halted := false }

theorem som2 {α β : Type} {x : Option (α × β)} (h : x.isSome = true) : x = some ((x.get h).1, (x.get h).2) := by
  obtain _ | ⟨a, b⟩ := x
  · cases h
  · rfl

def gotE {ε α : Type} : (x : Except ε α) → x.isOk = false → ε
  | .error v, _ => v
  | .ok _, h => nomatch h

theorem erR {α ε β : Type} {x : α × Except ε β} (h : x.2.isOk = false) : x = (x.1, .error (gotE x.2 h)) := by
  obtain ⟨a, v | v⟩ := x
  · rfl
  · exact nomatch h

theorem okR2 {α ε β γ : Type} {x : α × Except ε (β × γ)} (h : x.2.isOk = true) : x = (x.1, .ok ((gotV x.2 h).1, (gotV x.2 h).2)) :=
  okR h

theorem pr {α β : Type} {x : α × β} : x = (x.1, x.2) := rfl

theorem tri {α β γ : Type} {x : α × β × γ} : x = (x.1, x.2.1, x.2.2) := rfl

theorem runDone {x : State × RunEnd} (h : (match x.2 with | .done [] => true | _ => false) = true) : x = (x.1, .done []) := by
  obtain ⟨a, (_ | _) | _ | _⟩ := x <;> first | rfl | cases h

theorem wbDone {x : State × WbEnd × List (BitVec 32)} (h : (match x.2 with | (.done, []) => true | _ => false) = true) :
    x = (x.1, .done, []) := by
  obtain ⟨a, _ | _ | _, _ | _⟩ := x <;> first | rfl | cases h

/-- The entry of a tensor of four elements of f32 at the start of handle 1. -/
def tSmall : BitVec 1024 := BitVec.ofNat 1024 (1 + 2 ^ 128 * 4 + 2 ^ 160 + 2 ^ 192 + 2 ^ 224 + 2 ^ 256 + 2 ^ 384 * 4 + 2 ^ 400 + 2 ^ 416 +
  2 ^ 432 + 2 ^ 576 + 2 ^ 640 * 64)

/-- A state in which a matrix record of a kind on tensor 5 is at the head of e5 and its tile is held. -/
def tStep (kind tb : Nat) : State :=
  (tTile .m).updCore c0 fun k =>
    { k.setQ 5 { ops := [{ tOp (.matrix 0 (BitVec.ofNat 512 (tMatrix kind 5 tb)) (Vector.replicate 4 0) [tEntry, tEntry]) with dest := .none }],
                 halted := false } with z := k.z.set 0 (some 0) }

/-- A state in which the fill of a line of four elements is at the head of e0. -/
def tFill (e : BitVec 1024) : State :=
  tWith fun k => { k.setQ 0 { ops := [fillOp 5 tLine.idx], halted := false } with lines := [{ tLine with base := .filling, ent := e, gran := 1 }] }

/-- The leaf of the peer page at address 0x10000: device 7, readable, writable, atomics allowed. -/
def tPeerLeaf : Leaf := ⟨0x10000, 65536, 0xE0010, 3, BitVec.ofNat 64 (0x3F + 2 ^ 21 * 7)⟩

def tLinkUp : LinkEnd := { LinkEnd.reset true 7 with state := .up, pv := 1 }

/-- The test state with a peer page, and link 16 to device 7. -/
def tPeer (l : LinkEnd) (f : Core → Core) : State :=
  { tWith (fun k => f { k with leaves := [probeLeaf, tPeerLeaf] }) with links := [(16, l)] }

def tRecord (op fl : BitVec 8) : OpRecord where
  op := op
  fl := fl
  stag := 0
  sseq := 0
  pa := 0
  len := 8
  aop := 0
  ty := 0xB
  rtag := 0
  payload := List.replicate 8 0

/-- Link 16 with one frame out that holds the record of access 5. -/
def tSent (r : OpRecord) : LinkEnd := { tLinkUp with tx := [⟨false, 0, [⟨r, 0xFFFF, c0, 5, 0, 0⟩], 0, 0, false, false⟩] }

/-- A state in which a record from device 7 waits, with an entry of the inbound aperture table for it. -/
def tReceived (dest : BitVec 16) (r : OpRecord) (f : Core → Core) : State :=
  { tPeer (tSent (tRecord 1 0)) f with
    inrecs := [⟨some 16, 7, dest, r, (false, 0)⟩]
    iat := [(0, BitVec.ofNat 256 (0x3F + 2 ^ 32 * 7 + 2 ^ 128 * 65536))] }

theorem okE {ε α : Type} {x : Except ε α} (h : x.isOk = true) : x = .ok (gotV x h) := by
  cases x with
  | ok v => rfl
  | error _ => exact nomatch h

theorem adopted {x : AdoptEnd} (h : (match x with | .done _ => true | _ => false) = true) :
    ∃ t, x = .done t := by
  cases x <;> first | exact ⟨_, rfl⟩ | cases h

theorem sndEq {α β : Type} {x : α × β} {y : β} (h : x.2 = y) : x = (x.1, y) := by rw [← h]

theorem consEq {α : Type} {l : List α} (h : l.isEmpty = false) : l = (l.head (by cases l <;> simp at h ⊢)) :: l.tail := by
  cases l <;> simp at h ⊢

/-- A page table for the first 64 KiB of context 0, whose leaf is near, readable, writable, for atomics, under key slot 0, and 1 KiB of
memory written under that key. -/
def tTables (s : State) : State :=
  let s := ((s.wrNat 0xC0000 8 0xC2001).wrNat 0xC2000 8 0xC4001).wrNat 0xC4000 8 0xC6001
  let s := ((s.wrNat 0xC6000 8 0xC8001).wrNat 0xC8000 8 3).wrNat 0xC8008 8 0x41D
  { s with lmeta := (List.range 8).map fun i => ⟨i, ⟨0, 0, 0⟩, 0⟩ }

def tRun (st : QState) : QueueRun where
  ctx := 0
  n := 0
  state := st
  kept := .idle
  base := 0
  nl := 1
  en := true
  head := 0
  done := 0
  lastErr := 0
  entry := none
  remote := .none
  moved := 0
  appended := (0, 0)

/-- A state with queue 0 of context 0, an entry at index 0 of its ring, and `n` in the 64 bytes at address 128. -/
def tQueue (e n : Nat) (q : QueueRun) : State :=
  let s := tTables (tState .a [])
  { (s.wrNat 0xD0010 8 1) with
    mem := memSets (memSets (s.wrNat 0xD0010 8 1).mem 0 (natLe 64 e)) 128 (natLe 128 n)
    queues := [q] }

/-- An entry of a kind, completing at device scope. -/
def tEntryOf (kind fields : Nat) : Nat := kind + 2 ^ 16 * 3 + fields

/-- A kernel descriptor of one bundle at address 0. -/
def tKernel : Nat := 2 ^ 64 + 2 ^ 224 * 1024 + 2 ^ 320

def tLaunch (st : LaunchStage) : Launch where
  ctx := 0
  queue := 0
  entry := 0
  pri := 0
  pre := false
  asc := .device
  kdesc := 128
  dbar := 0
  desc := BitVec.ofNat 1024 tKernel
  levels := Vector.replicate 8 ⟨.unused, 0, 0⟩
  layout := tLayout
  handles := [1]
  stage := st
  next := Vector.replicate 4 0
  shared := 0
  started := 0
  ended := 0
  discarded := 0
  claims := []

theorem som3 {α β γ : Type} {x : Option (α × β × γ)} (h : x.isSome = true) : x = some ((x.get h).1, (x.get h).2.1, (x.get h).2.2) :=
  som2 h

/-- The mailbox is idle. -/
theorem mails {r : Rec64} {s : State} (h : s.doorbell = false) : Mails r s := fun e => by rw [h] at e; exact nomatch e

/-- What a part performed at its ordering point answers. -/
def doneOf : PartStage → BitVec 1024 × BitVec 32 × Fin 4 × Option (Nat × Nat)
  | .done v tag die at' => (v, tag, die, at')
  | _ => (0, 0, 0, none)

theorem served {x : State × PartStage} (h : (match x.2 with | .done _ _ _ _ => true | _ => false) = true) :
    x = (x.1, .done (doneOf x.2).1 (doneOf x.2).2.1 (doneOf x.2).2.2.1 (doneOf x.2).2.2.2) := by
  obtain ⟨a, _ | _ | _ | _⟩ := x <;> first | rfl | cases h

/-- A copy of fewer than 16 bytes is made at one event. -/
theorem copied {s : State} {ctx : BitVec 10} {a b m len edge part : Nat} (h0 : len - m = 0)
    (h : (s.drew.copyBytes ctx a b len 1 m 0).2 = none) :
    let now := if part = 0 then len - m else min (len - m) (edge + 128 * (part - 1))
    s.drew.copyBytes ctx a b len (now / 128 + 1) m now = ((s.drew.copyBytes ctx a b len 1 m 0).1, none) := by
  have e : (if part = 0 then len - m else min (len - m) (edge + 128 * (part - 1))) = 0 := by split <;> omega
  simp only [e, Nat.zero_div, Nat.zero_add]
  exact Prod.ext rfl h

theorem fenceNotBar (h : Head) (o : FenceOp) : ∀ g o', Instr.fence h o ≠ .bararv g o' := fun g o' e =>
  nomatch (show (match Instr.fence h o with | .bararv _ _ => true | _ => false) = true by rw [e] : false = true)

theorem okIs {ε α : Type} {x : Except ε α} {v : α} (h : x.toOption = some v) : x = .ok v := by
  cases x with
  | ok w => cases h; rfl
  | error _ => cases h

/-- A BARARV of weight 1 at the barrier of address 256, and the state in which its line is resident. -/
def tArrival : Part := { va := 256, len := 64, op := .bar (.arrive 1 none true), stage := .sent }

def tBarrier : State :=
  State.ensureLine { tTables (tAcc { tAccess (.bararv true) with parts := [tArrival] }) with
    mem := memSets State.reset.mem 256 (natLe 64 (3 + 2 ^ 64 * 5)) } 0 2 false

theorem okTrue {α ε : Type} {x : α × Except ε Bool} (h : (match x.2 with | .ok b => b | .error _ => false) = true) :
    x = (x.1, .ok true) := by
  obtain ⟨a, v | _ | _⟩ := x <;> first | rfl | cases h

theorem only {α β : Type} {l : List (α × β)} {n : Nat} (h : l.length = 1) : l[n % l.length]? = some (l[0].1, l[0].2) := by
  obtain ⟨x, rfl⟩ := List.length_eq_one_iff.mp h
  simp [Nat.mod_one]

/-- The test state with page 0 near and page 1 far on port 0, with these accesses and pairs. -/
def tSwap (acc : List Access) (pairs : List SwapPair) : State :=
  let s := ((tTables (tState .a [])).wrNat 0xC8010 8 (2 ^ 30 + 3)).wrNat 0xC8018 8 0x41E
  { s.updCore c0 (fun k => { k with acc := acc }) with
    pairs := pairs
    parts := [⟨0, 0, 7, 1, 1, 0, 0, 2 ^ 30, 2 ^ 30, 1⟩] }

def tRejoin : State :=
  { State.reset with resets := State.reset.resets.set 0 (some ⟨true, true⟩), policy := [(0, measDigest [])] }

/-- A context descriptor at 0x2000 and a queue descriptor that 11 R268 to R270 allow, in a partition of three cores of die 0 (VIEW 2). -/
def tCtx (st : CtxState) : State :=
  let d := 2 ^ 10 * 2 + 2 ^ 16 * 255 + 2 ^ 64 * 0x10000 + 2 ^ 128 * 0x40000 + 2 ^ 192 * 0xC0000 + 2 ^ 256 * 0xD0000 + 2 ^ 320 +
    2 ^ 384 * 0x100000 + 2 ^ 448 * 144 + 2 ^ 512 * 0x8000000 + 2 ^ 576 * 64 + 2 ^ 640 * 1024 + 2 ^ 672 * 1024 + 2 ^ 704 * 1024
  let s : State := { State.reset with
    parts := [⟨0, 0, 7, 1, 1, 0, 0, 0, 0, 0⟩]
    chips := [(.cdie 0, .inService)]
    ctxs := [{ probeCtx with state := st, desc := 0x2000, view := 2, keys := Vector.replicate 16 none }] }
  (s.wrNat 0x2000 128 d).wrNat 0xD0008 8 4

/-- The state that an outcome answers. -/
def gotN {φ ρ : Type} : (o : Host.Outcome State φ ρ) → (match o with | .next _ => true | _ => false) = true → State
  | .next s, _ => s
  | .fault _, h => nomatch h
  | .refused _, h => nomatch h

theorem nx {φ ρ : Type} {o : Host.Outcome State φ ρ} (h : (match o with | .next _ => true | _ => false) = true) : o = .next (gotN o h) := by
  cases o <;> first | rfl | cases h

/-- A bundle of four NOPs with SY set, at which the four slots stand. -/
def tSync : State :=
  let n := nopWith true
  (State.reset.placeBundle .a (bundleOf n n n n)).updCore c0 fun k =>
    { k with slots := k.slots.map fun (t : SlotState) => { t with arrived := some 0 } }

theorem erE {ε α : Type} {x : Except ε α} (h : x.isOk = false) : x = .error (gotE x h) := by
  cases x with
  | error v => rfl
  | ok _ => exact nomatch h

/-- Package reset is the next mover. -/
def tEvent : State := { State.reset with agenda := [.event .packageReset] }

theorem tEvent_core (c : CoreId) : tEvent.core c = Core.reset := by
  show State.reset.cores[_] = _
  exact Vector.getElem_replicate _

/-! ### Lane words -/

/-- A lane word from the fields of its format: FMT, OPC, the always-true guard p15, and each field at the position that 04 R74 and R81
to R86 give it. -/
def tWord (fmt opc : Nat) (fields : List (Nat × Int)) : BitVec 128 :=
  BitVec.ofInt 128 (fields.foldl (fun a f => a + f.2 * 2 ^ f.1) (2 ^ 124 * fmt + 2 ^ 116 * opc + 2 ^ 111 * 15))

/-- What a slot reads a lane word as. -/
def tRead (sl : Slot) (w : BitVec 128) : Option Instr := (decode sl w).toOption

/-- The words of 04 R74 to R95 and of each instruction's entry. -/
theorem decode_scalar_binary :
    tRead .c (tWord 0 0x10 [(73, 4), (61, 5), (49, 6), (21, 7)]) = some (.add {} ⟨.i64, rS 4, rS 5, .reg (rS 6)⟩) ∧
    tRead .c (tWord 0 0x11 [(73, 4), (61, 5), (49, 6), (21, 7)]) = some (.sub {} ⟨.i64, rS 4, rS 5, .reg (rS 6)⟩) ∧
    tRead .c (tWord 0 0x12 [(73, 4), (61, 5), (49, 6), (21, 7)]) = some (.mul {} ⟨.i64, rS 4, rS 5, .reg (rS 6)⟩) ∧
    tRead .c (tWord 0 0x13 [(73, 4), (61, 5), (49, 6), (21, 7)]) = some (.mulh {} ⟨.i64, rS 4, rS 5, .reg (rS 6)⟩) ∧
    tRead .c (tWord 0 0x14 [(73, 4), (61, 5), (49, 6), (21, 7)]) = some (.div {} ⟨.i64, rS 4, rS 5, .reg (rS 6)⟩) ∧
    tRead .c (tWord 0 0x15 [(73, 4), (61, 5), (49, 6), (21, 7)]) = some (.rem {} ⟨.i64, rS 4, rS 5, .reg (rS 6)⟩) ∧
    tRead .c (tWord 0 0x16 [(73, 4), (61, 5), (49, 6), (21, 7)]) = some (.and {} ⟨.i64, rS 4, rS 5, .reg (rS 6)⟩) ∧
    tRead .c (tWord 0 0x17 [(73, 4), (61, 5), (49, 6), (21, 7)]) = some (.or {} ⟨.i64, rS 4, rS 5, .reg (rS 6)⟩) ∧
    tRead .c (tWord 0 0x18 [(73, 4), (61, 5), (49, 6), (21, 7)]) = some (.xor {} ⟨.i64, rS 4, rS 5, .reg (rS 6)⟩) ∧
    tRead .c (tWord 0 0x19 [(73, 4), (61, 5), (49, 6), (21, 7)]) = some (.shl {} ⟨.i64, rS 4, rS 5, .reg (rS 6)⟩) ∧
    tRead .c (tWord 0 0x1A [(73, 4), (61, 5), (49, 6), (21, 7)]) = some (.shr {} ⟨.i64, rS 4, rS 5, .reg (rS 6)⟩) ∧
    tRead .c (tWord 0 0x1B [(73, 4), (61, 5), (49, 6), (21, 7)]) = some (.sar {} ⟨.i64, rS 4, rS 5, .reg (rS 6)⟩) ∧
    tRead .c (tWord 0 0x1C [(73, 4), (61, 5), (49, 6), (21, 7)]) = some (.min {} ⟨.i64, rS 4, rS 5, .reg (rS 6)⟩) ∧
    tRead .c (tWord 0 0x1D [(73, 4), (61, 5), (49, 6), (21, 7)]) = some (.max {} ⟨.i64, rS 4, rS 5, .reg (rS 6)⟩) := by
  decide +kernel

/-- The words of 04 R74 to R95 and of each instruction's entry. -/
theorem decode_scalar_immediate :
    tRead .m (tWord 1 0x10 [(73, 4), (61, 5), (17, 2147483649), (13, 11)]) = some (.add {} ⟨.n64, rS 4, rS 5, .imm 0x80000001⟩) ∧
    tRead .m (tWord 1 0x11 [(73, 4), (61, 5), (17, 2147483649), (13, 11)]) = some (.sub {} ⟨.n64, rS 4, rS 5, .imm 0x80000001⟩) ∧
    tRead .m (tWord 1 0x12 [(73, 4), (61, 5), (17, 2147483649), (13, 11)]) = some (.mul {} ⟨.n64, rS 4, rS 5, .imm 0x80000001⟩) ∧
    tRead .m (tWord 1 0x13 [(73, 4), (61, 5), (17, 2147483649), (13, 11)]) = some (.mulh {} ⟨.n64, rS 4, rS 5, .imm 0x80000001⟩) ∧
    tRead .m (tWord 1 0x14 [(73, 4), (61, 5), (17, 2147483649), (13, 11)]) = some (.div {} ⟨.n64, rS 4, rS 5, .imm 0x80000001⟩) ∧
    tRead .m (tWord 1 0x15 [(73, 4), (61, 5), (17, 2147483649), (13, 11)]) = some (.rem {} ⟨.n64, rS 4, rS 5, .imm 0x80000001⟩) ∧
    tRead .m (tWord 1 0x16 [(73, 4), (61, 5), (17, 2147483649), (13, 11)]) = some (.and {} ⟨.n64, rS 4, rS 5, .imm 0x80000001⟩) ∧
    tRead .m (tWord 1 0x17 [(73, 4), (61, 5), (17, 2147483649), (13, 11)]) = some (.or {} ⟨.n64, rS 4, rS 5, .imm 0x80000001⟩) ∧
    tRead .m (tWord 1 0x18 [(73, 4), (61, 5), (17, 2147483649), (13, 11)]) = some (.xor {} ⟨.n64, rS 4, rS 5, .imm 0x80000001⟩) ∧
    tRead .m (tWord 1 0x19 [(73, 4), (61, 5), (17, 2147483649), (13, 11)]) = some (.shl {} ⟨.n64, rS 4, rS 5, .imm 0x80000001⟩) ∧
    tRead .m (tWord 1 0x1A [(73, 4), (61, 5), (17, 2147483649), (13, 11)]) = some (.shr {} ⟨.n64, rS 4, rS 5, .imm 0x80000001⟩) ∧
    tRead .m (tWord 1 0x1B [(73, 4), (61, 5), (17, 2147483649), (13, 11)]) = some (.sar {} ⟨.n64, rS 4, rS 5, .imm 0x80000001⟩) ∧
    tRead .m (tWord 1 0x1C [(73, 4), (61, 5), (17, 2147483649), (13, 11)]) = some (.min {} ⟨.n64, rS 4, rS 5, .imm 0x80000001⟩) ∧
    tRead .m (tWord 1 0x1D [(73, 4), (61, 5), (17, 2147483649), (13, 11)]) = some (.max {} ⟨.n64, rS 4, rS 5, .imm 0x80000001⟩) := by
  decide +kernel

/-- The words of 04 R74 to R95 and of each instruction's entry. -/
theorem decode_scalar_other :
    tRead .a (tWord 0 0x1E [(73, 4), (61, 5), (21, 7)]) = some (.clz {} ⟨.i64, rS 4, rS 5⟩) ∧
    tRead .a (tWord 0 0x1F [(73, 4), (61, 1616), (21, 11), (15, 8)]) = some (.popc {} ⟨.n64, rS 4, ⟨.q 16, false, true⟩⟩) ∧
    tRead .c (tWord 0 0x20 [(73, 4), (61, 5), (49, 6), (37, 1651), (21, 7)]) = some (.sel {} ⟨.i64, rS 4, rS 5, rS 6, rP 3⟩) ∧
    tRead .c (tWord 0 0x21 [(73, 4), (61, 1612), (21, 7)]) = some (.mov {} ⟨.i64, rS 4, rQ 12⟩) ∧
    tRead .c (tWord 1 0x22 [(73, 4), (17, 4294967291), (13, 7)]) = some (.movi {} ⟨.i64, rS 4, 0xFFFFFFFB⟩) ∧
    tRead .c (tWord 1 0x22 [(73, 4), (17, 18), (13, 7), (0, 1)]) = some (.moviHigh {} ⟨.i64, rS 4, 0x12⟩) ∧
    tRead .c (tWord 0 0x23 [(73, 1650), (61, 3), (49, 5), (21, 11), (0, 21)]) = some (.cmp {} ⟨.n64, rP 2, rS 3, .reg (rS 5), .ge, .or⟩) := by
  decide +kernel

/-- The words of 04 R74 to R95 and of each instruction's entry. -/
theorem decode_control :
    tRead .v (tWord 0 0x0 [(100, 1), (97, 3), (89, 129), (88, 1), (85, 5)]) = some (.nop { sbw := 0x81, qx := some 5, sbs := some 3 }) ∧
    tRead .m (tWord 5 0x1 []) = some (.endSlot {}) ∧
    tRead .c (tWord 2 0x2 [(73, 3), (29, 4294967294), (26, 2)]) = some (.br {} ⟨rS 3, 0xFFFFFFFE, .neg⟩) ∧
    tRead .c (tWord 2 0x3 [(73, 3), (61, 1697)]) = some (.brx {} ⟨rS 3, one, .nz⟩) ∧
    tRead .v (tWord 2 0x4 [(73, 1543), (29, 9)]) = some (.call {} ⟨rS 7, 9⟩) ∧
    tRead .a (tWord 2 0x5 [(73, 7)]) = some (.ret {} (rS 7)) ∧
    tRead .c (tWord 2 0x6 [(73, 3), (29, 5)]) = some (.lpset {} ⟨rS 3, 5⟩) ∧
    tRead .c (tWord 2 0x7 []) = some (.lpend {}) ∧
    tRead .c (tWord 2 0x7 [(29, 16), (0, 1)]) = some (.lpendExit {} 0x10) ∧
    tRead .c (tWord 0 0x21 [(111, -12), (110, 1), (73, 4), (61, 5), (21, 7)]) = some (.mov { gs := 3, gsInv := true } ⟨.i64, rS 4, rS 5⟩) := by
  decide +kernel

/-- The words of 04 R74 to R95 and of each instruction's entry. -/
theorem decode_c_slot :
    tRead .c (tWord 0 0x30 [(61, 1631)]) = some (.qdrop {} (rQ 31)) ∧
    tRead .c (tWord 0 0x31 [(73, 4), (61, 1679)]) = some (.qcnt {} ⟨rS 4, ⟨.d 7, false, false⟩⟩) ∧
    tRead .c (tWord 1 0x32 [(61, 5), (49, 6), (17, 9), (0, 4)]) = some (.tidwr {} ⟨rS 5, 9, 4, rS 6⟩) ∧
    tRead .c (tWord 1 0x33 [(73, 4), (61, 1696), (17, 9), (0, 15)]) = some (.tidrd {} ⟨rS 4, zero, 9, 15⟩) ∧
    tRead .c (tWord 5 0x34 [(73, 4), (49, 65)]) = some (.rdsys {} ⟨rS 4, 0x041⟩) ∧
    tRead .c (tWord 5 0x35 [(61, 5), (49, 65)]) = some (.wrsys {} ⟨rS 5, 0x041⟩) ∧
    tRead .c (tWord 5 0x35 [(49, 65), (0, 1)]) = some (.wrsysImmediate {} ⟨0x041, 0⟩) ∧
    tRead .c (tWord 5 0x36 [(73, 4)]) = some (.rdcyc {} (rS 4)) ∧
    tRead .c (tWord 5 0x37 [(61, 1696), (17, 48879)]) = some (.trap {} ⟨zero, 0xBEEF⟩) ∧
    tRead .c (tWord 5 0x38 []) = some (.yield {}) := by
  decide +kernel

/-- The words of 04 R74 to R95 and of each instruction's entry. -/
theorem decode_memory :
    tRead .a (tWord 3 0x40 [(73, 5), (61, 3), (37, 4095), (17, 1048575), (4, 4), (14, 3), (10, 4)]) = some (.ld {} ⟨.i8, rS 5, ⟨rS 3, 4095, 0xFFFFF⟩, ⟨.device, { g := true }, .rlx⟩⟩) ∧
    tRead .a (tWord 3 0x41 [(61, 3), (49, 6), (37, 5), (17, 8), (14, 5), (10, 2), (8, 2), (4, 11)]) = some (.st {} ⟨.n64, rS 6, ⟨rS 3, 5, 8⟩, ⟨.fabric, { p := true }, .rel⟩⟩) ∧
    tRead .a (tWord 3 0x42 [(73, 1601), (61, 3), (37, 5), (14, 3), (10, 4)]) = some (.ldq {} ⟨rQ 1, ⟨rS 3, 5, 0⟩, ⟨.device, { g := true }, .rlx⟩⟩) ∧
    tRead .a (tWord 3 0x42 [(73, 1601), (61, 3), (14, 1), (10, 8), (0, 1)]) = some (.ldqLocal {} ⟨rQ 1, ⟨rS 3, 0, 0⟩, ordL⟩) ∧
    tRead .a (tWord 3 0x43 [(49, 1609), (61, 3), (37, 5), (14, 3), (10, 4)]) = some (.stq {} ⟨rQ 9, ⟨rS 3, 5, 0⟩, ⟨.device, { g := true }, .rlx⟩⟩) ∧
    tRead .a (tWord 3 0x43 [(49, 1609), (61, 3), (14, 1), (10, 8), (0, 1)]) = some (.stqLocal {} ⟨rQ 9, ⟨rS 3, 0, 0⟩, ordL⟩) ∧
    tRead .a (tWord 3 0x44 [(73, 5), (61, 3), (17, 4), (14, 1), (10, 8), (4, 10)]) = some (.ldl {} ⟨.n32, rS 5, ⟨rS 3, 0, 4⟩, ordL⟩) ∧
    tRead .a (tWord 3 0x45 [(49, 5), (61, 3), (17, 4), (14, 1), (10, 8), (4, 5)]) = some (.stl {} ⟨.i16, rS 5, ⟨rS 3, 0, 4⟩, ordL⟩) := by
  decide +kernel

/-- The words of 04 R74 to R95 and of each instruction's entry. -/
theorem decode_atomics :
    tRead .a (tWord 3 0x48 [(73, 4), (61, 5), (49, 6), (37, 2), (14, 4), (10, 4), (8, 3), (4, 11)]) = some (.aadd {} ⟨.n64, some (rS 4), rS 6, ⟨rS 5, 2, 0⟩, ⟨.package, { g := true }, .ar⟩⟩) ∧
    tRead .a (tWord 3 0x49 [(73, 4), (61, 5), (49, 6), (37, 2), (14, 4), (10, 4), (8, 3), (4, 6)]) = some (.amin {} ⟨.i32, some (rS 4), rS 6, ⟨rS 5, 2, 0⟩, ⟨.package, { g := true }, .ar⟩⟩) ∧
    tRead .a (tWord 3 0x4A [(73, 4), (61, 5), (49, 6), (37, 2), (14, 4), (10, 4), (8, 3), (4, 7)]) = some (.amax {} ⟨.i64, some (rS 4), rS 6, ⟨rS 5, 2, 0⟩, ⟨.package, { g := true }, .ar⟩⟩) ∧
    tRead .a (tWord 3 0x4B [(73, 4), (61, 5), (49, 6), (37, 2), (14, 4), (10, 4), (8, 3), (4, 11)]) = some (.aand {} ⟨.n64, some (rS 4), rS 6, ⟨rS 5, 2, 0⟩, ⟨.package, { g := true }, .ar⟩⟩) ∧
    tRead .a (tWord 3 0x4C [(73, 4), (61, 5), (49, 6), (37, 2), (14, 4), (10, 4), (8, 3), (4, 10)]) = some (.aor {} ⟨.n32, some (rS 4), rS 6, ⟨rS 5, 2, 0⟩, ⟨.package, { g := true }, .ar⟩⟩) ∧
    tRead .a (tWord 3 0x4D [(73, 4), (61, 5), (49, 6), (37, 2), (14, 4), (10, 4), (8, 3), (4, 11)]) = some (.axor {} ⟨.n64, some (rS 4), rS 6, ⟨rS 5, 2, 0⟩, ⟨.package, { g := true }, .ar⟩⟩) ∧
    tRead .a (tWord 3 0x4E [(73, 4), (61, 5), (49, 6), (37, 2), (14, 4), (10, 4), (8, 3), (4, 11)]) = some (.axchg {} ⟨.n64, some (rS 4), rS 6, ⟨rS 5, 2, 0⟩, ⟨.package, { g := true }, .ar⟩⟩) ∧
    tRead .a (tWord 3 0x4F [(73, 4), (61, 5), (49, 6), (37, 2), (14, 4), (10, 4), (8, 3), (4, 11)]) = some (.acas {} ⟨.n64, some (rS 4), rS 6, ⟨rS 5, 2, 0⟩, ⟨.package, { g := true }, .ar⟩⟩) ∧
    tRead .a (tWord 3 0x50 [(73, 4), (61, 5), (49, 6), (37, 2), (14, 4), (10, 4), (8, 3), (4, 0)]) = some (.afadd {} ⟨.f32, some (rS 4), rS 6, ⟨rS 5, 2, 0⟩, ⟨.package, { g := true }, .ar⟩⟩) ∧
    tRead .a (tWord 3 0x48 [(61, 5), (49, 6), (37, 2), (4, 7), (0, 1), (14, 3), (10, 4)]) = some (.aadd {} ⟨.i64, none, rS 6, ⟨rS 5, 2, 0⟩, ⟨.device, { g := true }, .rlx⟩⟩) ∧
    tRead .a (tWord 3 0x58 [(14, 4), (10, 9), (8, 3), (0, 1)]) = some (.fence {} ⟨⟨.package, { l := true, t := true }, .ar⟩, true⟩) ∧
    tRead .a (tWord 0 0x59 [(0, 33)]) = some (.qjoin {} 0x21) := by
  decide +kernel

/-- The words of 04 R74 to R95 and of each instruction's entry. -/
theorem decode_records :
    tRead .a (tWord 4 0x60 [(73, 1), (61, 2), (49, 1696), (37, 1696), (25, 9), (24, 1), (21, 6)]) = some (.cpin {} ⟨rS 1, rS 2, zero, zero, 9, some 6⟩) ∧
    tRead .a (tWord 4 0x61 [(73, 1), (61, 2), (49, 1696), (37, 1696), (25, 9), (24, 1), (21, 6)]) = some (.cpout {} ⟨rS 1, rS 2, zero, zero, 9, some 6⟩) ∧
    tRead .a (tWord 4 0x62 [(73, 1), (61, 2), (49, 1696), (37, 1696), (25, 9), (24, 1), (21, 6)]) = some (.gath {} ⟨rS 1, rS 2, zero, zero, 9, some 6⟩) ∧
    tRead .a (tWord 4 0x63 [(73, 1), (61, 2), (49, 1696), (37, 1696), (25, 9), (24, 1), (21, 6)]) = some (.scat {} ⟨rS 1, rS 2, zero, zero, 9, some 6⟩) ∧
    tRead .m (tWord 4 0x50 [(73, 1), (61, 2), (49, 1696), (37, 1696), (25, 9), (24, 1), (21, 6)]) = some (.mrec {} ⟨rS 1, rS 2, zero, zero, 9, some 6⟩) ∧
    tRead .m (tWord 4 0x51 [(73, 1), (61, 2), (49, 1696), (37, 1696), (25, 9), (24, 1), (21, 6)]) = some (.mconv {} ⟨rS 1, rS 2, zero, zero, 9, some 6⟩) ∧
    tRead .m (tWord 4 0x53 [(73, 1), (61, 2), (49, 1696), (37, 1696), (25, 9), (24, 1), (21, 6)]) = some (.mzst {} ⟨rS 1, rS 2, zero, zero, 9, some 6⟩) ∧
    tRead .m (tWord 4 0x54 [(73, 1), (61, 2), (49, 1696), (37, 1696), (25, 9), (24, 1), (21, 6)]) = some (.mzld {} ⟨rS 1, rS 2, zero, zero, 9, some 6⟩) ∧
    tRead .m (tWord 0 0x52 [(73, 1671), (0, 1)]) = some (.mzclr {} ⟨rZ 7, true⟩) ∧
    tRead .m (tWord 0 0x58 [(73, 4), (0, 13)]) = some (.mterm {} ⟨rS 4, .trmst, true⟩) := by
  decide +kernel

/-- The words of 04 R74 to R95 and of each instruction's entry. -/
theorem decode_messages_and_fabric :
    tRead .a (tWord 3 0x68 [(73, 4), (61, 5), (49, 6), (17, 248)]) = some (.msend {} ⟨rS 4, rS 5, rS 6, 248⟩) ∧
    tRead .a (tWord 3 0x69 [(73, 4), (17, 15)]) = some (.rget {} ⟨rS 4, 15⟩) ∧
    tRead .a (tWord 3 0x69 [(73, 4), (17, 15), (0, 1)]) = some (.rgetPop {} ⟨rS 4, 15⟩) ∧
    tRead .a (tWord 3 0x6A [(73, 4), (61, 5), (17, 2)]) = some (.rwait {} ⟨rS 4, 2, rS 5⟩) ∧
    tRead .a (tWord 3 0x71 [(73, 4), (61, 5), (49, 6), (17, 128), (14, 5), (10, 2), (8, 2), (0, 3)]) = some (.freq {} ⟨rS 4, rS 5, rS 6, 128, some (.fabric, { p := true }), some 1⟩) ∧
    tRead .a (tWord 3 0x72 [(73, 4), (61, 5), (49, 6), (37, 6), (17, 4), (14, 5), (10, 2), (4, 6), (0, 2)]) = some (.fatom {} ⟨.i32, .max, some (rS 4), rS 6, ⟨rS 5, 6, 4⟩, ⟨.fabric, { p := true }, .rlx⟩⟩) := by
  decide +kernel

/-- The words of 04 R74 to R95 and of each instruction's entry. -/
theorem decode_landing :
    tRead .a (tWord 3 0x78 [(61, 5), (49, 6), (17, 2)]) = some (.lzoffer {} ⟨2, rS 5, rS 6⟩) ∧
    tRead .a (tWord 3 0x7A [(73, 4), (61, 5), (49, 6), (17, 64), (14, 5), (10, 2), (0, 3)]) = some (.lzput {} ⟨rS 4, rS 5, 64, rS 6, ⟨.fabric, { p := true }, .rlx⟩, some 1⟩) ∧
    tRead .a (tWord 3 0x7B [(73, 4), (61, 5), (49, 6), (37, 7), (17, 2)]) = some (.lzadopt {} ⟨7, rS 4, rS 6, 2, rS 5⟩) ∧
    tRead .a (tWord 3 0x7C [(61, 5), (17, 2)]) = some (.lzfree {} ⟨2, rS 5⟩) ∧
    tRead .a (tWord 3 0x7D [(73, 4), (61, 5), (17, 2), (14, 1), (10, 8), (8, 1)]) = some (.lzstat {} ⟨rS 4, 2, rS 5, { l := true }, true⟩) := by
  decide +kernel

/-- The words of 04 R74 to R95 and of each instruction's entry. -/
theorem decode_barriers_and_queues :
    tRead .a (tWord 3 0x80 [(73, 4), (61, 5), (49, 6), (37, 3), (14, 3), (10, 4), (8, 2), (0, 14)]) = some (.barinit {} ⟨rS 4, rS 6, .count, true, ⟨rS 5, 3, 0⟩, ⟨.device, { g := true }, .rel⟩⟩) ∧
    tRead .a (tWord 3 0x81 [(73, 4), (61, 5), (49, 6), (37, 3), (14, 3), (10, 4), (8, 2), (0, 14)]) = some (.bararv {} ⟨some (rS 4), rS 6, true, true, ⟨rS 5, 3, 0⟩, ⟨.device, { g := true }, .rel⟩⟩) ∧
    tRead .a (tWord 3 0x82 [(73, 4), (61, 5), (49, 6), (17, 8), (14, 1), (10, 8), (8, 1), (0, 1)]) = some (.barwait {} ⟨rS 4, rS 6, true, ⟨rS 5, 0, 8⟩, ⟨.group, { l := true }, .acq⟩⟩) ∧
    tRead .a (tWord 3 0x83 [(73, 4), (61, 5), (37, 3), (14, 3), (10, 4)]) = some (.bartst {} ⟨rS 4, false, ⟨rS 5, 3, 0⟩, ⟨.device, { g := true }, .rlx⟩⟩) ∧
    tRead .a (tWord 3 0x88 [(73, 4), (61, 5), (37, 3), (14, 1), (10, 4)]) = some (.pgpf {} ⟨rS 4, ⟨rS 5, 3, 0⟩, ⟨.group, { g := true }, .rlx⟩⟩) ∧
    tRead .a (tWord 3 0x89 [(73, 4), (61, 5), (49, 6), (37, 3), (14, 3), (10, 4)]) = some (.pgin {} ⟨rS 4, rS 6, ⟨rS 5, 3, 0⟩, ⟨.device, { g := true }, .rlx⟩⟩) ∧
    tRead .a (tWord 3 0x90 [(73, 4), (61, 5), (49, 6), (37, 3), (14, 3), (10, 4), (8, 2), (0, 11)]) = some (.launch {} ⟨rS 4, rS 6, ⟨rS 5, 3, 0⟩, true, 5, ⟨.device, { g := true }, .rel⟩⟩) := by
  decide +kernel

/-- The words of 04 R74 to R95 and of each instruction's entry. -/
theorem decode_vector_arithmetic :
    tRead .v (tWord 0 0x41 [(21, 1), (73, 12), (61, 10), (49, 11)]) = some (.vsub {} ⟨.bf16, .rne, false, rV 12, rV 10, .reg (rV 11)⟩) ∧
    tRead .v (tWord 0 0x42 [(21, 2), (73, 12), (61, 10), (49, 11)]) = some (.vmul {} ⟨.e4m3, .rne, false, rV 12, rV 10, .reg (rV 11)⟩) ∧
    tRead .v (tWord 0 0x45 [(21, 3), (73, 12), (61, 10), (49, 11)]) = some (.vmin {} ⟨.e5m2, .rne, false, rV 12, rV 10, .reg (rV 11)⟩) ∧
    tRead .v (tWord 0 0x46 [(21, 10), (73, 12), (61, 10), (49, 11)]) = some (.vmax {} ⟨.n32, .rne, false, rV 12, rV 10, .reg (rV 11)⟩) ∧
    tRead .v (tWord 0 0x50 [(21, 10), (73, 12), (61, 10), (49, 11)]) = some (.vand {} ⟨.n32, .rne, false, rV 12, rV 10, .reg (rV 11)⟩) ∧
    tRead .v (tWord 0 0x51 [(21, 4), (73, 12), (61, 10), (49, 11)]) = some (.vor {} ⟨.i8, .rne, false, rV 12, rV 10, .reg (rV 11)⟩) ∧
    tRead .v (tWord 0 0x52 [(21, 5), (73, 12), (61, 10), (49, 11)]) = some (.vxor {} ⟨.i16, .rne, false, rV 12, rV 10, .reg (rV 11)⟩) ∧
    tRead .v (tWord 0 0x54 [(21, 8), (73, 12), (61, 10), (49, 11)]) = some (.vshl {} ⟨.n8, .rne, false, rV 12, rV 10, .reg (rV 11)⟩) ∧
    tRead .v (tWord 0 0x55 [(21, 9), (73, 12), (61, 10), (49, 11)]) = some (.vshr {} ⟨.n16, .rne, false, rV 12, rV 10, .reg (rV 11)⟩) ∧
    tRead .v (tWord 0 0x56 [(21, 6), (73, 12), (61, 10), (49, 11)]) = some (.vsar {} ⟨.i32, .rne, false, rV 12, rV 10, .reg (rV 11)⟩) ∧
    tRead .v (tWord 1 0x40 [(73, 12), (61, 10), (17, 7), (13, 4), (0, 1)]) = some (.vadd {} ⟨.i8, .rne, true, rV 12, rV 10, .imm 7⟩) ∧
    tRead .v (tWord 0 0x43 [(19, 3), (37, 1545), (73, 12), (61, 10), (49, 11)]) = some (.vfma {} ⟨.f32, .rd, rV 12, rV 10, rV 11, rS 9⟩) ∧
    tRead .v (tWord 0 0x44 [(19, 3), (37, 1545), (73, 12), (61, 10), (49, 11)]) = some (.vfms {} ⟨.f32, .rd, rV 12, rV 10, rV 11, rS 9⟩) := by
  decide +kernel

/-- The words of 04 R74 to R95 and of each instruction's entry. -/
theorem decode_vector_unary :
    tRead .v (tWord 0 0x47 [(73, 12), (61, 2058), (21, 0), (19, 0)]) = some (.vabs {} ⟨.f32, .rne, false, rV 12, ⟨.v 10, true, false⟩⟩) ∧
    tRead .v (tWord 0 0x48 [(73, 12), (61, 2058), (21, 6), (19, 0)]) = some (.vneg {} ⟨.i32, .rne, false, rV 12, ⟨.v 10, true, false⟩⟩) ∧
    tRead .v (tWord 0 0x49 [(73, 12), (61, 2058), (21, 0), (19, 0)]) = some (.vrcp {} ⟨.f32, .rne, false, rV 12, ⟨.v 10, true, false⟩⟩) ∧
    tRead .v (tWord 0 0x4A [(73, 12), (61, 2058), (21, 1), (19, 0)]) = some (.vrsq {} ⟨.bf16, .rne, false, rV 12, ⟨.v 10, true, false⟩⟩) ∧
    tRead .v (tWord 0 0x4B [(73, 12), (61, 2058), (21, 0), (19, 1)]) = some (.vsqrt {} ⟨.f32, .rz, false, rV 12, ⟨.v 10, true, false⟩⟩) ∧
    tRead .v (tWord 0 0x4C [(73, 12), (61, 2058), (21, 0), (19, 0)]) = some (.vexp2 {} ⟨.f32, .rne, false, rV 12, ⟨.v 10, true, false⟩⟩) ∧
    tRead .v (tWord 0 0x4D [(73, 12), (61, 2058), (21, 0), (19, 0)]) = some (.vlog2 {} ⟨.f32, .rne, false, rV 12, ⟨.v 10, true, false⟩⟩) ∧
    tRead .v (tWord 0 0x53 [(73, 12), (61, 2058), (21, 8), (19, 0)]) = some (.vnot {} ⟨.n8, .rne, false, rV 12, ⟨.v 10, true, false⟩⟩) ∧
    tRead .v (tWord 0 0x58 [(0, 4), (73, 12), (61, 10), (49, 11)]) = some (.vcmp {} ⟨.f32, .gt, rV 12, rV 10, .reg (rV 11)⟩) ∧
    tRead .v (tWord 0 0x78 [(37, 13), (73, 12), (61, 10), (49, 11)]) = some (.vsel {} ⟨rV 12, rV 10, rV 11, rV 13⟩) ∧
    tRead .v (tWord 0 0x59 [(61, 3), (49, 1696), (0, 4)]) = some (.mpush {} ⟨.f32, .gt, rV 3, zero⟩) ∧
    tRead .v (tWord 0 0x5A []) = some (.minv {}) ∧
    tRead .v (tWord 0 0x5B []) = some (.mpop {}) ∧
    tRead .v (tWord 2 0x5C [(29, 6)]) = some (.vskipz {} 6) ∧
    tRead .v (tWord 1 0x60 [(73, 1635), (61, 1540), (17, 255), (0, 34)]) = some (.kset {} ⟨rK 3, rS 4, 0xFF, .w8, 4⟩) ∧
    tRead .v (tWord 0 0x61 [(73, 1540), (61, 1635)]) = some (.kget {} ⟨rS 4, rK 3⟩) := by
  decide +kernel

/-- The words of 04 R74 to R95 and of each instruction's entry. -/
theorem decode_vector_moves :
    tRead .v (tWord 0 0x79 [(73, 12), (61, 10), (0, 3)]) = some (.vmov {} ⟨rV 12, rV 10, .w6⟩) ∧
    tRead .v (tWord 0 0x7A [(73, 12), (61, 10), (49, 1540), (37, 1541)]) = some (.vins {} ⟨rV 12, rV 10, rS 4, rS 5⟩) ∧
    tRead .v (tWord 0 0x7B [(73, 1542), (61, 10), (49, 1540), (0, 1)]) = some (.vext {} ⟨rS 6, rV 10, rS 4, true⟩) ∧
    tRead .v (tWord 0 0x68 [(73, 12), (61, 10), (21, 7), (19, 1), (0, 17)]) = some (.vcvt {} ⟨.i64, .bf16, true, .rz, rV 12, rV 10⟩) ∧
    tRead .v (tWord 0 0x69 [(73, 12), (61, 10), (0, 7)]) = some (.vpack4 {} ⟨rV 12, rV 10, 7⟩) ∧
    tRead .v (tWord 0 0x6A [(73, 12), (61, 10), (0, 15)]) = some (.vunpack4 {} ⟨rV 12, rV 10, 7, true⟩) ∧
    tRead .v (tWord 0 0x6B [(73, 12), (61, 10), (0, 4)]) = some (.vpack6 {} ⟨rV 12, rV 10, 4⟩) ∧
    tRead .v (tWord 0 0x6C [(73, 12), (61, 10), (0, 4)]) = some (.vunpack6 {} ⟨rV 12, rV 10, 4, false⟩) ∧
    tRead .v (tWord 0 0x6D [(73, 12), (61, 10), (49, 1540), (21, 13), (19, 1), (0, 6)]) = some (.vqnt {} ⟨.q6, .rz, rV 12, rV 10, some (rS 4), 2⟩) ∧
    tRead .v (tWord 0 0x6E [(73, 12), (61, 10), (21, 12)]) = some (.vdeq {} ⟨.q4, rV 12, rV 10⟩) ∧
    tRead .v (tWord 1 0x70 [(73, 12), (61, 10), (17, 3)]) = some (.vrotr {} ⟨rV 12, rV 10, .imm 3⟩) ∧
    tRead .v (tWord 0 0x71 [(73, 12), (61, 10), (49, 1540)]) = some (.vrotc {} ⟨rV 12, rV 10, .reg (rS 4)⟩) ∧
    tRead .v (tWord 1 0x72 [(73, 12), (61, 10), (17, 31)]) = some (.vbcr {} ⟨rV 12, rV 10, .imm 31⟩) ∧
    tRead .v (tWord 1 0x73 [(73, 12), (61, 10), (17, 31)]) = some (.vbcc {} ⟨rV 12, rV 10, .imm 31⟩) := by
  decide +kernel

/-- The words of 04 R74 to R95 and of each instruction's entry. -/
theorem decode_vector_tiles :
    tRead .v (tWord 0 0x74 [(73, 12), (61, 10), (21, 6), (0, 4)]) = some (.vredr {} ⟨.i32, .rne, .add, true, rV 12, rV 10⟩) ∧
    tRead .v (tWord 0 0x75 [(73, 12), (61, 10), (0, 2)]) = some (.vredc {} ⟨.f32, .rne, .max, false, rV 12, rV 10⟩) ∧
    tRead .v (tWord 0 0x76 [(73, 12), (61, 10)]) = some (.vtrn {} ⟨rV 12, rV 10⟩) ∧
    tRead .v (tWord 0 0x80 [(73, 12), (61, 1667), (0, 15)]) = some (.vzrd {} ⟨rV 12, rZ 3, 15⟩) ∧
    tRead .v (tWord 0 0x81 [(73, 1667), (61, 12), (0, 8)]) = some (.vzwr {} ⟨rZ 3, rV 12, 8⟩) ∧
    tRead .v (tWord 0 0x82 [(101, 2), (73, 12), (61, 1537), (49, 1696), (37, 1696), (25, 1538), (0, 32767)]) = some (.trd { ch := .last } ⟨rV 12, 4095, rS 1, zero, zero, rS 2, 7⟩) ∧
    tRead .v (tWord 0 0x83 [(73, 1602), (61, 1537), (49, 1696), (37, 1696), (25, 1696), (0, 4102)]) = some (.twr {} ⟨rQ 2, 6, rS 1, zero, zero, zero, 1⟩) := by
  decide +kernel

/-- The words of 04 R74 to R95 and of each instruction's entry. -/
theorem decode_tiles :
    tRead .m (tWord 4 0x40 [(73, 1), (61, 2), (49, 1696), (37, 1696), (25, 7)]) = some (.tpf {} ⟨7, rS 1, rS 2, zero, zero, false, none, none⟩) ∧
    tRead .m (tWord 4 0x40 [(101, 4), (24, 1), (21, 2), (73, 1), (61, 2), (49, 1696), (37, 1696), (25, 7)]) = some (.tpfItinerary { ch := .itin } ⟨7, rS 1, rS 2, some 2⟩) ∧
    tRead .m (tWord 4 0x42 [(73, 1), (61, 2), (49, 1696), (37, 1696), (25, 7)]) = some (.tunpin {} ⟨7, rS 1, rS 2, zero, zero, false, none, none⟩) ∧
    tRead .m (tWord 4 0x43 [(0, 1), (73, 1696), (61, 1696), (49, 1696), (37, 1696), (25, 7)]) = some (.tlast {} ⟨7, zero, zero, zero, zero, true, none, none⟩) ∧
    tRead .m (tWord 4 0x44 [(73, 1), (61, 2), (49, 1696), (37, 1696), (25, 7)]) = some (.tstream {} ⟨7, rS 1, rS 2, zero, zero, false, none, none⟩) ∧
    tRead .m (tWord 4 0x45 [(73, 1), (61, 2), (49, 1696), (37, 1696), (25, 7)]) = some (.tinv {} ⟨7, rS 1, rS 2, zero, zero, false, none, none⟩) ∧
    tRead .m (tWord 4 0x46 [(0, 6), (73, 1), (61, 2), (49, 1696), (37, 1696), (25, 7)]) = some (.twb {} ⟨7, rS 1, rS 2, zero, zero, false, some .device, none⟩) ∧
    tRead .m (tWord 4 0x47 [(0, 11), (73, 1696), (61, 1696), (49, 1696), (37, 1696), (25, 7)]) = some (.tcmt {} ⟨7, zero, zero, zero, zero, true, some .fabric, none⟩) ∧
    tRead .m (tWord 4 0x48 [(0, 24), (73, 1), (61, 1630), (25, 7)]) = some (.tedacq {} ⟨7, rS 1, rQ 30, true, .package, none⟩) := by
  decide +kernel

/-- Words that the manual writes out in its examples (04 R98; 05 R112; 07 R173; 08 R213; 12 R291; 17 R367; 18 R380). -/
theorem decode_examples :
    tRead .c 0x1107800000000800800000000002E000#128 = some (.add {} ⟨.i64, rS 4, rS 4, .imm 1⟩) ∧
    tRead .a 0x3407801200000A00600000A000105070#128 = some (.ld { sbs := some 1 } ⟨.i64, rS 5, ⟨rS 3, 5, 8⟩, ⟨.group, { g := true }, .rlx⟩⟩) ∧
    tRead .v 0x04078E00000019014016000000000000#128 = some (.vadd { gk := some 3 } ⟨.f32, .rne, false, rV 12, ⟨.v 10, true, false⟩, .reg (rV 11)⟩) ∧
    tRead .c 0x12378000000CE4006000000000C8E002#128 = some (.cmp {} ⟨.i64, rP 2, rS 3, .imm 100, .lt, .set⟩) ∧
    tRead .v 0x05978000000000006D40000000000004#128 = some (.mpush {} ⟨.f32, .gt, rV 3, zero⟩) ∧
    tRead .m 0x44178000000002004D40D4000E000000#128 = some (.tpin {} ⟨7, rS 1, rS 2, zero, zero, false, none, none⟩) ∧
    tRead .a 0x3707800000000A00600800C000014803#128 = some (.fwr {} ⟨rS 5, rS 4, ⟨rS 3, 6, 0⟩, ⟨.fabric, { p := true }, .rlx⟩, some 1⟩) ∧
    tRead .a 0x3797800000000800A00C000000040000#128 = some (.lzgrant {} ⟨rS 4, 2, rS 5, rS 6, none⟩) ∧
    tRead .a 0x3917800000000800C00E00000800D200#128 = some (.qentry {} ⟨rS 4, rS 7, rS 6, 0x400, ⟨.device, { g := true }, .rel⟩⟩) := by
  decide +kernel

/-! ### Ill-formed terms -/

/-- Each term breaks one rule of 04 R76 to R95 or of its entry. -/
theorem refused_heads : ([(.c, .nop { gk := some 3 }),
    (.c, .add { ch := .pin } ⟨.i64, rS 4, rS 5, .reg (rS 6)⟩),
    (.v, .minv { gk := some 0 }),
    (.m, .tpf { ch := .itin } ⟨7, zero, zero, zero, zero, false, none, none⟩),
    (.m, .tpfItinerary {} ⟨7, rS 1, rS 2, none⟩),
    (.a, .ld { ch := .last } ⟨.i64, rS 4, ⟨rS 3, 5, 0⟩, ordG⟩),
    (.a, .cpin { ch := .pin } ⟨zero, zero, zero, zero, 0, none⟩),
    (.v, .trd { ch := .itin } ⟨rV 12, 0, zero, zero, zero, zero, 0⟩)] : List (Slot × Instr)).all (fun x => !x.2.wf x.1) = true := by
  decide +kernel

/-- Each term breaks one rule of 04 R76 to R95 or of its entry. -/
theorem refused_operands : ([(.c, .add {} ⟨.i64, rS 4, ⟨.s 5, true, false⟩, .reg (rS 6)⟩),
    (.c, .add {} ⟨.i64, rS 4, ⟨.s 5, false, true⟩, .reg (rS 6)⟩),
    (.c, .add {} ⟨.i64, zero, rS 5, .reg (rS 6)⟩),
    (.c, .add {} ⟨.i64, rQ 12, rS 5, .reg (rS 6)⟩),
    (.c, .add {} ⟨.i64, rS 4, rQ 16, .reg (rS 6)⟩),
    (.a, .add {} ⟨.i64, rS 4, rQ 12, .reg (rS 6)⟩),
    (.m, .add {} ⟨.i64, rQ 28, rS 5, .reg (rS 6)⟩),
    (.c, .add {} ⟨.i64, rS 4, rP 1, .reg (rS 6)⟩),
    (.c, .br {} ⟨⟨.q 12, false, true⟩, 0, .nz⟩),
    (.c, .sel {} ⟨.i64, rS 4, rS 5, rS 6, rS 3⟩),
    (.c, .cmp {} ⟨.i64, rS 4, rS 5, .imm 0, .eq, .set⟩),
    (.c, .call {} ⟨rQ 16, 1⟩),
    (.c, .moviHigh {} ⟨.i64, rQ 16, 1⟩),
    (.c, .qdrop {} (rS 4)),
    (.c, .qcnt {} ⟨rS 4, rS 5⟩),
    (.v, .vadd {} ⟨.f32, .rne, false, rQ 0, rV 10, .reg (rV 11)⟩),
    (.v, .vadd {} ⟨.f32, .rne, false, rV 12, rQ 8, .reg (rV 11)⟩),
    (.v, .vadd {} ⟨.f32, .rne, false, rS 4, rV 10, .reg (rV 11)⟩),
    (.v, .vadd {} ⟨.f32, .rne, false, ⟨.v 12, true, false⟩, rV 10, .reg (rV 11)⟩),
    (.v, .vadd {} ⟨.f32, .rne, false, rV 12, ⟨.q 0, true, false⟩, .reg (rV 11)⟩),
    (.v, .vadd {} ⟨.f32, .rne, false, rV 12, rK 3, .reg (rV 11)⟩),
    (.v, .kset {} ⟨rS 3, zero, 0, .cont, 1⟩),
    (.v, .kget {} ⟨rS 4, rZ 1⟩),
    (.v, .vzrd {} ⟨rV 12, rV 3, 0⟩),
    (.m, .mzclr {} ⟨rS 1, false⟩),
    (.v, .twr {} ⟨⟨.q 2, false, true⟩, 0, zero, zero, zero, zero, 0⟩),
    (.v, .vins {} ⟨rV 12, rV 10, ⟨.row, false, false⟩, rS 5⟩)] : List (Slot × Instr)).all (fun x => !x.2.wf x.1) = true := by
  decide +kernel

/-- Each term breaks one rule of 04 R76 to R95 or of its entry. -/
theorem refused_slots : ([(.v, .add {} ⟨.i64, rS 4, rS 5, .reg (rS 6)⟩),
    (.a, .qdrop {} (rQ 12)),
    (.m, .ld {} ⟨.i64, rS 4, ⟨rS 3, 5, 0⟩, ordG⟩),
    (.c, .vadd {} ⟨.f32, .rne, false, rV 12, rV 10, .reg (rV 11)⟩),
    (.a, .tpin {} ⟨7, zero, zero, zero, zero, false, none, none⟩),
    (.a, .yield {}),
    (.c, .syncBundleIssue c0)] : List (Slot × Instr)).all (fun x => !x.2.wf x.1) = true := by
  decide +kernel

/-- Each term breaks one rule of 04 R76 to R95 or of its entry. -/
theorem refused_types_and_modes : ([(.a, .ld {} ⟨.f32, rS 4, ⟨rS 3, 5, 0⟩, ordG⟩),
    (.a, .aadd {} ⟨.n16, some (rS 4), rS 6, ⟨rS 3, 5, 0⟩, ordG⟩),
    (.a, .aand {} ⟨.i64, some (rS 4), rS 6, ⟨rS 3, 5, 0⟩, ordG⟩),
    (.a, .afadd {} ⟨.n32, none, rS 6, ⟨rS 3, 5, 0⟩, ordG⟩),
    (.v, .vadd {} ⟨.i64, .rne, false, rV 12, rV 10, .reg (rV 11)⟩),
    (.v, .vadd {} ⟨.i32, .rz, false, rV 12, rV 10, .reg (rV 11)⟩),
    (.v, .vadd {} ⟨.f32, .rne, true, rV 12, rV 10, .reg (rV 11)⟩),
    (.v, .vmin {} ⟨.f32, .rz, false, rV 12, rV 10, .reg (rV 11)⟩),
    (.v, .vmax {} ⟨.i8, .rne, true, rV 12, rV 10, .reg (rV 11)⟩),
    (.v, .vand {} ⟨.f32, .rne, false, rV 12, rV 10, .reg (rV 11)⟩),
    (.v, .vfma {} ⟨.i32, .rne, rV 12, rV 10, rV 11, rV 13⟩),
    (.v, .vabs {} ⟨.n8, .rne, false, rV 12, rV 10⟩),
    (.v, .vrcp {} ⟨.e4m3, .rne, false, rV 12, rV 10⟩),
    (.v, .vexp2 {} ⟨.f32, .rz, false, rV 12, rV 10⟩),
    (.v, .vnot {} ⟨.f32, .rne, false, rV 12, rV 10⟩),
    (.v, .vcvt {} ⟨.q4, .f32, false, .rne, rV 12, rV 10⟩),
    (.v, .vcvt {} ⟨.i8, .i32, false, .rz, rV 12, rV 10⟩),
    (.v, .vcvt {} ⟨.f32, .bf16, true, .rne, rV 12, rV 10⟩),
    (.v, .vqnt {} ⟨.f32, .rne, rV 12, rV 10, none, 0⟩),
    (.v, .vqnt {} ⟨.q6, .rne, rV 12, rV 10, none, 3⟩),
    (.v, .vdeq {} ⟨.i8, rV 12, rV 10⟩),
    (.v, .vredr {} ⟨.f32, .rz, .min, false, rV 12, rV 10⟩),
    (.v, .vredc {} ⟨.i8, .rne, .max, true, rV 12, rV 10⟩),
    (.v, .vcmp {} ⟨.n64, .eq, rV 12, rV 10, .imm 0⟩),
    (.v, .mpush {} ⟨.i64, .eq, rV 10, zero⟩)] : List (Slot × Instr)).all (fun x => !x.2.wf x.1) = true := by
  decide +kernel

/-- Each term breaks one rule of 04 R76 to R95 or of its entry. -/
theorem refused_scopes_and_orders : ([(.a, .ld {} ⟨.i64, rS 4, ⟨rS 3, 5, 0⟩, ⟨.group, { g := true }, .rel⟩⟩),
    (.a, .st {} ⟨.i64, rS 4, ⟨rS 3, 5, 0⟩, ⟨.group, { g := true }, .acq⟩⟩),
    (.a, .ld {} ⟨.i64, rS 4, ⟨rS 3, 5, 0⟩, ⟨.group, {}, .rlx⟩⟩),
    (.a, .ldl {} ⟨.i64, rS 4, ⟨rS 3, 5, 0⟩, ordL⟩),
    (.a, .ldq {} ⟨rQ 8, ⟨rS 3, 5, 0⟩, ordG⟩),
    (.a, .stq {} ⟨rQ 7, ⟨rS 3, 5, 0⟩, ordG⟩),
    (.a, .acas {} ⟨.n64, none, rS 6, ⟨rS 3, 5, 0⟩, ordG⟩),
    (.a, .acas {} ⟨.n64, some (rQ 12), rS 6, ⟨rS 3, 5, 0⟩, ordG⟩),
    (.a, .fence {} ⟨ordG, false⟩),
    (.a, .qjoin {} 0),
    (.a, .fwr {} ⟨rS 1, rS 2, ⟨rS 3, 5, 0⟩, ⟨.slot, { p := true }, .rlx⟩, none⟩),
    (.a, .fwr {} ⟨rS 1, rS 2, ⟨rS 3, 5, 0⟩, ⟨.device, {}, .rlx⟩, none⟩),
    (.a, .fatom {} ⟨.n64, .cas, none, rS 6, ⟨rS 3, 5, 0⟩, ordG⟩),
    (.a, .freq {} ⟨rS 4, rS 5, rS 6, 248, some (.fabric, {}), none⟩),
    (.a, .lzgrant {} ⟨rQ 12, 0, rS 5, rS 6, none⟩),
    (.a, .lzput {} ⟨rS 4, rS 5, 0, rS 6, ⟨.device, {}, .rlx⟩, none⟩),
    (.a, .lzstat {} ⟨rS 4, 0, rS 5, {}, true⟩),
    (.a, .barinit {} ⟨rS 4, rS 6, .count, true, ⟨rS 3, 5, 0⟩, ⟨.group, { g := true }, .acq⟩⟩),
    (.a, .bararv {} ⟨none, rS 6, true, true, ⟨rS 3, 5, 0⟩, ⟨.group, { g := true }, .ar⟩⟩),
    (.a, .barwait {} ⟨rS 4, rS 6, true, ⟨rS 3, 5, 0⟩, ordL⟩),
    (.a, .bartst {} ⟨rS 4, false, ⟨rS 3, 5, 0⟩, ⟨.group, { g := true }, .rel⟩⟩),
    (.a, .pgpf {} ⟨rS 4, ⟨rS 3, 5, 0⟩, ⟨.group, { g := true }, .acq⟩⟩),
    (.a, .pgin {} ⟨rS 4, rS 6, ⟨rS 3, 5, 0⟩, ⟨.group, { p := true }, .rlx⟩⟩),
    (.a, .launch {} ⟨rS 4, rS 6, ⟨rS 3, 5, 0⟩, true, 6, ordG⟩),
    (.a, .qentry {} ⟨rS 4, rS 6, rS 5, 0, ⟨.slot, { g := true }, .rlx⟩⟩),
    (.m, .twb {} ⟨7, zero, zero, zero, zero, false, some .slot, none⟩),
    (.m, .tpin {} ⟨7, zero, zero, zero, zero, true, none, none⟩),
    (.m, .tcmt {} ⟨7, rS 1, zero, zero, zero, true, some .device, none⟩),
    (.m, .tedacq {} ⟨7, rS 1, rQ 12, false, .device, none⟩)] : List (Slot × Instr)).all (fun x => !x.2.wf x.1) = true := by
  decide +kernel

/-- Each term breaks one rule of 04 R76 to R95 or of its entry. -/
theorem refused_numbers : ([(.c, .lpset {} ⟨rS 3, 0⟩),
    (.c, .lpset {} ⟨rS 3, 0xFFFFFFFF⟩),
    (.c, .rdsys {} ⟨rS 4, 0x003⟩),
    (.c, .wrsys {} ⟨rS 4, 0xFFF⟩),
    (.c, .wrsysImmediate {} ⟨0, 0⟩),
    (.a, .msend {} ⟨rS 4, rS 5, rS 6, 0⟩),
    (.a, .msend {} ⟨rS 4, rS 5, rS 6, 256⟩),
    (.a, .msend {} ⟨rS 4, rS 5, rS 6, 12⟩),
    (.v, .kset {} ⟨rK 3, zero, 0, .cont, 0⟩),
    (.v, .kset {} ⟨rK 3, zero, 0, .cont, 7⟩),
    (.v, .vpack6 {} ⟨rV 12, rV 10, 5⟩),
    (.v, .vunpack6 {} ⟨rV 12, rV 10, 5, false⟩)] : List (Slot × Instr)).all (fun x => !x.2.wf x.1) = true := by
  decide +kernel

/-! ### Single steps -/

/-- The state that an outcome answers, or the one given. -/
def tAfter (s : State) : Host.Outcome State Fault Refusal → State
  | .next t => t
  | _ => s

/-- The state after an instruction of a slot of the test state. -/
def tRan (i : Instr) (s : State) : State := tAfter s (exec i s)

/-- A scalar register of the slot that moved. -/
def tReg (n : Fin 64) (s : State) : Word := (s.here.slot s.cur.2).s[n]

/-- Container `i` of a vector register of core 0, and a byte of it. -/
def tCont (n i : Nat) (s : State) : Nat :=
  match (s.core c0).vloc n with
  | some (.resident v _) => bitsOf v.toNat (32 * i) 32
  | _ => 0

/-- The vector slot's test state with v1 set. -/
def tVec (v : Nat) : State := (tState .v [(4, 3)]).updCore c0 fun k => { k with v := [(1, .resident (BitVec.ofNat 32768 v) 0)] }

abbrev tBin (a b : Word) (f : Head → SBin → Instr) : Word :=
  tReg 4 (tRan (f {} ⟨.i64, rS 4, rS 5, .reg (rS 6)⟩) (tState .c [(5, a), (6, b)]))

/-- A fetched word runs: ADD s4, s4, 1 of 04 R98 as the first instruction, and the PC moves on. -/
theorem test_fetch_add :
    let s := tAfter State.reset (step (State.reset.placeBundle .c (bundleWith .c 0x1107800000000800800000000002E000)))
    tReg 4 s = 1 ∧ (s.here.slot .c).pc = 1 := by decide +kernel

/-- The all-zero word is NOP (04 R98). -/
theorem test_fetch_nop :
    let s := tAfter State.reset (step (State.reset.withFetchWord 128 0))
    ((s.core s.cur.1).slot s.cur.2).pc = 1 := by decide +kernel

/-- An unassigned FMT raises the illegal-instruction fault with the lane's bit in AUX; the slot stays (04 R96, R97). -/
theorem test_fetch_illegal :
    let s := tAfter State.reset (step (State.reset.placeBundle .m (bundleWith .m (6 * 2 ^ 124))))
    (s.here.faults.map fun f => (f.fr.code, f.fr.aux)) = [(0x0101, 8)] ∧ (s.here.slot .m).pc = 0 := by decide +kernel

/-- SY bits that disagree raise the malformed-bundle fault with the four bits (04 R97). -/
theorem test_fetch_malformed :
    let s := tAfter State.reset (step (State.reset.placeBundle .a (bundleOf (nopWith true) (nopWith false) (nopWith true) (nopWith false))))
    (s.here.faults.map fun f => (f.fr.code, f.fr.aux)) = [(0x0102, 5)] := by decide +kernel

theorem test_add_wraps : tBin (BitVec.allOnes 64) 2 .add = 1 := by decide +kernel
theorem test_sub_borrows : tBin 0 1 .sub = BitVec.allOnes 64 := by decide +kernel
theorem test_mulh_signed : tBin (BitVec.allOnes 64) 2 .mulh = BitVec.allOnes 64 := by decide +kernel
theorem test_div_zero : tBin 9 0 .div = BitVec.allOnes 64 := by decide +kernel
theorem test_div_overflow : tBin 0x8000000000000000 (BitVec.allOnes 64) .div = 0x8000000000000000 := by decide +kernel
theorem test_rem_sign : tBin (-7) 2 .rem = -1 := by decide +kernel
theorem test_rem_zero : tBin 9 0 .rem = 9 := by decide +kernel
theorem test_shl_modulo : tBin 1 65 .shl = 2 := by decide +kernel
theorem test_sar_sign : tBin 0x8000000000000000 63 .sar = BitVec.allOnes 64 := by decide +kernel
theorem test_min_signed : tBin (-1) 1 .min = -1 := by decide +kernel
theorem test_clz_zero : tReg 4 (tRan (.clz {} ⟨.i64, rS 4, rS 5⟩) (tState .c [])) = 64 := by decide +kernel

/-- The high half of MOVI keeps the low one (05 R111). -/
theorem test_movi_high : tReg 8 (tRan (.moviHigh {} ⟨.i64, rS 8, 0x01234567⟩) (tState .c [(8, 0xFFFFFFFF89ABCDEF)])) = 0x0123456789ABCDEF := by
  decide +kernel

/-- A loop count of 0 goes past the closing LPEND and pushes nothing (05 R116). -/
theorem test_lpset_zero :
    let s := tRan (.lpset {} ⟨rS 5, 4⟩) (tState .c [])
    (s.here.slot .c).pc = 5 ∧ (s.here.slot .c).loops = [] := by decide +kernel

/-- A last pass pops the loop and falls through (05 R117). -/
theorem test_lpend_last :
    let s := tRan (.lpend {}) ((tState .c []).updCore c0 (·.updSlot .c fun t => { t with pc := 4, loops := [⟨1, 4, 1⟩] }))
    (s.here.slot .c).pc = 5 ∧ (s.here.slot .c).loops = [] := by decide +kernel

/-- QDROP of three entries with data and one awaited: QCNT gives 0x0000_0003_0001_0000 (05 R118, R119, the example there). -/
theorem test_qdrop :
    let e : QEntry 32768 := ⟨0, some 0, false, false⟩
    let s := tRan (.qdrop {} (rQ 0)) ((tState .c []).updCore c0 fun k => { k with vq := k.vq.set 0 [e, e, e, ⟨9, none, false, false⟩] })
    tReg 20 (tRan (.qcnt {} ⟨rS 20, rQ 0⟩) s) = 0x0000000300010000 := by decide +kernel

/-- 257.0 and -0.6 as E4M3 and as n8 (03 R58, 07 R181). -/
theorem test_vcvt :
    let s := tRan (.vcvt {} ⟨.e4m3, .f32, false, .rne, rV 2, rV 1⟩) (tVec (0x43808000 + 2 ^ 32 * 0xBF19999A))
    tCont 2 0 s = 0x78 ∧ tCont 2 1 s = 0xB2 := by decide +kernel

theorem test_vcvt_n8 :
    let s := tRan (.vcvt {} ⟨.n8, .f32, false, .rne, rV 3, rV 1⟩) (tVec (0x43808000 + 2 ^ 32 * 0xBF19999A))
    tCont 3 0 s = 0xFF ∧ tCont 3 1 s = 0 := by decide +kernel

/-- The example of 07 R182 and R183. -/
theorem test_vpack6 :
    let s := tRan (.vpack6 {} ⟨rV 2, rV 1, 0⟩) (tVec (0x2A + 2 ^ 32 * 0x15 + 2 ^ 64 * 0x3F + 2 ^ 96))
    tCont 2 0 s % 2 ^ 24 = 0x07F56A := by decide +kernel

theorem test_vunpack6 :
    let s := tRan (.vunpack6 {} ⟨rV 3, rV 1, 0, true⟩) (tVec 0x07F56A)
    ((List.range 4).map fun i => (BitVec.ofNat 32 (tCont 3 i s)).toInt) = [-22, 21, -1, 1] := by decide +kernel

/-- The example of 07 R185: the scale byte, the codes and the untouched blocks. -/
theorem test_vqnt :
    let s := tRan (.vqnt {} ⟨.q4, .rne, rV 5, rV 1, none, 1⟩) (tVec (0x40400000 + 2 ^ 32 * 0x3F4CCCCD + 2 ^ 64 * 0xBE800000 + 2 ^ 96 * 0x3FA00000))
    tCont 5 0 s = 0x4937 ∧ tCont 5 128 s = 0x4040405F := by decide +kernel

theorem test_vdeq :
    let s := tRan (.vdeq {} ⟨.q4, rV 6, rV 1⟩) (tVec (0x4937 + 2 ^ 4096 * 0x4040405F))
    ((List.range 4).map fun i => tCont 6 i s) = [0x40400000, 0x3F400000, 0xBE800000, 0x3F800000] := by decide +kernel

/-- The example of 07 R187 to R189: container (2, 5) is number 64 * 2 + 5. -/
theorem test_vrot :
    let s := tVec (2 ^ (32 * (64 * 2 + 5)) * 7)
    tCont 2 (64 * 2 + 2) (tRan (.vrotr {} ⟨rV 2, rV 1, .imm (-3)⟩) s) = 7 ∧ tCont 3 (64 + 5) (tRan (.vrotc {} ⟨rV 3, rV 1, .imm 15⟩) s) = 7 := by
  decide +kernel

theorem test_vredr :
    let s := tRan (.vredr {} ⟨.i32, .rne, .add, false, rV 6, rV 1⟩) (tVec (2 ^ (32 * (64 * 2 + 5)) * 7))
    tCont 6 (64 * 2 + 63) s = 7 ∧ tCont 6 (64 * 3) s = 0 := by decide +kernel

/-- VEXP2 of -3 and of -151 (07 R169, the example of R168). -/
theorem test_vexp2 : approxElem .exp2 .f32 0xC0400000 = 0x3E000000 ∧ approxElem .exp2 .f32 0xC3170000 = 0 := by decide +kernel

/-- The Q4 block of the example after 03 R66: -0.75, and 0.625 as code 0b0100. -/
theorem test_block :
    fpEncode fp32 .rne (blockVal .q4 0x5E 0xD) = 0xBF400000 ∧ encodeBlockVal .q4 1 30 .rne (fpDecode fp32 0x3F200000) = 4 := by decide +kernel

/-- The BF16 chunk of the example after 03 R71: +0 with all three products, and 2^-33 with the third alone. -/
theorem test_chunk :
    let p := fun a b => fMul (fpDecode bf16 a) (fpDecode bf16 b)
    roundF32 (chunkSum [p 0x4700 0x4700, p 0xC700 0x4700, p 0x3780 0x3700]) = 0 ∧ roundF32 (chunkSum [p 0x3780 0x3700]) = 0x2F000000 := by
  decide +kernel

/-- The set of tn2(2, 0) (08 R205, the example after R209). -/
theorem test_tag_set : tagSet 2 #v[2, 0, 0, 0] = 12 := by decide +kernel

/-- The example of 11 R266: the home die, the slice and the address within the channel's die. -/
theorem test_home :
    let s := { State.reset with parts :=
      [⟨2, 5, 1, 1, 0xF, 0, 0x4000000000, 0, 0, 0⟩, ⟨3, 5, 1, BitVec.ofNat 64 (2 ^ 32 - 1), 0, 0xF, 0x4000000000, 0, 0, 0⟩] }
    s.homeDie 5 0x4000001A80 = 3 ∧ s.homeSlice 5 3 0x4000001A80 = 21 := by decide +kernel

/-- A last use unmaps the register that it reads (02 R38). -/
theorem test_last_use :
    let s := tRan (.vmov {} ⟨rV 2, ⟨.v 1, true, false⟩, .cont⟩) (tVec 9)
    (s.here.vloc 1).isNone = true ∧ tCont 2 0 s = 9 ∧ s.here.refil = 0 := by decide +kernel

/-! ### The hypotheses of the statements can be met

One theorem for each clause of a statement that has hypotheses: not every state and operands fail one of them. -/

theorem witness_ScalarBinaryResult : ∀ p ∈ ([(.add, fun _ a b => BitVec.ofNat 64 (a.toNat + b.toNat)),
      (.sub, fun _ a b => BitVec.ofInt 64 ((a.toNat : Int) - b.toNat)),
      (.mul, fun _ a b => BitVec.ofNat 64 (a.toNat * b.toNat)),
      (.mulh, fun ty a b => BitVec.ofInt 64 (asInt ty a * asInt ty b / 2 ^ 64)),
      (.div, fun ty a b => if b = 0 then BitVec.allOnes 64 else BitVec.ofInt 64 ((asInt ty a).tdiv (asInt ty b))),
      (.rem, fun ty a b => if b = 0 then a else BitVec.ofInt 64 ((asInt ty a).tmod (asInt ty b))),
      (.and, fun _ a b => a &&& b), (.or, fun _ a b => a ||| b), (.xor, fun _ a b => a ^^^ b),
      (.shl, fun _ a b => BitVec.ofNat 64 (a.toNat * 2 ^ (b.toNat % 64))),
      (.shr, fun _ a b => BitVec.ofNat 64 (a.toNat / 2 ^ (b.toNat % 64))),
      (.sar, fun _ a b => BitVec.ofInt 64 (a.toInt / 2 ^ (b.toNat % 64))),
      (.min, fun ty a b => if asInt ty a ≤ asInt ty b then a else b),
      (.max, fun ty a b => if asInt ty a < asInt ty b then b else a)] :
      List ((Head → SBin → Instr) × (STy → Word → Word → Word))), ¬ (∀ (h : Head) (o : SBin) (s : State) a b s1 s2 t, Issues h s → readS o.a (started h s) = .ok (a, s1) → readSrc2 o.b s1 = .ok (b, s2) → writeS o.d (p.2 o.ty a b) s2 = .ok ((), t) → False) := fun p _ H =>
  by refine H {} ⟨.i64, rS 4, rS 1, .reg (rS 2)⟩ (tState .c [(1, 0x100), (2, 3), (3, 0)]) _ _ _ _ _ (issues _ _ ?_) (ok ?_) (ok ?_) (okU rfl) <;> decide +kernel

theorem witness_ScalarUnaryResult_0 : ∀ p ∈ ([(.clz, fun a => BitVec.ofNat 64 (if a = 0 then 64 else 63 - Nat.log2 a.toNat)),
      (.popc, fun a => BitVec.ofNat 64 ((List.range 64).countP fun i => a.getLsbD i)), (.mov, fun a => a)] :
      List ((Head → SUn → Instr) × (Word → Word))), ¬ (∀ (h : Head) (o : SUn) (s : State) a s1 t, Issues h s → readS o.a (started h s) = .ok (a, s1) → writeS o.d (p.2 a) s1 = .ok ((), t) → False) := fun p _ H =>
  by refine H {} ⟨.i64, rS 4, rS 1⟩ (tState .c [(1, 0x100), (2, 3), (3, 0)]) _ _ _ (issues _ _ ?_) (ok ?_) (okU rfl) <;> decide +kernel
theorem witness_ScalarUnaryResult_1 : ¬ (∀ (h : Head) (o : SSel) (s : State) a b p s1 s2 s3 t, Issues h s → readS o.a (started h s) = .ok (a, s1) → readS o.b s1 = .ok (b, s2) → readS o.p s2 = .ok (p, s3) → writeS o.d (if p = 0 then b else a) s3 = .ok ((), t) → False) := fun H =>
  by refine H {} ⟨.i64, rQ 20, rS 1, rQ 13, rS 3⟩ (tState .c [(1, 0x100), (2, 3), (3, 0)]) _ _ _ _ _ _ _ (issues _ _ ?_) (ok ?_) (ok ?_) (ok ?_) (okU ?_) <;> decide +kernel
theorem witness_ScalarUnaryResult_2 : ¬ (∀ (h : Head) (o : SImm) (s : State) t, Issues h s → writeS o.d (BitVec.ofInt 64 o.imm.toInt) (started h s) = .ok ((), t) → False) := fun H =>
  by refine H {} ⟨.i64, rS 63, 0xFFFFFFFF⟩ (tState .c [(1, 0x100), (2, 3), (3, 0)]) _ (issues _ _ ?_) (okU ?_) <;> decide +kernel
theorem witness_ScalarUnaryResult_3 : ¬ (∀ (h : Head) (o : SImm) (s : State) a s1 t, Issues h s → readS o.d (started h s) = .ok (a, s1) → writeS o.d (BitVec.ofNat 64 (o.imm.toNat * 2 ^ 32 + a.toNat % 2 ^ 32)) s1 = .ok ((), t) → False) := fun H =>
  by refine H {} ⟨.i64, rS 1, 5⟩ (tState .c [(1, 0x100), (2, 3), (3, 0)]) _ _ _ (issues _ _ ?_) (ok ?_) (okU ?_) <;> decide +kernel

theorem witness_CompareResult_p15 : ¬ (∀ (h : Head) (o : SCmp) (s : State) a b s1 s2 n, Issues h s → readS o.a (started h s) = .ok (a, s1) → readSrc2 o.b s1 = .ok (b, s2) → o.d.name = .p n → False) := fun H =>
  by refine H {} ⟨.n64, rP 15, rS 1, .imm 7, .lt, .set⟩ (tState .c [(1, 0x100), (2, 3), (3, 0)]) _ _ _ _ _ (issues _ _ ?_) (ok ?_) (ok ?_) rfl <;> decide +kernel
theorem witness_CompareResult_p0 : ¬ (∀ (h : Head) (o : SCmp) (s : State) a b s1 s2 n, Issues h s → readS o.a (started h s) = .ok (a, s1) → readSrc2 o.b s1 = .ok (b, s2) → o.d.name = .p n → False) := fun H =>
  by refine H {} ⟨.n64, rP 0, rS 1, .imm 7, .lt, .and⟩ (tState .c [(1, 0x100), (2, 3), (3, 0)]) _ _ _ _ _ (issues _ _ ?_) (ok ?_) (ok ?_) rfl <;> decide +kernel

theorem witness_BranchResult_0 : ¬ (∀ (h : Head) (s : State), s.here.mayIssue s.cur.2 = true → schedReady h false s.here s.cur.2 = true → False) := fun H =>
  by refine H {} (tState .c []) ?_ ?_ <;> decide +kernel
theorem witness_BranchResult_1 : ¬ (∀ (h : Head) (s : State), Issues h s → False) := fun H =>
  H {} (tState .c []) (issues _ _ (by decide +kernel))
theorem witness_BranchResult_2 : ¬ (∀ (h : Head) (o : BrOp) (s : State) v s1, Issues h s → readS o.src (started h s) = .ok (v, s1) → False) := fun H =>
  by refine H {} ⟨rS 2, 5, .nz⟩ (tState .c [(1, 0x100), (2, 3), (3, 0)]) _ _ (issues _ _ ?_) (ok ?_) <;> decide +kernel
theorem witness_BranchResult_3 : ¬ (∀ (h : Head) (o : BrxOp) (s : State) a v s1 s2, Issues h s → readS o.tgt (started h s) = .ok (a, s1) → readS o.src s1 = .ok (v, s2) → False) := fun H =>
  by refine H {} ⟨rS 1, rS 2, .nz⟩ (tState .c [(1, 0x100), (2, 3), (3, 0)]) _ _ _ _ (issues _ _ ?_) (ok ?_) (ok ?_) <;> decide +kernel
theorem witness_BranchResult_4 : ¬ (∀ (h : Head) (o : RegDisp) (s : State) s1, Issues h s → writeS o.r (((s.here.slot s.cur.2).pc + 1).setWidth 64) (started h s) = .ok ((), s1) → False) := fun H =>
  by refine H {} ⟨rS 4, 5⟩ (tState .c [(1, 0x100), (2, 3), (3, 0)]) _ (issues _ _ ?_) (okU ?_) <;> decide +kernel
theorem witness_BranchResult_5 : ¬ (∀ (h : Head) (o : Operand) (s : State) a s1, Issues h s → readS o (started h s) = .ok (a, s1) → False) := fun H =>
  by refine H {} (rS 1) (tState .c [(1, 0x100), (2, 3), (3, 0)]) _ _ (issues _ _ ?_) (ok ?_) <;> decide +kernel
theorem witness_BranchResult_6 : ¬ (∀ (h : Head) (o : RegDisp) (s : State) v s1, Issues h s → readS o.r (started h s) = .ok (v, s1) → ((s.here.slot s.cur.2).loops.length < 4 ∨ v = 0) → False) := fun H =>
  by refine H {} ⟨rS 2, 5⟩ (tState .c [(1, 0x100), (2, 3), (3, 0)]) _ _ (issues _ _ ?_) (ok ?_) (.inl ?_) <;> decide +kernel
theorem witness_BranchResult_7 : ¬ (∀ (h : Head) (s : State) e r, Issues h s → (s.here.slot s.cur.2).loops = e :: r → e.stop = (s.here.slot s.cur.2).pc → False) := fun H =>
  by refine H {} ((tState .c []).updCore ⟨0, 0⟩ (·.updSlot .c fun t => { t with loops := [⟨0, 0, 2⟩] })) ⟨0, 0, 2⟩ [] (issues _ _ ?_) ?_ ?_ <;> decide +kernel
theorem witness_BranchResult_8 : ¬ (∀ (h : Head) (s : State) e r, Issues h s → (s.here.slot s.cur.2).loops = e :: r → False) := fun H =>
  by refine H {} ((tState .c []).updCore ⟨0, 0⟩ (·.updSlot .c fun t => { t with loops := [⟨0, 0, 2⟩] })) ⟨0, 0, 2⟩ [] (issues _ _ ?_) ?_ <;> decide +kernel

theorem witness_QueueAndTableResult_0 : ¬ (∀ (h : Head) (o : Operand) (s : State) n, Issues h s → o.name = .q n → False) := fun H =>
  H {} (rQ 13) (tState .c []) _ (issues _ _ (by decide +kernel)) rfl
theorem witness_QueueAndTableResult_1 : ¬ (∀ (h : Head) (o : QCntOp) (s : State) n t, Issues h s → o.q.name = .q n → o.d.name ≠ o.q.name → writeS o.d (if n.val < 12 then queueCounts n.val (started h s).here.vq[vectorQ n.val] else queueCounts n.val (started h s).here.q[scalarQ n.val]) (started h s) = .ok ((), t) → False) := fun H =>
  by refine H {} ⟨rS 4, rQ 13⟩ (tState .c []) _ _ (issues _ _ ?_) rfl ?_ (okU ?_) <;> decide +kernel
theorem witness_QueueAndTableResult_2 : ¬ (∀ (h : Head) (o : QCntOp) (s : State) i t, Issues h s → o.q.name = .d i → writeS o.d (BitVec.ofNat 64 ((16 - (started h s).here.d[i]) * 2 ^ 32 + (started h s).here.d[i])) (started h s) = .ok ((), t) → False) := fun H =>
  by refine H {} ⟨rS 4, ⟨.d 7, false, false⟩⟩ (tState .c []) _ _ (issues _ _ ?_) rfl (okU ?_) <;> decide +kernel
theorem witness_QueueAndTableResult_3 : ¬ (∀ (h : Head) (o : TidWrOp) (s : State) i v e x s1 s2 s3, Issues h s → readS o.idx (started h s) = .ok (i, s1) → i.toNat + o.base.toNat ≤ 4095 → readS o.val s1 = .ok (v, s2) → getEntry (BitVec.ofNat 12 (i.toNat + o.base.toNat)) s2 = .ok (e, s3) → s3.here.ctxId.bind s3.ctx? = some x → let n : BitVec 12 := BitVec.ofNat 12 (i.toNat + o.base.toNat); let w := v.toNat &&& tensorMask o.w.toNat; let s4 := s3.updCore s3.cur.1 fun k => { k with tcache := ⟨n, putBytes e (8 * o.w.toNat) (natLe 8 w)⟩ :: k.tcache.filter (·.n ≠ n) }; tagRoom s4.here s4.cur.2 0 = true → False) := fun H =>
  by refine H {} ⟨zero, 4095, 15, rS 1⟩ (tState .a [(1, 0x100), (2, 3), (3, 0)]) _ _ _ _ _ _ _ (issues _ _ ?_) (ok ?_) ?_ (ok ?_) (ok ?_) (som ?_) ?_ <;> decide +kernel
theorem witness_QueueAndTableResult_4 : ¬ (∀ (h : Head) (o : TidRdOp) (s : State) i e s1 s2 t, Issues h s → readS o.idx (started h s) = .ok (i, s1) → i.toNat + o.base.toNat ≤ 4095 → getEntry (BitVec.ofNat 12 (i.toNat + o.base.toNat)) s1 = .ok (e, s2) → writeS o.d (BitVec.ofNat 64 (bitsOf e.toNat (64 * o.w.toNat) 64 &&& tensorMask o.w.toNat)) s2 = .ok ((), t) → False) := fun H =>
  by refine H {} ⟨rS 4, zero, 5, 2⟩ (tState .c [(1, 0x100), (2, 3), (3, 0)]) _ _ _ _ _ (issues _ _ ?_) (ok ?_) ?_ (ok ?_) (okU ?_) <;> decide +kernel

theorem witness_SystemRegisterResult_0 : ¬ (∀ (h : Head) (o : SysOp) (s : State) v t, Issues h s → (started h s).sysRead s.cur.1 o.sys.toNat = some v → writeS o.r v (started h s) = .ok ((), t) → False) := fun H =>
  by refine H {} ⟨rS 4, 0x002⟩ (tState .c [(1, 0x100), (2, 3), (3, 0)]) _ _ (issues _ _ ?_) (som ?_) (okU ?_) <;> decide +kernel
theorem witness_SystemRegisterResult_1 : ¬ (∀ (h : Head) (o : SysOp) (s : State) v s1, Issues h s → sysAssigned o.sys.toNat = true → readS o.r (started h s) = .ok (v, s1) → False) := fun H =>
  by refine H {} ⟨rS 1, 0x040⟩ (tState .c [(1, 0x100), (2, 3), (3, 0)]) _ _ (issues _ _ ?_) ?_ (ok ?_) <;> decide +kernel
theorem witness_SystemRegisterResult_2 : ¬ (∀ (h : Head) (o : SysImm) (s : State), Issues h s → sysAssigned o.sys.toNat = true → False) := fun H =>
  by refine H {} ⟨0x040, 0x1000⟩ (tState .c [(1, 0x100), (2, 3), (3, 0)]) (issues _ _ ?_) ?_ <;> decide +kernel
theorem witness_SystemRegisterResult_3 : ¬ (∀ (h : Head) (o : Operand) (s : State) t, Issues h s → writeS o (BitVec.ofNat 64 s.cycles[s.cur.1.die]) (started h s) = .ok ((), t) → False) := fun H =>
  by refine H {} (rS 4) (tState .c [(1, 0x100), (2, 3), (3, 0)]) _ (issues _ _ ?_) (okU ?_) <;> decide +kernel
theorem witness_SystemRegisterResult_4 : ¬ (∀ (h : Head) (o : TrapOp) (s : State) v s1, Issues h s → readS o.src (started h s) = .ok (v, s1) → False) := fun H =>
  by refine H {} ⟨rS 1, 0xFFFF⟩ (tState .c [(1, 0x100), (2, 3), (3, 0)]) _ _ (issues _ _ ?_) (ok ?_) <;> decide +kernel
theorem witness_SystemRegisterResult_5 : ¬ (∀ (h : Head) (s : State) g, Issues h s → s.here.grp = some g → False) := fun H =>
  by refine H {} (tState .c []) _ (issues _ _ ?_) (som ?_) <;> decide +kernel

theorem witness_LoadStoreIssue_0 : ¬ (∀ (h : Head) (o : LdOp) (s : State) hd va d s1 s2, Issues h s → handleAddr o.ad o.o.ssc o.ty.bytes o.ty.bytes true (started h s) = .ok ((hd, va), s1) → reserveDest o.d s1.here.nextId s1 = .ok (d, s2) → tagRoom s2.here s2.cur.2 1 = true → False) := fun H =>
  by refine H {} ⟨.n64, rQ 12, ⟨rS 1, 1, 0⟩, ordG⟩ (tState .a [(1, 0x100), (2, 3), (3, 0)]) _ _ _ _ _ (issues _ _ ?_) (ok2 ?_) (ok ?_) ?_ <;> decide +kernel
theorem witness_LoadStoreIssue_last_byte : ¬ (∀ (h : Head) (o : StOp) (s : State) hd va b s1 s2, Issues h s → handleAddr o.ad o.o.ssc o.ty.bytes o.ty.bytes false (started h s) = .ok ((hd, va), s1) → readS o.b s1 = .ok (b, s2) → tagRoom s2.here s2.cur.2 1 = true → False) := fun H =>
  by refine H {} ⟨.n8, rS 2, ⟨rS 1, 1, 0xFEFF⟩, ordG⟩ (tState .a [(1, 0x100), (2, 3), (3, 0)]) _ _ _ _ _ (issues _ _ ?_) (ok2 ?_) (ok ?_) ?_ <;> decide +kernel
theorem witness_LoadStoreIssue_2 : ¬ (∀ (h : Head) (o : LdOp) (s : State) off d s1 s2, Issues h s → localAddr o.ad o.o.ssc o.ty.bytes o.ty.bytes false (started h s) = .ok (off, s1) → reserveDest o.d s1.here.nextId s1 = .ok (d, s2) → tagRoom s2.here s2.cur.2 0 = true → False) := fun H =>
  by refine H {} ⟨.n64, rS 4, ⟨rS 1, 0, 0⟩, ordL⟩ (tState .a [(1, 0x100), (2, 3), (3, 0)]) _ _ _ _ (issues _ _ ?_) (ok ?_) (ok ?_) ?_ <;> decide +kernel
theorem witness_LoadStoreIssue_3 : ¬ (∀ (h : Head) (o : StOp) (s : State) off b s1 s2, Issues h s → localAddr o.ad o.o.ssc o.ty.bytes o.ty.bytes true (started h s) = .ok (off, s1) → readS o.b s1 = .ok (b, s2) → tagRoom s2.here s2.cur.2 0 = true → False) := fun H =>
  by refine H {} ⟨.n32, rS 2, ⟨rS 1, 0, 0⟩, ordL⟩ (tState .a [(1, 0x100), (2, 3), (3, 0)]) _ _ _ _ (issues _ _ ?_) (ok ?_) (ok ?_) ?_ <;> decide +kernel
theorem witness_LoadStoreIssue_4 : ¬ (∀ (h : Head) (o : QMemOp) (s : State) hd va d s1 s2, Issues h s → handleAddr o.ad o.o.ssc 4096 128 true (started h s) = .ok ((hd, va), s1) → reserveDest o.q s1.here.nextId s1 = .ok (d, s2) → tagRoom s2.here s2.cur.2 32 = true → False) := fun H =>
  by refine H {} ⟨rQ 0, ⟨rS 1, 1, 0⟩, ordG⟩ (tState .a [(1, 0x1000), (2, 3), (3, 0)]) _ _ _ _ _ (issues _ _ ?_) (ok2 ?_) (ok ?_) ?_ <;> decide +kernel
theorem witness_LoadStoreIssue_5 : ¬ (∀ (h : Head) (o : QMemOp) (s : State) off d s1 s2, Issues h s → localAddr o.ad o.o.ssc 4096 128 false (started h s) = .ok (off, s1) → reserveDest o.q s1.here.nextId s1 = .ok (d, s2) → tagRoom s2.here s2.cur.2 0 = true → False) := fun H =>
  by refine H {} ⟨rQ 7, ⟨rS 1, 0, 0⟩, ordL⟩ (tState .a [(1, 0x1000), (2, 3), (3, 0)]) _ _ _ _ (issues _ _ ?_) (ok ?_) (ok ?_) ?_ <;> decide +kernel
theorem witness_LoadStoreIssue_6 : ¬ (∀ (h : Head) (o : QMemOp) (s : State) hd va n v s1 s2, Issues h s → handleAddr o.ad o.o.ssc 4096 128 false (started h s) = .ok ((hd, va), s1) → o.q.name = .q n → popVector n.val false s1 = .ok (v, s2) → tagRoom s2.here s2.cur.2 32 = true → False) := fun H =>
  by refine H {} ⟨rQ 8, ⟨rS 1, 1, 0⟩, ordG⟩ (tState .a [(1, 0x1000), (2, 3), (3, 0)]) _ _ _ _ _ _ (issues _ _ ?_) (ok2 ?_) rfl (ok ?_) ?_ <;> decide +kernel
theorem witness_LoadStoreIssue_7 : ¬ (∀ (h : Head) (o : QMemOp) (s : State) off n v s1 s2, Issues h s → localAddr o.ad o.o.ssc 4096 128 true (started h s) = .ok (off, s1) → o.q.name = .q n → popVector n.val false s1 = .ok (v, s2) → tagRoom s2.here s2.cur.2 0 = true → False) := fun H =>
  by refine H {} ⟨rQ 11, ⟨rS 1, 0, 0⟩, ordL⟩ (tState .a [(1, 0x1000), (2, 3), (3, 0)]) _ _ _ _ _ (issues _ _ ?_) (ok ?_) rfl (ok ?_) ?_ <;> decide +kernel

theorem witness_AtomicIssue_0 : ∀ p ∈ ([(.aadd, .add), (.amin, .min), (.amax, .max), (.aand, .and), (.aor, .or), (.axor, .xor), (.axchg, .xchg),
      (.afadd, .fadd)] : List ((Head → AtOp → Instr) × AOp)), ¬ (∀ (h : Head) (o : AtOp) (s : State) hd va b dst d s1 s2 s3, Issues h s → handleAddr o.ad o.o.ssc o.ty.bytes o.ty.bytes false (started h s) = .ok ((hd, va), s1) → readS o.b s1 = .ok (b, s2) → o.d = some dst → reserveDest dst s2.here.nextId s2 = .ok (d, s3) → tagRoom s3.here s3.cur.2 1 = true → False) := fun p _ H =>
  by refine H {} ⟨.n64, some (rS 4), rS 2, ⟨rS 1, 1, 0⟩, ordG⟩ (tState .a [(1, 0x100), (2, 3), (3, 0)]) _ _ _ _ _ _ _ _ (issues _ _ ?_) (ok2 ?_) (ok ?_) rfl (ok ?_) ?_ <;> decide +kernel
theorem witness_AtomicIssue_1 : ∀ p ∈ ([(.aadd, .add), (.amin, .min), (.amax, .max), (.aand, .and), (.aor, .or), (.axor, .xor), (.axchg, .xchg),
      (.afadd, .fadd)] : List ((Head → AtOp → Instr) × AOp)), ¬ (∀ (h : Head) (o : AtOp) (s : State) hd va b s1 s2, Issues h s → handleAddr o.ad o.o.ssc o.ty.bytes o.ty.bytes false (started h s) = .ok ((hd, va), s1) → readS o.b s1 = .ok (b, s2) → o.d = none → tagRoom s2.here s2.cur.2 1 = true → False) := fun p _ H =>
  by refine H {} ⟨.n32, none, rS 2, ⟨rS 1, 1, 0⟩, ordG⟩ (tState .a [(1, 0x100), (2, 3), (3, 0)]) _ _ _ _ _ (issues _ _ ?_) (ok2 ?_) (ok ?_) rfl ?_ <;> decide +kernel
theorem witness_AtomicIssue_2 : ¬ (∀ (h : Head) (o : AtOp) (s : State) hd va b dst x d s1 s2 s3 s4, Issues h s → handleAddr o.ad o.o.ssc o.ty.bytes o.ty.bytes false (started h s) = .ok ((hd, va), s1) → readS o.b s1 = .ok (b, s2) → o.d = some dst → readS dst s2 = .ok (x, s3) → reserveDest dst s3.here.nextId s3 = .ok (d, s4) → tagRoom s4.here s4.cur.2 1 = true → False) := fun H =>
  by refine H {} ⟨.n64, some (rS 4), rS 2, ⟨rS 1, 1, 0⟩, ordG⟩ (tState .a [(1, 0x100), (2, 3), (3, 0)]) _ _ _ _ _ _ _ _ _ _ (issues _ _ ?_) (ok2 ?_) (ok ?_) rfl (ok ?_) (ok ?_) ?_ <;> decide +kernel
theorem witness_AtomicIssue_3 : ¬ (∀ (h : Head) (s : State), Issues h s → tagRoom (started h s).here s.cur.2 0 = true → False) := fun H =>
  by refine H {} (tState .a [(1, 0x100), (2, 3), (3, 0)]) (issues _ _ ?_) ?_ <;> decide +kernel
theorem witness_AtomicIssue_4 : ¬ (∀ (h : Head) (s : State), Issues h s → tagRoom (started h s).here s.cur.2 0 = true → False) := fun H =>
  by refine H {} (tState .a [(1, 0x100), (2, 3), (3, 0)]) (issues _ _ ?_) ?_ <;> decide +kernel

theorem witness_RecordCommandIssue_cpin : ¬ (∀ p ∈ ([(.cpin, 0x20, 1), (.cpout, 0x21, 2), (.gath, 0x22, 3), (.scat, 0x23, 3)] :
      List ((Head → RecOp → Instr) × Nat × Fin 6)), ∀ (h : Head) (o : RecOp) (s : State) r b hd sh s1 s2 s3 s4, Issues h s → readRecord o.idx (started h s) = .ok (r, s1) → readBases o s1 = .ok (b, s2) → copyIllFormed p.2.1 r = none → recordHandle (copyRec r).hdl s2 = .ok (hd, s3) → (if isBlockCode (copyRec r).sfmt then recordHandle (copyRec r).shdl s3 = .ok (sh, s4) else sh = 0 ∧ s4 = s3) → s4.here.takes p.2.2 true = true → False) := fun H =>
  by refine H (.cpin, 0x20, 1) (by simp) {} ⟨zero, zero, zero, zero, 0, some 1⟩ (tLocal 0x10000 64 (tCopy 0x20) (tState .a [])) _ _ _ _ _ _ _ _ (issues _ _ ?_) (ok ?_) (ok ?_) ?_ (ok ?_) (ifF ?_ ⟨rfl, rfl⟩) ?_ <;> decide +kernel
theorem witness_RecordCommandIssue_cpout : ¬ (∀ p ∈ ([(.cpin, 0x20, 1), (.cpout, 0x21, 2), (.gath, 0x22, 3), (.scat, 0x23, 3)] :
      List ((Head → RecOp → Instr) × Nat × Fin 6)), ∀ (h : Head) (o : RecOp) (s : State) r b hd sh s1 s2 s3 s4, Issues h s → readRecord o.idx (started h s) = .ok (r, s1) → readBases o s1 = .ok (b, s2) → copyIllFormed p.2.1 r = none → recordHandle (copyRec r).hdl s2 = .ok (hd, s3) → (if isBlockCode (copyRec r).sfmt then recordHandle (copyRec r).shdl s3 = .ok (sh, s4) else sh = 0 ∧ s4 = s3) → s4.here.takes p.2.2 true = true → False) := fun H =>
  by refine H (.cpout, 0x21, 2) (by simp) {} ⟨zero, zero, zero, zero, 0, some 1⟩ (tLocal 0x10000 64 (tCopy 0x21) (tState .a [])) _ _ _ _ _ _ _ _ (issues _ _ ?_) (ok ?_) (ok ?_) ?_ (ok ?_) (ifF ?_ ⟨rfl, rfl⟩) ?_ <;> decide +kernel
theorem witness_RecordCommandIssue_gath : ¬ (∀ p ∈ ([(.cpin, 0x20, 1), (.cpout, 0x21, 2), (.gath, 0x22, 3), (.scat, 0x23, 3)] :
      List ((Head → RecOp → Instr) × Nat × Fin 6)), ∀ (h : Head) (o : RecOp) (s : State) r b hd sh s1 s2 s3 s4, Issues h s → readRecord o.idx (started h s) = .ok (r, s1) → readBases o s1 = .ok (b, s2) → copyIllFormed p.2.1 r = none → recordHandle (copyRec r).hdl s2 = .ok (hd, s3) → (if isBlockCode (copyRec r).sfmt then recordHandle (copyRec r).shdl s3 = .ok (sh, s4) else sh = 0 ∧ s4 = s3) → s4.here.takes p.2.2 true = true → False) := fun H =>
  by refine H (.gath, 0x22, 3) (by simp) {} ⟨zero, zero, zero, zero, 0, some 1⟩ (tLocal 0x10000 64 (tCopy 0x22) (tState .a [])) _ _ _ _ _ _ _ _ (issues _ _ ?_) (ok ?_) (ok ?_) ?_ (ok ?_) (ifF ?_ ⟨rfl, rfl⟩) ?_ <;> decide +kernel
theorem witness_RecordCommandIssue_scat : ¬ (∀ p ∈ ([(.cpin, 0x20, 1), (.cpout, 0x21, 2), (.gath, 0x22, 3), (.scat, 0x23, 3)] :
      List ((Head → RecOp → Instr) × Nat × Fin 6)), ∀ (h : Head) (o : RecOp) (s : State) r b hd sh s1 s2 s3 s4, Issues h s → readRecord o.idx (started h s) = .ok (r, s1) → readBases o s1 = .ok (b, s2) → copyIllFormed p.2.1 r = none → recordHandle (copyRec r).hdl s2 = .ok (hd, s3) → (if isBlockCode (copyRec r).sfmt then recordHandle (copyRec r).shdl s3 = .ok (sh, s4) else sh = 0 ∧ s4 = s3) → s4.here.takes p.2.2 true = true → False) := fun H =>
  by refine H (.scat, 0x23, 3) (by simp) {} ⟨zero, zero, zero, zero, 0, some 1⟩ (tLocal 0x10000 64 (tCopy 0x23) (tState .a [])) _ _ _ _ _ _ _ _ (issues _ _ ?_) (ok ?_) (ok ?_) ?_ (ok ?_) (ifF ?_ ⟨rfl, rfl⟩) ?_ <;> decide +kernel
theorem witness_RecordCommandIssue_mrec : ¬ (∀ p ∈ ([(.mrec, 0x10), (.mconv, 0x11), (.mzst, 0x12), (.mzld, 0x13)] : List ((Head → RecOp → Instr) × Nat)), ∀ (h : Head) (o : RecOp) (s : State) r b g ea eb s1 s2 s3 s4, Issues h s → readRecord o.idx (started h s) = .ok (r, s1) → readBases o s1 = .ok (b, s2) → s2.here.grp = some g → getEntry (matTa r) s2 = .ok (ea, s3) → (if matHasB p.2 then getEntry (matTb r) s3 = .ok (eb, s4) else eb = 0 ∧ s4 = s3) → matIllFormed p.2 g.accs r (tEnt ea) (tEnt eb) = none → s4.here.takes 5 false = true → False) := fun H =>
  by refine H (.mrec, 0x10) (by simp) {} ⟨zero, zero, zero, zero, 0, some 1⟩ (tLocal 0x10000 64 (tMatrix 0x10 5 5) (tState .m [])) _ _ _ _ _ _ _ _ _ (issues _ _ ?_) (ok ?_) (ok ?_) (som ?_) (ok ?_) (ifT ?_ (ok ?_)) ?_ ?_ <;> decide +kernel
theorem witness_RecordCommandIssue_mconv : ¬ (∀ p ∈ ([(.mrec, 0x10), (.mconv, 0x11), (.mzst, 0x12), (.mzld, 0x13)] : List ((Head → RecOp → Instr) × Nat)), ∀ (h : Head) (o : RecOp) (s : State) r b g ea eb s1 s2 s3 s4, Issues h s → readRecord o.idx (started h s) = .ok (r, s1) → readBases o s1 = .ok (b, s2) → s2.here.grp = some g → getEntry (matTa r) s2 = .ok (ea, s3) → (if matHasB p.2 then getEntry (matTb r) s3 = .ok (eb, s4) else eb = 0 ∧ s4 = s3) → matIllFormed p.2 g.accs r (tEnt ea) (tEnt eb) = none → s4.here.takes 5 false = true → False) := fun H =>
  by refine H (.mconv, 0x11) (by simp) {} ⟨zero, zero, zero, zero, 0, some 1⟩ (tLocal 0x10000 64 (tMatrix 0x11 6 5) (tState .m [])) _ _ _ _ _ _ _ _ _ (issues _ _ ?_) (ok ?_) (ok ?_) (som ?_) (ok ?_) (ifT ?_ (ok ?_)) ?_ ?_ <;> decide +kernel
theorem witness_RecordCommandIssue_mzst : ¬ (∀ p ∈ ([(.mrec, 0x10), (.mconv, 0x11), (.mzst, 0x12), (.mzld, 0x13)] : List ((Head → RecOp → Instr) × Nat)), ∀ (h : Head) (o : RecOp) (s : State) r b g ea eb s1 s2 s3 s4, Issues h s → readRecord o.idx (started h s) = .ok (r, s1) → readBases o s1 = .ok (b, s2) → s2.here.grp = some g → getEntry (matTa r) s2 = .ok (ea, s3) → (if matHasB p.2 then getEntry (matTb r) s3 = .ok (eb, s4) else eb = 0 ∧ s4 = s3) → matIllFormed p.2 g.accs r (tEnt ea) (tEnt eb) = none → s4.here.takes 5 false = true → False) := fun H =>
  by refine H (.mzst, 0x12) (by simp) {} ⟨zero, zero, zero, zero, 0, some 1⟩ (tLocal 0x10000 64 (tMatrix 0x12 5 0) (tState .m [])) _ _ _ _ _ _ _ _ _ (issues _ _ ?_) (ok ?_) (ok ?_) (som ?_) (ok ?_) (ifF ?_ ⟨rfl, rfl⟩) ?_ ?_ <;> decide +kernel
theorem witness_RecordCommandIssue_mzld : ¬ (∀ p ∈ ([(.mrec, 0x10), (.mconv, 0x11), (.mzst, 0x12), (.mzld, 0x13)] : List ((Head → RecOp → Instr) × Nat)), ∀ (h : Head) (o : RecOp) (s : State) r b g ea eb s1 s2 s3 s4, Issues h s → readRecord o.idx (started h s) = .ok (r, s1) → readBases o s1 = .ok (b, s2) → s2.here.grp = some g → getEntry (matTa r) s2 = .ok (ea, s3) → (if matHasB p.2 then getEntry (matTb r) s3 = .ok (eb, s4) else eb = 0 ∧ s4 = s3) → matIllFormed p.2 g.accs r (tEnt ea) (tEnt eb) = none → s4.here.takes 5 false = true → False) := fun H =>
  by refine H (.mzld, 0x13) (by simp) {} ⟨zero, zero, zero, zero, 0, some 1⟩ (tLocal 0x10000 64 (tMatrix 0x13 5 0) (tState .m [])) _ _ _ _ _ _ _ _ _ (issues _ _ ?_) (ok ?_) (ok ?_) (som ?_) (ok ?_) (ifF ?_ ⟨rfl, rfl⟩) ?_ ?_ <;> decide +kernel
theorem witness_RecordCommandIssue_2 : ¬ (∀ (h : Head) (o : MzClrOp) (s : State) z s1, Issues h s → accOperand o.z (started h s) = .ok (z, s1) → s1.here.takes 5 false = true → False) := fun H =>
  by refine H {} ⟨rZ 7, false⟩ (tState .m []) _ _ (issues _ _ ?_) (ok ?_) ?_ <;> decide +kernel

theorem witness_MessageResult_0 : ¬ (∀ (h : Head) (o : MSendOp) (s : State) dst src p d s1 s2 s3 s4, Issues h s → readS o.dst (started h s) = .ok (dst, s1) → readS o.src s1 = .ok (src, s2) → checkLocalRead src.toInt o.len.toNat s2 = .ok (p, s3) → src.toNat % 8 = 0 → rangeStalls s3.here false p o.len.toNat = false → guardOrder h .l noOrder s3 = .ok ((), s3) → reserveDest o.d s3.here.nextId s3 = .ok (d, s4) → tagRoom s4.here s4.cur.2 0 = true → False) := fun H =>
  by refine H {} ⟨rS 4, zero, rS 1, 248⟩ (tLocal 0x11010 8 4 (tState .a [(1, 0x100), (2, 8)])) _ _ _ _ _ _ _ _ (issues _ _ ?_) (ok ?_) (ok ?_) (ok ?_) ?_ ?_ (mayGo ?_) (ok ?_) ?_ <;> decide +kernel
theorem witness_MessageResult_1 : ¬ (∀ (h : Head) (o : RGetOp) (s : State) r s1 t, Issues h s → myRing o.ring (started h s) = .ok (r, s1) → guardOrder h .l noOrder s1 = .ok ((), s1) → writeS o.d (if ringHead s1.here r = ringTail s1.here r then BitVec.allOnes 64 else BitVec.ofNat 64 (ringEntryAt s1.here r (ringHead s1.here r))) s1 = .ok ((), t) → False) := fun H =>
  by refine H {} ⟨rS 4, 2⟩ (tLocal 0x11010 8 4 (tState .a [(1, 0x100), (2, 8)])) _ _ _ (issues _ _ ?_) (ok ?_) (mayGo ?_) (okU ?_) <;> decide +kernel
theorem witness_MessageResult_2 : ¬ (∀ (h : Head) (o : RGetOp) (s : State) r s1 t, Issues h s → myRing o.ring (started h s) = .ok (r, s1) → guardOrder h .l noOrder s1 = .ok ((), s1) → ringHead s1.here r = ringTail s1.here r → writeS o.d (BitVec.allOnes 64) s1 = .ok ((), t) → False) := fun H =>
  by refine H {} ⟨rS 4, 2⟩ (tLocal 0x11010 8 4 (tState .a [(1, 0x100), (2, 8)])) _ _ _ (issues _ _ ?_) (ok ?_) (mayGo ?_) ?_ (okU ?_) <;> decide +kernel
theorem witness_MessageResult_3 : ¬ (∀ (h : Head) (o : RGetOp) (s : State) r s1 t, Issues h s → myRing o.ring (started h s) = .ok (r, s1) → guardOrder h .l noOrder s1 = .ok ((), s1) → ringHead s1.here r ≠ ringTail s1.here r → writeS o.d (BitVec.ofNat 64 (ringHead s1.here r + 1)) (s1.updCore s1.cur.1 (lsPut (r.off + 8) 8 (ringHead s1.here r + 1))) = .ok ((), t) → False) := fun H =>
  by refine H {} ⟨rS 4, 2⟩ (tLocal 0x11000 8 1 (tLocal 0x11010 8 4 (tState .a [(1, 0x100), (2, 8)]))) _ _ _ (issues _ _ ?_) (ok ?_) (mayGo ?_) ?_ (okU ?_) <;> decide +kernel
theorem witness_MessageResult_4 : ¬ (∀ (h : Head) (o : RWaitOp) (s : State) r n s1 s2 t, Issues h s → myRing o.ring (started h s) = .ok (r, s1) → readS o.cnt s1 = .ok (n, s2) → guardOrder h .l noOrder s2 = .ok ((), s2) → min n.toNat (ringEntries s2.here r) ≤ ringTail s2.here r - ringHead s2.here r → writeS o.d (BitVec.ofNat 64 (ringTail s2.here r - ringHead s2.here r)) s2 = .ok ((), t) → False) := fun H =>
  by refine H {} ⟨rS 4, 2, rS 2⟩ (tLocal 0x11000 8 4 (tLocal 0x11010 8 4 (tState .a [(1, 0x100), (2, 8)]))) _ _ _ _ _ (issues _ _ ?_) (ok ?_) (ok ?_) (mayGo ?_) ?_ (okU ?_) <;> decide +kernel
theorem witness_MessageResult_5 : ¬ (∀ (h : Head) (o : MTermOp) (s : State) t, Issues h s → ((started h s).here.e[(5 : Fin 6)].halted || (started h s).here.e[(5 : Fin 6)].ops.all (·.held)) = true → writeS o.d (readTerm o.sel (started h s).here) (started h s) = .ok ((), t) → False) := fun H =>
  by refine H {} ⟨rS 4, .trmis, true⟩ (tState .m []) _ (issues _ _ ?_) ?_ (okU ?_) <;> decide +kernel

theorem witness_FabricIssue_0 : ¬ (∀ (h : Head) (o : FwrOp) (s : State) n a l hd p s1 s2 s3 s4 s5, Issues h s → readS o.len (started h s) = .ok (n, s1) → readS o.ad.fa s1 = .ok (a, s2) → readS o.src s2 = .ok (l, s3) → getHandle o.ad.hdl s3 = .ok (hd, s4) → hd.space = .peer → o.o.ssc.p = true → 8 ≤ n.toNat → n.toNat ≤ 65536 → n.toNat % 8 = 0 → l.toNat % 8 = 0 → 0 ≤ a.toInt + o.ad.off.toInt → a.toInt + o.ad.off.toInt + n.toNat ≤ hd.bound → checkLocalRead l.toInt n.toNat s4 = .ok (p, s5) → (hd.base + (a.toInt + o.ad.off.toInt)) % 8 = 0 → s5.here.takes 4 true = true → False) := fun H =>
  by refine H {} ⟨rS 2, rS 1, ⟨zero, 3, 0⟩, ordG, none⟩ (tState .a [(1, 0x100), (2, 8)]) _ _ _ _ _ _ _ _ _ _ (issues _ _ ?_) (ok ?_) (ok ?_) (ok ?_) (ok ?_) ?_ ?_ ?_ ?_ ?_ ?_ ?_ ?_ (ok ?_) ?_ ?_ <;> decide +kernel
theorem witness_FabricIssue_1 : ¬ (∀ (h : Head) (o : FatomOp) (s : State) a hd b x d s1 s2 s3 s4 s5, Issues h s → readS o.ad.fa (started h s) = .ok (a, s1) → getHandle o.ad.hdl s1 = .ok (hd, s2) → hd.space = .peer → o.o.ssc.p = true → 0 ≤ a.toInt + o.ad.off.toInt → a.toInt + o.ad.off.toInt + o.ty.bytes ≤ hd.bound → (hd.base + (a.toInt + o.ad.off.toInt)) % o.ty.bytes = 0 → readS o.b s2 = .ok (b, s3) → (match o.op, o.d with | .cas, some r => readS r s3 = .ok (x, s4) | _, _ => x = 0 ∧ s4 = s3) → (match o.d with | some r => reserveDest r s4.here.nextId s4 = .ok (d, s5) | none => d = .none ∧ s5 = s4) → s5.here.takes 4 false = true → False) := fun H =>
  by refine H {} ⟨.n64, .add, some (rS 4), rS 2, ⟨zero, 3, 8⟩, ordG⟩ (tState .a [(1, 0x100), (2, 8)]) _ _ _ _ _ _ _ _ _ _ (issues _ _ ?_) (ok ?_) (ok ?_) ?_ ?_ ?_ ?_ ?_ (ok ?_) ⟨rfl, rfl⟩ (ok ?_) ?_ <;> decide +kernel
theorem witness_FabricIssue_2 : ¬ (∀ (h : Head) (o : FreqOp) (s : State) dst src p d s1 s2 s3 s4, Issues h s → readS o.dst (started h s) = .ok (dst, s1) → readS o.src s1 = .ok (src, s2) → checkLocalRead src.toInt o.len.toNat s2 = .ok (p, s3) → src.toNat % 8 = 0 → rangeStalls s3.here false p o.len.toNat = false → guardOrder h .l noOrder s3 = .ok ((), s3) → reserveDest o.d s3.here.nextId s3 = .ok (d, s4) → s4.here.takes 4 false = true → False) := fun H =>
  by refine H {} ⟨rS 4, zero, rS 1, 248, none, some 1⟩ (tState .a [(1, 0x100), (2, 8)]) _ _ _ _ _ _ _ _ (issues _ _ ?_) (ok ?_) (ok ?_) (ok ?_) ?_ ?_ (mayGo ?_) (ok ?_) ?_ <;> decide +kernel

theorem witness_LandingIssue_0 : ¬ (∀ (h : Head) (o : LzOfferOp) (s : State) j b n s1 s2, Issues h s → namedSlot o.zone o.j (started h s) = .ok ((j, b), s1) → readS o.b s1 = .ok (n, s2) → guardOrder h .l noOrder s2 = .ok ((), s2) → slotSst b = sstFree → 64 ≤ n.toNat → n.toNat ≤ 32768 → n.toNat % 64 = 0 → False) := fun H =>
  by refine H {} ⟨3, rS 3, rS 2⟩ (tLocal 0x12040 64 (tSlotRec 0) (tState .a [(1, 0x100), (2, 64), (3, 0)])) _ _ _ _ _ (issues _ _ ?_) (ok2 ?_) (ok ?_) (mayGo ?_) ?_ ?_ ?_ ?_ <;> decide +kernel
theorem witness_LandingIssue_1 : ¬ (∀ (h : Head) (o : LzGrantOp) (s : State) cookie j b w d s1 s2 s3 s5, Issues h s → readS o.d (started h s) = .ok (cookie, s1) → namedSlot o.zone o.j s1 = .ok ((j, b), s2) → readS o.w s2 = .ok (w, s3) → guardOrder h .l noOrder s3 = .ok ((), s3) → slotSst b = sstOffered → badTarget w = false → let rsv := s3.here.lzseq + 1; let t := w.toNat; let b' := putField (putField (putField (putField (putSst b sstReserved) 272 16 rsv.toNat) 288 16 (bitsOf t 0 16)) 304 16 (if BitVec.ofNat 16 (bitsOf t 0 16) = s3.device then 0 else bitsOf t 32 16)) 320 9 (bitsOf t 16 9); let s4 := s3.updCore s3.cur.1 fun k => { k with lzseq := rsv }.putSlotRec o.zone.toFin j b'; reserveDest o.d s4.here.nextId s4 = .ok (d, s5) → tagRoom s5.here s5.cur.2 0 = true → False) := fun H =>
  by refine H {} ⟨rS 4, 3, rS 3, zero, none⟩ (tLocal 0x12040 64 (tSlotRec 1) (tState .a [(1, 0x100), (2, 64), (3, 0)])) _ _ _ _ _ _ _ _ _ (issues _ _ ?_) (ok ?_) (ok2 ?_) (ok ?_) (mayGo ?_) ?_ ?_ (ok ?_) ?_ <;> decide +kernel
theorem witness_LandingIssue_2 : ¬ (∀ (h : Head) (o : LzGrantOp) (s : State) cookie j b w s1 s2 s3 t, Issues h s → readS o.d (started h s) = .ok (cookie, s1) → namedSlot o.zone o.j s1 = .ok ((j, b), s2) → readS o.w s2 = .ok (w, s3) → guardOrder h .l noOrder s3 = .ok ((), s3) → slotSst b = sstOffered → badTarget w = true → writeS o.d 2 s3 = .ok ((), t) → False) := fun H =>
  by refine H {} ⟨rS 4, 3, rS 3, ⟨.ones, false, false⟩, none⟩ (tLocal 0x12040 64 (tSlotRec 1) (tState .a [(1, 0x100), (2, 64), (3, 0)])) _ _ _ _ _ _ _ _ (issues _ _ ?_) (ok ?_) (ok2 ?_) (ok ?_) (mayGo ?_) ?_ ?_ (okU ?_) <;> decide +kernel
theorem witness_LandingIssue_3 : ¬ (∀ (h : Head) (o : LzPutOp) (s : State) g src p off d s1 s2 s3 s4 s5, Issues h s → readS o.g (started h s) = .ok (g, s1) → readS o.src s1 = .ok (src, s2) → o.o.ssc.p = true → checkLocalRead (g.toInt + o.off.toInt) 32 s2 = .ok (p, s3) → rangeStalls s3.here false p 32 = false → guardOrder h .l noOrder s3 = .ok ((), s3) → grantOk (leNat (lsRead s3.here p 32)) src = true → checkLocalRead src.toInt (bitsOf (leNat (lsRead s3.here p 32)) 96 32) s3 = .ok (off, s4) → reserveDest o.d s4.here.nextId s4 = .ok (d, s5) → s5.here.takes 4 true = true → False) := fun H =>
  by refine H {} ⟨rS 4, rS 1, 0, zero, ⟨.fabric, { p := true }, .rlx⟩, none⟩ (tLocal 0x100 32 (1 + 2 ^ 96 * 32768) (tState .a [(1, 0x100)])) _ _ _ _ _ _ _ _ _ _ (issues _ _ ?_) (ok ?_) (ok ?_) ?_ (ok ?_) ?_ (mayGo ?_) ?_ (ok ?_) (ok ?_) ?_ <;> decide +kernel
theorem witness_LandingIssue_4 : ¬ (∀ (h : Head) (o : LzAdoptOp) (s : State) x s1 victims idx hand, Issues h s → adoption o (s.here.slot .a).entry (started h s) = .ok (x, s1) → (s1.core s.cur.1).tagged x.tens x.c = none → (s1.core s.cur.1).plan (s1.poolGranules (s1.core s.cur.1)) 0 (Config.draw s1.freeCtr) (tagSet x.tens x.c) (s1.core s.cur.1).adopting.isSome = .place victims idx hand → victims.any (·.dirty) = false → False) := fun H =>
  by refine H {} ⟨5, zero, zero, 3, zero⟩ (tLocal 0x12040 64 (tSlotRec 4) (tState .a [(1, 0x100), (2, 64), (3, 0)])) _ _ _ _ _ (issues _ _ ?_) (ok ?_) ?_ (placed ?_) ?_ <;> decide +kernel
theorem witness_LandingIssue_5 : ¬ (∀ (h : Head) (o : LzFreeOp) (s : State) j b s1, Issues h s → namedSlot o.zone o.j (started h s) = .ok ((j, b), s1) → guardOrder h .l noOrder s1 = .ok ((), s1) → slotSst b ≠ sstFree → slotSst b ≠ sstAdopted → False) := fun H =>
  by refine H {} ⟨3, rS 3⟩ (tLocal 0x12040 64 (tSlotRec 6) (tState .a [(1, 0x100), (2, 64), (3, 0)])) _ _ _ (issues _ _ ?_) (ok2 ?_) (mayGo ?_) ?_ ?_ <;> decide +kernel
theorem witness_LandingIssue_6 : ¬ (∀ (h : Head) (o : LzStatOp) (s : State) j b s1 t, Issues h s → o.ssc.l = true → namedSlot o.zone o.j (started h s) = .ok ((j, b), s1) → guardOrder h .l ⟨.group, o.ssc, if o.acq then .acq else .rlx⟩ s1 = .ok ((), s1) → writeS o.d (BitVec.ofNat 64 (packFields [(3, slotSst b), (5, 0), (8, slotCause b), (16, slotRsv b), (16, barCount b), (16, barTarget b)])) s1 = .ok ((), t) → False) := fun H =>
  by refine H {} ⟨rS 4, 3, rS 3, { l := true }, true⟩ (tLocal 0x12040 64 (tSlotRec 5) (tState .a [(1, 0x100), (2, 64), (3, 0)])) _ _ _ _ (issues _ _ ?_) ?_ (ok2 ?_) (mayGo ?_) (okU ?_) <;> decide +kernel

theorem witness_BarrierPagingLaunchIssue_0 : ¬ (∀ (h : Head) (o : BarInitOp) (s : State) hd va b d s1 s2 s3, Issues h s → handleAddr o.ad o.o.ssc 64 64 false (started h s) = .ok ((hd, va), s1) → readS o.t s1 = .ok (b, s2) → reserveDest o.d s2.here.nextId s2 = .ok (d, s3) → tagRoom s3.here s3.cur.2 1 = true → False) := fun H =>
  by refine H {} ⟨rS 4, rS 2, .count, true, ⟨rS 1, 1, 0⟩, ordG⟩ (tState .a [(1, 0x100), (2, 3), (3, 0)]) _ _ _ _ _ _ _ (issues _ _ ?_) (ok2 ?_) (ok ?_) (ok ?_) ?_ <;> decide +kernel
theorem witness_BarrierPagingLaunchIssue_posted : ¬ (∀ (h : Head) (o : BarArvOp) (s : State) hd va w d s1 s2 s3, Issues h s → (s.here.slot s.cur.2).failed = false → handleAddr o.ad o.o.ssc 64 64 false (started h s) = .ok ((hd, va), s1) → readS o.w s1 = .ok (w, s2) → 1 ≤ w.toNat → w.toNat ≤ 65535 → (match o.d with | some r => reserveDest r s2.here.nextId s2 = .ok (d, s3) | none => d = .none ∧ s3 = s2) → tagRoom s3.here s3.cur.2 1 = true → False) := fun H =>
  by refine H {} ⟨none, rS 2, true, false, ⟨rS 1, 1, 0⟩, ordG⟩ (tState .a [(1, 0x100), (2, 65535)]) _ _ _ _ _ _ _ (issues _ _ ?_) ?_ (ok2 ?_) (ok ?_) ?_ ?_ ⟨rfl, rfl⟩ ?_ <;> decide +kernel
theorem witness_BarrierPagingLaunchIssue_result : ¬ (∀ (h : Head) (o : BarArvOp) (s : State) hd va w d s1 s2 s3, Issues h s → (s.here.slot s.cur.2).failed = false → handleAddr o.ad o.o.ssc 64 64 false (started h s) = .ok ((hd, va), s1) → readS o.w s1 = .ok (w, s2) → 1 ≤ w.toNat → w.toNat ≤ 65535 → (match o.d with | some r => reserveDest r s2.here.nextId s2 = .ok (d, s3) | none => d = .none ∧ s3 = s2) → tagRoom s3.here s3.cur.2 1 = true → False) := fun H =>
  by refine H {} ⟨some (rS 4), one, true, false, ⟨rS 1, 1, 0⟩, ordG⟩ (tState .a [(1, 0x100), (2, 3), (3, 0)]) _ _ _ _ _ _ _ (issues _ _ ?_) ?_ (ok2 ?_) (ok ?_) ?_ ?_ (ok ?_) ?_ <;> decide +kernel
theorem witness_BarrierPagingLaunchIssue_2 : ¬ (∀ (h : Head) (o : BarWaitOp) (s : State) off ph s1 s2 t, Issues h s → o.loc = true → localAddr o.ad o.o.ssc 64 64 false (started h s) = .ok (off, s1) → readS o.ph s1 = .ok (ph, s2) → guardOrder h .l o.o s2 = .ok ((), s2) → let b : Rec64 := BitVec.ofNat 512 (lsNat s2.here off 64); barMet b (ph.getLsbD 0) = true → writeS o.d (barWord b false) s2 = .ok ((), t) → False) := fun H =>
  by refine H {} ⟨rS 4, zero, true, ⟨rS 1, 0, 0⟩, ordL⟩ (tState .a [(1, 0x100), (2, 3), (3, 0)]) _ _ _ _ _ (issues _ _ ?_) ?_ (ok ?_) (ok ?_) (mayGo ?_) ?_ (okU ?_) <;> decide +kernel
theorem witness_BarrierPagingLaunchIssue_3 : ¬ (∀ (h : Head) (o : BarWaitOp) (s : State) hd va ph s1 s2 v l w hz vz pz u1 u2 t, Issues h s → o.loc = false → handleAddr o.ad o.o.ssc 64 64 true (started h s) = .ok ((hd, va), s1) → readS o.ph s1 = .ok (ph, s2) → guardOrder h .g o.o s2 = .ok ((), s2) → (s.here.slot s.cur.2).failed = false → s.readVa s.cur.1 (s.here.ctxId.getD 0) { viaHandle hd false with acq := true } va.toNat 64 = (v, .ok l) → let b : Rec64 := BitVec.ofNat 512 (leNat l); barMet b (ph.getLsbD 0) = true → w = v.updCore s.cur.1 (startIssue h s.cur.2) → handleAddr o.ad o.o.ssc 64 64 true w = .ok ((hz, vz), u1) → readS o.ph u1 = .ok (pz, u2) → guardOrder h .g o.o u2 = .ok ((), u2) → writeS o.d (barWord b false) u2 = .ok ((), t) → False) := fun H =>
  by refine H {} ⟨rS 4, zero, false, ⟨zero, 1, 0⟩, ordG⟩ (tState .a [(1, 0x100), (2, 3), (3, 0)]) _ _ _ _ _ _ _ _ _ _ _ _ _ _ (issues _ _ ?_) ?_ (ok2 ?_) (ok ?_) (mayGo ?_) ?_ (okR ?_) ?_ rfl (ok2 ?_) (ok ?_) (mayGo ?_) (okU ?_) <;> decide +kernel
theorem witness_BarrierPagingLaunchIssue_4 : ¬ (∀ (h : Head) (o : BarTstOp) (s : State) off d s1 s2, Issues h s → o.loc = true → localAddr o.ad o.o.ssc 64 64 false (started h s) = .ok (off, s1) → reserveDest o.d s1.here.nextId s1 = .ok (d, s2) → tagRoom s2.here s2.cur.2 0 = true → False) := fun H =>
  by refine H {} ⟨rS 4, true, ⟨rS 1, 0, 0⟩, ordL⟩ (tState .a [(1, 0x100), (2, 3), (3, 0)]) _ _ _ _ (issues _ _ ?_) ?_ (ok ?_) (ok ?_) ?_ <;> decide +kernel
theorem witness_BarrierPagingLaunchIssue_5 : ¬ (∀ (h : Head) (o : BarTstOp) (s : State) hd va d s1 s2, Issues h s → o.loc = false → handleAddr o.ad o.o.ssc 64 64 true (started h s) = .ok ((hd, va), s1) → reserveDest o.d s1.here.nextId s1 = .ok (d, s2) → tagRoom s2.here s2.cur.2 1 = true → False) := fun H =>
  by refine H {} ⟨rS 4, false, ⟨rS 1, 1, 0⟩, ordG⟩ (tState .a [(1, 0x100), (2, 3), (3, 0)]) _ _ _ _ _ (issues _ _ ?_) ?_ (ok2 ?_) (ok ?_) ?_ <;> decide +kernel
theorem witness_BarrierPagingLaunchIssue_6 : ¬ (∀ (h : Head) (o : PgpfOp) (s : State) hd va d s1 s2, Issues h s → handleAddr o.ad o.o.ssc 1 1 false (started h s) = .ok ((hd, va), s1) → (hd.space = .far → s1.farPorts ≠ 0) → reserveDest o.d s1.here.nextId s1 = .ok (d, s2) → tagRoom s2.here s2.cur.2 0 = true → False) := fun H =>
  by refine H {} ⟨rS 4, ⟨rS 1, 1, 0⟩, ordG⟩ (tState .a [(1, 0x100), (2, 3), (3, 0)]) _ _ _ _ _ (issues _ _ ?_) (ok2 ?_) ?_ (ok ?_) ?_ <;> decide +kernel
theorem witness_BarrierPagingLaunchIssue_7 : ¬ (∀ (h : Head) (o : PginOp) (s : State) hd va b near d s1 s2 s3 s4, Issues h s → handleAddr o.ad o.o.ssc 1 1 false (started h s) = .ok ((hd, va), s1) → (hd.space = .far → s1.farPorts ≠ 0) → readS o.n s1 = .ok (b, s2) → nearAddr b s2 = .ok (near, s3) → reserveDest o.d s3.here.nextId s3 = .ok (d, s4) → tagRoom s4.here s4.cur.2 0 = true → False) := fun H =>
  by refine H {} ⟨rS 4, one, ⟨rS 1, 1, 0⟩, ordG⟩ (tState .a [(1, 0x100), (2, 3), (3, 0)]) _ _ _ _ _ _ _ _ _ (issues _ _ ?_) (ok2 ?_) ?_ (ok ?_) (ok ?_) (ok ?_) ?_ <;> decide +kernel
theorem witness_BarrierPagingLaunchIssue_8 : ¬ (∀ (h : Head) (o : LaunchOp) (s : State) args hd va q g d s1 s2 s3 s4, Issues h s → readS o.d (started h s) = .ok (args, s1) → handleAddr o.ad anySsc 64 1 false s1 = .ok ((hd, va), s2) → readS o.q s2 = .ok (q, s3) → s3.here.grp = some g → reserveDest o.d s3.here.nextId s3 = .ok (d, s4) → tagRoom s4.here s4.cur.2 0 = true → False) := fun H =>
  by refine H {} ⟨rS 4, zero, ⟨rS 1, 1, 0⟩, true, 0, ordG⟩ (tState .a [(1, 0x100), (2, 3), (3, 0)]) _ _ _ _ _ _ _ _ _ _ (issues _ _ ?_) (ok ?_) (ok2 ?_) (ok ?_) (som ?_) (ok ?_) ?_ <;> decide +kernel
theorem witness_BarrierPagingLaunchIssue_9 : ¬ (∀ (h : Head) (o : QEntryOp) (s : State) a q p d s1 s2 s3 s4, Issues h s → readS o.fa (started h s) = .ok (a, s1) → readS o.q s1 = .ok (q, s2) → checkLocalRead (a.toInt + o.off.toInt) 64 s2 = .ok (p, s3) → (a.toInt + o.off.toInt) % 64 = 0 → rangeStalls s3.here false p 64 = false → guardOrder h .l noOrder s3 = .ok ((), s3) → reserveDest o.d s3.here.nextId s3 = .ok (d, s4) → tagRoom s4.here s4.cur.2 0 = true → False) := fun H =>
  by refine H {} ⟨rS 4, zero, rS 1, 0, ordL⟩ (tState .a [(1, 0x100), (2, 3), (3, 0)]) _ _ _ _ _ _ _ _ (issues _ _ ?_) (ok ?_) (ok ?_) (ok ?_) ?_ ?_ (mayGo ?_) (ok ?_) ?_ <;> decide +kernel

theorem witness_VectorArithmeticResult_0 : ∃ o : VBin, VecMet {} false 32 false o.d [.reg o.a, o.b] :=
  ⟨⟨.f32, .rne, false, rV 30, rV 8, .reg (rV 9)⟩, vecMet (tState .v [(1, 0x100), (2, 3), (3, 0)]) (issues _ _ (by decide +kernel)) (by decide +kernel) (by decide +kernel) (som (by decide +kernel)) (by decide +kernel)⟩
theorem witness_VectorArithmeticResult_1 : ∃ o : VTern, VecMet {} false 32 false o.d [.reg o.a, .reg o.b, .reg o.c] :=
  ⟨⟨.f32, .rne, rV 30, rV 8, rV 9, rV 10⟩, vecMet (tState .v [(1, 0x100), (2, 3), (3, 0)]) (issues _ _ (by decide +kernel)) (by decide +kernel) (by decide +kernel) (som (by decide +kernel)) (by decide +kernel)⟩
theorem witness_VectorArithmeticResult_2 : ∃ o : VUn, VecMet {} false 32 false o.d [.reg o.a] :=
  ⟨⟨.f32, .rne, false, rV 30, rV 8⟩, vecMet (tState .v [(1, 0x100), (2, 3), (3, 0)]) (issues _ _ (by decide +kernel)) (by decide +kernel) (by decide +kernel) (som (by decide +kernel)) (by decide +kernel)⟩

theorem witness_VectorBitsResult_0 : ∃ o : VBin, VecMet {} false 32 false o.d [.reg o.a, o.b] :=
  ⟨⟨.n32, .rne, false, rV 30, rV 8, .imm 3⟩, vecMet (tState .v [(1, 0x100), (2, 3), (3, 0)]) (issues _ _ (by decide +kernel)) (by decide +kernel) (by decide +kernel) (som (by decide +kernel)) (by decide +kernel)⟩
theorem witness_VectorBitsResult_1 : ∃ o : VUn, VecMet {} false 32 false o.d [.reg o.a] :=
  ⟨⟨.f32, .rne, false, rV 30, rV 8⟩, vecMet (tState .v [(1, 0x100), (2, 3), (3, 0)]) (issues _ _ (by decide +kernel)) (by decide +kernel) (by decide +kernel) (som (by decide +kernel)) (by decide +kernel)⟩
theorem witness_VectorBitsResult_2 : ∃ o : VCmpOp, VecMet {} false 32 false o.d [.reg o.a, o.b] :=
  ⟨⟨.f32, .lt, rV 30, rV 8, .reg (rV 9)⟩, vecMet (tState .v [(1, 0x100), (2, 3), (3, 0)]) (issues _ _ (by decide +kernel)) (by decide +kernel) (by decide +kernel) (som (by decide +kernel)) (by decide +kernel)⟩
theorem witness_VectorBitsResult_3 : ∃ o : VSelOp, VecMet {} false 32 false o.d [.reg o.a, .reg o.b, .reg o.sel] :=
  ⟨⟨rV 30, rV 8, rV 9, rV 10⟩, vecMet (tState .v [(1, 0x100), (2, 3), (3, 0)]) (issues _ _ (by decide +kernel)) (by decide +kernel) (by decide +kernel) (som (by decide +kernel)) (by decide +kernel)⟩

theorem witness_MaskStackResult_0 : ¬ (∀ (h : Head) (o : MPushOp) (s : State) x gs s1 s2, Issues h s → vguard h true 32 (started h s) = .ok (x, s1) → s1.here.masks.length < 32 → gather 1 (groupNames 1 o.a ++ groupNames 1 o.b) [.reg o.a, .reg o.b] s1 = .ok (gs, s2) → False) := fun H =>
  by refine H {} ⟨.f32, .lt, rV 8, rV 9⟩ (tState .v [(1, 1023), (2, 3)]) _ _ _ _ (issues _ _ ?_) (ok ?_) ?_ (ok ?_) <;> decide +kernel
theorem witness_MaskStackResult_1 : ¬ (∀ (h : Head) (s : State) t r, Issues h s → s.here.masks = t :: r → False) := fun H =>
  by refine H {} ((tState .v [(1, 1023), (2, 3)]).updCore ⟨0, 0⟩ fun k => { k with masks := [0, 5] }) 0 [5] (issues _ _ ?_) ?_ <;> decide +kernel
theorem witness_MaskStackResult_2 : ¬ (∀ (h : Head) (s : State) t r, Issues h s → s.here.masks = t :: r → False) := fun H =>
  by refine H {} ((tState .v [(1, 1023), (2, 3)]).updCore ⟨0, 0⟩ fun k => { k with masks := [0, 5] }) 0 [5] (issues _ _ ?_) ?_ <;> decide +kernel
theorem witness_MaskStackResult_3 : ¬ (∀ (h : Head) (s : State), Issues h s → False) := fun H =>
  H {} ((tState .v [(1, 1023), (2, 3)]).updCore ⟨0, 0⟩ fun k => { k with masks := [0, 5] }) (issues _ _ (by decide +kernel))
theorem witness_MaskStackResult_4 : ¬ (∀ (h : Head) (o : KSetOp) (s : State) a (n : Fin 16) s1, Issues h s → readS o.src (started h s) = .ok (a, s1) → o.k.name = .k n → False) := fun H =>
  by refine H {} ⟨rK 15, rS 2, 0, .w32, 6⟩ (tState .v [(1, 1023), (2, 3)]) _ _ _ (issues _ _ ?_) (ok ?_) rfl <;> decide +kernel
theorem witness_MaskStackResult_5 : ¬ (∀ (h : Head) (o : KGetOp) (s : State) n t, Issues h s → o.k.name = .k n → let p := (started h s).here.kreg n; writeS o.d (BitVec.ofNat 64 (p.count.toNat + KWidth.code p.width * 2 ^ 16 + p.len.toNat * 2 ^ 19)) (started h s) = .ok ((), t) → False) := fun H =>
  by refine H {} ⟨rQ 24, rK 0⟩ (tState .v [(1, 1023), (2, 3)]) _ _ (issues _ _ ?_) rfl (okU ?_) <;> decide +kernel
theorem witness_MaskStackResult_6 : ¬ (∀ (h : Head) (o : VExtOp) (s : State) x gs s1 s2 s3 t, Issues h s → vguard h true 32 (started h s) = .ok (x, s1) → guardGroup x.len o.a s1 = .ok ((), s2) → gather x.len (groupNames x.len o.a) [.reg o.a, .reg o.idx] s2 = .ok (gs, s3) → let i := (scalarOf (gs.getD 1 (.pat 0))).toNat; let c := (gs.getD 0 (.pat 0)).at none 0 i; writeS o.d (if 1024 ≤ i ∨ x.active 32 1024 0 i = false then 0 else if o.sx then c.signExtend 64 else c.setWidth 64) s3 = .ok ((), t) → False) := fun H =>
  by refine H {} ⟨rQ 24, rV 8, rS 1, true⟩ (tState .v [(1, 1023), (2, 3)]) _ _ _ _ _ _ (issues _ _ ?_) (ok ?_) (okU ?_) (ok ?_) (okU ?_) <;> decide +kernel

theorem witness_VectorMoveResult_0 : ∃ o : VMovOp, o.view = .cont ∧ VecMet {} false 32 false o.d [.reg o.a] :=
  ⟨⟨rV 30, rV 8, .cont⟩, rfl, vecMet (tState .v [(1, 0x100), (2, 3), (3, 0)]) (issues _ _ (by decide +kernel)) (by decide +kernel) (by decide +kernel) (som (by decide +kernel)) (by decide +kernel)⟩
theorem witness_VectorMoveResult_1 : ∃ o : VMovOp, o.view ≠ .cont ∧ VecMet {} false 6 true o.d [.reg o.a] :=
  ⟨⟨rV 30, rV 8, .w6⟩, by decide, vecMet (tState .v [(1, 0x100), (2, 3), (3, 0)]) (issues _ _ (by decide +kernel)) (by decide +kernel) (by decide +kernel) (som (by decide +kernel)) (by decide +kernel)⟩
theorem witness_VectorMoveResult_2 : ∃ o : VInsOp, VecMet {} true 32 false o.d [.reg o.a, .reg o.idx, .reg o.val] :=
  ⟨⟨rV 30, rV 8, rS 1, rS 2⟩, vecMet (tState .v [(1, 0x100), (2, 3), (3, 0)]) (issues _ _ (by decide +kernel)) (by decide +kernel) (by decide +kernel) (som (by decide +kernel)) (by decide +kernel)⟩
theorem witness_VectorMoveResult_3 : ∃ o : VPackOp, VecMet {} true 32 true o.d [.reg o.a] :=
  ⟨⟨rV 30, rV 8, 7⟩, vecMet (tState .v [(1, 0x100), (2, 3), (3, 0)]) (issues _ _ (by decide +kernel)) (by decide +kernel) (by decide +kernel) (som (by decide +kernel)) (by decide +kernel)⟩
theorem witness_VectorMoveResult_4 : ∃ o : VUnpackOp, VecMet {} true 32 false o.d [.reg o.a] :=
  ⟨⟨rV 30, rV 8, 7, true⟩, vecMet (tState .v [(1, 0x100), (2, 3), (3, 0)]) (issues _ _ (by decide +kernel)) (by decide +kernel) (by decide +kernel) (som (by decide +kernel)) (by decide +kernel)⟩
theorem witness_VectorMoveResult_5 : ∃ o : VRotOp, VecMet {} false 32 false o.d [.reg o.a, o.s] :=
  ⟨⟨rV 30, rV 8, .reg (rS 2)⟩, vecMet (tState .v [(1, 0x100), (2, 3), (3, 0)]) (issues _ _ (by decide +kernel)) (by decide +kernel) (by decide +kernel) (som (by decide +kernel)) (by decide +kernel)⟩
theorem witness_VectorMoveResult_6 : ∃ o : VRedOp, VecMet {} false 32 false o.d [.reg o.a] :=
  ⟨⟨.f32, .rne, .add, false, rV 30, rV 8⟩, vecMet (tState .v [(1, 0x100), (2, 3), (3, 0)]) (issues _ _ (by decide +kernel)) (by decide +kernel) (by decide +kernel) (som (by decide +kernel)) (by decide +kernel)⟩
theorem witness_VectorMoveResult_7 : ∃ o : VTrnOp, VecMet {} false 32 false o.d [.reg o.a] :=
  ⟨⟨rV 30, rV 8⟩, vecMet (tState .v [(1, 0x100), (2, 3), (3, 0)]) (issues _ _ (by decide +kernel)) (by decide +kernel) (by decide +kernel) (som (by decide +kernel)) (by decide +kernel)⟩

theorem witness_VectorConvertResult_0 : ∃ o : VCvtOp, o.src.isWide = false ∧ o.ty.isWide = false ∧ VecMet {} false 32 false o.d [.reg o.a] :=
  ⟨⟨.f32, .bf16, false, .rne, rV 30, rV 8⟩, rfl, rfl, vecMet (tState .v [(1, 0x100), (2, 3), (3, 0)]) (issues _ _ (by decide +kernel)) (by decide +kernel) (by decide +kernel) (som (by decide +kernel)) (by decide +kernel)⟩
theorem witness_VectorConvertResult_1 : ∃ o : VCvtOp, o.src.isWide = true ∧ o.ty.isWide = true ∧ VecMet {} true 32 false o.d [.reg o.a] :=
  ⟨⟨.n64, .i64, false, .rne, rV 30, rV 8⟩, rfl, rfl, vecMet (tState .v [(1, 0x100), (2, 3), (3, 0)]) (issues _ _ (by decide +kernel)) (by decide +kernel) (by decide +kernel) (som (by decide +kernel)) (by decide +kernel)⟩
theorem witness_VectorConvertResult_2 : ∃ o : VCvtOp, o.src.isWide = false ∧ o.ty.isWide = true ∧ VecMet {} true 32 false o.d [.reg o.a] :=
  ⟨⟨.i64, .f32, false, .rne, rV 30, rV 8⟩, rfl, rfl, vecMet (tState .v [(1, 0x100), (2, 3), (3, 0)]) (issues _ _ (by decide +kernel)) (by decide +kernel) (by decide +kernel) (som (by decide +kernel)) (by decide +kernel)⟩
theorem witness_VectorConvertResult_3 : ∃ o : VCvtOp, o.src.isWide = true ∧ o.ty.isWide = false ∧ VecMet {} true 32 true o.d [.reg o.a] :=
  ⟨⟨.f32, .i64, false, .rne, rV 30, rV 8⟩, rfl, rfl, vecMet (tState .v [(1, 0x100), (2, 3), (3, 0)]) (issues _ _ (by decide +kernel)) (by decide +kernel) (by decide +kernel) (som (by decide +kernel)) (by decide +kernel)⟩
theorem witness_VectorConvertResult_scale : ∃ o : VQntOp, VecMet {} true 32 true o.d (.reg o.a :: (o.scale.map Src2.reg).toList) :=
  ⟨⟨.q4, .rne, rV 30, rV 8, some (rV 9), 0⟩, vecMet (tState .v [(1, 0x100), (2, 3), (3, 0)]) (issues _ _ (by decide +kernel)) (by decide +kernel) (by decide +kernel) (som (by decide +kernel)) (by decide +kernel)⟩
theorem witness_VectorConvertResult_5 : ¬ (∀ (h : Head) (o : VDeqOp) (s : State) x olds gs s1 s2 s3 s4 s5 t, Issues h s → vguard h true 32 (started h s) = .ok (x, s1) → guardGroup x.len o.d s1 = .ok ((), s2) → guardGroup x.len o.a s2 = .ok ((), s3) → (if x.guards then oldGroup x.len o.d s3 = .ok (olds, s4) else olds = [] ∧ s4 = s3) → let keep := groupNames x.len o.d ++ groupNames x.len o.a; gather x.len keep [.reg o.a] s4 = .ok (gs, s5) → let img := (gs.getD 0 (.pat 0)).bytes 0; let s6 := s5.updCore s5.cur.1 fun k => (List.range 32).foldl (fun k b => if (natRange (32 * b) 32).any (x.active 32 1024 0) then countBlock o.ty (imageScale o.ty img b) k else k) k; putGroup keep o.d [ofElems fun e => if x.active 32 1024 0 e then putVal .f32 .rne (blockVal o.ty (imageScale o.ty img (e / 32)) (bitsOf img (o.ty.width * e) o.ty.width)) else elem (olds.getD 0 0) e] s6 = .ok ((), t) → False) := fun H =>
  by refine H {} ⟨.q6, rV 30, rV 8⟩ (tState .v [(1, 0x100), (2, 3), (3, 0)]) _ _ _ _ _ _ _ _ _ (issues _ _ ?_) (ok ?_) (okU ?_) (okU ?_) (ifF ?_ ⟨rfl, rfl⟩) (ok ?_) (okU (putOne (som ?_) ?_)) <;> decide +kernel
theorem witness_VectorConvertResult_6 : ¬ (∀ (h : Head) (o : VZOp) (s : State) z a r s1 s2 t, Issues h s → accOperand o.a (started h s) = .ok (z, s1) → s1.here.accBusy z = false → s1.here.z[z] = some a → vecRead h true 32 false o.d [] s1 = .ok (r, s2) → putGroup (keepNames r.x.len o.d []) o.d (r.results (elementwise fun _ _ _ e => BitVec.ofNat 32 (bitsOf a.toNat (32 * (1024 * o.part.toNat + e)) 32))) s2 = .ok ((), t) → False) := fun H =>
  by refine H {} ⟨rV 30, rZ 7, 15⟩ ((tState .v [(1, 0x100), (2, 3), (3, 0)]).updCore ⟨0, 0⟩ fun k => { k with z := k.z.set 7 (some 0) }) _ _ _ _ _ _ (issues _ _ ?_) (ok ?_) ?_ (som ?_) (ok ?_) (okU ?_) <;> decide +kernel
theorem witness_VectorConvertResult_7 : ¬ (∀ (h : Head) (o : VZOp) (s : State) z x gs s1 s2 s3, Issues h s → accOperand o.d (started h s) = .ok (z, s1) → s1.here.accBusy z = false → vguard h true 32 s1 = .ok (x, s2) → gather 1 (groupNames 1 o.a) [.reg o.a] s2 = .ok (gs, s3) → False) := fun H =>
  by refine H {} ⟨rZ 7, rV 8, 15⟩ ((tState .v [(1, 0x100), (2, 3), (3, 0)]).updCore ⟨0, 0⟩ fun k => { k with z := k.z.set 7 (some 0) }) _ _ _ _ _ _ (issues _ _ ?_) (ok ?_) ?_ (ok ?_) (ok ?_) <;> decide +kernel

theorem witness_TileTransferResult_0 : ¬ (∀ (h : Head) (o : TileVOp) (s : State) q l r u s1 s2 s3 t, Issues h s → tileLook false h o (started h s) = .ok (q, s1) → ((s1.core s.cur.1).waiter? .v).any (·.failed) = false → trdFinish h o q (freshLine q 0 1024 (s1.core s.cur.1)).data s1 = .ok ((), u) → s1.demand s.cur.1 .v q = (s2, some l) → vecRead h true 32 false o.r [] s2 = .ok (r, s3) → putGroup (keepNames r.x.len o.r []) o.r (r.results fun g _ _ old => ofElems fun e => if segActive (tEnt q.ent) g e then segContainer (tEnt q.ent) l.data o.seg.toNat e else elem old e) s3 = .ok ((), t) → False) := fun H =>
  by refine H {} ⟨rV 30, 5, zero, zero, zero, zero, 0⟩ (tTile .v) _ _ _ _ _ _ _ _ (issues _ _ ?_) (ok ?_) ?_ (okU ?_) (okD ?_) (ok ?_) (okU ?_) <;> decide +kernel
theorem witness_TileTransferResult_1 : ¬ (∀ (h : Head) (o : TileVOp) (s : State) q l x gs u s1 s2 s3 s4, Issues h s → tileLook true h o (started h s) = .ok (q, s1) → ((s1.core s.cur.1).waiter? .v).any (·.failed) = false → twrFinish h o q (freshLine q 0 1024 (s1.core s.cur.1)) s1 = .ok ((), u) → s1.demand s.cur.1 .v q = (s2, some l) → vguard h true 32 s2 = .ok (x, s3) → gather 1 (groupNames 1 o.r) [.reg o.r] s3 = .ok (gs, s4) → False) := fun H =>
  by refine H {} ⟨rV 8, 5, zero, zero, zero, zero, 0⟩ (tTile .v) _ _ _ _ _ _ _ _ _ (issues _ _ ?_) (ok ?_) ?_ (okU ?_) (okD ?_) (ok ?_) (ok ?_) <;> decide +kernel

theorem witness_TileInstructionResult_0 : ¬ (∀ (h : Head) (o : TileOp) (s : State) c e g s1 s2, Issues h s → readCoords o.c0 o.c1 o.c2 o.c3 (started h s) = .ok (c, s1) → formedEntry o.t none s1 = .ok (e, s2) → (tEnt e).coordsOk c = true → s2.here.grp = some g → tagRoom s2.here s2.cur.2 0 = true → False) := fun H =>
  by refine H {} ⟨5, zero, rS 2, zero, zero, false, none, none⟩ (tTile .m) _ _ _ _ _ (issues _ _ ?_) (ok ?_) (ok ?_) ?_ (som ?_) ?_ <;> decide +kernel
theorem witness_TileInstructionResult_1 : ¬ (∀ (h : Head) (o : TpfItinOp) (s : State) off n g p e s1 s2 s3 s4, Issues h s → readS o.off (started h s) = .ok (off, s1) → readS o.n s1 = .ok (n, s2) → s2.here.grp = some g → 1 ≤ n.toNat → n.toNat ≤ 64 → checkLocalRead off.toInt (16 * n.toNat) s2 = .ok (p, s3) → formedEntry o.t none s3 = .ok (e, s4) → rangeStalls s4.here false p (16 * n.toNat) = false → tagRoom s4.here s4.cur.2 0 = true → False) := fun H =>
  by refine H {} ⟨5, rS 1, rS 2, none⟩ (tTile .m) _ _ _ _ _ _ _ _ _ (issues _ _ ?_) (ok ?_) (ok ?_) (som ?_) ?_ ?_ (ok ?_) (ok ?_) ?_ ?_ <;> decide +kernel
theorem witness_TileInstructionResult_2 : ¬ (∀ (h : Head) (o : TileOp) (s : State) c e g s1 s2, Issues h s → readCoords o.c0 o.c1 o.c2 o.c3 (started h s) = .ok (c, s1) → formedEntry o.t none s1 = .ok (e, s2) → (tEnt e).coordsOk c = true → s2.here.tagged o.t c = none → s2.here.grp = some g → tagRoom s2.here s2.cur.2 0 = true → False) := fun H =>
  by refine H {} ⟨5, zero, rS 2, zero, zero, false, none, none⟩ (tTile .m) _ _ _ _ _ (issues _ _ ?_) (ok ?_) (ok ?_) ?_ ?_ (som ?_) ?_ <;> decide +kernel
theorem witness_TileInstructionResult_3 : ¬ (∀ (h : Head) (o : TileOp) (s : State) c e l s1 s2, Issues h s → readCoords o.c0 o.c1 o.c2 o.c3 (started h s) = .ok (c, s1) → formedEntry o.t none s1 = .ok (e, s2) → (tEnt e).coordsOk c = true → s2.here.tagged o.t c = some l → let first := l.base == .valid && l.pf && !l.pfHit; let s3 := s2.updCore s2.cur.1 fun k => { k with tclock := k.tclock + 1, cpfhit := if first then count k.cpfhit else k.cpfhit }.setLine (hintLine .pin (touchLine { l with pfHit := l.pfHit || first } k)); tagRoom s3.here s3.cur.2 0 = true → False) := fun H =>
  by refine H {} ⟨5, rS 3, zero, zero, zero, false, none, none⟩ (tTile .m) _ _ _ _ _ (issues _ _ ?_) (ok ?_) (ok ?_) ?_ (som ?_) ?_ <;> decide +kernel
theorem witness_TileInstructionResult_tunpin : ¬ (∀ p ∈ ([(.tunpin, fun l => { l with pin := false }), (.tlast, hintLine .last), (.tstream, hintLine .stream)] :
      List ((Head → TileOp → Instr) × (TileLine → TileLine))), ∀ (h : Head) (o : TileOp) (s : State) c s1, Issues h s → readCoords o.c0 o.c1 o.c2 o.c3 (started h s) = .ok (c, s1) → let s2 := s1.updCore s1.cur.1 fun k => { k with lines := k.lines.map fun l => if namesLine o c l then p.2 l else l }; tagRoom s2.here s2.cur.2 0 = true → False) := fun H =>
  by refine H (.tunpin, fun l => { l with pin := false }) (by simp) {} ⟨5, zero, zero, zero, zero, true, none, some 0⟩ (tTile .m) _ _ (issues _ _ ?_) (ok ?_) ?_ <;> decide +kernel
theorem witness_TileInstructionResult_tlast : ¬ (∀ p ∈ ([(.tunpin, fun l => { l with pin := false }), (.tlast, hintLine .last), (.tstream, hintLine .stream)] :
      List ((Head → TileOp → Instr) × (TileLine → TileLine))), ∀ (h : Head) (o : TileOp) (s : State) c s1, Issues h s → readCoords o.c0 o.c1 o.c2 o.c3 (started h s) = .ok (c, s1) → let s2 := s1.updCore s1.cur.1 fun k => { k with lines := k.lines.map fun l => if namesLine o c l then p.2 l else l }; tagRoom s2.here s2.cur.2 0 = true → False) := fun H =>
  by refine H (.tlast, hintLine .last) (by simp) {} ⟨5, zero, zero, zero, zero, true, none, some 0⟩ (tTile .m) _ _ (issues _ _ ?_) (ok ?_) ?_ <;> decide +kernel
theorem witness_TileInstructionResult_tstream : ¬ (∀ p ∈ ([(.tunpin, fun l => { l with pin := false }), (.tlast, hintLine .last), (.tstream, hintLine .stream)] :
      List ((Head → TileOp → Instr) × (TileLine → TileLine))), ∀ (h : Head) (o : TileOp) (s : State) c s1, Issues h s → readCoords o.c0 o.c1 o.c2 o.c3 (started h s) = .ok (c, s1) → let s2 := s1.updCore s1.cur.1 fun k => { k with lines := k.lines.map fun l => if namesLine o c l then p.2 l else l }; tagRoom s2.here s2.cur.2 0 = true → False) := fun H =>
  by refine H (.tstream, hintLine .stream) (by simp) {} ⟨5, zero, zero, zero, zero, true, none, some 0⟩ (tTile .m) _ _ (issues _ _ ?_) (ok ?_) ?_ <;> decide +kernel
theorem witness_TileInstructionResult_5 : ¬ (∀ (h : Head) (o : TileOp) (s : State) c s1, Issues h s → readCoords o.c0 o.c1 o.c2 o.c3 (started h s) = .ok (c, s1) → let s2 := s1.updCore s1.cur.1 fun k => { k with lines := k.lines.map fun l => if namesLine o c l then { l with discard := true } else l }; tagRoom s2.here s2.cur.2 0 = true → False) := fun H =>
  by refine H {} ⟨5, rS 3, zero, zero, zero, false, some .group, none⟩ (tTile .m) _ _ (issues _ _ ?_) (ok ?_) ?_ <;> decide +kernel
theorem witness_TileInstructionResult_6 : ¬ (∀ (h : Head) (o : TileOp) (s : State) c ts s1 s2, Issues h s → readCoords o.c0 o.c1 o.c2 o.c3 (started h s) = .ok (c, s1) → startWriteBacks o c (scopeOr o.asc) s1 = .ok (ts, s2) → tagRoom s2.here s2.cur.2 0 = true → False) := fun H =>
  by refine H {} ⟨5, rS 3, zero, zero, zero, false, some .group, none⟩ (tTile .m) _ _ _ _ (issues _ _ ?_) (ok ?_) (ok ?_) ?_ <;> decide +kernel
theorem witness_TileInstructionResult_7 : ¬ (∀ (h : Head) (o : TileOp) (s : State) c e x ts s1 s2 s3 s4, Issues h s → readCoords o.c0 o.c1 o.c2 o.c3 (started h s) = .ok (c, s1) → formedEntry o.t none s1 = .ok (e, s2) → editionHandle e false s2 = .ok (x, s3) → startWriteBacks o c (scopeOr o.asc) s3 = .ok (ts, s4) → tagRoom s4.here s4.cur.2 0 = true → False) := fun H =>
  by refine H {} ⟨5, rS 3, zero, zero, zero, false, some .group, none⟩ (tTile .m) _ _ _ _ _ _ _ _ (issues _ _ ?_) (ok ?_) (ok ?_) (ok ?_) (ok ?_) ?_ <;> decide +kernel
theorem witness_TileInstructionResult_8 : ¬ (∀ (h : Head) (o : TEdAcqOp) (s : State) w e hd va v b s1 s2 s3 r y wy ey hy u1 u2 u3 u4, Issues h s → let kept := (s.here.slot s.cur.2).entry; let fits := fun (s : State) => s.here.reqEd.any (·.1 = o.t) = true ∨ s.here.reqEd.length < 128; let waits : Order := ⟨o.asc, { g := true, t := true }, .acq⟩; readS o.w (started h s) = .ok (w, s1) → formedEntry o.t kept s1 = .ok (e, s2) → fits s2 → editionHandle e true s2 = .ok ((hd, va), s3) → guardOrder h .t waits s3 = .ok ((), s3) → (s.here.slot s.cur.2).failed = false → (s.updCore s.cur.1 (·.updSlot s.cur.2 fun t => { t with entry := some e })).readVa s.cur.1 (s.here.ctxId.getD 0) { viaHandle hd false with acq := true } va 8 = (r, .ok b) → v = BitVec.ofNat 64 (leNat b) → (o.nowait = true ∨ w.toNat ≤ v.toNat) → y = r.updCore s.cur.1 (startIssue h s.cur.2) → readS o.w y = .ok (wy, u1) → formedEntry o.t kept u1 = .ok (ey, u2) → fits u2 → editionHandle ey true u2 = .ok (hy, u3) → guardOrder h .t waits u3 = .ok ((), u3) → writeS o.d v (u3.updCore u3.cur.1 (raiseRequired o.t v)) = .ok ((), u4) → tagRoom u4.here u4.cur.2 0 = true → False) := fun H =>
  by refine H {} ⟨5, zero, rS 4, false, .device, none⟩ (tTile .m) _ _ _ _ _ _ _ _ _ _ _ _ _ _ _ _ _ _ (issues _ _ ?_) (ok ?_) (ok ?_) ?_ (ok2 ?_) (mayGo ?_) ?_ (okR ?_) rfl (.inr ?_) rfl (ok ?_) (ok ?_) ?_ (ok ?_) (mayGo ?_) (okU ?_) ?_ <;> decide +kernel

theorem witness_CompletionSequenceSteps_0 : ¬ (∀ (c : CoreId) (s : State) g, (s.core c).grp = some g → (s.core c).stat = .running → (s.core c).pre = none → (s.core c).repins = [] → (s.core c).ended = true → (s.core c).pend = [] → (s.core c).enginesDone = true → (s.core c).lines.any (fun l => l.pin || (l.dirty && l.base == .valid)) = true → False) := fun H =>
  by refine H c0 (tWith fun k => { k with slots := k.slots.map fun t => { t with ended := true }, lines := [{ tLine with pin := true }] }) _ (som ?_) ?_ ?_ ?_ ?_ ?_ ?_ ?_ <;> decide +kernel
theorem witness_CompletionSequenceSteps_1 : ¬ (∀ (c : CoreId) (s : State) g, (s.core c).grp = some g → (s.core c).stat = .running → (s.core c).pre = none → (s.core c).repins = [] → (s.core c).ended = true → (s.core c).pend = [] → (s.core c).enginesDone = true → (s.core c).lines.any (fun l => l.pin || (l.dirty && l.base == .valid)) = false → (s.core c).writingBack = false → (s.core c).acc.all (·.kind.isDone) = true → (s.core c).landing = true → (s.core c).landSince = none → False) := fun H =>
  by refine H c0 (tWith fun k => lsPut 0x12040 64 (tSlotRec 2) { k with slots := k.slots.map fun t => { t with ended := true } }) _ (som ?_) ?_ ?_ ?_ ?_ ?_ ?_ ?_ ?_ ?_ ?_ ?_ <;> decide +kernel
theorem witness_CompletionSequenceSteps_2 : ¬ (∀ (c : CoreId) (s : State) g, (s.core c).grp = some g → (s.core c).stat = .running → (s.core c).pre = none → (s.core c).repins = [] → (s.core c).ended = true → (s.core c).pend = [] → (s.core c).enginesDone = true → (s.core c).lines.any (fun l => l.pin || (l.dirty && l.base == .valid)) = false → (s.core c).writingBack = false → (s.core c).acc.all (·.kind.isDone) = true → (s.core c).landing = false → False) := fun H =>
  by refine H c0 (tWith fun k => { k with slots := k.slots.map fun t => { t with ended := true } }) _ (som ?_) ?_ ?_ ?_ ?_ ?_ ?_ ?_ ?_ ?_ ?_ <;> decide +kernel

theorem witness_PreemptionSteps_0 : ¬ (∀ (c : CoreId) (cause : PreemptCause) (s : State), (s.core c).grp.isSome = true → (s.core c).preCause = cause → (s.core c).pre = some .stopping → (s.core c).accessesDone = true → (s.core c).fillsDone = true → False) := fun H =>
  by refine H c0 .yield (tWith fun k => { k with pre := some .stopping }) ?_ ?_ ?_ ?_ ?_ <;> decide +kernel
theorem witness_PreemptionSteps_1 : ¬ (∀ (c : CoreId) (cause : PreemptCause) (s : State), (s.core c).grp.isSome = true → (s.core c).preCause = cause → (s.core c).pre = some .settling → (s.core c).settledForSave = true → s.recordsOut c = false → False) := fun H =>
  by refine H c0 .yield (tWith fun k => { k with pre := some .settling }) ?_ ?_ ?_ ?_ ?_ <;> decide +kernel
theorem witness_PreemptionSteps_2 : ¬ (∀ (c : CoreId) (cause : PreemptCause) (s : State), (s.core c).grp.isSome = true → (s.core c).preCause = cause → ∀ t, (s.core c).pre = some (.draining t) → (s.core c).landing = false → False) := fun H =>
  by refine H c0 .yield (tWith fun k => { k with pre := some (.draining 0) }) ?_ ?_ 0 ?_ ?_ <;> decide +kernel
theorem witness_PreemptionSteps_3 : ¬ (∀ (c : CoreId) (s : State) g t, (s.core c).grp = some g → (s.core c).landingSince = some t → t + g.peb ≤ s.cycle c.die → False) := fun H =>
  by refine H c0 { (tWith fun k => lsPut 0x12040 64 (tSlotRec 2) { k with pre := some (.draining 0) }) with cycles := Vector.replicate 4 1024 } _ _ (som ?_) (som ?_) ?_ <;> decide +kernel
theorem witness_PreemptionSteps_4 : ¬ (∀ (c : CoreId) (s : State) g x n, (s.core c).grp = some g → (s.core c).pre = some .ready → s.ctx? g.ctx = some x → s.lowestSlot x = some n → False) := fun H =>
  by refine H c0 (tWith fun k => { k with pre := some .ready }) _ _ _ (som ?_) ?_ (som ?_) (som ?_) <;> decide +kernel

theorem witness_AccessReturns_0 : ¬ (∀ (c : CoreId) (id : Nat) (s : State) a, (s.core c).access? id = some a → ∀ off n, a.kind = .lstore off n none → mayPerform (s.core c) a = true → n ≠ 4096 → False) := fun H =>
  by refine H c0 5 (tAcc { tAccess (.lstore 256 8 none) with sk := .g }) _ (som ?_) 256 8 ?_ ?_ ?_ <;> decide +kernel
theorem witness_AccessReturns_1 : ¬ (∀ (c : CoreId) (id : Nat) (s : State) a, (s.core c).access? id = some a → ∀ off, a.kind = .lstore off 4096 none → mayPerform (s.core c) a = true → False) := fun H =>
  by refine H c0 5 (tAcc { tAccess (.lstore 256 4096 none) with sk := .g, dest := .queue 0 }) _ (som ?_) 256 ?_ ?_ <;> decide +kernel
theorem witness_AccessReturns_2 : ¬ (∀ (c : CoreId) (id : Nat) (s : State) a, (s.core c).access? id = some a → ∀ op, a.kind = .mem op true false → a.ended = true → a.parts ≠ [] → a.fault? = none → a.parts.length ≠ 32 → False) := fun H =>
  by refine H c0 5 (tAcc { tAccess (.mem .add true false) with sk := .g, parts := [{ va := 0, len := 8, op := .load, stage := .done 0 0 0 none }] }) _ (som ?_) .add ?_ ?_ ?_ ?_ ?_ <;> decide +kernel
theorem witness_AccessReturns_3 : ¬ (∀ (c : CoreId) (id : Nat) (s : State) a, (s.core c).access? id = some a → ∀ off n b, a.kind = .lstore off n (some b) → mayPerform (s.core c) a = true → n ≠ 4096 → False) := fun H =>
  by refine H c0 5 (tAcc { tAccess (.lstore 256 1 (some [7])) with sk := .g }) _ (som ?_) 256 1 [7] ?_ ?_ ?_ <;> decide +kernel
theorem witness_AccessReturns_4 : ¬ (∀ (c : CoreId) (id : Nat) (s : State) a, (s.core c).access? id = some a → ∀ off b, a.kind = .lstore off 4096 (some b) → mayPerform (s.core c) a = true → False) := fun H =>
  by refine H c0 5 (tAcc { tAccess (.lstore 256 4096 (some [7])) with sk := .g }) _ (som ?_) 256 [7] ?_ ?_ <;> decide +kernel
theorem witness_AccessReturns_5 : ¬ (∀ (c : CoreId) (id : Nat) (s : State) a, (s.core c).access? id = some a → ∀ e, a.kind = .fence e → fenceReady (s.core c) a e = true → False) := fun H =>
  by refine H c0 5 (tAcc { tAccess (.fence true) with sk := .g }) _ (som ?_) true ?_ ?_ <;> decide +kernel
theorem witness_AccessReturns_6 : ¬ (∀ (c : CoreId) (id : Nat) (s : State) a, (s.core c).access? id = some a → ∀ m, a.kind = .qjoin m → engineBefore (s.core c) a.id (maskQueues m) = false → False) := fun H =>
  by refine H c0 5 (tAcc { tAccess (.qjoin 0x3F) with sk := .g }) _ (som ?_) 0x3F ?_ ?_ <;> decide +kernel
theorem witness_AccessReturns_7 : ¬ (∀ (c : CoreId) (id : Nat) (s : State) a, (s.core c).access? id = some a → ∀ pa w, a.kind = .tidwr pa w → False) := fun H =>
  by refine H c0 5 (tAcc { tAccess (.tidwr 0x40280 7) with sk := .g }) _ (som ?_) 0x40280 7 ?_ <;> decide +kernel
theorem witness_AccessReturns_8 : ¬ (∀ (c : CoreId) (id : Nat) (s : State) a, (s.core c).access? id = some a → ∀ op, a.kind = .mem op false true → a.ended = true → a.parts ≠ [] → a.fault? = none → False) := fun H =>
  by refine H c0 5 (tAcc { tAccess (.mem .add false true) with sk := .g, parts := [{ va := 0, len := 8, op := .load, stage := .done 0 0 0 none }] }) _ (som ?_) .add ?_ ?_ ?_ ?_ <;> decide +kernel

theorem witness_EngineQueueEvents_0 : ¬ (∀ (c : CoreId) (e : Fin 6) (s : State) o x ctx, (s.core c).ready? e = some o → (s.core c).ctxId = some ctx → copyCtx c (s.core c).ls ctx o = some x → x.r.steps ≤ o.pos → o.sent = [] → False) := fun H =>
  by refine H c0 1 (tEng 1 { tOp (.copy 0 (BitVec.ofNat 512 (tCopy 0x20 + 2 ^ 192)) (Vector.replicate 4 0) (tHandle 1 0 65536) 0) with pos := 2 }) _ _ _ (som ?_) (som ?_) (som ?_) ?_ ?_ <;> decide +kernel
theorem witness_EngineQueueEvents_1 : ¬ (∀ (c : CoreId) (e : Fin 6) (s : State) o x ctx t, (s.core c).ready? e = some o → (s.core c).ctxId = some ctx → copyCtx c (s.core c).ls ctx o = some x → o.sent = [] → o.pos + 1 < x.r.steps → (s.core c).enginesStop = false → queueTag (s.core c) e = true → x.r.kind ≠ 0x23 → s.copyRun x o = (t, .done []) → False) := fun H =>
  by refine H c0 1 (tEng 1 (tOp (.copy 0 (BitVec.ofNat 512 (tCopy 0x20 + 2 ^ 192)) (Vector.replicate 4 0) (tHandle 1 0 65536) 0))) _ _ _ _ (som ?_) (som ?_) (som ?_) ?_ ?_ ?_ ?_ ?_ (runDone ?_) <;> decide +kernel
theorem witness_EngineQueueEvents_2 : ¬ (∀ (c : CoreId) (id : Nat) (s : State) o off len va, (s.core c).e4Done id = some o → o.kind = .fwr off len va → len ≤ o.pos → False) := fun H =>
  by refine H c0 5 (tEng 4 { tOp (.fwr 0 8 0) with pos := 8 }) _ 0 8 0 (som ?_) ?_ ?_ <;> decide +kernel
theorem witness_EngineQueueEvents_3 : ¬ (∀ (c : CoreId) (id : Nat) (s : State) o op ty b x va, (s.core c).e4Done id = some o → o.kind = .fatom op ty b x va → False) := fun H =>
  by refine H c0 5 (tEng 4 { tOp (.fatom .add .n64 1 0 0) with pos := 8 }) _ .add .n64 1 0 0 (som ?_) ?_ <;> decide +kernel
theorem witness_EngineQueueEvents_4 : ¬ (∀ (c : CoreId) (id : Nat) (s : State) o dst p, (s.core c).e4Done id = some o → o.kind = .freq dst p → False) := fun H =>
  by refine H c0 5 (tEng 4 { tOp (.freq 0 []) with pos := 8 }) _ 0 [] (som ?_) ?_ <;> decide +kernel
theorem witness_EngineQueueEvents_5 : ¬ (∀ (c : CoreId) (id : Nat) (s : State) o g off, (s.core c).e4Done id = some o → o.kind = .lzput g off → (bitsOf (leNat g) 96 32 ≤ o.pos ∨ o.status % 2 ^ 16 ≠ 0) → False) := fun H =>
  by refine H c0 5 (tEng 4 { tOp (.lzput [] 0) with pos := 8 }) _ [] 0 (som ?_) ?_ (.inl ?_) <;> decide +kernel
theorem witness_EngineQueueEvents_6 : ¬ (∀ (c : CoreId) (e : Fin 6) (s : State) o, (s.core c).head? e = some o → o.held = true → tokenRoom o.push (s.core c) = true → False) := fun H =>
  by refine H c0 5 (tEng 5 { tOp (.mzclr 7 true) with held := true, push := some 7 }) _ (som ?_) ?_ ?_ <;> decide +kernel

theorem witness_MatrixStepResult_mrec : ¬ (∀ (c : CoreId) (s : State) o x k1 x0 x1 s1 la s2 lb z, (s.core c).head? 5 = some o → matOp? o = some x → o.failed = none → (s.core c).enginesStop = false → o.held = false → engineMayBegin (s.core c) 5 o.id = true → (matKind x.rec_ = 0x10 ∨ matKind x.rec_ = 0x11) → matSteps x.rec_ ≠ 0 → applyAccm x (s.core c) = (k1, x0) → x1 = { x0 with op := x0.op.waitedTo (s.cycle c.die) true } → let r := x1.rec_; let i := matLoop r x1.op.pos; let ca := matCoords x1.b[0] (matSa r) i; let cb := matCoords x1.b[1] (matSb r) i; let row := matWindow r x1.b[2] i 0; let col := matWindow r x1.b[2] i 1; let a := tEnt (x1.ent 0); let b := tEnt (x1.ent 1); (s.setCore c k1).operand c x1 (matTa r) (x1.ent 0) ca [] false = (s1, some la) → s1.operand c x1 (matTb r) (x1.ent 1) cb [la] false = (s2, some lb) → windowBad row col a.t[1] b.t[1] = false → (s2.core c).z[matZd r] = some z → False) := fun H =>
  by refine H c0 (tStep 0x10 5) _ _ _ _ _ _ _ _ _ _ (som ?_) (som ?_) ?_ ?_ ?_ ?_ (.inl ?_) ?_ pr rfl (okD ?_) (okD ?_) ?_ (som ?_) <;> decide +kernel
theorem witness_MatrixStepResult_1 : ¬ (∀ (c : CoreId) (s : State) o x k1 x0 x1 z s1 l, (s.core c).head? 5 = some o → matOp? o = some x → o.failed = none → (s.core c).enginesStop = false → o.held = false → engineMayBegin (s.core c) 5 o.id = true → matKind x.rec_ = 0x12 → matSteps x.rec_ ≠ 0 → applyAccm x (s.core c) = (k1, x0) → x1 = { x0 with op := x0.op.waitedTo (s.cycle c.die) true } → let r := x1.rec_; let i := matLoop r x1.op.pos; let ca := matCoords x1.b[0] (matSa r) i; let row := matWindow r x1.b[2] i 0; let col := matWindow r x1.b[2] i 1; let a := tEnt (x1.ent 0); a.coordsOk ca = true → windowBad row col a.t[1] a.t[0] = false → k1.z[matZd r] = some z → (s.setCore c k1).operand c x1 (matTa r) (x1.ent 0) ca [] true = (s1, some l) → False) := fun H =>
  by refine H c0 (tStep 0x12 0) _ _ _ _ _ _ _ _ (som ?_) (som ?_) ?_ ?_ ?_ ?_ ?_ ?_ pr rfl ?_ ?_ (som ?_) (okD ?_) <;> decide +kernel
theorem witness_MatrixStepResult_2 : ¬ (∀ (c : CoreId) (s : State) o x k1 x0 x1 s1 l, (s.core c).head? 5 = some o → matOp? o = some x → o.failed = none → (s.core c).enginesStop = false → o.held = false → engineMayBegin (s.core c) 5 o.id = true → matKind x.rec_ = 0x13 → matSteps x.rec_ ≠ 0 → applyAccm x (s.core c) = (k1, x0) → x1 = { x0 with op := x0.op.waitedTo (s.cycle c.die) true } → let r := x1.rec_; let i := matLoop r x1.op.pos; let row := matWindow r x1.b[2] i 0; let col := matWindow r x1.b[2] i 1; let a := tEnt (x1.ent 0); (s.setCore c k1).operand c x1 (matTa r) (x1.ent 0) (matCoords x1.b[0] (matSa r) i) [] false = (s1, some l) → windowBad row col a.t[1] a.t[0] = false → False) := fun H =>
  by refine H c0 (tStep 0x13 0) _ _ _ _ _ _ _ (som ?_) (som ?_) ?_ ?_ ?_ ?_ ?_ ?_ pr rfl (okD ?_) ?_ <;> decide +kernel
theorem witness_MatrixStepResult_3 : ¬ (∀ (c : CoreId) (s : State) o (z : Fin 8) inv, (s.core c).ready? 5 = some o → o.kind = .mzclr z inv → (s.core c).enginesStop = false → False) := fun H =>
  by refine H c0 (tEng 5 (tOp (.mzclr 7 true))) _ 7 true (som ?_) ?_ ?_ <;> decide +kernel

theorem witness_TileEvents_0 : ¬ (∀ (c : CoreId) (line : Nat) (s : State) o l v ks s1, (s.core c).fillHead line = some (o, l) → s.fillTile c l.ctx l.ent l.c = (s1, .ok (v, ks)) → False) := fun H =>
  by refine H c0 (8 * tagSet 5 (Vector.replicate 4 0)) (tFill tSmall) _ _ _ _ _ (som2 ?_) (okR2 ?_) <;> decide +kernel
theorem witness_TileEvents_1 : ¬ (∀ (c : CoreId) (line : Nat) (s : State) o l f s1, (s.core c).fillHead line = some (o, l) → s.fillTile c l.ctx l.ent l.c = (s1, .error f) → False) := fun H =>
  by refine H c0 (8 * tagSet 5 (Vector.replicate 4 0)) (tFill (tSmall + 2)) _ _ _ _ (som2 ?_) (erR ?_) <;> decide +kernel
theorem witness_TileEvents_2 : ¬ (∀ (c : CoreId) (line : Nat) (s : State) l s1, (s.core c).lineIdx line = some l → l.base = .writingBack → (s.core c).stopped l = false → l.out = none → s.writeTile c l = (s1, .done, []) → False) := fun H =>
  by refine H c0 (8 * tagSet 5 (Vector.replicate 4 0)) (tWith fun k => { k with lines := [{ tLine with base := .writingBack, ent := tSmall, gran := 1 }] }) _ _ (som ?_) ?_ ?_ ?_ (wbDone ?_) <;> decide +kernel
theorem witness_TileEvents_3 : ¬ (∀ (c : CoreId) (line : Nat) (s : State) l, (s.core c).lineIdx line = some l → l.base = .writingBack → (s.core c).stopped l = false → l.out = some [] → False) := fun H =>
  by refine H c0 (8 * tagSet 5 (Vector.replicate 4 0)) (tWith fun k => { k with lines := [{ tLine with base := .writingBack, ent := tSmall, gran := 1, out := some [] }] }) _ (som ?_) ?_ ?_ ?_ <;> decide +kernel
theorem witness_TileEvents_vector : ¬ (∀ (c : CoreId) (s : State) g w, let s1 := s.countPinned c; (s1.core c).grp = some g → (s1.core c).replay.find? (fun w => w.since.any fun t => t + g.pfb ≤ s1.cycle c.die) = some w → False) := fun H =>
  by refine H c0 { (tWith fun k => { k with replay := [⟨.v, 5, tEntry, Vector.replicate 4 0, 0, true, some 0, false, false⟩], lines := (List.range 8).map fun i => { tLine with idx := tLine.idx + i, tens := 9, pin := true } }) with cycles := Vector.replicate 4 1024 } _ _ (som ?_) (som ?_) <;> decide +kernel
theorem witness_TileEvents_record : ¬ (∀ (c : CoreId) (s : State) g w, let s1 := s.countPinned c; (s1.core c).grp = some g → (s1.core c).replay.find? (fun w => w.since.any fun t => t + g.pfb ≤ s1.cycle c.die) = some w → False) := fun H =>
  by refine H c0 { (tWith fun k => { k.setQ 5 { ops := [tOp (.mzclr 7 true)], halted := false } with replay := [⟨.e5, 5, tEntry, Vector.replicate 4 0, 0, true, some 0, false, false⟩], lines := (List.range 8).map fun i => { tLine with idx := tLine.idx + i, tens := 9, pin := true } }) with cycles := Vector.replicate 4 1024 } _ _ (som ?_) (som ?_) <;> decide +kernel
theorem witness_TileEvents_5 : ¬ (∀ c (s : State) g w, let s1 := s.countPinned c; (s1.core c).grp = some g → (s1.core c).replay.find? (fun w => w.since.any fun t => t + g.pfb ≤ s1.cycle c.die) = some w → False) := fun H =>
  by refine H c0 { (tWith fun k => { k with replay := [⟨.v, 5, tEntry, Vector.replicate 4 0, 0, true, some 0, false, false⟩], lines := (List.range 8).map fun i => { tLine with idx := tLine.idx + i, tens := 9, pin := true } }) with cycles := Vector.replicate 4 1024 } _ _ (som ?_) (som ?_) <;> decide +kernel

theorem witness_SliceEvents_0 : ¬ (∀ (c : CoreId) (id : Nat) (part : Nat) (ch : SliceChoice) (s : State) a p l x, (s.core c).access? id = some a → a.kind.isArrival = false → a.parts[part]? = some p → p.stage = .sent → mayPerform (s.core c) a = true → s.partLeaf c p.va.toNat = some (l, x) → s.leafCheck x a.peer (if p.op.isAtomic then .atomic else if p.op = .load then .read else .write) l = none → l.isPeer = false → ch.useCopy = false → ch.keepCopy = false → ch.evict = none → let pt := s.partOf x; let line := lineOf (s.redirect pt (l.phys p.va.toNat)); let far := s.farCheck pt l (l.phys p.va.toNat) false; let owns := p.op.isAtomic && !(s.pairAt pt (l.phys p.va.toNat)).isSome; let path := reqPath c (if p.op.isAtomic then s.homeDie pt (128 * line) else s.ordDie pt line) (s.pairAt pt (l.phys p.va.toNat)).isSome far.port; far.fault = none → s.linksUp path = true → (owns = true → s.ownerBusy c line = false) → let s1 := (s.updCore c (countTier far)).carried path; let waits := owns && s1.backingOff pt c line; waits = true → False) := fun H =>
  by refine H c0 5 0 {} { (tAcc { tAccess (.mem .add true true) with sk := .g, parts := [{ va := 0x8000, len := 8, op := .atomic .add 1 0, stage := .sent }] }) with dir := [⟨256, none, 0, Vector.replicate 4 32, Vector.replicate 4 (some 0)⟩], links := [(0, { LinkEnd.reset true 1 with state := .up })] } _ _ _ _ (som ?_) ?_ (som ?_) ?_ ?_ (som2 ?_) ?_ ?_ ?_ ?_ ?_ ?_ ?_ ?_ ?_ <;> decide +kernel
theorem witness_SliceEvents_1 : ¬ (∀ (c : CoreId) (id : Nat) (part : Nat) (ch : SliceChoice) (s : State) a p l x, (s.core c).access? id = some a → a.kind.isArrival = false → a.parts[part]? = some p → p.stage = .sent → mayPerform (s.core c) a = true → s.partLeaf c p.va.toNat = some (l, x) → s.leafCheck x a.peer (if p.op.isAtomic then .atomic else if p.op = .load then .read else .write) l = none → l.isPeer = false → ch.useCopy = false → ch.keepCopy = false → ch.evict = none → let pt := s.partOf x; let line := lineOf (s.redirect pt (l.phys p.va.toNat)); let far := s.farCheck pt l (l.phys p.va.toNat) false; let owns := p.op.isAtomic && !(s.pairAt pt (l.phys p.va.toNat)).isSome; let path := reqPath c (if p.op.isAtomic then s.homeDie pt (128 * line) else s.ordDie pt line) (s.pairAt pt (l.phys p.va.toNat)).isSome far.port; far.fault = none → s.linksUp path = true → (owns = true → s.ownerBusy c line = false) → let s1 := (s.updCore c (countTier far)).carried path; let waits := owns && s1.backingOff pt c line; waits = false → False) := fun H =>
  by refine H c0 5 0 {} (tAcc { tAccess (.mem .add true false) with sk := .g, parts := [{ va := 0, len := 8, op := .load, stage := .sent }] }) _ _ _ _ (som ?_) ?_ (som ?_) ?_ ?_ (som2 ?_) ?_ ?_ ?_ ?_ ?_ ?_ ?_ ?_ ?_ <;> decide +kernel
theorem witness_SliceEvents_2 : ¬ (∀ (c : CoreId) (id : Nat) (s : State) a p l x v tag die at' t, (s.core c).access? id = some a → a.kind.isArrival = true → a.parts = [p] → p.op.isAtomic = true → p.stage = .sent → mayPerform (s.core c) a = true → s.partLeaf c p.va.toNat = some (l, x) → s.leafCheck x a.peer .atomic l = none → l.isPeer = false → let pt := s.partOf x; let line := lineOf (s.redirect pt (l.phys p.va.toNat)); let far := s.farCheck pt l (l.phys p.va.toNat) false; let inPair := (s.pairAt pt (l.phys p.va.toNat)).isSome; let path := reqPath c (s.homeDie pt (128 * line)) inPair far.port; far.fault = none → s.linksUp path = true → (inPair = true ∨ s.ownerBusy c line = false) → let s1 := (s.updCore c (countTier far)).carried path; (inPair = true ∨ s1.backingOff pt c line = false) → let s2 := if inPair then s1 else s1.takeOwnership pt c line; s2.mshrs.any (fun m => m.line = line) = false → s2.ingress.any (fun q => s2.reqLine q.2 = some line) = false → (s2.ownLine line).any (fun o => s2.needOf ⟨c, id, 0⟩ &&& ~~~ o.valid = 0) = true → (s2.core c).access? id = some a → s2.partLeaf c p.va.toNat = some (l, x) → (if releases a.ord then s2.releaseAt c a.asc else s2).performPart c a p l x = (t, .done v tag die at') → False) := fun H =>
  by refine H c0 5 tBarrier { tAccess (.bararv true) with parts := [tArrival] } tArrival _ _ _ _ _ _ _ ?_ ?_ ?_ ?_ ?_ ?_ (som2 ?_) ?_ ?_ ?_ ?_ ?_ ?_ ?_ ?_ ?_ ?_ ?_ (served ?_) <;> decide +kernel
theorem witness_SliceEvents_3 : ¬ (∀ (die : Fin 4) (line : Nat) (s : State) m r rest, s.mshrs.find? (fun m => m.die = die && m.line = line) = some m → m.waiting = r :: rest → let part := ((s.core r.core).ctxId.map s.partOf).getD 0; s.asleepAt part line = false → False) := fun H =>
  by refine H 0 0 { ((tAcc { tAccess (.mem .add true false) with sk := .g, parts := [{ va := 0, len := 8, op := .load, stage := .sent }] })) with mshrs := [⟨0, 0, [⟨c0, 5, 0⟩]⟩] } _ _ _ (som ?_) rfl ?_ <;> decide +kernel
theorem witness_SliceEvents_4 : ¬ (∀ (c : CoreId) (id : Nat) (s : State) a p l x, (s.core c).access? id = some a → a.parts = [p] → s.partLeaf c p.va.toNat = some (l, x) → p.stage = .atSlice → p.op.isAtomic = true → l.isPeer = false → s.isHeld (.access c id) = false → let pt := s.partOf x; let line := lineOf (s.redirect pt (l.phys p.va.toNat)); s.backingOff pt c line = false → s.ownerBusy c line = false → s.mshrs.any (fun m => m.waiting.contains ⟨c, id, 0⟩) = false → s.ingress.any (fun q => q.2 = ⟨c, id, 0⟩) = false → False) := fun H =>
  by refine H c0 5 (tAcc { tAccess (.mem .add true true) with sk := .g, parts := [{ va := 0, len := 8, op := .atomic .add 1 0, stage := .atSlice }] }) _ { va := 0, len := 8, op := .atomic .add 1 0, stage := .atSlice } _ _ (som ?_) ?_ (som2 ?_) ?_ ?_ ?_ ?_ ?_ ?_ ?_ ?_ <;> decide +kernel
theorem witness_SliceEvents_5 : ¬ (∀ (c : CoreId) (va : BitVec 56) (s : State) x, let page := va.toNat / 65536; let mine := ((s.core c).walks.take 32).find? (·.page = page); (mine.isSome = true ∨ ((s.core c).walksPage va.toNat = false ∧ (s.core c).missing page = true)) → (s.core c).ctxId.bind s.ctx? = some x → False) := fun H =>
  by refine H c0 0x10000 (tWith fun k => { k with walks := [⟨1, []⟩] }) _ (.inl ?_) (som ?_) <;> decide +kernel

theorem witness_AnswersReceived_0 : ¬ (∀ (link : BitVec 11) (ki : Bool) (fn : BitVec 48) (s : State) s1 l f, s.takeAnswer link (isAck ki fn) = some s1 → s1.link? link = some l → l.tx.find? (·.named ki fn) = some f → f.records.all (fun t => isRequest t.rec_) = true → let keep := f.records.filter fun t => t.rec_.fl.getLsbD 1 || s1.nakWaits link t; keep = [] → False) := fun H =>
  by refine H 16 false 0 { tPeer (tSent (tRecord 1 0)) (fun k => k) with inrecs := [⟨some 16, 7, 0xFFFF, { tRecord 0x10 0 with payload := natLe 8 0 }, (false, 0)⟩] } _ _ _ (som ?_) (som ?_) (som ?_) ?_ ?_ <;> decide +kernel
theorem witness_AnswersReceived_1 : ¬ (∀ (link : BitVec 11) (ki : Bool) (fn : BitVec 48) (s : State) s1 l f, s.takeAnswer link (isAck ki fn) = some s1 → s1.link? link = some l → l.tx.find? (·.named ki fn) = some f → f.records.all (fun t => isRequest t.rec_) = true → let keep := f.records.filter fun t => t.rec_.fl.getLsbD 1 || s1.nakWaits link t; keep ≠ [] → False) := fun H =>
  by refine H 16 false 0 { tPeer (tSent (tRecord 2 2)) (fun k => k) with inrecs := [⟨some 16, 7, 0xFFFF, { tRecord 0x10 0 with payload := natLe 8 0 }, (false, 0)⟩] } _ _ _ (som ?_) (som ?_) (som ?_) ?_ ?_ <;> decide +kernel
theorem witness_AnswersReceived_2 : ¬ (∀ (link : BitVec 11) (rtag : BitVec 32) (code : BitVec 16) (detail : BitVec 8) (s : State) s1 l t, s.takeAnswer link (isNak rtag code detail) = some s1 → s1.link? link = some l → l.recOf rtag = some t → keepsRec (s1.core t.core) t = true → False) := fun H =>
  by refine H 16 0 0x30B 1 { tPeer (tSent (tRecord 2 2)) (fun k => { k with acc := [tAccess (.mem .add true true)] }) with inrecs := [⟨some 16, 7, 0xFFFF, { tRecord 0x11 0 with payload := natLe 8 0x1030B }, (false, 0)⟩] } _ _ _ (som ?_) (som ?_) (som ?_) ?_ <;> decide +kernel
theorem witness_AnswersReceived_3 : ¬ (∀ (link : BitVec 11) (rtag : BitVec 32) (code : BitVec 16) (detail : BitVec 8) (s : State) s1 l t, s.takeAnswer link (isNak rtag code detail) = some s1 → s1.link? link = some l → l.recOf rtag = some t → keepsRec (s1.core t.core) t = false → False) := fun H =>
  by refine H 16 0 0x30B 1 { tPeer (tSent (tRecord 2 2)) (fun k => k) with inrecs := [⟨some 16, 7, 0xFFFF, { tRecord 0x11 0 with payload := natLe 8 0x1030B }, (false, 0)⟩] } _ _ _ (som ?_) (som ?_) (som ?_) ?_ <;> decide +kernel
theorem witness_AnswersReceived_4 : ¬ (∀ (link : BitVec 11) (rtag : BitVec 32) (old : Word) (s : State) s1 l t, s.takeAnswer link (isResult rtag old) = some s1 → s1.link? link = some l → l.recOf rtag = some t → t.rec_.fl.getLsbD 1 = true → False) := fun H =>
  by refine H 16 0 7 { tPeer (tSent (tRecord 2 2)) (fun k => { k with acc := [tAccess (.mem .add true true)] }) with inrecs := [⟨some 16, 7, 0xFFFF, { tRecord 0x12 0 with payload := natLe 8 7 }, (false, 0)⟩] } _ _ _ (som ?_) (som ?_) (som ?_) ?_ <;> decide +kernel

theorem witness_MessagesAndGrantsEnd_0 : ¬ (∀ (c : CoreId) (id : Nat) (s : State) a ctx dst b, (s.core c).access? id = some a → (s.core c).ctxId = some ctx → a.kind = .msend dst b → s.earlierMsg c a = false → mayPerform (s.core c) a = true → (2 ^ 14 ≤ dst.toNat || dst.toNat.testBit 7) = true → False) := fun H =>
  by refine H c0 5 (tAcc { tAccess (.msend 0x4000 []) with sk := .g }) _ _ 0x4000 [] (som ?_) (som ?_) ?_ ?_ ?_ ?_ <;> decide +kernel
theorem witness_MessagesAndGrantsEnd_1 : ¬ (∀ (c : CoreId) (id : Nat) (s : State) a ctx dst b, (s.core c).access? id = some a → (s.core c).ctxId = some ctx → a.kind = .msend dst b → s.earlierMsg c a = false → mayPerform (s.core c) a = true → ∀ rc r, (2 ^ 14 ≤ dst.toNat || dst.toNat.testBit 7) = false → coreOfWord (bitsOf dst.toNat 0 7) (bitsOf dst.toNat 8 2) = some rc → s.ringOf ctx rc (bitsOf dst.toNat 10 4) = some r → let k := ringAppend (s.core rc) r (ringHeader b.length c.core.val c.die.val 0) b; k.2 = true → False) := fun H =>
  by refine H c0 5 (tLocal 0x11010 8 4 (tAcc { tAccess (.msend 0x800 []) with sk := .g })) _ _ 0x800 [] (som ?_) (som ?_) ?_ ?_ ?_ _ _ ?_ (som ?_) (som ?_) ?_ <;> decide +kernel
theorem witness_MessagesAndGrantsEnd_2 : ¬ (∀ (c : CoreId) (id : Nat) (s : State) a ctx dst b, (s.core c).access? id = some a → (s.core c).ctxId = some ctx → a.kind = .msend dst b → s.earlierMsg c a = false → mayPerform (s.core c) a = true → ∀ rc r, (2 ^ 14 ≤ dst.toNat || dst.toNat.testBit 7) = false → coreOfWord (bitsOf dst.toNat 0 7) (bitsOf dst.toNat 8 2) = some rc → s.ringOf ctx rc (bitsOf dst.toNat 10 4) = some r → let k := ringAppend (s.core rc) r (ringHeader b.length c.core.val c.die.val 0) b; k.2 = false → False) := fun H =>
  by refine H c0 5 (tAcc { tAccess (.msend 0x800 []) with sk := .g }) _ _ 0x800 [] (som ?_) (som ?_) ?_ ?_ ?_ _ _ ?_ (som ?_) (som ?_) ?_ <;> decide +kernel
theorem witness_MessagesAndGrantsEnd_3 : ¬ (∀ (c : CoreId) (id : Nat) (s : State) a ctx z j w b, (s.core c).access? id = some a → (s.core c).ctxId = some ctx → a.kind = .lzgrant z j w b → BitVec.ofNat 16 (bitsOf w.toNat 0 16) = s.device → s.earlierMsg c a = false → mayPerform (s.core c) a = true → False) := fun H =>
  by refine H c0 5 (tAcc { tAccess (.lzgrant 3 0 0 []) with sk := .g }) _ _ 3 0 0 [] (som ?_) (som ?_) ?_ ?_ ?_ ?_ <;> decide +kernel
theorem witness_MessagesAndGrantsEnd_4 : ¬ (∀ (c : CoreId) (id : Nat) (s : State) a ctx z j w b, (s.core c).access? id = some a → (s.core c).ctxId = some ctx → a.kind = .lzgrant z j w b → BitVec.ofNat 16 (bitsOf w.toNat 0 16) ≠ s.device → a.raised = true → False) := fun H =>
  by refine H c0 5 (tAcc { tAccess (.lzgrant 3 0 7 []) with sk := .g, raised := true }) _ _ 3 0 7 [] (som ?_) (som ?_) ?_ ?_ ?_ <;> decide +kernel
theorem witness_MessagesAndGrantsEnd_5 : ¬ (∀ (c : CoreId) (s : State) (h : Head) o s1 x s2 t, (s.core c).adopting = some (h, o) → let s0 := { s with cur := (c, .a) }; Issues h s0 → started h s0 = s1 → adoption o (s0.here.slot .a).entry s1 = .ok (x, s2) → s2.tryAdopt c x = .done t → False) := fun H =>
  by refine H c0 (tLocal 0x12040 64 (tSlotRec 4) (tWith fun k => { k with adopting := some ({}, ⟨5, zero, zero, 3, zero⟩) })) {} ⟨5, zero, zero, 3, zero⟩ _ _ _ _ ?_ (issues _ _ ?_) rfl (ok ?_) (adopted ?_).choose_spec <;> decide +kernel

theorem witness_RecordsReceived_0 : ¬ (∀ (k : Nat) (s : State) (r : InRec) s1, s.inrecs[k]? = some r → s.answerable r = true → s.isHeld (.record r) = false → (s.streamOf r).duplicate r.rec_.sseq = false → (s.streamOf r).inTurn r.rec_.sseq = true → ∀ e t, r.rec_.op = 0x01 → recLenOk r.rec_ = true → s.iatMemory r false = some e → s.inward (s.recDie e r.rec_.pa.toNat) r = s1 → s1.writePieces e (piecesOf r.rec_.pa.toNat r.rec_.payload.length) r.rec_.payload = .ok t → False) := fun H =>
  by refine H 0 (tReceived 0xFFFF (tRecord 1 0) fun k => k) _ _ (som ?_) ?_ ?_ ?_ ?_ _ _ ?_ ?_ (som ?_) rfl (okE ?_) <;> decide +kernel
theorem witness_RecordsReceived_1 : ¬ (∀ (k : Nat) (s : State) (r : InRec) s1, s.inrecs[k]? = some r → s.answerable r = true → s.isHeld (.record r) = false → (s.streamOf r).duplicate r.rec_.sseq = false → (s.streamOf r).inTurn r.rec_.sseq = true → ∀ e key op ty t old, r.rec_.op = 0x02 → recLenOk r.rec_ = true → s.iatMemory r true = some e → s.inward (s.recDie e r.rec_.pa.toNat) r = s1 → s1.inboundCheck e r.rec_.pa.toNat = .ok key → AOp.ofNum r.rec_.aop.toNat = some op → Fmt.ofCode r.rec_.ty.toNat = some ty → s1.atomicLine (s1.partOf e.ctx) ⟨key, e.wv, e.wvm⟩ r.rec_.pa.toNat op ty (leNat (r.rec_.payload.take ty.bytes)) (leNat ((r.rec_.payload.drop ty.bytes).take ty.bytes)) = (t, .ok old) → False) := fun H =>
  by refine H 0 (tReceived 0xFFFF (tRecord 2 2) fun k => k) _ _ (som ?_) ?_ ?_ ?_ ?_ _ _ _ _ _ _ ?_ ?_ (som ?_) rfl (okE ?_) (som ?_) (som ?_) (okR ?_) <;> decide +kernel
theorem witness_RecordsReceived_2 : ¬ (∀ (k : Nat) (s : State) (r : InRec) s1, s.inrecs[k]? = some r → s.answerable r = true → s.isHeld (.record r) = false → (s.streamOf r).duplicate r.rec_.sseq = false → (s.streamOf r).inTurn r.rec_.sseq = true → ∀ c x, r.rec_.op = 0x03 → recLenOk r.rec_ = true → s.requestRing r = some (c, x) → s.inward c.die r = s1 → let m := ringAppend (s1.core c) x (ringHeader r.rec_.len.toNat ((recScore r.rec_).toNat % 128) 0xFF r.sdev.toNat) r.rec_.payload; m.2 = true → False) := fun H =>
  by refine H 0 (tReceived 0x400 (tRecord 3 0) fun k => lsPut 0x11010 8 4 k) _ _ (som ?_) ?_ ?_ ?_ ?_ _ _ ?_ ?_ (som2 ?_) rfl ?_ <;> decide +kernel
theorem witness_RecordsReceived_3 : ¬ (∀ (k : Nat) (s : State) (r : InRec) s1, s.inrecs[k]? = some r → s.answerable r = true → s.isHeld (.record r) = false → (s.streamOf r).duplicate r.rec_.sseq = false → (s.streamOf r).inTurn r.rec_.sseq = true → ∀ c x, r.rec_.op = 0x03 → recLenOk r.rec_ = true → s.requestRing r = some (c, x) → s.inward c.die r = s1 → let m := ringAppend (s1.core c) x (ringHeader r.rec_.len.toNat ((recScore r.rec_).toNat % 128) 0xFF r.sdev.toNat) r.rec_.payload; m.2 = false → False) := fun H =>
  by refine H 0 (tReceived 0x400 (tRecord 3 0) fun k => k) _ _ (som ?_) ?_ ?_ ?_ ?_ _ _ ?_ ?_ (som2 ?_) rfl ?_ <;> decide +kernel
theorem witness_RecordsReceived_4 : ¬ (∀ (k : Nat) (s : State) (r : InRec) s1, s.inrecs[k]? = some r → s.answerable r = true → s.isHeld (.record r) = false → (s.streamOf r).duplicate r.rec_.sseq = false → (s.streamOf r).inTurn r.rec_.sseq = true → ∀ c x, r.rec_.op = 0x04 → coreOfWord (bitsOf r.dest.toNat 0 7) (bitsOf r.dest.toNat 7 2) = some c → s.inward c.die r = s1 → (s1.core c).runsGroup = true → (s1.core c).ctxId = some x → s1.landsIn r x = true → landCheck (s1.core c) r = 0 → False) := fun H =>
  by refine H 0 (tReceived 0x2600 { tRecord 4 0 with len := 64 } fun k => lsPut 0x12040 64 (tSlotRec 2 + 2 ^ 288 * 7 + 2 ^ 64) k) _ _ (som ?_) ?_ ?_ ?_ ?_ _ _ ?_ (som ?_) rfl ?_ (som ?_) ?_ ?_ <;> decide +kernel

theorem witness_FabricRecordSent_0 : ¬ (∀ c (s : State) o off len va s1 l i li, (s.core c).ready? 4 = some o → o.kind = .fwr off len va → (s.core c).enginesStop = false → e4MaySend (s.core c) o = true → queueTag (s.core c) 4 = true → o.pos < len → s.peerLeaf c .write (va.toNat + o.pos) = (s1, .ok l) → s1.linkUse c true (BitVec.ofNat 16 l.pdev) = .carries i li → False) := fun H =>
  by refine H c0 (tPeer tLinkUp fun k => k.setQ 4 { ops := [tOp (.fwr 0 2048 0x10000)], halted := false }) _ 0 2048 0x10000 _ _ 16 tLinkUp (som ?_) ?_ ?_ ?_ ?_ ?_ (okR ?_) ?_ <;> decide +kernel
theorem witness_FabricRecordSent_1 : ¬ (∀ c id (part : Nat) (s : State) a (p : Part) b l x i li, (s.core c).access? id = some a → a.parts[part]? = some p → p.stage = .sent → mayPerform (s.core c) a = true → p.op = .store b → s.partLeaf c p.va.toNat = some (l, x) → s.leafCheck x a.peer .write l = none → l.isPeer = true → s.linkUse c false (BitVec.ofNat 16 l.pdev) = .carries i li → False) := fun H =>
  by refine H c0 5 0 (tPeer tLinkUp fun k => { k with acc := [{ tAccess (.mem .add false true) with peer := true, parts := [{ va := 0x10000, len := 1, op := .store [7], stage := .sent }] }] }) _ _ [7] _ _ 16 tLinkUp (som ?_) (som ?_) ?_ ?_ ?_ (som2 ?_) ?_ ?_ ?_ <;> decide +kernel
theorem witness_FabricRecordSent_2 : ¬ (∀ c id (part : Nat) (s : State) a (p : Part) (op : AOp) (b : Word) (e : Word) l x i li, (s.core c).access? id = some a → a.parts[part]? = some p → p.stage = .sent → mayPerform (s.core c) a = true → p.op = .atomic op b e → s.partLeaf c p.va.toNat = some (l, x) → s.leafCheck x a.peer .atomic l = none → l.isPeer = true → s.linkUse c false (BitVec.ofNat 16 l.pdev) = .carries i li → False) := fun H =>
  by refine H c0 5 0 (tPeer tLinkUp fun k => { k with acc := [{ tAccess (.mem .add true true) with peer := true, parts := [{ va := 0x10000, len := 8, op := .atomic .add 1 0, stage := .sent }] }] }) _ _ .add 1 0 _ _ 16 tLinkUp (som ?_) (som ?_) ?_ ?_ ?_ (som2 ?_) ?_ ?_ ?_ <;> decide +kernel
theorem witness_FabricRecordSent_3 : ¬ (∀ c (s : State) o op ty b e va s1 l i li, (s.core c).ready? 4 = some o → o.kind = .fatom op ty b e va → (s.core c).enginesStop = false → e4MaySend (s.core c) o = true → queueTag (s.core c) 4 = true → o.pos = 0 → s.peerLeaf c .atomic va.toNat = (s1, .ok l) → s1.linkUse c true (BitVec.ofNat 16 l.pdev) = .carries i li → False) := fun H =>
  by refine H c0 (tPeer tLinkUp fun k => k.setQ 4 { ops := [tOp (.fatom .add .n64 1 0 0x10000)], halted := false }) _ .add .n64 1 0 0x10000 _ _ 16 tLinkUp (som ?_) ?_ ?_ ?_ ?_ ?_ (okR ?_) ?_ <;> decide +kernel
theorem witness_FabricRecordSent_4 : ¬ (∀ c (s : State) o dst b i li, (s.core c).ready? 4 = some o → o.kind = .freq dst b → (s.core c).enginesStop = false → e4MaySend (s.core c) o = true → queueTag (s.core c) 4 = true → o.pos = 0 → let dev := BitVec.ofNat 16 (bitsOf dst.toNat 0 16); dst.toNat < 2 ^ 29 → dev ≠ s.device → s.linkUse c true dev = .carries i li → False) := fun H =>
  by refine H c0 (tPeer tLinkUp fun k => k.setQ 4 { ops := [tOp (.freq 7 [0])], halted := false }) _ 7 [0] 16 tLinkUp (som ?_) ?_ ?_ ?_ ?_ ?_ ?_ ?_ ?_ <;> decide +kernel
theorem witness_FabricRecordSent_5 : ¬ (∀ c (s : State) o g off, (s.core c).ready? 4 = some o → o.kind = .lzput g off → ((s.core c).enginesStop = false ∨ o.pos ≠ 0) → e4MaySend (s.core c) o = true → queueTag (s.core c) 4 = true → o.pos < bitsOf (leNat g) 96 32 → o.status % 2 ^ 16 = 0 → let dev := BitVec.ofNat 16 (bitsOf (leNat g) 16 16); ∀ i li, dev ≠ s.device → s.linkUse c true dev = .carries i li → False) := fun H =>
  by refine H c0 (tPeer tLinkUp fun k => k.setQ 4 { ops := [tOp (.lzput (natLe 32 (1 + 2 ^ 16 * 7 + 2 ^ 32 * 0x2600 + 2 ^ 96 * 2048)) 0)], halted := false }) _ (natLe 32 (1 + 2 ^ 16 * 7 + 2 ^ 32 * 0x2600 + 2 ^ 96 * 2048)) 0 (som ?_) ?_ (.inl ?_) ?_ ?_ ?_ ?_ 16 tLinkUp ?_ ?_ <;> decide +kernel
theorem witness_FabricRecordSent_6 : ¬ (∀ c (s : State) o g off, (s.core c).ready? 4 = some o → o.kind = .lzput g off → ((s.core c).enginesStop = false ∨ o.pos ≠ 0) → e4MaySend (s.core c) o = true → queueTag (s.core c) 4 = true → o.pos < bitsOf (leNat g) 96 32 → o.status % 2 ^ 16 = 0 → let dev := BitVec.ofNat 16 (bitsOf (leNat g) 16 16); let dest := BitVec.ofNat 16 (bitsOf (leNat g) 32 16); let die := Fin.ofNat 4 (bitsOf dest.toNat 7 2); let s1 := if releases o.ord then s.releaseAt c o.asc else s; ∀ s2, dev = s.device → s.dieCut c.die die = false → s1.cross (dieHop c.die die) = s2 → False) := fun H =>
  by refine H c0 (tPeer tLinkUp fun k => k.setQ 4 { ops := [tOp (.lzput (natLe 32 (1 + 2 ^ 16 * 0 + 2 ^ 32 * 0x2600 + 2 ^ 96 * 2048)) 0)], halted := false }) _ (natLe 32 (1 + 2 ^ 16 * 0 + 2 ^ 32 * 0x2600 + 2 ^ 96 * 2048)) 0 (som ?_) ?_ (.inl ?_) ?_ ?_ ?_ ?_ _ ?_ ?_ rfl <;> decide +kernel
theorem witness_FabricRecordSent_7 : ¬ (∀ c id (s : State) a z j w b i l, (s.core c).access? id = some a → a.kind = .lzgrant z j w b → a.push = none → a.raised = false → mayPerform (s.core c) a = true → BitVec.ofNat 16 (bitsOf w.toNat 0 16) ≠ s.device → s.linkUse c false (BitVec.ofNat 16 (bitsOf w.toNat 0 16)) = .carries i l → False) := fun H =>
  by refine H c0 5 (tPeer tLinkUp fun k => { k with acc := [tAccess (.lzgrant 3 0 7 [])] }) _ 3 0 7 [] 16 tLinkUp (som ?_) ?_ ?_ ?_ ?_ ?_ ?_ <;> decide +kernel

theorem witness_QueueEntriesRun_0 : ¬ (∀ (ctx : BitVec 10) (n : BitVec 12) (s : State) q x s1 e t p, s.queue? ctx n = some q → s.ctx? ctx = some x → s.headOf q = (s1, .entry e) → s1.first q e = true → entIllFormed x e = false → s1.takeEntry q e .running = (t, p) → entKind e = 2 → False) := fun H =>
  by refine H 0 0 (tQueue (tEntryOf 2 (2 ^ 128 * 256 + 2 ^ 192 * 16)) (3 + 2 ^ 64 * 5) (tRun .armed)) _ _ _ (BitVec.ofNat 512 (tEntryOf 2 (2 ^ 128 * 256 + 2 ^ 192 * 16))) _ _ (som ?_) (som ?_) (sndEq ?_) ?_ ?_ pr ?_ <;> decide +kernel
theorem witness_QueueEntriesRun_1 : ¬ (∀ (ctx : BitVec 10) (n : BitVec 12) (s : State) q x s1 e t p, s.queue? ctx n = some q → s.ctx? ctx = some x → s.headOf q = (s1, .entry e) → s1.first q e = true → entIllFormed x e = false → s1.takeEntry q e .running = (t, p) → entKind e = 3 → False) := fun H =>
  by refine H 0 0 (tQueue (tEntryOf 3 (2 ^ 128 * 5)) (3 + 2 ^ 64 * 5) (tRun .armed)) _ _ _ (BitVec.ofNat 512 (tEntryOf 3 (2 ^ 128 * 5))) _ _ (som ?_) (som ?_) (sndEq ?_) ?_ ?_ pr ?_ <;> decide +kernel
theorem witness_QueueEntriesRun_2 : ¬ (∀ (ctx : BitVec 10) (n : BitVec 12) (s : State) q x s1 e t p, s.queue? ctx n = some q → s.ctx? ctx = some x → s.headOf q = (s1, .entry e) → s1.first q e = true → entIllFormed x e = false → s1.takeEntry q e .running = (t, p) → ∀ u, entKind e = 4 → t.isHeld (.queue p.ctx p.n) = false → t.engineArrive p.ctx (bitsOf e.toNat 64 64) (bitsOf e.toNat 128 16) = (u, .done) → False) := fun H =>
  by refine H 0 0 (tQueue (tEntryOf 4 (2 ^ 64 * 128 + 2 ^ 128)) (3 + 2 ^ 64 * 5) (tRun .armed)) _ _ _ (BitVec.ofNat 512 (tEntryOf 4 (2 ^ 64 * 128 + 2 ^ 128))) _ _ (som ?_) (som ?_) (sndEq ?_) ?_ ?_ pr _ ?_ ?_ (sndEq ?_) <;> decide +kernel
theorem witness_QueueEntriesRun_3 : ¬ (∀ (ctx : BitVec 10) (n : BitVec 12) (s : State) q x s1 e t p, s.queue? ctx n = some q → s.ctx? ctx = some x → s.headOf q = (s1, .entry e) → s1.first q e = true → entIllFormed x e = false → s1.takeEntry q e .running = (t, p) → ∀ u b, entKind e = 5 → t.waitMet ctx e = (u, .ok b) → False) := fun H =>
  by refine H 0 0 (tQueue (tEntryOf 5 (2 ^ 64 + 2 ^ 128 * 128)) (3 + 2 ^ 64 * 5) (tRun .armed)) _ _ _ (BitVec.ofNat 512 (tEntryOf 5 (2 ^ 64 + 2 ^ 128 * 128))) _ _ (som ?_) (som ?_) (sndEq ?_) ?_ ?_ pr _ _ ?_ (okR ?_) <;> decide +kernel
theorem witness_QueueEntriesRun_4 : ¬ (∀ (ctx : BitVec 10) (n : BitVec 12) (s : State) q e, s.queue? ctx n = some q → q.entry = some e → q.state ≠ .halted → ∀ t, entKind e = 2 → s.copyEngineFor q (entPri e) = true → let len := bitsOf e.toNat 192 64; let edge := copyEdge (copyDown (bitsOf e.toNat 64 64) (bitsOf e.toNat 128 64) len) (bitsOf e.toNat 128 64) len q.moved; let part := Config.draw s.freeCtr % ((len - q.moved - edge + 127) / 128 + 2); let now := if part = 0 then len - q.moved else min (len - q.moved) (edge + 128 * (part - 1)); s.drew.copyBytes ctx (bitsOf e.toNat 64 64) (bitsOf e.toNat 128 64) len (now / 128 + 1) q.moved now = (t, none) → False) := fun H =>
  by refine H 0 0 (tQueue 0 (3 + 2 ^ 64 * 5) { tRun .running with head := 1, entry := some (BitVec.ofNat 512 (tEntryOf 2 (2 ^ 128 * 256))) }) _ _ (som ?_) (som ?_) ?_ _ ?_ ?_ (copied ?_ ?_) <;> decide +kernel
theorem witness_QueueEntriesRun_5 : ¬ (∀ (ctx : BitVec 10) (n : BitVec 12) (s : State) q e, s.queue? ctx n = some q → q.entry = some e → q.state ≠ .halted → entKind e = 3 → s.joined ctx e = true → False) := fun H =>
  by refine H 0 0 (tQueue 0 (3 + 2 ^ 64 * 5) { tRun .running with head := 1, entry := some (BitVec.ofNat 512 (tEntryOf 3 (0))) }) _ _ (som ?_) (som ?_) ?_ ?_ ?_ <;> decide +kernel
theorem witness_QueueEntriesRun_6 : ¬ (∀ (ctx : BitVec 10) (n : BitVec 12) (s : State) q e, s.queue? ctx n = some q → q.entry = some e → q.state ≠ .halted → entKind e = 4 → q.remote = .done → False) := fun H =>
  by refine H 0 0 (tQueue 0 (3 + 2 ^ 64 * 5) { tRun .running with head := 1, entry := some (BitVec.ofNat 512 (tEntryOf 4 (2 ^ 64 * 128 + 2 ^ 128))), remote := .done }) _ _ (som ?_) (som ?_) ?_ ?_ ?_ <;> decide +kernel
theorem witness_QueueEntriesRun_7 : ¬ (∀ (ctx : BitVec 10) (n : BitVec 12) (s : State) q e, s.queue? ctx n = some q → q.entry = some e → q.state ≠ .halted → ∀ t, entKind e = 4 → q.remote = .none → s.isHeld (.queue q.ctx q.n) = false → s.engineArrive ctx (bitsOf e.toNat 64 64) (bitsOf e.toNat 128 16) = (t, .done) → False) := fun H =>
  by refine H 0 0 (tQueue 0 (3 + 2 ^ 64 * 5) { tRun .running with head := 1, entry := some (BitVec.ofNat 512 (tEntryOf 4 (2 ^ 64 * 128 + 2 ^ 128))) }) _ _ (som ?_) (som ?_) ?_ _ ?_ ?_ ?_ (sndEq ?_) <;> decide +kernel
theorem witness_QueueEntriesRun_8 : ¬ (∀ (ctx : BitVec 10) (n : BitVec 12) (s : State) q e, s.queue? ctx n = some q → q.entry = some e → q.state ≠ .halted → ∀ t, entKind e = 5 → s.waitMet ctx e = (t, .ok true) → False) := fun H =>
  by refine H 0 0 (tQueue 0 (3 + 2 ^ 64 * 5) { tRun .running with head := 1, entry := some (BitVec.ofNat 512 (tEntryOf 5 (2 ^ 64 + 2 ^ 128 * 128))) }) _ _ (som ?_) (som ?_) ?_ _ ?_ (okTrue ?_) <;> decide +kernel

theorem witness_AppendsAndReopening_0 : ¬ (∀ c id (s : State) a ctx qw e, (s.core c).access? id = some a → (s.core c).ctxId = some ctx → a.kind = .append qw e → a.raised = false → mayPerform (s.core c) a = true → s.inAppendOrder c ctx qw = true → let s1 := (if releases a.ord then s.releaseAt c a.asc else s).cross (idieHop c.die); s1.queue? ctx (BitVec.ofNat 12 qw.toNat) = none → False) := fun H =>
  by refine H c0 5 (tAcc { tAccess (.append 0 5) with sk := .l }) _ 0 0 5 (som ?_) ?_ ?_ ?_ ?_ ?_ ?_ <;> decide +kernel
theorem witness_AppendsAndReopening_1 : ¬ (∀ c id (s : State) a ctx qw e, (s.core c).access? id = some a → (s.core c).ctxId = some ctx → a.kind = .append qw e → a.raised = false → mayPerform (s.core c) a = true → s.inAppendOrder c ctx qw = true → let s1 := (if releases a.ord then s.releaseAt c a.asc else s).cross (idieHop c.die); ∀ q x, s1.queue? ctx (BitVec.ofNat 12 qw.toNat) = some q → s1.ctx? ctx = some x → x.qn.toNat ≤ qw.toNat ∨ q.en = false → False) := fun H =>
  by refine H c0 5 ((tQueue 0 0 { tRun .armed with en := false }).updCore c0 fun k => { k with acc := [{ tAccess (.append 0 5) with sk := .l }] }) _ 0 0 5 (som ?_) ?_ ?_ ?_ ?_ ?_ _ _ (som ?_) (som ?_) (.inr ?_) <;> decide +kernel
theorem witness_AppendsAndReopening_2 : ¬ (∀ c id (s : State) a ctx qw e, (s.core c).access? id = some a → (s.core c).ctxId = some ctx → a.kind = .append qw e → a.raised = false → mayPerform (s.core c) a = true → s.inAppendOrder c ctx qw = true → let s1 := (if releases a.ord then s.releaseAt c a.asc else s).cross (idieHop c.die); ∀ q x, s1.queue? ctx (BitVec.ofNat 12 qw.toNat) = some q → s1.ctx? ctx = some x → qw.toNat < x.qn.toNat → q.en = true → q.state = .halted → False) := fun H =>
  by refine H c0 5 ((tQueue 0 0 (tRun .halted)).updCore c0 fun k => { k with acc := [{ tAccess (.append 0 5) with sk := .l }] }) _ 0 0 5 (som ?_) ?_ ?_ ?_ ?_ ?_ _ _ (som ?_) (som ?_) ?_ ?_ ?_ <;> decide +kernel
theorem witness_AppendsAndReopening_3 : ¬ (∀ c id (s : State) a ctx qw e, (s.core c).access? id = some a → (s.core c).ctxId = some ctx → a.kind = .append qw e → a.raised = false → mayPerform (s.core c) a = true → s.inAppendOrder c ctx qw = true → let s1 := (if releases a.ord then s.releaseAt c a.asc else s).cross (idieHop c.die); ∀ q x, s1.queue? ctx (BitVec.ofNat 12 qw.toNat) = some q → s1.ctx? ctx = some x → qw.toNat < x.qn.toNat → q.en = true → q.state ≠ .halted → q.head.toNat + 2 ^ q.nl ≤ s1.resv q → False) := fun H =>
  by refine H c0 5 (((tQueue 0 0 (tRun .armed)).updCore c0 fun k => { k with acc := [{ tAccess (.append 0 5) with sk := .l }] }).wrNat 0xD0018 8 2) _ 0 0 5 (som ?_) ?_ ?_ ?_ ?_ ?_ _ _ (som ?_) (som ?_) ?_ ?_ ?_ ?_ <;> decide +kernel
theorem witness_AppendsAndReopening_4 : ¬ (∀ c id (s : State) a ctx qw e, (s.core c).access? id = some a → (s.core c).ctxId = some ctx → a.kind = .append qw e → a.raised = false → mayPerform (s.core c) a = true → s.inAppendOrder c ctx qw = true → let s1 := (if releases a.ord then s.releaseAt c a.asc else s).cross (idieHop c.die); ∀ q x, s1.queue? ctx (BitVec.ofNat 12 qw.toNat) = some q → s1.ctx? ctx = some x → qw.toNat < x.qn.toNat → q.en = true → q.state ≠ .halted → ∀ s2, s1.resv q < q.head.toNat + 2 ^ q.nl → (s1.touch (s1.qdesc ctx q.n) 64).ctxWrite ctx false (q.entryVa (s1.resv q)) (bytesOf (putField e 448 64 (s1.resv q)) 0 64) = (s2, none) → False) := fun H =>
  by refine H c0 5 ((tQueue 0 0 (tRun .armed)).updCore c0 fun k => { k with acc := [{ tAccess (.append 0 5) with sk := .l }] }) _ 0 0 5 (som ?_) ?_ ?_ ?_ ?_ ?_ _ _ (som ?_) (som ?_) ?_ ?_ ?_ _ ?_ (sndEq ?_) <;> decide +kernel
theorem witness_AppendsAndReopening_5 : ¬ (∀ (pa : BitVec 52) (s : State), s.resetting.contains pa.toNat = true → s.notifying pa.toNat = false → False) := fun H =>
  by refine H 128 { tQueue 0 3 (tRun .idle) with resetting := [128] } ?_ ?_ <;> decide +kernel

theorem witness_LaunchStages_0 : ¬ (∀ (ctx : BitVec 10) (n : BitVec 12) (s : State) q x s1 e t p s2 wl s3 b (d : Rec128) s4 lay s5 recs s6 argb, s.queue? ctx n = some q → s.ctx? ctx = some x → s.headOf q = (s1, .entry e) → s1.first q e = true → entKind e = 1 → entIllFormed x e = false → s1.takeEntry q e .running = (t, p) → let wn := bitsOf e.toNat 256 8; let args := bitsOf e.toNat 128 64; t.launchRead ctx (wn ≠ 0) (bitsOf e.toNat 192 64) (2 * wn) = (s2, .ok wl) → (words 2 wn wl).any (4095 < ·) = false → s2.ctxRead ctx false (bitsOf e.toNat 64 64) 128 = (s3, .ok b) → d = BitVec.ofNat 1024 (leNat b) → s3.launchRead x.id (kdLayn d ≠ 0) (kdLaya d) (8 * kdLayn d) = (s4, .ok lay) → s4.launchRead x.id (kdNrec d ≠ 0) (kdRecs d) (64 * kdNrec d) = (s5, .ok recs) → s5.launchRead x.id (!(levelNums.filter (kdLarg d)).isEmpty && args ≠ 0) args 32 = (s6, .ok argb) → firstRefused (launchChecks d args (s6.sram x) (.ok lay) (.ok recs) (.ok argb) []) = none → False) := fun H =>
  by refine H 0 0 (tQueue (tEntryOf 1 (2 ^ 64 * 128)) tKernel (tRun .armed)) _ _ _ (BitVec.ofNat 512 (tEntryOf 1 (2 ^ 64 * 128))) _ _ _ _ _ _ (BitVec.ofNat 1024 tKernel) _ _ _ _ _ _ (som ?_) (som ?_) (sndEq ?_) ?_ ?_ ?_ pr (okR ?_) ?_ (okR ?_) ?_ (okR ?_) (okR ?_) (okR ?_) ?_ <;> decide +kernel
theorem witness_LaunchStages_1 : ¬ (∀ (ctx : BitVec 10) (n : BitVec 12) (s : State) l q x, s.launch? ctx n = some l → s.queue? ctx n = some q → s.ctx? ctx = some x → l.stage = .versioning → s.interlocked l = false → let at' := fun (h : BitVec 12) => x.hroot.toNat + 32 * h.toNat; let u := l.handles.foldl (fun t h => t.touch (at' h) 32) s; let single := l.handles.filter fun h => u.rdNat (at' h) 1 / 8 % 2 = 0; single.all (fun h => u.rdNat (at' h + 24) 4 ≠ 0xFFFFFFFF) = true → False) := fun H =>
  by refine H 0 0 { tQueue 0 (3 + 2 ^ 64 * 5) ({ tRun .running with head := 1, entry := some 1 }) with launches := [{ tLaunch .versioning with dbar := 0 }] } _ _ _ (som ?_) (som ?_) (som ?_) ?_ ?_ ?_ <;> decide +kernel
theorem witness_LaunchStages_2 : ¬ (∀ (ctx : BitVec 10) (n : BitVec 12) (s : State) l x, s.launch? ctx n = some l → l.stage = .advanced → s.ctx? ctx = some x → x.state = .active → False) := fun H =>
  by refine H 0 0 { tQueue 0 (3 + 2 ^ 64 * 5) ({ tRun .running with head := 1, entry := some 1 }) with launches := [{ tLaunch .advanced with dbar := 0 }] } _ _ (som ?_) ?_ (som ?_) ?_ <;> decide +kernel
theorem witness_LaunchStages_3 : ¬ (∀ (ctx : BitVec 10) (n : BitVec 12) (s : State) l q, s.launch? ctx n = some l → s.queue? ctx n = some q → l.stage = .completing → l.dbar = 0 → False) := fun H =>
  by refine H 0 0 { tQueue 0 (3 + 2 ^ 64 * 5) ({ tRun .running with head := 1, entry := some 1 }) with launches := [{ tLaunch .completing with dbar := 0 }] } _ _ (som ?_) (som ?_) ?_ ?_ <;> decide +kernel
theorem witness_LaunchStages_4 : ¬ (∀ (ctx : BitVec 10) (n : BitVec 12) (s : State) l q t, s.launch? ctx n = some l → s.queue? ctx n = some q → l.stage = .completing → l.dbar ≠ 0 → q.remote = .none → s.isHeld (.queue q.ctx q.n) = false → s.engineArrive ctx l.dbar.toNat 1 = (t, .done) → ((t.completeEntry q).queue? ctx n).any (·.state = .halted) = false → False) := fun H =>
  by refine H 0 0 { tQueue 0 (3 + 2 ^ 64 * 5) ({ tRun .running with head := 1, entry := some 1 }) with launches := [{ tLaunch .completing with dbar := 128 }] } _ _ _ (som ?_) (som ?_) ?_ ?_ ?_ ?_ (sndEq ?_) ?_ <;> decide +kernel

theorem witness_GroupsPlaced_0 : ¬ (∀ (part : BitVec 6) (d : Fin 4) (s : State) l x, s.placing part d = some l → s.ctx? l.ctx = some x → (l.dieLevel = none → s.batchDie x l = some d) → False) := fun H =>
  by refine H 0 1 { { tQueue 0 (3 + 2 ^ 64 * 5) ({ tRun .running with head := 1, entry := some 1 }) with launches := [{ tLaunch .dispatching with levels := Vector.replicate 8 ⟨.cores, 2, 0⟩ }] } with chips := resetChips.map fun x => (x.1, .inService), parts := probePart.map fun p => { p with cores := 3 } } _ _ (som ?_) (som ?_) ?_ <;> decide +kernel
theorem witness_GroupsPlaced_1 : ¬ (∀ (die : Fin 4) (part : BitVec 6) (s : State) p l x c cs, s.startNext part die = some (p, l, x) → s.coresFor part die l = c :: cs → False) := fun H =>
  by refine H 0 0 { { tQueue 0 (3 + 2 ^ 64 * 5) ({ tRun .running with head := 1, entry := some 1 }) with launches := [{ tLaunch .dispatching with dbar := 0 }] } with chips := resetChips.map fun x => (x.1, .inService), parts := probePart.map fun p => { p with cores := 3 }, placed := [⟨0, 0, 0, 0, 0⟩] } _ _ _ _ _ (som3 ?_) (consEq ?_) <;> decide +kernel
theorem witness_GroupsPlaced_2 : ¬ (∀ (ctx : BitVec 10) (save : Nat) (s : State) v x d c cs, s.saved.find? (fun v => v.ctx = ctx && v.slot = save) = some v → s.ctx? ctx = some x → s.ctxRuns ctx = true → s.stillFits v x = true → s.resumeDie v = some d → s.restoreFirst v d = true → s.placedFirst v d = false → s.freeCores (s.partOf ctx) d = c :: cs → False) := fun H =>
  by refine H 0 0 { tState .a [] with chips := resetChips.map fun x => (x.1, .inService), parts := probePart.map fun p => { p with cores := 3 }, saved := [⟨0, 0, probeGroup, c0, false, (tState .a []).core c0, []⟩] } _ _ 1 _ _ (som ?_) (som ?_) ?_ ?_ ?_ ?_ ?_ (consEq ?_) <;> decide +kernel

theorem witness_TrappingGroups_0 : ¬ (∀ (c : CoreId) (s : State) g p rest, (s.core c).grp = some g → (s.core c).pend = p :: rest → False) := fun H =>
  by refine H c0 (tWith fun k => { k with pend := [⟨{ code := 0x0302 }, .other⟩] }) _ ⟨{ code := 0x0302 }, .other⟩ [] (som ?_) ?_ <;> decide +kernel
theorem witness_TrappingGroups_1 : ¬ (∀ (c : CoreId) (s : State), (s.core c).stat = .trapping false → (s.core c).atRest = true → False) := fun H =>
  by refine H c0 (tWith fun k => { k with stat := .trapping false }) ?_ ?_ <;> decide +kernel
theorem witness_TrappingGroups_2 : ¬ (∀ (ctx : BitVec 10) (arg : Word) (mode : Bool) (s : State) x n g, let c := s.groupAt ctx n; groupArg arg mode = some n → s.ctx? ctx = some x → x.state = .active → s.saved.any (fun v => v.ctx = ctx && v.core.gcmd = some n) = false → (s.core c).grp = some g → g.ctx = ctx → (s.core c).stat = .trapping true → (s.core c).pre = none → mode = true → arg.getLsbD 16 = false → Mails (cmdRecord 0x13 ctx arg 0) s → (s.core c).faults.all (fun p => admitsRetry p.fr.code) = true → False) := fun H =>
  by refine H 0 0 true (tWith fun k => { k with stat := .trapping true, faults := [⟨{ code := 0x0302 }, .other⟩] }) _ c0 _ rfl (som ?_) ?_ ?_ (som ?_) ?_ ?_ ?_ ?_ ?_ (mails ?_) ?_ <;> decide +kernel
theorem witness_TrappingGroups_3 : ¬ (∀ (ctx : BitVec 10) (arg : Word) (mode : Bool) (s : State) x n g, let c := s.groupAt ctx n; groupArg arg mode = some n → s.ctx? ctx = some x → x.state = .active → s.saved.any (fun v => v.ctx = ctx && v.core.gcmd = some n) = false → (s.core c).grp = some g → g.ctx = ctx → (s.core c).stat = .trapping true → (s.core c).pre = none → mode = true → arg.getLsbD 16 = true → Mails (cmdRecord 0x13 ctx arg 0) s → (s.core c).faults.all (fun p => admitsSkip p.fr.code) = true → False) := fun H =>
  by refine H 0 0x10000 true (tWith fun k => { k with stat := .trapping true, faults := [⟨{ code := 0x0302 }, .other⟩] }) _ c0 _ rfl (som ?_) ?_ ?_ (som ?_) ?_ ?_ ?_ ?_ ?_ (mails ?_) ?_ <;> decide +kernel
theorem witness_TrappingGroups_4 : ¬ (∀ (ctx : BitVec 10) (arg : Word) (mode : Bool) (s : State) x n g, let c := s.groupAt ctx n; groupArg arg mode = some n → s.ctx? ctx = some x → x.state = .active → s.saved.any (fun v => v.ctx = ctx && v.core.gcmd = some n) = false → (s.core c).grp = some g → g.ctx = ctx → (s.core c).stat = .trapping true → (s.core c).pre = none → mode = false → Mails (cmdRecord 0x14 ctx arg 0) s → False) := fun H =>
  by refine H 0 0 false (tWith fun k => { k with stat := .trapping true, faults := [⟨{ code := 0x0302 }, .other⟩] }) _ c0 _ rfl (som ?_) ?_ ?_ (som ?_) ?_ ?_ ?_ ?_ (mails ?_) <;> decide +kernel

theorem witness_LinkTraffic_0 : ¬ (∀ (f : Frame) (s : State) l, s.link? f.link = some l → f.fcsOk = true → l.hasKey f.ki = true → f.tagOk = true → ¬ (f.ki ≠ l.rxki ∧ l.win = true ∧ l.winL < f.fn) → l.seen.contains (f.ki, f.fn) = false → f.records.all (fun r => knownOp r.op) = true → (f.records.any isRequest = true → l.takes = true) → (f.records.any (isControl keyUpdateCode) = true → f.ki = (l.window f).rxki → (l.window f).mayInstall = true) → False) := fun H =>
  by refine H ⟨16, 0, 0, 7, false, 0, true, true, none, [tRecord 0x20 0]⟩ { tPeer { tLinkUp with rxKeys := Vector.replicate 2 true } id with cycles := Vector.replicate 4 (2 ^ 29), icycles := (2 ^ 29) } _ (som ?_) ?_ ?_ ?_ ?_ ?_ ?_ ?_ ?_ <;> decide +kernel
theorem witness_LinkTraffic_1 : ¬ (∀ (i : BitVec 11) (ki : Bool) (fn : BitVec 48) (s : State) l f, s.link? i = some l → l.tx.find? (fun f => f.ki = ki && f.fn = fn && s.dueFrame i l f) = some f → f.lost = true ∨ f.retries < 8 → False) := fun H =>
  by refine H 16 false 0 { tPeer { tLinkUp with tx := [⟨false, 0, [⟨tRecord 1 0, 0xFFFF, c0, 5, 0, 0⟩], 7, 0, false, false⟩] } id with cycles := Vector.replicate 4 (2 ^ 29), icycles := (2 ^ 29) } _ _ (som ?_) (som ?_) ?_ <;> decide +kernel
theorem witness_LinkTraffic_2 : ¬ (∀ (i : BitVec 11) (ki : Bool) (fn : BitVec 48) (s : State) l f, s.link? i = some l → l.tx.find? (fun f => f.ki = ki && f.fn = fn && s.dueFrame i l f) = some f → f.lost = false → 8 ≤ f.retries → False) := fun H =>
  by refine H 16 false 0 { tPeer { tLinkUp with tx := [⟨false, 0, [⟨tRecord 1 0, 0xFFFF, c0, 5, 0, 0⟩], 8, 0, false, false⟩] } id with cycles := Vector.replicate 4 (2 ^ 29), icycles := (2 ^ 29) } _ _ (som ?_) (som ?_) ?_ ?_ <;> decide +kernel
theorem witness_LinkTraffic_3 : ¬ (∀ (i : BitVec 11) (s : State) l, s.link? i = some l → (l.state = .up ∨ l.state = .waking) → l.sentAt + 4096 ≤ s.linkClock i → False) := fun H =>
  by refine H 16 { tPeer { tLinkUp with sentAt := 0 } id with cycles := Vector.replicate 4 (2 ^ 29), icycles := (2 ^ 29) } _ (som ?_) (.inl ?_) ?_ <;> decide +kernel
theorem witness_LinkTraffic_4 : ¬ (∀ (i : BitVec 11) (s : State) l, s.link? i = some l → (l.state = .up ∨ l.state = .waking) → s.linkClock i < l.sentAt + 4096 → isDieLink i = true → l.far.sentAt + 4096 ≤ s.farClock i → False) := fun H =>
  by refine H 0 { State.reset with cycles := Vector.replicate 4 (2 ^ 29), icycles := 2 ^ 29, links := [(0, { LinkEnd.reset true 1 with state := .up, sentAt := 2 ^ 29 })] } _ (som ?_) (.inl ?_) ?_ ?_ ?_ <;> decide +kernel
theorem witness_LinkTraffic_5 : ¬ (∀ i (s : State) l, s.link? i = some l → ∀ t, l.listensFrom false = some t → isDieLink i = false → t + l.hbb.toNat ≤ s.linkClock i → False) := fun H =>
  by refine H 16 { tPeer { tLinkUp with heardAt := 0 } id with cycles := Vector.replicate 4 (2 ^ 29), icycles := (2 ^ 29) } _ (som ?_) 0 ?_ ?_ ?_ <;> decide +kernel
theorem witness_LinkTraffic_6 : ¬ (∀ i (s : State) l, s.link? i = some l → ∀ t far a b, linkEnds i = [a, b] → l.listensFrom far = some t → t + l.hbb.toNat ≤ (if far then s.farClock i else s.linkClock i) → False) := fun H =>
  by refine H 9 { State.reset with cycles := Vector.replicate 4 (2 ^ 29), icycles := 2 ^ 29, links := [(9, { LinkEnd.reset true 1 with state := .up })] } _ (som ?_) 0 true _ _ rfl ?_ ?_ <;> decide +kernel
theorem witness_LinkTraffic_7 : ¬ (∀ (i : BitVec 11) (s : State) l, s.link? i = some l → l.state = .up → (l.trafficAt + 2 ^ 20 ≤ s.linkClock i ∨ (isDieLink i = true ∧ l.far.trafficAt + 2 ^ 20 ≤ s.farClock i)) → False) := fun H =>
  by refine H 0 { State.reset with cycles := Vector.replicate 4 (2 ^ 29), icycles := 2 ^ 29, links := [(0, { LinkEnd.reset true 1 with state := .up, trafficAt := 2 ^ 29 })] } _ (som ?_) ?_ (.inr ?_) <;> decide +kernel
theorem witness_LinkTraffic_8 : ¬ (∀ (i : BitVec 11) (s : State) l, s.link? i = some l → l.state = .sleeping → s.trafficDue i l = true → False) := fun H =>
  by refine H 16 { tPeer { tLinkUp with state := .sleeping, snoops := [⟨0, 0, false⟩] } id with cycles := Vector.replicate 4 (2 ^ 29), icycles := (2 ^ 29) } _ (som ?_) ?_ ?_ <;> decide +kernel
theorem witness_LinkTraffic_9 : ¬ (∀ (i : BitVec 11) (s : State) l, s.link? i = some l → l.state = .waking → False) := fun H =>
  by refine H 16 { tPeer { tLinkUp with state := .waking } id with cycles := Vector.replicate 4 (2 ^ 29), icycles := (2 ^ 29) } _ (som ?_) ?_ <;> decide +kernel
theorem witness_LinkTraffic_10 : ¬ (∀ (i : BitVec 11) (s : State) l, s.link? i = some l → ∀ w, l.snoops.find? (fun w => !l.overdue.contains w.line && w.since + l.wakeb.toNat ≤ (if w.far then s.farClock i else s.linkClock i)) = some w → False) := fun H =>
  by refine H 0 { State.reset with cycles := Vector.replicate 4 (2 ^ 29), icycles := 2 ^ 29, links := [(0, { LinkEnd.reset true 1 with state := .sleeping, snoops := [⟨0, 0, true⟩] })] } _ (som ?_) _ (som ?_) <;> decide +kernel

theorem witness_LinkKeysAndTraining_0 : ¬ (∀ (i : BitVec 11) (s : State) l, s.link? i = some l → l.state = .up → l.rolling = false → l.closing = none → 2 ^ 47 ≤ l.fn → False) := fun H =>
  by refine H 16 { tPeer { tLinkUp with fn := 2 ^ 47 } id with cycles := Vector.replicate 4 (2 ^ 29), icycles := (2 ^ 29) } _ (som ?_) ?_ ?_ ?_ ?_ <;> decide +kernel
theorem witness_LinkKeysAndTraining_1 : ¬ (∀ (i : BitVec 11) (s : State) l, s.link? i = some l → l.state = .training → (isDieLink i = true ∨ l.pv ≠ 0) → False) := fun H =>
  by refine H 16 { tPeer { tLinkUp with state := .training } id with cycles := Vector.replicate 4 (2 ^ 29), icycles := (2 ^ 29) } _ (som ?_) ?_ ?_ <;> decide +kernel
theorem witness_LinkKeysAndTraining_2 : ¬ (∀ (i : BitVec 11) (s : State) l, s.link? i = some l → l.state = .training → l.attempts < 15 → False) := fun H =>
  by refine H 16 { tPeer { tLinkUp with state := .training, attempts := 14 } id with cycles := Vector.replicate 4 (2 ^ 29), icycles := (2 ^ 29) } _ (som ?_) ?_ ?_ <;> decide +kernel
theorem witness_LinkKeysAndTraining_3 : ¬ (∀ (i : BitVec 11) (s : State) l, s.link? i = some l → l.state = .training → 15 ≤ l.attempts → False) := fun H =>
  by refine H 16 { tPeer { tLinkUp with state := .training, attempts := 15 } id with cycles := Vector.replicate 4 (2 ^ 29), icycles := (2 ^ 29) } _ (som ?_) ?_ ?_ <;> decide +kernel
theorem witness_LinkKeysAndTraining_4 : ¬ (∀ (i : BitVec 11) (s : State) l, s.link? i = some l → l.state = .keyed → (linkDies i).all (fun d => s.resets[d].isNone) = true → False) := fun H =>
  by refine H 16 { tPeer { tLinkUp with state := .keyed } id with cycles := Vector.replicate 4 (2 ^ 29), icycles := (2 ^ 29) } _ (som ?_) ?_ ?_ <;> decide +kernel
theorem witness_LinkKeysAndTraining_5 : ¬ (∀ (i : BitVec 11) (s : State) l, s.link? i = some l → l.state = .draining → l.tx.any (fun f => !f.lost && f.operates) = false → s.crossing i = false → s.inrecs.any (fun r => r.link = some i) = false → False) := fun H =>
  by refine H 16 { tPeer { tLinkUp with state := .draining } id with cycles := Vector.replicate 4 (2 ^ 29), icycles := (2 ^ 29) } _ (som ?_) ?_ ?_ ?_ ?_ <;> decide +kernel
theorem witness_LinkKeysAndTraining_6 : ¬ (∀ (i : BitVec 11) (s : State) l, s.link? i = some l → False) := fun H =>
  H 16 { tPeer { tLinkUp with pv := 1 } id with cycles := Vector.replicate 4 (2 ^ 29), icycles := (2 ^ 29) } _ (som (by decide +kernel))
theorem witness_LinkKeysAndTraining_7 : ¬ (∀ (i : BitVec 11) (s : State) s1 l, s.takeAnswer i (isControl keyUpdateAckCode) = some s1 → s1.link? i = some l → l.rolling = true → False) := fun H =>
  by refine H 16 { { tPeer { tLinkUp with rolling := true } id with cycles := Vector.replicate 4 (2 ^ 29), icycles := (2 ^ 29) } with inrecs := [⟨some 16, 7, 0, { tRecord 0x21 0 with payload := [keyUpdateAckCode] }, (false, 0)⟩] } _ _ (som ?_) (som ?_) ?_ <;> decide +kernel

theorem witness_LinkCommands_0 : ¬ (∀ (arg : Word) (s : State) l, let r := cmdRecord 0x20 0 arg 0; let i := BitVec.ofNat 11 (bitsOf arg.toNat 0 16); bitsOf arg.toNat 16 4 = 1 → bitsOf arg.toNat 20 44 = 0 → bitsOf arg.toNat 0 16 < 1040 → Mails r s → s.linkRecord i = some l → (rung r s).mayTrain i l = true → False) := fun H =>
  by refine H (0x10010) { tPeer { tLinkUp with state := .dark, v := true } id with cycles := Vector.replicate 4 (2 ^ 29), icycles := (2 ^ 29) } _ ?_ ?_ ?_ (mails ?_) (som ?_) ?_ <;> decide +kernel
theorem witness_LinkCommands_1 : ¬ (∀ (arg : Word) (s : State) l, let r := cmdRecord 0x20 0 arg 0; let i := BitVec.ofNat 11 (bitsOf arg.toNat 0 16); bitsOf arg.toNat 16 4 = 2 → bitsOf arg.toNat 20 44 = 0 → bitsOf arg.toNat 0 16 < 1040 → Mails r s → s.linkRecord i = some l → l.state = .up → False) := fun H =>
  by refine H (0x20010) { tPeer { tLinkUp with state := .up } id with cycles := Vector.replicate 4 (2 ^ 29), icycles := (2 ^ 29) } _ ?_ ?_ ?_ (mails ?_) (som ?_) ?_ <;> decide +kernel
theorem witness_LinkCommands_2 : ¬ (∀ (arg : Word) (s : State) l, let r := cmdRecord 0x20 0 arg 0; let i := BitVec.ofNat 11 (bitsOf arg.toNat 0 16); bitsOf arg.toNat 16 4 = 3 → bitsOf arg.toNat 20 44 = 0 → bitsOf arg.toNat 0 16 < 1040 → Mails r s → s.linkRecord i = some l → l.state = .up → False) := fun H =>
  by refine H (0x30010) { tPeer { tLinkUp with state := .up } id with cycles := Vector.replicate 4 (2 ^ 29), icycles := (2 ^ 29) } _ ?_ ?_ ?_ (mails ?_) (som ?_) ?_ <;> decide +kernel
theorem witness_LinkCommands_3 : ¬ (∀ (arg : Word) (s : State) l, let r := cmdRecord 0x20 0 arg 0; let i := BitVec.ofNat 11 (bitsOf arg.toNat 0 16); bitsOf arg.toNat 16 4 = 4 → bitsOf arg.toNat 20 44 = 0 → bitsOf arg.toNat 0 16 < 1040 → Mails r s → s.linkRecord i = some l → l.state = .sleeping → False) := fun H =>
  by refine H (0x40010) { tPeer { tLinkUp with state := .sleeping } id with cycles := Vector.replicate 4 (2 ^ 29), icycles := (2 ^ 29) } _ ?_ ?_ ?_ (mails ?_) (som ?_) ?_ <;> decide +kernel
theorem witness_LinkCommands_4 : ¬ (∀ (arg : Word) (s : State) l, let r := cmdRecord 0x20 0 arg 0; let i := BitVec.ofNat 11 (bitsOf arg.toNat 0 16); bitsOf arg.toNat 16 4 = 5 → bitsOf arg.toNat 20 44 = 0 → bitsOf arg.toNat 0 16 < 1040 → Mails r s → s.linkRecord i = some l → l.state = .up → l.rolling = false → l.closing = none → False) := fun H =>
  by refine H (0x50010) { tPeer { tLinkUp with rolling := false } id with cycles := Vector.replicate 4 (2 ^ 29), icycles := (2 ^ 29) } _ ?_ ?_ ?_ (mails ?_) (som ?_) ?_ ?_ ?_ <;> decide +kernel
theorem witness_LinkCommands_5 : ¬ (∀ (arg : Word) (s : State) l, let r := cmdRecord 0x20 0 arg 0; let i := BitVec.ofNat 11 (bitsOf arg.toNat 0 16); bitsOf arg.toNat 16 4 = 6 → bitsOf arg.toNat 20 44 = 0 → bitsOf arg.toNat 0 16 < 1040 → Mails r s → s.linkRecord i = some l → l.state = .failed → False) := fun H =>
  by refine H (0x60010) { tPeer { tLinkUp with state := .failed } id with cycles := Vector.replicate 4 (2 ^ 29), icycles := (2 ^ 29) } _ ?_ ?_ ?_ (mails ?_) (som ?_) ?_ <;> decide +kernel

theorem witness_DiesAttestAndReset_0 : ¬ (∀ c v meas (s : State), s.attests c = true → let good := exchangeOk v false = true ∧ s.icycles < s.attestSince c + 2 ^ 28 ∧ s.policyOk (s.measuredFrom c) (chipKind c) (measDigest meas) = true; good → False) := fun H =>
  H .idie ⟨true, true, true, true, true, true⟩ [] { State.reset with policy := [(2, measDigest [])] } (by decide +kernel) ⟨by decide +kernel, by decide +kernel, by simp [State.policyOk, State.policyFor, chipKind, State.reset]⟩
theorem witness_DiesAttestAndReset_1 : ¬ (∀ c v meas (s : State), s.attests c = true → let good := exchangeOk v false = true ∧ s.icycles < s.attestSince c + 2 ^ 28 ∧ s.policyOk (s.measuredFrom c) (chipKind c) (measDigest meas) = true; ¬ good → False) := fun H =>
  by refine H .idie ⟨true, true, true, false, true, true⟩ [] State.reset ?_ (fun h => absurd h.1 ?_) <;> decide +kernel
theorem witness_DiesAttestAndReset_2 : ¬ (∀ c (s : State), s.attests c = true → s.attestSince c + 2 ^ 28 ≤ s.icycles → False) := fun H =>
  by refine H .idie { State.reset with icycles := 2 ^ 28 } ?_ ?_ <;> decide +kernel
theorem witness_DiesAttestAndReset_3 : ¬ (∀ i v meas (s : State) l, s.link? i = some l → isDieLink i = false → l.state = .attesting → let good := exchangeOk v true = true ∧ s.icycles < l.wakeAt + 2 ^ 28 ∧ s.policyOk l.wakeAt 3 (measDigest meas) = true; good → False) := fun H =>
  H 16 ⟨true, true, true, true, true, true⟩ [] { { tPeer { tLinkUp with state := .attesting, wakeAt := 2 ^ 29 - 5 } id with cycles := Vector.replicate 4 (2 ^ 29), icycles := (2 ^ 29) } with policy := [(3, measDigest [])] } _ (som (by decide +kernel)) (by decide +kernel) (by decide +kernel) ⟨by decide +kernel, by decide +kernel, by simp [State.policyOk, State.policyFor, tPeer, tWith, tState, State.updCore, State.setCore, State.placeBundle, State.reset]⟩
theorem witness_DiesAttestAndReset_4 : ¬ (∀ i v meas (s : State) l, s.link? i = some l → isDieLink i = false → l.state = .attesting → let good := exchangeOk v true = true ∧ s.icycles < l.wakeAt + 2 ^ 28 ∧ s.policyOk l.wakeAt 3 (measDigest meas) = true; ¬ good → False) := fun H =>
  by refine H 16 ⟨true, true, true, false, true, true⟩ [] { tPeer { tLinkUp with state := .attesting, wakeAt := 2 ^ 29 - 5 } id with cycles := Vector.replicate 4 (2 ^ 29), icycles := (2 ^ 29) } _ (som ?_) ?_ ?_ (fun h => absurd h.1 ?_) <;> decide +kernel
theorem witness_DiesAttestAndReset_5 : ¬ (∀ i (s : State) l, s.link? i = some l → isDieLink i = false → l.state = .attesting → l.wakeAt + 2 ^ 28 ≤ s.icycles → False) := fun H =>
  by refine H 16 { tPeer { tLinkUp with state := .attesting, wakeAt := 0 } id with cycles := Vector.replicate 4 (2 ^ 29), icycles := (2 ^ 29) } _ (som ?_) ?_ ?_ ?_ <;> decide +kernel
theorem witness_DiesAttestAndReset_6 : ¬ (∀ (arg : Word) (s : State) (d : Fin 4), let r := cmdRecord 0x21 0 arg 0; resetArg arg = some d → arg.getLsbD 8 = false → Mails r s → s.chip (.cdie d) ≠ some .quarantined → s.resets[d] = none → False) := fun H =>
  by refine H 0 State.reset 0 ?_ ?_ (mails ?_) ?_ ?_ <;> decide +kernel
theorem witness_DiesAttestAndReset_7 : ¬ (∀ (arg : Word) (s : State) (d : Fin 4), resetArg arg = some d → arg.getLsbD 8 = false → s.resets[d] = some ⟨false, false⟩ → (∀ c, c.die = d → (s.core c).grp = none) → False) := fun H =>
  H 0 { State.reset with resets := State.reset.resets.set 0 (some ⟨false, false⟩) } 0 (by decide +kernel) (by decide +kernel) (by decide +kernel) (fun c _ => by simp [State.core, State.reset, Core.reset])
theorem witness_DiesAttestAndReset_8 : ¬ (∀ (arg : Word) (s : State) (d : Fin 4), let r := cmdRecord 0x21 0 arg 0; resetArg arg = some d → arg.getLsbD 8 = true → Mails r s → s.chip (.cdie d) ≠ some .quarantined → s.resets[d].any (·.forced) = false → False) := fun H =>
  by refine H 256 State.reset 0 ?_ ?_ (mails ?_) ?_ ?_ <;> decide +kernel
theorem witness_DiesAttestAndReset_9 : ¬ (∀ (d : Fin 4) (v : Exchange) (meas : List (BitVec 512)) (s : State) r, s.resets[d] = some r → r.settled = true → (r.forced = false → (dieLinksOf d).any (fun i => (s.link? i).any (·.state.alive)) = false) → let since := s.attestSince (.cdie d); let good := exchangeOk v false = true ∧ s.icycles < since + 2 ^ 28 ∧ s.policyOk since 0 (measDigest meas) = true; good → False) := fun H =>
  H 0 ⟨true, true, true, true, true, true⟩ [] tRejoin ⟨true, true⟩ rfl (by decide +kernel) nofun ⟨by decide +kernel, by simp [State.policyOk, State.policyFor, tRejoin, State.reset]⟩
theorem witness_DiesAttestAndReset_10 : ¬ (∀ (d : Fin 4) (v : Exchange) (meas : List (BitVec 512)) (s : State) r, s.resets[d] = some r → r.settled = true → (r.forced = false → (dieLinksOf d).any (fun i => (s.link? i).any (·.state.alive)) = false) → let since := s.attestSince (.cdie d); let good := exchangeOk v false = true ∧ s.icycles < since + 2 ^ 28 ∧ s.policyOk since 0 (measDigest meas) = true; ¬ good → False) := fun H =>
  by refine H 0 ⟨true, true, true, false, true, true⟩ [] { State.reset with resets := State.reset.resets.set 0 (some ⟨false, true⟩) } ⟨false, true⟩ rfl ?_ ?_ (fun h => absurd h.1 ?_) <;> decide +kernel
theorem witness_DiesAttestAndReset_11 : ¬ (∀ (d : Fin 4) (v : Exchange) (meas : List Byte) (s : State) r, s.resets[d] = some r → r.settled = true → (r.forced = false → (dieLinksOf d).any (fun i => (s.link? i).any (·.state.alive)) = false) → let since := s.attestSince (.cdie d); s.attests (.cdie d) = false → since + 2 ^ 28 ≤ s.icycles → False) := fun H =>
  by refine H 0 ⟨true, true, true, true, true, true⟩ [] { { State.reset with resets := State.reset.resets.set 0 (some ⟨true, true⟩) } with icycles := 2 ^ 28 } ⟨true, true⟩ rfl ?_ nofun ?_ ?_ <;> decide +kernel

theorem witness_NearMemoryUpkeep_0 : ¬ (∀ (part : BitVec 6) (i : Fin 64) (s : State) c a far near x f n, (s.pgins part)[Config.draw s.freeCtr % (s.pgins part).length]? = some (c, a) → a.kind = .pgin far near → (s.core c).ctxId.bind s.ctx? = some x → (s.pairs.filter (·.part = part)).length < 64 → s.drew.pairLeaves x far near = .ok (f, n) → s.pair? part i = none → let p : SwapPair := ⟨part, i, x.id, f.pa, n.pa, BitVec.ofNat 56 f.va, BitVec.ofNat 56 n.va, f.frame, n.frame, f.size, 0, false, c, a.id⟩; s.drew.unused x.id p.leafOf = true → False) := fun H =>
  by refine H 0 0 (tSwap [{ tAccess (.pgin 0x10000 (some 0)) with sk := .g }] []) _ _ 0x10000 (some 0) _ _ _ (only ?_) ?_ (som ?_) ?_ (ok ?_) ?_ ?_ <;> decide +kernel
theorem witness_NearMemoryUpkeep_1 : ¬ (∀ (part : BitVec 6) (i : Fin 64) (s : State) p, s.pair? part i = some p → let a := p.farB / 128 + p.done; let b := p.nearB / 128 + p.done; p.done < p.lines → s.awaited a = false → s.awaited b = false → (s.farPort part (128 * a)).any (fun n => s.badPorts.getLsbD n) = false → False) := fun H =>
  by refine H 0 0 (tSwap [{ tAccess (.pgin 0x10000 (some 0)) with sk := .g }] [⟨0, 0, 0, 0xC8010, 0xC8000, 0x10000, 0, 2 ^ 30, 0, 65536, 511, false, c0, 5⟩]) _ (som ?_) ?_ ?_ ?_ ?_ <;> decide +kernel
theorem witness_NearMemoryUpkeep_2 : ¬ (∀ (part : BitVec 6) (i : Fin 64) (s : State) p, s.pair? part i = some p → p.lines ≤ p.done → s.unused p.ctx p.leafOf = true → False) := fun H =>
  by refine H 0 0 (tSwap [{ tAccess (.pgin 0x10000 (some 0)) with sk := .g }] [⟨0, 0, 0, 0xC8010, 0xC8000, 0x10000, 0, 2 ^ 30, 0, 65536, 512, false, c0, 5⟩]) _ (som ?_) ?_ ?_ <;> decide +kernel
theorem witness_NearMemoryUpkeep_4 : ¬ (∀ line (s : State) part, s.partAt (128 * line) = some part → s.isNear part (128 * line) = true → False) := fun H =>
  by refine H 4 { State.reset with parts := probePart } _ (som ?_) ?_ <;> decide +kernel
theorem witness_NearMemoryUpkeep_5 : ¬ (∀ line (s : State) part, s.partAt (128 * line) = some part → s.isNear part (128 * line) = true → False) := fun H =>
  by refine H 4 { State.reset with parts := probePart } _ (som ?_) ?_ <;> decide +kernel
theorem witness_NearMemoryUpkeep_6 : ¬ (∀ line (s : State) part, s.partAt (128 * line) = some part → s.isNear part (128 * line) = true → ∀ m, m ≠ 0 → False) := fun H =>
  by refine H 4 { State.reset with parts := probePart } _ (som ?_) ?_ 0x81 ?_ <;> decide +kernel
theorem witness_NearMemoryUpkeep_7 : ¬ (∀ (pc : PseudoChan) (s : State), (s.refreshOf pc).asleep = false → s.mshrs.any (fun m => s.pseudoAt m.line = some pc) = false → False) := fun H =>
  by refine H ⟨0, 0, 0, 0⟩ State.reset ?_ ?_ <;> decide +kernel
theorem witness_NearMemoryUpkeep_8 : ¬ (∀ (pc : PseudoChan) (s : State), ∀ line rest, (s.refreshOf pc).waiting = line :: rest → (s.refreshOf pc).asleep = true → False) := fun H =>
  by refine H ⟨0, 0, 0, 0⟩ { State.reset with refresh := [⟨⟨0, 0, 0, 0⟩, true, [4], 0⟩] } 4 [] ?_ ?_ <;> decide +kernel

theorem witness_ContextCommands_0 : ¬ (∀ (arg : Word) (s : State) id, Mails (cmdRecord 1 0 arg 0) s → s.freeCtx = some id → arg.toNat % 128 = 0 → arg.toNat < 2 ^ 52 → False) := fun H =>
  by refine H 0 State.reset _ (mails ?_) (som ?_) ?_ ?_ <;> decide +kernel
theorem witness_ContextCommands_1 : ¬ (∀ (ctx : BitVec 10) (arg : Word) (s : State) x, s.ctx? ctx = some x → let at' := fun (op : Nat) (a : Word) => rung (cmdRecord op ctx a 0) s; let may := fun (op : Nat) (a : Word) => Mails (cmdRecord op ctx a 0) s; let b := (at' 2 arg).cohRead arg.toNat 4864; let u := (at' 2 arg).touch arg.toNat 4864; may 2 arg → arg.toNat % 64 = 0 → x.state = .creating → bindSlot b = 0 → x.keys[(0 : Fin 16)] = none → bindReserved b = true → (b.drop 4).all (· = 0) = true → u.partAttested (u.ctxPart x) = true → False) := fun H =>
  by refine H 0 0 (tCtx .creating) _ (som ?_) (mails ?_) ?_ ?_ ?_ ?_ ?_ ?_ ?_ <;> decide +kernel
theorem witness_ContextCommands_2 : ¬ (∀ (ctx : BitVec 10) (arg : Word) (s : State) x, s.ctx? ctx = some x → let at' := fun (op : Nat) (a : Word) => rung (cmdRecord op ctx a 0) s; let may := fun (op : Nat) (a : Word) => Mails (cmdRecord op ctx a 0) s; let b := (at' 2 arg).cohRead arg.toNat 4864; ∀ (n : Fin 16), may 2 arg → arg.toNat % 64 = 0 → x.state ≠ .draining → x.state ≠ .destroyed → bindSlot b = n.val → n ≠ 0 → x.keys[n] = none → False) := fun H =>
  by refine H 0 0x3000 ((tCtx .active).wrNat 0x3000 4 3) _ (som ?_) 3 (mails ?_) ?_ ?_ ?_ ?_ ?_ ?_ <;> decide +kernel
theorem witness_ContextCommands_3 : ¬ (∀ (ctx : BitVec 10) (s : State) x, s.ctx? ctx = some x → let at' := fun (op : Nat) (a : Word) => rung (cmdRecord op ctx a 0) s; let may := fun (op : Nat) (a : Word) => Mails (cmdRecord op ctx a 0) s; ∀ y t, (at' 3 0).readDesc x = y → (at' 3 0).touch x.desc.toNat 128 = t → may 3 0 → x.state = .keyed → t.descOk y = true → False) := fun H =>
  by refine H 0 (tCtx .keyed) _ (som ?_) _ _ rfl rfl (mails ?_) ?_ ?_ <;> decide +kernel
theorem witness_ContextCommands_4 : ¬ (∀ (ctx : BitVec 10) (s : State) x, s.ctx? ctx = some x → let at' := fun (op : Nat) (a : Word) => rung (cmdRecord op ctx a 0) s; let may := fun (op : Nat) (a : Word) => Mails (cmdRecord op ctx a 0) s; ∀ y t, (at' 5 0).readDesc x = y → (at' 5 0).touch x.desc.toNat 128 = t → may 5 0 → x.state = .suspended → t.descOk y = true → False) := fun H =>
  by refine H 0 (tCtx .suspended) _ (som ?_) _ _ rfl rfl (mails ?_) ?_ ?_ <;> decide +kernel
theorem witness_ContextCommands_5 : ¬ (∀ (ctx : BitVec 10) (s : State) x, s.ctx? ctx = some x → let may := fun (op : Nat) (a : Word) => Mails (cmdRecord op ctx a 0) s; may 4 0 → x.state = .active → False) := fun H =>
  by refine H 0 (tCtx .active) _ (som ?_) (mails ?_) ?_ <;> decide +kernel
theorem witness_ContextCommands_6 : ¬ (∀ (ctx : BitVec 10) (s : State) x, s.ctx? ctx = some x → let may := fun (op : Nat) (a : Word) => Mails (cmdRecord op ctx a 0) s; may 6 0 → x.state = .active ∨ x.state = .suspended → False) := fun H =>
  by refine H 0 (tCtx .active) _ (som ?_) (mails ?_) (.inl ?_) <;> decide +kernel
theorem witness_ContextCommands_7 : ¬ (∀ (ctx : BitVec 10) (arg : Word) (s : State) x, s.ctx? ctx = some x → let may := fun (op : Nat) (a : Word) => Mails (cmdRecord op ctx a 0) s; ∀ (n : Fin 16), may 9 arg → arg = BitVec.ofNat 64 n.val → x.state ≠ .creating → x.state ≠ .destroyed → False) := fun H =>
  by refine H 0 3 (tCtx .active) _ (som ?_) 3 (mails ?_) ?_ ?_ ?_ <;> decide +kernel
theorem witness_ContextCommands_8 : ¬ (∀ (ctx : BitVec 10) (s : State) x, s.ctx? ctx = some x → let may := fun (op : Nat) (a : Word) => Mails (cmdRecord op ctx a 0) s; may 7 0 → x.state ≠ .destroyed → False) := fun H =>
  by refine H 0 (tCtx .active) _ (som ?_) (mails ?_) ?_ <;> decide +kernel
theorem witness_ContextCommands_9 : ¬ (∀ (ctx : BitVec 10) (s : State) x, s.ctx? ctx = some x → let may := fun (op : Nat) (a : Word) => Mails (cmdRecord op ctx a 0) s; may 8 0 → x.state = .destroyed → False) := fun H =>
  by refine H 0 (tCtx .destroyed) _ (som ?_) (mails ?_) ?_ <;> decide +kernel
theorem witness_ContextCommands_10 : ¬ (∀ (ctx : BitVec 10) (arg : Word) (s : State) x, s.ctx? ctx = some x → let may := fun (op : Nat) (a : Word) => Mails (cmdRecord op ctx a 0) s; ∀ q, may 0x11 arg → arg.toNat < x.qn.toNat → x.state ≠ .creating → x.state ≠ .keyed → x.state ≠ .destroyed → s.queue? ctx (arg.setWidth 12) = some q → q.state = .halted → False) := fun H =>
  by refine H 0 0 { (tCtx .active) with queues := [tRun .halted] } _ (som ?_) _ (mails ?_) ?_ ?_ ?_ ?_ (som ?_) ?_ <;> decide +kernel
theorem witness_ContextCommands_11 : ¬ (∀ (ctx : BitVec 10) (arg : Word) (s : State) x, s.ctx? ctx = some x → let may := fun (op : Nat) (a : Word) => Mails (cmdRecord op ctx a 0) s; may 0x12 arg → bitsOf arg.toNat 56 8 = 0 → x.state ≠ .creating → x.state ≠ .destroyed → s.unused ctx (fun l => l.maps (bitsOf arg.toNat 0 56)) = true → False) := fun H =>
  by refine H 0 0 (tCtx .active) _ (som ?_) (mails ?_) ?_ ?_ ?_ ?_ <;> decide +kernel
theorem witness_ContextCommands_12 : ¬ (∀ (ctx : BitVec 10) (arg : Word) (s : State) x, s.ctx? ctx = some x → let may := fun (op : Nat) (a : Word) => Mails (cmdRecord op ctx a 0) s; may 0x23 arg → arg.toNat < 2 ^ 16 → s.ctxs.all (fun y => y.id = ctx || y.fabTag ≠ some (arg.setWidth 16)) = true → x.state = .creating ∨ x.state = .keyed ∨ x.state = .suspended → False) := fun H =>
  by refine H 0 0 (tCtx .keyed) _ (som ?_) (mails ?_) ?_ ?_ ?_ <;> decide +kernel

theorem witness_ManagementEvents_0 : ¬ (∀ (arg : Word) (s : State) (die : Fin 4) r, Mails (cmdRecord 0x10 0 arg 0) s → bitsOf arg.toNat 2 4 = 0 → die = Fin.ofNat 4 (bitsOf arg.toNat 0 2) → r = partOfBits die (s.rdNat (arg.toNat / 64 * 64) 64) → let u := (rung (cmdRecord 0x10 0 arg 0) s).touch (arg.toNat / 64 * 64) 64; let t : State := { u with parts := (u.parts.filter fun (p : PartRec) => !(p.die = die && p.part = r.part)) ++ (if bitsOf (s.rdNat (arg.toNat / 64 * 64) 64) 230 1 = 1 then [r] else []) }; u.partUsed r.part = false → t.partsOk = true → False) := fun H =>
  by refine H 0x2000 (State.reset.wrNat 0x2000 64 (7 + 2 ^ 96 + 2 ^ 160 + 2 ^ 230)) 0 _ (mails ?_) ?_ ?_ rfl ?_ ?_ <;> decide +kernel
theorem witness_ManagementEvents_1 : ¬ (∀ (arg : Word) (i : Fin 1024) (s : State) e, Mails (cmdRecord 0x22 0 arg (BitVec.ofNat 64 i.val)) s → arg.toNat % 32 = 0 → iatOf (iatClean (s.rdNat arg.toNat 32)) = some e → let u := (rung (cmdRecord 0x22 0 arg (BitVec.ofNat 64 i.val)) s).touch arg.toNat 32; u.iatOk (((u.iat.find? (·.1 = i)).map (·.2)).bind iatOf) e = true → False) := fun H =>
  by refine H 0x2000 5 ((tState .a []).wrNat 0x2000 32 (0x3F + 2 ^ 32 * 7 + 2 ^ 128 * 65536)) _ (mails ?_) ?_ (som ?_) ?_ <;> decide +kernel
theorem witness_ManagementEvents_2 : ¬ (∀ (arg : Word) (s : State) n, Mails (cmdRecord 0x24 0 arg 0) s → arg.toNat % 64 = 0 → leNat ((s.cohRead arg.toNat 16).take 4) = n → 1 ≤ n → n ≤ 1024 → ((s.cohRead arg.toNat 16).drop 4).all (· = 0) = true → let u := (rung (cmdRecord 0x24 0 arg 0) s).touch arg.toNat 16; let b := u.cohRead arg.toNat (16 + 72 * n + 4627); let es := (List.range n).map (policyEntry b); es.all entryOk = true → False) := fun H =>
  by refine H 0x2000 (State.reset.wrNat 0x2000 8 1) 1 (mails ?_) ?_ ?_ ?_ ?_ ?_ ?_ <;> decide +kernel
theorem witness_ManagementEvents_3 : ¬ (∀ (r : Rec64) (s : State), Mails r s → bitsOf r.toNat 0 8 ∉ ctxOpcodes ++ plainOpcodes → False) := fun H =>
  by refine H 0xFF State.reset (mails ?_) ?_ <;> decide +kernel
theorem witness_ManagementEvents_5 : ¬ (∀ (c : Chip) (days : Nat) (s : State), days < (s.ageingOf c).threshold → (s.ageingOf c).below = false → False) := fun H =>
  by refine H (.sdie 2) 49 { State.reset with ageing := [(.sdie 2, ⟨100, 50, false, false, 0⟩)] } ?_ ?_ <;> decide +kernel

theorem witness_SyncBundles_0 : ¬ (∀ (c : CoreId) (s : State) g n s1 b l t, (s.core c).grp = some g → (s.core c).meets = true → ((s.core c).slot .c).pc = n → s.fetch c g n = (s1, .ok b) → syBits b = 0xF → decodeLanes g (s.core c) b = (l, 0) → (s1.core c).tokensFor (l.filterMap fun x => wordHead x.1 x.2) = true → (∀ x ∈ l, (lanesIssue c [x] (s1.bundled c)).isSome = true) → lanesIssue c (laneOrder l) (s1.bundled c) = some t → (t.core c).queuesFit = true → False) := fun H =>
  by refine H c0 tSync probeGroup 0 _ _ _ _ ?_ ?_ ?_ (okR ?_) ?_ (sndEq ?_) ?_ ?_ (som ?_) ?_ <;> decide +kernel
theorem witness_SyncBundles_1 : ¬ (∀ (c : CoreId) (s : State) g s1 b (h : Slot → Head), (s.core c).grp = some g → (s.core c).meets = true → s.fetch c g ((s.core c).slot .c).pc = (s1, .ok b) → (s1.core c).meets = true → (s1.core c).queuesFit = true → syBits b = 0xF → (∀ sl, decode sl (laneOf b sl) = .ok (.nop (h sl)) ∧ (h sl).sbw = 0 ∧ (h sl).sbs = none ∧ (h sl).qx = none) → False) := fun H =>
  H c0 tSync probeGroup _ _ (fun _ => { gs := 0, sy := true }) (by decide +kernel) (by decide +kernel) (okR (by decide +kernel)) (by decide +kernel) (by decide +kernel) (by decide +kernel) (fun sl => ⟨okIs (by cases sl <;> decide +kernel), rfl, rfl, rfl⟩)
theorem witness_SyncBundles_2 : ¬ (∀ (c : CoreId) (s : State) g sl t, (s.core c).grp = some g → firstOf (s.core c).arrivals = some (sl, t) → (s.core c).stat = .running → (s.core c).pre = none → t + g.rzb ≤ s.cycle c.die → False) := fun H =>
  by refine H c0 { tSync with cycles := Vector.replicate 4 1024 } probeGroup _ _ ?_ (som2 ?_) ?_ ?_ ?_ <;> decide +kernel

theorem witness_MemoryWrites_0 : ¬ (∀ (s t : State) (a : Nat) (l : List Byte), Memory.wf s.mem = true → s.cohWrite a l = t →
    ∀ d, (d < a ∨ a + l.length ≤ d) → False) := fun H =>
  H State.reset _ 5 [1, 2] (by decide +kernel) rfl 7 (.inr (by decide))

theorem witness_MemoryWrites_1 : ¬ (∀ (s : State) (part : BitVec 6) (line : Nat), (s.ownLine line).isSome = true ∨
    (s.sliceLines (s.ordDie part line) (s.homeSlice part (s.ordDie part line) (128 * line))).length < 8192 → False) := fun H =>
  H (State.reset.placeBundle .a 0) 0 5 (.inr (by decide +kernel))

theorem witness_MemoryWrites_2 : ¬ (∀ (s t s1 : State) (part : BitVec 6) (w : Stamping) (pa : Nat) (b : List Byte) (stream : Bool)
    (l : SliceLine), s.redirect part pa = pa → pa % 128 + b.length ≤ 128 →
    (∀ a, pa ≤ a → a < pa + b.length → s.ctxs.findSome? (·.fieldMap? a) = none) →
    s.ensureSectors part (lineOf pa) stream (sectorMask (partialSectors (atOffset (pa % 128) b))) = s1 →
    s1.ownLine (lineOf pa) = some l → keyIs l.key w.key = true → s.writeLine part w pa b stream = .ok t → False) := fun H =>
  H { State.reset.placeBundle .a 0 with ctxs := [] } _ _ 0 ⟨⟨0, 0, 0⟩, 0, true⟩ 126 [1, 2] false _ (by decide +kernel) (by decide +kernel)
    (fun a _ _ => rfl) rfl (som (by decide +kernel)) (by decide +kernel) (okE (by decide +kernel))

theorem witness_IssueRules_0 : ¬ (∀ sl i (h : Head) n p (s : State), Instr.lane sl i = some (h, n, p) → s.here.mayIssue s.cur.2 = false → False) := fun H =>
  by refine H .a (.nop {}) _ _ _ State.reset (som3 ?_) ?_ <;> decide +kernel
theorem witness_IssueRules_1 : ¬ (∀ sl i (h : Head) n p (s : State), Instr.lane sl i = some (h, n, p) → (∀ g, i ≠ .nop g) → ((s.here.slot s.cur.2).failed = true → ∀ g o, i ≠ .bararv g o) → s.here.mayIssue s.cur.2 = true → schedReady h (!guardOf h (s.here.slot s.cur.2)) s.here s.cur.2 = false → False) := fun H =>
  by refine H .a (.fence { qx := some 0 } ⟨ordG, true⟩) _ _ _ (tWith fun k => { k with d := Vector.replicate 8 0 }) (som3 ?_) nofun (fun _ => fenceNotBar _ _) ?_ ?_ <;> decide +kernel
theorem witness_IssueRules_2 : ¬ (∀ sl i (h : Head) n p (s : State), Instr.lane sl i = some (h, n, p) → (∀ g, i ≠ .nop g) → ((s.here.slot s.cur.2).failed = true → ∀ g o, i ≠ .bararv g o) → Suppressed h s → False) := fun H =>
  H .a (.fence { gs := 3 } ⟨ordG, true⟩) _ _ _ (tState .a []) (som3 (by decide +kernel)) nofun (fun _ => fenceNotBar _ _) (by decide +kernel : _ ∧ _ ∧ _)
theorem witness_IssueRules_3 : ¬ (∀ sl i (h : Head) n p (s : State), Instr.lane sl i = some (h, n, p) → ∀ g, i = .nop g → s.here.mayIssue s.cur.2 = true → schedReady h false s.here s.cur.2 = false → False) := fun H =>
  by refine H .a _ _ _ _ (tWith fun k => { k with d := Vector.replicate 8 0 }) (som3 ?_) { qx := some 0 } rfl ?_ ?_ <;> decide +kernel

theorem witness_OperandAndAddressForms_0 : ¬ (∀ (o : Operand) (n : Fin 64) (s : State), o.name = .s n → False) := fun H =>
  H (rS 63) 63 (tState .c [(1, 0x100)]) rfl
theorem witness_OperandAndAddressForms_5 : ¬ (∀ (o : Operand) (n : Fin 32) (s : State) (l : List (QEntry 64)) (r : List (QEntry 64)) (e : QEntry 64), o.name = .q n → 12 ≤ n.val → s.here.q[scalarQ n.val] = l ++ e :: r → (∀ x ∈ l, x.marked = true ∨ x.fresh = true) → e.marked = false → e.fresh = false → ∀ v, e.data = some v → False) := fun H =>
  by refine H (rQ 13) 13 (tState .c [(1, 0x100)]) [] [] ⟨0, some 7, false, false⟩ rfl ?_ ?_ nofun ?_ ?_ 7 rfl <;> decide +kernel
theorem witness_OperandAndAddressForms_6 : ¬ (∀ (o : Operand) (n : Fin 32) (s : State) (l : List (QEntry 64)) (r : List (QEntry 64)) (e : QEntry 64), o.name = .q n → 12 ≤ n.val → s.here.q[scalarQ n.val] = l ++ e :: r → (∀ x ∈ l, x.marked = true ∨ x.fresh = true) → e.marked = false → e.fresh = false → e.data = none → False) := fun H =>
  by refine H (rQ 13) 13 (tWith fun k => { k with q := Vector.replicate 20 [⟨0, none, false, false⟩] }) [] [] ⟨0, none, false, false⟩ rfl ?_ ?_ nofun ?_ ?_ rfl <;> decide +kernel
theorem witness_OperandAndAddressForms_7 : ¬ (∀ (o : Operand) (n : Fin 32) (s : State), o.name = .q n → 12 ≤ n.val → (∀ x ∈ s.here.q[scalarQ n.val], x.marked = true ∨ x.fresh = true) → False) := fun H =>
  by refine H (rQ 13) 13 (tWith fun k => { k with q := Vector.replicate 20 [⟨0, some 7, false, true⟩] }) rfl ?_ ?_ <;> decide +kernel
theorem witness_OperandAndAddressForms_10 : ¬ (∀ (o : Operand) (n : Fin 32) (v : Word) (s : State), o.name = .q n → 12 ≤ n.val → s.here.bundling = false → False) := fun H =>
  by refine H (rQ 13) 13 9 (tState .c [(1, 0x100)]) rfl ?_ ?_ <;> decide +kernel
theorem witness_OperandAndAddressForms_11 : ¬ (∀ (ad : Addr) (s : State) a s1 s2 e, readS ad.fa s = .ok (a, s1) → s1.handleEntry s1.cur.1 ad.hdl = (s2, e) → handleOf ad.hdl e = none → False) := fun H =>
  by refine H ⟨rS 1, 4095, 0⟩ (tState .a [(1, 0x100)]) _ _ _ _ (ok ?_) pr ?_ <;> decide +kernel
theorem witness_OperandAndAddressForms_12 : ¬ (∀ (ad : Addr) (s : State) a s1 s2 e, readS ad.fa s = .ok (a, s1) → s1.handleEntry s1.cur.1 ad.hdl = (s2, e) → ∀ hd, handleOf ad.hdl e = some hd → ∀ (o : Int), o = a.toInt + ad.off.toInt → False) := fun H =>
  by refine H ⟨rS 1, 1, 0⟩ (tState .a [(1, 0x100)]) _ _ _ _ (ok ?_) pr _ (som ?_) _ rfl <;> decide +kernel

theorem witness_ScalarWordsFrame_add : ¬ (∀ (s t : State), Sys2Proof.Machine.exec (.add {} ⟨.i64, rS 4, rS 1, .reg (rS 2)⟩) s = .next t → NoFault s t → False) := fun H =>
  H (tState .c [(1, 0x100), (2, 3), (3, 0)]) _ (nx (by decide +kernel)) ⟨by decide +kernel, by decide +kernel⟩

theorem witness_ScalarWordsFrame_popc : ¬ (∀ (s t : State), Sys2Proof.Machine.exec (.popc {} ⟨.i64, rS 4, rS 1⟩) s = .next t → NoFault s t → False) := fun H =>
  H (tState .c [(1, 0x100), (2, 3), (3, 0)]) _ (nx (by decide +kernel)) ⟨by decide +kernel, by decide +kernel⟩

theorem witness_ScalarWordsFrame_movi : ¬ (∀ (s t : State), Sys2Proof.Machine.exec (.movi {} ⟨.i64, rS 63, 0xFFFFFFFF⟩) s = .next t → NoFault s t → False) := fun H =>
  H (tState .c [(1, 0x100), (2, 3), (3, 0)]) _ (nx (by decide +kernel)) ⟨by decide +kernel, by decide +kernel⟩

theorem witness_ScalarWordsFrame_sel : ¬ (∀ (s t : State), Sys2Proof.Machine.exec (.sel {} ⟨.i64, rQ 20, rS 1, rQ 13, rS 3⟩) s = .next t → NoFault s t → False) := fun H =>
  H (tState .c [(1, 0x100), (2, 3), (3, 0)]) _ (nx (by decide +kernel)) ⟨by decide +kernel, by decide +kernel⟩

theorem witness_ScalarWordsFrame_cmp : ¬ (∀ (s t : State), Sys2Proof.Machine.exec (.cmp {} ⟨.n64, rP 15, rS 1, .imm 7, .lt, .set⟩) s = .next t → NoFault s t → False) := fun H =>
  H (tState .c [(1, 0x100), (2, 3), (3, 0)]) _ (nx (by decide +kernel)) ⟨by decide +kernel, by decide +kernel⟩

theorem witness_ScalarWordsFrame_qcnt : ¬ (∀ (s t : State), Sys2Proof.Machine.exec (.qcnt {} ⟨rS 4, rQ 13⟩) s = .next t → NoFault s t → False) := fun H =>
  H (tState .c [(1, 0x100), (2, 3), (3, 0)]) _ (nx (by decide +kernel)) ⟨by decide +kernel, by decide +kernel⟩

theorem witness_ScalarWordsFrame_rdcyc : ¬ (∀ (s t : State), Sys2Proof.Machine.exec (.rdcyc {} (rS 4)) s = .next t → NoFault s t → False) := fun H =>
  H (tState .c [(1, 0x100), (2, 3), (3, 0)]) _ (nx (by decide +kernel)) ⟨by decide +kernel, by decide +kernel⟩

theorem witness_ScalarWordsFrame_rdsys : ¬ (∀ (s t : State), Sys2Proof.Machine.exec (.rdsys {} ⟨rS 4, 0x002⟩) s = .next t → NoFault s t → False) := fun H =>
  H (tState .c [(1, 0x100), (2, 3), (3, 0)]) _ (nx (by decide +kernel)) ⟨by decide +kernel, by decide +kernel⟩

theorem witness_ScalarWordsFrame_br : ¬ (∀ (s t : State), Sys2Proof.Machine.exec (.br {} ⟨rS 2, 5, .nz⟩) s = .next t → NoFault s t → False) := fun H =>
  H (tState .c [(1, 0x100), (2, 3), (3, 0)]) _ (nx (by decide +kernel)) ⟨by decide +kernel, by decide +kernel⟩

theorem witness_ScalarWordsFrame_brx : ¬ (∀ (s t : State), Sys2Proof.Machine.exec (.brx {} ⟨rS 1, rS 2, .nz⟩) s = .next t → NoFault s t → False) := fun H =>
  H (tState .c [(1, 0x100), (2, 3), (3, 0)]) _ (nx (by decide +kernel)) ⟨by decide +kernel, by decide +kernel⟩

theorem witness_ScalarWordsFrame_call : ¬ (∀ (s t : State), Sys2Proof.Machine.exec (.call {} ⟨rS 4, 5⟩) s = .next t → NoFault s t → False) := fun H =>
  H (tState .c [(1, 0x100), (2, 3), (3, 0)]) _ (nx (by decide +kernel)) ⟨by decide +kernel, by decide +kernel⟩

theorem witness_ScalarWordsFrame_ret : ¬ (∀ (s t : State), Sys2Proof.Machine.exec (.ret {} (rS 1)) s = .next t → NoFault s t → False) := fun H =>
  H (tState .c [(1, 0x100), (2, 3), (3, 0)]) _ (nx (by decide +kernel)) ⟨by decide +kernel, by decide +kernel⟩

theorem witness_ScalarWordsFrame_lpset : ¬ (∀ (s t : State), Sys2Proof.Machine.exec (.lpset {} ⟨rS 2, 5⟩) s = .next t → NoFault s t → False) := fun H =>
  H (tState .c [(1, 0x100), (2, 3), (3, 0)]) _ (nx (by decide +kernel)) ⟨by decide +kernel, by decide +kernel⟩

theorem witness_ScalarWordsFrame_lpend : ¬ (∀ (s t : State), Sys2Proof.Machine.exec (.lpend {}) s = .next t → NoFault s t → False) := fun H =>
  H ((tState .c []).updCore ⟨0, 0⟩ (·.updSlot .c fun t => { t with loops := [⟨0, 0, 2⟩] })) _ (nx (by decide +kernel)) ⟨by decide +kernel, by decide +kernel⟩

theorem witness_ScalarWordsFrame_lpendExit : ¬ (∀ (s t : State), Sys2Proof.Machine.exec (.lpendExit {} 9) s = .next t → NoFault s t → False) := fun H =>
  H ((tState .c []).updCore ⟨0, 0⟩ (·.updSlot .c fun t => { t with loops := [⟨0, 0, 2⟩] })) _ (nx (by decide +kernel)) ⟨by decide +kernel, by decide +kernel⟩

theorem witness_IssueWordsFrame_ld : ¬ (∀ (s t : State), Sys2Proof.Machine.exec (.ld {} ⟨.n64, rQ 12, ⟨rS 1, 1, 0⟩, ordG⟩) s = .next t → NoFault s t → False) := fun H =>
  H (tState .a [(1, 0x100), (2, 3), (3, 0)]) _ (nx (by decide +kernel)) ⟨by decide +kernel, by decide +kernel⟩

theorem witness_IssueWordsFrame_stl : ¬ (∀ (s t : State), Sys2Proof.Machine.exec (.stl {} ⟨.n32, rS 2, ⟨rS 1, 0, 0⟩, ordL⟩) s = .next t → NoFault s t → False) := fun H =>
  H (tState .a [(1, 0x100), (2, 3), (3, 0)]) _ (nx (by decide +kernel)) ⟨by decide +kernel, by decide +kernel⟩

theorem witness_IssueWordsFrame_ldq : ¬ (∀ (s t : State), Sys2Proof.Machine.exec (.ldq {} ⟨rQ 0, ⟨rS 1, 1, 0⟩, ordG⟩) s = .next t → NoFault s t → False) := fun H =>
  H (tState .a [(1, 0x1000)]) _ (nx (by decide +kernel)) ⟨by decide +kernel, by decide +kernel⟩

theorem witness_IssueWordsFrame_fence : ¬ (∀ (s t : State), Sys2Proof.Machine.exec (.fence {} ⟨ordG, true⟩) s = .next t → NoFault s t → False) := fun H =>
  H (tState .a [(1, 0x100), (2, 3), (3, 0)]) _ (nx (by decide +kernel)) ⟨by decide +kernel, by decide +kernel⟩

theorem witness_IssueWordsFrame_qjoin : ¬ (∀ (s t : State), Sys2Proof.Machine.exec (.qjoin {} 0x3F) s = .next t → NoFault s t → False) := fun H =>
  H (tState .a [(1, 0x100), (2, 3), (3, 0)]) _ (nx (by decide +kernel)) ⟨by decide +kernel, by decide +kernel⟩

theorem witness_IssueWordsFrame_msend : ¬ (∀ (s t : State), Sys2Proof.Machine.exec (.msend {} ⟨rS 4, zero, rS 1, 248⟩) s = .next t → NoFault s t → False) := fun H =>
  H (tLocal 0x11010 8 4 (tState .a [(1, 0x100), (2, 8)])) _ (nx (by decide +kernel)) ⟨by decide +kernel, by decide +kernel⟩

theorem witness_IssueWordsFrame_fwr : ¬ (∀ (s t : State), Sys2Proof.Machine.exec (.fwr {} ⟨rS 2, rS 1, ⟨zero, 3, 0⟩, ordG, none⟩) s = .next t → NoFault s t → False) := fun H =>
  H (tState .a [(1, 0x100), (2, 8)]) _ (nx (by decide +kernel)) ⟨by decide +kernel, by decide +kernel⟩

theorem witness_IssueWordsFrame_freq : ¬ (∀ (s t : State), Sys2Proof.Machine.exec (.freq {} ⟨rS 4, zero, rS 1, 248, none, some 1⟩) s = .next t → NoFault s t → False) := fun H =>
  H (tState .a [(1, 0x100), (2, 8)]) _ (nx (by decide +kernel)) ⟨by decide +kernel, by decide +kernel⟩

theorem witness_IssueWordsFrame_fatom : ¬ (∀ (s t : State), Sys2Proof.Machine.exec (.fatom {} ⟨.n64, .add, some (rS 4), rS 2, ⟨zero, 3, 8⟩, ordG⟩) s = .next t → NoFault s t → False) := fun H =>
  H (tState .a [(1, 0x100), (2, 8)]) _ (nx (by decide +kernel)) ⟨by decide +kernel, by decide +kernel⟩

theorem witness_IssueWordsFrame_lzput : ¬ (∀ (s t : State), Sys2Proof.Machine.exec (.lzput {} ⟨rS 4, rS 1, 0, zero, ordG, none⟩) s = .next t → NoFault s t → False) := fun H =>
  H (tLocal 0x100 32 (1 + 2 ^ 96 * 32768) (tState .a [(1, 0x100)])) _ (nx (by decide +kernel)) ⟨by decide +kernel, by decide +kernel⟩

theorem witness_IssueWordsFrame_barinit : ¬ (∀ (s t : State), Sys2Proof.Machine.exec (.barinit {} ⟨rS 4, rS 2, .count, true, ⟨rS 1, 1, 0⟩, ordG⟩) s = .next t → NoFault s t → False) := fun H =>
  H (tState .a [(1, 0x100), (2, 3), (3, 0)]) _ (nx (by decide +kernel)) ⟨by decide +kernel, by decide +kernel⟩

theorem witness_IssueWordsFrame_bararv : ¬ (∀ (s t : State), Sys2Proof.Machine.exec (.bararv {} ⟨some (rS 4), one, true, false, ⟨rS 1, 1, 0⟩, ordG⟩) s = .next t → NoFault s t → False) := fun H =>
  H (tState .a [(1, 0x100), (2, 3), (3, 0)]) _ (nx (by decide +kernel)) ⟨by decide +kernel, by decide +kernel⟩

theorem witness_IssueWordsFrame_bartst : ¬ (∀ (s t : State), Sys2Proof.Machine.exec (.bartst {} ⟨rS 4, true, ⟨rS 1, 0, 0⟩, ordL⟩) s = .next t → NoFault s t → False) := fun H =>
  H (tState .a [(1, 0x100), (2, 3), (3, 0)]) _ (nx (by decide +kernel)) ⟨by decide +kernel, by decide +kernel⟩

theorem witness_IssueWordsFrame_pgpf : ¬ (∀ (s t : State), Sys2Proof.Machine.exec (.pgpf {} ⟨rS 4, ⟨rS 1, 1, 0⟩, ordG⟩) s = .next t → NoFault s t → False) := fun H =>
  H (tState .a [(1, 0x100), (2, 3), (3, 0)]) _ (nx (by decide +kernel)) ⟨by decide +kernel, by decide +kernel⟩

theorem witness_IssueWordsFrame_pgin : ¬ (∀ (s t : State), Sys2Proof.Machine.exec (.pgin {} ⟨rS 4, one, ⟨rS 1, 1, 0⟩, ordG⟩) s = .next t → NoFault s t → False) := fun H =>
  H (tState .a [(1, 0x100), (2, 3), (3, 0)]) _ (nx (by decide +kernel)) ⟨by decide +kernel, by decide +kernel⟩

theorem witness_IssueWordsFrame_launch : ¬ (∀ (s t : State), Sys2Proof.Machine.exec (.launch {} ⟨rS 4, zero, ⟨rS 1, 1, 0⟩, true, 0, ordG⟩) s = .next t → NoFault s t → False) := fun H =>
  H (tState .a [(1, 0x100), (2, 3), (3, 0)]) _ (nx (by decide +kernel)) ⟨by decide +kernel, by decide +kernel⟩

theorem witness_IssueWordsFrame_qentry : ¬ (∀ (s t : State), Sys2Proof.Machine.exec (.qentry {} ⟨rS 4, zero, rS 1, 0, ordL⟩) s = .next t → NoFault s t → False) := fun H =>
  H (tState .a [(1, 0x100), (2, 3), (3, 0)]) _ (nx (by decide +kernel)) ⟨by decide +kernel, by decide +kernel⟩

theorem roomyOf {k : Core} (h : k.v.all (fun p => p.2.isResident) = true) (g : ∀ x, k.grp = some x → k.residents.length + 8 ≤ x.regs) :
    k.roomy := by
  refine ⟨fun n l e => ?_, g⟩
  simp only [Core.vloc, Option.map_eq_some_iff] at e
  obtain ⟨p, hp, rfl⟩ := e
  exact (List.all_eq_true.1 h) p (List.mem_of_find?_eq_some hp)

theorem witness_VectorWordsFrame : ¬ (∀ i h d srcs s t, vecParts i = some (h, d, srcs) → s.here.roomy →
    Sys2Proof.Machine.exec i s = .next t → NoFault s t → False) := fun H =>
  H (.vadd {} ⟨.f32, .rne, false, rV 30, rV 8, .reg (rV 9)⟩) _ _ _ (tState .v []) _ (som3 (by decide +kernel))
    (roomyOf (by decide +kernel) fun x e => by cases e; decide +kernel) (nx (by decide +kernel)) ⟨by decide +kernel, by decide +kernel⟩

theorem witness_LaneWordsStayOnTheirCore : ¬ (∀ sl i x s t, Instr.lane sl i = some x → Sys2Proof.Machine.exec i s = .next t →
    ∀ other, other ≠ s.cur.2 → False) := fun H =>
  H .c (.add {} ⟨.i64, rS 4, rS 1, .reg (rS 2)⟩) _ (tState .c [(1, 1)]) _ (som (by decide +kernel)) (nx (by decide +kernel)) .m (by decide +kernel)

theorem witness_FaultTaken_0 : ¬ (∀ (c : CoreId) (f : FaultRec) (op : FaultOp) (s : State) (t : State) (g : GroupInfo) (x : Context) (tail : Nat) (at_ : Nat), raiseFault c f op s = t → (s.core c).grp = some g → s.ctx? g.ctx = some x → Memory.wf s.mem = true → x.errTail.toNat = tail → x.errB.toNat + 64 + 64 * (tail % x.errN.toNat) = at_ → False) := fun H =>
  by refine H c0 { code := 0x0104 } .rendezvous (tState .a []) _ _ _ _ _ rfl (som ?_) (som ?_) ?_ rfl rfl <;> decide +kernel
theorem witness_FaultTaken_room : ¬ (∀ (s : State) (x : Context) (tail : Nat), s.ctx? 0 = some x → x.errTail.toNat = tail →
    tail < s.rdNat (x.errB.toNat + 8) 8 + x.errN.toNat → False) := fun H =>
  H (tState .a []) _ _ (som (by decide +kernel)) rfl (by decide +kernel)

theorem witness_FaultTaken_3 : ¬ (∀ (c : CoreId) (f : FaultRec) (op : FaultOp) (s : State) (t : State) (g : GroupInfo) (x : Context) (tail : Nat) (at_ : Nat), raiseFault c f op s = t → (s.core c).grp = some g → s.ctx? g.ctx = some x → Memory.wf s.mem = true → x.errTail.toNat = tail → x.errB.toNat + 64 + 64 * (tail % x.errN.toNat) = at_ → s.rdNat (x.errB.toNat + 8) 8 + x.errN.toNat ≤ tail → False) := fun H =>
  by refine H c0 { code := 0x0104 } .rendezvous ((tState .a []).updCtx 0 fun x => { x with errTail := 64 }) _ _ _ _ _ rfl (som ?_) (som ?_) ?_ rfl rfl ?_ <;> decide +kernel
theorem witness_FaultTaken_4 : ¬ (∀ (c : CoreId) (f : FaultRec) (op : FaultOp) (s : State) (t : State) (g : GroupInfo) (x : Context) (tail : Nat) (at_ : Nat), raiseFault c f op s = t → (s.core c).grp = some g → s.ctx? g.ctx = some x → Memory.wf s.mem = true → x.errTail.toNat = tail → x.errB.toNat + 64 + 64 * (tail % x.errN.toNat) = at_ → s.rdNat (x.errB.toNat + 8) 8 + x.errN.toNat ≤ tail → ∀ a, (a < x.desc.toNat + 112 ∨ x.desc.toNat + 120 ≤ a) → False) := fun H =>
  by refine H c0 { code := 0x0104 } .rendezvous ((tState .a []).updCtx 0 fun x => { x with errTail := 64 }) _ _ _ _ _ rfl (som ?_) (som ?_) ?_ rfl rfl ?_ 5 ?_ <;> decide +kernel
theorem witness_FaultTaken_5 : ¬ (∀ (c : CoreId) (f : FaultRec) (op : FaultOp) (s : State) (t : State) (g : GroupInfo) (x : Context) (tail : Nat) (at_ : Nat), raiseFault c f op s = t → (s.core c).grp = some g → s.ctx? g.ctx = some x → Memory.wf s.mem = true → x.errTail.toNat = tail → x.errB.toNat + 64 + 64 * (tail % x.errN.toNat) = at_ → s.rdNat (x.errB.toNat + 8) 8 + x.errN.toNat ≤ tail → (x.errB.toNat + 8 ≤ x.desc.toNat + 112 ∨ x.desc.toNat + 120 ≤ x.errB.toNat) → False) := fun H =>
  by refine H c0 { code := 0x0104 } .rendezvous ((tState .a []).updCtx 0 fun x => { x with errTail := 64 }) _ _ _ _ _ rfl (som ?_) (som ?_) ?_ rfl rfl ?_ ?_ <;> decide +kernel

theorem witness_StepRunsDecoded_0 : ¬ (∀ (s : State) (s0 : State) (s1 : State) (c : CoreId) (sl : Slot) (g : GroupInfo), nextMover s = (.issue c sl, s0) → { s0.passTime with cur := (c, sl) } = s1 → (s1.core c).grp = some g → (s1.core c).mayIssue sl = true → ∀ f s2, s1.fetch c g ((s1.core c).slot sl).pc = (s2, .error f) → False) := fun H =>
  by refine H ((State.reset.placeBundle .c 0).updCore c0 (·.updSlot .c fun t => { t with pc := 5 })) _ _ c0 .c _ rfl rfl (som ?_) ?_ _ _ (erR ?_) <;> decide +kernel
theorem witness_StepRunsDecoded_1 : ¬ (∀ (s : State) (s0 : State) (s1 : State) (c : CoreId) (sl : Slot) (g : GroupInfo), nextMover s = (.issue c sl, s0) → { s0.passTime with cur := (c, sl) } = s1 → (s1.core c).grp = some g → (s1.core c).mayIssue sl = true → ∀ b s2, s1.fetch c g ((s1.core c).slot sl).pc = (s2, .ok b) → syAgrees b = false → False) := fun H =>
  by refine H (State.reset.placeBundle .c (bundleOf (nopWith true) (nopWith false) (nopWith true) (nopWith true))) _ _ c0 .c _ rfl rfl (som ?_) ?_ _ _ (okR ?_) ?_ <;> decide +kernel
theorem witness_StepRunsDecoded_2 : ¬ (∀ (s : State) (s0 : State) (s1 : State) (c : CoreId) (sl : Slot) (g : GroupInfo), nextMover s = (.issue c sl, s0) → { s0.passTime with cur := (c, sl) } = s1 → (s1.core c).grp = some g → (s1.core c).mayIssue sl = true → ∀ b s2, s1.fetch c g ((s1.core c).slot sl).pc = (s2, .ok b) → syBits b = 0xF → ((s2.core c).slot sl).solo ≠ some ((s2.core c).slot sl).pc → False) := fun H =>
  by refine H (State.reset.placeBundle .c (bundleOf (nopWith true) (nopWith true) (nopWith true) (nopWith true))) _ _ c0 .c _ rfl rfl (som ?_) ?_ _ _ (okR ?_) ?_ ?_ <;> decide +kernel
theorem witness_StepRunsDecoded_3 : ¬ (∀ (s : State) (s0 : State) (s1 : State) (c : CoreId) (sl : Slot) (g : GroupInfo), nextMover s = (.issue c sl, s0) → { s0.passTime with cur := (c, sl) } = s1 → (s1.core c).grp = some g → (s1.core c).mayIssue sl = true → ∀ b s2, s1.fetch c g ((s1.core c).slot sl).pc = (s2, .ok b) → let word := decode sl (laneOf b sl); syAgrees b = true → syBits b = 0 ∨ ((s2.core c).slot sl).solo = some ((s2.core c).slot sl).pc → ∀ i, word = .ok i → legalFor g (s2.core c) i = true → False) := fun H =>
  by refine H (State.reset.placeBundle .c (bundleWith .c 0x1107800000000800800000000002E000)) _ _ c0 .c _ rfl rfl (som ?_) ?_ _ _ (okR ?_) ?_ (.inl ?_) _ (okE ?_) ?_ <;> decide +kernel
theorem witness_StepRunsDecoded_4 : ¬ (∀ (s : State) (s0 : State) (s1 : State) (c : CoreId) (sl : Slot) (g : GroupInfo), nextMover s = (.issue c sl, s0) → { s0.passTime with cur := (c, sl) } = s1 → (s1.core c).grp = some g → (s1.core c).mayIssue sl = true → ∀ b s2, s1.fetch c g ((s1.core c).slot sl).pc = (s2, .ok b) → let word := decode sl (laneOf b sl); syAgrees b = true → syBits b = 0 ∨ ((s2.core c).slot sl).solo = some ((s2.core c).slot sl).pc → ∀ i, word = .ok i → legalFor g (s2.core c) i = false → False) := fun H =>
  by refine H ((State.reset.placeBundle .m (bundleWith .m (encode .m (.mzclr {} ⟨rZ 7, false⟩)))).updCore c0 fun k => { k with grp := some { probeGroup with accs := 1 } }) _ _ c0 .m _ rfl rfl (som ?_) ?_ _ _ (okR ?_) ?_ (.inl ?_) _ (okE ?_) ?_ <;> decide +kernel
theorem witness_StepRunsDecoded_5 : ¬ (∀ (s : State) (s0 : State) (s1 : State) (c : CoreId) (sl : Slot) (g : GroupInfo), nextMover s = (.issue c sl, s0) → { s0.passTime with cur := (c, sl) } = s1 → (s1.core c).grp = some g → (s1.core c).mayIssue sl = true → ∀ b s2, s1.fetch c g ((s1.core c).slot sl).pc = (s2, .ok b) → let word := decode sl (laneOf b sl); syAgrees b = true → syBits b = 0 ∨ ((s2.core c).slot sl).solo = some ((s2.core c).slot sl).pc → ∀ e, word = .error e → False) := fun H =>
  by refine H (State.reset.placeBundle .c (bundleWith .c 0xFF)) _ _ c0 .c _ rfl rfl (som ?_) ?_ _ _ (okR ?_) ?_ (.inl ?_) _ (erE ?_) <;> decide +kernel
theorem witness_StepRunsDecoded_6 : ¬ (∀ (s : State) (s0 : State) (i : Instr), nextMover s = (.event i, s0) → isEvent i = true → False) := fun H =>
  H { State.reset with agenda := [.event .packageReset] } _ _ rfl (by decide +kernel)

theorem witness_DecodeOfEncode : ¬ (∀ (sl : Slot) (i : Instr), i.wf sl = true → False) := fun H =>
  H .c (.add {} ⟨.i64, rS 63, rS 1, .imm 0x80000000⟩) (by decide +kernel)

theorem tEvent_saved : tEvent.saved = [] := rfl

theorem tEvent_mem : Memory.wf tEvent.mem = true := by decide +kernel

theorem tEvent_canonical : Canonical tEvent :=
  ⟨tEvent_mem, fun c => by rw [tEvent_core]; decide +kernel, by rw [tEvent_saved]; exact List.forall_mem_nil _⟩

theorem tEvent_steps : ∃ t, step tEvent = .next t := ⟨_, nx (by decide +kernel)⟩

theorem witness_CanonicalKept : ¬ (∀ s t, Canonical s → step s = .next t → False) := fun H =>
  tEvent_steps.elim fun t h => H tEvent t tEvent_canonical h

theorem tEvent_bounded : QueuesBounded tEvent := by
  refine ⟨fun c => ?_, by rw [tEvent_saved]; exact List.forall_mem_nil _⟩
  rw [tEvent_core]
  exact ⟨by decide +kernel, by decide +kernel, by decide +kernel⟩

theorem witness_QueuesBoundedKept : ¬ (∀ s t, QueuesBounded s → step s = .next t → False) := fun H =>
  tEvent_steps.elim fun t h => H tEvent t tEvent_bounded h

theorem witness_GroupStartRegisters : ¬ (∀ (s t : State) (die : Fin 4) (part : BitVec 6) (p : Placed) (l : Launch) (x : Context) (c : CoreId)
    (rest : List CoreId), s.startNext part die = some (p, l, x) → s.coresFor part die l = c :: rest →
    Sys2Proof.Machine.exec (.groupStart die part) s = .next t → False) := fun H =>
  H ({ tQueue 0 3 { tRun .running with head := 1, entry := some 1 } with launches := [{ tLaunch .dispatching with dbar := 0 }], chips := resetChips.map fun x => (x.1, .inService), parts := probePart.map fun p => { p with cores := 3 }, placed := [⟨0, 0, 0, 0, 0⟩] }) _ 0 0 _ _ _ _ _ (som3 (by decide +kernel)) (consEq (by decide +kernel)) (nx (by decide +kernel))

theorem witness_GroupStartRegisters_5 : ¬ (∀ (o : Operand) (n : Fin 64) (v : Word) (s : State) (t : State), o.name = .s n → readS o s = .ok (v, t) → False) := fun H =>
  H (rS 1) 1 _ (tState .c [(1, 0x100)]) _ rfl (ok (by decide +kernel))
end

/-! The writes to memory of O45. A write at a line's ordering point arms the idle queues of active contexts whose descriptors lie in
that line (12 R283), whichever bytes of the line it writes, and arming publishes STATE. -/

namespace Sys2Proof.Machine

open Sys2Proof

/-- A result that meets a test is a state that meets it. -/
theorem exists_ok_of_any {ε α : Type} {x : Except ε α} {p : α → Bool} (h : x.toOption.any p = true) : ∃ t, x = .ok t ∧ p t = true := by
  cases x with
  | error e => cases h
  | ok t => exact ⟨t, rfl, h⟩

/-- Queue 0 of context 0, idle with HEAD 0. -/
def lateQueue : QueueRun where
  ctx := 0
  n := 0
  state := .idle
  kept := .idle
  base := 0
  nl := 4
  en := true
  head := 0
  done := 0
  lastErr := 0
  entry := none
  remote := .none
  moved := 0
  appended := (0, 0)

/-- How the byte is stamped: slot 0 of context 0, the key of the line that holds the descriptor, in rewrite mode. -/
def lateStamp : Stamping := ⟨⟨0, 0, 0⟩, 0, true⟩

/-- Context 0 is active and its queue table, of one descriptor, lies at 0xD0000: NL is 4, EN 1 and STATE 0 in byte 8, and TAIL in byte
16 is 1, above HEAD, while the queue is idle. No slice holds a line. -/
def lateState : State :=
  { State.reset with
    parts := probePart
    ctxs := [probeCtx]
    queues := [lateQueue]
    mem := [(0xD0008, 0x24), (0xD0010, 1)]
    lmeta := [⟨lineOf 0xD0000, lateStamp.key, 0⟩] }

/-- The state once the sector of the byte at 0xD0040, the first after the descriptor, has been fetched for a write of it. -/
def lateFetched : State :=
  lateState.ensureSectors 0 (lineOf 0xD0040) false (sectorMask (partialSectors (atOffset (0xD0040 % 128) [7])))

/-- No structure of the device holds the byte after the descriptor. -/
theorem lateState_no_structure (a : Nat) (low : 0xD0040 ≤ a) (high : a < 0xD0040 + [(7 : Byte)].length) :
    lateState.ctxs.findSome? (·.fieldMap? a) = none := by
  obtain rfl : a = 0xD0040 := by simp at high; omega
  decide

/-- The fetched line verifies under the key of the write. -/
theorem lateFetched_line : ∃ l, lateFetched.ownLine (lineOf 0xD0040) = some l ∧ keyIs l.key lateStamp.key = true := by
  have h : (lateFetched.ownLine (lineOf 0xD0040)).any (fun l => keyIs l.key lateStamp.key) = true := by decide +kernel
  simpa [Option.any_eq_true] using h

/-- STATE reads as idle before the write: byte 8 of the descriptor holds NL and EN alone. -/
theorem lateFetched_idle : lateFetched.cohByte 0xD0008 = 0x24 := by decide +kernel

/-- STATE reads as armed after the write. -/
theorem lateState_write_arms :
    ∃ t, lateState.writeLine 0 lateStamp 0xD0040 [7] = .ok t ∧ t.cohByte 0xD0008 = 0x64 := by
  have h : (lateState.writeLine 0 lateStamp 0xD0040 [7]).toOption.any (fun t => t.cohByte 0xD0008 == 0x64) = true := by
    decide +kernel
  obtain ⟨t, written, armed⟩ := exists_ok_of_any h
  exact ⟨t, written, eq_of_beq armed⟩

/-- Refutes O45: in one line with the descriptor of a queue that is idle although its TAIL is above HEAD, a write of a byte of no structure
arms the queue, and the STATE field of the descriptor, which is not written, changes from 0 to 1. The premise of the third clause keeps
the structures of the device out of the bytes written, not out of the rest of their line. -/
theorem not_memoryWrites : ¬ Obligations.MemoryWrites := by
  rintro ⟨-, -, line_write, -⟩
  obtain ⟨l, present, verifies⟩ := lateFetched_line
  obtain ⟨t, written, armed⟩ := lateState_write_arms
  obtain ⟨-, others_kept⟩ := line_write lateState t lateFetched 0 lateStamp 0xD0040 [7] false l (by decide) (by decide)
    lateState_no_structure rfl present verifies written
  have kept : t.cohByte 0xD0008 = lateFetched.cohByte 0xD0008 := others_kept 0xD0008 (.inl (by decide))
  rw [armed, lateFetched_idle] at kept
  exact absurd kept (by decide)

end Sys2Proof.Machine

/-! The management events of O43 and the reset state of O53. A command that the mailbox takes is dealt with in the state in which it is in
progress (11 R271); the lemma of each event then says what that state becomes. -/

namespace Sys2Proof.Machine

open Sys2Proof

/-! ### The mailbox takes a command (11 R271) -/

/-- A record that the mailbox takes is dealt with in the state in which it is in progress. -/
theorem State.mailed_of_mails {r : Rec64} {s : State} (mails : Mails r s) (act : State → State) : s.mailed r act = act (rung r s) := by
  have taken : ¬(s.doorbell && decide (s.mrec ≠ r)) = true := by
    simpa [Mails] using mails
  exact if_neg taken

/-- The record and the doorbell are no bytes of memory. -/
@[simp] theorem rung_cohRead (r : Rec64) (s : State) (pa n : Nat) : (rung r s).cohRead pa n = s.cohRead pa n := rfl

@[simp] theorem rung_rdNat (r : Rec64) (s : State) (pa n : Nat) : (rung r s).rdNat pa n = s.rdNat pa n := rfl

/-- One record put in force or none: the two ways in which the model and the statement write the list. -/
theorem ite_append_singleton {α : Type} (p : Prop) [Decidable p] (l : List α) (a : α) :
    (if p then l ++ [a] else l) = l ++ (if p then [a] else []) := by
  split
  · rfl
  · exact (List.append_nil l).symm

/-! ### Commands of the management processor (11 R264, R265, R272, 17 R364) -/

/-- PARTSET of a record whose partition no context uses and which may stand beside the others. -/
theorem exec_partset_installs (arg : Word) (s : State) (die : Fin 4) (r : PartRec) (mails : Mails (cmdRecord 0x10 0 arg 0) s)
    (reserved : bitsOf arg.toNat 2 4 = 0) (die_eq : die = Fin.ofNat 4 (bitsOf arg.toNat 0 2))
    (r_eq : r = partOfBits die (s.rdNat (arg.toNat / 64 * 64) 64)) :
    let u := (rung (cmdRecord 0x10 0 arg 0) s).touch (arg.toNat / 64 * 64) 64
    let t : State := { u with parts := (u.parts.filter fun (p : PartRec) => !(p.die = die && p.part = r.part)) ++
      (if bitsOf (s.rdNat (arg.toNat / 64 * 64) 64) 230 1 = 1 then [r] else []) }
    u.partUsed r.part = false → t.partsOk = true → exec (.partset arg) s = .next ((u.remapTo t).reply 0) := by
  subst die_eq r_eq
  show _ → _ → execPartset arg s = _
  rw [execPartset, State.mailed_of_mails mails, if_neg (Decidable.not_not.2 reserved), rung_rdNat]
  generalize (rung (cmdRecord 0x10 0 arg 0) s).touch (arg.toNat / 64 * 64) 64 = u
  dsimp only
  rw [ite_append_singleton]
  intro unused stands
  rw [unused, stands]
  rfl

/-- IATSET of a valid image that may stand in place of the old one. -/
theorem exec_iatset_installs (arg : Word) (i : Fin 1024) (s : State) (e : IatEntry)
    (mails : Mails (cmdRecord 0x22 0 arg (BitVec.ofNat 64 i.val)) s) (aligned : arg.toNat % 32 = 0)
    (valid : iatOf (iatClean (s.rdNat arg.toNat 32)) = some e) :
    let u := (rung (cmdRecord 0x22 0 arg (BitVec.ofNat 64 i.val)) s).touch arg.toNat 32
    u.iatOk (((u.iat.find? (·.1 = i)).map (·.2)).bind iatOf) e = true →
    exec (.iatset arg (BitVec.ofNat 64 i.val)) s =
      .next (State.reply { u with iat := (i, iatClean (s.rdNat arg.toNat 32)) :: u.iat.filter (·.1 ≠ i) } 0) := by
  have index : (BitVec.ofNat 64 i.val).toNat = i.val := by
    rw [BitVec.toNat_ofNat]; omega
  have accepted : ¬(decide (arg.toNat % 32 ≠ 0) || decide (1024 ≤ i.val)) = true := by
    simp [aligned]
  show _ → execIatset arg (BitVec.ofNat 64 i.val) s = _
  rw [execIatset, State.mailed_of_mails mails, index, Fin.ofNat_val_eq_self, if_neg accepted, rung_rdNat]
  generalize (rung (cmdRecord 0x22 0 arg (BitVec.ofNat 64 i.val)) s).touch arg.toNat 32 = u
  dsimp only
  rw [valid]
  intro allowed
  exact congrArg Host.Outcome.next (if_pos allowed)

/-- MPOLICY of a record whose header and entries keep their layout: the signature decides. -/
theorem exec_mpolicy_well_formed (arg : Word) (s : State) (n : Nat) (mails : Mails (cmdRecord 0x24 0 arg 0) s)
    (aligned : arg.toNat % 64 = 0) (entries : leNat ((s.cohRead arg.toNat 16).take 4) = n) (some_entry : 1 ≤ n) (bounded : n ≤ 1024)
    (reserved : ((s.cohRead arg.toNat 16).drop 4).all (· = 0) = true) :
    let u := (rung (cmdRecord 0x24 0 arg 0) s).touch arg.toNat 16
    let b := u.cohRead arg.toNat (16 + 72 * n + 4627)
    let t := u.touch arg.toNat (16 + 72 * n + 4627)
    let es := (List.range n).map (policyEntry b)
    es.all entryOk = true →
    exec (.mpolicy arg) s = .next (if Config.sigOk b then
      State.reply { t with policy := es.map entryOf, oldPolicies := t.oldPolicies ++ [(t.icycles, t.policy)] } 0
      else t.reply 3) := by
  have header : ¬(decide (arg.toNat % 64 ≠ 0) || decide (n = 0) || decide (1024 < n) ||
      !((s.cohRead arg.toNat 16).drop 4).all (· = 0)) = true := by
    rw [reserved]
    simp [aligned, bounded, Nat.ne_of_gt some_entry]
  show _ → execMpolicy arg s = _
  rw [execMpolicy, State.mailed_of_mails mails, rung_cohRead]
  generalize (rung (cmdRecord 0x24 0 arg 0) s).touch arg.toNat 16 = u
  dsimp only
  rw [entries, if_neg header]
  intro layout
  rw [layout]
  cases Config.sigOk (u.cohRead arg.toNat (16 + 72 * n + 4627)) <;> rfl

/-- A record whose opcode is no command's is refused by value, whatever else stands in it. -/
theorem recRefused_of_opcode {r : Rec64} (unassigned : bitsOf r.toNat 0 8 ∉ ctxOpcodes ++ plainOpcodes) : recRefused r = true := by
  obtain ⟨no_ctx, no_plain⟩ : bitsOf r.toNat 0 8 ∉ ctxOpcodes ∧ bitsOf r.toNat 0 8 ∉ plainOpcodes := by
    simpa only [List.mem_append, not_or] using unassigned
  simp [recRefused, no_ctx, no_plain]

/-- A record with no valid opcode is answered with status 2. -/
theorem exec_mailboxInvalidOpcode_of_mails (r : Rec64) (s : State) (mails : Mails r s)
    (unassigned : bitsOf r.toNat 0 8 ∉ ctxOpcodes ++ plainOpcodes) :
    exec (.mailboxInvalidOpcode r) s = .next ((rung r s).reply 2) := by
  show execMailboxInvalidOpcode r s = _
  rw [execMailboxInvalidOpcode, if_pos (recRefused_of_opcode unassigned), State.mailed_of_mails mails]
  rfl

/-! ### Power and ageing (01 R20, R22) -/

/-- Each lowered clock is counted and logged. -/
theorem exec_powerLimitReached (dies : BitVec 4) (s : State) : ∃ t, exec (.powerLimitReached dies) s = .next t ∧
    (∀ d : Fin 4, t.clocks[d] = if dies.getLsbD d.val then s.clocks[d] + 1 else s.clocks[d]) ∧
    t = { s with clocks := t.clocks, logs := s.logs ++
      ((List.finRange 4).filter fun d => dies.getLsbD d.val).map fun d => (Chip.cdie d, LogEntry.clock) } :=
  ⟨_, rfl, fun d => by simp, rfl⟩

/-- A prediction that falls below the threshold sets the flag, and is counted and logged. -/
theorem exec_ageingThresholdCrossing_below (c : Chip) (days : Nat) (s : State) (low : days < (s.ageingOf c).threshold)
    (first : (s.ageingOf c).below = false) : exec (.ageingThresholdCrossing c days) s = .next
      { s.setAgeing c { s.ageingOf c with
          days := days, below := true, flag := true, crossings := count (s.ageingOf c).crossings } with
        logs := s.logs ++ [(c, .ageing days)] } := by
  show execAgeingThresholdCrossing c days s = _
  exact if_pos (by simp [low, first])

/-- The plane that a list produces becomes resident where its checksum matches; a mismatch is logged (01 R23). -/
theorem exec_differenceListApply (u : Chip) (l : DiffList) (s : State) :
    let p := l.changes.foldl (fun p c => planeSet p c.1 c.2) (s.plane u)
    exec (.differenceListApply u l) s = .next (if Config.planeSum p = l.checksum then
      { s with planes := ⟨u, p⟩ :: s.planes.filter (·.unit ≠ u) } else { s with logs := s.logs ++ [(u, .planeMismatch u)] }) := by
  intro p
  show execDifferenceListApply u l s = _
  exact (apply_ite Host.Outcome.next _ _ _).symm

/-- Settles O43, by the rule of each command and event; the events without a check on the state hold by what they are defined to do. -/
theorem managementEvents : Obligations.ManagementEvents := by
  unfold Obligations.ManagementEvents
  refine ⟨exec_partset_installs, exec_iatset_installs, exec_mpolicy_well_formed, exec_mailboxInvalidOpcode_of_mails,
    exec_powerLimitReached, exec_ageingThresholdCrossing_below, ?ageingFlagClear, exec_differenceListApply, ?hostBytes, ?hostMail,
    ?hostClear⟩
  case ageingFlagClear => exact fun _ _ => rfl
  case hostBytes => exact fun _ _ _ => ⟨rfl, fun _ => rfl⟩
  case hostMail => exact fun _ _ => rfl
  case hostClear => exact fun _ => ⟨rfl, fun _ => rfl⟩

/-! ### Package reset (11 R264, 17 R348, R351) -/

/-- Every core of the package is free and empty at reset (logs 3 and 5). -/
@[simp] theorem State.reset_core (c : CoreId) : State.reset.core c = Core.reset :=
  Vector.getElem_replicate _

theorem Core.reset_bounded : Core.reset.bounded := by
  refine ⟨rfl, fun i => ?_, fun i => ?_⟩ <;> simp [Core.reset]

theorem State.reset_canonical : Canonical State.reset :=
  ⟨rfl, fun c => by rw [State.reset_core]; rfl, List.forall_mem_nil _⟩

theorem State.reset_queuesBounded : QueuesBounded State.reset :=
  ⟨fun c => by rw [State.reset_core]; exact Core.reset_bounded, List.forall_mem_nil _⟩

/-- Settles O53: the links and chiplets one by one, the cores as they all are, every other field by its reset value. -/
theorem resetState : Obligations.ResetState := by
  unfold Obligations.ResetState
  refine ⟨?links, rfl, rfl, rfl, rfl, rfl, rfl, ?chips, rfl, rfl, rfl, rfl, rfl, rfl, ?cycles, ?cores,
    State.reset_canonical, State.reset_queuesBounded⟩
  case links => decide
  case chips => decide
  case cycles => intro d; simp [State.reset]
  case cores => intro c; rw [State.reset_core]; exact ⟨rfl, rfl, rfl⟩

end Sys2Proof.Machine

/-! The encoding (O55, O56). A lane word holds the fields of its head and of its payload side by side, so packing loses none of them;
each operand shape is read back from its payload where the slot can name its operands and nothing peeks without a PEEK bit; and what an
instruction's static legality demands implies both. -/

namespace Sys2Proof

/-! ### Fields packed low end first -/

/-- The widths of a list of fields together. -/
def fieldsWidth (l : List (Nat × Nat)) : Nat := (l.map Prod.fst).sum

theorem fieldsWidth_append (l r : List (Nat × Nat)) : fieldsWidth (l ++ r) = fieldsWidth l + fieldsWidth r := by
  simp [fieldsWidth]

theorem packFields_lt (l : List (Nat × Nat)) : packFields l < 2 ^ fieldsWidth l := by
  induction l with
  | nil => simp [packFields, fieldsWidth]
  | cons f r ih =>
    obtain ⟨w, v⟩ := f
    have low : v % 2 ^ w < 2 ^ w := Nat.mod_lt _ (Nat.two_pow_pos w)
    calc v % 2 ^ w + 2 ^ w * packFields r < 2 ^ w * (packFields r + 1) := by rw [Nat.mul_succ]; omega
      _ ≤ 2 ^ w * 2 ^ fieldsWidth r := Nat.mul_le_mul_left _ ih
      _ = 2 ^ fieldsWidth ((w, v) :: r) := by simp [fieldsWidth, Nat.pow_add]

/-- The fields below are dropped by a division. -/
theorem packFields_append_div (l r : List (Nat × Nat)) : packFields (l ++ r) / 2 ^ fieldsWidth l = packFields r := by
  induction l with
  | nil => simp [fieldsWidth]
  | cons f l ih =>
    obtain ⟨w, v⟩ := f
    have width : 2 ^ fieldsWidth ((w, v) :: l) = 2 ^ w * 2 ^ fieldsWidth l := by simp [fieldsWidth, Nat.pow_add]
    rw [width, ← Nat.div_div_eq_div_mul, List.cons_append, packFields, Nat.add_mul_div_left _ _ (Nat.two_pow_pos w),
      Nat.div_eq_of_lt (Nat.mod_lt _ (Nat.two_pow_pos w)), Nat.zero_add, ih]

/-- The fields above do not change what is read. -/
theorem unpackFields_packFields_append (l r : List (Nat × Nat)) :
    unpackFields (l.map Prod.fst) (packFields (l ++ r)) = l.map fun f => f.2 % 2 ^ f.1 := by
  induction l with
  | nil => rfl
  | cons f l ih =>
    obtain ⟨w, v⟩ := f
    have next : packFields ((w, v) :: l ++ r) / 2 ^ w = packFields (l ++ r) := by
      simpa [fieldsWidth] using packFields_append_div [(w, v)] (l ++ r)
    have this : packFields ((w, v) :: l ++ r) % 2 ^ w = v % 2 ^ w := by simp [packFields]
    rw [List.map_cons, unpackFields, next, this, ih, List.map_cons]

/-! ### Head and payload of a word -/

theorem Payload.fmt_lt (p : Payload) : p.fmt < 16 := by
  cases p <;> simp [Payload.fmt]

/-- A payload fills the bits below the head. -/
theorem Payload.fieldsWidth_fields (p : Payload) : fieldsWidth p.fields = 85 := by
  cases p <;> rfl

theorem RawHead.fieldsWidth_fields (h : RawHead) (n : Nat) : fieldsWidth (h.fields n) = 43 := rfl

theorem Payload.widths_fields (p : Payload) : p.fields.map Prod.fst = payloadWidths p.fmt := by
  cases p <;> rfl

theorem RawHead.widths_fields (h : RawHead) (n : Nat) : (h.fields n).map Prod.fst = headWidths := rfl

/-- A field as wide as its value is read whole. -/
theorem ofNat_toNat_mod_two_pow {w : Nat} (x : BitVec w) : BitVec.ofNat w (x.toNat % 2 ^ w) = x := by
  rw [Nat.mod_eq_of_lt x.isLt, BitVec.ofNat_toNat, BitVec.setWidth_eq]

theorem Payload.ofFields_values (p : Payload) : Payload.ofFields p.fmt (p.fields.map fun f => f.2 % 2 ^ f.1) = some p := by
  cases p <;> simp only [Payload.ofFields, Payload.fields, Payload.fmt, fieldAt, List.map, List.getD_cons_zero,
    List.getD_cons_succ, ofNat_toNat_mod_two_pow]

theorem RawHead.ofFields_values (h : RawHead) (n : Nat) : RawHead.ofFields ((h.fields n).map fun f => f.2 % 2 ^ f.1) = h := by
  simp only [RawHead.ofFields, RawHead.fields, fieldAt, List.map, List.getD_cons_zero, List.getD_cons_succ,
    ofNat_toNat_mod_two_pow]

theorem packWord_toNat (h : RawHead) (p : Payload) : (packWord h p).toNat = packFields (p.fields ++ h.fields p.fmt) := by
  have width : fieldsWidth (p.fields ++ h.fields p.fmt) = 128 := by
    rw [fieldsWidth_append, Payload.fieldsWidth_fields, RawHead.fieldsWidth_fields]
  rw [packWord, BitVec.toNat_ofNat, Nat.mod_eq_of_lt (width ▸ packFields_lt _)]

/-- The head stands above the payload. -/
theorem packWord_head (h : RawHead) (p : Payload) : (packWord h p).toNat / 2 ^ 85 = packFields (h.fields p.fmt) := by
  rw [packWord_toNat, ← Payload.fieldsWidth_fields p, packFields_append_div]

/-- FMT is the topmost field (04 R74). -/
theorem wordFmt_packWord (h : RawHead) (p : Payload) : wordFmt (packWord h p) = p.fmt := by
  have top : packFields (h.fields p.fmt) / 2 ^ 39 = packFields [(4, p.fmt)] :=
    packFields_append_div ((h.fields 0).take 12) [(4, p.fmt)]
  have split : wordFmt (packWord h p) = (packWord h p).toNat / 2 ^ 85 / 2 ^ 39 := by
    rw [wordFmt, Nat.div_div_eq_div_mul, ← Nat.pow_add]
  rw [split, packWord_head, top]
  exact Nat.mod_eq_of_lt p.fmt_lt

theorem unpackWord_packWord (h : RawHead) (p : Payload) : unpackWord (packWord h p) = some (h, p) := by
  have payload : unpackFields (payloadWidths p.fmt) (packWord h p).toNat = p.fields.map fun f => f.2 % 2 ^ f.1 := by
    rw [packWord_toNat, ← Payload.widths_fields, unpackFields_packFields_append]
  have head : unpackFields headWidths (packFields (h.fields p.fmt)) = (h.fields p.fmt).map fun f => f.2 % 2 ^ f.1 := by
    rw [← RawHead.widths_fields h p.fmt, ← unpackFields_packFields_append _ [], List.append_nil]
  rw [unpackWord, wordFmt_packWord, payload, Payload.ofFields_values, packWord_head, head, RawHead.ofFields_values]
  rfl

/-! The small fields, the names and the operand fields of a lane word (04 R76 to R87): each code is read back. -/

/-! ### Codes of the small fields -/

@[simp] theorem Fmt.ofCode_code (f : Fmt) : Fmt.ofCode f.code.toNat = some f := by cases f <;> rfl
@[simp] theorem Rm.ofCode_code (r : Rm) : Rm.ofCode r.code.toNat = r := by cases r <;> rfl
@[simp] theorem Hint.ofCode_code (c : Hint) : Hint.ofCode c.code.toNat = some c := by cases c <;> rfl
@[simp] theorem Cc.ofCode_code (c : Cc) : Cc.ofCode c.code.toNat = some c := by cases c <;> rfl
@[simp] theorem Cond.ofCode_code (c : Cond) : Cond.ofCode c.code = some c := by cases c <;> rfl
@[simp] theorem Join.ofCode_code (j : Join) : Join.ofCode j.code = some j := by cases j <;> rfl
@[simp] theorem Scope.ofCode_code (a : Scope) : Scope.ofCode a.code = some a := by cases a <;> rfl
@[simp] theorem Ord.ofCode_code (o : Ord) : Ord.ofCode o.code.toNat = o := by cases o <;> rfl
@[simp] theorem STy.ofCode_code (t : STy) : STy.ofCode t.code.toNat = some t := by cases t <;> rfl
@[simp] theorem AOp.ofCode_code (op : AOp) : AOp.ofCode op.code.toNat = some op := by cases op <;> rfl
@[simp] theorem BarKind.ofCode_code (k : BarKind) : BarKind.ofCode k.code = some k := by cases k <;> rfl
@[simp] theorem View.ofCode_code (v : View) : View.ofCode v.code = v := by cases v <;> rfl
@[simp] theorem KWidth.ofCode_code (w : KWidth) : KWidth.ofCode w.code = some w := by cases w <;> rfl
@[simp] theorem RedOp.ofCode_code (op : RedOp) : RedOp.ofCode op.code = some op := by cases op <;> rfl
@[simp] theorem TermSel.ofCode_code (t : TermSel) : TermSel.ofCode t.code = some t := by cases t <;> rfl

theorem Cond.code_lt (c : Cond) : c.code < 8 := by cases c <;> decide
theorem Join.code_lt (j : Join) : j.code < 4 := by cases j <;> decide
theorem Scope.code_lt (a : Scope) : a.code < 8 := by cases a <;> decide
theorem BarKind.code_lt (k : BarKind) : k.code < 4 := by cases k <;> decide
theorem View.code_lt (v : View) : v.code < 4 := by cases v <;> decide
theorem KWidth.code_lt (w : KWidth) : w.code < 8 := by cases w <;> decide
theorem RedOp.code_lt (op : RedOp) : op.code < 4 := by cases op <;> decide
theorem TermSel.code_lt (t : TermSel) : t.code < 8 := by cases t <;> decide

/-- Only the slot scope, which no object instruction takes, has code 0 (04 R84). -/
theorem Scope.code_ne_zero {a : Scope} (h : a.notSlot = true) : a.code ≠ 0 := by
  cases a <;> simp_all [Scope.notSlot, Scope.code]

@[simp] theorem Ssc.ofCode_code (s : Ssc) : Ssc.ofCode s.code = s := by
  obtain ⟨l, g, p, t⟩ := s
  cases l <;> cases g <;> cases p <;> cases t <;> rfl

@[simp] theorem decPush_tkePair (p : Option (Fin 8)) : decPush (tkePair p).1 (tkePair p).2 = p := by
  cases p with
  | none => rfl
  | some n => revert n; decide

@[simp] theorem decSubPush_subPush (p : Option (Fin 8)) : decSubPush (subPush p) = p := by
  cases p with
  | none => rfl
  | some n => revert n; decide

/-! ### Flags and PEEK bits -/

@[simp] theorem flag_false (w : Nat) : flag false w = 0 := rfl

@[simp] theorem flag_true (w : Nat) : flag true w = w := rfl

/-- A flag above a field of k bits is read as bit k. -/
theorem testBit_add_flag {low k : Nat} (h : low < 2 ^ k) (b : Bool) : (low + flag b (2 ^ k)).testBit k = b := by
  cases b with
  | false => simpa using Nat.testBit_lt_two_pow h
  | true => simp [Nat.add_comm low, Nat.testBit_two_pow_add_eq, Nat.testBit_lt_two_pow h]

/-- A flag above a field of k bits does not change that field. -/
theorem add_flag_mod {low k : Nat} (h : low < 2 ^ k) (b : Bool) : (low + flag b (2 ^ k)) % 2 ^ k = low := by
  cases b <;> simp [Nat.mod_eq_of_lt h]

theorem flag_le (b : Bool) (w : Nat) : flag b w ≤ w := by cases b <;> simp

/-- A flag above a field of k bits, as a bit of a vector that holds both. -/
theorem getElem_ofNat_add_flag {low k w : Nat} (h : low < 2 ^ k) (b : Bool) (hk : k < w) :
    (BitVec.ofNat w (low + flag b (2 ^ k)))[k] = b := by
  rw [← BitVec.getLsbD_eq_getElem, BitVec.getLsbD_ofNat, testBit_add_flag h, decide_eq_true hk, Bool.true_and]

/-- A flag above a field that is a vector of its own does not change that field. -/
theorem ofNat_add_flag {k : Nat} (x : BitVec k) (b : Bool) : BitVec.ofNat k (x.toNat + flag b (2 ^ k)) = x := by
  apply BitVec.eq_of_toNat_eq
  rw [BitVec.toNat_ofNat, add_flag_mod x.isLt]

/-- A flag of its own in bit 0. -/
@[simp] theorem getElem_ofNat_flag {w : Nat} (b : Bool) (h : 0 < w) : (BitVec.ofNat w (flag b 1))[0] = b := by
  simpa using getElem_ofNat_add_flag (low := 0) (k := 0) Nat.one_pos b h

/-- A flag in bit 0 below the other fields. -/
@[simp] theorem getElem_ofNat_flag_add {w : Nat} (b : Bool) (n : Nat) (h : 0 < w) :
    (BitVec.ofNat w (flag b 1 + 2 * n))[0] = b := by
  rw [← BitVec.getLsbD_eq_getElem, BitVec.getLsbD_ofNat, Nat.testBit_zero]
  cases b <;> simp [h]

/-- The four PEEK bits of F0 (04 R81). -/
theorem peek4_flags : ∀ a b c d : Bool,
    let peek := peek4 (flag a 8 + flag b 4 + flag c 2 + flag d 1)
    peek[3] = a ∧ peek[2] = b ∧ peek[1] = c ∧ peek[0] = d := by
  decide

/-- The two PEEK bits of F1 (04 R82). -/
theorem peek2_flags : ∀ a b : Bool, (peek2 (flag a 2 + flag b 1))[1] = a ∧ (peek2 (flag a 2 + flag b 1))[0] = b := by
  decide

@[simp] theorem peek4_four (a b c d : Operand) :
    (peek4 (peekBit a 8 + peekBit b 4 + peekBit c 2 + peekBit d 1))[3] = a.peek ∧
    (peek4 (peekBit a 8 + peekBit b 4 + peekBit c 2 + peekBit d 1))[2] = b.peek ∧
    (peek4 (peekBit a 8 + peekBit b 4 + peekBit c 2 + peekBit d 1))[1] = c.peek ∧
    (peek4 (peekBit a 8 + peekBit b 4 + peekBit c 2 + peekBit d 1))[0] = d.peek :=
  peek4_flags a.peek b.peek c.peek d.peek

@[simp] theorem peek4_three (a b c : Operand) :
    (peek4 (peekBit a 8 + peekBit b 4 + peekBit c 2))[3] = a.peek ∧
    (peek4 (peekBit a 8 + peekBit b 4 + peekBit c 2))[2] = b.peek ∧
    (peek4 (peekBit a 8 + peekBit b 4 + peekBit c 2))[1] = c.peek :=
  have ⟨ha, hb, hc, _⟩ := peek4_flags a.peek b.peek c.peek false
  ⟨ha, hb, hc⟩

@[simp] theorem peek4_two (a b : Operand) :
    (peek4 (peekBit a 8 + peekBit b 4))[3] = a.peek ∧ (peek4 (peekBit a 8 + peekBit b 4))[2] = b.peek :=
  have ⟨ha, hb, _⟩ := peek4_flags a.peek b.peek false false
  ⟨ha, hb⟩

@[simp] theorem peek4_one (a : Operand) : (peek4 (peekBit a 8))[3] = a.peek :=
  (peek4_flags a.peek false false false).1

@[simp] theorem peek2_two (a b : Operand) :
    (peek2 (peekBit a 2 + peekBit b 1))[1] = a.peek ∧ (peek2 (peekBit a 2 + peekBit b 1))[0] = b.peek :=
  peek2_flags a.peek b.peek

@[simp] theorem peek2_one (a : Operand) : (peek2 (peekBit a 2))[1] = a.peek :=
  (peek2_flags a.peek false).1

/-! ### Names (04 R87) -/

/-- The classes of names that the table assigns to a slot. -/
def Name.inSlot (sl : Slot) : Name → Bool
  | .v _ | .k _ | .row | .col | .idx => sl == .v
  | .z _ => sl == .v || sl == .m
  | .d _ => sl == .c
  | .s _ | .q _ | .p _ | .zero | .one | .ones => true

theorem Name.code_lt (sl : Slot) (n : Name) : n.code sl < 2048 := by
  cases n with
  | s n => simp only [Name.code]; split <;> omega
  | _ => simp only [Name.code]; omega

/-- The code of a numbered name, less the first code of its class, is its number. -/
theorem finName_sub {n base : Nat} (f : Fin n → Name) (i : Fin n) : finName f (base + i.val - base) = some (f i) := by
  simp [finName]

theorem finName_val {n : Nat} (f : Fin n → Name) (i : Fin n) : finName f i.val = some (f i) :=
  dif_pos i.isLt

/-- A name that the slot can name is read back from its code. Scalars stand where the V slot has its first vector registers. -/
theorem Name.ofCode_code {sl : Slot} {n : Name} (h : n.inSlot sl = true) : Name.ofCode sl (n.code sl) = some n := by
  cases n with
  | s i =>
    by_cases vector : sl = .v
    · rw [Name.code, if_pos vector, Name.ofCode.eq_def, if_neg (by omega), if_neg (by omega), if_pos (by omega), if_pos vector,
        finName_sub]
    · rw [Name.code, if_neg vector, Name.ofCode.eq_def, if_pos (by omega), if_neg vector, finName_val]
  | v i =>
    obtain rfl : sl = .v := by simpa [Name.inSlot] using h
    by_cases low : i.val < 64
    · rw [Name.code, Name.ofCode.eq_def, if_pos low, if_pos rfl, finName_val]
    · rw [Name.code, Name.ofCode.eq_def, if_neg low, if_pos i.isLt, if_pos rfl, finName_val]
  | q i =>
    rw [Name.code, Name.ofCode.eq_def, if_neg (by omega), if_neg (by omega), if_neg (by omega), if_pos (by omega), finName_sub]
  | k i =>
    have vector : sl = .v := by simpa [Name.inSlot] using h
    rw [Name.code, Name.ofCode.eq_def, if_neg (by omega), if_neg (by omega), if_neg (by omega), if_neg (by omega), if_pos (by omega),
      if_pos vector, finName_sub]
  | p i =>
    rw [Name.code, Name.ofCode.eq_def, if_neg (by omega), if_neg (by omega), if_neg (by omega), if_neg (by omega), if_neg (by omega),
      if_pos (by omega), finName_sub]
  | z i =>
    have slots : sl = .v ∨ sl = .m := by simpa [Name.inSlot] using h
    rw [Name.code, Name.ofCode.eq_def, if_neg (by omega), if_neg (by omega), if_neg (by omega), if_neg (by omega), if_neg (by omega),
      if_neg (by omega), if_pos (by omega), if_pos slots, finName_sub]
  | d i =>
    have control : sl = .c := by simpa [Name.inSlot] using h
    rw [Name.code, Name.ofCode.eq_def, if_neg (by omega), if_neg (by omega), if_neg (by omega), if_neg (by omega), if_neg (by omega),
      if_neg (by omega), if_neg (by omega), if_pos (by omega), if_pos control, finName_sub]
  | zero | one | ones => rfl
  | row | col | idx =>
    obtain rfl : sl = .v := by simpa [Name.inSlot] using h
    rfl

/-! ### Operand fields (04 R80 to R82) -/

/-- The operand's name is one that the slot can name. -/
def Operand.Named (sl : Slot) (o : Operand) : Prop := o.name.inSlot sl = true

/-- The operand fits a field that has no PEEK bit. -/
structure Operand.Unpeeked (sl : Slot) (o : Operand) : Prop where
  named : o.Named sl
  peek : o.peek = false

/-- An operand field keeps the name and the last-use bit. -/
theorem decOpr_encOpr {sl : Slot} {o : Operand} (h : o.Named sl) (peek : Bool) :
    decOpr sl (encOpr sl o) peek = some { o with peek := peek } := by
  have code := o.name.code_lt sl
  have field : (encOpr sl o).toNat = o.name.code sl + flag o.last 2048 := by
    cases last : o.last <;> simp [encOpr, last] <;> omega
  have name : (encOpr sl o).toNat % 2048 = o.name.code sl := by
    rw [field]; exact add_flag_mod (k := 11) code o.last
  have last : (encOpr sl o).getLsbD 11 = o.last := by
    rw [← BitVec.testBit_toNat, field]; exact testBit_add_flag (k := 11) code o.last
  rw [decOpr, name, last, Name.ofCode_code h]
  rfl

theorem Operand.Named.read {sl : Slot} {o : Operand} (h : o.Named sl) : decOpr sl (encOpr sl o) o.peek = some o :=
  decOpr_encOpr h o.peek

theorem Operand.Unpeeked.read {sl : Slot} {o : Operand} (h : o.Unpeeked sl) : decOpr sl (encOpr sl o) = some o := by
  rw [decOpr_encOpr h.named, ← h.peek]

/-! ### The classes of operands (05 R108, 07 R160) -/

namespace Operand

theorem unpeeked_iff (sl : Slot) (o : Operand) : o.Unpeeked sl ↔ o.name.inSlot sl = true ∧ o.peek = false :=
  ⟨fun h => ⟨h.named, h.peek⟩, fun h => ⟨h.1, h.2⟩⟩

theorem unpeeked_of_plain {sl : Slot} {o : Operand} (plain : o.plain = true) (named : o.name.inSlot sl = true) :
    o.Unpeeked sl := by
  simp_all [Operand.plain, unpeeked_iff]

theorem isSSrc_named {sl : Slot} {hasPeek : Bool} {o : Operand} (h : o.isSSrc sl hasPeek = true) : o.Named sl := by
  obtain ⟨name, last, peek⟩ := o
  cases name <;> simp_all [isSSrc, Named, Name.inSlot]

/-- Without a PEEK bit in the format no source peeks (04 R81). -/
theorem isSSrc_unpeeked {sl : Slot} {o : Operand} (h : o.isSSrc sl false = true) : o.Unpeeked sl := by
  obtain ⟨name, last, peek⟩ := o
  cases name <;> simp_all [isSSrc, peekOk, unpeeked_iff, Name.inSlot]

theorem isSDst_unpeeked {sl : Slot} {o : Operand} (h : o.isSDst sl = true) : o.Unpeeked sl := by
  obtain ⟨name, last, peek⟩ := o
  cases name <;> simp_all [isSDst, plain, unpeeked_iff, Name.inSlot]

theorem isSReg_unpeeked {sl : Slot} {o : Operand} (h : o.isSReg = true) : o.Unpeeked sl := by
  obtain ⟨name, last, peek⟩ := o
  cases name <;> simp_all [isSReg, plain, unpeeked_iff, Name.inSlot]

theorem isPred_unpeeked {sl : Slot} {o : Operand} (h : o.isPred = true) : o.Unpeeked sl := by
  obtain ⟨name, last, peek⟩ := o
  cases name <;> simp_all [isPred, plain, unpeeked_iff, Name.inSlot]

theorem isK_unpeeked {o : Operand} (h : o.isK = true) : o.Unpeeked .v := by
  obtain ⟨name, last, peek⟩ := o
  cases name <;> simp_all [isK, plain, unpeeked_iff, Name.inSlot]

/-- The V and the M slot name accumulators (04 R87). -/
theorem isZ_unpeeked {sl : Slot} {o : Operand} (h : o.isZ = true) (slots : sl = .v ∨ sl = .m) : o.Unpeeked sl := by
  obtain ⟨name, last, peek⟩ := o
  cases name <;> simp_all [isZ, plain, unpeeked_iff, Name.inSlot]

theorem isVSrc_named {o : Operand} (h : o.isVSrc = true) : o.Named .v := by
  obtain ⟨name, last, peek⟩ := o
  cases name <;> simp_all [isVSrc, Named, Name.inSlot]

theorem isVDst_unpeeked {o : Operand} (h : o.isVDst = true) : o.Unpeeked .v := by
  obtain ⟨name, last, peek⟩ := o
  cases name <;> simp_all [isVDst, plain, unpeeked_iff, Name.inSlot]

theorem isVScalar_named {o : Operand} (h : o.isVScalar = true) : o.Named .v := by
  obtain ⟨name, last, peek⟩ := o
  cases name <;> simp_all [isVScalar, isSSrc, Named, Name.inSlot]

theorem isTwrSrc_unpeeked {o : Operand} (h : o.isTwrSrc = true) : o.Unpeeked .v := by
  obtain ⟨name, last, peek⟩ := o
  cases name <;> simp_all [isTwrSrc, unpeeked_iff, Name.inSlot]

/-- No destination is a constant. -/
theorem isSDst_ne_zero {sl : Slot} {o : Operand} (h : o.isSDst sl = true) : o.name ≠ .zero := by
  intro zero
  simp [isSDst, zero] at h

theorem isSReg_ne_zero {o : Operand} (h : o.isSReg = true) : o.name ≠ .zero := by
  intro zero
  simp [isSReg, zero] at h

end Operand

/-- A second source whose register, if it is one, the slot can name. -/
def Src2.Named (sl : Slot) : Src2 → Prop
  | .reg o => o.Named sl
  | .imm _ => True

theorem Src2.isSSrc_named {sl : Slot} {b : Src2} (h : b.isSSrc sl = true) : b.Named sl := by
  cases b with
  | reg o => exact Operand.isSSrc_named h
  | imm i => trivial

theorem Src2.isVSrc_named {b : Src2} (h : b.isVSrc = true) : b.Named .v := by
  cases b with
  | reg o => exact Operand.isVSrc_named h
  | imm i => trivial

/-! ### Address, order and scope fields of F3 (04 R84) -/

@[simp] theorem decOrder_code (o : Order) (fd fa fb hdl : BitVec 12) (off : BitVec 20) (ty sub : BitVec 4) :
    decOrder ⟨fd, fa, fb, hdl, off, BitVec.ofNat 3 o.asc.code, o.ssc.code, o.ord.code, ty, sub⟩ = some o := by
  simp [decOrder, Nat.mod_eq_of_lt o.asc.code_lt]

theorem decAddr_code {sl : Slot} {ad : Addr} (reg : ad.fa.Unpeeked sl) (fd fb : BitVec 12) (asc : BitVec 3) (ssc : BitVec 4)
    (ord : BitVec 2) (ty sub : BitVec 4) :
    decAddr sl ⟨fd, encOpr sl ad.fa, fb, ad.hdl, ad.off, asc, ssc, ord, ty, sub⟩ = some ad := by
  simp [decAddr, reg.read]

@[simp] theorem decRel_relFields (r : Option (Scope × Ssc)) (fd fa fb hdl : BitVec 12) (off : BitVec 20) (ty sub : BitVec 4) :
    decRel ⟨fd, fa, fb, hdl, off, (relFields r).1, (relFields r).2.1, (relFields r).2.2, ty, sub⟩ = some r := by
  cases r with
  | none => rfl
  | some r => simp [decRel, relFields, Nat.mod_eq_of_lt r.1.code_lt]

/-! ### Control (05 R113 to R117) -/

theorem decBrOp_encBrOp {sl : Slot} {o : BrOp} (src : o.src.Unpeeked sl) : decBrOp sl (encBrOp sl o) = some o := by
  simp [decBrOp, encBrOp, src.read]

theorem decBrxOp_encBrxOp {sl : Slot} {o : BrxOp} (tgt : o.tgt.Unpeeked sl) (src : o.src.Unpeeked sl) :
    decBrxOp sl (encBrxOp sl o) = some o := by
  simp [decBrxOp, encBrxOp, tgt.read, src.read]

theorem decRegDisp_encRegDisp {sl : Slot} {o : RegDisp} (r : o.r.Unpeeked sl) : decRegDisp sl (encRegDisp sl o) = some o := by
  simp [decRegDisp, encRegDisp, r.read]

/-! ### The scalar block (05 R110 to R112) -/

theorem decSBin_encSBin {sl : Slot} {o : SBin} (d : o.d.Unpeeked sl) (a : o.a.Named sl) (b : o.b.Named sl) :
    decSBin sl (encSBin sl o) = some o := by
  obtain ⟨ty, od, oa, _ | i⟩ := o
  · have b : Operand.Named sl _ := b
    simp [decSBin, encSBin, d.read, a.read, b.read]
  · simp [decSBin, encSBin, d.read, a.read]

theorem decSUn_encSUn {sl : Slot} {o : SUn} (d : o.d.Unpeeked sl) (a : o.a.Named sl) : decSUn sl (encSUn sl o) = some o := by
  simp [decSUn, encSUn, d.read, a.read]

theorem decSSel_encSSel {sl : Slot} {o : SSel} (d : o.d.Unpeeked sl) (a : o.a.Named sl) (b : o.b.Named sl)
    (p : o.p.Unpeeked sl) : decSSel sl (encSSel sl o) = some o := by
  simp [decSSel, encSSel, d.read, a.read, b.read, p.read]

theorem decMovi_encMovi {sl : Slot} {o : SImm} (d : o.d.Unpeeked sl) : decMovi sl (encMovi sl o) = some o := by
  simp [decMovi, encMovi, d.read]

theorem decMoviHigh_encMoviHigh {sl : Slot} {o : SImm} (d : o.d.Unpeeked sl) : decMoviHigh sl (encMoviHigh sl o) = some o := by
  simp [decMoviHigh, decMovi, encMoviHigh, d.read]

/-- CMP's join stands above its condition (05 R112). -/
theorem Join.code_above_cond {n : Nat} (c : Cond) (j : Join) (h : 32 ≤ n) :
    (c.code + 8 * j.code) % n / 8 % 4 = j.code := by
  have cond_lt := c.code_lt
  have join_lt := j.code_lt
  have whole : (c.code + 8 * j.code) % n = c.code + 8 * j.code := Nat.mod_eq_of_lt (by omega)
  omega

theorem decSCmp_encSCmp {sl : Slot} {o : SCmp} (d : o.d.Unpeeked sl) (a : o.a.Named sl) (b : o.b.Named sl) :
    decSCmp sl (encSCmp sl o) = some o := by
  obtain ⟨ty, od, oa, _ | i, cond, join⟩ := o
  · have b : Operand.Named sl _ := b
    simp [decSCmp, encSCmp, d.read, a.read, b.read, Nat.mod_eq_of_lt cond.code_lt, Join.code_above_cond]
  · simp [decSCmp, encSCmp, d.read, a.read, Nat.mod_eq_of_lt cond.code_lt, Join.code_above_cond]

/-! ### The C slot (05 R118 to R125) -/

theorem decQCntOp_encQCntOp {sl : Slot} {o : QCntOp} (d : o.d.Unpeeked sl) (q : o.q.Unpeeked sl) :
    decQCntOp sl (encQCntOp sl o) = some o := by
  simp [decQCntOp, encQCntOp, d.read, q.read]

theorem decTidWrOp_encTidWrOp {sl : Slot} {o : TidWrOp} (idx : o.idx.Named sl) (val : o.val.Named sl) :
    decTidWrOp sl (encTidWrOp sl o) = some o := by
  simp [decTidWrOp, encTidWrOp, idx.read, val.read]

theorem decTidRdOp_encTidRdOp {sl : Slot} {o : TidRdOp} (d : o.d.Unpeeked sl) (idx : o.idx.Named sl) :
    decTidRdOp sl (encTidRdOp sl o) = some o := by
  simp [decTidRdOp, encTidRdOp, d.read, idx.read]

theorem decRdSys_encRdSys {sl : Slot} {o : SysOp} (r : o.r.Unpeeked sl) : decRdSys sl (encRdSys sl o) = some o := by
  simp [decRdSys, encRdSys, r.read]

theorem decWrSys_encWrSys {sl : Slot} {o : SysOp} (r : o.r.Unpeeked sl) : decWrSys sl (encWrSys sl o) = some o := by
  simp [decWrSys, encWrSys, r.read]

theorem decTrapOp_encTrapOp {sl : Slot} {o : TrapOp} (src : o.src.Unpeeked sl) : decTrapOp sl (encTrapOp sl o) = some o := by
  simp [decTrapOp, encTrapOp, src.read]

/-! ### The A slot: memory accesses, atomics and fences (06 R135 to R142) -/

theorem decLdOp_encLdOp {sl : Slot} {o : LdOp} (d : o.d.Unpeeked sl) (ad : o.ad.fa.Unpeeked sl) :
    decLdOp sl (encLdOp sl o) = some o := by
  simp [decLdOp, encLdOp, f3Of, d.read, decAddr_code ad]

theorem decStOp_encStOp {sl : Slot} {o : StOp} (b : o.b.Unpeeked sl) (ad : o.ad.fa.Unpeeked sl) :
    decStOp sl (encStOp sl o) = some o := by
  simp [decStOp, encStOp, f3Of, b.read, decAddr_code ad]

theorem decLdq_encLdq {sl : Slot} {loc : Bool} {o : QMemOp} (q : o.q.Unpeeked sl) (ad : o.ad.fa.Unpeeked sl) :
    decLdq sl loc (encLdq sl loc o) = some o := by
  simp [decLdq, encLdq, f3Of, q.read, decAddr_code ad]

theorem decStq_encStq {sl : Slot} {loc : Bool} {o : QMemOp} (q : o.q.Unpeeked sl) (ad : o.ad.fa.Unpeeked sl) :
    decStq sl loc (encStq sl loc o) = some o := by
  simp [decStq, encStq, f3Of, q.read, decAddr_code ad]

theorem decAtOp_encAtOp {sl : Slot} {o : AtOp} (d : ∀ x ∈ o.d, x.Unpeeked sl) (b : o.b.Unpeeked sl) (ad : o.ad.fa.Unpeeked sl) :
    decAtOp sl (encAtOp sl o) = some o := by
  obtain ⟨ty, _ | x, ob, oad, oo⟩ := o
  · simp [decAtOp, encAtOp, f3Of, b.read, decAddr_code ad]
  · simp [decAtOp, encAtOp, f3Of, (d x rfl).read, b.read, decAddr_code ad]

theorem decFenceOp_encFenceOp {sl : Slot} (o : FenceOp) : decFenceOp sl (encFenceOp sl o) = some o := by
  simp [decFenceOp, encFenceOp]

theorem decQJoin_encQJoin {sl : Slot} (m : BitVec 6) : decQJoin sl (encQJoin sl m) = some m := by
  simp [decQJoin, encQJoin]

theorem decRecOp_encRecOp {sl : Slot} {o : RecOp} (b0 : o.b0.Unpeeked sl) (b1 : o.b1.Unpeeked sl) (b2 : o.b2.Unpeeked sl)
    (b3 : o.b3.Unpeeked sl) : decRecOp sl (encRecOp sl o) = some o := by
  simp [decRecOp, encRecOp, b0.read, b1.read, b2.read, b3.read]

/-! ### The A slot: messages, the fabric and landing slots (06 R155 to R157, 17 R367 to R369, 18 R380) -/

theorem decMSendOp_encMSendOp {sl : Slot} {o : MSendOp} (d : o.d.Unpeeked sl) (dst : o.dst.Unpeeked sl) (src : o.src.Unpeeked sl) :
    decMSendOp sl (encMSendOp sl o) = some o := by
  simp [decMSendOp, encMSendOp, d.read, dst.read, src.read]

theorem decRGet_encRGet {sl : Slot} {pop : Bool} {o : RGetOp} (d : o.d.Unpeeked sl) :
    decRGet sl pop (encRGet sl pop o) = some o := by
  simp [decRGet, encRGet, d.read]

theorem decRWaitOp_encRWaitOp {sl : Slot} {o : RWaitOp} (d : o.d.Unpeeked sl) (cnt : o.cnt.Unpeeked sl) :
    decRWaitOp sl (encRWaitOp sl o) = some o := by
  simp [decRWaitOp, encRWaitOp, d.read, cnt.read]

theorem decFwrOp_encFwrOp {sl : Slot} {o : FwrOp} (len : o.len.Unpeeked sl) (src : o.src.Unpeeked sl) (ad : o.ad.fa.Unpeeked sl) :
    decFwrOp sl (encFwrOp sl o) = some o := by
  simp [decFwrOp, encFwrOp, f3Of, len.read, src.read, decAddr_code ad]

theorem decFreqOp_encFreqOp {sl : Slot} {o : FreqOp} (d : o.d.Unpeeked sl) (dst : o.dst.Unpeeked sl) (src : o.src.Unpeeked sl) :
    decFreqOp sl (encFreqOp sl o) = some o := by
  simp [decFreqOp, encFreqOp, d.read, dst.read, src.read]

/-- A field that holds a name other than c.zero is not the code of c.zero. -/
theorem encOpr_ne_zero {sl : Slot} {o : Operand} (named : o.Unpeeked sl) (ne : o.name ≠ .zero) : encOpr sl o ≠ 1696#12 := by
  intro code
  have zero : decOpr sl 1696#12 = some { name := .zero } := rfl
  have read := named.read
  rw [code, zero, Option.some.injEq] at read
  exact ne (read ▸ rfl)

theorem decFatomOp_encFatomOp {sl : Slot} {o : FatomOp} (d : ∀ x ∈ o.d, x.Unpeeked sl ∧ x.name ≠ .zero) (b : o.b.Unpeeked sl)
    (ad : o.ad.fa.Unpeeked sl) : decFatomOp sl (encFatomOp sl o) = some o := by
  obtain ⟨ty, op, _ | x, ob, oad, oo⟩ := o
  · simp [decFatomOp, encFatomOp, f3Of, b.read, decAddr_code ad]
  · obtain ⟨dst, ne⟩ := d x rfl
    simp [decFatomOp, encFatomOp, f3Of, dst.read, encOpr_ne_zero dst ne, b.read, decAddr_code ad]

theorem decLzOffer_encLzOffer {sl : Slot} {o : LzOfferOp} (j : o.j.Unpeeked sl) (b : o.b.Unpeeked sl) :
    decLzOffer sl (encLzOffer sl o) = some o := by
  simp [decLzOffer, encLzOffer, j.read, b.read]

theorem decLzGrantOp_encLzGrantOp {sl : Slot} {o : LzGrantOp} (d : o.d.Unpeeked sl) (j : o.j.Unpeeked sl) (w : o.w.Unpeeked sl) :
    decLzGrantOp sl (encLzGrantOp sl o) = some o := by
  simp [decLzGrantOp, encLzGrantOp, d.read, j.read, w.read]

theorem decLzPutOp_encLzPutOp {sl : Slot} {o : LzPutOp} (d : o.d.Unpeeked sl) (g : o.g.Unpeeked sl) (src : o.src.Unpeeked sl) :
    decLzPutOp sl (encLzPutOp sl o) = some o := by
  simp [decLzPutOp, encLzPutOp, d.read, g.read, src.read]

theorem decLzAdoptOp_encLzAdoptOp {sl : Slot} {o : LzAdoptOp} (ed : o.ed.Unpeeked sl) (c : o.c.Unpeeked sl) (j : o.j.Unpeeked sl) :
    decLzAdoptOp sl (encLzAdoptOp sl o) = some o := by
  simp [decLzAdoptOp, encLzAdoptOp, ed.read, c.read, j.read]

theorem decLzFreeOp_encLzFreeOp {sl : Slot} {o : LzFreeOp} (j : o.j.Unpeeked sl) : decLzFreeOp sl (encLzFreeOp sl o) = some o := by
  simp [decLzFreeOp, encLzFreeOp, j.read]

theorem decLzStatOp_encLzStatOp {sl : Slot} {o : LzStatOp} (d : o.d.Unpeeked sl) (j : o.j.Unpeeked sl) :
    decLzStatOp sl (encLzStatOp sl o) = some o := by
  simp [decLzStatOp, encLzStatOp, d.read, j.read]

/-! ### The A slot: barriers, pages and queues (12 R291, 15 R323, 16 R343) -/

theorem decBarInitOp_encBarInitOp {sl : Slot} {o : BarInitOp} (d : o.d.Unpeeked sl) (t : o.t.Unpeeked sl)
    (ad : o.ad.fa.Unpeeked sl) : decBarInitOp sl (encBarInitOp sl o) = some o := by
  have kind_lt := o.kind.code_lt
  have kind_below : (2 * o.kind.code + flag o.rearm 8) % 8 = 2 * o.kind.code := add_flag_mod (k := 3) (by omega) o.rearm
  have kind : (2 * o.kind.code + flag o.rearm 8) % 16 / 2 % 4 = o.kind.code := by omega
  have rearm : (BitVec.ofNat 4 (2 * o.kind.code + flag o.rearm 8))[3] = o.rearm :=
    getElem_ofNat_add_flag (k := 3) (by omega) o.rearm (by decide)
  simp [decBarInitOp, encBarInitOp, f3Of, d.read, t.read, decAddr_code ad, kind, rearm]

/-- PCHK, PEXP and RES of BARARV in SUB (15 R323). -/
theorem barArv_flags (pchk pexp : Bool) :
    let posted := BitVec.ofNat 4 (flag pchk 2 + flag pexp 4)
    let result := BitVec.ofNat 4 (flag pchk 2 + flag pexp 4 + 8)
    (posted[1] = pchk ∧ posted[2] = pexp ∧ posted[3] = false) ∧ (result[1] = pchk ∧ result[2] = pexp ∧ result[3] = true) := by
  cases pchk <;> cases pexp <;> decide

theorem decBarArvOp_encBarArvOp {sl : Slot} {o : BarArvOp} (d : ∀ x ∈ o.d, x.Unpeeked sl) (w : o.w.Unpeeked sl)
    (ad : o.ad.fa.Unpeeked sl) : decBarArvOp sl (encBarArvOp sl o) = some o := by
  obtain ⟨_ | x, ow, pchk, pexp, oad, oo⟩ := o
  · simp [decBarArvOp, encBarArvOp, f3Of, w.read, decAddr_code ad, barArv_flags]
  · simp [decBarArvOp, encBarArvOp, f3Of, (d x rfl).read, w.read, decAddr_code ad, barArv_flags]

theorem decBarWaitOp_encBarWaitOp {sl : Slot} {o : BarWaitOp} (d : o.d.Unpeeked sl) (ph : o.ph.Unpeeked sl)
    (ad : o.ad.fa.Unpeeked sl) : decBarWaitOp sl (encBarWaitOp sl o) = some o := by
  simp [decBarWaitOp, encBarWaitOp, f3Of, d.read, ph.read, decAddr_code ad]

theorem decBarTstOp_encBarTstOp {sl : Slot} {o : BarTstOp} (d : o.d.Unpeeked sl) (ad : o.ad.fa.Unpeeked sl) :
    decBarTstOp sl (encBarTstOp sl o) = some o := by
  simp [decBarTstOp, encBarTstOp, f3Of, d.read, decAddr_code ad]

theorem decPgpfOp_encPgpfOp {sl : Slot} {o : PgpfOp} (d : o.d.Unpeeked sl) (ad : o.ad.fa.Unpeeked sl) :
    decPgpfOp sl (encPgpfOp sl o) = some o := by
  simp [decPgpfOp, encPgpfOp, f3Of, d.read, decAddr_code ad]

theorem decPginOp_encPginOp {sl : Slot} {o : PginOp} (d : o.d.Unpeeked sl) (n : o.n.Unpeeked sl) (ad : o.ad.fa.Unpeeked sl) :
    decPginOp sl (encPginOp sl o) = some o := by
  simp [decPginOp, encPginOp, f3Of, d.read, n.read, decAddr_code ad]

theorem decLaunchOp_encLaunchOp {sl : Slot} {o : LaunchOp} (d : o.d.Unpeeked sl) (q : o.q.Unpeeked sl) (ad : o.ad.fa.Unpeeked sl) :
    decLaunchOp sl (encLaunchOp sl o) = some o := by
  have pre_le := flag_le o.pre 1
  have done_lt := o.done.isLt
  have done : (flag o.pre 1 + 2 * o.done.toNat) % 16 / 2 = o.done.toNat := by omega
  simp [decLaunchOp, encLaunchOp, f3Of, d.read, q.read, decAddr_code ad, done]

theorem decQEntryOp_encQEntryOp {sl : Slot} {o : QEntryOp} (d : o.d.Unpeeked sl) (q : o.q.Unpeeked sl) (fa : o.fa.Unpeeked sl) :
    decQEntryOp sl (encQEntryOp sl o) = some o := by
  simp [decQEntryOp, encQEntryOp, d.read, q.read, fa.read]

/-! ### The V slot: arithmetic (07 R166 to R172) -/

theorem decVBin_encVBin {sl : Slot} {o : VBin} (d : o.d.Unpeeked sl) (a : o.a.Named sl) (b : o.b.Named sl) :
    decVBin sl (encVBin sl o) = some o := by
  obtain ⟨ty, rm, sat, od, oa, _ | i⟩ := o
  · have b : Operand.Named sl _ := b
    simp [decVBin, encVBin, d.read, a.read, b.read]
  · simp [decVBin, encVBin, d.read, a.read]

theorem decVTern_encVTern {sl : Slot} {o : VTern} (d : o.d.Unpeeked sl) (a : o.a.Named sl) (b : o.b.Named sl) (c : o.c.Named sl) :
    decVTern sl (encVTern sl o) = some o := by
  simp [decVTern, encVTern, d.read, a.read, b.read, c.read]

theorem decVUn_encVUn {sl : Slot} {o : VUn} (d : o.d.Unpeeked sl) (a : o.a.Named sl) : decVUn sl (encVUn sl o) = some o := by
  simp [decVUn, encVUn, d.read, a.read]

theorem decVCmpOp_encVCmpOp {sl : Slot} {o : VCmpOp} (d : o.d.Unpeeked sl) (a : o.a.Named sl) (b : o.b.Named sl) :
    decVCmpOp sl (encVCmpOp sl o) = some o := by
  obtain ⟨ty, cond, od, oa, _ | i⟩ := o
  · have b : Operand.Named sl _ := b
    simp [decVCmpOp, encVCmpOp, d.read, a.read, b.read, Nat.mod_eq_of_lt cond.code_lt]
  · simp [decVCmpOp, encVCmpOp, d.read, a.read, Nat.mod_eq_of_lt cond.code_lt]

theorem decVSelOp_encVSelOp {sl : Slot} {o : VSelOp} (d : o.d.Unpeeked sl) (a : o.a.Named sl) (b : o.b.Named sl)
    (sel : o.sel.Named sl) : decVSelOp sl (encVSelOp sl o) = some o := by
  simp [decVSelOp, encVSelOp, d.read, a.read, b.read, sel.read]

/-! ### The V slot: masks, moves and conversions (07 R173 to R187) -/

theorem decMPushOp_encMPushOp {sl : Slot} {o : MPushOp} (a : o.a.Named sl) (b : o.b.Named sl) :
    decMPushOp sl (encMPushOp sl o) = some o := by
  simp [decMPushOp, encMPushOp, a.read, b.read, Nat.mod_eq_of_lt o.cond.code_lt]

theorem decKSetOp_encKSetOp {sl : Slot} {o : KSetOp} (k : o.k.Unpeeked sl) (src : o.src.Named sl) :
    decKSetOp sl (encKSetOp sl o) = some o := by
  have width_lt := o.width.code_lt
  have len_lt := o.len.isLt
  have len : (o.width.code + 8 * o.len.toNat) % 512 / 8 = o.len.toNat := by omega
  simp [decKSetOp, encKSetOp, k.read, src.read, Nat.mod_eq_of_lt width_lt, len]

theorem decKGetOp_encKGetOp {sl : Slot} {o : KGetOp} (d : o.d.Unpeeked sl) (k : o.k.Unpeeked sl) :
    decKGetOp sl (encKGetOp sl o) = some o := by
  simp [decKGetOp, encKGetOp, d.read, k.read]

theorem decVMovOp_encVMovOp {sl : Slot} {o : VMovOp} (d : o.d.Unpeeked sl) (a : o.a.Named sl) :
    decVMovOp sl (encVMovOp sl o) = some o := by
  simp [decVMovOp, encVMovOp, d.read, a.read, Nat.mod_eq_of_lt o.view.code_lt]

theorem decVInsOp_encVInsOp {sl : Slot} {o : VInsOp} (d : o.d.Unpeeked sl) (a : o.a.Named sl) (idx : o.idx.Named sl)
    (val : o.val.Named sl) : decVInsOp sl (encVInsOp sl o) = some o := by
  simp [decVInsOp, encVInsOp, d.read, a.read, idx.read, val.read]

theorem decVExtOp_encVExtOp {sl : Slot} {o : VExtOp} (d : o.d.Unpeeked sl) (a : o.a.Named sl) (idx : o.idx.Named sl) :
    decVExtOp sl (encVExtOp sl o) = some o := by
  simp [decVExtOp, encVExtOp, d.read, a.read, idx.read]

theorem decVCvtOp_encVCvtOp {sl : Slot} {o : VCvtOp} (d : o.d.Unpeeked sl) (a : o.a.Named sl) :
    decVCvtOp sl (encVCvtOp sl o) = some o := by
  have src : (o.src.code.toNat + flag o.half 16) % 16 = o.src.code.toNat := add_flag_mod (k := 4) o.src.code.isLt o.half
  have half : (BitVec.ofNat 15 (o.src.code.toNat + flag o.half 16))[4] = o.half :=
    getElem_ofNat_add_flag (k := 4) o.src.code.isLt o.half (by decide)
  simp [decVCvtOp, encVCvtOp, d.read, a.read, src, half]

theorem decVPack_encVPack {sl : Slot} {o : VPackOp} (d : o.d.Unpeeked sl) (a : o.a.Named sl) :
    decVPack sl (encVPack sl o) = some o := by
  simp [decVPack, encVPack, d.read, a.read]

theorem decVUnpack_encVUnpack {sl : Slot} {o : VUnpackOp} (d : o.d.Unpeeked sl) (a : o.a.Named sl) :
    decVUnpack sl (encVUnpack sl o) = some o := by
  have part : BitVec.ofNat 3 (o.part.toNat + flag o.sx 8) = o.part := ofNat_add_flag o.part o.sx
  have sx : (BitVec.ofNat 15 (o.part.toNat + flag o.sx 8))[3] = o.sx :=
    getElem_ofNat_add_flag (k := 3) o.part.isLt o.sx (by decide)
  simp [decVUnpack, encVUnpack, d.read, a.read, part, sx]

theorem decVQntOp_encVQntOp {sl : Slot} {o : VQntOp} (d : o.d.Unpeeked sl) (a : o.a.Named sl)
    (scale : ∀ x ∈ o.scale, x.Named sl) : decVQntOp sl (encVQntOp sl o) = some o := by
  obtain ⟨ty, rm, od, oa, _ | x, bt⟩ := o
  · simp [decVQntOp, encVQntOp, d.read, a.read]
  · have bt_field : BitVec.ofNat 2 (bt.toNat + 4) = bt := ofNat_add_flag bt true
    have scaled : (BitVec.ofNat 15 (bt.toNat + 4))[2] = true := getElem_ofNat_add_flag (k := 2) bt.isLt true (by decide)
    simp [decVQntOp, encVQntOp, d.read, a.read, (scale x rfl).read, bt_field, scaled]

theorem decVDeqOp_encVDeqOp {sl : Slot} {o : VDeqOp} (d : o.d.Unpeeked sl) (a : o.a.Named sl) :
    decVDeqOp sl (encVDeqOp sl o) = some o := by
  simp [decVDeqOp, encVDeqOp, d.read, a.read]

theorem decVRotOp_encVRotOp {sl : Slot} {o : VRotOp} (d : o.d.Unpeeked sl) (a : o.a.Named sl) (s : o.s.Named sl) :
    decVRotOp sl (encVRotOp sl o) = some o := by
  obtain ⟨od, oa, _ | i⟩ := o
  · have s : Operand.Named sl _ := s
    simp [decVRotOp, encVRotOp, d.read, a.read, s.read]
  · simp [decVRotOp, encVRotOp, d.read, a.read]

theorem decVRedOp_encVRedOp {sl : Slot} {o : VRedOp} (d : o.d.Unpeeked sl) (a : o.a.Named sl) :
    decVRedOp sl (encVRedOp sl o) = some o := by
  have op : (o.op.code + flag o.sat 4) % 4 = o.op.code := add_flag_mod (k := 2) o.op.code_lt o.sat
  have sat : (BitVec.ofNat 15 (o.op.code + flag o.sat 4))[2] = o.sat :=
    getElem_ofNat_add_flag (k := 2) o.op.code_lt o.sat (by decide)
  simp [decVRedOp, encVRedOp, d.read, a.read, op, sat]

theorem decVTrnOp_encVTrnOp {sl : Slot} {o : VTrnOp} (d : o.d.Unpeeked sl) (a : o.a.Named sl) :
    decVTrnOp sl (encVTrnOp sl o) = some o := by
  simp [decVTrnOp, encVTrnOp, d.read, a.read]

/-! ### Accumulators and tiles (07 R190, R192, 08 R213 to R219, 09 R239, R240) -/

theorem decVZOp_encVZOp {sl : Slot} {o : VZOp} (d : o.d.Unpeeked sl) (a : o.a.Named sl) : decVZOp sl (encVZOp sl o) = some o := by
  simp [decVZOp, encVZOp, d.read, a.read]

theorem decTileVOp_encTileVOp {sl : Slot} {o : TileVOp} (r : o.r.Unpeeked sl) (c0 : o.c0.Named sl) (c1 : o.c1.Named sl)
    (c2 : o.c2.Named sl) (c3 : o.c3.Named sl) : decTileVOp sl (encTileVOp sl o) = some o := by
  have t_lt := o.t.isLt
  have seg_lt := o.seg.isLt
  have t : BitVec.ofNat 12 (o.t.toNat + 4096 * o.seg.toNat) = o.t := BitVec.eq_of_toNat_eq (by simp; omega)
  have seg : (o.t.toNat + 4096 * o.seg.toNat) % 32768 / 4096 = o.seg.toNat := by omega
  simp [decTileVOp, encTileVOp, r.read, c0.read, c1.read, c2.read, c3.read, t, seg]

theorem decTileOp_encTileOp {sl : Slot} {o : TileOp} (c0 : o.c0.Unpeeked sl) (c1 : o.c1.Unpeeked sl) (c2 : o.c2.Unpeeked sl)
    (c3 : o.c3.Unpeeked sl) (asc : ∀ a ∈ o.asc, a.notSlot = true) : decTileOp sl (encTileOp sl o) = some o := by
  obtain ⟨t, oc0, oc1, oc2, oc3, all, _ | a, push⟩ := o
  · cases all <;> simp [decTileOp, encTileOp, c0.read, c1.read, c2.read, c3.read]
  · have all_le := flag_le all 1
    have asc_lt := a.code_lt
    have scope : (flag all 1 + 2 * a.code) % 2097152 / 2 % 8 = a.code := by omega
    simp [decTileOp, encTileOp, c0.read, c1.read, c2.read, c3.read, scope, Scope.code_ne_zero (asc a rfl)]

theorem decTpfItinOp_encTpfItinOp {sl : Slot} {o : TpfItinOp} (off : o.off.Unpeeked sl) (n : o.n.Unpeeked sl) :
    decTpfItinOp sl (encTpfItinOp sl o) = some o := by
  simp [decTpfItinOp, encTpfItinOp, off.read, n.read]

theorem decTEdAcqOp_encTEdAcqOp {sl : Slot} {o : TEdAcqOp} (w : o.w.Unpeeked sl) (d : o.d.Unpeeked sl) :
    decTEdAcqOp sl (encTEdAcqOp sl o) = some o := by
  have asc_lt := o.asc.code_lt
  have asc_below : (2 * o.asc.code + flag o.nowait 16) % 16 = 2 * o.asc.code := add_flag_mod (k := 4) (by omega) o.nowait
  have asc : (2 * o.asc.code + flag o.nowait 16) % 2097152 / 2 % 8 = o.asc.code := by omega
  have nowait : (BitVec.ofNat 21 (2 * o.asc.code + flag o.nowait 16))[4] = o.nowait :=
    getElem_ofNat_add_flag (k := 4) (by omega) o.nowait (by decide)
  simp [decTEdAcqOp, encTEdAcqOp, w.read, d.read, asc, nowait]

theorem decMzClrOp_encMzClrOp {sl : Slot} {o : MzClrOp} (z : o.z.Unpeeked sl) : decMzClrOp sl (encMzClrOp sl o) = some o := by
  simp [decMzClrOp, encMzClrOp, z.read]

theorem decMTermOp_encMTermOp {sl : Slot} {o : MTermOp} (d : o.d.Unpeeked sl) : decMTermOp sl (encMTermOp sl o) = some o := by
  have sel : (o.sel.code + flag o.clr 8) % 8 = o.sel.code := add_flag_mod (k := 3) o.sel.code_lt o.clr
  have clr : (BitVec.ofNat 15 (o.sel.code + flag o.clr 8))[3] = o.clr :=
    getElem_ofNat_add_flag (k := 3) o.sel.code_lt o.clr (by decide)
  simp [decMTermOp, encMTermOp, d.read, sel, clr]

/-! ### The head, and the parsers of the slots (04 R74, R89 to R94) -/

theorem decHead_encHead (h : Head) (opc : Nat) : decHead (encHead h opc) = some h := by
  obtain ⟨sy, gs, gsInv, gk, ch, sbs, sbw, qx⟩ := h
  cases gk <;> cases sbs <;> cases qx <;> simp [decHead, encHead]

/-! SUB bit 0 selects between the two forms of an opcode. -/

@[simp] theorem subBit0_encExit (sl : Slot) (disp : BitVec 32) : (encExit sl disp).subBit0 = true := by
  simp [encExit, Payload.subBit0]

@[simp] theorem subBit0_encMovi (sl : Slot) (o : SImm) : (encMovi sl o).subBit0 = false := by
  simp [encMovi, Payload.subBit0]

@[simp] theorem subBit0_encMoviHigh (sl : Slot) (o : SImm) : (encMoviHigh sl o).subBit0 = true := by
  simp [encMoviHigh, Payload.subBit0]

@[simp] theorem subBit0_encWrSys (sl : Slot) (o : SysOp) : (encWrSys sl o).subBit0 = false := by
  simp [encWrSys, Payload.subBit0]

@[simp] theorem subBit0_encSysImm (sl : Slot) (o : SysImm) : (encSysImm sl o).subBit0 = true := by
  simp [encSysImm, Payload.subBit0]

@[simp] theorem subBit0_encLdq (sl : Slot) (loc : Bool) (o : QMemOp) : (encLdq sl loc o).subBit0 = loc := by
  simp [encLdq, f3Of, Payload.subBit0]

@[simp] theorem subBit0_encStq (sl : Slot) (loc : Bool) (o : QMemOp) : (encStq sl loc o).subBit0 = loc := by
  simp [encStq, f3Of, Payload.subBit0]

@[simp] theorem subBit0_encRGet (sl : Slot) (pop : Bool) (o : RGetOp) : (encRGet sl pop o).subBit0 = pop := by
  simp [encRGet, Payload.subBit0]

/-- The parser of the slot answers the instruction for the opcode and the payload that the encoder writes. -/
def Parses (sl : Slot) (i : Instr) : Prop :=
  ∃ h opc p, i.lane sl = some (h, opc, p) ∧ opc < 256 ∧ parseOp sl h opc p = some i

theorem decode_encode_of_parses {sl : Slot} {i : Instr} (wf : i.wf sl = true) (parses : Parses sl i) :
    decode sl (encode sl i) = .ok i := by
  obtain ⟨h, opc, p, lane, opc_lt, parse⟩ := parses
  have word : encode sl i = packWord (encHead h opc) p := by rw [encode, lane]
  have opc_field : (encHead h opc).opc.toNat = opc := Nat.mod_eq_of_lt opc_lt
  simp only [decode, word, unpackWord_packWord, decHead_encHead, opc_field, parse, wf, if_true]

section
variable {sl : Slot} {i : Instr} {h : Head} {opc : Nat} {p : Payload}

/-- An opcode of every slot (04 R89). -/
theorem parses_common (lane : i.lane sl = some (h, opc, p)) (range : opc < 0x08) (parse : parseCommon sl h opc p = some i) :
    Parses sl i :=
  ⟨h, opc, p, lane, by omega, by rw [parseOp.eq_def, if_pos range, parse]⟩

/-- An opcode of the scalar block, which the V slot does not have (04 R90). -/
theorem parses_scalar (slot : sl ≠ .v) (lane : i.lane sl = some (h, opc, p)) (range : 0x08 ≤ opc ∧ opc < 0x30)
    (parse : parseScalar sl h opc p = some i) : Parses sl i := by
  refine ⟨h, opc, p, lane, by omega, ?_⟩
  rw [parseOp.eq_def, if_neg (by omega)]
  cases sl with
  | v => exact absurd rfl slot
  | c => exact (if_pos range.2).trans parse
  | a | m => exact (if_pos (by omega)).trans parse

/-- An opcode of the C slot (04 R91). -/
theorem parses_c (lane : i.lane .c = some (h, opc, p)) (range : 0x30 ≤ opc ∧ opc < 256) (parse : parseC .c h opc p = some i) :
    Parses .c i :=
  ⟨h, opc, p, lane, range.2, by rw [parseOp.eq_def, if_neg (by omega)]; exact (if_neg (by omega)).trans parse⟩

/-- An opcode of the A slot (04 R92). -/
theorem parses_a (lane : i.lane .a = some (h, opc, p)) (range : 0x40 ≤ opc ∧ opc < 256) (parse : parseA .a h opc p = some i) :
    Parses .a i :=
  ⟨h, opc, p, lane, range.2, by rw [parseOp.eq_def, if_neg (by omega)]; exact (if_neg (by omega)).trans parse⟩

/-- An opcode of the V slot (04 R93). -/
theorem parses_v (lane : i.lane .v = some (h, opc, p)) (range : 0x08 ≤ opc ∧ opc < 256) (parse : parseV .v h opc p = some i) :
    Parses .v i :=
  ⟨h, opc, p, lane, range.2, by rw [parseOp.eq_def, if_neg (by omega)]; exact parse⟩

/-- An opcode of the M slot (04 R94). -/
theorem parses_m (lane : i.lane .m = some (h, opc, p)) (range : 0x40 ≤ opc ∧ opc < 256) (parse : parseM .m h opc p = some i) :
    Parses .m i :=
  ⟨h, opc, p, lane, range.2, by rw [parseOp.eq_def, if_neg (by omega)]; exact (if_neg (by omega)).trans parse⟩

end

/-! ### Operands whose conditions have a name -/

section
open Operand

variable {sl : Slot}

theorem SBin.read_of_ok {o : SBin} (ok : o.ok sl = true) : decSBin sl (encSBin sl o) = some o := by
  simp only [SBin.ok, Bool.and_eq_true, and_assoc] at ok
  obtain ⟨d, a, b⟩ := ok
  exact decSBin_encSBin (isSDst_unpeeked d) (isSSrc_named a) (Src2.isSSrc_named b)

theorem SUn.read_of_ok {o : SUn} (ok : o.ok sl = true) : decSUn sl (encSUn sl o) = some o := by
  simp only [SUn.ok, Bool.and_eq_true] at ok
  obtain ⟨d, a⟩ := ok
  exact decSUn_encSUn (isSDst_unpeeked d) (isSSrc_named a)

theorem AtOp.read_of_ok {op : AOp} {o : AtOp} (ok : o.ok op = true) : decAtOp .a (encAtOp .a o) = some o := by
  obtain ⟨ty, d, b, ad, ord⟩ := o
  simp only [AtOp.ok, Addr.ok, Bool.and_eq_true, and_assoc] at ok
  obtain ⟨-, ad, b, -, dst⟩ := ok
  refine decAtOp_encAtOp ?_ (isSSrc_unpeeked b) (isSSrc_unpeeked ad)
  rintro x ⟨⟩
  exact isSDst_unpeeked dst

theorem AtOp.read_of_okCas {o : AtOp} (ok : o.okCas = true) : decAtOp .a (encAtOp .a o) = some o := by
  obtain ⟨ty, d, b, ad, ord⟩ := o
  simp only [AtOp.okCas, Addr.ok, Bool.and_eq_true, and_assoc] at ok
  obtain ⟨-, ad, b, -, dst⟩ := ok
  refine decAtOp_encAtOp ?_ (isSSrc_unpeeked b) (isSSrc_unpeeked ad)
  rintro x ⟨⟩
  exact isSReg_unpeeked dst

/-- A barrier's address, in memory or in the local store, has an offset register. -/
theorem Addr.unpeeked_of_ok_or_local {loc : Bool} {ad : Addr} (ok : (if loc = true then ad.okLocal else ad.ok) = true) :
    ad.fa.Unpeeked .a := by
  cases loc with
  | false => exact isSSrc_unpeeked ok
  | true => exact isSSrc_unpeeked (Bool.and_eq_true_iff.1 ok).1

/-- A hint that the instruction does not list is not the head's (04 R77). -/
theorem Head.not_itin_of_ok {h : Head} {hints : List Hint} {gkOk : Bool} (ok : h.ok hints gkOk = true) (unlisted : .itin ∉ hints) :
    ¬(h.ch == .itin) = true := by
  intro itin
  simp [Head.ok, eq_of_beq itin, unlisted] at ok

theorem RecOp.read_of_ok {o : RecOp} (ok : o.ok sl = true) : decRecOp sl (encRecOp sl o) = some o := by
  simp only [RecOp.ok, Bool.and_eq_true, and_assoc] at ok
  obtain ⟨b0, b1, b2, b3⟩ := ok
  exact decRecOp_encRecOp (isSSrc_unpeeked b0) (isSSrc_unpeeked b1) (isSSrc_unpeeked b2) (isSSrc_unpeeked b3)

theorem TileOp.read_of_ok {allOk hasAsc : Bool} {o : TileOp} (ok : o.ok allOk hasAsc = true) :
    decTileOp .m (encTileOp .m o) = some o := by
  obtain ⟨t, c0, c1, c2, c3, all, asc, push⟩ := o
  simp only [TileOp.ok, Bool.and_eq_true, and_assoc] at ok
  obtain ⟨c0, c1, c2, c3, -, scope⟩ := ok
  refine decTileOp_encTileOp (isSSrc_unpeeked c0) (isSSrc_unpeeked c1) (isSSrc_unpeeked c2) (isSSrc_unpeeked c3) ?_
  rintro a ⟨⟩
  exact (Bool.and_eq_true_iff.1 scope).2

theorem VBin.read_of_ok {rmTaken satTaken : Bool} {o : VBin} (ok : o.ok rmTaken satTaken = true) :
    decVBin .v (encVBin .v o) = some o := by
  simp only [VBin.ok, Bool.and_eq_true, and_assoc] at ok
  obtain ⟨-, -, -, d, a, b⟩ := ok
  exact decVBin_encVBin (isVDst_unpeeked d) (isVSrc_named a) (Src2.isVSrc_named b)

theorem VBin.read_of_okInt {o : VBin} (ok : o.okInt = true) : decVBin .v (encVBin .v o) = some o := by
  simp only [VBin.okInt, Bool.and_eq_true, and_assoc] at ok
  obtain ⟨-, -, -, d, a, b⟩ := ok
  exact decVBin_encVBin (isVDst_unpeeked d) (isVSrc_named a) (Src2.isVSrc_named b)

theorem VUn.read_of_okAbs {o : VUn} (ok : o.okAbs = true) : decVUn .v (encVUn .v o) = some o := by
  simp only [VUn.okAbs, Bool.and_eq_true, and_assoc] at ok
  obtain ⟨-, -, -, d, a⟩ := ok
  exact decVUn_encVUn (isVDst_unpeeked d) (isVSrc_named a)

theorem VUn.read_of_okFun {rmTaken : Bool} {o : VUn} (ok : o.okFun rmTaken = true) : decVUn .v (encVUn .v o) = some o := by
  simp only [VUn.okFun, Bool.and_eq_true, and_assoc] at ok
  obtain ⟨-, -, -, d, a⟩ := ok
  exact decVUn_encVUn (isVDst_unpeeked d) (isVSrc_named a)

theorem VUn.read_of_okInt {o : VUn} (ok : o.okInt = true) : decVUn .v (encVUn .v o) = some o := by
  simp only [VUn.okInt, Bool.and_eq_true, and_assoc] at ok
  obtain ⟨-, -, -, d, a⟩ := ok
  exact decVUn_encVUn (isVDst_unpeeked d) (isVSrc_named a)

theorem VRotOp.read_of_ok {o : VRotOp} (ok : o.ok = true) : decVRotOp .v (encVRotOp .v o) = some o := by
  obtain ⟨d, a, s⟩ := o
  simp only [VRotOp.ok, Bool.and_eq_true, and_assoc] at ok
  obtain ⟨d, a, shift⟩ := ok
  refine decVRotOp_encVRotOp (isVDst_unpeeked d) (isVSrc_named a) ?_
  cases s with
  | reg s => exact isVScalar_named shift
  | imm i => trivial

theorem VRedOp.read_of_ok {o : VRedOp} (ok : o.ok = true) : decVRedOp .v (encVRedOp .v o) = some o := by
  simp only [VRedOp.ok, Bool.and_eq_true, and_assoc] at ok
  obtain ⟨-, -, -, d, a⟩ := ok
  exact decVRedOp_encVRedOp (isVDst_unpeeked d) (isVSrc_named a)

theorem VCvtOp.read_of_ok {o : VCvtOp} (ok : o.ok = true) : decVCvtOp .v (encVCvtOp .v o) = some o := by
  simp only [VCvtOp.ok, Bool.and_eq_true, and_assoc] at ok
  obtain ⟨-, -, -, -, d, a⟩ := ok
  exact decVCvtOp_encVCvtOp (isVDst_unpeeked d) (isVSrc_named a)

theorem TileVOp.read_of_okCoords {o : TileVOp} (r : o.r.Unpeeked .v) (ok : o.okCoords = true) :
    decTileVOp .v (encTileVOp .v o) = some o := by
  simp only [TileVOp.okCoords, Bool.and_eq_true, and_assoc] at ok
  obtain ⟨c0, c1, c2, c3⟩ := ok
  exact decTileVOp_encTileVOp r (isVScalar_named c0) (isVScalar_named c1) (isVScalar_named c2) (isVScalar_named c3)

end

section
open Operand

/-! ### Every well-formed lane instruction is parsed back (04 R89 to R94) -/

/-- A well-formed instruction is parsed back from its payload. An event is not well formed in any slot. -/
theorem parses_of_wf {sl : Slot} {i : Instr} (wf : i.wf sl = true) : Parses sl i := by
  cases i
  -- The events: no slot holds one.
  all_goals try exact absurd wf Bool.false_ne_true
  -- The lane instructions: each condition is one fact.
  all_goals
    simp only [Instr.wf, Addr.okLocal, Addr.ok, Bool.and_eq_true, beq_iff_eq, bne_iff_ne, and_assoc] at wf
  -- The opcodes of every slot (04 R89).
  case nop h | endSlot h | lpend h => exact parses_common rfl (by decide) rfl
  case br h o =>
    obtain ⟨-, src⟩ := wf
    exact parses_common rfl (by decide) (congrArg (Option.map _) (decBrOp_encBrOp (isSSrc_unpeeked src)))
  case brx h o =>
    obtain ⟨-, tgt, src⟩ := wf
    exact parses_common rfl (by decide)
      (congrArg (Option.map _) (decBrxOp_encBrxOp (isSSrc_unpeeked tgt) (isSSrc_unpeeked src)))
  case call h o =>
    obtain ⟨-, r⟩ := wf
    exact parses_common rfl (by decide) (congrArg (Option.map _) (decRegDisp_encRegDisp (isSReg_unpeeked r)))
  case ret h o =>
    obtain ⟨-, tgt⟩ := wf
    exact parses_common rfl (by decide) (congrArg (Option.map _) (isSSrc_unpeeked tgt).read)
  case lpset h o =>
    obtain ⟨-, r, -⟩ := wf
    exact parses_common rfl (by decide) (congrArg (Option.map _) (decRegDisp_encRegDisp (isSSrc_unpeeked r)))
  case lpendExit h disp => exact parses_common rfl (by decide) (if_pos (by simp))
  -- The scalar block (04 R90).
  case add h o | sub h o | mul h o | mulh h o | div h o | rem h o | and h o | or h o | xor h o | shl h o | shr h o | sar h o
  | min h o | max h o =>
    obtain ⟨-, slot, ok⟩ := wf
    exact parses_scalar slot rfl (by decide) (congrArg (Option.map _) (SBin.read_of_ok ok))
  case clz h o | popc h o | mov h o =>
    obtain ⟨-, slot, ok⟩ := wf
    exact parses_scalar slot rfl (by decide) (congrArg (Option.map _) (SUn.read_of_ok ok))
  case sel h o =>
    obtain ⟨-, slot, d, a, b, p⟩ := wf
    have read := decSSel_encSSel (isSDst_unpeeked d) (isSSrc_named a) (isSSrc_named b) (isPred_unpeeked p)
    exact parses_scalar slot rfl (by decide) (congrArg (Option.map _) read)
  case movi h o =>
    obtain ⟨-, slot, d⟩ := wf
    have read := decMovi_encMovi (isSDst_unpeeked d)
    exact parses_scalar slot rfl (by decide) ((if_neg (by simp)).trans (congrArg (Option.map _) read))
  case moviHigh h o =>
    obtain ⟨-, slot, d⟩ := wf
    have read := decMoviHigh_encMoviHigh (isSReg_unpeeked (sl := sl) d)
    exact parses_scalar slot rfl (by decide) ((if_pos (by simp)).trans (congrArg (Option.map _) read))
  case cmp h o =>
    obtain ⟨-, slot, d, a, b⟩ := wf
    have read := decSCmp_encSCmp (isPred_unpeeked d) (isSSrc_named a) (Src2.isSSrc_named b)
    exact parses_scalar slot rfl (by decide) (congrArg (Option.map _) read)
  -- The C slot (04 R91).
  case qdrop h o =>
    obtain ⟨-, rfl, plain, queue⟩ := wf
    have named : o.name.inSlot .c = true := by split at queue <;> simp_all [Name.inSlot]
    exact parses_c rfl (by decide) (congrArg (Option.map _) (unpeeked_of_plain plain named).read)
  case qcnt h o =>
    obtain ⟨-, rfl, d, plain, queue⟩ := wf
    have named : o.q.name.inSlot .c = true := by split at queue <;> simp_all [Name.inSlot]
    have read := decQCntOp_encQCntOp (isSDst_unpeeked d) (unpeeked_of_plain plain named)
    exact parses_c rfl (by decide) (congrArg (Option.map _) read)
  case tidwr h o =>
    obtain ⟨-, rfl, idx, val⟩ := wf
    have read := decTidWrOp_encTidWrOp (isSSrc_named idx) (isSSrc_named val)
    exact parses_c rfl (by decide) (congrArg (Option.map _) read)
  case tidrd h o =>
    obtain ⟨-, rfl, d, idx⟩ := wf
    have read := decTidRdOp_encTidRdOp (isSDst_unpeeked d) (isSSrc_named idx)
    exact parses_c rfl (by decide) (congrArg (Option.map _) read)
  case rdsys h o =>
    obtain ⟨-, rfl, r, -⟩ := wf
    exact parses_c rfl (by decide) (congrArg (Option.map _) (decRdSys_encRdSys (isSDst_unpeeked r)))
  case wrsys h o =>
    obtain ⟨-, rfl, r, -⟩ := wf
    have read := decWrSys_encWrSys (isSSrc_unpeeked r)
    exact parses_c rfl (by decide) ((if_neg (by simp)).trans (congrArg (Option.map _) read))
  case wrsysImmediate h o =>
    obtain ⟨-, rfl, -⟩ := wf
    exact parses_c rfl (by decide) (if_pos (by simp))
  case rdcyc h o =>
    obtain ⟨-, rfl, d⟩ := wf
    exact parses_c rfl (by decide) (congrArg (Option.map _) (isSDst_unpeeked d).read)
  case trap h o =>
    obtain ⟨-, rfl, src⟩ := wf
    exact parses_c rfl (by decide) (congrArg (Option.map _) (decTrapOp_encTrapOp (isSSrc_unpeeked src)))
  case yield h =>
    obtain ⟨-, rfl⟩ := wf
    exact parses_c rfl (by decide) rfl
  -- The A slot (04 R92).
  case ld h o | ldl h o =>
    obtain ⟨-, rfl, -, d, ad, -⟩ := wf
    have read := decLdOp_encLdOp (isSDst_unpeeked d) (isSSrc_unpeeked ad)
    exact parses_a rfl (by decide) (congrArg (Option.map _) read)
  case st h o | stl h o =>
    obtain ⟨-, rfl, -, b, ad, -⟩ := wf
    have read := decStOp_encStOp (isSSrc_unpeeked b) (isSSrc_unpeeked ad)
    exact parses_a rfl (by decide) (congrArg (Option.map _) read)
  case ldq h o =>
    obtain ⟨-, rfl, plain, queue, ad, -⟩ := wf
    have named : o.q.name.inSlot .a = true := by split at queue <;> simp_all [Name.inSlot]
    have read := decLdq_encLdq (loc := false) (unpeeked_of_plain plain named) (isSSrc_unpeeked ad)
    exact parses_a rfl (by decide) ((if_neg (by simp)).trans (congrArg (Option.map _) read))
  case ldqLocal h o =>
    obtain ⟨-, rfl, plain, queue, ad, -⟩ := wf
    have named : o.q.name.inSlot .a = true := by split at queue <;> simp_all [Name.inSlot]
    have read := decLdq_encLdq (loc := true) (unpeeked_of_plain plain named) (isSSrc_unpeeked ad)
    exact parses_a rfl (by decide) ((if_pos (by simp)).trans (congrArg (Option.map _) read))
  case stq h o =>
    obtain ⟨-, rfl, plain, queue, ad, -⟩ := wf
    have named : o.q.name.inSlot .a = true := by split at queue <;> simp_all [Name.inSlot]
    have read := decStq_encStq (loc := false) (unpeeked_of_plain plain named) (isSSrc_unpeeked ad)
    exact parses_a rfl (by decide) ((if_neg (by simp)).trans (congrArg (Option.map _) read))
  case stqLocal h o =>
    obtain ⟨-, rfl, plain, queue, ad, -⟩ := wf
    have named : o.q.name.inSlot .a = true := by split at queue <;> simp_all [Name.inSlot]
    have read := decStq_encStq (loc := true) (unpeeked_of_plain plain named) (isSSrc_unpeeked ad)
    exact parses_a rfl (by decide) ((if_pos (by simp)).trans (congrArg (Option.map _) read))
  case aadd h o | amin h o | amax h o | aand h o | aor h o | axor h o | axchg h o | afadd h o =>
    obtain ⟨-, rfl, ok⟩ := wf
    exact parses_a rfl (by decide) (congrArg (Option.map _) (AtOp.read_of_ok ok))
  case acas h o =>
    obtain ⟨-, rfl, ok⟩ := wf
    exact parses_a rfl (by decide) (congrArg (Option.map _) (AtOp.read_of_okCas ok))
  case fence h o =>
    obtain ⟨-, rfl, -⟩ := wf
    exact parses_a rfl (by decide) (congrArg (Option.map _) (decFenceOp_encFenceOp o))
  case qjoin h m =>
    obtain ⟨-, rfl, -⟩ := wf
    exact parses_a rfl (by decide) (congrArg (Option.map _) (decQJoin_encQJoin (sl := .a) m))
  case cpin h o | cpout h o | gath h o | scat h o =>
    obtain ⟨-, rfl, ok⟩ := wf
    exact parses_a rfl (by decide) (congrArg (Option.map _) (RecOp.read_of_ok ok))
  case msend h o =>
    obtain ⟨-, rfl, d, dst, src, -⟩ := wf
    have read := decMSendOp_encMSendOp (isSDst_unpeeked d) (isSSrc_unpeeked dst) (isSSrc_unpeeked src)
    exact parses_a rfl (by decide) (congrArg (Option.map _) read)
  case rget h o =>
    obtain ⟨-, rfl, d⟩ := wf
    have read := decRGet_encRGet (pop := false) (isSDst_unpeeked d)
    exact parses_a rfl (by decide) ((if_neg (by simp)).trans (congrArg (Option.map _) read))
  case rgetPop h o =>
    obtain ⟨-, rfl, d⟩ := wf
    have read := decRGet_encRGet (pop := true) (isSDst_unpeeked d)
    exact parses_a rfl (by decide) ((if_pos (by simp)).trans (congrArg (Option.map _) read))
  case rwait h o =>
    obtain ⟨-, rfl, d, cnt⟩ := wf
    have read := decRWaitOp_encRWaitOp (isSDst_unpeeked d) (isSSrc_unpeeked cnt)
    exact parses_a rfl (by decide) (congrArg (Option.map _) read)
  case fwr h o =>
    obtain ⟨-, rfl, len, src, ad, -⟩ := wf
    have read := decFwrOp_encFwrOp (isSSrc_unpeeked len) (isSSrc_unpeeked src) (isSSrc_unpeeked ad)
    exact parses_a rfl (by decide) (congrArg (Option.map _) read)
  case freq h o =>
    obtain ⟨-, rfl, d, dst, src, -⟩ := wf
    have read := decFreqOp_encFreqOp (isSDst_unpeeked d) (isSSrc_unpeeked dst) (isSSrc_unpeeked src)
    exact parses_a rfl (by decide) (congrArg (Option.map _) read)
  case fatom h o =>
    obtain ⟨-, rfl, -, b, ad, -, -, dst⟩ := wf
    have d : ∀ x ∈ o.d, x.Unpeeked .a ∧ x.name ≠ .zero := by
      intro x named
      rw [Option.mem_def.1 named] at dst
      dsimp only at dst
      split at dst
      · exact ⟨isSReg_unpeeked dst, isSReg_ne_zero dst⟩
      · exact ⟨isSDst_unpeeked dst, isSDst_ne_zero dst⟩
    have read := decFatomOp_encFatomOp d (isSSrc_unpeeked b) (isSSrc_unpeeked ad)
    exact parses_a rfl (by decide) (congrArg (Option.map _) read)
  case lzoffer h o =>
    obtain ⟨-, rfl, j, b⟩ := wf
    have read := decLzOffer_encLzOffer (isSSrc_unpeeked j) (isSSrc_unpeeked b)
    exact parses_a rfl (by decide) (congrArg (Option.map _) read)
  case lzgrant h o =>
    obtain ⟨-, rfl, d, j, w, -⟩ := wf
    have read := decLzGrantOp_encLzGrantOp (isSReg_unpeeked d) (isSSrc_unpeeked j) (isSSrc_unpeeked w)
    exact parses_a rfl (by decide) (congrArg (Option.map _) read)
  case lzput h o =>
    obtain ⟨-, rfl, d, g, src, -⟩ := wf
    have read := decLzPutOp_encLzPutOp (isSDst_unpeeked d) (isSSrc_unpeeked g) (isSSrc_unpeeked src)
    exact parses_a rfl (by decide) (congrArg (Option.map _) read)
  case lzadopt h o =>
    obtain ⟨-, rfl, ed, c, j⟩ := wf
    have read := decLzAdoptOp_encLzAdoptOp (isSSrc_unpeeked ed) (isSSrc_unpeeked c) (isSSrc_unpeeked j)
    exact parses_a rfl (by decide) (congrArg (Option.map _) read)
  case lzfree h o =>
    obtain ⟨-, rfl, j⟩ := wf
    exact parses_a rfl (by decide) (congrArg (Option.map _) (decLzFreeOp_encLzFreeOp (isSSrc_unpeeked j)))
  case lzstat h o =>
    obtain ⟨-, rfl, d, j, -⟩ := wf
    have read := decLzStatOp_encLzStatOp (isSDst_unpeeked d) (isSSrc_unpeeked j)
    exact parses_a rfl (by decide) (congrArg (Option.map _) read)
  case barinit h o =>
    obtain ⟨-, rfl, d, t, ad, -⟩ := wf
    have read := decBarInitOp_encBarInitOp (isSDst_unpeeked d) (isSSrc_unpeeked t) (isSSrc_unpeeked ad)
    exact parses_a rfl (by decide) (congrArg (Option.map _) read)
  case bararv h o =>
    obtain ⟨-, rfl, w, ad, -, dst⟩ := wf
    have d : ∀ x ∈ o.d, x.Unpeeked .a := by
      intro x named
      rw [Option.mem_def.1 named] at dst
      exact isSDst_unpeeked (Bool.and_eq_true_iff.1 dst).1
    have read := decBarArvOp_encBarArvOp d (isSSrc_unpeeked w) (isSSrc_unpeeked ad)
    exact parses_a rfl (by decide) (congrArg (Option.map _) read)
  case barwait h o =>
    obtain ⟨-, rfl, d, ph, ad, -⟩ := wf
    have read := decBarWaitOp_encBarWaitOp (isSDst_unpeeked d) (isSSrc_unpeeked ph) (Addr.unpeeked_of_ok_or_local ad)
    exact parses_a rfl (by decide) (congrArg (Option.map _) read)
  case bartst h o =>
    obtain ⟨-, rfl, d, ad, -⟩ := wf
    have read := decBarTstOp_encBarTstOp (isSDst_unpeeked d) (Addr.unpeeked_of_ok_or_local ad)
    exact parses_a rfl (by decide) (congrArg (Option.map _) read)
  case pgpf h o =>
    obtain ⟨-, rfl, d, ad, -⟩ := wf
    have read := decPgpfOp_encPgpfOp (isSDst_unpeeked d) (isSSrc_unpeeked ad)
    exact parses_a rfl (by decide) (congrArg (Option.map _) read)
  case pgin h o =>
    obtain ⟨-, rfl, d, n, ad, -⟩ := wf
    have read := decPginOp_encPginOp (isSDst_unpeeked d) (isSSrc_unpeeked n) (isSSrc_unpeeked ad)
    exact parses_a rfl (by decide) (congrArg (Option.map _) read)
  case launch h o =>
    obtain ⟨-, rfl, d, q, ad, -⟩ := wf
    have read := decLaunchOp_encLaunchOp (isSReg_unpeeked d) (isSSrc_unpeeked q) (isSSrc_unpeeked ad)
    exact parses_a rfl (by decide) (congrArg (Option.map _) read)
  case qentry h o =>
    obtain ⟨-, rfl, d, q, fa, -⟩ := wf
    have read := decQEntryOp_encQEntryOp (isSDst_unpeeked d) (isSSrc_unpeeked q) (isSSrc_unpeeked fa)
    exact parses_a rfl (by decide) (congrArg (Option.map _) read)
  -- The V slot (04 R93).
  case vadd h o | vsub h o | vmul h o | vmin h o | vmax h o =>
    obtain ⟨-, rfl, ok⟩ := wf
    exact parses_v rfl (by decide) (congrArg (Option.map _) (VBin.read_of_ok ok))
  case vand h o | vor h o | vxor h o | vshl h o | vshr h o | vsar h o =>
    obtain ⟨-, rfl, ok⟩ := wf
    exact parses_v rfl (by decide) (congrArg (Option.map _) (VBin.read_of_okInt ok))
  case vfma h o | vfms h o =>
    obtain ⟨-, rfl, -, d, a, b, c⟩ := wf
    have read := decVTern_encVTern (isVDst_unpeeked d) (isVSrc_named a) (isVSrc_named b) (isVSrc_named c)
    exact parses_v rfl (by decide) (congrArg (Option.map _) read)
  case vabs h o | vneg h o =>
    obtain ⟨-, rfl, ok⟩ := wf
    exact parses_v rfl (by decide) (congrArg (Option.map _) (VUn.read_of_okAbs ok))
  case vrcp h o | vrsq h o | vsqrt h o | vexp2 h o | vlog2 h o =>
    obtain ⟨-, rfl, ok⟩ := wf
    exact parses_v rfl (by decide) (congrArg (Option.map _) (VUn.read_of_okFun ok))
  case vnot h o =>
    obtain ⟨-, rfl, ok⟩ := wf
    exact parses_v rfl (by decide) (congrArg (Option.map _) (VUn.read_of_okInt ok))
  case vcmp h o =>
    obtain ⟨-, rfl, -, d, a, b⟩ := wf
    have read := decVCmpOp_encVCmpOp (isVDst_unpeeked d) (isVSrc_named a) (Src2.isVSrc_named b)
    exact parses_v rfl (by decide) (congrArg (Option.map _) read)
  case vsel h o =>
    obtain ⟨-, rfl, d, a, b, sel⟩ := wf
    have read := decVSelOp_encVSelOp (isVDst_unpeeked d) (isVSrc_named a) (isVSrc_named b) (isVSrc_named sel)
    exact parses_v rfl (by decide) (congrArg (Option.map _) read)
  case mpush h o =>
    obtain ⟨-, rfl, -, a, b⟩ := wf
    exact parses_v rfl (by decide) (congrArg (Option.map _) (decMPushOp_encMPushOp (isVSrc_named a) (isVSrc_named b)))
  case minv h | mpop h | vskipz h disp =>
    obtain ⟨-, rfl⟩ := wf
    exact parses_v rfl (by decide) rfl
  case kset h o =>
    obtain ⟨-, rfl, k, src, -⟩ := wf
    exact parses_v rfl (by decide) (congrArg (Option.map _) (decKSetOp_encKSetOp (isK_unpeeked k) (isSSrc_named src)))
  case kget h o =>
    obtain ⟨-, rfl, d, k⟩ := wf
    exact parses_v rfl (by decide) (congrArg (Option.map _) (decKGetOp_encKGetOp (isSDst_unpeeked d) (isK_unpeeked k)))
  case vmov h o =>
    obtain ⟨-, rfl, d, a⟩ := wf
    exact parses_v rfl (by decide) (congrArg (Option.map _) (decVMovOp_encVMovOp (isVDst_unpeeked d) (isVSrc_named a)))
  case vins h o =>
    obtain ⟨-, rfl, d, a, idx, val⟩ := wf
    have read := decVInsOp_encVInsOp (isVDst_unpeeked d) (isVSrc_named a) (isSSrc_named idx) (isVScalar_named val)
    exact parses_v rfl (by decide) (congrArg (Option.map _) read)
  case vext h o =>
    obtain ⟨-, rfl, d, a, idx⟩ := wf
    have read := decVExtOp_encVExtOp (isSDst_unpeeked d) (isVSrc_named a) (isSSrc_named idx)
    exact parses_v rfl (by decide) (congrArg (Option.map _) read)
  case vcvt h o =>
    obtain ⟨-, rfl, ok⟩ := wf
    exact parses_v rfl (by decide) (congrArg (Option.map _) (VCvtOp.read_of_ok ok))
  case vpack4 h o =>
    obtain ⟨-, rfl, d, a⟩ := wf
    exact parses_v rfl (by decide) (congrArg (Option.map _) (decVPack_encVPack (isVDst_unpeeked d) (isVSrc_named a)))
  case vpack6 h o =>
    obtain ⟨-, rfl, d, a, -⟩ := wf
    exact parses_v rfl (by decide) (congrArg (Option.map _) (decVPack_encVPack (isVDst_unpeeked d) (isVSrc_named a)))
  case vunpack4 h o =>
    obtain ⟨-, rfl, d, a⟩ := wf
    exact parses_v rfl (by decide) (congrArg (Option.map _) (decVUnpack_encVUnpack (isVDst_unpeeked d) (isVSrc_named a)))
  case vunpack6 h o =>
    obtain ⟨-, rfl, d, a, -⟩ := wf
    exact parses_v rfl (by decide) (congrArg (Option.map _) (decVUnpack_encVUnpack (isVDst_unpeeked d) (isVSrc_named a)))
  case vqnt h o =>
    obtain ⟨-, rfl, -, d, a, -, factor⟩ := wf
    have scale : ∀ x ∈ o.scale, x.Named .v := by
      intro x named
      rw [Option.mem_def.1 named] at factor
      exact isSSrc_named factor
    have read := decVQntOp_encVQntOp (isVDst_unpeeked d) (isVSrc_named a) scale
    exact parses_v rfl (by decide) (congrArg (Option.map _) read)
  case vdeq h o =>
    obtain ⟨-, rfl, -, d, a⟩ := wf
    exact parses_v rfl (by decide) (congrArg (Option.map _) (decVDeqOp_encVDeqOp (isVDst_unpeeked d) (isVSrc_named a)))
  case vrotr h o | vrotc h o | vbcr h o | vbcc h o =>
    obtain ⟨-, rfl, ok⟩ := wf
    exact parses_v rfl (by decide) (congrArg (Option.map _) (VRotOp.read_of_ok ok))
  case vredr h o | vredc h o =>
    obtain ⟨-, rfl, ok⟩ := wf
    exact parses_v rfl (by decide) (congrArg (Option.map _) (VRedOp.read_of_ok ok))
  case vtrn h o =>
    obtain ⟨-, rfl, d, a⟩ := wf
    exact parses_v rfl (by decide) (congrArg (Option.map _) (decVTrnOp_encVTrnOp (isVDst_unpeeked d) (isVSrc_named a)))
  case vzrd h o =>
    obtain ⟨-, rfl, d, a⟩ := wf
    have read := decVZOp_encVZOp (isVDst_unpeeked d) (isZ_unpeeked a (.inl rfl)).named
    exact parses_v rfl (by decide) (congrArg (Option.map _) read)
  case vzwr h o =>
    obtain ⟨-, rfl, d, a⟩ := wf
    have read := decVZOp_encVZOp (isZ_unpeeked d (.inl rfl)) (isVSrc_named a)
    exact parses_v rfl (by decide) (congrArg (Option.map _) read)
  case trd h o =>
    obtain ⟨-, rfl, r, ok⟩ := wf
    exact parses_v rfl (by decide) (congrArg (Option.map _) (TileVOp.read_of_okCoords (isVDst_unpeeked r) ok))
  case twr h o =>
    obtain ⟨-, rfl, r, ok⟩ := wf
    exact parses_v rfl (by decide) (congrArg (Option.map _) (TileVOp.read_of_okCoords (isTwrSrc_unpeeked r) ok))
  -- The M slot (04 R94).
  case tpf h o =>
    obtain ⟨head, rfl, ok⟩ := wf
    exact parses_m rfl (by decide)
      ((if_neg (Head.not_itin_of_ok head (by decide))).trans (congrArg (Option.map _) (TileOp.read_of_ok ok)))
  case tpfItinerary h o =>
    obtain ⟨-, itin, rfl, off, n⟩ := wf
    have read := decTpfItinOp_encTpfItinOp (isSSrc_unpeeked off) (isSSrc_unpeeked n)
    exact parses_m rfl (by decide) ((if_pos (beq_iff_eq.2 itin)).trans (congrArg (Option.map _) read))
  case tpin h o | tunpin h o | tlast h o | tstream h o | tinv h o | twb h o | tcmt h o =>
    obtain ⟨-, rfl, ok⟩ := wf
    exact parses_m rfl (by decide) (congrArg (Option.map _) (TileOp.read_of_ok ok))
  case tedacq h o =>
    obtain ⟨-, rfl, w, d, -⟩ := wf
    have read := decTEdAcqOp_encTEdAcqOp (isSSrc_unpeeked w) (isSDst_unpeeked d)
    exact parses_m rfl (by decide) (congrArg (Option.map _) read)
  case mrec h o | mconv h o | mzst h o | mzld h o =>
    obtain ⟨-, rfl, ok⟩ := wf
    exact parses_m rfl (by decide) (congrArg (Option.map _) (RecOp.read_of_ok ok))
  case mzclr h o =>
    obtain ⟨-, rfl, z⟩ := wf
    exact parses_m rfl (by decide) (congrArg (Option.map _) (decMzClrOp_encMzClrOp (isZ_unpeeked z (.inr rfl))))
  case mterm h o =>
    obtain ⟨-, rfl, d⟩ := wf
    exact parses_m rfl (by decide) (congrArg (Option.map _) (decMTermOp_encMTermOp (isSDst_unpeeked d)))

end

/-- The word that a well-formed instruction encodes to decodes to it. -/
theorem decode_eq_ok_of_encode_eq {sl : Slot} {i : Instr} {w : LaneWord} (wf : i.wf sl = true) (word : encode sl i = w) :
    decode sl w = .ok i :=
  word ▸ decode_encode_of_parses wf (parses_of_wf wf)

/-- Settles O56: the parser reads every well-formed instruction back from the fields that the word holds. -/
theorem decodeOfEncode : Obligations.DecodeOfEncode := by
  unfold Obligations.DecodeOfEncode
  exact fun sl i wf => decode_eq_ok_of_encode_eq wf rfl

/-- Settles O55: each instruction is well formed and encodes to the word that the manual writes beside it. -/
theorem wordsDecode : Obligations.WordsDecode := by
  unfold Obligations.WordsDecode
  refine ⟨fun sl => ?zero, ?_, ?_, ?_, ?_, ?_, ?_, ?_, ?_, ?_, ?_, ?_, ?_, ?_, ?_, ?_, ?_, ?_, ?_, ?_, ?_⟩
  case zero => cases sl <;> exact decode_eq_ok_of_encode_eq rfl rfl
  all_goals exact decode_eq_ok_of_encode_eq (by decide) (by decide)

end Sys2Proof

/-! The control instructions (O1 to O6). A word that issues takes the state that its body answers from the state in which it has issued;
each instruction's rule follows its body operand by operand, and each function of the scalar table is the rule's own arithmetic. -/

namespace Sys2Proof.Machine

open Sys2Proof

/-! ### The state in which a word has issued -/

/-- Issuing moves the PC and the scheduling state of its slot; registers, predicates and loop stack stay (02 R27). -/
theorem startIssue_slot (h : Head) (sl : Slot) (k : Core) : (startIssue h sl k).slot sl =
    { k.slot sl with pc := (k.slot sl).pc + 1, blk := none, arrived := none, solo := none, entry := none } := by
  unfold startIssue
  cases h.qx <;> exact Core.updSlot_slot _ _ _

@[simp] theorem startIssue_grp (h : Head) (sl : Slot) (k : Core) : (startIssue h sl k).grp = k.grp := by
  unfold startIssue
  cases h.qx <;> rfl

@[simp] theorem started_cur (h : Head) (s : State) : (started h s).cur = s.cur := rfl

@[simp] theorem State.updCore_here (s : State) (f : Core → Core) : (s.updCore s.cur.1 f).here = f s.here :=
  State.updCore_core _ _ _

@[simp] theorem started_here (h : Head) (s : State) : (started h s).here = startIssue h s.cur.2 s.here :=
  State.updCore_core _ _ _

@[simp] theorem started_pred (h : Head) (s : State) (n : Fin 16) :
    ((started h s).here.slot s.cur.2).pred n = (s.here.slot s.cur.2).pred n := by
  rw [started_here, startIssue_slot]; rfl

@[simp] theorem started_loops (h : Head) (s : State) :
    ((started h s).here.slot s.cur.2).loops = (s.here.slot s.cur.2).loops := by
  rw [started_here, startIssue_slot]

/-- The bundle that a word which has issued sees as its own is the one at which its slot stood (05 R113). -/
theorem curBundle_started (h : Head) (s : State) :
    curBundle (started h s) = .ok ((s.here.slot s.cur.2).pc, started h s) := by
  have moved : ((started h s).here.slot s.cur.2).pc = (s.here.slot s.cur.2).pc + 1 := by
    rw [started_here, startIssue_slot]
  have back : ((started h s).here.slot s.cur.2).pc - 1 = (s.here.slot s.cur.2).pc := by
    rw [moved, BitVec.add_sub_cancel]
  exact congrArg (fun n => Except.ok (n, started h s)) back

/-! ### What a scalar source leaves of the slot that reads it -/

/-- A source may pop a queue; the slots of the core stay, and the same slot moves. -/
theorem readS_keeps {o : Operand} {s t : State} {v : Word} (h : readS o s = .ok (v, t)) :
    t.cur = s.cur ∧ t.here.slots = s.here.slots := by
  obtain ⟨q, rfl⟩ := readS_queues h
  exact ⟨rfl, by rw [State.updCore_here]⟩

theorem readSrc2_keeps {o : Src2} {s t : State} {v : Word} (h : readSrc2 o s = .ok (v, t)) :
    t.cur = s.cur ∧ t.here.slots = s.here.slots := by
  obtain ⟨q, rfl⟩ := readSrc2_queues h
  exact ⟨rfl, by rw [State.updCore_here]⟩

theorem readS_cur {o : Operand} {s t : State} {v : Word} (h : readS o s = .ok (v, t)) : t.cur = s.cur :=
  (readS_keeps h).1

theorem readS_slot {o : Operand} {s t : State} {v : Word} (h : readS o s = .ok (v, t)) (sl : Slot) :
    t.here.slot sl = s.here.slot sl :=
  congrArg (·[Slot.fin sl]) (readS_keeps h).2

theorem readSrc2_slot {o : Src2} {s t : State} {v : Word} (h : readSrc2 o s = .ok (v, t)) (sl : Slot) :
    t.here.slot sl = s.here.slot sl :=
  congrArg (·[Slot.fin sl]) (readSrc2_keeps h).2

theorem getSlot_here (s : State) : getSlot s = .ok (s.here.slot s.cur.2, s) := rfl

@[simp] theorem modSlot_ok (f : SlotState → SlotState) (s : State) :
    modSlot f s = .ok ((), s.updCore s.cur.1 (·.updSlot s.cur.2 f)) := rfl

/-- A slot updated to what it is stays. -/
theorem Core.updSlot_same (k : Core) (sl : Slot) (f : SlotState → SlotState) (h : f (k.slot sl) = k.slot sl) :
    k.updSlot sl f = k := by
  rw [Core.updSlot, h, Core.setSlot, Core.slot]
  simp only [Fin.getElem_fin, Vector.set_getElem_self]

/-! ### The arithmetic table (05 R110) -/

theorem mulhOf_eq (ty : STy) (a b : Word) : mulhOf ty a b = BitVec.ofInt 64 (asInt ty a * asInt ty b / 2 ^ 64) := by
  cases ty with
  | i64 => rfl
  | n64 => exact (BitVec.ofInt_natCast 64 (a.toNat * b.toNat / 2 ^ 64)).symm

theorem divOf_eq (ty : STy) (a b : Word) :
    divOf ty a b = if b = 0 then BitVec.allOnes 64 else BitVec.ofInt 64 ((asInt ty a).tdiv (asInt ty b)) := by
  cases ty with
  | i64 => rfl
  | n64 => simp only [divOf, asInt, ← Int.ofNat_tdiv, BitVec.ofInt_natCast]

theorem remOf_eq (ty : STy) (a b : Word) :
    remOf ty a b = if b = 0 then a else BitVec.ofInt 64 ((asInt ty a).tmod (asInt ty b)) := by
  cases ty with
  | i64 => rfl
  | n64 => simp only [remOf, asInt, ← Int.ofNat_tmod, BitVec.ofInt_natCast]

theorem sub_eq_ofInt (a b : Word) : a - b = BitVec.ofInt 64 ((a.toNat : Int) - b.toNat) := by
  apply BitVec.eq_of_toInt_eq
  rw [BitVec.toInt_sub, BitVec.toInt_ofInt, BitVec.toInt_eq_toNat_bmod, BitVec.toInt_eq_toNat_bmod, Int.bmod_sub_bmod,
    Int.sub_bmod_bmod]

theorem mul_eq_ofNat (a b : Word) : a * b = BitVec.ofNat 64 (a.toNat * b.toNat) := by
  apply BitVec.eq_of_toNat_eq
  rw [BitVec.toNat_mul, BitVec.toNat_ofNat]

theorem shl_eq_ofNat (a b : Word) : a <<< shiftOf b = BitVec.ofNat 64 (a.toNat * 2 ^ (b.toNat % 64)) := by
  apply BitVec.eq_of_toNat_eq
  rw [BitVec.toNat_shiftLeft, Nat.shiftLeft_eq, BitVec.toNat_ofNat]; rfl

theorem shr_eq_ofNat (a b : Word) : a >>> shiftOf b = BitVec.ofNat 64 (a.toNat / 2 ^ (b.toNat % 64)) := by
  rw [← Nat.shiftRight_eq_div_pow, ← BitVec.toNat_ushiftRight, BitVec.ofNat_toNat, BitVec.setWidth_eq]; rfl

theorem sar_eq_ofInt (a b : Word) : a.sshiftRight (shiftOf b) = BitVec.ofInt 64 (a.toInt / 2 ^ (b.toNat % 64)) := by
  rw [BitVec.sshiftRight, Int.shiftRight_eq_div_pow]; rfl

/-- Scalars are compared as the numbers that they are read as. -/
theorem scalarOrd_eq_compare (ty : STy) (a b : Word) : scalarOrd ty a b = compare (asInt ty a) (asInt ty b) := by
  cases ty with
  | i64 => rfl
  | n64 => simp only [scalarOrd, asInt, compare, compareOfLessAndEq, Int.ofNat_lt, Int.ofNat_inj]

theorem minOf_eq (ty : STy) (a b : Word) : minOf ty a b = if asInt ty a ≤ asInt ty b then a else b := by
  simp only [minOf, scalarOrd_eq_compare, Int.compare_eq_lt, ← Int.not_le, ite_not]

theorem maxOf_eq (ty : STy) (a b : Word) : maxOf ty a b = if asInt ty a < asInt ty b then b else a := by
  simp only [maxOf, scalarOrd_eq_compare, Int.compare_eq_lt]

/-- A binary operation acts by the function `g` on its operands. -/
def ComputesBinary (i : Head → SBin → Instr) (g : STy → Word → Word → Word) : Prop :=
  ∃ f, (∀ h o s, exec (i h o) s = lane h (binBody f o) s) ∧ ∀ ty a b, f ty a b = g ty a b

/-- Such an operation completes with the function's result in its destination. -/
theorem ComputesBinary.next {i : Head → SBin → Instr} {g : STy → Word → Word → Word} (computes : ComputesBinary i g)
    {h : Head} {o : SBin} {s s1 s2 t : State} {a b : Word} (issues : Issues h s)
    (read_a : readS o.a (started h s) = .ok (a, s1)) (read_b : readSrc2 o.b s1 = .ok (b, s2))
    (written : writeS o.d (g o.ty a b) s2 = .ok ((), t)) : exec (i h o) s = .next t := by
  obtain ⟨f, meaning, agree⟩ := computes
  rw [meaning]
  refine lane_next issues ?_
  rw [binBody, bind_ok read_a, bind_ok read_b, agree]
  exact written

/-- Settles O1: each of the fourteen functions is the table's. -/
theorem scalarBinaryResult : Obligations.ScalarBinaryResult := by
  unfold Obligations.ScalarBinaryResult
  intro p mem
  have computes : ComputesBinary p.1 p.2 := by
    revert p
    simp only [List.forall_mem_cons]
    refine ⟨?add, ?sub, ?mul, ?mulh, ?div, ?rem, ?and, ?or, ?xor, ?shl, ?shr, ?sar, ?min, ?max, List.forall_mem_nil _⟩
    case add => exact ⟨_, fun _ _ _ => rfl, fun _ => BitVec.add_def⟩
    case sub => exact ⟨_, fun _ _ _ => rfl, fun _ => sub_eq_ofInt⟩
    case mul => exact ⟨_, fun _ _ _ => rfl, fun _ => mul_eq_ofNat⟩
    case mulh => exact ⟨_, fun _ _ _ => rfl, mulhOf_eq⟩
    case div => exact ⟨_, fun _ _ _ => rfl, divOf_eq⟩
    case rem => exact ⟨_, fun _ _ _ => rfl, remOf_eq⟩
    case and => exact ⟨_, fun _ _ _ => rfl, fun _ _ _ => rfl⟩
    case or => exact ⟨_, fun _ _ _ => rfl, fun _ _ _ => rfl⟩
    case xor => exact ⟨_, fun _ _ _ => rfl, fun _ _ _ => rfl⟩
    case shl => exact ⟨_, fun _ _ _ => rfl, fun _ => shl_eq_ofNat⟩
    case shr => exact ⟨_, fun _ _ _ => rfl, fun _ => shr_eq_ofNat⟩
    case sar => exact ⟨_, fun _ _ _ => rfl, fun _ => sar_eq_ofInt⟩
    case min => exact ⟨_, fun _ _ _ => rfl, minOf_eq⟩
    case max => exact ⟨_, fun _ _ _ => rfl, maxOf_eq⟩
  exact fun _ _ _ _ _ _ _ _ => computes.next

/-! ### Unary operations and moves (05 R110, R111) -/

/-- The leading zeros of a number of `n + 1` bits. -/
theorem clzFrom_succ_eq {n v : Nat} (bound : v < 2 ^ (n + 1)) :
    clzFrom (n + 1) v = if v = 0 then n + 1 else n - Nat.log2 v := by
  induction n with
  | zero =>
    obtain rfl | rfl : v = 0 ∨ v = 1 := by omega
    · rfl
    · decide
  | succ n ih =>
    rw [clzFrom]
    cases top : v.testBit (n + 1) with
    | true =>
      have low : 2 ^ (n + 1) ≤ v := Nat.ge_two_pow_of_testBit top
      have nonzero : v ≠ 0 := by have := Nat.two_pow_pos (n + 1); omega
      have log : Nat.log2 v = n + 1 := (Nat.log2_eq_iff nonzero).2 ⟨low, bound⟩
      rw [if_pos rfl, if_neg nonzero, log, Nat.sub_self]
    | false =>
      have high : v < 2 ^ (n + 1) := by
        refine Nat.not_le.1 fun low => ?_
        rw [Nat.testBit_of_two_pow_le_and_two_pow_add_one_gt low bound] at top
        cases top
      rw [if_neg Bool.false_ne_true, ih high]
      split
      · omega
      · next nonzero =>
        have := (Nat.log2_lt nonzero).2 high
        omega

theorem popcFrom_eq_countP (n v : Nat) : popcFrom n v = (List.range n).countP v.testBit := by
  induction n with
  | zero => rfl
  | succ n ih => rw [popcFrom, ih, List.range_succ, List.countP_append, List.countP_singleton, Nat.add_comm]

theorem clzFrom_word (a : Word) : clzFrom 64 a.toNat = if a = 0 then 64 else 63 - Nat.log2 a.toNat := by
  rw [clzFrom_succ_eq a.isLt]
  simp only [← BitVec.toNat_inj, BitVec.ofNat_eq_ofNat, BitVec.toNat_ofNat, Nat.zero_mod]

/-- A unary operation whose function agrees with the table's completes with the table's result. -/
theorem exec_unary_next {i : Head → SUn → Instr} {f g : Word → Word}
    (meaning : ∀ h o s, exec (i h o) s = lane h (unBody f o) s) (table : ∀ a, f a = g a)
    (h : Head) (o : SUn) (s : State) (a : Word) (s1 t : State) (issues : Issues h s)
    (read : readS o.a (started h s) = .ok (a, s1)) (written : writeS o.d (g a) s1 = .ok ((), t)) :
    exec (i h o) s = .next t := by
  rw [meaning]
  refine lane_next issues ?_
  rw [unBody, bind_ok read, table]
  exact written

/-- SEL: a predicate of zero chooses b. -/
theorem exec_sel_next (h : Head) (o : SSel) (s : State) (a b p : Word) (s1 s2 s3 t : State) (issues : Issues h s)
    (read_a : readS o.a (started h s) = .ok (a, s1)) (read_b : readS o.b s1 = .ok (b, s2))
    (read_p : readS o.p s2 = .ok (p, s3)) (written : writeS o.d (if p = 0 then b else a) s3 = .ok ((), t)) :
    exec (.sel h o) s = .next t := by
  have chosen : (if (p != 0) = true then a else b) = if p = 0 then b else a := by
    simp only [bne_iff_ne, ne_eq, ite_not]
  refine lane_next (body := selBody o) issues ?_
  rw [selBody, bind_ok read_a, bind_ok read_b, bind_ok read_p, chosen]
  exact written

/-- An immediate above a low half is the number that the two make. -/
theorem append_setWidth_eq_ofNat (i : BitVec 32) (a : Word) :
    i ++ a.setWidth 32 = BitVec.ofNat 64 (i.toNat * 2 ^ 32 + a.toNat % 2 ^ 32) := by
  apply BitVec.eq_of_toNat_eq
  rw [BitVec.toNat_append, BitVec.toNat_setWidth, BitVec.toNat_ofNat, Nat.shiftLeft_eq, Nat.mul_comm,
    ← Nat.two_pow_add_eq_or_of_lt (Nat.mod_lt _ (Nat.two_pow_pos 32))]
  omega

/-- MOVI's high form reads its destination and replaces the upper half. -/
theorem exec_moviHigh_next (h : Head) (o : SImm) (s : State) (a : Word) (s1 t : State) (issues : Issues h s)
    (read : readS o.d (started h s) = .ok (a, s1))
    (written : writeS o.d (BitVec.ofNat 64 (o.imm.toNat * 2 ^ 32 + a.toNat % 2 ^ 32)) s1 = .ok ((), t)) :
    exec (.moviHigh h o) s = .next t := by
  refine lane_next (body := moviHighBody o) issues ?_
  rw [moviHighBody, bind_ok read, append_setWidth_eq_ofNat]
  exact written

/-- Settles O2: the counts by induction on the width, the moves by what they write. -/
theorem scalarUnaryResult : Obligations.ScalarUnaryResult := by
  unfold Obligations.ScalarUnaryResult
  simp only [List.forall_mem_cons]
  refine ⟨⟨?clz, ?popc, ?mov, List.forall_mem_nil _⟩, exec_sel_next, ?movi, exec_moviHigh_next⟩
  case clz => exact exec_unary_next (fun _ _ _ => rfl) fun a => congrArg _ (clzFrom_word a)
  case popc => exact exec_unary_next (fun _ _ _ => rfl) fun a => congrArg _ (popcFrom_eq_countP 64 a.toNat)
  case mov => exact exec_unary_next (fun _ _ _ => rfl) fun _ => rfl
  case movi => exact fun h o s t issues written => lane_next (body := moviBody o) issues written

/-! ### Compare (05 R112) -/

/-- A compare condition on two numbers, from their order. -/
theorem condOf_compare (c : Cond) (x y : Int) : condOf c (compare x y) =
    match c with
    | .eq => decide (x = y) | .ne => decide (x ≠ y) | .lt => decide (x < y)
    | .le => decide (x ≤ y) | .gt => decide (y < x) | .ge => decide (y ≤ x) := by
  rw [Bool.eq_iff_iff]
  cases c <;> simp only [condOf, beq_iff_eq, bne_iff_ne, decide_eq_true_eq, ne_eq, Int.compare_eq_eq, Int.compare_eq_lt,
    Int.compare_eq_gt, Int.not_lt]

/-- A predicate written reads as written, and the others as before; p15 is never written (02 R35). -/
theorem SlotState.pred_setPred (t : SlotState) {n : Fin 16} (b : Bool) (writable : n ≠ 15) (m : Fin 16) :
    (t.setPred n b).pred m = if m = n then b else t.pred m := by
  have bit : (BitVec.ofNat 16 (2 ^ n.val)).getLsbD m.val = decide (m = n) := by
    rw [BitVec.getLsbD_ofNat, Nat.testBit_two_pow, decide_eq_true m.isLt, Bool.true_and]
    exact decide_eq_decide.2 (eq_comm.trans Fin.ext_iff.symm)
  have stored : (t.setPred n b).p.getLsbD m.val = if m = n then b else t.p.getLsbD m.val := by
    rw [SlotState.setPred, if_neg writable]
    by_cases same : m = n
    · cases b with
      | true => rw [if_pos rfl, BitVec.getLsbD_or, bit, decide_eq_true same, if_pos same, Bool.or_true]
      | false =>
        rw [if_neg Bool.false_ne_true, BitVec.getLsbD_and, BitVec.getLsbD_not, bit, decide_eq_true same, if_pos same,
          Bool.not_true, Bool.and_false, Bool.and_false]
    · cases b with
      | true => rw [if_pos rfl, BitVec.getLsbD_or, bit, decide_eq_false same, if_neg same, Bool.or_false]
      | false =>
        rw [if_neg Bool.false_ne_true, BitVec.getLsbD_and, BitVec.getLsbD_not, bit, decide_eq_false same, if_neg same,
          decide_eq_true m.isLt, Bool.not_false, Bool.and_true, Bool.and_true]
  rw [SlotState.pred, SlotState.pred, stored]
  by_cases same : m = n
  · rw [if_pos same, if_pos same, decide_eq_false (same ▸ writable), Bool.false_or]
  · rw [if_neg same, if_neg same]

/-- A write to p15 is discarded (02 R35). -/
@[simp] theorem SlotState.setPred_fifteen (t : SlotState) (b : Bool) : t.setPred 15 b = t := if_pos rfl

/-- CMP sets its predicate to the condition joined with its old value. -/
theorem exec_cmp_next {h : Head} {o : SCmp} {s s1 s2 : State} {a b : Word} {n : Fin 16} (issues : Issues h s)
    (read_a : readS o.a (started h s) = .ok (a, s1)) (read_b : readSrc2 o.b s1 = .ok (b, s2)) (dest : o.d.name = .p n) :
    exec (.cmp h o) s = .next (s2.updCore s2.cur.1 (·.updSlot s2.cur.2
      (·.setPred n (joinOf o.join ((s2.here.slot s2.cur.2).pred n) (condOf o.cond (scalarOrd o.ty a b)))))) := by
  refine lane_next (body := cmpBody o) issues ?_
  rw [cmpBody, bind_ok read_a, bind_ok read_b, dest]
  rfl

/-- Settles O3: the sources leave the predicates as they stood, and the condition is that of the two numbers. -/
theorem compareResult : Obligations.CompareResult := by
  unfold Obligations.CompareResult
  intro h o s a b s1 s2 n issues read_a read_b dest x y c old new
  have cur : s2.cur = s.cur := (readSrc2_keeps read_b).1.trans (readS_cur read_a : s1.cur = (started h s).cur)
  have preds (m : Fin 16) : (s2.here.slot s.cur.2).pred m = (s.here.slot s.cur.2).pred m := by
    rw [readSrc2_slot read_b, readS_slot read_a, started_pred]
  have joined : joinOf o.join ((s2.here.slot s.cur.2).pred n) (condOf o.cond (scalarOrd o.ty a b)) = new := by
    rw [preds, scalarOrd_eq_compare, condOf_compare]
    rfl
  refine ⟨_, exec_cmp_next issues read_a read_b dest, fun writable m => ?_, ?_⟩
  · rw [← cur, State.updCore_here, Core.updSlot_slot, SlotState.pred_setPred _ _ writable, cur, joined, preds]
  · rintro rfl
    exact State.updCore_same _ _ _ (Core.updSlot_same _ _ _ (SlotState.setPred_fifteen _ _))

/-! ### Branches, calls and loops (05 R113, R116, R117, R127, R128) -/

theorem exec_nop_next (h : Head) (s : State) (may : s.here.mayIssue s.cur.2 = true)
    (ready : schedReady h false s.here s.cur.2 = true) : exec (.nop h) s = .next (started h s) := by
  show Host.Outcome.next (issueWith h false (pure ()) s) = _
  simp only [issueWith, may, ready, Bool.not_true, Bool.false_eq_true, if_false, settle, pure_app, started]

theorem exec_br_next (h : Head) (o : BrOp) (s : State) (v : Word) (s1 : State) (issues : Issues h s)
    (read : readS o.src (started h s) = .ok (v, s1)) :
    exec (.br h o) s = .next (if ccTest o.cc v then s1.goTo ((s.here.slot s.cur.2).pc + o.disp) else s1) := by
  refine lane_next (body := brBody o) issues ?_
  rw [brBody, bind_ok (curBundle_started h s), bind_ok read]
  split <;> rfl

theorem exec_brx_next (h : Head) (o : BrxOp) (s : State) (a v : Word) (s1 s2 : State) (issues : Issues h s)
    (read_target : readS o.tgt (started h s) = .ok (a, s1)) (read_source : readS o.src s1 = .ok (v, s2)) :
    exec (.brx h o) s = .next (if ccTest o.cc v then s2.goTo (a.setWidth 32) else s2) := by
  refine lane_next (body := brxBody o) issues ?_
  rw [brxBody, bind_ok read_target, bind_ok read_source]
  split <;> rfl

theorem exec_call_next (h : Head) (o : RegDisp) (s s1 : State) (issues : Issues h s)
    (written : writeS o.r (((s.here.slot s.cur.2).pc + 1).setWidth 64) (started h s) = .ok ((), s1)) :
    exec (.call h o) s = .next (s1.goTo ((s.here.slot s.cur.2).pc + o.disp)) := by
  refine lane_next (body := callBody o) issues ?_
  rw [callBody, bind_ok (curBundle_started h s), bind_ok written]
  rfl

theorem exec_ret_next (h : Head) (o : Operand) (s : State) (a : Word) (s1 : State) (issues : Issues h s)
    (read : readS o (started h s) = .ok (a, s1)) : exec (.ret h o) s = .next (s1.goTo (a.setWidth 32)) := by
  refine lane_next (body := retBody o) issues ?_
  rw [retBody, bind_ok read]
  rfl

/-- LPSET with a count of zero skips the loop; with any other, and room on the stack, it enters it. -/
theorem exec_lpset_next (h : Head) (o : RegDisp) (s : State) (v : Word) (s1 : State) (issues : Issues h s)
    (read : readS o.r (started h s) = .ok (v, s1)) (room : (s.here.slot s.cur.2).loops.length < 4 ∨ v = 0) :
    let n := (s.here.slot s.cur.2).pc
    exec (.lpset h o) s = .next (if v = 0 then s1.goTo (n + o.disp + 1) else
      s1.updCore s.cur.1 (·.updSlot s.cur.2 fun t =>
        { t with loops := ⟨n + 1, n + o.disp, BitVec.ofNat 32 (min v.toNat 0xFFFFFFFF)⟩ :: t.loops })) := by
  intro n
  have cur : s1.cur = s.cur := (readS_cur read).trans (started_cur h s)
  have loops : (s1.here.slot s1.cur.2).loops = (s.here.slot s.cur.2).loops := by
    rw [cur, readS_slot read, started_loops]
  have count_zero : min v.toNat 0xFFFFFFFF = 0 ↔ v = 0 := by
    rw [← BitVec.toNat_inj]
    show _ ↔ v.toNat = 0
    omega
  refine lane_next (body := lpsetBody o) issues ?_
  rw [lpsetBody, bind_ok (curBundle_started h s), bind_ok read, bind_ok (getSlot_here s1), loops]
  by_cases zero : v = 0
  · rw [if_pos (count_zero.2 zero), if_pos zero]
    rfl
  · have fits : decide ((s.here.slot s.cur.2).loops.length < 4) = true := decide_eq_true (room.resolve_right zero)
    rw [if_neg (mt count_zero.1 zero), if_neg zero, fits, bind_ok (guardFault_true _ s1), modSlot_ok, cur]

/-- LPEND at the end of the top loop goes round again while more than one pass remains. -/
theorem exec_lpend_next (h : Head) (s : State) (e : LoopEntry) (r : List LoopEntry) (issues : Issues h s)
    (top : (s.here.slot s.cur.2).loops = e :: r) (closes : e.stop = (s.here.slot s.cur.2).pc) :
    exec (.lpend h) s = .next ((started h s).updCore s.cur.1 (·.updSlot s.cur.2 fun t =>
      if 1 < e.remain.toNat then { t with loops := { e with remain := e.remain - 1 } :: r, pc := e.start }
      else { t with loops := r })) := by
  have loops : ((started h s).here.slot s.cur.2).loops = e :: r := (started_loops h s).trans top
  refine lane_next (body := lpendBody) issues ?_
  rw [lpendBody, bind_ok (curBundle_started h s), bind_ok (getSlot_here _), started_cur, loops]
  simp only [closes, beq_self_eq_true, bind_ok (guardFault_true _ _)]
  split <;> rfl

theorem exec_lpendExit_next (h : Head) (disp : BitVec 32) (s : State) (e : LoopEntry) (r : List LoopEntry) (issues : Issues h s)
    (top : (s.here.slot s.cur.2).loops = e :: r) :
    exec (.lpendExit h disp) s = .next ((started h s).updCore s.cur.1 (·.updSlot s.cur.2 fun t =>
      { t with loops := r, pc := (s.here.slot s.cur.2).pc + disp })) := by
  have loops : ((started h s).here.slot s.cur.2).loops = e :: r := (started_loops h s).trans top
  refine lane_next (body := lpendExitBody disp) issues ?_
  rw [lpendExitBody, bind_ok (curBundle_started h s), bind_ok (getSlot_here _), started_cur, loops]
  rfl

/-- Settles O4, by the rule of each instruction. -/
theorem branchResult : Obligations.BranchResult := by
  unfold Obligations.BranchResult
  exact ⟨exec_nop_next, fun h s issues => lane_next (body := endBody) issues rfl, exec_br_next, exec_brx_next, exec_call_next,
    exec_ret_next, exec_lpset_next, exec_lpend_next, exec_lpendExit_next⟩

/-! ### Queue control (05 R118, R119) -/

theorem exec_qdrop_next (h : Head) (o : Operand) (s : State) (n : Fin 32) (issues : Issues h s) (queue : o.name = .q n) :
    exec (.qdrop h o) s = .next ((started h s).updCore s.cur.1 fun k =>
      if n.val < 12 then { k with vq := k.vq.set (vectorQ n.val) (dropEntries k.vq[vectorQ n.val]) }
      else { k with q := k.q.set (scalarQ n.val) (dropEntries k.q[scalarQ n.val]) }) := by
  refine lane_next (body := qdropBody o) issues ?_
  rw [qdropBody, queue]
  dsimp only
  split <;> rfl

/-- QCNT of a queue to which it does not push itself writes the counts as they stand. -/
theorem exec_qcnt_next {h : Head} {o : QCntOp} {s t : State} (issues : Issues h s)
    (unchanged : (if o.d.name = o.q.name then withPush (started h s).here o.d.name else (started h s).here) = (started h s).here)
    (written : writeS o.d (qcntOf (started h s).here o.q.name) (started h s) = .ok ((), t)) : exec (.qcnt h o) s = .next t := by
  refine lane_next (body := qcntBody o) issues ?_
  rw [qcntBody, bind_ok (getCore_ok _)]
  exact (congrArg (fun k => writeS o.d (qcntOf k o.q.name) (started h s)) unchanged).trans written

/-- A push to a token queue counts no entry of a queue register. -/
theorem exec_qcnt_token_next (h : Head) (o : QCntOp) (s : State) (i : Fin 8) (t : State) (issues : Issues h s) (queue : o.q.name = .d i)
    (written : writeS o.d (BitVec.ofNat 64 ((16 - (started h s).here.d[i]) * 2 ^ 32 + (started h s).here.d[i])) (started h s) =
      .ok ((), t)) : exec (.qcnt h o) s = .next t := by
  refine exec_qcnt_next issues ?_ (by rw [queue]; exact written)
  split
  · next same => rw [same, queue]; rfl
  · rfl

/-! ### Tensor-table words (05 R120, R121) -/

theorem tensorIndex_ok {idx : Operand} {base : BitVec 12} {s s1 : State} {i : Word} (read : readS idx s = .ok (i, s1))
    (bound : i.toNat + base.toNat ≤ 4095) : tensorIndex idx base s = .ok (BitVec.ofNat 12 (i.toNat + base.toNat), s1) := by
  rw [tensorIndex, bind_ok read]
  rw [decide_eq_true bound, bind_ok (guardFault_true _ s1)]
  rfl

theorem exec_tidwr_next (h : Head) (o : TidWrOp) (s : State) (i v : Word) (e : Rec128) (x : Context) (s1 s2 s3 : State)
    (issues : Issues h s) (read_index : readS o.idx (started h s) = .ok (i, s1)) (bound : i.toNat + o.base.toNat ≤ 4095)
    (read_value : readS o.val s1 = .ok (v, s2)) (entry : getEntry (BitVec.ofNat 12 (i.toNat + o.base.toNat)) s2 = .ok (e, s3))
    (context : s3.here.ctxId.bind s3.ctx? = some x) :
    let n : BitVec 12 := BitVec.ofNat 12 (i.toNat + o.base.toNat)
    let w := v.toNat &&& tensorMask o.w.toNat
    let s4 := s3.updCore s3.cur.1 fun k =>
      { k with tcache := ⟨n, putBytes e (8 * o.w.toNat) (natLe 8 w)⟩ :: k.tcache.filter (·.n ≠ n) }
    tagRoom s4.here s4.cur.2 0 = true →
    exec (.tidwr h o) s = .next (s4.entered (laneAccess h
      (.tidwr (x.troot.toNat + 128 * n.toNat + 8 * o.w.toNat) (BitVec.ofNat 64 w)) .t ⟨.device, {}, .rlx⟩ .none s4)) := by
  intro n w s4 room
  refine lane_next (body := tidwrBody h o) issues ?_
  rw [tidwrBody, bind_ok (tensorIndex_ok read_index bound), bind_ok read_value, bind_ok entry]
  rw [bind_ok (a := x.troot.toNat) (s1 := s3) (by simp only [context]), bind_ok (modCore_ok _ s3), bind_ok (nextId_ok _),
    bind_ok (curSlot_ok _), bind_ok (curBundle_ok _)]
  exact issueAccess_ok room

theorem exec_tidrd_next (h : Head) (o : TidRdOp) (s : State) (i : Word) (e : Rec128) (s1 s2 t : State) (issues : Issues h s)
    (read_index : readS o.idx (started h s) = .ok (i, s1)) (bound : i.toNat + o.base.toNat ≤ 4095)
    (entry : getEntry (BitVec.ofNat 12 (i.toNat + o.base.toNat)) s1 = .ok (e, s2))
    (written : writeS o.d (BitVec.ofNat 64 (bitsOf e.toNat (64 * o.w.toNat) 64 &&& tensorMask o.w.toNat)) s2 = .ok ((), t)) :
    exec (.tidrd h o) s = .next t := by
  refine lane_next (body := tidrdBody o) issues ?_
  rw [tidrdBody, bind_ok (tensorIndex_ok read_index bound), bind_ok entry]
  exact written

/-- Settles O5, by the rule of each instruction. -/
theorem queueAndTableResult : Obligations.QueueAndTableResult := by
  unfold Obligations.QueueAndTableResult
  refine ⟨exec_qdrop_next, ?qcnt, exec_qcnt_token_next, exec_tidwr_next, exec_tidrd_next⟩
  case qcnt =>
    exact fun h o s n t issues queue distinct written =>
      exec_qcnt_next issues (if_neg distinct) (by rw [queue]; exact written)

/-! ### System registers, the cycle counter, the trap and YIELD (05 R122 to R126) -/

theorem exec_rdsys_next (h : Head) (o : SysOp) (s : State) (v : Word) (t : State) (issues : Issues h s)
    (assigned : (started h s).sysRead s.cur.1 o.sys.toNat = some v) (written : writeS o.r v (started h s) = .ok ((), t)) :
    exec (.rdsys h o) s = .next t := by
  refine lane_next (body := rdsysBody o) issues ?_
  rw [rdsysBody, bind_ok (a := v) (s1 := started h s) (by simp only [started_cur, assigned])]
  exact written

theorem exec_wrsys_next (h : Head) (o : SysOp) (s : State) (v : Word) (s1 : State) (issues : Issues h s)
    (assigned : sysAssigned o.sys.toNat = true) (read : readS o.r (started h s) = .ok (v, s1)) :
    exec (.wrsys h o) s = .next (s1.updCore s1.cur.1 (sysWrite o.sys.toNat v)) := by
  refine lane_next (body := wrsysBody o) issues ?_
  rw [wrsysBody, assigned, bind_ok (guardLegal_true _), bind_ok read]
  rfl

theorem exec_wrsysImmediate_next (h : Head) (o : SysImm) (s : State) (issues : Issues h s)
    (assigned : sysAssigned o.sys.toNat = true) : exec (.wrsysImmediate h o) s =
      .next ((started h s).updCore s.cur.1 (sysWrite o.sys.toNat (BitVec.ofInt 64 o.imm.toInt))) := by
  refine lane_next (body := wrsysImmBody o) issues ?_
  rw [wrsysImmBody, assigned, bind_ok (guardLegal_true _)]
  rfl

theorem exec_rdcyc_next (h : Head) (o : Operand) (s t : State) (issues : Issues h s)
    (written : writeS o (BitVec.ofNat 64 s.cycles[s.cur.1.die]) (started h s) = .ok ((), t)) :
    exec (.rdcyc h o) s = .next t :=
  lane_next (body := rdcycBody o) issues written

/-- A word that acts on the whole state and issues takes the state that its act answers. -/
theorem issueAct_of_issues {h : Head} {act : State → State → State} {s : State} (issues : Issues h s) :
    issueAct h act s = act s (started h s) := by
  obtain ⟨may, guard, ready⟩ := issues
  simp only [issueAct, may, guard, ready, Bool.not_true, Bool.false_eq_true, if_false, started]

/-- TRAP raises the program trap once its value is read, and its slot goes back to its bundle. -/
theorem exec_trap_next (h : Head) (o : TrapOp) (s : State) (v : Word) (s1 : State) (issues : Issues h s)
    (read : readS o.src (started h s) = .ok (v, s1)) :
    let n := (s.here.slot s.cur.2).pc
    exec (.trap h o) s = .next (raiseFault s.cur.1
      { code := 0x0107, src := Slot.src s.cur.2, bundle := n, addr := o.code.setWidth 64, aux := v } (.trap n) (s1.goTo n)) := by
  intro n
  have cur : s1.cur = s.cur := (readS_cur read).trans (started_cur h s)
  have record : trapBody o (started h s) = .ok ({ code := 0x0107, addr := o.code.setWidth 64, aux := v }, s1) := by
    rw [trapBody, bind_ok read]
    rfl
  show Host.Outcome.next (issueAct h (trapIssue o) s) = _
  rw [issueAct_of_issues issues, trapIssue, record, State.goTo]
  dsimp only
  rw [cur]

/-- YIELD stops the group for pre-emption where another waits, and otherwise does nothing. -/
theorem exec_yield_next (h : Head) (s : State) (g : GroupInfo) (issues : Issues h s) (group : s.here.grp = some g) :
    exec (.yield h) s = .next (if (started h s).yieldTo s.cur.1 g then
      (started h s).updCore s.cur.1 fun k => { k with pre := some .stopping, preCause := .yield } else started h s) := by
  have issued : (started h s).here.grp = some g := by
    rw [started_here, startIssue_grp, group]
  refine lane_next (body := yieldBody) issues ?_
  rw [yieldBody, bind_ok (getGroup_ok issued), bind_ok (a := (started h s).yieldTo s.cur.1 g) (s1 := started h s) rfl]
  split <;> rfl

/-- Settles O6, by the rule of each instruction. -/
theorem systemRegisterResult : Obligations.SystemRegisterResult := by
  unfold Obligations.SystemRegisterResult
  exact ⟨exec_rdsys_next, exec_wrsys_next, exec_wrsysImmediate_next, exec_rdcyc_next, exec_trap_next, exec_yield_next⟩

end Sys2Proof.Machine

/-! The access instructions (O7 to O10, O29). An access or an engine operation that a word issues is the lane's own: it takes the core's
next number, the slot and the bundle. Reading operands and reserving a destination take no number, so what enters the core is what the
state at the end names. -/

namespace Sys2Proof.Machine

open Sys2Proof

/-! ### Running a body one operation at a time -/

/-- An operation that succeeds is followed by the rest of the body. -/
theorem bind_next {α β : Type} {m : LaneM α} {f : α → LaneM β} {s s1 : State} {a : α} {r : Except Stop (β × State)}
    (first : m s = .ok (a, s1)) (rest : f a s1 = r) : (m >>= f) s = r :=
  (bind_ok first).trans rest

/-- A value that is read only where the condition holds is followed by the rest of the body either way. -/
theorem readIf_next {α β : Type} {c : Prop} [Decidable c] {m : LaneM α} {f : α → LaneM β} {s t : State} {a other : α}
    {r : Except Stop (β × State)} (read : if c then m s = .ok (a, t) else a = other ∧ t = s) (rest : f a t = r) :
    (if c then m >>= f else pure other >>= f) s = r := by
  split at read
  · next reads =>
    rw [if_pos reads]
    exact bind_next read rest
  · next skips =>
    obtain ⟨rfl, rfl⟩ := read
    rw [if_neg skips]
    exact rest

theorem guardStall_of {b : Bool} (holds : b = true) (s : State) : guardStall b s = .ok ((), s) := by
  rw [holds, guardStall_true]

theorem guardFault_of {b : Bool} (holds : b = true) (f : FaultRec) (s : State) : guardFault b f s = .ok ((), s) := by
  rw [holds, guardFault_true]

/-! ### What enters the lists of the core (02 R48, R49) -/

/-- An access with the core's next number enters it as the lane's, where the slot has tags for its parts; `f` fills in the fields that
the instruction gives. -/
theorem issueFresh_ok {h : Head} {id : Nat} {kind : AccKind} {sk : SKind} {o : Order} {d : Dest} {s : State} (f : Access → Access)
    (number : id = s.here.nextId) (own : ∀ a, (f a).slot = a.slot)
    (room : tagRoom s.here s.cur.2 (f (laneAccess h kind sk o d s)).parts.length = true) :
    (do issueAccess (f (freshAccess h id (← curSlot) (← curBundle) kind sk o d))) s =
      .ok ((), s.entered (f (laneAccess h kind sk o d s))) := by
  subst number
  refine bind_next (curSlot_ok s) (bind_next (curBundle_ok s) (issueAccess_ok ?_))
  rw [own]
  exact room

/-- An access without a destination. -/
theorem issueNow_ok {h : Head} {kind : AccKind} {sk : SKind} {o : Order} {s : State} (f : Access → Access)
    (own : ∀ a, (f a).slot = a.slot) (room : tagRoom s.here s.cur.2 (f (laneAccess h kind sk o .none s)).parts.length = true) :
    (do issueAccess (f (freshAccess h (← nextId) (← curSlot) (← curBundle) kind sk o .none))) s =
      .ok ((), s.entered (f (laneAccess h kind sk o .none s))) :=
  bind_next (nextId_ok s) (issueFresh_ok f rfl own room)

/-- An access whose destination is reserved first. -/
theorem issueReserved_ok {h : Head} {kind : AccKind} {sk : SKind} {o : Order} {dst : Operand} {d : Dest} {s t : State}
    (f : Access → Access) (reserved : reserveDest dst s.here.nextId s = .ok (d, t)) (own : ∀ a, (f a).slot = a.slot)
    (room : tagRoom t.here t.cur.2 (f (laneAccess h kind sk o d t)).parts.length = true) :
    (do
      let id ← nextId
      let d ← reserveDest dst id
      issueAccess (f (freshAccess h id (← curSlot) (← curBundle) kind sk o d))) s =
      .ok ((), t.entered (f (laneAccess h kind sk o d t))) :=
  bind_next (nextId_ok s) (bind_next reserved (issueFresh_ok f (reserveDest_keeps reserved).2.1.symm own room))

/-- An operation with the core's next number enters its queue as the lane's, where the queue can take it. -/
theorem enterFresh_ok {h : Head} {id : Nat} {push : Option (Fin 8)} {o : Order} {kind : EngKind} {e : Fin 6} {r : Option Range}
    {s : State} (number : id = s.here.nextId) (takes : s.here.takes e r.isSome = true) :
    (do enterEngine e (freshOp h id (← curSlot) (← curBundle) push o .none kind) r) s =
      .ok ((), s.queued e (laneOp h push o .none kind s) r) := by
  subst number
  obtain ⟨openQueue, ranges⟩ := Bool.and_eq_true_iff.1 takes
  refine bind_next (curSlot_ok s) (bind_next (curBundle_ok s) (enterEngine_ok openQueue ?_))
  simpa only [Bool.or_eq_true, Bool.not_eq_true', Option.isSome_eq_false_iff, decide_eq_true_eq] using ranges

/-! ### Loads and stores (06 R135, R136) -/

theorem exec_ld_next (h : Head) (o : LdOp) (s : State) (hd : Handle) (va : BitVec 56) (d : Dest) (s1 s2 : State) (issues : Issues h s)
    (address : handleAddr o.ad o.o.ssc o.ty.bytes o.ty.bytes true (started h s) = .ok ((hd, va), s1))
    (reserved : reserveDest o.d s1.here.nextId s1 = .ok (d, s2)) (room : tagRoom s2.here s2.cur.2 1 = true) :
    exec (.ld h o) s = .next (s2.entered
      (handleAccess (laneAccess h (.mem .add true false) .g o.o d s2) hd o.ty [⟨va, o.ty.bytes, .load, .sent⟩])) :=
  lane_next (body := ldBody h o) issues
    (bind_next address (issueReserved_ok (handleAccess · hd o.ty _) reserved (fun _ => rfl) room))

theorem exec_st_next (h : Head) (o : StOp) (s : State) (hd : Handle) (va : BitVec 56) (b : Word) (s1 s2 : State) (issues : Issues h s)
    (address : handleAddr o.ad o.o.ssc o.ty.bytes o.ty.bytes false (started h s) = .ok ((hd, va), s1))
    (read : readS o.b s1 = .ok (b, s2)) (room : tagRoom s2.here s2.cur.2 1 = true) :
    exec (.st h o) s = .next (s2.entered (handleAccess (laneAccess h (.mem .add false true) hd.space.kind o.o .none s2) hd o.ty
      [⟨va, o.ty.bytes, .store (natLe o.ty.bytes b.toNat), .sent⟩])) :=
  lane_next (body := stBody h o) issues
    (bind_next address (bind_next read (issueNow_ok (handleAccess · hd o.ty _) (fun _ => rfl) room)))

theorem exec_ldl_next (h : Head) (o : LdOp) (s : State) (off : Nat) (d : Dest) (s1 s2 : State) (issues : Issues h s)
    (address : localAddr o.ad o.o.ssc o.ty.bytes o.ty.bytes false (started h s) = .ok (off, s1))
    (reserved : reserveDest o.d s1.here.nextId s1 = .ok (d, s2)) (room : tagRoom s2.here s2.cur.2 0 = true) :
    exec (.ldl h o) s = .next (s2.entered { laneAccess h (.lstore off o.ty.bytes none) .l o.o d s2 with ty := o.ty }) :=
  lane_next (body := ldlBody h o) issues
    (bind_next address (issueReserved_ok ({ · with ty := o.ty }) reserved (fun _ => rfl) room))

theorem exec_stl_next (h : Head) (o : StOp) (s : State) (off : Nat) (b : Word) (s1 s2 : State) (issues : Issues h s)
    (address : localAddr o.ad o.o.ssc o.ty.bytes o.ty.bytes true (started h s) = .ok (off, s1))
    (read : readS o.b s1 = .ok (b, s2)) (room : tagRoom s2.here s2.cur.2 0 = true) :
    exec (.stl h o) s = .next (s2.entered
      { laneAccess h (.lstore off o.ty.bytes (some (natLe o.ty.bytes b.toNat))) .l o.o .none s2 with ty := o.ty }) :=
  lane_next (body := stlBody h o) issues
    (bind_next address (bind_next read (issueNow_ok ({ · with ty := o.ty }) (fun _ => rfl) room)))

theorem exec_ldq_next (h : Head) (o : QMemOp) (s : State) (hd : Handle) (va : BitVec 56) (d : Dest) (s1 s2 : State)
    (issues : Issues h s) (address : handleAddr o.ad o.o.ssc 4096 128 true (started h s) = .ok ((hd, va), s1))
    (reserved : reserveDest o.q s1.here.nextId s1 = .ok (d, s2)) (room : tagRoom s2.here s2.cur.2 32 = true) :
    exec (.ldq h o) s = .next (s2.entered (handleAccess (laneAccess h (.mem .add true false) .g o.o d s2) hd .n64
      ((List.range 32).map fun i => ⟨va + BitVec.ofNat 56 (128 * i), 128, .load, .sent⟩))) :=
  lane_next (body := ldqBody h o) issues
    (bind_next address (issueReserved_ok (handleAccess · hd .n64 _) reserved (fun _ => rfl) room))

theorem exec_ldqLocal_next (h : Head) (o : QMemOp) (s : State) (off : Nat) (d : Dest) (s1 s2 : State) (issues : Issues h s)
    (address : localAddr o.ad o.o.ssc 4096 128 false (started h s) = .ok (off, s1))
    (reserved : reserveDest o.q s1.here.nextId s1 = .ok (d, s2)) (room : tagRoom s2.here s2.cur.2 0 = true) :
    exec (.ldqLocal h o) s = .next (s2.entered (laneAccess h (.lstore off 4096 none) .l o.o d s2)) :=
  lane_next (body := ldqLocalBody h o) issues (bind_next address (issueReserved_ok id reserved (fun _ => rfl) room))

theorem popStq_of_queue {o : Operand} {n : Fin 32} (queue : o.name = .q n) : popStq o = popVector n.val false := by
  rw [popStq, queue]

theorem exec_stq_next (h : Head) (o : QMemOp) (s : State) (hd : Handle) (va : BitVec 56) (n : Fin 32) (v : VReg) (s1 s2 : State)
    (issues : Issues h s) (address : handleAddr o.ad o.o.ssc 4096 128 false (started h s) = .ok ((hd, va), s1))
    (queue : o.q.name = .q n) (popped : popVector n.val false s1 = .ok (v, s2)) (room : tagRoom s2.here s2.cur.2 32 = true) :
    exec (.stq h o) s = .next (s2.entered (handleAccess (laneAccess h (.mem .add false true) hd.space.kind o.o .none s2) hd .n64
      ((List.range 32).map fun i => ⟨va + BitVec.ofNat 56 (128 * i), 128, .store (bytesOf v (128 * i) 128), .sent⟩))) := by
  rw [← popStq_of_queue queue] at popped
  exact lane_next (body := stqBody h o) issues
    (bind_next address (bind_next popped (issueNow_ok (handleAccess · hd .n64 _) (fun _ => rfl) room)))

theorem exec_stqLocal_next (h : Head) (o : QMemOp) (s : State) (off : Nat) (n : Fin 32) (v : VReg) (s1 s2 : State)
    (issues : Issues h s) (address : localAddr o.ad o.o.ssc 4096 128 true (started h s) = .ok (off, s1)) (queue : o.q.name = .q n)
    (popped : popVector n.val false s1 = .ok (v, s2)) (room : tagRoom s2.here s2.cur.2 0 = true) :
    exec (.stqLocal h o) s =
      .next (s2.entered (laneAccess h (.lstore off 4096 (some (bytesOf v 0 4096))) .l o.o .none s2)) := by
  rw [← popStq_of_queue queue] at popped
  exact lane_next (body := stqLocalBody h o) issues (bind_next address (bind_next popped (issueNow_ok id (fun _ => rfl) room)))

/-- Settles O7, by the rule of each instruction. -/
theorem loadStoreIssue : Obligations.LoadStoreIssue := by
  unfold Obligations.LoadStoreIssue
  exact ⟨exec_ld_next, exec_st_next, exec_ldl_next, exec_stl_next, exec_ldq_next, exec_ldqLocal_next, exec_stq_next,
    exec_stqLocal_next⟩

/-! ### Atomics, FENCE and QJOIN (06 R137, R138, R141, R142) -/

/-- The instruction is an atomic other than ACAS and performs the operation `op`. -/
def PerformsAtomic (i : Head → AtOp → Instr) (op : AOp) : Prop :=
  op ≠ .cas ∧ ∀ h o s, exec (i h o) s = lane h (atomicBody op h o) s

/-- It reads no expected value; with a destination it returns the old value there. -/
theorem PerformsAtomic.next {i : Head → AtOp → Instr} {op : AOp} (performs : PerformsAtomic i op)
    (h : Head) (o : AtOp) (s : State) (hd : Handle) (va : BitVec 56) (b : Word) (dst : Operand) (d : Dest)
    (s1 s2 s3 : State) (issues : Issues h s)
    (address : handleAddr o.ad o.o.ssc o.ty.bytes o.ty.bytes false (started h s) = .ok ((hd, va), s1))
    (read : readS o.b s1 = .ok (b, s2)) (dest : o.d = some dst) (reserved : reserveDest dst s2.here.nextId s2 = .ok (d, s3))
    (room : tagRoom s3.here s3.cur.2 1 = true) :
    exec (i h o) s = .next (s3.entered (handleAccess (laneAccess h (.mem op true true) hd.space.kind o.o d s3) hd o.ty
      [⟨va, o.ty.bytes, .atomic op b 0, .sent⟩])) := by
  obtain ⟨plain, meaning⟩ := performs
  rw [meaning]
  refine lane_next issues (bind_next address (bind_next read ?_))
  rw [dest]
  cases op with
  | cas => exact absurd rfl plain
  | _ =>
    exact bind_next (pure_app 0 s2)
      (issueReserved_ok (handleAccess · hd o.ty [⟨va, o.ty.bytes, .atomic _ b 0, .sent⟩]) reserved (fun _ => rfl) room)

/-- Without a destination it only acts on the memory. -/
theorem PerformsAtomic.next_of_noDest {i : Head → AtOp → Instr} {op : AOp} (performs : PerformsAtomic i op)
    (h : Head) (o : AtOp) (s : State) (hd : Handle) (va : BitVec 56) (b : Word) (s1 s2 : State) (issues : Issues h s)
    (address : handleAddr o.ad o.o.ssc o.ty.bytes o.ty.bytes false (started h s) = .ok ((hd, va), s1))
    (read : readS o.b s1 = .ok (b, s2)) (dest : o.d = none) (room : tagRoom s2.here s2.cur.2 1 = true) :
    exec (i h o) s = .next (s2.entered (handleAccess (laneAccess h (.mem op false true) hd.space.kind o.o .none s2) hd o.ty
      [⟨va, o.ty.bytes, .atomic op b 0, .sent⟩])) := by
  obtain ⟨-, meaning⟩ := performs
  rw [meaning]
  refine lane_next issues (bind_next address (bind_next read ?_))
  rw [dest]
  cases op with
  | _ =>
    exact bind_next (pure_app 0 s2) (bind_next (nextId_ok s2) (bind_next (pure_app Dest.none s2)
      (issueFresh_ok (handleAccess · hd o.ty [⟨va, o.ty.bytes, .atomic _ b 0, .sent⟩]) rfl (fun _ => rfl) room)))

/-- ACAS reads the expected value from its destination before it reserves it (06 R137). -/
theorem exec_acas_next (h : Head) (o : AtOp) (s : State) (hd : Handle) (va : BitVec 56) (b : Word) (dst : Operand) (x : Word)
    (d : Dest) (s1 s2 s3 s4 : State) (issues : Issues h s)
    (address : handleAddr o.ad o.o.ssc o.ty.bytes o.ty.bytes false (started h s) = .ok ((hd, va), s1))
    (read : readS o.b s1 = .ok (b, s2)) (dest : o.d = some dst) (expected : readS dst s2 = .ok (x, s3))
    (reserved : reserveDest dst s3.here.nextId s3 = .ok (d, s4)) (room : tagRoom s4.here s4.cur.2 1 = true) :
    exec (.acas h o) s = .next (s4.entered (handleAccess (laneAccess h (.mem .cas true true) hd.space.kind o.o d s4) hd o.ty
      [⟨va, o.ty.bytes, .atomic .cas b x, .sent⟩])) := by
  refine lane_next (body := atomicBody .cas h o) issues (bind_next address (bind_next read ?_))
  rw [dest]
  exact bind_next expected
    (issueReserved_ok (handleAccess · hd o.ty [⟨va, o.ty.bytes, .atomic .cas b x, .sent⟩]) reserved (fun _ => rfl) room)

theorem exec_fence_next (h : Head) (o : FenceOp) (s : State) (issues : Issues h s)
    (room : tagRoom (started h s).here s.cur.2 0 = true) : exec (.fence h o) s =
      .next ((started h s).entered (laneAccess h (.fence o.engines) .g o.o .none (started h s))) :=
  lane_next (body := fenceBody h o) issues (issueNow_ok id (fun _ => rfl) room)

theorem exec_qjoin_next (h : Head) (m : BitVec 6) (s : State) (issues : Issues h s)
    (room : tagRoom (started h s).here s.cur.2 0 = true) : exec (.qjoin h m) s =
      .next ((started h s).entered (laneAccess h (.qjoin m) .l ⟨.slot, {}, .rlx⟩ .none (started h s))) :=
  lane_next (body := qjoinBody h m) issues (issueNow_ok id (fun _ => rfl) room)

/-- Settles O8, by the rule of each instruction. -/
theorem atomicIssue : Obligations.AtomicIssue := by
  unfold Obligations.AtomicIssue
  refine ⟨fun p mem => ?atomics, exec_acas_next, exec_fence_next, exec_qjoin_next⟩
  case atomics =>
    have performs : PerformsAtomic p.1 p.2 := by
      revert p
      simp only [List.forall_mem_cons]
      refine ⟨?add, ?min, ?max, ?and, ?or, ?xor, ?xchg, ?fadd, List.forall_mem_nil _⟩ <;>
        exact ⟨by decide, fun _ _ _ => rfl⟩
    exact ⟨performs.next, performs.next_of_noDest⟩

/-! ### Record commands (06 R143, 09 R237, R239) -/

/-- Reading a record's handle entry fills the handle cache and takes no number (16 R328). -/
theorem recordHandle_nextId {n : BitVec 12} {s t : State} {e : BitVec 256} (read : recordHandle n s = .ok (e, t)) :
    t.here.nextId = s.here.nextId := by
  obtain ⟨x, s1, handle, entry⟩ := bind_inv read
  obtain ⟨l, rfl⟩ := getHandle_state handle
  cases entry
  obtain ⟨m, kept⟩ := handleEntry_state (s.updCore s.cur.1 fun k => { k with hcache := l }) s.cur.1 x.n
  show ((State.handleEntry _ s.cur.1 x.n).1).here.nextId = _
  rw [kept]
  simp

/-- A copy record's scale handle is read where its source is in blocks (06 R145); that takes no number either. -/
theorem scaleHandle_nextId {c : CopyRec} {sh : BitVec 256} {s t : State}
    (scales : if isBlockCode c.sfmt then recordHandle c.shdl s = .ok (sh, t) else sh = 0 ∧ t = s) :
    t.here.nextId = s.here.nextId := by
  split at scales
  · exact recordHandle_nextId scales
  · rw [scales.2]

/-- A queue that can take an operation with a range can take it whether or not it has one. -/
theorem Core.takes_of_takes_ranged {k : Core} {e : Fin 6} (takes : k.takes e true = true) (b : Bool) : k.takes e b = true := by
  cases b with
  | true => exact takes
  | false => exact Bool.and_eq_true_iff.2 ⟨(Bool.and_eq_true_iff.1 takes).1, rfl⟩

/-- A copy command with a well-formed record enters the queue of its kind. -/
theorem exec_copy_next {i : Head → RecOp → Instr} {kind : Nat} (meaning : ∀ h o s, exec (i h o) s = lane h (copyBody kind h o) s)
    (h : Head) (o : RecOp) (s : State) (r : Rec64) (b : Vector Word 4) (hd sh : BitVec 256) (s1 s2 s3 s4 : State)
    (issues : Issues h s) (record : readRecord o.idx (started h s) = .ok (r, s1)) (bases : readBases o s1 = .ok (b, s2))
    (wellFormed : copyIllFormed kind r = none) (handle : recordHandle (copyRec r).hdl s2 = .ok (hd, s3))
    (scales : if isBlockCode (copyRec r).sfmt then recordHandle (copyRec r).shdl s3 = .ok (sh, s4) else sh = 0 ∧ s4 = s3)
    (takes : s4.here.takes (copyQueue kind) true = true) :
    exec (i h o) s = .next (s4.queued (copyQueue kind)
      (laneOp h o.push ⟨copyScope (copyRec r).asc, {}, .rlx⟩ .none (.copy o.idx r b hd sh) s4)
      ((copyRec r).range s4.here.nextId b[1])) := by
  have number : s2.here.nextId = s4.here.nextId := ((scaleHandle_nextId scales).trans (recordHandle_nextId handle)).symm
  rw [meaning]
  refine lane_next issues (bind_next record (bind_next bases (bind_next (nextId_ok s2) ?_)))
  rw [wellFormed, ← number]
  exact bind_next handle (readIf_next scales (enterFresh_ok number (Core.takes_of_takes_ranged takes _)))

/-- A matrix command with a well-formed record enters e5. -/
theorem exec_matrix_next {i : Head → RecOp → Instr} {kind : Nat} (meaning : ∀ h o s, exec (i h o) s = lane h (matBody kind h o) s)
    (h : Head) (o : RecOp) (s : State) (r : Rec64) (b : Vector Word 4) (g : GroupInfo) (ea eb : Rec128) (s1 s2 s3 s4 : State)
    (issues : Issues h s) (record : readRecord o.idx (started h s) = .ok (r, s1)) (bases : readBases o s1 = .ok (b, s2))
    (group : s2.here.grp = some g) (first : getEntry (matTa r) s2 = .ok (ea, s3))
    (second : if matHasB kind then getEntry (matTb r) s3 = .ok (eb, s4) else eb = 0 ∧ s4 = s3)
    (wellFormed : matIllFormed kind g.accs r (tEnt ea) (tEnt eb) = none) (takes : s4.here.takes 5 false = true) :
    exec (i h o) s = .next (s4.queued 5 (laneOp h o.push ⟨g.asc, {}, .rlx⟩ .none (.matrix o.idx r b [ea, eb]) s4) none) := by
  rw [meaning]
  refine lane_next issues (bind_next record (bind_next bases (bind_next (getGroup_ok group) (bind_next first
    (readIf_next second (bind_next (nextId_ok s4) ?_))))))
  simp only [wellFormed]
  exact enterFresh_ok rfl takes

theorem exec_mzclr_next (h : Head) (o : MzClrOp) (s : State) (z : Fin 8) (s1 : State) (issues : Issues h s)
    (named : accOperand o.z (started h s) = .ok (z, s1)) (takes : s1.here.takes 5 false = true) : exec (.mzclr h o) s =
      .next (s1.queued 5 (laneOp h none ⟨.group, {}, .rlx⟩ .none (.mzclr z o.inv) s1) none) :=
  lane_next (body := mzclrBody h o) issues (bind_next named (bind_next (nextId_ok s1) (enterFresh_ok rfl takes)))

/-- Settles O9, by the rules of the copy commands, of the matrix commands and of MZCLR. -/
theorem recordCommandIssue : Obligations.RecordCommandIssue := by
  unfold Obligations.RecordCommandIssue
  simp only [List.forall_mem_cons]
  refine ⟨⟨?cpin, ?cpout, ?gath, ?scat, List.forall_mem_nil _⟩, ⟨?mrec, ?mconv, ?mzst, ?mzld, List.forall_mem_nil _⟩,
    exec_mzclr_next⟩
  case cpin => exact exec_copy_next (kind := 0x20) fun _ _ _ => rfl
  case cpout => exact exec_copy_next (kind := 0x21) fun _ _ _ => rfl
  case gath => exact exec_copy_next (kind := 0x22) fun _ _ _ => rfl
  case scat => exact exec_copy_next (kind := 0x23) fun _ _ _ => rfl
  case mrec => exact exec_matrix_next fun _ _ _ => rfl
  case mconv => exact exec_matrix_next fun _ _ _ => rfl
  case mzst => exact exec_matrix_next fun _ _ _ => rfl
  case mzld => exact exec_matrix_next fun _ _ _ => rfl

/-! ### Messages and receive rings (06 R154 to R157, 09 R240) -/

theorem exec_msend_next (h : Head) (o : MSendOp) (s : State) (dst src : Word) (p : Nat) (d : Dest) (s1 s2 s3 s4 : State)
    (issues : Issues h s) (read_target : readS o.dst (started h s) = .ok (dst, s1)) (read_source : readS o.src s1 = .ok (src, s2))
    (range : checkLocalRead src.toInt o.len.toNat s2 = .ok (p, s3)) (aligned : src.toNat % 8 = 0)
    (free : rangeStalls s3.here false p o.len.toNat = false) (ordered : guardOrder h .l noOrder s3 = .ok ((), s3))
    (reserved : reserveDest o.d s3.here.nextId s3 = .ok (d, s4)) (room : tagRoom s4.here s4.cur.2 0 = true) :
    exec (.msend h o) s =
      .next (s4.entered (laneAccess h (.msend dst (lsRead s3.here p o.len.toNat)) .l noOrder d s4)) := by
  refine lane_next (body := msendBody h o) issues ?_
  refine bind_next read_target (bind_next read_source (bind_next range ?_))
  refine bind_next (guardFault_of (decide_eq_true aligned) _ s3) (bind_next (getCore_ok s3) ?_)
  refine bind_next (guardStall_of (congrArg (!·) free) s3) (bind_next ordered (bind_next (getCore_ok s3) ?_))
  exact issueReserved_ok id reserved (fun _ => rfl) room

theorem exec_rget_next (h : Head) (o : RGetOp) (s : State) (r : Region) (s1 t : State) (issues : Issues h s)
    (ring : myRing o.ring (started h s) = .ok (r, s1)) (ordered : guardOrder h .l noOrder s1 = .ok ((), s1))
    (written : writeS o.d (if ringHead s1.here r = ringTail s1.here r then BitVec.allOnes 64
      else BitVec.ofNat 64 (ringEntryAt s1.here r (ringHead s1.here r))) s1 = .ok ((), t)) :
    exec (.rget h o) s = .next t :=
  lane_next (body := rgetBody h o) issues (bind_next ring (bind_next ordered (bind_next (getCore_ok s1) written)))

/-- A pop from an empty ring writes all ones and leaves HEAD. -/
theorem exec_rgetPop_empty_next (h : Head) (o : RGetOp) (s : State) (r : Region) (s1 t : State) (issues : Issues h s)
    (ring : myRing o.ring (started h s) = .ok (r, s1)) (ordered : guardOrder h .l noOrder s1 = .ok ((), s1))
    (empty : ringHead s1.here r = ringTail s1.here r) (written : writeS o.d (BitVec.allOnes 64) s1 = .ok ((), t)) :
    exec (.rgetPop h o) s = .next t := by
  refine lane_next (body := rgetPopBody h o) issues (bind_next ring (bind_next ordered (bind_next (getCore_ok s1) ?_)))
  rw [if_pos empty]
  exact written

/-- A pop from a ring that holds a message raises HEAD and writes it. -/
theorem exec_rgetPop_next (h : Head) (o : RGetOp) (s : State) (r : Region) (s1 t : State) (issues : Issues h s)
    (ring : myRing o.ring (started h s) = .ok (r, s1)) (ordered : guardOrder h .l noOrder s1 = .ok ((), s1))
    (holds : ringHead s1.here r ≠ ringTail s1.here r) (written : writeS o.d (BitVec.ofNat 64 (ringHead s1.here r + 1))
      (s1.updCore s1.cur.1 (lsPut (r.off + 8) 8 (ringHead s1.here r + 1))) = .ok ((), t)) :
    exec (.rgetPop h o) s = .next t := by
  refine lane_next (body := rgetPopBody h o) issues (bind_next ring (bind_next ordered (bind_next (getCore_ok s1) ?_)))
  rw [if_neg holds]
  exact bind_next (modCore_ok _ s1) written

theorem exec_rwait_next (h : Head) (o : RWaitOp) (s : State) (r : Region) (n : Word) (s1 s2 t : State) (issues : Issues h s)
    (ring : myRing o.ring (started h s) = .ok (r, s1)) (read : readS o.cnt s1 = .ok (n, s2))
    (ordered : guardOrder h .l noOrder s2 = .ok ((), s2))
    (enough : min n.toNat (ringEntries s2.here r) ≤ ringTail s2.here r - ringHead s2.here r)
    (written : writeS o.d (BitVec.ofNat 64 (ringTail s2.here r - ringHead s2.here r)) s2 = .ok ((), t)) :
    exec (.rwait h o) s = .next t := by
  refine lane_next (body := rwaitBody h o) issues
    (bind_next ring (bind_next read (bind_next ordered (bind_next (getCore_ok s2) ?_))))
  exact (congrFun (if_pos enough) s2).trans written

theorem exec_mterm_next (h : Head) (o : MTermOp) (s t : State) (issues : Issues h s)
    (settled : ((started h s).here.e[(5 : Fin 6)].halted || (started h s).here.e[(5 : Fin 6)].ops.all (·.held)) = true)
    (written : writeS o.d (readTerm o.sel (started h s).here) (started h s) = .ok ((), t)) :
    exec (.mterm h o) s = .next (if o.clr then t.updCore t.cur.1 (clearTerm o.sel) else t) := by
  refine lane_next (body := mtermBody o) issues
    (bind_next (getCore_ok _) (bind_next (guardStall_of settled _) (bind_next written ?_)))
  split
  · exact modCore_ok _ t
  · exact pure_app () t

/-- Settles O10, by the rule of each instruction. -/
theorem messageResult : Obligations.MessageResult := by
  unfold Obligations.MessageResult
  exact ⟨exec_msend_next, exec_rget_next, exec_rgetPop_empty_next, exec_rgetPop_next, exec_rwait_next, exec_mterm_next⟩

/-! ### Messages, grants and adoptions at their end (06 R155, 18 R382, R384) -/

/-- A message that reaches a ring is appended with status 0, or refused with status 1 (06 R155). -/
theorem State.deliverMsg_of_ring {s : State} {ctx : BitVec 10} {frm rc : CoreId} {core die ring : Nat} {b : List Byte} {r : Region}
    (target : coreOfWord core die = some rc) (declared : s.ringOf ctx rc ring = some r) :
    s.deliverMsg ctx frm core die ring b =
      (s.setCore rc (ringAppend (s.core rc) r (ringHeader b.length frm.core.val frm.die.val 0) b).1,
        if (ringAppend (s.core rc) r (ringHeader b.length frm.core.val frm.die.val 0) b).2 then 0 else 1) := by
  simp only [State.deliverMsg, target, declared]

/-- A message at the head of its stream crosses to its die and is delivered there, unless its destination word is bad; its status is
written. -/
theorem exec_messageAppend_next {c : CoreId} {id : Nat} {s t : State} {a : Access} {ctx : BitVec 10} {dst : Word} {b : List Byte}
    {st : Nat} (found : (s.core c).access? id = some a) (context : (s.core c).ctxId = some ctx) (kind : a.kind = .msend dst b)
    (first : s.earlierMsg c a = false) (may : mayPerform (s.core c) a = true)
    (ends : (if 2 ^ 14 ≤ dst.toNat || dst.toNat.testBit 7 then (s.cross (dieHop c.die (Fin.ofNat 4 (bitsOf dst.toNat 8 2))), 2)
      else (s.cross (dieHop c.die (Fin.ofNat 4 (bitsOf dst.toNat 8 2)))).deliverMsg ctx c (bitsOf dst.toNat 0 7)
        (bitsOf dst.toNat 8 2) (bitsOf dst.toNat 10 4) b) = (t, st)) :
    exec (.messageAppend c id) s = .next (t.updCore c fun k => retire a (deliver a (BitVec.ofNat 64 st) k)) := by
  show execMessageAppend c id s = _
  simp only [execMessageAppend, found, context, kind, first, may, Bool.not_true, Bool.or_self, Bool.false_eq_true, if_false, ends]

/-- A message whose word names a ring is appended there with status 0, or refused with status 1. -/
theorem exec_messageAppend_ring {c rc : CoreId} {id : Nat} {s : State} {a : Access} {ctx : BitVec 10} {dst : Word} {b : List Byte}
    {r : Region} {st : Nat} (found : (s.core c).access? id = some a) (context : (s.core c).ctxId = some ctx)
    (kind : a.kind = .msend dst b) (first : s.earlierMsg c a = false) (may : mayPerform (s.core c) a = true)
    (good : (2 ^ 14 ≤ dst.toNat || dst.toNat.testBit 7) = false)
    (target : coreOfWord (bitsOf dst.toNat 0 7) (bitsOf dst.toNat 8 2) = some rc)
    (declared : s.ringOf ctx rc (bitsOf dst.toNat 10 4) = some r)
    (status : (if (ringAppend (s.core rc) r (ringHeader b.length c.core.val c.die.val 0) b).2 then 0 else 1) = st) :
    exec (.messageAppend c id) s = .next
      (((s.cross (dieHop c.die (Fin.ofNat 4 (bitsOf dst.toNat 8 2)))).setCore rc
        (ringAppend (s.core rc) r (ringHeader b.length c.core.val c.die.val 0) b).1).updCore c
        fun k => retire a (deliver a (BitVec.ofNat 64 st) k)) := by
  subst status
  refine exec_messageAppend_next found context kind first may ((if_neg (Bool.eq_false_iff.1 good)).trans ?_)
  exact State.deliverMsg_of_ring (s := s.cross _) target declared

/-- A grant within the package that is at the head of its stream takes its release effect and is delivered as a message; its status ends
it (18 R382). -/
theorem exec_lzgrantStatus_within {c : CoreId} {id : Nat} {s : State} {a : Access} {ctx : BitVec 10} {z : Fin 16} {j : Nat} {w : Word}
    {b : List Byte} (found : (s.core c).access? id = some a) (context : (s.core c).ctxId = some ctx) (kind : a.kind = .lzgrant z j w b)
    (within : BitVec.ofNat 16 (bitsOf w.toNat 0 16) = s.device) (first : s.earlierMsg c a = false)
    (may : mayPerform (s.core c) a = true) :
    let s0 := s.cross (dieHop c.die (Fin.ofNat 4 (bitsOf w.toNat 23 2)))
    let s1 := if releases a.ord then s0.releaseAt c a.asc else s0
    let d := s1.deliverMsg ctx c (bitsOf w.toNat 16 7) (bitsOf w.toNat 23 2) (bitsOf w.toNat 25 4) b
    exec (.lzgrantStatus c id) s = .next (d.1.updCore c (endGrant a z j d.2 b)) := by
  show execLzgrantStatus c id s = _
  simp only [execLzgrantStatus, found, context, kind, if_pos within, first, may, Bool.not_true, Bool.or_self, Bool.false_eq_true,
    if_false]

/-- A grant to another device takes the status that has come back. -/
theorem exec_lzgrantStatus_abroad {c : CoreId} {id : Nat} {s : State} {a : Access} {ctx : BitVec 10} {z : Fin 16} {j : Nat} {w : Word}
    {b : List Byte} (found : (s.core c).access? id = some a) (context : (s.core c).ctxId = some ctx) (kind : a.kind = .lzgrant z j w b)
    (abroad : BitVec.ofNat 16 (bitsOf w.toNat 0 16) ≠ s.device) (back : a.raised = true) :
    exec (.lzgrantStatus c id) s = .next (s.updCore c (endGrant a z j a.wv.toNat b)) := by
  show execLzgrantStatus c id s = _
  simp only [execLzgrantStatus, found, context, kind, if_neg abroad, back, if_true]

/-- A blocked LZADOPT that issues now, and whose adoption is done, adopts the slot and is blocked no more (18 R384). -/
theorem exec_lzadoptComplete_next (c : CoreId) (s : State) (h : Head) (o : LzAdoptOp) (s1 : State) (x : Adoption) (s2 t : State)
    (blocked : (s.core c).adopting = some (h, o)) :
    let s0 := { s with cur := (c, .a) }
    Issues h s0 → started h s0 = s1 → adoption o (s0.here.slot .a).entry s1 = .ok (x, s2) → s2.tryAdopt c x = .done t →
    exec (.lzadoptComplete c) s =
      .next { forgetEntry (t.updCore c fun k => { k with adopting := none }) with cur := s.cur } := by
  rintro s0 issues rfl read adopted
  show execLzadoptComplete c s = _
  have adopts : lzadoptIssue h o s0 (started h s0) = forgetEntry (t.updCore c fun k => { k with adopting := none }) := by
    rw [lzadoptIssue, started_cur, read]
    simp only [adopted, s0]
  rw [execLzadoptComplete, blocked]
  exact congrArg (fun u : State => Host.Outcome.next { u with cur := s.cur }) ((issueAct_of_issues issues).trans adopts)

/-- Settles O29, by the ends of a message, of a grant and of an adoption. -/
theorem messagesAndGrantsEnd : Obligations.MessagesAndGrantsEnd := by
  unfold Obligations.MessagesAndGrantsEnd
  refine ⟨?message, ?grant, exec_lzadoptComplete_next⟩
  case message =>
    intro c id s a ctx dst b found context kind first may s1
    refine ⟨fun bad => exec_messageAppend_next found context kind first may (if_pos bad), fun rc r good target declared => ?_⟩
    exact ⟨fun appended => exec_messageAppend_ring found context kind first may good target declared (if_pos appended),
      fun full => exec_messageAppend_ring found context kind first may good target declared (if_neg (Bool.eq_false_iff.1 full))⟩
  case grant =>
    intro c id s a ctx z j w b found context kind
    exact ⟨exec_lzgrantStatus_within found context kind, exec_lzgrantStatus_abroad found context kind⟩

end Sys2Proof.Machine

/-! The vector instructions (O14 to O19). Most are one frame: the word reads its guard, the old registers and its sources, and puts what a
function makes of them in its destination; such an instruction completes as soon as that frame is its meaning. -/

namespace Sys2Proof.Machine

open Sys2Proof

/-! ### The frame of a vector instruction (07 R163) -/

/-- The frame answers the state that the write of its results leaves. -/
theorem vecOp_ok {h : Head} {single : Bool} {w : Nat} {merge : Bool} {d : Operand} {srcs : List Src2}
    {f : VGuard → List Given → Nat → VReg → VReg} {s s1 t : State} {r : VRead}
    (read : vecRead h single w merge d srcs s = .ok (r, s1))
    (written : putGroup (keepNames r.x.len d srcs) d (r.results f) s1 = .ok ((), t)) :
    vecOp h single w merge d srcs f s = .ok ((), t) :=
  bind_next read written

/-- A word whose meaning is the frame completes with the frame's results. -/
theorem vecCompletes_of_vecOp {i : Instr} {h : Head} {single : Bool} {w : Nat} {merge : Bool} {d : Operand} {srcs : List Src2}
    {f : VGuard → List Given → Nat → VReg → VReg} (meaning : ∀ s, exec i s = lane h (vecOp h single w merge d srcs f) s) :
    VecCompletes i h single w merge d srcs f := fun s _ _ _ issues read written =>
  (meaning s).trans (lane_next issues (vecOp_ok read written))

/-- The same for a word whose body is the frame under conditions on its operands. -/
theorem vecCompletes_of_body {i : Instr} {h : Head} {single : Bool} {w : Nat} {merge : Bool} {d : Operand} {srcs : List Src2}
    {f : VGuard → List Given → Nat → VReg → VReg} {body : LaneM Unit} (meaning : ∀ s, exec i s = lane h body s)
    (frame : body = vecOp h single w merge d srcs f) : VecCompletes i h single w merge d srcs f :=
  vecCompletes_of_vecOp (frame ▸ meaning)

/-- A word whose meaning is a container instruction completes with the elements that its function makes. -/
theorem elementsComplete_of_container {i : Instr} {h : Head} {ty : Option Fmt} {d : Operand} {srcs : List Src2}
    {f : List (BitVec 32) → BitVec 32} (meaning : ∀ s, exec i s = lane h (container h false ty d srcs f) s) :
    ElementsComplete i h ty d srcs f :=
  vecCompletes_of_vecOp meaning

/-! ### Element-wise arithmetic, logic, comparison and selection (07 R166 to R172) -/

/-- A binary operation completes with its function on the containers of its two sources. -/
theorem elementsComplete_of_vbinBody {i : Head → VBin → Instr} {f : VBin → BitVec 32 → BitVec 32 → BitVec 32}
    (meaning : ∀ h o s, exec (i h o) s = lane h (vbinBody h o (f o)) s) (h : Head) (o : VBin) :
    ElementsComplete (i h o) h (some o.ty) o.d [.reg o.a, o.b] fun l => f o (l.getD 0 0) (l.getD 1 0) :=
  elementsComplete_of_container (meaning h o)

/-- A unary operation completes with its function on the containers of its source. -/
theorem elementsComplete_of_vunBody {i : Head → VUn → Instr} {f : VUn → BitVec 32 → BitVec 32}
    (meaning : ∀ h o s, exec (i h o) s = lane h (vunBody h o (f o)) s) (h : Head) (o : VUn) :
    ElementsComplete (i h o) h (some o.ty) o.d [.reg o.a] fun l => f o (l.getD 0 0) :=
  elementsComplete_of_container (meaning h o)

/-- Settles O14: each operation is the frame of its arity around the function of its rule. -/
theorem vectorArithmeticResult : Obligations.VectorArithmeticResult := by
  unfold Obligations.VectorArithmeticResult
  simp only [List.forall_mem_cons]
  refine ⟨⟨?vadd, ?vsub, ?vmul, ?vmin, ?vmax, List.forall_mem_nil _⟩, ⟨?vfma, ?vfms, List.forall_mem_nil _⟩,
    ⟨?vabs, ?vneg, ?vsqrt, ?vrcp, ?vrsq, ?vexp2, ?vlog2, List.forall_mem_nil _⟩⟩
  case vadd | vsub | vmul | vmin | vmax => exact elementsComplete_of_vbinBody fun _ _ _ => rfl
  case vfma | vfms | vsqrt => exact fun _ _ => elementsComplete_of_container fun _ => rfl
  case vabs | vneg | vrcp | vrsq | vexp2 | vlog2 => exact elementsComplete_of_vunBody fun _ _ _ => rfl

/-- An operation on the bits of the type completes with its function, which may depend on the width. -/
theorem elementsComplete_of_bits {i : Head → VBin → Instr} {f : Nat → Nat → Nat → Nat}
    (meaning : ∀ h o s, exec (i h o) s = lane h (vbinBody h o (bitsType o.ty (f o.ty.width))) s) (h : Head) (o : VBin) :
    ElementsComplete (i h o) h (some o.ty) o.d [.reg o.a, o.b] fun l =>
      toContainer o.ty (f o.ty.width (containerBits o.ty (l.getD 0 0)) (containerBits o.ty (l.getD 1 0))) :=
  elementsComplete_of_vbinBody (f := fun o => bitsType o.ty (f o.ty.width)) meaning h o

/-- VSEL takes its first source where the container that selects is not zero. -/
theorem vsel_elementsComplete (h : Head) (o : VSelOp) : ElementsComplete (.vsel h o) h none o.d [.reg o.a, .reg o.b, .reg o.sel]
    fun l => if l.getD 2 0 ≠ 0 then l.getD 0 0 else l.getD 1 0 := by
  refine vecCompletes_of_body (body := vselBody h o) (fun _ => rfl) ?_
  simp only [vselBody, bne_iff_ne]
  rfl

/-- Settles O15: each operation on bits is the frame around the function of its rule; VSEL's test is that of its container against 0. -/
theorem vectorBitsResult : Obligations.VectorBitsResult := by
  unfold Obligations.VectorBitsResult
  simp only [List.forall_mem_cons]
  refine ⟨⟨?vand, ?vor, ?vxor, ?vshl, ?vshr, ?vsar, List.forall_mem_nil _⟩, ?vnot, ?vcmp, vsel_elementsComplete⟩
  case vand => exact elementsComplete_of_bits (f := fun _ => (· &&& ·)) fun _ _ _ => rfl
  case vor => exact elementsComplete_of_bits (f := fun _ => (· ||| ·)) fun _ _ _ => rfl
  case vxor => exact elementsComplete_of_bits (f := fun _ => (· ^^^ ·)) fun _ _ _ => rfl
  case vshl => exact elementsComplete_of_bits (f := shlBits) fun _ _ _ => rfl
  case vshr => exact elementsComplete_of_bits (f := shrBits) fun _ _ _ => rfl
  case vsar => exact elementsComplete_of_bits (f := sarBits) fun _ _ _ => rfl
  case vnot | vcmp => exact fun _ _ => elementsComplete_of_container fun _ => rfl

/-! ### The mask stack and the compact predicates (07 R173 to R177, R180) -/

/-- Issuing leaves the mask stack. -/
@[simp] theorem startIssue_masks (h : Head) (sl : Slot) (k : Core) : (startIssue h sl k).masks = k.masks := by
  unfold startIssue
  cases h.qx <;> rfl

@[simp] theorem started_masks (h : Head) (s : State) : (started h s).here.masks = s.here.masks := by
  rw [started_here, startIssue_masks]

theorem exec_mpush_next (h : Head) (o : MPushOp) (s : State) (x : VGuard) (gs : List Given) (s1 s2 : State) (issues : Issues h s)
    (guard : vguard h true 32 (started h s) = .ok (x, s1)) (room : s1.here.masks.length < 32)
    (read : gather 1 (groupNames 1 o.a ++ groupNames 1 o.b) [.reg o.a, .reg o.b] s1 = .ok (gs, s2)) :
    let at' := fun i c => (gs.getD i (.pat 0)).at (some o.ty) 0 c
    exec (.mpush h o) s = .next (s2.updCore s2.cur.1 fun k =>
      { k with masks := ofBits (fun c => x.active 32 1024 0 c && compareElems o.ty o.cond (at' 0 c) (at' 1 c)) :: k.masks }) := by
  intro at'
  have names : groupNames 1 o.a ++ groupNames 1 o.b = (srcOperands [.reg o.a, .reg o.b]).flatMap (groupNames 1) :=
    congrArg (groupNames 1 o.a ++ ·) (List.append_nil _).symm
  refine lane_next (body := mpushBody h o) issues ?_
  refine bind_next guard (bind_next (getCore_ok s1) (bind_next (guardFault_of (decide_eq_true room) _ s1) ?_))
  exact bind_next ((congrArg (gather 1 · _ s1) names).symm.trans read) (modCore_ok _ s2)

/-- The top of the stack becomes its complement within its parent; a stack of one entry has all elements for a parent (07 R174). -/
theorem exec_minv_next (h : Head) (s : State) (t : Mask) (r : List Mask) (issues : Issues h s) (top : s.here.masks = t :: r) :
    exec (.minv h) s = .next ((started h s).updCore s.cur.1 fun k =>
      { k with masks := (r.head?.getD (BitVec.allOnes 1024) &&& ~~~ t) :: r }) := by
  refine lane_next (body := minvBody) issues (bind_next (getCore_ok _) ?_)
  rw [started_masks, top]
  rfl

theorem exec_mpop_next (h : Head) (s : State) (t : Mask) (r : List Mask) (issues : Issues h s) (top : s.here.masks = t :: r) :
    exec (.mpop h) s = .next ((started h s).updCore s.cur.1 fun k => { k with masks := r }) := by
  refine lane_next (body := mpopBody) issues (bind_next (getCore_ok _) ?_)
  rw [started_masks, top]
  rfl

/-- VSKIPZ moves the PC where the stack has a top and it is all zero. -/
theorem exec_vskipz_next (h : Head) (disp : BitVec 32) (s : State) (issues : Issues h s) :
    exec (.vskipz h disp) s = .next (if s.here.masks.head? = some 0 then (started h s).goTo ((s.here.slot s.cur.2).pc + disp)
      else started h s) := by
  refine lane_next (body := vskipzBody disp) issues (bind_next (curBundle_started h s) (bind_next (getCore_ok _) ?_))
  rw [started_masks]
  cases s.here.masks with
  | nil => rfl
  | cons t r =>
    simp only [List.head?_cons, Option.some.injEq]
    split <;> rfl

/-- KSET writes its predicate, but for k0, which always reads as all active. -/
theorem exec_kset_next (h : Head) (o : KSetOp) (s : State) (a : Word) (n : Fin 16) (s1 : State) (issues : Issues h s)
    (read : readS o.src (started h s) = .ok (a, s1)) (dest : o.k.name = .k n) :
    exec (.kset h o) s = .next (if n = 0 then s1 else s1.updCore s1.cur.1 fun k => { k with
      k := k.k.set n ⟨BitVec.ofInt 16 (min (max 0 (a.toInt + o.imm.toInt)) (o.len.toNat * perReg o.width)), o.width, o.len⟩ }) := by
  refine lane_next (body := ksetBody o) issues (bind_next read ?_)
  rw [dest]
  dsimp only
  split <;> rfl

theorem exec_kget_next (h : Head) (o : KGetOp) (s : State) (n : Fin 16) (t : State) (issues : Issues h s) (source : o.k.name = .k n) :
    let p := (started h s).here.kreg n
    writeS o.d (BitVec.ofNat 64 (p.count.toNat + KWidth.code p.width * 2 ^ 16 + p.len.toNat * 2 ^ 19)) (started h s) = .ok ((), t) →
    exec (.kget h o) s = .next t := by
  intro p written
  refine lane_next (body := kgetBody o) issues ?_
  rw [kgetBody, source]
  exact bind_next (getCore_ok _) written

theorem exec_vext_next (h : Head) (o : VExtOp) (s : State) (x : VGuard) (gs : List Given) (s1 s2 s3 t : State) (issues : Issues h s)
    (guard : vguard h true 32 (started h s) = .ok (x, s1)) (group : guardGroup x.len o.a s1 = .ok ((), s2))
    (read : gather x.len (groupNames x.len o.a) [.reg o.a, .reg o.idx] s2 = .ok (gs, s3)) :
    let i := (scalarOf (gs.getD 1 (.pat 0))).toNat
    let c := (gs.getD 0 (.pat 0)).at none 0 i
    writeS o.d (if 1024 ≤ i ∨ x.active 32 1024 0 i = false then 0 else if o.sx then c.signExtend 64 else c.setWidth 64) s3 =
      .ok ((), t) → exec (.vext h o) s = .next t := by
  intro i c written
  have absent : (decide (1024 ≤ i) || !x.active 32 1024 0 i) = true ↔ 1024 ≤ i ∨ x.active 32 1024 0 i = false := by
    rw [Bool.or_eq_true, decide_eq_true_iff, Bool.not_eq_true']
  refine lane_next (body := vextBody h o) issues (bind_next guard (bind_next group (bind_next read ?_)))
  simp only [← absent] at written
  exact written

/-- Settles O16, by the rule of each instruction. -/
theorem maskStackResult : Obligations.MaskStackResult := by
  unfold Obligations.MaskStackResult
  exact ⟨exec_mpush_next, exec_minv_next, exec_mpop_next, exec_vskipz_next, exec_kset_next, exec_kget_next, exec_vext_next⟩

/-! ### Moves, packing, axis movement and reductions (07 R178, R179, R182, R183, R187 to R189) -/

/-- VMOV of containers copies each container. -/
theorem vmov_cont_completes (h : Head) (o : VMovOp) (view : o.view = .cont) :
    ElementsComplete (.vmov h o) h none o.d [.reg o.a] fun l => l.getD 0 0 :=
  vecCompletes_of_body (body := vmovBody h o) (fun _ => rfl) (if_pos view)

/-- VMOV of a narrow view writes each active element over its own bits of the old register. -/
theorem vmov_narrow_completes (h : Head) (o : VMovOp) (view : o.view ≠ .cont) :
    let w := viewBits o.view
    VecCompletes (.vmov h o) h false w (w = 6) o.d [.reg o.a] fun x gs j old => BitVec.ofNat 32768 (overlay w 0 (32768 / w)
      (fun i => if x.active w (32768 / w) j i then some ((gs.getD 0 (.pat 0)).narrow w j i) else none) old.toNat) :=
  vecCompletes_of_body (body := vmovBody h o) (fun _ => rfl) (if_neg view)

/-- Settles O17: VMOV's two forms, and for the others the frame around the elements of their rules. -/
theorem vectorMoveResult : Obligations.VectorMoveResult := by
  unfold Obligations.VectorMoveResult
  simp only [List.forall_mem_cons]
  refine ⟨vmov_cont_completes, vmov_narrow_completes, ?vins, ⟨?vpack4, ?vpack6, List.forall_mem_nil _⟩,
    ⟨?vunpack4, ?vunpack6, List.forall_mem_nil _⟩, ⟨?vrotr, ?vbcr, ?vrotc, ?vbcc, List.forall_mem_nil _⟩,
    ⟨?vredr, ?vredc, List.forall_mem_nil _⟩, ?vtrn⟩
  case vins | vpack4 | vpack6 | vunpack4 | vunpack6 | vrotr | vbcr | vrotc | vbcc | vredr | vredc | vtrn =>
    exact fun _ _ => vecCompletes_of_vecOp fun _ => rfl

/-! ### Conversion and quantisation (07 R181, R184 to R186) -/

/-- Between 32-bit containers VCVT converts each element. -/
theorem vcvt_narrow_completes (h : Head) (o : VCvtOp) (source : o.src.isWide = false) (dest : o.ty.isWide = false) :
    ElementsComplete (.vcvt h o) h (some o.src) o.d [.reg o.a] fun l =>
      toContainer o.ty (convert o.src o.ty o.rm (containerBits o.src (l.getD 0 0))) := by
  refine vecCompletes_of_body (body := vcvtBody h o) (fun _ => rfl) ?_
  rw [vcvtBody, source, dest]
  rfl

/-- Between 64-bit elements VCVT converts each element. -/
theorem vcvt_wide_completes (h : Head) (o : VCvtOp) (source : o.src.isWide = true) (dest : o.ty.isWide = true) :
    VecCompletes (.vcvt h o) h true 32 false o.d [.reg o.a] fun x gs j old =>
      wideDest x old fun m => convert o.src o.ty o.rm ((gs.getD 0 (.pat 0)).wide o.src j m) := by
  refine vecCompletes_of_body (body := vcvtBody h o) (fun _ => rfl) ?_
  rw [vcvtBody, source, dest]
  rfl

/-- To 64-bit elements VCVT converts the half of the source that it names. -/
theorem vcvt_widening_completes (h : Head) (o : VCvtOp) (source : o.src.isWide = false) (dest : o.ty.isWide = true) :
    VecCompletes (.vcvt h o) h true 32 false o.d [.reg o.a] fun x gs j old => wideDest x old fun m => convert o.src o.ty o.rm
      (containerBits o.src ((gs.getD 0 (.pat 0)).at (some o.src) j ((if o.half then 512 else 0) + m))) := by
  refine vecCompletes_of_body (body := vcvtBody h o) (fun _ => rfl) ?_
  rw [vcvtBody, source, dest]
  rfl

/-- From 64-bit elements VCVT writes the half of the destination that it names and keeps the other. -/
theorem vcvt_narrowing_completes (h : Head) (o : VCvtOp) (source : o.src.isWide = true) (dest : o.ty.isWide = false) :
    VecCompletes (.vcvt h o) h true 32 true o.d [.reg o.a] fun x gs j old =>
      let half := if o.half then 512 else 0
      ofElems fun e => if half ≤ e && e < half + 512 && x.active 32 1024 j e then
        toContainer o.ty (convert o.src o.ty o.rm ((gs.getD 0 (.pat 0)).wide o.src j (e - half))) else elem old e := by
  refine vecCompletes_of_body (body := vcvtBody h o) (fun _ => rfl) ?_
  rw [vcvtBody, source, dest]
  rfl

/-- VDEQ reads, counts each reserved or invalid block that holds an active element, and writes the decoded values. -/
theorem exec_vdeq_next (h : Head) (o : VDeqOp) (s : State) (x : VGuard) (olds : List VReg) (gs : List Given)
    (s1 s2 s3 s4 s5 t : State) (issues : Issues h s) (guard : vguard h true 32 (started h s) = .ok (x, s1))
    (dest : guardGroup x.len o.d s1 = .ok ((), s2)) (source : guardGroup x.len o.a s2 = .ok ((), s3))
    (old : if x.guards then oldGroup x.len o.d s3 = .ok (olds, s4) else olds = [] ∧ s4 = s3) :
    let keep := groupNames x.len o.d ++ groupNames x.len o.a
    gather x.len keep [.reg o.a] s4 = .ok (gs, s5) →
    let img := (gs.getD 0 (.pat 0)).bytes 0
    let s6 := s5.updCore s5.cur.1 fun k => (List.range 32).foldl (fun k b =>
      if (natRange (32 * b) 32).any (x.active 32 1024 0) then countBlock o.ty (imageScale o.ty img b) k else k) k
    putGroup keep o.d [ofElems fun e => if x.active 32 1024 0 e then
      putVal .f32 .rne (blockVal o.ty (imageScale o.ty img (e / 32)) (bitsOf img (o.ty.width * e) o.ty.width))
      else elem (olds.getD 0 0) e] s6 = .ok ((), t) →
    exec (.vdeq h o) s = .next t := by
  intro keep read img s6 written
  refine lane_next (body := vdeqBody h o) issues (bind_next guard (bind_next dest (bind_next source ?_)))
  exact readIf_next old (bind_next read (bind_next (modCore_ok _ s5) written))

/-! ### Accumulator transfers (07 R190, R191) -/

/-- A wait for something to be over goes on once it is. -/
theorem guardStall_not_of {b : Bool} (clear : b = false) (s : State) : guardStall (!b) s = .ok ((), s) :=
  guardStall_of (by rw [clear, Bool.not_false]) s

/-- VZRD of an accumulator that is valid and in no operation of e5 is the frame around that part of it. -/
theorem exec_vzrd_next (h : Head) (o : VZOp) (s : State) (z : Fin 8) (a : Acc) (r : VRead) (s1 s2 t : State) (issues : Issues h s)
    (named : accOperand o.a (started h s) = .ok (z, s1)) (free : s1.here.accBusy z = false) (valid : s1.here.z[z] = some a)
    (read : vecRead h true 32 false o.d [] s1 = .ok (r, s2))
    (written : putGroup (keepNames r.x.len o.d []) o.d (r.results (elementwise fun _ _ _ e =>
      BitVec.ofNat 32 (bitsOf a.toNat (32 * (1024 * o.part.toNat + e)) 32))) s2 = .ok ((), t)) :
    exec (.vzrd h o) s = .next t := by
  refine lane_next (body := vzrdBody h o) issues (bind_next named (bind_next (getCore_ok s1) ?_))
  refine bind_next (guardStall_not_of free s1) (bind_next (getCore_ok s1) ?_)
  rw [valid]
  exact vecOp_ok read written

/-- VZWR leaves its accumulator valid, with the active elements of the part written. -/
theorem exec_vzwr_next (h : Head) (o : VZOp) (s : State) (z : Fin 8) (x : VGuard) (gs : List Given) (s1 s2 s3 : State)
    (issues : Issues h s) (named : accOperand o.d (started h s) = .ok (z, s1)) (free : s1.here.accBusy z = false)
    (guard : vguard h true 32 s1 = .ok (x, s2)) (read : gather 1 (groupNames 1 o.a) [.reg o.a] s2 = .ok (gs, s3)) :
    exec (.vzwr h o) s = .next (s3.updCore s3.cur.1 fun k =>
      { k with z := k.z.set z (some (putPart (k.z[z].getD 0) o.part.toNat fun e =>
        if x.active 32 1024 0 e then (gs.getD 0 (.pat 0)).at none 0 e
        else BitVec.ofNat 32 (bitsOf (k.z[z].getD 0).toNat (32 * (1024 * o.part.toNat + e)) 32))) }) := by
  refine lane_next (body := vzwrBody h o) issues (bind_next named (bind_next (getCore_ok s1) ?_))
  exact bind_next (guardStall_not_of free s1) (bind_next guard (bind_next read (modCore_ok _ s3)))

/-- Settles O18: VCVT by the widths of its types, VQNT as the frame, the others by the rule of each instruction. -/
theorem vectorConvertResult : Obligations.VectorConvertResult := by
  unfold Obligations.VectorConvertResult
  refine ⟨vcvt_narrow_completes, vcvt_wide_completes, vcvt_widening_completes, vcvt_narrowing_completes, ?vqnt, exec_vdeq_next,
    exec_vzrd_next, exec_vzwr_next⟩
  case vqnt => exact fun _ _ => vecCompletes_of_vecOp fun _ => rfl

/-! ### Tile transfers (07 R192 to R194, 08 R201) -/

/-- A tile command whose lookup passes its checks, whose waiter has not failed, that could act on a line of its own and that hits a line,
ends as it does on that line. -/
theorem tileIssue_hit {look : LaneM Look} {hit : Look → TileLine → LaneM Unit} {failed : Look → LaneM Unit} {s0 s s1 s2 t u : State}
    {q : Look} {l : TileLine} (looked : look s = .ok (q, s1)) (waits : ((s1.core s.cur.1).waiter? .v).any (·.failed) = false)
    (could : hit q (freshLine q 0 1024 (s1.core s.cur.1)) s1 = .ok ((), u)) (hits : s1.demand s.cur.1 .v q = (s2, some l))
    (acts : hit q l s2 = .ok ((), t)) : tileIssue look hit failed s0 s = t := by
  simp only [tileIssue, looked, waits, Bool.false_eq_true, if_false, could, hits, acts, settle]

/-- TRD on a hit writes the containers of its segment. -/
theorem exec_trd_next (h : Head) (o : TileVOp) (s : State) (q : Look) (l : TileLine) (r : VRead) (u s1 s2 s3 t : State)
    (issues : Issues h s) (looked : tileLook false h o (started h s) = .ok (q, s1))
    (waits : ((s1.core s.cur.1).waiter? .v).any (·.failed) = false)
    (could : trdFinish h o q (freshLine q 0 1024 (s1.core s.cur.1)).data s1 = .ok ((), u))
    (hits : s1.demand s.cur.1 .v q = (s2, some l)) (read : vecRead h true 32 false o.r [] s2 = .ok (r, s3))
    (written : putGroup (keepNames r.x.len o.r []) o.r (r.results fun g _ _ old => ofElems fun e =>
      if segActive (tEnt q.ent) g e then segContainer (tEnt q.ent) l.data o.seg.toNat e else elem old e) s3 = .ok ((), t)) :
    exec (.trd h o) s = .next t := by
  refine congrArg Host.Outcome.next ((issueAct_of_issues issues).trans (tileIssue_hit looked waits could hits ?_))
  exact vecOp_ok read written

/-- TWR on a hit leaves the line with its segment written. -/
theorem exec_twr_next (h : Head) (o : TileVOp) (s : State) (q : Look) (l : TileLine) (x : VGuard) (gs : List Given)
    (u s1 s2 s3 s4 : State) (issues : Issues h s) (looked : tileLook true h o (started h s) = .ok (q, s1))
    (waits : ((s1.core s.cur.1).waiter? .v).any (·.failed) = false)
    (could : twrFinish h o q (freshLine q 0 1024 (s1.core s.cur.1)) s1 = .ok ((), u))
    (hits : s1.demand s.cur.1 .v q = (s2, some l)) (guard : vguard h true 32 s2 = .ok (x, s3))
    (read : gather 1 (groupNames 1 o.r) [.reg o.r] s3 = .ok (gs, s4)) :
    exec (.twr h o) s = .next (s4.updCore s4.cur.1 (·.setLine (writtenLine q
      (twrData (tEnt q.ent) x (fun e => (gs.getD 0 (.pat 0)).at none 0 e) o.seg.toNat l.data) l))) := by
  refine congrArg Host.Outcome.next ((issueAct_of_issues issues).trans (tileIssue_hit looked waits could hits ?_))
  exact bind_next guard (bind_next read (modCore_ok _ s4))

/-- Settles O19, by the end of each command on a hit. -/
theorem tileTransferResult : Obligations.TileTransferResult := by
  unfold Obligations.TileTransferResult
  exact ⟨exec_trd_next, exec_twr_next⟩

end Sys2Proof.Machine

/-! The tile lines (O20, O26, O59). A tile instruction of the M slot changes what it changes of the lines at issue and then enters as one
access, after which the core's tiles settle; an event of the Caldera ends with the same settling. -/

namespace Sys2Proof.Machine

open Sys2Proof

/-! ### The set of a tag (08 R205) -/

/-- The 64-bit sum of a tag is the sum of its parts modulo 2 ^ 64. -/
theorem tagSum_toNat (t : BitVec 12) (crd : Vector Word 4) :
    (t.setWidth 64 + 5#64 * crd[0] + 17#64 * crd[1] + 33#64 * crd[2] + 65#64 * crd[3]).toNat =
      (t.toNat + 5 * crd[0].toNat + 17 * crd[1].toNat + 33 * crd[2].toNat + 65 * crd[3].toNat) % 2 ^ 64 := by
  simp only [BitVec.toNat_add, BitVec.toNat_mul, BitVec.toNat_setWidth, BitVec.reduceToNat]
  omega

/-- Settles O59: the model's sum, shifts and exclusive ors on numbers are those of 64-bit words. -/
theorem tagSetFunction : Obligations.TagSetFunction := by
  unfold Obligations.TagSetFunction
  intro t crd x sum
  have value := (congrArg BitVec.toNat sum).trans (tagSum_toNat t crd)
  simp only [tagSet, BitVec.toNat_xor, BitVec.toNat_ushiftRight, Nat.shiftRight_eq_div_pow, value]

/-! ### Events of the Caldera (08 R201, R203, R204, R209) -/

/-- The fill at the head of e0 that reads its tile makes its line valid with it. -/
theorem exec_fillComplete_next (c : CoreId) (line : Nat) (s : State) (o : EngOp) (l : TileLine) (v : LineData) (ks : List KeyTag)
    (s1 : State) (head : (s.core c).fillHead line = some (o, l)) (filled : s.fillTile c l.ctx l.ent l.c = (s1, .ok (v, ks))) :
    exec (.fillComplete c line) s = .next
      ((s1.updCore c fun k => (k.popFill o).setLine { l with base := .valid, data := v, keys := ks }).settleTiles c) := by
  show execFillComplete c line s = _
  simp only [execFillComplete, head, filled]

/-- A fill that faults gives its line up; its fault is raised, or for a prefetch only counted. -/
theorem exec_fillFault_next (c : CoreId) (line : Nat) (s : State) (o : EngOp) (l : TileLine) (f : FaultRec) (s1 : State)
    (head : (s.core c).fillHead line = some (o, l)) (faults : s.fillTile c l.ctx l.ent l.c = (s1, .error f)) :
    let s2 := s1.updCore c fun k => (k.popFill o).loseLine l
    exec (.fillFault c line) s = .next ((if l.origin.silent then s2.updCore c countDropped
      else s2.raiseFill c l f.code).settleTiles c) := by
  show execFillFault c line s = _
  simp only [execFillFault, head, faults]
  split <;> rfl

/-- A line that is written back to memory of this device is acknowledged at once. -/
theorem exec_writeBackAck_next (c : CoreId) (line : Nat) (s : State) (l : TileLine) (s1 : State)
    (found : (s.core c).lineIdx line = some l) (back : l.base = .writingBack) (goes : (s.core c).stopped l = false) (fresh : l.out = none)
    (written : s.writeTile c l = (s1, .done, [])) :
    exec (.writeBackAck c line) s = .next ((s1.updCore c (endWriteBack l)).settleTiles c) := by
  show execWriteBackAck c line s = _
  simp only [execWriteBackAck, found, back, goes, fresh, written, bne_self_eq_false, Bool.or_self, Bool.false_eq_true, if_false]

/-- A line whose records to a peer have all been acknowledged ends its write-back. -/
theorem exec_writeBackAck_next_of_sent (c : CoreId) (line : Nat) (s : State) (l : TileLine)
    (found : (s.core c).lineIdx line = some l) (back : l.base = .writingBack) (goes : (s.core c).stopped l = false)
    (sent : l.out = some []) : exec (.writeBackAck c line) s = .next ((s.updCore c (endWriteBack l)).settleTiles c) := by
  show execWriteBackAck c line s = _
  simp only [execWriteBackAck, found, back, goes, sent, bne_self_eq_false, Bool.or_self, Bool.false_eq_true, if_false]

/-- A command whose entries are taken out of the replay queue waits no more. -/
theorem Core.waiter?_eq_none_of_unparked {k k' : Core} {who : WaiterKind} (left : k'.replay = (k.unpark who).replay) :
    k'.waiter? who = none := by
  rw [Core.waiter?, left, List.find?_eq_none]
  intro w parked
  have other := (List.mem_filter.1 parked).2
  simpa using other

/-- A record that stops leaves the replay queue as it is. -/
theorem failRecord_replay (o : EngOp) (f : FaultRec) (k : Core) : (failRecord o f k).replay = k.replay := rfl

/-- The first waiter whose candidates have stayed pinned for the bound leaves the replay queue, and the pinned-full fault is raised. -/
theorem exec_pinnedFullBoundExpiry_next (c : CoreId) (s : State) (g : GroupInfo) (w : Waiter) :
    let s1 := s.countPinned c
    (s1.core c).grp = some g →
    (s1.core c).replay.find? (fun w => w.since.any fun t => t + g.pfb ≤ s1.cycle c.die) = some w →
    let f := pinnedFault w.tens w.c ((s1.core c).waiterOrigin w)
    let k1 : Core := { (s1.core c).unpark w.who with
      acc := (s1.core c).acc.map fun a => if w.who = .m a.id then { a with raised := true } else a }
    let k2 : Core := match w.who, k1.head? 5 with
      | .e5, some o => failRecord (o.waitedTo (s1.cycle c.die) false) f k1
      | _, _ => k1
    exec (.pinnedFullBoundExpiry c) s = .next (raiseFault c f (.fill [w.who]) (s1.setCore c k2)) ∧ k2.waiter? w.who = none := by
  intro s1 group late f k1 k2
  refine ⟨?_, Core.waiter?_eq_none_of_unparked (k := s1.core c) ?_⟩
  · show execPinnedFullBoundExpiry c s = _
    simp only [s1] at group late
    simp only [execPinnedFullBoundExpiry, group, late]
    rfl
  · simp only [k2]
    split
    · exact failRecord_replay _ _ _
    · rfl

/-- Settles O26, by the rule of each event. -/
theorem tileEvents : Obligations.TileEvents := by
  unfold Obligations.TileEvents
  exact ⟨exec_fillComplete_next, exec_fillFault_next, exec_writeBackAck_next, exec_writeBackAck_next_of_sent,
    exec_pinnedFullBoundExpiry_next⟩

/-! ### Entering as a tile access (08 R213 to R219) -/

/-- The state once a tile instruction has entered as an access and acted as far as it can at once. -/
def State.enteredTile (s : State) (h : Head) (push : Option (Fin 8)) (asc : Scope) (o : Order) (kind : AccKind) : State :=
  (s.entered { laneAccess h kind .t o .none s with push := push, asc := asc }).settleTiles s.cur.1

/-- A tile access enters where its slot has tags. -/
theorem tileAccess_ok {h : Head} {push : Option (Fin 8)} {asc : Scope} {o : Order} {kind : AccKind} {s : State}
    (room : tagRoom s.here s.cur.2 0 = true) : tileAccess h push asc o kind s = .ok ((), s.enteredTile h push asc o kind) := by
  refine bind_next (nextId_ok s) (bind_next (curSlot_ok s) (bind_next (curBundle_ok s) ?_))
  exact bind_next (issueAccess_ok (a := { laneAccess h kind .t o .none s with push := push, asc := asc }) room) rfl

/-! ### TPF and TPIN (08 R202, R214, R215) -/

theorem exec_tpf_next (h : Head) (o : TileOp) (s : State) (c : Vector Word 4) (e : Rec128) (g : GroupInfo) (s1 s2 : State)
    (issues : Issues h s) (coords : readCoords o.c0 o.c1 o.c2 o.c3 (started h s) = .ok (c, s1))
    (entry : formedEntry o.t none s1 = .ok (e, s2)) (inside : (tEnt e).coordsOk c = true) (group : s2.here.grp = some g)
    (room : tagRoom s2.here s2.cur.2 0 = true) : exec (.tpf h o) s =
      .next (s2.enteredTile h o.push g.asc noOrder (.tile (.pf false h.ch none) o.t e [c] [])) :=
  lane_next (body := tpfBody h o) issues (bind_next coords (bind_next entry
    (bind_next (guardFault_of inside _ s2) (bind_next (getGroup_ok group) (tileAccess_ok room)))))

/-- The itinerary form reads its entries at issue. -/
theorem exec_tpfItinerary_next (h : Head) (o : TpfItinOp) (s : State) (off n : Word) (g : GroupInfo) (p : Nat) (e : Rec128)
    (s1 s2 s3 s4 : State) (issues : Issues h s) (start : readS o.off (started h s) = .ok (off, s1)) (count : readS o.n s1 = .ok (n, s2))
    (group : s2.here.grp = some g) (some_entry : 1 ≤ n.toNat) (bound : n.toNat ≤ 64)
    (range : checkLocalRead off.toInt (16 * n.toNat) s2 = .ok (p, s3)) (entry : formedEntry o.t none s3 = .ok (e, s4))
    (free : rangeStalls s4.here false p (16 * n.toNat) = false) (room : tagRoom s4.here s4.cur.2 0 = true) :
    exec (.tpfItinerary h o) s = .next (s4.enteredTile h o.push g.asc noOrder
      (.tile (.pf false .none none) o.t e (itinerary s4.here p n.toNat) [])) := by
  have counted : (decide (1 ≤ n.toNat) && decide (n.toNat ≤ 64)) = true := by
    rw [decide_eq_true some_entry, decide_eq_true bound, Bool.and_self]
  refine lane_next (body := tpfItineraryBody h o) issues ?_
  refine bind_next start (bind_next count (bind_next (getGroup_ok group) (bind_next (guardFault_of counted _ s2) ?_)))
  refine bind_next range (bind_next entry (bind_next (getCore_ok s4) (bind_next (guardStall_not_of free s4) ?_)))
  exact bind_next (getCore_ok s4) (tileAccess_ok room)

/-- TPIN of a tile that has no line looks it up as a demand that pins. -/
theorem exec_tpin_next_of_absent (h : Head) (o : TileOp) (s : State) (c : Vector Word 4) (e : Rec128) (g : GroupInfo) (s1 s2 : State)
    (issues : Issues h s) (coords : readCoords o.c0 o.c1 o.c2 o.c3 (started h s) = .ok (c, s1))
    (entry : formedEntry o.t none s1 = .ok (e, s2)) (inside : (tEnt e).coordsOk c = true) (absent : s2.here.tagged o.t c = none)
    (group : s2.here.grp = some g) (room : tagRoom s2.here s2.cur.2 0 = true) :
    exec (.tpin h o) s = .next (s2.enteredTile h o.push g.asc noOrder (.tile .pin o.t e [c] [])) := by
  refine lane_next (body := tpinBody h o) issues (bind_next coords (bind_next entry
    (bind_next (guardFault_of inside _ s2) (bind_next (getCore_ok s2) ?_))))
  rw [absent]
  exact bind_next (getGroup_ok group) (tileAccess_ok room)

/-- TPIN of a tile that has a line pins and touches it at issue; a prefetched line is then hit by a demand (08 R223). -/
theorem exec_tpin_next_of_tagged (h : Head) (o : TileOp) (s : State) (c : Vector Word 4) (e : Rec128) (l : TileLine) (s1 s2 : State)
    (issues : Issues h s) (coords : readCoords o.c0 o.c1 o.c2 o.c3 (started h s) = .ok (c, s1))
    (entry : formedEntry o.t none s1 = .ok (e, s2)) (inside : (tEnt e).coordsOk c = true) (tagged : s2.here.tagged o.t c = some l) :
    let first := l.base == .valid && l.pf && !l.pfHit
    let s3 := s2.updCore s2.cur.1 fun k =>
      { k with tclock := k.tclock + 1, cpfhit := if first then count k.cpfhit else k.cpfhit }.setLine
        (hintLine .pin (touchLine { l with pfHit := l.pfHit || first } k))
    tagRoom s3.here s3.cur.2 0 = true →
    exec (.tpin h o) s = .next (s3.enteredTile h o.push .device noOrder (.tile .done o.t e [] [])) := by
  intro first s3 room
  refine lane_next (body := tpinBody h o) issues (bind_next coords (bind_next entry
    (bind_next (guardFault_of inside _ s2) (bind_next (getCore_ok s2) ?_))))
  rw [tagged]
  exact bind_next (modCore_ok _ s2) (tileAccess_ok room)

/-! ### TUNPIN, TLAST and TSTREAM (08 R215) -/

/-- The instruction does no more than change a flag, by `f`, on the lines that it names. -/
def ChangesFlag (i : Head → TileOp → Instr) (f : TileLine → TileLine) : Prop :=
  ∀ h o s, exec (i h o) s = lane h (flagBody f h o) s

theorem ChangesFlag.next {i : Head → TileOp → Instr} {f : TileLine → TileLine} (changes : ChangesFlag i f) (h : Head) (o : TileOp)
    (s : State) (c : Vector Word 4) (s1 : State) (issues : Issues h s)
    (coords : readCoords o.c0 o.c1 o.c2 o.c3 (started h s) = .ok (c, s1)) :
    let s2 := s1.updCore s1.cur.1 fun k => { k with lines := k.lines.map fun l => if namesLine o c l then f l else l }
    tagRoom s2.here s2.cur.2 0 = true →
    exec (i h o) s = .next (s2.enteredTile h o.push .device noOrder (.tile .done o.t 0 [] [])) := by
  intro s2 room
  rw [changes]
  exact lane_next issues (bind_next coords (bind_next (modCore_ok _ s1) (tileAccess_ok room)))

/-! ### TINV, TWB and TCMT (08 R216 to R218) -/

theorem exec_tinv_next (h : Head) (o : TileOp) (s : State) (c : Vector Word 4) (s1 : State) (issues : Issues h s)
    (coords : readCoords o.c0 o.c1 o.c2 o.c3 (started h s) = .ok (c, s1)) :
    let ts := (s1.here.lines.filter (namesLine o c)).map (·.c)
    let s2 := s1.updCore s1.cur.1 fun k =>
      { k with lines := k.lines.map fun l => if namesLine o c l then { l with discard := true } else l }
    tagRoom s2.here s2.cur.2 0 = true →
    exec (.tinv h o) s = .next (s2.enteredTile h o.push .device noOrder (.tile .inv o.t 0 ts [])) := by
  intro ts s2 room
  exact lane_next (body := tinvBody h o) issues
    (bind_next coords (bind_next (getCore_ok s1) (bind_next (modCore_ok _ s1) (tileAccess_ok room))))

theorem exec_twb_next (h : Head) (o : TileOp) (s : State) (c : Vector Word 4) (ts : List (Vector Word 4)) (s1 s2 : State)
    (issues : Issues h s) (coords : readCoords o.c0 o.c1 o.c2 o.c3 (started h s) = .ok (c, s1))
    (begun : startWriteBacks o c (scopeOr o.asc) s1 = .ok (ts, s2)) (room : tagRoom s2.here s2.cur.2 0 = true) :
    exec (.twb h o) s = .next (s2.enteredTile h o.push (scopeOr o.asc) noOrder (.tile .wb o.t 0 ts [])) :=
  lane_next (body := twbBody h o) issues (bind_next coords (bind_next begun (tileAccess_ok room)))

theorem exec_tcmt_next (h : Head) (o : TileOp) (s : State) (c : Vector Word 4) (e : Rec128) (x : Handle × Nat)
    (ts : List (Vector Word 4)) (s1 s2 s3 s4 : State) (issues : Issues h s)
    (coords : readCoords o.c0 o.c1 o.c2 o.c3 (started h s) = .ok (c, s1)) (entry : formedEntry o.t none s1 = .ok (e, s2))
    (handle : editionHandle e false s2 = .ok (x, s3)) (begun : startWriteBacks o c (scopeOr o.asc) s3 = .ok (ts, s4))
    (room : tagRoom s4.here s4.cur.2 0 = true) : exec (.tcmt h o) s =
      .next (s4.enteredTile h o.push (scopeOr o.asc) ⟨scopeOr o.asc, { g := true, t := true }, .rel⟩
        (.tile .commit o.t e ts (if o.all then [] else [c]))) :=
  lane_next (body := tcmtBody h o) issues
    (bind_next coords (bind_next entry (bind_next handle (bind_next begun (tileAccess_ok room)))))

/-! ### Reads awaited at the bundle (10 R254) -/

/-- A read that finds the value awaited lets the instruction issue, in the state that the read leaves. -/
theorem awaitRead_found {h : Head} {look : LaneM Awaited} {s0 s s1 r t : State} {x : Awaited} {b : List Byte} {act : LaneM Unit}
    (looked : look s = .ok (x, s1)) (ok : ((s0.core s.cur.1).slot s.cur.2).failed = false)
    (read : (s0.updCore s.cur.1 x.keep).readVa s.cur.1 (((s0.updCore s.cur.1 x.keep).core s.cur.1).ctxId.getD 0)
      { viaHandle x.hd false with acq := true } x.va x.n = (r, .ok b))
    (found : x.found b = some act) (acts : (look >>= fun _ => act) (r.updCore s.cur.1 (startIssue h s.cur.2)) = .ok ((), t)) :
    awaitRead h look s0 s = t := by
  simp only [awaitRead, looked, ok, Bool.false_eq_true, if_false, read, found, acts, settle]

/-! ### TEDACQ (08 R219) -/

/-- Reading a tensor-table entry changes the core's cache of them and nothing else (05 R121). -/
theorem State.tensorEntry_state (s : State) (c : CoreId) (t : BitVec 12) :
    ∃ l, (s.tensorEntry c t).1 = s.updCore c fun k => { k with tcache := l } := by
  have same : s = s.updCore c fun k => { k with tcache := (s.core c).tcache } := (State.updCore_same _ _ _ rfl).symm
  unfold State.tensorEntry
  dsimp only
  split
  · exact ⟨_, same⟩
  · split
    · exact ⟨_, same⟩
    · exact ⟨_, rfl⟩

/-- An entry kept at the bundle is only checked. -/
theorem formedEntry_kept_state {t : BitVec 12} {x e : Rec128} {s s1 : State} (formed : formedEntry t (some x) s = .ok (e, s1)) :
    s1 = s := by
  obtain ⟨_, _, read, checked⟩ := bind_inv formed
  cases pure_inv read
  dsimp only at checked
  generalize (tEnt x).illFormed = bad at checked
  cases bad with
  | some _ => cases checked
  | none =>
    cases pure_inv checked
    rfl

theorem formedEntry_cur {t : BitVec 12} {kept : Option Rec128} {s s1 : State} {e : Rec128}
    (formed : formedEntry t kept s = .ok (e, s1)) : s1.cur = s.cur := by
  cases kept with
  | some x => rw [formedEntry_kept_state formed]
  | none =>
    change (getEntry t >>= fun x => formedEntry t (some x)) s = _ at formed
    obtain ⟨x, s2, read, checked⟩ := bind_inv formed
    obtain ⟨l, cached⟩ := s.tensorEntry_state s.cur.1 t
    have entered : s2 = (s.tensorEntry s.cur.1 t).1 := (congrArg Prod.snd (Except.ok.inj read)).symm
    rw [formedEntry_kept_state checked, entered, cached, State.updCore_cur]

theorem editionHandle_cur {e : Rec128} {load : Bool} {s s1 : State} {x : Handle × Nat}
    (handle : editionHandle e load s = .ok (x, s1)) : s1.cur = s.cur := by
  obtain ⟨hd, s2, read, rest⟩ := bind_inv handle
  obtain ⟨l, rfl⟩ := getHandle_state read
  obtain ⟨_, _, guard, rest⟩ := bind_inv rest
  cases (guardFault_inv guard).2
  obtain ⟨_, _, guard, rest⟩ := bind_inv rest
  cases (guardFault_inv guard).2
  obtain ⟨_, _, guard, rest⟩ := bind_inv rest
  cases (guardFault_inv guard).2
  exact congrArg (fun r => r.2.cur) (pure_inv rest)

/-- The required-edition table holds the tensor, or has room for it. -/
def editionFits (t : BitVec 12) (s : State) : Prop := s.here.reqEd.any (·.1 = t) = true ∨ s.here.reqEd.length < 128

/-- What TEDACQ does on the edition that it awaited. -/
def tedacqFinds (h : Head) (o : TEdAcqOp) (v : Word) : LaneM Unit := do
  modCore (raiseRequired o.t v)
  writeS o.d v
  tileAccess h o.push .device noOrder (.tile .done o.t 0 [] [])

/-- The slot keeps an entry at its bundle (05 R121). -/
def keepEntry (sl : Slot) (e : Rec128) (k : Core) : Core := k.updSlot sl fun t => { t with entry := some e }

/-- The look of a TEDACQ whose operands pass their checks names the edition word, keeps the entry, and finds the edition where it does
not wait or the word has reached it. -/
theorem tedacqLook_ok {h : Head} {o : TEdAcqOp} {kept : Option Rec128} {s s1 s2 s3 : State} {w : Word} {e : Rec128} {hd : Handle}
    {va : Nat} (read : readS o.w s = .ok (w, s1)) (entry : formedEntry o.t kept s1 = .ok (e, s2)) (fits : editionFits o.t s2)
    (handle : editionHandle e true s2 = .ok ((hd, va), s3))
    (ordered : guardOrder h .t ⟨o.asc, { g := true, t := true }, .acq⟩ s3 = .ok ((), s3)) :
    ∃ x, tedacqLook h o kept s = .ok (x, s3) ∧ x.hd = hd ∧ x.va = va ∧ x.n = 8 ∧ x.keep = keepEntry s.cur.2 e ∧
      ∀ b, (o.nowait = true ∨ w.toNat ≤ (BitVec.ofNat 64 (leNat b)).toNat) →
        x.found b = some (tedacqFinds h o (BitVec.ofNat 64 (leNat b))) := by
  have room : (s2.here.reqEd.any (·.1 = o.t) || decide (s2.here.reqEd.length < 128)) = true :=
    Bool.or_eq_true_iff.2 (fits.imp_right decide_eq_true)
  have cur : s3.cur = s.cur := (editionHandle_cur handle).trans ((formedEntry_cur entry).trans (readS_cur read))
  refine ⟨_, bind_next read (bind_next entry (bind_next (getCore_ok s2) (bind_next (guardFault_of room _ s2)
    (bind_next handle (bind_next ordered (bind_next (curSlot_ok s3) rfl)))))), rfl, rfl, rfl, ?keep, ?found⟩
  case keep => exact congrArg (fun p => keepEntry p.2 e) cur
  case found =>
    intro b reached
    exact if_pos (Bool.or_eq_true_iff.2 (reached.imp_right decide_eq_true))

/-- TEDACQ reads the edition word in the state in which it has not issued; where it finds its edition, or does not wait, it issues and
raises the required edition. -/
theorem exec_tedacq_next (h : Head) (o : TEdAcqOp) (s : State) (w : Word) (e : Rec128) (hd : Handle) (va : Nat) (v : Word)
    (b : List Byte) (s1 s2 s3 r y : State) (wy : Word) (ey : Rec128) (hy : Handle × Nat) (u1 u2 u3 u4 : State) (issues : Issues h s) :
    let kept := (s.here.slot s.cur.2).entry
    let waits : Order := ⟨o.asc, { g := true, t := true }, .acq⟩
    readS o.w (started h s) = .ok (w, s1) → formedEntry o.t kept s1 = .ok (e, s2) → editionFits o.t s2 →
    editionHandle e true s2 = .ok ((hd, va), s3) → guardOrder h .t waits s3 = .ok ((), s3) → (s.here.slot s.cur.2).failed = false →
    (s.updCore s.cur.1 (keepEntry s.cur.2 e)).readVa s.cur.1 (s.here.ctxId.getD 0)
      { viaHandle hd false with acq := true } va 8 = (r, .ok b) →
    v = BitVec.ofNat 64 (leNat b) → (o.nowait = true ∨ w.toNat ≤ v.toNat) → y = r.updCore s.cur.1 (startIssue h s.cur.2) →
    readS o.w y = .ok (wy, u1) → formedEntry o.t kept u1 = .ok (ey, u2) → editionFits o.t u2 →
    editionHandle ey true u2 = .ok (hy, u3) → guardOrder h .t waits u3 = .ok ((), u3) →
    writeS o.d v (u3.updCore u3.cur.1 (raiseRequired o.t v)) = .ok ((), u4) → tagRoom u4.here u4.cur.2 0 = true →
    exec (.tedacq h o) s = .next (u4.enteredTile h o.push .device noOrder (.tile .done o.t 0 [] [])) := by
  rintro kept waits read entry fits handle ordered ok found rfl reached rfl read' entry' fits' handle' ordered' written room
  obtain ⟨x, looked, rfl, rfl, size, keep, finds⟩ := tedacqLook_ok read entry fits handle ordered
  obtain ⟨_, looked', -⟩ := tedacqLook_ok read' entry' fits' handle' ordered'
  refine congrArg Host.Outcome.next ((issueAct_of_issues issues).trans
    (awaitRead_found (r := r) (b := b) looked ok ?_ (finds b reached) ?_))
  · rw [size, keep, State.updCore_core]
    exact found
  · exact bind_next looked' (bind_next (modCore_ok _ u3) (bind_next written (tileAccess_ok room)))

/-- Settles O20, by the rule of each instruction. -/
theorem tileInstructionResult : Obligations.TileInstructionResult := by
  unfold Obligations.TileInstructionResult
  simp only [List.forall_mem_cons]
  refine ⟨exec_tpf_next, exec_tpfItinerary_next, exec_tpin_next_of_absent, exec_tpin_next_of_tagged,
    ⟨?tunpin, ?tlast, ?tstream, List.forall_mem_nil _⟩, exec_tinv_next, exec_twb_next, exec_tcmt_next, exec_tedacq_next⟩
  case tunpin => exact ChangesFlag.next fun _ _ _ => rfl
  case tlast => exact ChangesFlag.next fun _ _ _ => rfl
  case tstream => exact ChangesFlag.next fun _ _ _ => rfl

end Sys2Proof.Machine

/-! The steps of the matrix records (O25). The head of e5 goes on in one way for every kind of record; each kind then has the rule of its
own step, for a step that neither faults nor waits. -/

namespace Sys2Proof.Machine

open Sys2Proof

/-! ### The head of e5 (09 R228, R243) -/

/-- A record at the head of e5 that may go on and has steps left performs its current one: ACCM is applied before it, and the cycles that
it was parked are counted. -/
theorem State.e5Step_performs {s : State} {c : CoreId} {o : EngOp} {x x0 : MatOp} {k1 : Core} {kinds : List Nat}
    (step : State → MatOp → State) (head : (s.core c).head? 5 = some o) (isRecord : matOp? o = some x) (sound : o.failed = none)
    (runs : (s.core c).enginesStop = false) (free : o.held = false) (begins : engineMayBegin (s.core c) 5 o.id = true)
    (kind : kinds.contains (matKind x.rec_) = true) (steps : matSteps x.rec_ ≠ 0) (accm : applyAccm x (s.core c) = (k1, x0)) :
    s.e5Step c kinds step = step (s.setCore c k1) { x0 with op := x0.op.waitedTo (s.cycle c.die) true } := by
  simp only [State.e5Step, head, isRecord, sound, runs, free, begins, kind, steps, accm, Bool.not_true, Bool.or_self,
    Bool.false_eq_true, if_false]

/-! ### A step that hits (09 R232, R238) -/

/-- A product step whose operands hit, whose window lies in the accumulator and whose accumulator is valid adds its products there. -/
theorem State.productStep_of_hit {s s1 s2 : State} {c : CoreId} {x : MatOp} {la lb : TileLine} {z : Acc} :
    let r := x.rec_
    let i := matLoop r x.op.pos
    let ca := matCoords x.b[0] (matSa r) i
    let cb := matCoords x.b[1] (matSb r) i
    let row := matWindow r x.b[2] i 0
    let col := matWindow r x.b[2] i 1
    let a := tEnt (x.ent 0)
    let b := tEnt (x.ent 1)
    s.operand c x (matTa r) (x.ent 0) ca [] false = (s1, some la) →
    s1.operand c x (matTb r) (x.ent 1) cb [la] false = (s2, some lb) →
    windowBad row col a.t[1] b.t[1] = false → (s2.core c).z[matZd r] = some z →
    let p : Product := ⟨a, b, la.data, lb.data, ca[0].toNat, cb[0].toNat⟩
    let k := countTerms p (matRecB r) { s2.core c with
      z := (s2.core c).z.set (matZd r) (some (putWindow z row.toNat col.toNat a.t[1] b.t[1] p.element)) }
    s.productStep c x = (s2.setCore c
      (x.mark (matHb r) lb (x.mark (matHa r) la (countOperand b lb.data p.tk b.t[1] p.chunks
        (countOperand a la.data p.tk a.t[1] p.chunks k))))).stepDone c x := by
  intro r i ca cb row col a b hitA hitB inWindow valid p k
  rw [State.productStep, hitA]
  dsimp only
  rw [hitB]
  dsimp only
  rw [if_neg (Bool.eq_false_iff.1 inWindow), valid]

/-- A store step of a valid accumulator, whose tile and window are in bounds and whose tile hits, writes the window to the tile. -/
theorem State.storeStep_of_hit {s s1 : State} {c : CoreId} {x : MatOp} {z : Acc} {l : TileLine} :
    let r := x.rec_
    let i := matLoop r x.op.pos
    let ca := matCoords x.b[0] (matSa r) i
    let row := matWindow r x.b[2] i 0
    let col := matWindow r x.b[2] i 1
    let a := tEnt (x.ent 0)
    a.coordsOk ca = true → windowBad row col a.t[1] a.t[0] = false → (s.core c).z[matZd r] = some z →
    s.operand c x (matTa r) (x.ent 0) ca [] true = (s1, some l) →
    let v := a.encodeLine (matRm r) ((List.range a.count).map fun n => if a.inside (a.place ca n) then
      some (fpDecode fp32 (accGet z (row.toNat + n / a.t[0]) (col.toNat + n % a.t[0]))) else none)
    s.storeStep c x = (s1.updCore c fun k => x.mark (matHa r) l
      (k.setLine (writtenLine (x.look (s1.core c) (matTa r) (x.ent 0) ca .none) v l))).stepDone c x := by
  intro r i ca row col a inTensor inWindow valid hit v
  rw [State.storeStep, inTensor, if_neg (by decide), if_neg (Bool.eq_false_iff.1 inWindow), valid]
  dsimp only
  rw [hit]

/-- A load step whose tile hits and whose window lies in the accumulator writes the tile to the window, over zero where the accumulator was
invalid; the blocks of a block format are counted. -/
theorem State.loadStep_of_hit {s s1 : State} {c : CoreId} {x : MatOp} {l : TileLine} :
    let r := x.rec_
    let i := matLoop r x.op.pos
    let row := matWindow r x.b[2] i 0
    let col := matWindow r x.b[2] i 1
    let a := tEnt (x.ent 0)
    s.operand c x (matTa r) (x.ent 0) (matCoords x.b[0] (matSa r) i) [] false = (s1, some l) →
    windowBad row col a.t[1] a.t[0] = false →
    let z := putWindow (((s1.core c).z[matZd r]).getD 0) row.toNat col.toNat a.t[1] a.t[0] fun j1 j0 _ =>
      roundF32 (a.valAt l.data (j0 + a.t[0] * j1))
    let k2 := { s1.core c with z := (s1.core c).z.set (matZd r) (some z) }
    let k3 := if blockFmt a.cfmt then
      (List.range (a.count / 32)).foldl (fun k b => countBlock a.cf (a.scaleOf l.data (32 * b)) k) k2 else k2
    s.loadStep c x = (s1.setCore c (x.mark (matHa r) l k3)).stepDone c x := by
  intro r i row col a hit inWindow z k2 k3
  rw [State.loadStep, hit]
  exact if_neg (Bool.eq_false_iff.1 inWindow)

/-! ### MZCLR (09 R239) -/

/-- An MZCLR at the head of e5 that may go on makes its accumulator zero, or invalid, and completes. -/
theorem exec_mzclrPerform_next (c : CoreId) (s : State) (o : EngOp) (z : Fin 8) (inv : Bool) (ready : (s.core c).ready? 5 = some o)
    (kind : o.kind = .mzclr z inv) (runs : (s.core c).enginesStop = false) :
    exec (.mzclrPerform c) s = .next (s.updCore c fun k =>
      completeOp 5 o { k with z := k.z.set z (if inv then none else some 0) }) := by
  show execMzclrPerform c s = _
  simp only [execMzclrPerform, ready, kind, runs, Bool.false_eq_true, if_false]

/-- Settles O25: the head of e5 performs its current step, by the rule of each kind of step, and MZCLR completes. -/
theorem matrixStepResult : Obligations.MatrixStepResult := by
  unfold Obligations.MatrixStepResult
  refine ⟨?product, ?store, ?load, exec_mzclrPerform_next⟩
  case product =>
    rintro c s o x k1 x0 _ s1 la s2 lb z head isRecord sound runs free begins kind steps accm rfl r i ca cb row col a b hitA hitB
      inWindow valid p k2
    have listed : [0x10, 0x11].contains (matKind x.rec_) = true := by simpa using kind
    exact congrArg Host.Outcome.next ((State.e5Step_performs _ head isRecord sound runs free begins listed steps accm).trans
      (State.productStep_of_hit hitA hitB inWindow valid))
  case store =>
    rintro c s o x k1 x0 _ z s1 l head isRecord sound runs free begins kind steps accm rfl r i ca row col a inTensor inWindow valid hit v
    have listed : [0x12].contains (matKind x.rec_) = true := by simpa using kind
    have valid' : ((s.setCore c k1).core c).z[matZd r] = some z := by rwa [State.setCore_core]
    exact congrArg Host.Outcome.next ((State.e5Step_performs _ head isRecord sound runs free begins listed steps accm).trans
      (State.storeStep_of_hit inTensor inWindow valid' hit))
  case load =>
    rintro c s o x k1 x0 _ s1 l head isRecord sound runs free begins kind steps accm rfl r i row col a hit inWindow z k2 k3
    have listed : [0x13].contains (matKind x.rec_) = true := by simpa using kind
    exact congrArg Host.Outcome.next ((State.e5Step_performs _ head isRecord sound runs free begins listed steps accm).trans
      (State.loadStep_of_hit hit inWindow))

end Sys2Proof.Machine

/-! The events at the slices (O27). A request that passes its leaf's and its page's checks reaches the ordering point of its line; what it
meets there is said once for the requests of every event. The walk of a page pauses with some of its words read, or ends. -/

namespace Sys2Proof.Machine

open Sys2Proof

/-! ### A request at its slice (10 R259, 06 R139) -/

/-- A load that is not to use a shared copy is served by none. -/
theorem State.servingCopy_eq_none {s : State} {ch : SliceChoice} (noCopy : ch.useCopy = false) (c : CoreId) (p : Part) (pa : Nat) :
    s.servingCopy c p ch pa = none := by
  simp only [State.servingCopy, noCopy, Bool.false_and, Bool.false_eq_true, if_false]

/-- A waiting request whose leaf is cached is performed, after the release it makes, and takes the stage that comes of it. -/
theorem State.serve_of_leaf {s t : State} {r : SliceReq} {a : Access} {p : Part} {l : Leaf} {x : BitVec 10} {g : PartStage}
    (found : (s.core r.core).access? r.id = some a) (piece : a.parts[r.part]? = some p)
    (leaf : s.partLeaf r.core p.va.toNat = some (l, x))
    (performs : (if releases a.ord then s.releaseAt r.core a.asc else s).performPart r.core a p l x = (t, g)) :
    s.serve r = t.setPart r.core r.id r.part g := by
  simp only [State.serve, found, piece, leaf, performs]

/-- A request for a line that is resident in every sector it reads, and for which none waits, is performed on its arrival. -/
theorem State.arrive_of_resident {s : State} {line : Nat} {r : SliceReq} (noMiss : s.mshrs.any (fun m => m.line = line) = false)
    (noWait : s.ingress.any (fun q => s.reqLine q.2 = some line) = false)
    (resident : (s.ownLine line).any (fun o => s.needOf r &&& ~~~ o.valid = 0) = true) (die : Fin 4) :
    s.arrive die line r = s.serve r := by
  simp only [State.arrive, noMiss, noWait, resident, Bool.false_eq_true, if_false, if_true]

/-- An atomic whose die must wait for its back-off waits at no slice, and the wait is counted. -/
theorem State.reachSlice_of_backingOff {s : State} {c : CoreId} {pt : BitVec 6} {p : Part} {pa : Nat} {inPair : Bool}
    (waits : (p.op.isAtomic && !inPair && s.backingOff pt c (lineOf pa)) = true) (id i : Nat) (stream : Bool) (ch : SliceChoice) :
    s.reachSlice c pt id i p pa inPair stream ch =
      (s.setPart c id i .atSlice).updCore c fun k => { k with aboff := count k.aboff } :=
  if_pos waits

/-- A request that need not wait arrives at the ordering point of its line, an atomic with the line's ownership; it leaves no copy where
none is to be kept. -/
theorem State.reachSlice_arrives {s : State} {c : CoreId} {pt : BitVec 6} {p : Part} {pa : Nat} {inPair : Bool} {ch : SliceChoice}
    (goes : (p.op.isAtomic && !inPair && s.backingOff pt c (lineOf pa)) = false) (noCopy : ch.keepCopy = false) (id i : Nat)
    (stream : Bool) :
    let s1 := if p.op.isAtomic && !inPair then s.takeOwnership pt c (lineOf pa) else s
    s.reachSlice c pt id i p pa inPair stream ch = s1.arrive (s1.ordDie pt (lineOf pa)) (lineOf pa) ⟨c, id, i⟩ := by
  intro s1
  refine (if_neg (Bool.eq_false_iff.1 goes)).trans ?_
  simp only [noCopy, Bool.false_and, Bool.false_eq_true, if_false]
  split <;> rfl

/-- A part that may be performed, whose leaf lets it and whose page no far port refuses, crosses the links to its ordering point where
these are up and the line's owner has no atomic to perform first. -/
theorem State.sliceRequest_reaches {s : State} {c : CoreId} {id part : Nat} {ch : SliceChoice} {a : Access} {p : Part} {l : Leaf}
    {x : BitVec 10} {want : Want} {ord : Fin 4} (found : (s.core c).access? id = some a) (piece : a.parts[part]? = some p)
    (sent : p.stage = .sent) (may : mayPerform (s.core c) a = true) (leaf : s.partLeaf c p.va.toNat = some (l, x))
    (wants : (if p.op.isAtomic then Want.atomic else if p.op = .load then .read else .write) = want)
    (lets : s.leafCheck x a.peer want l = none) (within : l.isPeer = false) (noUse : ch.useCopy = false) (noEvict : ch.evict = none) :
    let pt := s.partOf x
    let pa := s.redirect pt (l.phys p.va.toNat)
    let line := lineOf pa
    let far := s.farCheck pt l (l.phys p.va.toNat) false
    let inPair := (s.pairAt pt (l.phys p.va.toNat)).isSome
    let path := reqPath c ord inPair far.port
    (if p.op.isAtomic then s.homeDie pt (128 * line) else s.ordDie pt line) = ord → far.fault = none → s.linksUp path = true →
    (p.op.isAtomic && !inPair && s.ownerBusy c line) = false →
    s.sliceRequest c id part ch =
      ((s.updCore c (countTier far)).carried path).reachSlice c pt id part p pa inPair a.stream ch := by
  subst wants
  rintro pt pa line far inPair path rfl carries up free
  have begins : ¬(decide (p.stage ≠ .sent) || !mayPerform (s.core c) a) = true := by simp [sent, may]
  simp only [State.sliceRequest, found, piece, leaf, lets, within, State.servingCopy_eq_none noUse, noEvict, if_neg begins]
  simp only [pt, pa, line, far, inPair, path] at carries up free ⊢
  simp only [carries, up, free, Bool.not_true, Bool.false_eq_true, if_false]

/-! ### The events of requests and of fills -/

/-- An access but a BARARV reaches its slice by the event of requests. -/
theorem exec_sliceRequestArrival_eq {s : State} {c : CoreId} {id : Nat} {a : Access} (found : (s.core c).access? id = some a)
    (kind : a.kind.isArrival = false) (part : Nat) (ch : SliceChoice) :
    exec (.sliceRequestArrival c id part ch) s = .next (s.sliceRequest c id part ch) := by
  show execSliceRequestArrival c id part ch s = _
  simp only [execSliceRequestArrival, found, Option.any_some, kind, Bool.false_eq_true, if_false]

/-- A BARARV reaches its slice by the event of its own. -/
theorem exec_barrierArrival_eq {s : State} {c : CoreId} {id : Nat} {a : Access} (found : (s.core c).access? id = some a)
    (kind : a.kind.isArrival = true) : exec (.barrierArrival c id) s = .next (s.sliceRequest c id 0 {}) := by
  show execBarrierArrival c id s = _
  simp only [execBarrierArrival, found, Option.any_some, kind, if_true]

/-- The data of a miss arrive: its waiting requests are performed in order, and its MSHR goes to a request of the ingress queue. -/
theorem exec_sliceFillDataArrival_next (die : Fin 4) (line : Nat) (s : State) (m : Mshr) (r : SliceReq) (rest : List SliceReq)
    (miss : s.mshrs.find? (fun m => m.die = die && m.line = line) = some m) (waiting : m.waiting = r :: rest) :
    let part := ((s.core r.core).ctxId.map s.partOf).getD 0
    s.asleepAt part line = false →
    let s1 := s.ensureSectors part line (s.hintOf m) ((m.waiting.map s.needOf).foldl (· ||| ·) 0)
    exec (.sliceFillDataArrival die line) s = .next ((m.waiting.foldl State.serve
      { s1 with mshrs := s1.mshrs.filter fun x => !(x.die = die && x.line = line) }).drainIngress) := by
  intro part awake s1
  show execSliceFillDataArrival die line s = _
  simp only [part] at awake
  simp only [execSliceFillDataArrival, miss, waiting, awake, Bool.false_eq_true, if_false, s1, part]

/-- An atomic that waits at no slice, and whose back-off has passed, takes the ownership of its line and arrives there. -/
theorem exec_ownershipBackoffExpiry_next (c : CoreId) (id : Nat) (s : State) (a : Access) (p : Part) (l : Leaf) (x : BitVec 10)
    (found : (s.core c).access? id = some a) (piece : a.parts = [p]) (leaf : s.partLeaf c p.va.toNat = some (l, x))
    (delayed : p.stage = .atSlice) (atomic : p.op.isAtomic = true) (within : l.isPeer = false)
    (free : s.isHeld (.access c id) = false) :
    let pt := s.partOf x
    let line := lineOf (s.redirect pt (l.phys p.va.toNat))
    s.backingOff pt c line = false → s.ownerBusy c line = false →
    s.mshrs.any (fun m => m.waiting.contains ⟨c, id, 0⟩) = false → s.ingress.any (fun q => q.2 = ⟨c, id, 0⟩) = false →
    let s1 := s.takeOwnership pt c line
    exec (.ownershipBackoffExpiry c id) s = .next (s1.arrive (s1.ordDie pt line) line ⟨c, id, 0⟩) := by
  intro pt line passed idle noMiss noWait s1
  show execOwnershipBackoffExpiry c id s = _
  simp only [pt, line] at passed idle
  simp only [execOwnershipBackoffExpiry, found, piece, leaf, delayed, atomic, within, free, passed, idle, noMiss, noWait, ne_eq,
    not_true_eq_false, decide_false, Bool.not_true, Bool.or_self, Bool.false_eq_true, if_false, s1, pt, line]

/-! ### The walk of a page (16 R331, R332; log 43) -/

/-- The walk of a page that is among the 32 that go on at once on a core. -/
def Core.walkOf (k : Core) (page : Nat) : Option Walk := (k.walks.take 32).find? (·.page = page)

/-- The walk of a page may begin or go on: it goes on already, or it waits for no other and an access waits for the page. -/
def Core.mayWalk (k : Core) (va : Nat) : Prop :=
  (k.walkOf (va / 65536)).isSome = true ∨ (k.walksPage va = false ∧ k.missing (va / 65536) = true)

/-- What a walk for an address finds, from its beginning or from a cached entry of a table, with the words that it has read. -/
def State.walkFound (s : State) (c : CoreId) (x : Context) (va : Nat) (cached : Bool) : WalkResult :=
  let held := (((s.core c).walkOf (va / 65536)).map (·.held)).getD []
  if cached then s.walkCached (s.core c) x va held else s.walk x va held

/-- A core whose walk has all its words: the walk is over, and counted where it began only now; what it read is cached, or the parts that
wait for the page fail. -/
def Core.walked (k : Core) (va : Nat) (r : WalkResult) : Core :=
  let k1 := { installWalk r k with
    walks := k.walks.filter (·.page ≠ va / 65536), xwalk := if (k.walkOf (va / 65536)).isNone then count k.xwalk else k.xwalk }
  match r.leaf with
  | .ok _ => k1
  | .error f => failParts va f k1

/-- The event does not pass over a page whose walk may begin or go on. -/
theorem Core.not_passedOver_of_mayWalk {k : Core} {va : Nat} (may : k.mayWalk va) :
    ¬((k.walkOf (va / 65536)).isNone && (k.walksPage va || !k.missing (va / 65536))) = true := by
  obtain inFlight | ⟨fresh, awaited⟩ := may
  · simp [Option.isNone_eq_false_iff.2 inFlight]
  · simp [fresh, awaited]

section
variable {s : State} {c : CoreId} {va : BitVec 56} {cached : Bool} {x : Context} {r : WalkResult}
variable (may : (s.core c).mayWalk va.toNat) (context : (s.core c).ctxId.bind s.ctx? = some x)
  (finds : s.walkFound c x va.toNat cached = r)
include may context finds

/-- A walk that has read some of its words keeps them and reads the others in later events. -/
theorem exec_translationWalk_pauses {w : Walk} (words : (s.touchWalk r).firstWords ((s.core c).walkOf (va.toNat / 65536)) r = some w) :
    exec (.translationWalk c va cached) s = .next ((s.touchWalk r).drew.setCore c
      { s.core c with walks := (s.core c).walks.map fun (m : Walk) => if m.page = va.toNat / 65536 then w else m }) := by
  subst finds
  simp only [State.walkFound, Core.walkOf] at words ⊢
  refine (if_neg (Core.not_passedOver_of_mayWalk may)).trans ?_
  simp only [context, words]

/-- A walk that has all its words ends, and the PGPFs of its page take its status. -/
theorem exec_translationWalk_ends (words : (s.touchWalk r).firstWords ((s.core c).walkOf (va.toNat / 65536)) r = none) :
    exec (.translationWalk c va cached) s = .next ((s.touchWalk r).setCore c
      (finishPgpf (va.toNat / 65536) (walkStatus r) ((s.core c).walked va.toNat r))) := by
  subst finds
  simp only [State.walkFound, Core.walkOf] at words ⊢
  refine (if_neg (Core.not_passedOver_of_mayWalk may)).trans ?_
  simp only [context, words]
  rfl

end

/-- Settles O27: a request by how it reaches its slice and what it meets there, a walk by its pause and its end, a fill and an expired
back-off by the rule of their event. -/
theorem sliceEvents : Obligations.SliceEvents := by
  unfold Obligations.SliceEvents
  refine ⟨?request, ?arrival, exec_sliceFillDataArrival_next, exec_ownershipBackoffExpiry_next, ?walk⟩
  case request =>
    intro c id part ch s a p l x found kind piece sent may leaf lets within noUse noKeep noEvict pt line far owns path carries up free
      s1 waits s2
    have idle : (owns && s.ownerBusy c line) = false := by
      cases h : owns
      · rfl
      · exact free h
    have reaches := (exec_sliceRequestArrival_eq found kind part ch).trans (congrArg Host.Outcome.next
      (State.sliceRequest_reaches found piece sent may leaf rfl lets within noUse noEvict rfl carries up idle))
    exact ⟨fun delayed => reaches.trans (congrArg Host.Outcome.next (State.reachSlice_of_backingOff delayed id part a.stream ch)),
      fun goes => reaches.trans (congrArg Host.Outcome.next (State.reachSlice_arrives goes noKeep id part a.stream))⟩
  case arrival =>
    intro c id s a p l x v tag die at' t found kind single atomic sent may leaf lets within pt line far inPair path carries up free s1
      passed s2 noMiss noWait resident found2 leaf2 performs
    have piece : a.parts[0]? = some p := by rw [single]; rfl
    have idle : (p.op.isAtomic && !inPair && s.ownerBusy c line) = false := by
      obtain pair | idle := free
      · simp [pair]
      · simp [idle]
    have goes : (p.op.isAtomic && !inPair && s1.backingOff pt c line) = false := by
      obtain pair | past := passed
      · simp [pair]
      · simp [past]
    have owned : (if p.op.isAtomic && !inPair then s1.takeOwnership pt c line else s1) = s2 := by
      cases h : inPair <;> simp [atomic, s2, h]
    have arrives : s.sliceRequest c id 0 {} = s2.arrive (s2.ordDie pt line) line ⟨c, id, 0⟩ := by
      rw [← owned]
      exact (State.sliceRequest_reaches found piece sent may leaf (if_pos atomic) lets within rfl rfl (if_pos atomic) carries up
        idle).trans (State.reachSlice_arrives goes rfl id 0 a.stream)
    have served := (State.arrive_of_resident noMiss noWait resident (s2.ordDie pt line)).trans
      (State.serve_of_leaf found2 piece leaf2 performs)
    exact (exec_barrierArrival_eq found kind).trans (congrArg Host.Outcome.next (arrives.trans served))
  case walk =>
    intro c va cached s x page mine may context held r s1 k1 k2
    cases words : s1.firstWords mine r with
    | some w => exact exec_translationWalk_pauses may context rfl words
    | none => exact exec_translationWalk_ends may context rfl words

end Sys2Proof.Machine

/-! The device's own accesses to memory. The byte that a read of the device finds at an address is that of the last write to it, whether the
line's slice holds the sector or memory does (10 R248); a number written is the number read, and every other byte reads as before. -/

namespace Sys2Proof.Machine

open Sys2Proof

/-! ### A field put into a number -/

/-- A number with a field replaced is its part above the field, the field and its part below. -/
theorem putBits_eq (v lo w x : Nat) : putBits v lo w x = 2 ^ lo * (2 ^ w * (v / 2 ^ lo / 2 ^ w) + x % 2 ^ w) + v % 2 ^ lo := by
  have low : 2 ^ lo * (v / 2 ^ lo) + v % 2 ^ lo = v := Nat.div_add_mod v (2 ^ lo)
  have high : 2 ^ lo * (2 ^ w * (v / 2 ^ lo / 2 ^ w)) + 2 ^ lo * (v / 2 ^ lo % 2 ^ w) = 2 ^ lo * (v / 2 ^ lo) := by
    rw [← Nat.mul_add, Nat.div_add_mod]
  rw [putBits, bitsOf, Nat.mul_add, Nat.mul_comm (v / 2 ^ lo % 2 ^ w), Nat.mul_comm (x % 2 ^ w)]
  omega

theorem testBit_putBits (v lo w x i : Nat) :
    (putBits v lo w x).testBit i = if lo ≤ i ∧ i < lo + w then x.testBit (i - lo) else v.testBit i := by
  rw [putBits_eq, Nat.testBit_two_pow_mul_add _ (Nat.mod_lt _ (Nat.two_pow_pos lo)),
    Nat.testBit_two_pow_mul_add _ (Nat.mod_lt _ (Nat.two_pow_pos w))]
  by_cases below : i < lo
  · simp [below, Nat.not_le.2 below]
  · by_cases inside : i < lo + w
    · have : i - lo < w := by omega
      simp [below, Nat.not_lt.1 below, inside, this]
    · have : ¬i - lo < w := by omega
      have back : i - lo - w + w + lo = i := by omega
      simp [below, inside, this, Nat.testBit_div_two_pow, back]

/-- The byte at an offset of a bit vector. -/
def dataByte {w : Nat} (v : BitVec w) (off : Nat) : Byte := BitVec.ofNat 8 (v.toNat / 256 ^ off)

theorem dataByte_getLsbD {w : Nat} (v : BitVec w) (off : Nat) {i : Nat} (h : i < 8) :
    (dataByte v off).getLsbD i = v.toNat.testBit (8 * off + i) := by
  rw [dataByte, BitVec.getLsbD_ofNat, decide_eq_true h, Bool.true_and, show (256 : Nat) = 2 ^ 8 from rfl, ← Nat.pow_mul,
    Nat.testBit_div_two_pow, Nat.add_comm]

/-- A byte put into a bit vector is the byte at its offset, and leaves the others. -/
theorem dataByte_putBytes {w : Nat} (v : BitVec w) {off k : Nat} (b : Byte) (h : 8 * k + 8 ≤ w) :
    dataByte (putBytes v off [b]) k = if k = off then b else dataByte v k := by
  refine BitVec.eq_of_getLsbD_eq fun i hi => ?_
  have inside : 8 * k + i < w := by omega
  have value : leNat [b] = b.toNat := by simp [leNat]
  rw [dataByte_getLsbD _ _ hi, putBytes, BitVec.toNat_ofNat, Nat.testBit_mod_two_pow, decide_eq_true inside, Bool.true_and,
    testBit_putBits, value]
  by_cases same : k = off
  · subst same
    simp [hi, BitVec.testBit_toNat]
  · have outside : ¬(8 * off ≤ 8 * k + i ∧ 8 * k + i < 8 * off + 8 * [b].length) := by
      rw [List.length_singleton]; omega
    rw [if_neg outside, if_neg same, dataByte_getLsbD _ _ hi]

/-! ### The line that stands for a line of memory -/

/-- A change of the slices' lines that keeps what each stands for changes the standing lines alike. -/
theorem State.ownLine_map {s t : State} (f : SliceLine → SliceLine) (keeps : ∀ l, (f l).line = l.line ∧ (f l).shared = l.shared)
    (slices : t.slices = s.slices.map f) (n : Nat) : t.ownLine n = (s.ownLine n).map f := by
  have same : ((fun l : SliceLine => decide (l.line = n) && !l.shared) ∘ f) = fun l => decide (l.line = n) && !l.shared := by
    funext l
    obtain ⟨line, shared⟩ := keeps l
    simp [line, shared]
  rw [State.ownLine, slices, List.find?_map, same, State.ownLine]

/-- The slices without the shared copies of a line (10 R248). -/
def State.dropShared (s : State) (line : Nat) : State :=
  { s with slices := s.slices.filter fun l => !(decide (l.line = line) && l.shared) }

/-- Shared copies stand for no line. -/
@[simp] theorem State.dropShared_ownLine (s : State) (line n : Nat) : (s.dropShared line).ownLine n = s.ownLine n := by
  have same (l : SliceLine) : decide ((!(decide (l.line = line) && l.shared)) = true ∧ (decide (l.line = n) && !l.shared) = true) =
      (decide (l.line = n) && !l.shared) := by
    cases l.shared <;> simp
  rw [State.ownLine, State.dropShared, List.find?_filter, funext same, State.ownLine]

theorem State.ownLine_line {s : State} {n : Nat} {l : SliceLine} (h : s.ownLine n = some l) : l.line = n := by
  have := List.find?_some h
  simp only [Bool.and_eq_true, decide_eq_true_eq] at this
  exact this.1

/-! ### One byte -/

/-- The byte that a slice's line holds at an offset, where its sector is valid. -/
def SliceLine.held? (l : SliceLine) (off : Nat) : Option Byte :=
  if l.valid.getLsbD (off / 16) then some (dataByte l.data off) else none

/-- A read of the device takes the byte of the line's slice, else that of memory. -/
theorem State.cohByte_eq (s : State) (pa : Nat) :
    s.cohByte pa = ((s.ownLine (lineOf pa)).bind (·.held? (pa % 128))).getD (memGet s.mem pa) := by
  rw [State.cohByte]
  cases s.ownLine (lineOf pa) with
  | none => rfl
  | some l =>
    dsimp only [Option.bind_some, SliceLine.held?]
    split <;> rfl

/-- Reads of the device depend on the standing lines' data and on memory. -/
theorem State.cohByte_congr {s t : State} {pa : Nat} (mem : memGet t.mem pa = memGet s.mem pa)
    (line : (t.ownLine (lineOf pa)).bind (·.held? (pa % 128)) = (s.ownLine (lineOf pa)).bind (·.held? (pa % 128))) :
    t.cohByte pa = s.cohByte pa := by
  rw [State.cohByte_eq, State.cohByte_eq, mem, line]

theorem SliceLine.held?_setByte (l : SliceLine) {off k : Nat} (b : Byte) (h : k < 128) :
    (l.setByte off b).held? k = (l.held? k).map fun c => if k = off then b else c := by
  have inside : 8 * k + 8 ≤ 1024 := by omega
  rw [SliceLine.held?, SliceLine.setByte, dataByte_putBytes _ _ inside, SliceLine.held?]
  split <;> rfl

/-- A line of the slices once a byte has been written at an address: the standing line of that address takes it. -/
def SliceLine.written (a : Nat) (b : Byte) (l : SliceLine) : SliceLine :=
  if l.line = lineOf a then l.setByte (a % 128) b else l

theorem SliceLine.written_keeps (a : Nat) (b : Byte) (l : SliceLine) :
    (l.written a b).line = l.line ∧ (l.written a b).shared = l.shared := by
  rw [SliceLine.written]
  split <;> exact ⟨rfl, rfl⟩

/-- Where the line's slice holds the sector, the byte is written there: the standing line takes it, and memory is as it was. -/
theorem State.cohSet_of_held {s : State} {a : Nat} {l : SliceLine} (own : s.ownLine (lineOf a) = some l)
    (valid : l.valid.getLsbD (a % 128 / 16) = true) (b : Byte) :
    (s.cohSet a b).mem = s.mem ∧
      ∀ n, (s.cohSet a b).ownLine n = (s.ownLine n).map (SliceLine.written a b) := by
  have set : s.cohSet a b = { s.dropShared (lineOf a) with
      slices := (s.dropShared (lineOf a)).slices.map (SliceLine.written a b) } := by
    rw [State.cohSet, own]
    exact if_pos valid
  rw [set]
  refine ⟨rfl, fun n => ?_⟩
  rw [State.ownLine_map (s := s.dropShared (lineOf a)) _ (SliceLine.written_keeps a b) rfl, State.dropShared_ownLine]

/-- Where it does not, memory takes the byte, and the standing lines are as they were. -/
theorem State.cohSet_of_not_held {s : State} {a : Nat} (absent : (s.ownLine (lineOf a)).bind (·.held? (a % 128)) = none) (b : Byte) :
    (s.cohSet a b).mem = memSet s.mem a b ∧ ∀ n, (s.cohSet a b).ownLine n = s.ownLine n := by
  have set : s.cohSet a b = { s.dropShared (lineOf a) with mem := memSet s.mem a b } := by
    rw [State.cohSet]
    cases own : s.ownLine (lineOf a) with
    | none => rfl
    | some l =>
      have invalid : ¬l.valid.getLsbD (a % 128 / 16) = true := by simpa [own, SliceLine.held?] using absent
      exact if_neg invalid
  rw [set]
  exact ⟨rfl, fun n => s.dropShared_ownLine (lineOf a) n⟩

/-- A byte written by the device is what the address reads as; every other address reads as before. -/
theorem State.cohByte_cohSet {s : State} (canonical : Memory.wf s.mem = true) (a d : Nat) (b : Byte) :
    (s.cohSet a b).cohByte d = if d = a then b else s.cohByte d := by
  cases held : (s.ownLine (lineOf a)).bind (·.held? (a % 128)) with
  | none =>
    obtain ⟨mem, lines⟩ := State.cohSet_of_not_held held b
    rw [State.cohByte_eq, mem, lines, State.cohByte_eq]
    by_cases same : d = a
    · subst same
      rw [held, if_pos rfl]
      exact memGet_memSet canonical d b
    · rw [memGet_memSet_ne _ same, if_neg same]
  | some c =>
    obtain ⟨l, own, byte⟩ := Option.bind_eq_some_iff.1 held
    have valid : l.valid.getLsbD (a % 128 / 16) = true := by
      refine Decidable.byContradiction fun invalid => ?_
      rw [SliceLine.held?, if_neg invalid] at byte
      cases byte
    obtain ⟨mem, lines⟩ := State.cohSet_of_held own valid b
    rw [State.cohByte_eq, mem, lines, State.cohByte_eq]
    by_cases line : lineOf d = lineOf a
    · have offset : d % 128 = a % 128 ↔ d = a := by simp only [lineOf] at line; omega
      rw [line, own]
      simp only [Option.map_some, Option.bind_some, SliceLine.written, State.ownLine_line own, if_true,
        SliceLine.held?_setByte l b (Nat.mod_lt d (by decide : 0 < 128)), offset]
      by_cases same : d = a
      · subst same
        simp [byte]
      · simp [same]
    · have other : d ≠ a := fun e => line (by rw [e])
      rw [if_neg other]
      cases own' : s.ownLine (lineOf d) with
      | none => rfl
      | some x => simp [SliceLine.written, State.ownLine_line own', line]

/-! ### Bytes and numbers -/

/-- The bytes written one by one are what their addresses read as; every other address reads as before. -/
theorem State.cohByte_cohBytes : ∀ (l : List Byte) {s : State}, Memory.wf s.mem = true → ∀ a d,
    (s.cohBytes a l).cohByte d = if a ≤ d ∧ d < a + l.length then l.getD (d - a) 0 else s.cohByte d
  | [], s, _, a, d => (if_neg (by simp)).symm
  | b :: r, s, canonical, a, d => by
    rw [State.cohBytes, State.cohByte_cohBytes r (s.cohSet_mem_wf canonical a b), State.cohByte_cohSet canonical, List.length_cons]
    rcases Nat.lt_trichotomy d a with below | here | above
    · rw [if_neg (by omega), if_neg (by omega), if_neg (by omega)]
    · subst here
      rw [if_neg (by omega), if_pos rfl, if_pos (by omega), Nat.sub_self]
      rfl
    · obtain ⟨k, rfl⟩ : ∃ k, d = a + 1 + k := ⟨d - (a + 1), by omega⟩
      have first : a + 1 + k - (a + 1) = k := by omega
      have shift : a + 1 + k - a = k + 1 := by omega
      by_cases inside : k < r.length
      · rw [if_pos (by omega), if_pos (by omega), first, shift]
        rfl
      · rw [if_neg (by omega), if_neg (by omega), if_neg (by omega)]

/-- A write advances the sequence counters of the lines, which no read depends on. -/
@[simp] theorem State.bumpLines_cohByte (s : State) (pa n d : Nat) : (s.bumpLines pa n).cohByte d = s.cohByte d := by
  refine State.cohByte_congr rfl ?_
  rw [State.ownLine_map (s := s) (t := s.bumpLines pa n) _ (fun l => by split <;> exact ⟨rfl, rfl⟩) rfl, Option.bind_map]
  refine congrArg _ (funext fun l => ?_)
  dsimp only [Function.comp_apply]
  split <;> rfl

@[simp] theorem State.touch_cohByte (s : State) (pa n d : Nat) : (s.touch pa n).cohByte d = s.cohByte d := by
  obtain ⟨l, h⟩ := s.touch_slept pa n
  rw [h]
  rfl

/-- A write of the device: the bytes written read as they were written, every other byte as before. -/
theorem State.cohByte_cohWrite {s : State} (canonical : Memory.wf s.mem = true) (a : Nat) (l : List Byte) (d : Nat) :
    (s.cohWrite a l).cohByte d = if a ≤ d ∧ d < a + l.length then l.getD (d - a) 0 else s.cohByte d := by
  have touched : Memory.wf (s.touch a l.length).mem = true := by
    obtain ⟨x, h⟩ := s.touch_slept a l.length
    rw [h]
    exact canonical
  rw [State.cohWrite, State.bumpLines_cohByte, State.cohByte_cohBytes l touched, State.touch_cohByte]

theorem State.cohRead_congr {s t : State} {a n : Nat} (same : ∀ d, a ≤ d → d < a + n → t.cohByte d = s.cohByte d) :
    t.cohRead a n = s.cohRead a n := by
  refine List.map_congr_left fun d hd => ?_
  obtain ⟨i, hi, rfl⟩ := List.mem_map.1 hd
  have := List.mem_range.1 hi
  exact same _ (by omega) (by omega)

theorem State.rdNat_congr {s t : State} {a n : Nat} (same : ∀ d, a ≤ d → d < a + n → t.cohByte d = s.cohByte d) :
    t.rdNat a n = s.rdNat a n := by
  rw [State.rdNat, State.cohRead_congr same, State.rdNat]

@[simp] theorem natLe_length : ∀ n v, (natLe n v).length = n
  | 0, _ => rfl
  | n + 1, v => by rw [natLe, List.length_cons, natLe_length n]

theorem leNat_natLe : ∀ n v, leNat (natLe n v) = v % 256 ^ n
  | 0, v => (Nat.mod_one v).symm
  | n + 1, v => by
    have byte : (BitVec.ofNat 8 v).toNat = v % 256 := BitVec.toNat_ofNat ..
    rw [natLe, leNat, leNat_natLe n, byte, Nat.pow_succ', Nat.mod_mul]

theorem State.cohRead_cohWrite {s : State} (canonical : Memory.wf s.mem = true) (a : Nat) (l : List Byte) :
    (s.cohWrite a l).cohRead a l.length = l := by
  refine List.ext_getElem (by simp [State.cohRead, natRange]) fun i _ hi => ?_
  simp [State.cohRead, natRange, State.cohByte_cohWrite canonical, hi]

/-- The bytes of a number that the device writes are the bytes read back. -/
theorem State.cohRead_wrNat {s : State} (canonical : Memory.wf s.mem = true) (a n v : Nat) : (s.wrNat a n v).cohRead a n = natLe n v := by
  have read := State.cohRead_cohWrite canonical a (natLe n v)
  rwa [natLe_length] at read

theorem State.rdNat_wrNat {s : State} (canonical : Memory.wf s.mem = true) (a n v : Nat) : (s.wrNat a n v).rdNat a n = v % 256 ^ n := by
  rw [State.rdNat, State.cohRead_wrNat canonical, leNat_natLe]

/-- A number that the device writes leaves every byte outside it. -/
theorem State.wrNat_cohByte_of_outside {s : State} (canonical : Memory.wf s.mem = true) {a n d : Nat} (v : Nat)
    (outside : d < a ∨ a + n ≤ d) : (s.wrNat a n v).cohByte d = s.cohByte d := by
  have : ¬(a ≤ d ∧ d < a + (natLe n v).length) := by rw [natLe_length]; omega
  rw [State.wrNat, State.cohByte_cohWrite canonical, if_neg this]

/-! ### What a write of the device leaves -/

/-- Bytes written change the slices and memory alone. -/
theorem State.cohBytes_frame : ∀ (l : List Byte) (s : State) (a : Nat),
    ∃ lines m, s.cohBytes a l = { s with slices := lines, mem := m }
  | [], s, _ => ⟨s.slices, s.mem, rfl⟩
  | b :: r, s, a => by
    have one : ∃ lines m, s.cohSet a b = { s with slices := lines, mem := m } := by
      rw [State.cohSet]
      cases s.ownLine (lineOf a) with
      | none => exact ⟨_, _, rfl⟩
      | some l =>
        dsimp only
        split
        · exact ⟨_, s.mem, rfl⟩
        · exact ⟨_, _, rfl⟩
    obtain ⟨lines, m, first⟩ := one
    obtain ⟨lines', m', rest⟩ := State.cohBytes_frame r (s.cohSet a b) (a + 1)
    exact ⟨lines', m', by rw [State.cohBytes, rest, first]⟩

/-- A number that the device writes changes the slices, memory and the requests that wait for a sleeping channel alone. -/
theorem State.wrNat_frame (s : State) (a n v : Nat) :
    ∃ lines m waits, s.wrNat a n v = { s with slices := lines, mem := m, slept := waits } := by
  obtain ⟨waits, touched⟩ := s.touch_slept a (natLe n v).length
  obtain ⟨lines, m, written⟩ := State.cohBytes_frame (natLe n v) (s.touch a (natLe n v).length) a
  exact ⟨_, m, s.slept ++ waits, by rw [State.wrNat, State.cohWrite, written, touched]; rfl⟩

@[simp] theorem State.wrNat_ctxs (s : State) (a n v : Nat) : (s.wrNat a n v).ctxs = s.ctxs := by
  obtain ⟨lines, m, waits, frame⟩ := s.wrNat_frame a n v
  rw [frame]

@[simp] theorem State.wrNat_queues (s : State) (a n v : Nat) : (s.wrNat a n v).queues = s.queues := by
  obtain ⟨lines, m, waits, frame⟩ := s.wrNat_frame a n v
  rw [frame]

@[simp] theorem State.wrNat_ctx? (s : State) (a n v : Nat) (id : BitVec 10) : (s.wrNat a n v).ctx? id = s.ctx? id := by
  rw [State.ctx?, State.wrNat_ctxs, State.ctx?]

@[simp] theorem State.touch_keyGen (s : State) (a n : Nat) : (s.touch a n).keyGen = s.keyGen := by
  obtain ⟨l, h⟩ := s.touch_slept a n
  rw [h]

end Sys2Proof.Machine

/-! A fault raised to a group (O52). What stands on the core is the law of raiseFault; what stands in memory and in the context is that of
the error record, which is appended where the ring has room and counted lost where it has none (11 R279). -/

namespace Sys2Proof.Machine

open Sys2Proof

/-! ### The record of a context -/

@[simp] theorem State.setCtx_cohByte (s : State) (x : Context) (d : Nat) : (s.setCtx x).cohByte d = s.cohByte d := rfl

@[simp] theorem State.setCtx_cohRead (s : State) (x : Context) (pa n : Nat) : (s.setCtx x).cohRead pa n = s.cohRead pa n := rfl

@[simp] theorem State.setCtx_rdNat (s : State) (x : Context) (pa n : Nat) : (s.setCtx x).rdNat pa n = s.rdNat pa n := rfl

theorem State.ctx?_id {s : State} {id : BitVec 10} {x : Context} (found : s.ctx? id = some x) : x.id = id := by
  simpa using List.find?_some found

/-- A context's record that takes the place of the one in use is the one then found. -/
theorem State.setCtx_ctx? {s : State} {id : BitVec 10} {x y : Context} (found : s.ctx? id = some x) (same : y.id = x.id) :
    (s.setCtx y).ctx? id = some y := by
  have named : y.id = id := same.trans (State.ctx?_id found)
  have tests : ((fun z : Context => decide (z.id = id)) ∘ fun z => if z.id = y.id then y else z) = fun z => decide (z.id = id) := by
    funext z
    rw [Function.comp_apply, named]
    split
    · next h => simp [named, h]
    · rfl
  have found' : s.ctxs.find? (fun z => decide (z.id = id)) = some x := found
  rw [State.setCtx, State.ctx?, List.find?_map, tests, found', Option.map_some, if_pos same.symm]

/-! ### The error record (11 R279) -/

section
variable {s : State} {ctx : BitVec 10} {x : Context} (f : FaultRec) (core die queue : Nat)

/-- Where the ring has room, the record is written at the entry that TAIL names, TAIL is written, and the context keeps it. -/
theorem State.appendError_of_room (found : s.ctx? ctx = some x)
    (room : x.errTail.toNat < s.rdNat (x.errB.toNat + 8) 8 + x.errN.toNat) :
    s.appendError ctx f core die queue =
      ((s.wrNat (x.errB.toNat + 64 + 64 * (x.errTail.toNat % x.errN.toNat)) 64 (errorBits f core die queue x.errTail.toNat)).wrNat
        x.errB.toNat 8 ((x.errTail.toNat + 1) % 2 ^ 64)).setCtx { x with errTail := x.errTail + 1 } := by
  rw [State.appendError, found]
  exact if_pos room

/-- Where it has none, ERRDROP is one more, in the descriptor and in the context. -/
theorem State.appendError_of_full (found : s.ctx? ctx = some x)
    (full : s.rdNat (x.errB.toNat + 8) 8 + x.errN.toNat ≤ x.errTail.toNat) :
    s.appendError ctx f core die queue =
      (s.wrNat (x.desc.toNat + 112) 8 (count x.errDrop).toNat).setCtx { x with errDrop := count x.errDrop } := by
  rw [State.appendError, found]
  exact if_neg (Nat.not_lt.2 full)

/-- The record appended stands in its entry, TAIL is one more, and every other byte reads as before. -/
theorem State.appendError_appended (canonical : Memory.wf s.mem = true) (found : s.ctx? ctx = some x) {tail at_ : Nat}
    (tail_eq : x.errTail.toNat = tail) (at_eq : x.errB.toNat + 64 + 64 * (tail % x.errN.toNat) = at_)
    (room : tail < s.rdNat (x.errB.toNat + 8) 8 + x.errN.toNat) :
    let t := s.appendError ctx f core die queue
    t.cohRead at_ 64 = natLe 64 (errorBits f core die queue tail) ∧ t.rdNat x.errB.toNat 8 = (tail + 1) % 2 ^ 64 ∧
      t.ctx? ctx = some { x with errTail := x.errTail + 1 } ∧
      ∀ a, (a < at_ ∨ at_ + 64 ≤ a) → (a < x.errB.toNat ∨ x.errB.toNat + 8 ≤ a) → t.cohByte a = s.cohByte a := by
  subst tail_eq
  rw [State.appendError_of_room f core die queue found room, at_eq]
  have entry := s.wrNat_mem_wf canonical at_ 64 (errorBits f core die queue x.errTail.toNat)
  refine ⟨?record, ?tail, State.setCtx_ctx? (x := x) (by rw [State.wrNat_ctx?, State.wrNat_ctx?, found]) rfl, fun a off_entry off_tail => ?rest⟩
  case record =>
    rw [State.setCtx_cohRead, ← State.cohRead_wrNat canonical]
    exact State.cohRead_congr fun d low _ => State.wrNat_cohByte_of_outside entry _ (by omega)
  case tail =>
    rw [State.setCtx_rdNat, State.rdNat_wrNat entry]
    exact Nat.mod_mod _ _
  case rest =>
    rw [State.setCtx_cohByte, State.wrNat_cohByte_of_outside entry _ off_tail, State.wrNat_cohByte_of_outside canonical _ off_entry]

/-- The record dropped is counted, TAIL is as it was, and every byte but the descriptor's ERRDROP reads as before. -/
theorem State.appendError_dropped (canonical : Memory.wf s.mem = true) (found : s.ctx? ctx = some x)
    (full : s.rdNat (x.errB.toNat + 8) 8 + x.errN.toNat ≤ x.errTail.toNat) :
    let t := s.appendError ctx f core die queue
    t.ctx? ctx = some { x with errDrop := count x.errDrop } ∧
      (∀ a, (a < x.desc.toNat + 112 ∨ x.desc.toNat + 120 ≤ a) → t.cohByte a = s.cohByte a) ∧
      ((x.errB.toNat + 8 ≤ x.desc.toNat + 112 ∨ x.desc.toNat + 120 ≤ x.errB.toNat) →
        t.rdNat x.errB.toNat 8 = s.rdNat x.errB.toNat 8) := by
  rw [State.appendError_of_full f core die queue found full]
  have others (a : Nat) (off : a < x.desc.toNat + 112 ∨ x.desc.toNat + 120 ≤ a) :
      ((s.wrNat (x.desc.toNat + 112) 8 (count x.errDrop).toNat).setCtx { x with errDrop := count x.errDrop }).cohByte a =
        s.cohByte a := by
    rw [State.setCtx_cohByte, State.wrNat_cohByte_of_outside canonical _ off]
  exact ⟨State.setCtx_ctx? (x := x) (by rw [State.wrNat_ctx?, found]) rfl, others,
    fun apart => State.rdNat_congr fun d low high => others d (by omega)⟩

end

/-- The error record of a fault goes to the ring of the group's context. -/
theorem State.groupError_of_group {s : State} {c : CoreId} {g : GroupInfo} (group : (s.core c).grp = some g) (f : FaultRec) :
    s.groupError c f = s.appendError g.ctx f c.core.val c.die.val g.queue.toNat := by
  rw [State.groupError, group]

/-- Settles O52: the core by the law of a raised fault, memory and the context by its error record, appended or dropped. -/
theorem faultTaken : Obligations.FaultTaken := by
  unfold Obligations.FaultTaken
  rintro c f op s t g x tail at_ rfl group found canonical tail_eq at_eq
  refine ⟨raiseFault_core c f op s, fun d other => raiseFault_core_ne other.symm f op s, fun room => ?room, fun full => ?full⟩
  -- A change of the core leaves memory and the contexts as the error record leaves them.
  case room =>
    obtain ⟨record, tail_next, context, others⟩ :=
      State.appendError_appended f c.core.val c.die.val g.queue.toNat canonical found tail_eq at_eq room
    rw [← State.groupError_of_group group] at record tail_next context others
    exact ⟨record, tail_next, context, others⟩
  case full =>
    obtain ⟨context, others, tail_kept⟩ := State.appendError_dropped f c.core.val c.die.val g.queue.toNat canonical found
      (tail_eq ▸ full)
    rw [← State.groupError_of_group group] at context others tail_kept
    exact ⟨context, others, tail_kept⟩

end Sys2Proof.Machine

/-! The commands on contexts (O42). A command that the mailbox takes acts on the record of the context that it names, in the state in which it
is in progress (11 R271, R272); the rule of each command then says what that state becomes. -/

namespace Sys2Proof.Machine

open Sys2Proof

/-! ### The mailbox hands over the context

What the device keeps of its contexts does not depend on the record in the mailbox. -/

@[simp] theorem rung_ctx? (r : Rec64) (s : State) (id : BitVec 10) : (rung r s).ctx? id = s.ctx? id := rfl

@[simp] theorem rung_ctxs (r : Rec64) (s : State) : (rung r s).ctxs = s.ctxs := rfl

@[simp] theorem rung_freeCtx (r : Rec64) (s : State) : (rung r s).freeCtx = s.freeCtx := rfl

@[simp] theorem rung_keyGen (r : Rec64) (s : State) : (rung r s).keyGen = s.keyGen := rfl

@[simp] theorem rung_queue? (r : Rec64) (s : State) (id : BitVec 10) (n : BitVec 12) : (rung r s).queue? id n = s.queue? id n := rfl

@[simp] theorem rung_queues (r : Rec64) (s : State) : (rung r s).queues = s.queues := rfl

@[simp] theorem rung_qdesc (r : Rec64) (s : State) (id : BitVec 10) (n : BitVec 12) : (rung r s).qdesc id n = s.qdesc id n := rfl

@[simp] theorem rung_tail (r : Rec64) (s : State) (q : QueueRun) : (rung r s).tail q = s.tail q := rfl

@[simp] theorem rung_resv (r : Rec64) (s : State) (q : QueueRun) : (rung r s).resv q = s.resv q := rfl

@[simp] theorem rung_unused (r : Rec64) (s : State) (id : BitVec 10) (leaf : Leaf → Bool) :
    (rung r s).unused id leaf = s.unused id leaf := rfl

@[simp] theorem rung_core (r : Rec64) (s : State) (c : CoreId) : (rung r s).core c = s.core c := rfl

/-- A command of a context in use acts on its record, in the state in which the command is in progress. -/
theorem State.command_of_mails {s : State} {op : Nat} {ctx : BitVec 10} {arg : Word} {x : Context}
    (mails : Mails (cmdRecord op ctx arg 0) s) (found : s.ctx? ctx = some x) (act : Context → State → State) :
    s.command op ctx arg act = act x (rung (cmdRecord op ctx arg 0) s) := by
  rw [State.command, State.mailed_of_mails mails, rung_ctx?, found]

/-! ### CREATE (11 R268, R273) -/

theorem exec_create_next (arg : Word) (s : State) (id : BitVec 10) (mails : Mails (cmdRecord 1 0 arg 0) s) (free : s.freeCtx = some id)
    (aligned : arg.toNat % 128 = 0) (physical : arg.toNat < 2 ^ 52) :
    let s1 := rung (cmdRecord 1 0 arg 0) s
    let x := newContext id (arg.setWidth 52)
    exec (.create arg) s = .next ((State.publishCtx
      { s1.wrNat arg.toNat 128 ((s1.rdNat arg.toNat 128 &&& descRw) + id.toNat) with ctxs := s1.ctxs ++ [x] } x).reply
        (id.toNat * 2 ^ 32)) := by
  have accepted : ¬(decide (arg.toNat % 128 ≠ 0) || decide (2 ^ 52 ≤ arg.toNat)) = true := by
    simpa [aligned] using physical
  show execCreate arg s = _
  rw [execCreate, State.mailed_of_mails mails, rung_freeCtx, free]
  generalize rung (cmdRecord 1 0 arg 0) s = s1
  exact congrArg Host.Outcome.next (if_neg accepted)

/-! ### What BIND and RECLAIM do to the context's keys and to the device (11 R273 to R276) -/

/-- A first BIND gives slot 0 a key and makes the context keyed; a later one leaves both. -/
theorem State.firstBind_eq (u : State) (x : Context) :
    u.firstBind x =
      ({ x with
          state := if x.state = .creating then .keyed else x.state
          keys := if x.state = .creating then x.keys.set 0 (some u.keyGen) else x.keys
          destroyed := if x.state = .creating then x.destroyed.filter (· ≠ 0) else x.destroyed },
        { u with keyGen := if x.state = .creating then u.keyGen + 1 else u.keyGen }) := by
  rw [State.firstBind]
  split <;> rfl

/-- The state that RECLAIM of a context leaves before its reply. -/
def State.reclaimed (s : State) (ctx : BitVec 10) (x : Context) : State :=
  let t := (s.wipe x.saveB.toNat (65536 * x.saveS.toNat)).wrNat (x.desc.toNat + 96) 8 0
  { t with
    cores := t.cores.map (reclaimCore ctx)
    slices := t.slices.filter fun (l : SliceLine) => !l.ofCtx ctx
    ctxs := t.ctxs.filter (·.id ≠ ctx)
    queues := t.queues.filter (·.ctx ≠ ctx)
    rotation := t.rotation.filter (·.ctx ≠ ctx) }

theorem State.reclaimed_ctxs (s : State) (ctx : BitVec 10) (x : Context) : (s.reclaimed ctx x).ctxs = s.ctxs.filter (·.id ≠ ctx) := by
  rw [State.reclaimed, State.wrNat_ctxs]
  rfl

theorem State.reclaimed_queues (s : State) (ctx : BitVec 10) (x : Context) : (s.reclaimed ctx x).queues = s.queues.filter (·.ctx ≠ ctx) := by
  rw [State.reclaimed, State.wrNat_queues]
  rfl

theorem State.reclaimed_core (s : State) (ctx : BitVec 10) (x : Context) (c : CoreId) : (s.reclaimed ctx x).core c = reclaimCore ctx (s.core c) := by
  rw [State.core, State.reclaimed, State.wrNat_cores]
  exact Vector.getElem_map ..

section
variable {ctx : BitVec 10} {arg : Word} {s : State} {x : Context} (found : s.ctx? ctx = some x)
include found

/-! ### BIND (11 R274 to R276) -/

/-- BIND of a record whose slot its rule allows. -/
theorem exec_bind_next (mails : Mails (cmdRecord 2 ctx arg 0) s) (aligned : arg.toNat % 64 = 0) (bindable : x.state ≠ .draining)
    (alive : x.state ≠ .destroyed) {b : List Byte} {u : State} (record : (rung (cmdRecord 2 ctx arg 0) s).cohRead arg.toNat 4864 = b)
    (touched : (rung (cmdRecord 2 ctx arg 0) s).touch arg.toNat 4864 = u) (n : Fin 16) (slot : bindSlot b = n.val)
    (first : n = 0 → x.state = .creating) (empty : x.keys[n] = none) :
    exec (.bind ctx arg) s = .next (u.bindKey { x with part := u.ctxPart x } b) := by
  have bound : ¬15 < bindSlot b := by omega
  have first' : bindSlot b = 0 → x.state = .creating := fun zero => first (Fin.ext (slot.symm.trans zero))
  obtain rfl : n = Fin.ofNat 16 (bindSlot b) := by rw [slot, Fin.ofNat_val_eq_self]
  have vacant : ¬(decide (15 < bindSlot b) || (decide (bindSlot b = 0) && decide (x.state ≠ .creating)) ||
      (x.keys[Fin.ofNat 16 (bindSlot b)]).isSome) = true := by
    rw [empty]
    by_cases zero : bindSlot b = 0
    · rw [first' zero]
      simp [bound]
    · simp [zero, bound]
  have allowed : ¬(decide (x.state = .draining) || decide (x.state = .destroyed)) = true := by simp [bindable, alive]
  show execBind ctx arg s = _
  rw [execBind, State.command_of_mails mails found]
  dsimp only
  subst record touched
  rw [if_neg (Decidable.not_not.2 aligned), if_neg allowed, if_neg vacant]

/-- BIND of a record of slot 0: the context in creating takes a key of the package and is keyed. -/
theorem exec_bind_first (mails : Mails (cmdRecord 2 ctx arg 0) s) (aligned : arg.toNat % 64 = 0) (creating : x.state = .creating)
    {b : List Byte} {u : State} (record : (rung (cmdRecord 2 ctx arg 0) s).cohRead arg.toNat 4864 = b)
    (touched : (rung (cmdRecord 2 ctx arg 0) s).touch arg.toNat 4864 = u) (slot : bindSlot b = 0) (empty : x.keys[(0 : Fin 16)] = none)
    (reserved : bindReserved b = true) (zeros : (b.drop 4).all (· = 0) = true) (attested : u.partAttested (u.ctxPart x) = true) :
    exec (.bind ctx arg) s = .next ((State.updCtx { u with keyGen := s.keyGen + 1 } x.id fun _ =>
      { x with part := u.ctxPart x, state := .keyed, keys := x.keys.set 0 (some s.keyGen),
               destroyed := x.destroyed.filter (· ≠ 0) }).reply 0) := by
  have gen : u.keyGen = s.keyGen := by rw [← touched, State.touch_keyGen, rung_keyGen]
  have accepted : (bindReserved b && (b.drop 4).all (· = 0) && u.partAttested (u.ctxPart x)) = true := by
    rw [reserved, zeros, attested]
    rfl
  rw [exec_bind_next found mails aligned (by simp [creating]) (by simp [creating]) record touched 0 slot (fun _ => creating) empty,
    State.bindKey, slot, if_pos (by rfl), if_pos accepted, State.firstBind, if_pos creating, gen]
  rfl

/-- BIND of a record of a slot from 1 to 15: its key is installed where the root accepts the record and the key unwraps. -/
theorem exec_bind_model (n : Fin 16) (mails : Mails (cmdRecord 2 ctx arg 0) s) (aligned : arg.toNat % 64 = 0)
    (bindable : x.state ≠ .draining) (alive : x.state ≠ .destroyed)
    {b : List Byte} {u : State} (record : (rung (cmdRecord 2 ctx arg 0) s).cohRead arg.toNat 4864 = b)
    (touched : (rung (cmdRecord 2 ctx arg 0) s).touch arg.toNat 4864 = u) (slot : bindSlot b = n.val) (nonzero : n ≠ 0)
    (empty : x.keys[n] = none) :
    let took := bindReserved b && Config.sessionOpen u.tick (bindSession b) && Config.sigOk b && u.partAttested (u.ctxPart x) &&
      bindDigest b = u.partDigest (u.ctxPart x)
    let fresh := x.state = .creating
    let y : Context := { x with
      part := u.ctxPart x, state := (if fresh then .keyed else x.state), keys := (if fresh then x.keys.set 0 (some s.keyGen) else x.keys),
      destroyed := (if fresh then x.destroyed.filter (· ≠ 0) else x.destroyed) }
    let bound := fun k : BitVec 256 => (State.updCtx { u with keyGen := if fresh then s.keyGen + 1 else s.keyGen } x.id fun _ =>
      { y with keys := y.keys.set n (some (2 ^ 256 + k.toNat)), digests := y.digests.set n (some (bindDigest b)),
               destroyed := y.destroyed.filter (· ≠ n) }).reply 0
    exec (.bind ctx arg) s = .next (if took then ((Config.unwrapKey b).map bound).getD (u.reply 3) else u.reply 3) := by
  intro took fresh y bound
  have gen : u.keyGen = s.keyGen := by rw [← touched, State.touch_keyGen, rung_keyGen]
  have accepted : u.bindOk (u.ctxPart x) b = took := rfl
  rw [exec_bind_next found mails aligned bindable alive record touched n slot (fun zero => absurd zero nonzero) empty,
    State.bindKey, slot, Fin.ofNat_val_eq_self, if_neg nonzero]
  dsimp only
  rw [accepted]
  cases took with
  | false => rfl
  | true =>
    cases Config.unwrapKey b with
    | none => rfl
    | some k =>
      rw [State.firstBind_eq, gen]
      rfl

/-! ### ACTIVATE and RESUME (11 R268, R270; 12 R281) -/

theorem exec_activate_next (y : Context) (t : State) (read : (rung (cmdRecord 3 ctx 0 0) s).readDesc x = y)
    (touched : (rung (cmdRecord 3 ctx 0 0) s).touch x.desc.toNat 128 = t) (mails : Mails (cmdRecord 3 ctx 0 0) s)
    (keyed : x.state = .keyed) (valid : t.descOk y = true) : exec (.activate ctx) s = .next ((t.activated y).reply 0) := by
  have accepted : ¬(!t.descOk y) = true := by rw [valid]; decide
  have state : y.state = .keyed := by rw [← read]; exact keyed
  have place : y.desc = x.desc := by rw [← read]; rfl
  show execActivate ctx s = _
  rw [execActivate, State.command_of_mails mails found]
  dsimp only
  rw [read, place, touched, if_neg (Decidable.not_not.2 state), if_neg accepted]
  rfl

theorem exec_resume_next (y : Context) (t : State) (read : (rung (cmdRecord 5 ctx 0 0) s).readDesc x = y)
    (touched : (rung (cmdRecord 5 ctx 0 0) s).touch x.desc.toNat 128 = t) (mails : Mails (cmdRecord 5 ctx 0 0) s)
    (suspended : x.state = .suspended) (valid : t.descOk y = true) :
    exec (.resume ctx) s = .next (((List.range y.qn.toNat).foldl (fun t n => t.resumeQueue y n)
      (State.fitIdle (t.updCtx ctx fun _ => { y with state := .active }) y)).reply 0) := by
  have accepted : ¬(!t.descOk y) = true := by rw [valid]; decide
  have state : y.state = .suspended := by rw [← read]; exact suspended
  have place : y.desc = x.desc := by rw [← read]; rfl
  show execResume ctx s = _
  rw [execResume, State.command_of_mails mails found]
  dsimp only
  rw [read, place, touched, if_neg (Decidable.not_not.2 state), if_neg accepted]
  rfl

/-! ### SUSPEND and DRAIN (11 R273) -/

theorem exec_suspend_next (mails : Mails (cmdRecord 4 ctx 0 0) s) (active : x.state = .active) :
    exec (.suspend ctx) s = .next (((rung (cmdRecord 4 ctx 0 0) s).suspendCtx ctx).reply 0) := by
  show execSuspend ctx s = _
  rw [execSuspend, State.command_of_mails mails found]
  exact congrArg Host.Outcome.next (if_neg (Decidable.not_not.2 active))

theorem exec_drain_next (mails : Mails (cmdRecord 6 ctx 0 0) s) (runs : x.state = .active ∨ x.state = .suspended) :
    exec (.drain ctx) s = .next (((((rung (cmdRecord 6 ctx 0 0) s).updCtx ctx fun x => { x with state := .draining }).suspendQueues
      ctx).finishDrain ctx).reply 0) := by
  have allowed : ¬(decide (x.state ≠ .active) && decide (x.state ≠ .suspended)) = true := by
    obtain state | state := runs <;> simp [state]
  show execDrain ctx s = _
  rw [execDrain, State.command_of_mails mails found]
  exact congrArg Host.Outcome.next (if_neg allowed)

/-! ### KEYDESTROY, DESTROY and RECLAIM (11 R273, R277) -/

theorem exec_keydestroy_next (n : Fin 16) (mails : Mails (cmdRecord 9 ctx arg 0) s) (slot : arg = BitVec.ofNat 64 n.val)
    (made : x.state ≠ .creating) (alive : x.state ≠ .destroyed) :
    let s1 := rung (cmdRecord 9 ctx arg 0) s
    exec (.keydestroy ctx arg) s = .next
      (((s1.dropLines ctx (s1.lineUnder x n) fun l => l.key.any fun k => decide (k.ctx = ctx) && decide (k.slot = n)).updCtx ctx
        fun y => { y with
          keys := y.keys.set n none, digests := y.digests.set n none, lost := y.lost.filter (·.2 ≠ n),
          destroyed := if (y.keys[n]).isSome then n :: y.destroyed else y.destroyed }).reply 0) := by
  have value : arg.toNat = n.val := by rw [slot, BitVec.toNat_ofNat]; omega
  obtain rfl : n = Fin.ofNat 16 arg.toNat := by rw [value, Fin.ofNat_val_eq_self]
  have allowed : ¬(decide (x.state = .creating) || decide (x.state = .destroyed)) = true := by simp [made, alive]
  show execKeydestroy ctx arg s = _
  rw [execKeydestroy, State.command_of_mails mails found]
  exact congrArg Host.Outcome.next ((if_neg (by omega)).trans (if_neg allowed))

theorem exec_destroy_next (mails : Mails (cmdRecord 7 ctx 0 0) s) (alive : x.state ≠ .destroyed) :
    let s1 := ((((rung (cmdRecord 7 ctx 0 0) s).completePairs ctx).dropLines ctx (fun _ l => l.ctx = ctx)
      (SliceLine.ofCtx ctx)).stopGroups ctx).haltAll ctx
    exec (.destroy ctx) s = .next ((State.updCtx { s1 with
      launches := s1.launches.filter (·.ctx ≠ ctx), placed := s1.placed.filter (·.ctx ≠ ctx),
      saved := s1.saved.filter (·.ctx ≠ ctx) } ctx fun x => { x.eraseKeys with state := .destroyed }).reply 0) := by
  show execDestroy ctx s = _
  rw [execDestroy, State.command_of_mails mails found]
  exact congrArg Host.Outcome.next (if_neg alive)

theorem exec_reclaim_next (mails : Mails (cmdRecord 8 ctx 0 0) s) (destroyed : x.state = .destroyed) :
    exec (.reclaim ctx) s = .next (((rung (cmdRecord 8 ctx 0 0) s).reclaimed ctx x).reply 0) := by
  show execReclaim ctx s = _
  rw [execReclaim, State.command_of_mails mails found]
  exact congrArg Host.Outcome.next (if_neg (Decidable.not_not.2 destroyed))

/-- RECLAIM frees the identifier with the context's queues, and clears the cores that it last ran on. -/
theorem exec_reclaim_clears (mails : Mails (cmdRecord 8 ctx 0 0) s) (destroyed : x.state = .destroyed) :
    ∃ t, exec (.reclaim ctx) s = .next t ∧ t.mbox = 0 ∧ t.ctxs = s.ctxs.filter (·.id ≠ ctx) ∧
      t.queues = s.queues.filter (·.ctx ≠ ctx) ∧ ∀ c, t.core c = reclaimCore ctx (s.core c) := by
  refine ⟨_, exec_reclaim_next found mails destroyed, ?mbox, ?ctxs, ?queues, fun c => ?core⟩
  case mbox => exact State.reply_mbox _ 0
  case ctxs => rw [State.reply_ctxs, State.reclaimed_ctxs, rung_ctxs]
  case queues => rw [State.reply_queues, State.reclaimed_queues, rung_queues]
  case core => rw [State.core, State.reply_cores, ← State.core, State.reclaimed_core, rung_core]

/-! ### QRESET, XLFLUSH and FABTAG (12 R295, 16 R333, 11 R272) -/

theorem exec_qreset_next (q : QueueRun) (mails : Mails (cmdRecord 0x11 ctx arg 0) s) (inUse : arg.toNat < x.qn.toNat)
    (made : x.state ≠ .creating) (activated : x.state ≠ .keyed) (alive : x.state ≠ .destroyed)
    (queue : s.queue? ctx (arg.setWidth 12) = some q) (halted : q.state = .halted) :
    exec (.qreset ctx arg) s = .next
      ((((rung (cmdRecord 0x11 ctx arg 0) s).wrNat (s.qdesc ctx q.n + 24) 8 (max (s.resv q) (s.tail q))).setQueue { q with
        head := BitVec.ofNat 64 (s.tail q), done := BitVec.ofNat 64 (s.tail q), lastErr := 0, kept := .idle,
        state := if x.state = .active then .idle else .suspended }).reply 0) := by
  have allowed : ¬(decide (x.state = .creating) || decide (x.state = .keyed) || decide (x.state = .destroyed)) = true := by
    simp [made, activated, alive]
  show execQreset ctx arg s = _
  rw [execQreset, State.command_of_mails mails found]
  dsimp only
  rw [rung_queue?, queue, if_neg allowed, if_neg (Nat.not_le.2 inUse)]
  dsimp only
  rw [rung_tail, rung_resv, rung_qdesc, if_neg (Decidable.not_not.2 halted)]
  rfl

theorem exec_xlflush_next (mails : Mails (cmdRecord 0x12 ctx arg 0) s) (one : bitsOf arg.toNat 56 8 = 0)
    (made : x.state ≠ .creating) (alive : x.state ≠ .destroyed)
    (unused : s.unused ctx (fun l => l.maps (bitsOf arg.toNat 0 56)) = true) :
    exec (.xlflush ctx arg) s = .next
      (((rung (cmdRecord 0x12 ctx arg 0) s).discard ctx (fun l => l.maps (bitsOf arg.toNat 0 56))
        fun n => n.covers (bitsOf arg.toNat 0 56)).reply 0) := by
  have allowed : ¬(decide (x.state = .creating) || decide (x.state = .destroyed)) = true := by simp [made, alive]
  have page {α : Type} (f : α → Bool) : (fun l => decide ((0 : Nat) = 0xFF) || f l) = f := funext fun l => Bool.false_or (f l)
  have form : ¬(decide ((0 : Nat) ≠ 0) && decide ((0 : Nat) ≠ 0xFF)) = true := by decide
  show execXlflush ctx arg s = _
  rw [execXlflush, State.command_of_mails mails found]
  dsimp only
  rw [one, page, page, rung_unused, unused, if_neg form, if_neg allowed, if_neg (by decide)]
  rfl

theorem exec_fabtag_next (mails : Mails (cmdRecord 0x23 ctx arg 0) s) (short : arg.toNat < 2 ^ 16)
    (single : s.ctxs.all (fun y => y.id = ctx || y.fabTag ≠ some (arg.setWidth 16)) = true)
    (allowed : x.state = .creating ∨ x.state = .keyed ∨ x.state = .suspended) :
    exec (.fabtag ctx arg) s =
      .next (((rung (cmdRecord 0x23 ctx arg 0) s).updCtx ctx fun x => { x with fabTag := some (arg.setWidth 16) }).reply 0) := by
  have accepted : ¬(decide (2 ^ 16 ≤ arg.toNat) || (rung (cmdRecord 0x23 ctx arg 0) s).ctxs.any fun y =>
      decide (y.id ≠ ctx) && decide (y.fabTag = some (arg.setWidth 16))) = true := by
    have others := List.all_eq_true.1 single
    simp only [Bool.or_eq_true, decide_eq_true_eq] at others
    rw [Bool.or_eq_true, List.any_eq_true, rung_ctxs]
    rintro (long | ⟨y, used, tagged⟩)
    · exact absurd short (Nat.not_lt.2 (of_decide_eq_true long))
    · simp only [Bool.and_eq_true, decide_eq_true_eq] at tagged
      exact (others y used).elim tagged.1 (absurd tagged.2)
  have stateOk : ¬(decide (x.state ≠ .creating) && decide (x.state ≠ .keyed) && decide (x.state ≠ .suspended)) = true := by
    obtain state | state | state := allowed <;> simp [state]
  show execFabtag ctx arg s = _
  rw [execFabtag, State.command_of_mails mails found]
  exact congrArg Host.Outcome.next ((if_neg accepted).trans (if_neg stateOk))

end

/-- Settles O42, by the rule of each command. -/
theorem contextCommands : Obligations.ContextCommands := by
  unfold Obligations.ContextCommands
  refine ⟨exec_create_next, fun ctx arg s x found => ?_⟩
  refine ⟨?first, ?model, exec_activate_next found, exec_resume_next found, exec_suspend_next found, exec_drain_next found,
    exec_keydestroy_next found, exec_destroy_next found, exec_reclaim_clears found, exec_qreset_next found, exec_xlflush_next found,
    exec_fabtag_next found⟩
  case first =>
    intro mails aligned creating slot empty reserved zeros attested
    exact exec_bind_first found mails aligned creating rfl rfl slot empty reserved zeros attested
  case model =>
    intro n mails aligned bindable alive slot nonzero empty
    exact exec_bind_model found n mails aligned bindable alive rfl rfl slot nonzero empty

end Sys2Proof.Machine

/-! The instructions of the fabric, the barriers, paging, launches and landing slots (O11, O12, O13). An operation that a word enters in an
engine queue, with a destination or without one, is the lane's own. -/

namespace Sys2Proof.Machine

open Sys2Proof

/-! ### What enters the lists of the core (02 R48, R49) -/

/-- An operation with a destination enters its queue as the lane's, where the queue can take it. -/
theorem enterLane_ok {h : Head} {id : Nat} {push : Option (Fin 8)} {o : Order} {d : Dest} {kind : EngKind} {e : Fin 6}
    {r : Option Range} {s : State} (number : id = s.here.nextId) (takes : s.here.takes e r.isSome = true) :
    (do enterEngine e (freshOp h id (← curSlot) (← curBundle) push o d kind) r) s =
      .ok ((), s.queued e (laneOp h push o d kind s) r) := by
  subst number
  obtain ⟨openQueue, ranges⟩ := Bool.and_eq_true_iff.1 takes
  refine bind_next (curSlot_ok s) (bind_next (curBundle_ok s) (enterEngine_ok openQueue ?_))
  simpa only [Bool.or_eq_true, Bool.not_eq_true', Option.isSome_eq_false_iff, decide_eq_true_eq] using ranges

/-- A destination that an instruction may leave out takes no number. -/
theorem optionalDest_nextId {o : Option Operand} {d : Dest} {s t : State}
    (reserved : match o with
      | some r => reserveDest r s.here.nextId s = .ok (d, t)
      | none => d = .none ∧ t = s) : t.here.nextId = s.here.nextId := by
  cases o with
  | some r => exact (reserveDest_keeps reserved).2.1
  | none => rw [reserved.2]

/-- It is reserved, or there is none. -/
theorem optionalDest_next {β : Type} {o : Option Operand} {id : Nat} {d : Dest} {s t : State} {f : Dest → LaneM β}
    {r : Except Stop (β × State)} (number : id = s.here.nextId)
    (reserved : match o with
      | some r => reserveDest r s.here.nextId s = .ok (d, t)
      | none => d = .none ∧ t = s) (rest : f d t = r) :
    (do f (← match o with
      | some d => reserveDest d id
      | none => pure Dest.none)) s = r := by
  subst number
  cases o with
  | some x => exact bind_next reserved rest
  | none =>
    obtain ⟨rfl, rfl⟩ := reserved
    exact rest

/-! ### FWR, FATOM and FREQ (17 R367 to R369) -/

theorem exec_fwr_next (h : Head) (o : FwrOp) (s : State) (n a l : Word) (hd : Handle) (p : Nat) (s1 s2 s3 s4 s5 : State)
    (issues : Issues h s) (read_length : readS o.len (started h s) = .ok (n, s1)) (read_offset : readS o.ad.fa s1 = .ok (a, s2))
    (read_source : readS o.src s2 = .ok (l, s3)) (handle : getHandle o.ad.hdl s3 = .ok (hd, s4)) (peer : hd.space = .peer)
    (names_p : o.o.ssc.p = true) (some_bytes : 8 ≤ n.toNat) (bounded : n.toNat ≤ 65536) (whole : n.toNat % 8 = 0)
    (source_aligned : l.toNat % 8 = 0) (above : 0 ≤ a.toInt + o.ad.off.toInt)
    (below : a.toInt + o.ad.off.toInt + n.toNat ≤ hd.bound) (range : checkLocalRead l.toInt n.toNat s4 = .ok (p, s5))
    (aligned : (hd.base + (a.toInt + o.ad.off.toInt)) % 8 = 0) (takes : s5.here.takes 4 true = true) :
    exec (.fwr h o) s = .next (s5.queued 4
      (laneOp h o.push o.o .none (.fwr p n.toNat (BitVec.ofInt 56 (hd.base + (a.toInt + o.ad.off.toInt)))) s5)
      (some ⟨s5.here.nextId, p, p + n.toNat, false⟩)) := by
  refine lane_next (body := fwrBody h o) issues ?_
  refine bind_next read_length (bind_next read_offset (bind_next read_source (bind_next handle ?_)))
  refine bind_next (guardFault_of (by rw [peer]; rfl) _ s4) (bind_next (guardFault_of names_p _ s4) ?_)
  refine bind_next (guardFault_of (by simp [some_bytes, bounded, whole, source_aligned]) _ s4) ?_
  refine bind_next (guardFault_of (by simp [above, below]) _ s4) (bind_next range ?_)
  exact bind_next (guardFault_of (decide_eq_true aligned) _ s5) (bind_next (nextId_ok s5) (enterLane_ok rfl takes))

/-- CAS reads its destination as the expected value; no other operation expects one. -/
theorem fatomExpected_next {β : Type} {op : AOp} {d : Option Operand} {x : Word} {s t : State} {f : Word → LaneM β}
    {r : Except Stop (β × State)}
    (expected : match op, d with
      | .cas, some r => readS r s = .ok (x, t)
      | _, _ => x = 0 ∧ t = s) (rest : f x t = r) :
    (do f (← match op, d with
      | .cas, some d => readS d
      | _, _ => pure 0)) s = r := by
  split at expected
  · exact bind_next expected rest
  · obtain ⟨rfl, rfl⟩ := expected
    exact rest

theorem exec_fatom_next (h : Head) (o : FatomOp) (s : State) (a : Word) (hd : Handle) (b x : Word) (d : Dest)
    (s1 s2 s3 s4 s5 : State) (issues : Issues h s) (read_offset : readS o.ad.fa (started h s) = .ok (a, s1))
    (handle : getHandle o.ad.hdl s1 = .ok (hd, s2)) (peer : hd.space = .peer) (names_p : o.o.ssc.p = true)
    (above : 0 ≤ a.toInt + o.ad.off.toInt) (below : a.toInt + o.ad.off.toInt + o.ty.bytes ≤ hd.bound)
    (aligned : (hd.base + (a.toInt + o.ad.off.toInt)) % o.ty.bytes = 0) (read : readS o.b s2 = .ok (b, s3))
    (expected : match o.op, o.d with
      | .cas, some r => readS r s3 = .ok (x, s4)
      | _, _ => x = 0 ∧ s4 = s3)
    (reserved : match o.d with
      | some r => reserveDest r s4.here.nextId s4 = .ok (d, s5)
      | none => d = .none ∧ s5 = s4) (takes : s5.here.takes 4 false = true) :
    exec (.fatom h o) s = .next (s5.queued 4
      (laneOp h none o.o d (.fatom o.op o.ty b x (BitVec.ofInt 56 (hd.base + (a.toInt + o.ad.off.toInt)))) s5) none) := by
  refine lane_next (body := fatomBody h o) issues ?_
  refine bind_next read_offset (bind_next handle ?_)
  refine bind_next (guardFault_of (by rw [peer]; rfl) _ s2) (bind_next (guardFault_of names_p _ s2) ?_)
  refine bind_next (guardFault_of (by simp [above, below]) _ s2) (bind_next (guardFault_of (decide_eq_true aligned) _ s2) ?_)
  refine bind_next read (fatomExpected_next expected (bind_next (nextId_ok s4) ?_))
  exact optionalDest_next rfl reserved (enterLane_ok (optionalDest_nextId reserved).symm takes)

theorem exec_freq_next (h : Head) (o : FreqOp) (s : State) (dst src : Word) (p : Nat) (d : Dest) (s1 s2 s3 s4 : State)
    (issues : Issues h s) (read_target : readS o.dst (started h s) = .ok (dst, s1)) (read_source : readS o.src s1 = .ok (src, s2))
    (range : checkLocalRead src.toInt o.len.toNat s2 = .ok (p, s3)) (aligned : src.toNat % 8 = 0)
    (free : rangeStalls s3.here false p o.len.toNat = false) (ordered : guardOrder h .l noOrder s3 = .ok ((), s3))
    (reserved : reserveDest o.d s3.here.nextId s3 = .ok (d, s4)) (takes : s4.here.takes 4 false = true) :
    exec (.freq h o) s = .next (s4.queued 4
      (laneOp h o.push (relOrder o.rel) d (.freq dst (lsRead s3.here p o.len.toNat)) s4) none) := by
  refine lane_next (body := freqBody h o) issues ?_
  refine bind_next read_target (bind_next read_source (bind_next range ?_))
  refine bind_next (guardFault_of (decide_eq_true aligned) _ s3) (bind_next (getCore_ok s3) ?_)
  refine bind_next (guardStall_of (congrArg (!·) free) s3) (bind_next ordered (bind_next (getCore_ok s3) ?_))
  exact bind_next (nextId_ok s3) (bind_next reserved (enterLane_ok (reserveDest_keeps reserved).2.1.symm takes))

/-- Settles O11, by the rule of each instruction. -/
theorem fabricIssue : Obligations.FabricIssue := by
  unfold Obligations.FabricIssue
  exact ⟨exec_fwr_next, exec_fatom_next, exec_freq_next⟩

/-! ### The barrier instructions (15 R323, R324) -/

theorem exec_barinit_next (h : Head) (o : BarInitOp) (s : State) (hd : Handle) (va : BitVec 56) (b : Word) (d : Dest)
    (s1 s2 s3 : State) (issues : Issues h s) (address : handleAddr o.ad o.o.ssc 64 64 false (started h s) = .ok ((hd, va), s1))
    (read : readS o.t s1 = .ok (b, s2)) (reserved : reserveDest o.d s2.here.nextId s2 = .ok (d, s3))
    (room : tagRoom s3.here s3.cur.2 1 = true) :
    exec (.barinit h o) s = .next (s3.entered (handleAccess (laneAccess h .barinit hd.space.kind o.o d s3) hd .n64
      [⟨va, 64, .bar (.init o.kind o.rearm b), .sent⟩])) :=
  lane_next (body := barinitBody h o) issues
    (bind_next address (bind_next read (issueReserved_ok (handleAccess · hd .n64 _) reserved (fun _ => rfl) room)))

theorem exec_bararv_next (h : Head) (o : BarArvOp) (s : State) (hd : Handle) (va : BitVec 56) (w : Word) (d : Dest)
    (s1 s2 s3 : State) (issues : Issues h s) (ok : (s.here.slot s.cur.2).failed = false)
    (address : handleAddr o.ad o.o.ssc 64 64 false (started h s) = .ok ((hd, va), s1)) (read : readS o.w s1 = .ok (w, s2))
    (some_weight : 1 ≤ w.toNat) (bounded : w.toNat ≤ 65535)
    (reserved : match o.d with
      | some r => reserveDest r s2.here.nextId s2 = .ok (d, s3)
      | none => d = .none ∧ s3 = s2) (room : tagRoom s3.here s3.cur.2 1 = true) :
    exec (.bararv h o) s = .next (s3.entered (handleAccess
      (laneAccess h (.bararv o.d.isSome) hd.space.kind o.o d s3) hd .n64
      [⟨va, 64, .bar (.arrive (w.setWidth 16) (if o.pchk then some o.pexp else none) o.d.isSome), .sent⟩])) := by
  have weight : (w ≠ 0 && w.toNat ≤ 65535) = true := by
    have nonzero : w ≠ 0 := by rintro rfl; exact absurd some_weight (by decide)
    simpa [bounded] using nonzero
  show execBararv h o s = _
  rw [execBararv, if_neg (Bool.eq_false_iff.1 ok)]
  refine lane_next issues (bind_next address (bind_next read (bind_next (guardFault_of weight _ s2) (bind_next (nextId_ok s2) ?_))))
  exact optionalDest_next rfl reserved
    (issueFresh_ok (handleAccess · hd .n64 _) (optionalDest_nextId reserved).symm (fun _ => rfl) room)

theorem exec_barwait_local_next (h : Head) (o : BarWaitOp) (s : State) (off : Nat) (ph : Word) (s1 s2 t : State) (issues : Issues h s)
    (is_local : o.loc = true) (address : localAddr o.ad o.o.ssc 64 64 false (started h s) = .ok (off, s1))
    (read : readS o.ph s1 = .ok (ph, s2)) (ordered : guardOrder h .l o.o s2 = .ok ((), s2)) :
    let b : Rec64 := BitVec.ofNat 512 (lsNat s2.here off 64)
    barMet b (ph.getLsbD 0) = true → writeS o.d (barWord b false) s2 = .ok ((), t) → exec (.barwait h o) s = .next t := by
  intro b met written
  show execBarwait h o s = _
  rw [execBarwait, if_pos is_local]
  refine lane_next issues (bind_next address (bind_next read (bind_next ordered (bind_next (getCore_ok s2) ?_))))
  exact (congrFun (if_pos met) s2).trans written

/-- The look of a BARWAIT whose operands pass their checks names the barrier, and finds it where its phase is met. -/
theorem barwaitLook_ok {h : Head} {o : BarWaitOp} {s s1 s2 : State} {hd : Handle} {va : BitVec 56} {ph : Word}
    (address : handleAddr o.ad o.o.ssc 64 64 true s = .ok ((hd, va), s1)) (read : readS o.ph s1 = .ok (ph, s2))
    (ordered : guardOrder h .g o.o s2 = .ok ((), s2)) :
    ∃ x, barwaitLook h o s = .ok (x, s2) ∧ x.hd = hd ∧ x.va = va.toNat ∧ x.n = 64 ∧ x.keep = id ∧
      ∀ l, barMet (BitVec.ofNat 512 (leNat l)) (ph.getLsbD 0) = true →
        x.found l = some (writeS o.d (barWord (BitVec.ofNat 512 (leNat l)) false)) :=
  ⟨_, bind_next address (bind_next read (bind_next ordered rfl)), rfl, rfl, rfl, rfl, fun _ met => if_pos met⟩

/-- BARWAIT through a handle reads the barrier in the state in which it has not issued, and issues where its phase is met. -/
theorem exec_barwait_handle_next (h : Head) (o : BarWaitOp) (s : State) (hd : Handle) (va : BitVec 56) (ph : Word) (s1 s2 v : State)
    (l : List Byte) (w : State) (hz : Handle) (vz : BitVec 56) (pz : Word) (u1 u2 t : State) (issues : Issues h s)
    (through_handle : o.loc = false) (address : handleAddr o.ad o.o.ssc 64 64 true (started h s) = .ok ((hd, va), s1))
    (read : readS o.ph s1 = .ok (ph, s2)) (ordered : guardOrder h .g o.o s2 = .ok ((), s2))
    (ok : (s.here.slot s.cur.2).failed = false)
    (found : s.readVa s.cur.1 (s.here.ctxId.getD 0) { viaHandle hd false with acq := true } va.toNat 64 = (v, .ok l)) :
    let b : Rec64 := BitVec.ofNat 512 (leNat l)
    barMet b (ph.getLsbD 0) = true → w = v.updCore s.cur.1 (startIssue h s.cur.2) →
    handleAddr o.ad o.o.ssc 64 64 true w = .ok ((hz, vz), u1) → readS o.ph u1 = .ok (pz, u2) →
    guardOrder h .g o.o u2 = .ok ((), u2) → writeS o.d (barWord b false) u2 = .ok ((), t) → exec (.barwait h o) s = .next t := by
  rintro b met rfl address' read' ordered' written
  obtain ⟨x, looked, rfl, address_eq, size, keep, finds⟩ := barwaitLook_ok address read ordered
  obtain ⟨_, looked', -⟩ := barwaitLook_ok address' read' ordered'
  show execBarwait h o s = _
  rw [execBarwait, if_neg (Bool.eq_false_iff.1 through_handle), issueAct_of_issues issues]
  refine congrArg Host.Outcome.next (awaitRead_found (r := v) (b := l) looked ok ?_ (finds l met) (bind_next looked' written))
  rw [keep, size, address_eq, started_cur, State.updCore_same s s.cur.1 id rfl]
  exact found

theorem exec_bartst_local_next (h : Head) (o : BarTstOp) (s : State) (off : Nat) (d : Dest) (s1 s2 : State) (issues : Issues h s)
    (is_local : o.loc = true) (address : localAddr o.ad o.o.ssc 64 64 false (started h s) = .ok (off, s1))
    (reserved : reserveDest o.d s1.here.nextId s1 = .ok (d, s2)) (room : tagRoom s2.here s2.cur.2 0 = true) :
    exec (.bartst h o) s = .next (s2.entered (laneAccess h (.bartst (some off)) .l o.o d s2)) := by
  refine lane_next (body := bartstBody h o) issues ?_
  rw [bartstBody, if_pos is_local]
  exact bind_next address (issueReserved_ok id reserved (fun _ => rfl) room)

theorem exec_bartst_handle_next (h : Head) (o : BarTstOp) (s : State) (hd : Handle) (va : BitVec 56) (d : Dest) (s1 s2 : State)
    (issues : Issues h s) (through_handle : o.loc = false)
    (address : handleAddr o.ad o.o.ssc 64 64 true (started h s) = .ok ((hd, va), s1))
    (reserved : reserveDest o.d s1.here.nextId s1 = .ok (d, s2)) (room : tagRoom s2.here s2.cur.2 1 = true) :
    exec (.bartst h o) s = .next (s2.entered (handleAccess (laneAccess h (.bartst none) .g o.o d s2) hd .n64
      [⟨va, 64, .load, .sent⟩])) := by
  refine lane_next (body := bartstBody h o) issues ?_
  rw [bartstBody, if_neg (Bool.eq_false_iff.1 through_handle)]
  exact bind_next address (issueReserved_ok (handleAccess · hd .n64 _) reserved (fun _ => rfl) room)

/-! ### PGPF and PGIN (16 R343) -/

/-- A far handle passes where the package has far-memory ports. -/
theorem guardFar_ok {hd : Handle} {s : State} (ports : hd.space = .far → s.farPorts ≠ 0) (va : BitVec 56) :
    guardFar hd va s = .ok ((), s) := by
  refine if_neg fun refuses => ?_
  obtain ⟨far, none⟩ := Bool.and_eq_true_iff.1 refuses
  exact ports (eq_of_beq far) (of_decide_eq_true none)

theorem exec_pgpf_next (h : Head) (o : PgpfOp) (s : State) (hd : Handle) (va : BitVec 56) (d : Dest) (s1 s2 : State)
    (issues : Issues h s) (address : handleAddr o.ad o.o.ssc 1 1 false (started h s) = .ok ((hd, va), s1))
    (ports : hd.space = .far → s1.farPorts ≠ 0) (reserved : reserveDest o.d s1.here.nextId s1 = .ok (d, s2))
    (room : tagRoom s2.here s2.cur.2 0 = true) :
    exec (.pgpf h o) s = .next ((s2.entered (laneAccess h (.pgpf va) hd.space.kind o.o d s2)).updCore s2.cur.1
      (beginWalk va.toNat)) := by
  have number : s1.here.nextId = s2.here.nextId := (reserveDest_keeps reserved).2.1.symm
  refine lane_next (body := pgpfBody h o) issues (bind_next address (bind_next (guardFar_ok ports va) (bind_next (nextId_ok s1) ?_)))
  rw [number] at reserved ⊢
  refine bind_next reserved (bind_next (curSlot_ok s2) (bind_next (curBundle_ok s2) ?_))
  exact bind_next (issueAccess_ok (a := laneAccess h (.pgpf va) hd.space.kind o.o d s2) room) (modCore_ok _ _)

theorem exec_pgin_next (h : Head) (o : PginOp) (s : State) (hd : Handle) (va : BitVec 56) (b : Word) (near : Option (BitVec 56))
    (d : Dest) (s1 s2 s3 s4 : State) (issues : Issues h s)
    (address : handleAddr o.ad o.o.ssc 1 1 false (started h s) = .ok ((hd, va), s1)) (ports : hd.space = .far → s1.farPorts ≠ 0)
    (read : readS o.n s1 = .ok (b, s2)) (near_page : nearAddr b s2 = .ok (near, s3))
    (reserved : reserveDest o.d s3.here.nextId s3 = .ok (d, s4)) (room : tagRoom s4.here s4.cur.2 0 = true) :
    exec (.pgin h o) s = .next (s4.entered (laneAccess h (.pgin va near) .g o.o d s4)) := by
  refine lane_next (body := pginBody h o) issues (bind_next address (bind_next (guardFar_ok ports va) ?_))
  exact bind_next read (bind_next near_page (issueReserved_ok id reserved (fun _ => rfl) room))

/-! ### LAUNCH and QENTRY (12 R291, R292) -/

theorem exec_launch_next (h : Head) (o : LaunchOp) (s : State) (args : Word) (hd : Handle) (va : BitVec 56) (q : Word)
    (g : GroupInfo) (d : Dest) (s1 s2 s3 s4 : State) (issues : Issues h s) (read_args : readS o.d (started h s) = .ok (args, s1))
    (address : handleAddr o.ad anySsc 64 1 false s1 = .ok ((hd, va), s2)) (read_queue : readS o.q s2 = .ok (q, s3))
    (group : s3.here.grp = some g) (reserved : reserveDest o.d s3.here.nextId s3 = .ok (d, s4))
    (room : tagRoom s4.here s4.cur.2 0 = true) :
    exec (.launch h o) s = .next (s4.entered (laneAccess h (.append q (BitVec.ofNat 512
      (1 + 2 ^ 8 * g.pri.toNat + 2 ^ 16 * (if o.done = 0 then 3 else o.done.toNat) + (if o.pre then 2 ^ 19 else 0) +
        2 ^ 64 * va.toNat + 2 ^ 128 * args.toNat))) .g o.o d s4)) :=
  lane_next (body := launchBody h o) issues (bind_next read_args (bind_next address (bind_next read_queue
    (bind_next (getGroup_ok group) (issueReserved_ok id reserved (fun _ => rfl) room)))))

theorem exec_qentry_next (h : Head) (o : QEntryOp) (s : State) (a q : Word) (p : Nat) (d : Dest) (s1 s2 s3 s4 : State)
    (issues : Issues h s) (read_offset : readS o.fa (started h s) = .ok (a, s1)) (read_queue : readS o.q s1 = .ok (q, s2))
    (range : checkLocalRead (a.toInt + o.off.toInt) 64 s2 = .ok (p, s3)) (aligned : (a.toInt + o.off.toInt) % 64 = 0)
    (free : rangeStalls s3.here false p 64 = false) (ordered : guardOrder h .l noOrder s3 = .ok ((), s3))
    (reserved : reserveDest o.d s3.here.nextId s3 = .ok (d, s4)) (room : tagRoom s4.here s4.cur.2 0 = true) :
    exec (.qentry h o) s =
      .next (s4.entered (laneAccess h (.append q (BitVec.ofNat 512 (lsNat s3.here p 64))) .g o.o d s4)) := by
  refine lane_next (body := qentryBody h o) issues (bind_next read_offset (bind_next read_queue (bind_next range ?_)))
  refine bind_next (guardFault_of (decide_eq_true aligned) _ s3) (bind_next (getCore_ok s3) ?_)
  refine bind_next (guardStall_of (congrArg (!·) free) s3) (bind_next ordered (bind_next (getCore_ok s3) ?_))
  exact issueReserved_ok id reserved (fun _ => rfl) room

/-- Settles O13, by the rule of each instruction. -/
theorem barrierPagingLaunchIssue : Obligations.BarrierPagingLaunchIssue := by
  unfold Obligations.BarrierPagingLaunchIssue
  exact ⟨exec_barinit_next, exec_bararv_next, exec_barwait_local_next, exec_barwait_handle_next, exec_bartst_local_next,
    exec_bartst_handle_next, exec_pgpf_next, exec_pgin_next, exec_launch_next, exec_qentry_next⟩

/-! ### The landing-slot instructions (18 R378, R381 to R385) -/

theorem guardSst_ok {zone : BitVec 4} {j : Nat} {ok : Bool} (permits : ok = true) (s : State) : guardSst zone j ok s = .ok ((), s) :=
  bind_next (getCore_ok s) (guardFault_of permits _ s)

theorem exec_lzoffer_next (h : Head) (o : LzOfferOp) (s : State) (j : Nat) (b : Rec64) (n : Word) (s1 s2 : State) (issues : Issues h s)
    (named : namedSlot o.zone o.j (started h s) = .ok ((j, b), s1)) (read : readS o.b s1 = .ok (n, s2))
    (ordered : guardOrder h .l noOrder s2 = .ok ((), s2)) (free : slotSst b = sstFree) (some_bytes : 64 ≤ n.toNat)
    (bounded : n.toNat ≤ 32768) (whole : n.toNat % 64 = 0) :
    exec (.lzoffer h o) s = .next (s2.updCore s2.cur.1 (·.putSlotRec o.zone.toFin j
      (putField (putField (putSst (putField (putField (putField b 8 3 0) 12 1 0) 64 64 (n.toNat / 64)) sstOffered) 264 8 0)
        336 16 n.toNat))) := by
  refine lane_next (body := lzofferBody h o) issues (bind_next named (bind_next read (bind_next ordered ?_)))
  refine bind_next (guardSst_ok (decide_eq_true free) s2) (bind_next (getCore_ok s2) ?_)
  exact bind_next (guardFault_of (by simp [some_bytes, bounded, whole]) _ s2) (modCore_ok _ s2)

/-- An offered slot is reserved under the core's next reservation number, for the device and the core that the word names. -/
theorem exec_lzgrant_next (h : Head) (o : LzGrantOp) (s : State) (cookie : Word) (j : Nat) (b : Rec64) (w : Word) (d : Dest)
    (s1 s2 s3 s5 : State) (issues : Issues h s) (read_cookie : readS o.d (started h s) = .ok (cookie, s1))
    (named : namedSlot o.zone o.j s1 = .ok ((j, b), s2)) (read_target : readS o.w s2 = .ok (w, s3))
    (ordered : guardOrder h .l noOrder s3 = .ok ((), s3)) (offered : slotSst b = sstOffered) (good : badTarget w = false) :
    let rsv := s3.here.lzseq + 1
    let t := w.toNat
    let b' := putField (putField (putField (putField (putSst b sstReserved) 272 16 rsv.toNat) 288 16 (bitsOf t 0 16)) 304 16
      (if BitVec.ofNat 16 (bitsOf t 0 16) = s3.device then 0 else bitsOf t 32 16)) 320 9 (bitsOf t 16 9)
    let s4 := s3.updCore s3.cur.1 fun k => { k with lzseq := rsv }.putSlotRec o.zone.toFin j b'
    reserveDest o.d s4.here.nextId s4 = .ok (d, s5) → tagRoom s5.here s5.cur.2 0 = true →
    exec (.lzgrant h o) s = .next (s5.entered (laneAccess h (.lzgrant o.zone.toFin j w
      (grantRecord s3.device s3.cur.1 o.zone.toNat j rsv.toNat (slotBytes b') cookie)) .p (relOrder o.rel) d s5)) := by
  intro rsv t b' s4 reserved room
  refine lane_next (body := lzgrantBody h o) issues (bind_next read_cookie (bind_next named (bind_next read_target ?_)))
  refine bind_next ordered (bind_next (guardSst_ok (decide_eq_true offered) s3) ?_)
  rw [if_neg (Bool.eq_false_iff.1 good)]
  refine bind_next (curCore_ok s3) (bind_next (a := s3.device) rfl (bind_next (getCore_ok s3) ?_))
  exact bind_next (modCore_ok _ s3) (issueReserved_ok id reserved (fun _ => rfl) room)

/-- A destination word with other bits than its fields gives status 2 at issue (18 R382). -/
theorem exec_lzgrant_badTarget_next (h : Head) (o : LzGrantOp) (s : State) (cookie : Word) (j : Nat) (b : Rec64) (w : Word)
    (s1 s2 s3 t : State) (issues : Issues h s) (read_cookie : readS o.d (started h s) = .ok (cookie, s1))
    (named : namedSlot o.zone o.j s1 = .ok ((j, b), s2)) (read_target : readS o.w s2 = .ok (w, s3))
    (ordered : guardOrder h .l noOrder s3 = .ok ((), s3)) (offered : slotSst b = sstOffered) (bad : badTarget w = true)
    (written : writeS o.d 2 s3 = .ok ((), t)) : exec (.lzgrant h o) s = .next t := by
  refine lane_next (body := lzgrantBody h o) issues (bind_next read_cookie (bind_next named (bind_next read_target ?_)))
  refine bind_next ordered (bind_next (guardSst_ok (decide_eq_true offered) s3) ?_)
  rw [if_pos bad]
  exact written

theorem exec_lzput_next (h : Head) (o : LzPutOp) (s : State) (g src : Word) (p off : Nat) (d : Dest) (s1 s2 s3 s4 s5 : State)
    (issues : Issues h s) (read_grant : readS o.g (started h s) = .ok (g, s1)) (read_source : readS o.src s1 = .ok (src, s2))
    (names_p : o.o.ssc.p = true) (grant_range : checkLocalRead (g.toInt + o.off.toInt) 32 s2 = .ok (p, s3))
    (free : rangeStalls s3.here false p 32 = false) (ordered : guardOrder h .l noOrder s3 = .ok ((), s3))
    (usable : grantOk (leNat (lsRead s3.here p 32)) src = true)
    (range : checkLocalRead src.toInt (bitsOf (leNat (lsRead s3.here p 32)) 96 32) s3 = .ok (off, s4))
    (reserved : reserveDest o.d s4.here.nextId s4 = .ok (d, s5)) (takes : s5.here.takes 4 true = true) :
    exec (.lzput h o) s = .next (s5.queued 4
      (laneOp h o.push o.o d (.lzput (lsRead s3.here p 32) off) s5)
      (some ⟨s5.here.nextId, off, off + bitsOf (leNat (lsRead s3.here p 32)) 96 32, false⟩)) := by
  have number : s4.here.nextId = s5.here.nextId := (reserveDest_keeps reserved).2.1.symm
  refine lane_next (body := lzputBody h o) issues (bind_next read_grant (bind_next read_source ?_))
  refine bind_next (guardFault_of names_p _ s2) (bind_next grant_range (bind_next (getCore_ok s3) ?_))
  refine bind_next (guardStall_of (congrArg (!·) free) s3) (bind_next ordered (bind_next (getCore_ok s3) ?_))
  refine bind_next (guardFault_of usable _ s3) (bind_next range (bind_next (nextId_ok s4) ?_))
  rw [← number]
  exact bind_next reserved (enterLane_ok number takes)

/-- An adoption whose tag is free and whose way needs no write-back is done (18 R384). -/
theorem State.tryAdopt_of_place {s : State} {c : CoreId} {x : Adoption} {victims : List TileLine} {idx hand : Nat}
    (untagged : (s.core c).tagged x.tens x.c = none)
    (way : (s.core c).plan (s.poolGranules (s.core c)) 0 (Config.draw s.freeCtr) (tagSet x.tens x.c) (s.core c).adopting.isSome =
      .place victims idx hand) (clean : victims.any (·.dirty) = false) :
    s.tryAdopt c x = .done ((s.setCore c (adoptLine x ((s.core c).ctxId.getD 0) (((s.core c).grp.map (·.asc)).getD .device) idx
      { victims.foldl evictTile (s.core c) with hand := hand })).drew.settleTiles c) := by
  simp only [State.tryAdopt, untagged, way, clean, Option.isSome_none, Bool.false_eq_true, if_false]

theorem exec_lzadopt_next (h : Head) (o : LzAdoptOp) (s : State) (x : Adoption) (s1 : State) (victims : List TileLine)
    (idx hand : Nat) (issues : Issues h s) (read : adoption o (s.here.slot .a).entry (started h s) = .ok (x, s1))
    (untagged : (s1.core s.cur.1).tagged x.tens x.c = none)
    (way : (s1.core s.cur.1).plan (s1.poolGranules (s1.core s.cur.1)) 0 (Config.draw s1.freeCtr) (tagSet x.tens x.c)
      (s1.core s.cur.1).adopting.isSome = .place victims idx hand) (clean : victims.any (·.dirty) = false) :
    let k := s1.core s.cur.1
    let l := adoptLine x (k.ctxId.getD 0) ((k.grp.map (·.asc)).getD .device) idx { victims.foldl evictTile k with hand := hand }
    exec (.lzadopt h o) s =
      .next (forgetEntry (((s1.setCore s.cur.1 l).drew.settleTiles s.cur.1).updCore s.cur.1 fun k => { k with adopting := none })) := by
  intro k l
  refine congrArg Host.Outcome.next ((issueAct_of_issues issues).trans ?_)
  rw [lzadoptIssue, started_cur, read]
  simp only [State.tryAdopt_of_place untagged way clean, k, l]

/-- LZFREE of a slot that awaits records tears it; of another it frees it. -/
theorem exec_lzfree_next (h : Head) (o : LzFreeOp) (s : State) (j : Nat) (b : Rec64) (s1 : State) (issues : Issues h s)
    (named : namedSlot o.zone o.j (started h s) = .ok ((j, b), s1)) (ordered : guardOrder h .l noOrder s1 = .ok ((), s1))
    (in_use : slotSst b ≠ sstFree) (unadopted : slotSst b ≠ sstAdopted) :
    exec (.lzfree h o) s = .next (if slotSst b = sstReserved ∨ slotSst b = sstFilling then
      s1.drew.updCore s1.cur.1 (tearSlot o.zone.toFin j 4 s1.freeCtr)
      else s1.updCore s1.cur.1 (·.putSlotRec o.zone.toFin j slotReset)) := by
  have awaits : awaitsLanding b = true ↔ slotSst b = sstReserved ∨ slotSst b = sstFilling := by
    simp [awaitsLanding]
  refine lane_next (body := lzfreeBody h o) issues (bind_next named (bind_next ordered ?_))
  refine bind_next (guardSst_ok (by simp [in_use, unadopted]) s1) ?_
  simp only [awaits]
  split <;> rfl

theorem exec_lzstat_next (h : Head) (o : LzStatOp) (s : State) (j : Nat) (b : Rec64) (s1 t : State) (issues : Issues h s)
    (names_l : o.ssc.l = true) (named : namedSlot o.zone o.j (started h s) = .ok ((j, b), s1))
    (ordered : guardOrder h .l ⟨.group, o.ssc, if o.acq then .acq else .rlx⟩ s1 = .ok ((), s1))
    (written : writeS o.d (BitVec.ofNat 64 (packFields [(3, slotSst b), (5, 0), (8, slotCause b), (16, slotRsv b), (16, barCount b),
      (16, barTarget b)])) s1 = .ok ((), t)) : exec (.lzstat h o) s = .next t :=
  lane_next (body := lzstatBody h o) issues
    (bind_next (guardFault_of names_l _ _) (bind_next named (bind_next ordered written)))

/-- Settles O12, by the rule of each instruction. -/
theorem landingIssue : Obligations.LandingIssue := by
  unfold Obligations.LandingIssue
  exact ⟨exec_lzoffer_next, exec_lzgrant_next, exec_lzgrant_badTarget_next, exec_lzput_next, exec_lzadopt_next, exec_lzfree_next,
    exec_lzstat_next⟩

end Sys2Proof.Machine

/-! The queue engine (O32, O33, O34): entries taken at a queue's head and completed, appends of cores, barriers that reopen, and the stages
of a launch. -/

namespace Sys2Proof.Machine

open Sys2Proof

/-! ### Taking entries and completing them (12 R284 to R287) -/

/-- A well-formed entry of one of the kinds, first of its partition, is taken and goes on. -/
theorem State.take_of_entry {s s1 t : State} {ctx : BitVec 10} {n : BitVec 12} {q p : QueueRun} {x : Context} {e : Rec64}
    {kinds : Nat → Bool} (act : QueueRun → Context → Rec64 → State → State) (queue : s.queue? ctx n = some q)
    (context : s.ctx? ctx = some x) (head : s.headOf q = (s1, .entry e)) (first : s1.first q e = true)
    (formed : entIllFormed x e = false) (taken : s1.takeEntry q e .running = (t, p)) (kind : kinds (entKind e) = true) :
    s.take ctx n kinds act = act p x e t := by
  simp only [State.take, queue, context, head, kind, first, taken, formed, Bool.not_true, Bool.false_eq_true, if_false]

/-- An entry that has been taken has made no arrival. -/
theorem State.takeEntry_remote {s t : State} {q p : QueueRun} {e : Rec64} {st : QState} (taken : s.takeEntry q e st = (t, p)) :
    p.remote = .none := by
  show (t, p).2.remote = _
  rw [← taken]
  rfl

/-- The entry of a kind that is in progress in a queue that is not halted. -/
theorem State.inProgress_of_entry {s : State} {ctx : BitVec 10} {n : BitVec 12} {q : QueueRun} {e : Rec64} {kind : Nat}
    (queue : s.queue? ctx n = some q) (entry : q.entry = some e) (runs : q.state ≠ .halted) (kind_eq : entKind e = kind) :
    s.inProgress ctx n kind = some (q, e) := by
  subst kind_eq
  simp [State.inProgress, queue, entry, runs]

theorem State.queue?_ctx {s : State} {ctx : BitVec 10} {n : BitVec 12} {q : QueueRun} (queue : s.queue? ctx n = some q) :
    q.ctx = ctx := by
  have named := List.find?_some queue
  simp only [Bool.and_eq_true, decide_eq_true_eq] at named
  exact named.1

/-- An arrival that has neither been made nor waits at a resetting barrier is made now (15 R326). -/
theorem State.arriveFor_of_done {s t : State} {q : QueueRun} {va w : Nat} {done : QueueRun → State → State} (fresh : q.remote = .none)
    (free : s.isHeld (.queue q.ctx q.n) = false) (arrived : s.engineArrive q.ctx va w = (t, .done)) :
    s.arriveFor q va w done = done q t := by
  simp only [State.arriveFor, fresh, free, arrived, Bool.false_eq_true, if_false]

/-! ### Copies (12 R293) -/

/-- A copy that a copy engine serves moves a part of what is left; it completes when nothing is left. -/
theorem exec_copyEntryComplete_next {ctx : BitVec 10} {n : BitVec 12} {s : State} {q : QueueRun} {e : Rec64}
    (queue : s.queue? ctx n = some q) (entry : q.entry = some e) (runs : q.state ≠ .halted) (t : State) (kind : entKind e = 2)
    (served : s.copyEngineFor q (entPri e) = true) :
    let len := bitsOf e.toNat 192 64
    let edge := copyEdge (copyDown (bitsOf e.toNat 64 64) (bitsOf e.toNat 128 64) len) (bitsOf e.toNat 128 64) len q.moved
    let part := Config.draw s.freeCtr % ((len - q.moved - edge + 127) / 128 + 2)
    let now := if part = 0 then len - q.moved else min (len - q.moved) (edge + 128 * (part - 1))
    s.drew.copyBytes ctx (bitsOf e.toNat 64 64) (bitsOf e.toNat 128 64) len (now / 128 + 1) q.moved now = (t, none) →
    exec (.copyEntryComplete ctx n) s = .next (if q.moved + now = len then
      t.completeEntry { q with moved := q.moved + now } else t.setQueue { q with moved := q.moved + now }) := by
  intro len edge part now copied
  show execCopyEntryComplete ctx n s = _
  rw [execCopyEntryComplete, State.inProgress_of_entry queue entry runs kind]
  simp only [served, Bool.not_true, Bool.false_eq_true, if_false]
  rw [copied]

/-! ### Joins, barrier signals and waits (12 R288, 15 R326) -/

section
variable {ctx : BitVec 10} {n : BitVec 12} {s s1 t : State} {q p : QueueRun} {x : Context} {e : Rec64}
  (queue : s.queue? ctx n = some q) (context : s.ctx? ctx = some x) (head : s.headOf q = (s1, .entry e))
  (first : s1.first q e = true) (formed : entIllFormed x e = false) (taken : s1.takeEntry q e .running = (t, p))
include queue context head first formed taken

theorem exec_copyEntryTake_next (kind : entKind e = 2) : exec (.copyEntryTake ctx n) s = .next t :=
  congrArg Host.Outcome.next
    (State.take_of_entry (fun _ _ _ s => s) queue context head first formed taken (kinds := (· = 2)) (decide_eq_true kind))

theorem exec_joinEntryTake_next (kind : entKind e = 3) :
    exec (.joinEntryTake ctx n) s = .next (if t.joined ctx e then t else t.setQueue (p.to .blocked)) :=
  congrArg Host.Outcome.next (State.take_of_entry (fun q _ e s => if s.joined ctx e then s else s.setQueue (q.to .blocked))
    queue context head first formed taken (kinds := (· = 3)) (decide_eq_true kind))

theorem exec_barrierSignalEntryTake_next (u : State) (kind : entKind e = 4) (free : t.isHeld (.queue p.ctx p.n) = false)
    (arrived : t.engineArrive p.ctx (bitsOf e.toNat 64 64) (bitsOf e.toNat 128 16) = (u, .done)) :
    exec (.barrierSignalEntryTake ctx n) s = .next (u.setQueue { p with remote := .done }) := by
  refine congrArg Host.Outcome.next ((State.take_of_entry _ queue context head first formed taken (decide_eq_true kind)).trans ?_)
  exact State.arriveFor_of_done (State.takeEntry_remote taken) free arrived

theorem exec_waitEntryTake_next (u : State) (b : Bool) (kind : entKind e = 5) (met : t.waitMet ctx e = (u, .ok b)) :
    exec (.waitEntryTake ctx n) s = .next (if b then u else u.setQueue (p.to .blocked)) := by
  refine congrArg Host.Outcome.next ((State.take_of_entry _ queue context head first formed taken (decide_eq_true kind)).trans ?_)
  cases b <;> simp only [met, Bool.false_eq_true, if_false, if_true]

end

section
variable {ctx : BitVec 10} {n : BitVec 12} {s : State} {q : QueueRun} {e : Rec64}
  (queue : s.queue? ctx n = some q) (entry : q.entry = some e) (runs : q.state ≠ .halted)
include queue entry runs

theorem exec_joinSatisfied_next (kind : entKind e = 3) (joined : s.joined ctx e = true) :
    exec (.joinSatisfied ctx n) s = .next (s.completeEntry q) := by
  show execJoinSatisfied ctx n s = _
  rw [execJoinSatisfied, State.inProgress_of_entry queue entry runs kind]
  exact if_pos joined

/-- An arrival that was made before has only to be acknowledged. -/
theorem exec_barrierSignalEntryComplete_of_done (kind : entKind e = 4) (arrived : q.remote = .done) :
    exec (.barrierSignalEntryComplete ctx n) s = .next (s.completeEntry q) := by
  show execBarrierSignalEntryComplete ctx n s = _
  rw [execBarrierSignalEntryComplete, State.inProgress_of_entry queue entry runs kind]
  simp only [State.arriveFor, arrived]

/-- One that was not is made now. -/
theorem exec_barrierSignalEntryComplete_next (t : State) (kind : entKind e = 4) (fresh : q.remote = .none)
    (free : s.isHeld (.queue q.ctx q.n) = false)
    (arrived : s.engineArrive ctx (bitsOf e.toNat 64 64) (bitsOf e.toNat 128 16) = (t, .done)) :
    exec (.barrierSignalEntryComplete ctx n) s = .next (t.completeEntry q) := by
  rw [← State.queue?_ctx queue] at arrived
  show execBarrierSignalEntryComplete ctx n s = _
  rw [execBarrierSignalEntryComplete, State.inProgress_of_entry queue entry runs kind]
  exact congrArg Host.Outcome.next (State.arriveFor_of_done fresh free arrived)

theorem exec_waitSatisfied_next (t : State) (kind : entKind e = 5) (met : s.waitMet ctx e = (t, .ok true)) :
    exec (.waitSatisfied ctx n) s = .next (t.completeEntry q) := by
  show execWaitSatisfied ctx n s = _
  rw [execWaitSatisfied, State.inProgress_of_entry queue entry runs kind]
  simp only [met]

end

/-- Settles O32, by the rules of the entries taken and of the entries in progress. -/
theorem queueEntriesRun : Obligations.QueueEntriesRun := by
  unfold Obligations.QueueEntriesRun
  refine ⟨?taken, ?completed⟩
  case taken =>
    intro ctx n s q x s1 e t p queue context head first formed taken
    exact ⟨exec_copyEntryTake_next queue context head first formed taken,
      exec_joinEntryTake_next queue context head first formed taken,
      exec_barrierSignalEntryTake_next queue context head first formed taken,
      exec_waitEntryTake_next queue context head first formed taken⟩
  case completed =>
    intro ctx n s q e queue entry runs
    exact ⟨exec_copyEntryComplete_next queue entry runs, exec_joinSatisfied_next queue entry runs,
      exec_barrierSignalEntryComplete_of_done queue entry runs, exec_barrierSignalEntryComplete_next queue entry runs,
      exec_waitSatisfied_next queue entry runs⟩

/-! ### Appends (12 R285, R291, R292) -/

/-- An append that its release lets go, in the order of cores, crosses to the I-die and ends with a status word. -/
theorem exec_queueEngineAppend_status {c : CoreId} {id : Nat} {s t : State} {a : Access} {ctx : BitVec 10} {qw : Word} {e : Rec64}
    {w : Nat} (found : (s.core c).access? id = some a) (context : (s.core c).ctxId = some ctx) (kind : a.kind = .append qw e)
    (fresh : a.raised = false) (may : mayPerform (s.core c) a = true) (inOrder : s.inAppendOrder c ctx qw = true)
    (ends : ((if releases a.ord then s.releaseAt c a.asc else s).cross (idieHop c.die)).appendEntry c ctx qw e = (t, .status w)) :
    exec (.queueEngineAppend c id) s = .next (t.updCore c fun k => retire a (deliver a (BitVec.ofNat 64 w) k)) := by
  show execQueueEngineAppend c id s = _
  simp only [execQueueEngineAppend, found, context, kind, fresh, may, inOrder, ends, Bool.not_true, Bool.or_self, Bool.false_eq_true,
    if_false]

section
variable {s : State} {ctx : BitVec 10} {qw : Word} {q : QueueRun} {x : Context} (c : CoreId) (e : Rec64)

theorem State.appendEntry_absent (absent : s.queue? ctx (BitVec.ofNat 12 qw.toNat) = none) :
    s.appendEntry c ctx qw e = (s, .status 2) := by
  simp only [State.appendEntry, absent]

variable (queue : s.queue? ctx (BitVec.ofNat 12 qw.toNat) = some q) (context : s.ctx? ctx = some x)
include queue context

theorem State.appendEntry_disabled (disabled : x.qn.toNat ≤ qw.toNat ∨ q.en = false) :
    s.appendEntry c ctx qw e = (s, .status 2) := by
  have refused : (decide (x.qn.toNat ≤ qw.toNat) || !q.en) = true := by simpa using disabled
  simp only [State.appendEntry, queue, context, Option.map_some, Option.getD_some, refused, if_true]

variable (inTable : qw.toNat < x.qn.toNat) (enabled : q.en = true)
include inTable enabled

theorem State.appendEntry_halted (halted : q.state = .halted) : s.appendEntry c ctx qw e = (s, .status 3) := by
  have accepted : (decide (x.qn.toNat ≤ qw.toNat) || !q.en) = false := by simpa [enabled] using inTable
  simp only [State.appendEntry, queue, context, Option.map_some, Option.getD_some, accepted, halted, Bool.false_eq_true, if_false,
    if_true]

variable (runs : q.state ≠ .halted)
include runs

theorem State.appendEntry_full (full : q.head.toNat + 2 ^ q.nl ≤ s.resv q) :
    s.appendEntry c ctx qw e = (s.touch (s.qdesc ctx q.n) 64, .status 1) := by
  have accepted : (decide (x.qn.toNat ≤ qw.toNat) || !q.en) = false := by simpa [enabled] using inTable
  simp only [State.appendEntry, queue, context, Option.map_some, Option.getD_some, accepted, runs, full, State.queue?_ctx queue,
    Bool.false_eq_true, if_false, if_true]

/-- The entry is written with its stamp at the index reserved, TAIL is raised, and an idle queue is armed. -/
theorem State.appendEntry_written {t : State} (room : s.resv q < q.head.toNat + 2 ^ q.nl)
    (written : (s.touch (s.qdesc ctx q.n) 64).ctxWrite ctx false (q.entryVa (s.resv q))
      (bytesOf (putField e 448 64 (s.resv q)) 0 64) = (t, none)) :
    let d := t.qdesc ctx q.n
    let u := (t.wrNat (d + 24) 8 (s.resv q + 1)).wrNat (d + 16) 8 (max (t.tail q) (s.resv q + 1))
    s.appendEntry c ctx qw e =
      (u.setQueue { q with state := if q.state = .idle then .armed else q.state, appended := (u.icycles, (coreIdx c).val) },
        .status (2 ^ 32 * (s.resv q % 2 ^ 32))) := by
  have accepted : (decide (x.qn.toNat ≤ qw.toNat) || !q.en) = false := by simpa [enabled] using inTable
  simp only [State.appendEntry, queue, context, Option.map_some, Option.getD_some, accepted, runs, Nat.not_le.2 room,
    written, Bool.false_eq_true, if_false]

end

/-! ### A barrier reopens (15 R322) -/

theorem exec_barrierReopen_next (pa : BitVec 52) (s : State) (resetting : s.resetting.contains pa.toNat = true)
    (notified : s.notifying pa.toNat = false) :
    exec (.barrierReopen pa) s = .next ((s.held.filter (s.heldAt pa.toNat)).foldl State.applyHeld
      { s.reopenLine pa.toNat with held := s.held.filter fun h => !s.heldAt pa.toNat h }) := by
  show execBarrierReopen pa s = _
  simp only [execBarrierReopen, resetting, notified, List.partition_eq_filter_filter, Bool.not_true, Bool.or_self, Bool.false_eq_true,
    if_false]
  rfl

/-- Settles O33: each status of an append by what the entry's queue answers, and the rule of a barrier that reopens. -/
theorem appendsAndReopening : Obligations.AppendsAndReopening := by
  unfold Obligations.AppendsAndReopening
  refine ⟨?appends, exec_barrierReopen_next⟩
  case appends =>
    intro c id s a ctx qw e found context kind fresh may inOrder s1 gives
    have ends {t : State} {w : Nat} (h : s1.appendEntry c ctx qw e = (t, .status w)) : gives t w :=
      exec_queueEngineAppend_status found context kind fresh may inOrder h
    refine ⟨fun absent => ends (State.appendEntry_absent c e absent), fun q x queue context => ⟨?disabled, fun inTable enabled => ?_⟩⟩
    case disabled => exact fun disabled => ends (State.appendEntry_disabled c e queue context disabled)
    refine ⟨fun halted => ends (State.appendEntry_halted c e queue context inTable enabled halted), fun runs => ⟨?full, ?written⟩⟩
    case full => exact fun full => ends (State.appendEntry_full c e queue context inTable enabled runs full)
    case written =>
      exact fun s2 room written => ends (State.appendEntry_written c e queue context inTable enabled runs room written)

/-! ### The stages of a launch (12 R289, R293, 13 R299, R307) -/

/-- A launch whose write list, descriptor, tables and arguments were read, and whose descriptor passes every check, is made. -/
theorem exec_launchEntryTake_next (ctx : BitVec 10) (n : BitVec 12) (s : State) (q : QueueRun) (x : Context) (s1 : State) (e : Rec64)
    (t : State) (p : QueueRun) (s2 : State) (wl : List Byte) (s3 : State) (b : List Byte) (d : Rec128) (s4 : State) (lay : List Byte)
    (s5 : State) (recs : List Byte) (s6 : State) (argb : List Byte) (queue : s.queue? ctx n = some q) (context : s.ctx? ctx = some x)
    (head : s.headOf q = (s1, .entry e)) (first : s1.first q e = true) (kind : entKind e = 1) (formed : entIllFormed x e = false)
    (taken : s1.takeEntry q e .running = (t, p)) :
    let wn := bitsOf e.toNat 256 8
    let args := bitsOf e.toNat 128 64
    t.launchRead ctx (wn ≠ 0) (bitsOf e.toNat 192 64) (2 * wn) = (s2, .ok wl) → (words 2 wn wl).any (4095 < ·) = false →
    s2.ctxRead ctx false (bitsOf e.toNat 64 64) 128 = (s3, .ok b) → d = BitVec.ofNat 1024 (leNat b) →
    s3.launchRead x.id (kdLayn d ≠ 0) (kdLaya d) (8 * kdLayn d) = (s4, .ok lay) →
    s4.launchRead x.id (kdNrec d ≠ 0) (kdRecs d) (64 * kdNrec d) = (s5, .ok recs) →
    s5.launchRead x.id (!(levelNums.filter (kdLarg d)).isEmpty && args ≠ 0) args 32 = (s6, .ok argb) →
    firstRefused (launchChecks d args (s6.sram x) (.ok lay) (.ok recs) (.ok argb) []) = none →
    exec (.launchEntryTake ctx n) s = .next
      { s6 with launches := s6.launches ++ [newLaunch p e d (layEnts d (.ok lay)) (words 4 8 argb) (words 2 wn wl)] } := by
  rintro wn args list listed descriptor rfl layout records arguments passes
  have known : (fun k => decide (k = 1) || decide (k = 0) || decide (5 < k)) (entKind e) = true := by rw [kind]; rfl
  have readable : readOk (.ok wl) = true := rfl
  have nothing : readFail (.ok wl) 0 = [] := rfl
  refine congrArg Host.Outcome.next ((State.take_of_entry _ queue context head first formed taken known).trans ?_)
  simp only [wn] at list listed
  simp only [list, readable, readBytes, if_true, listed, Bool.false_eq_true, if_false, descriptor, State.checkLaunch, layout, records,
    nothing]
  simp only [args] at arguments passes
  simp only [arguments, passes]
  rfl

/-- The versions of the single-write handles advance where none of them is at its last. -/
theorem exec_launchVersionAdvance_next (ctx : BitVec 10) (n : BitVec 12) (s : State) (l : Launch) (q : QueueRun) (x : Context)
    (launch : s.launch? ctx n = some l) (queue : s.queue? ctx n = some q) (context : s.ctx? ctx = some x)
    (stage : l.stage = .versioning) (free : s.interlocked l = false) :
    let at' := fun (h : BitVec 12) => x.hroot.toNat + 32 * h.toNat
    let u := l.handles.foldl (fun t h => t.touch (at' h) 32) s
    let single := l.handles.filter fun h => u.rdNat (at' h) 1 / 8 % 2 = 0
    single.all (fun h => u.rdNat (at' h + 24) 4 ≠ 0xFFFFFFFF) = true →
    exec (.launchVersionAdvance ctx n) s = .next
      (((single.foldl (fun t h => t.wrNat (at' h + 24) 4 (t.rdNat (at' h + 24) 4 + 1)) u).setQueue (q.to .running)).updLaunch ctx n
        fun l => { l with stage := .advanced }) := by
  intro at' u single below
  have none_last : (single.find? fun h => u.rdNat (at' h + 24) 4 = 0xFFFFFFFF) = none := by
    refine List.find?_eq_none.2 fun h listed last => ?_
    exact of_decide_eq_true (List.all_eq_true.1 below h listed) (of_decide_eq_true last)
  show execLaunchVersionAdvance ctx n s = _
  simp only [execLaunchVersionAdvance, launch, queue, context, stage, free, ne_eq, not_true_eq_false, Bool.false_eq_true, if_false]
  rw [none_last]

theorem exec_launchDispatch_next (ctx : BitVec 10) (n : BitVec 12) (s : State) (l : Launch) (x : Context)
    (launch : s.launch? ctx n = some l) (stage : l.stage = .advanced) (context : s.ctx? ctx = some x) (active : x.state = .active) :
    exec (.launchDispatch ctx n) s = .next
      (s.updLaunch ctx n fun l => { l with stage := if l.total = 0 then .completing else .dispatching }) := by
  show execLaunchDispatch ctx n s = _
  simp [execLaunchDispatch, launch, stage, context, active]

@[simp] theorem State.dropLaunch_queue? (s : State) (ctx c : BitVec 10) (n m : BitVec 12) :
    (s.dropLaunch ctx n).queue? c m = s.queue? c m := rfl

/-- A launch without a barrier to arrive at. -/
theorem exec_launchComplete_next (ctx : BitVec 10) (n : BitVec 12) (s : State) (l : Launch) (q : QueueRun)
    (launch : s.launch? ctx n = some l) (queue : s.queue? ctx n = some q) (stage : l.stage = .completing) (no_barrier : l.dbar = 0) :
    exec (.launchComplete ctx n) s = .next (((s.completeEntry q).dropLaunch ctx n).finishDrain ctx) := by
  show execLaunchComplete ctx n s = _
  simp [execLaunchComplete, launch, queue, stage, no_barrier]

/-- One whose arrival is made first. -/
theorem exec_launchComplete_arrives (ctx : BitVec 10) (n : BitVec 12) (s : State) (l : Launch) (q : QueueRun) (t : State)
    (launch : s.launch? ctx n = some l) (queue : s.queue? ctx n = some q) (stage : l.stage = .completing) (barrier : l.dbar ≠ 0)
    (fresh : q.remote = .none) (free : s.isHeld (.queue q.ctx q.n) = false)
    (arrived : s.engineArrive ctx l.dbar.toNat 1 = (t, .done))
    (runs : ((t.completeEntry q).queue? ctx n).any (·.state = .halted) = false) :
    exec (.launchComplete ctx n) s = .next (((t.completeEntry q).dropLaunch ctx n).finishDrain ctx) := by
  rw [← State.queue?_ctx queue] at arrived
  show execLaunchComplete ctx n s = _
  simp only [execLaunchComplete, launch, queue, stage, barrier, ne_eq, not_true_eq_false, if_false]
  rw [State.arriveFor_of_done fresh free arrived, State.dropLaunch_queue?, if_neg (Bool.eq_false_iff.1 runs)]

/-- Settles O34, by the rule of each stage. -/
theorem launchStages : Obligations.LaunchStages := by
  unfold Obligations.LaunchStages
  exact ⟨exec_launchEntryTake_next, exec_launchVersionAdvance_next, exec_launchDispatch_next, exec_launchComplete_next,
    exec_launchComplete_arrives⟩

end Sys2Proof.Machine

/-! Groups (O21, O22, O35, O36): placed, started and restored by Geyser; the completion sequence and pre-emption; trapping groups, raised,
quiescent and ended by GRESUME and GABORT. -/

namespace Sys2Proof.Machine

open Sys2Proof

/-! ### Placing, starting and restoring (13 R303 to R305, 14 R318) -/

theorem exec_geyserBatch_next (part : BitVec 6) (d : Fin 4) (s : State) (l : Launch) (x : Context) (places : s.placing part d = some l)
    (context : s.ctx? l.ctx = some x) (die : l.dieLevel = none → s.batchDie x l = some d) :
    exec (.geyserBatch part d) s = .next (s.place x l d) := by
  have batched : ¬(l.dieLevel.isNone && s.batchDie x l ≠ some d) = true := by
    simpa using die
  show execGeyserBatch part d s = _
  simp only [execGeyserBatch, places, context]
  exact if_neg batched

/-- The core on which a group has started: its overflow base, and its slots at ENTRY with their preloaded registers. -/
theorem State.startGroup_core (s : State) (x : Context) (l : Launch) (p : Placed) (c : CoreId) :
    ((s.startGroup x l p c).core c).ovfp = overflowBase l.desc c ∧
      ((s.startGroup x l p c).core c).slots = Vector.replicate 4 (startSlot (kdEntry l.desc) (l.preload p.g)) := by
  have launch_core (t : State) (f : Launch → Launch) (placed : List Placed) :
      State.core { t.updLaunch l.ctx l.queue f with placed := placed } c = t.core c := rfl
  rw [State.startGroup]
  simp only [launch_core, State.updCore_core, and_self]

theorem exec_groupStart_next (die : Fin 4) (part : BitVec 6) (s : State) (p : Placed) (l : Launch) (x : Context) (c : CoreId)
    (cs : List CoreId) (next : s.startNext part die = some (p, l, x)) (free : s.coresFor part die l = c :: cs) :
    ∃ t, exec (.groupStart die part) s = .next t ∧ t.placed = (s.startGroup x l p c).placed ∧
      (t.core c).ovfp = overflowBase l.desc c ∧ ∀ sl, (t.core c).slot sl = startSlot (kdEntry l.desc) (l.preload p.g) := by
  obtain ⟨overflow, slots⟩ := s.startGroup_core x l p c
  refine ⟨s.startGroup x l p c, ?_, rfl, overflow, fun sl => ?_⟩
  · show execGroupStart die part s = _
    simp only [execGroupStart, next, free]
  · rw [Core.slot, slots]
    exact Vector.getElem_replicate _

theorem exec_groupRestore_next (ctx : BitVec 10) (save : Nat) (s : State) (v : Saved) (x : Context) (d : Fin 4) (c : CoreId)
    (cs : List CoreId) (found : s.saved.find? (fun v => v.ctx = ctx && v.slot = save) = some v) (context : s.ctx? ctx = some x)
    (runs : s.ctxRuns ctx = true) (fits : s.stillFits v x = true) (die : s.resumeDie v = some d) (first : s.restoreFirst v d = true)
    (unrivalled : s.placedFirst v d = false) (free : s.freeCores (s.partOf ctx) d = c :: cs) :
    exec (.groupRestore ctx save) s = .next (s.restoreGroup v x c) := by
  show execGroupRestore ctx save s = _
  simp only [execGroupRestore, found, context, runs, fits, die, first, unrivalled, free, Bool.not_true, Bool.and_false, Bool.or_self,
    Bool.false_eq_true, if_false]

/-- Settles O35, by the rule of each event. -/
theorem groupsPlaced : Obligations.GroupsPlaced := by
  unfold Obligations.GroupsPlaced
  exact ⟨exec_geyserBatch_next, exec_groupStart_next, exec_groupRestore_next⟩

/-! ### The completion sequence (14 R310, 18 R388) -/

/-- Where the four slots have ended and the engines are done, the lines, the accesses and the landing slots decide what the sequence does. -/
theorem exec_completionSequence_eq (c : CoreId) (s : State) (g : GroupInfo) (group : (s.core c).grp = some g)
    (running : (s.core c).stat = .running) (unpreempted : (s.core c).pre = none) (repinned : (s.core c).repins = [])
    (ended : (s.core c).ended = true) (unfaulted : (s.core c).pend = []) (engines : (s.core c).enginesDone = true) :
    exec (.completionSequence c) s =
      if (s.core c).lines.any fun l => l.pin || (l.dirty && l.base == .valid) then
        .next (s.setCore c (startBacks { s.core c with lines := (s.core c).lines.map fun l => { l with pin := false, asc := g.asc } }))
      else if (s.core c).writingBack || !((s.core c).acc.all (·.kind.isDone)) then .next s
      else if (s.core c).landing then
        (if (s.core c).landSince.isSome then .next s else .next (s.setCore c { s.core c with landSince := some (s.cycle c.die) }))
      else .next (s.complete c g) := by
  have ready : ¬(decide ((s.core c).stat ≠ .running) || (s.core c).pre.isSome || !(s.core c).repins.isEmpty || !(s.core c).ended ||
      !(s.core c).pend.isEmpty || !(s.core c).enginesDone) = true := by
    simp [running, unpreempted, repinned, ended, unfaulted, engines]
  show execCompletionSequence c s = _
  rw [execCompletionSequence]
  dsimp only
  rw [group]
  exact if_neg ready

/-- Settles O21: pins and dirty lines first, then slots that land, then the end. -/
theorem completionSequenceSteps : Obligations.CompletionSequenceSteps := by
  unfold Obligations.CompletionSequenceSteps
  intro c s g group running unpreempted repinned ended unfaulted engines
  rw [exec_completionSequence_eq c s g group running unpreempted repinned ended unfaulted engines]
  refine ⟨fun held => if_pos held, fun clean writtenBack performed => ?_⟩
  have performs : ¬((s.core c).writingBack || !((s.core c).acc.all (·.kind.isDone))) = true := by simp [writtenBack, performed]
  rw [if_neg (Bool.eq_false_iff.1 clean), if_neg performs]
  refine ⟨fun lands first => (if_pos lands).trans (if_neg (by simp [first])), fun landed => if_neg (Bool.eq_false_iff.1 landed)⟩

/-! ### Pre-emption (14 R315) -/

section
variable (c : CoreId) (cause : PreemptCause) (s : State)

theorem exec_preemption_eq (group : (s.core c).grp.isSome = true) (cause_eq : (s.core c).preCause = cause) :
    exec (.preemption c cause) s = match (s.core c).pre with
      | some .stopping =>
        if (s.core c).accessesDone && (s.core c).fillsDone then .next (s.setCore c (settleForSave (s.cycle c.die) (s.core c))) else .next s
      | some .settling =>
        if (s.core c).settledForSave && !s.recordsOut c then
          .next (s.setCore c { s.core c with pre := some (.draining (s.cycle c.die)) })
        else .next s
      | some (.draining _) => if (s.core c).landing then .next s else .next (s.setCore c { s.core c with pre := some .ready })
      | _ => .next s := by
  have present : (s.core c).grp.isNone = false := by simpa [Option.isSome_iff_ne_none] using group
  show execPreemption c cause s = _
  simp only [execPreemption, present, cause_eq, ne_eq, not_true_eq_false, decide_false, Bool.or_self, Bool.false_eq_true, if_false] <;>
    rfl

end

theorem exec_preemptionBoundExpiry_next (c : CoreId) (s : State) (g : GroupInfo) (t : Nat) (group : (s.core c).grp = some g)
    (since : (s.core c).landingSince = some t) (expired : t + g.peb ≤ s.cycle c.die) :
    exec (.preemptionBoundExpiry c) s = .next (s.tear c awaitsLanding 2) := by
  show execPreemptionBoundExpiry c s = _
  simp only [execPreemptionBoundExpiry, group, since, if_neg (Nat.not_lt.2 expired)]

/-! ### What the save of a group leaves of the saved groups (14 R316) -/

/-- A step that keeps a part of the state keeps it over a list. -/
theorem foldl_keeps {α β : Type} (get : State → β) (f : State → α → State) (keeps : ∀ s a, get (f s a) = get s) :
    ∀ (l : List α) (s : State), get (l.foldl f s) = get s
  | [], _ => rfl
  | a :: r, s => (foldl_keeps get f keeps r (f s a)).trans (keeps s a)

@[simp] theorem State.needChannel_saved (s : State) (p : BitVec 6) (n : Nat) : (s.needChannel p n).saved = s.saved := by
  obtain ⟨l, h⟩ := s.needChannel_slept p n
  rw [h]

@[simp] theorem State.touch_saved (s : State) (a n : Nat) : (s.touch a n).saved = s.saved := by
  obtain ⟨l, h⟩ := s.touch_slept a n
  rw [h]

@[simp] theorem State.wrNat_saved (s : State) (a n v : Nat) : (s.wrNat a n v).saved = s.saved := by
  obtain ⟨lines, m, waits, frame⟩ := s.wrNat_frame a n v
  rw [frame]

theorem State.writeBack_saved (s : State) (l : SliceLine) : (s.writeBack l).saved = s.saved := by
  unfold State.writeBack
  split
  · rfl
  · split
    · exact State.needChannel_saved _ _ _
    · rfl

theorem State.evictLine_saved (s : State) (d : Fin 4) (n : Nat) : (s.evictLine d n).saved = s.saved := by
  refine foldl_keeps State.saved _ (fun s l => ?_) _ s
  split
  · rfl
  · exact s.writeBack_saved l

theorem State.makeRoom_saved (s : State) (d : Fin 4) (n : Nat) : (s.makeRoom d n).saved = s.saved := by
  unfold State.makeRoom
  dsimp only
  split
  · rfl
  · split
    · rfl
    · exact State.evictLine_saved s.drew _ _

theorem State.ensureSectors_saved (s : State) (p : BitVec 6) (n : Nat) (b : Bool) (need : BitVec 8) :
    (s.ensureSectors p n b need).saved = s.saved := by
  have channel : (if need = 0 then s else s.needChannel p n).saved = s.saved := by
    split
    · rfl
    · exact s.needChannel_saved p n
  have room (b : Prop) [Decidable b] (t : State) (d : Fin 4) (n : Nat) : (if b then t else t.makeRoom d n).saved = t.saved := by
    split
    · rfl
    · exact t.makeRoom_saved d n
  unfold State.ensureSectors
  split
  · split
    · rfl
    · exact s.needChannel_saved p n
  · exact (room _ _ _ _).trans channel

theorem State.setQueue_saved (s : State) (q : QueueRun) : (s.setQueue q).saved = s.saved := by
  simp only [State.setQueue, State.publishQueue, State.wrNat_saved]

theorem State.armLine_saved (s : State) (n : Nat) : (s.armLine n).saved = s.saved := by
  refine foldl_keeps State.saved _ (fun s q => ?_) _ s
  split
  · exact s.setQueue_saved _
  · rfl

theorem State.writeLine_saved {s t : State} {p : BitVec 6} {w : Stamping} {a : Nat} {b : List Byte}
    (written : s.writeLine p w a b = .ok t) : t.saved = s.saved := by
  unfold State.writeLine State.writeOffsets at written
  dsimp only at written
  split at written
  · cases written
  · simp only [Except.map] at written
    split at written
    · cases written
    · obtain rfl := Except.ok.inj written
      rw [State.armLine_saved, State.putLine_saved, State.drew_saved]
      split
      · exact State.ensureSectors_saved _ _ _ _ _
      · exact (State.ensureSectors_saved _ _ _ _ _).trans (State.ensureSectors_saved _ _ _ _ _)

theorem State.putRange_saved (s : State) (k : KeyTag) (a : Nat) (b : List Byte) : (s.putRange k a b).saved = s.saved :=
  s.touch_saved a b.length

theorem State.writeImage_saved (s : State) (x : Context) (slot : Nat) (k : Core) : (s.writeImage x slot k).saved = s.saved := by
  unfold State.writeImage
  split
  · rfl
  · exact foldl_keeps State.saved _ (fun s r => s.putRange_saved _ _ _) _ s

theorem State.writeSave_saved (s : State) (x : Context) (slot : Nat) (b : List Byte) : (s.writeSave x slot b).saved = s.saved := by
  unfold State.writeSave
  split
  · rfl
  · split
    · next written => exact State.writeLine_saved written
    · rfl

/-- The group's core is free, and what was saved of it stands behind the groups saved before. -/
theorem exec_preemptionSave_next (c : CoreId) (s : State) (g : GroupInfo) (x : Context) (n : Nat) (group : (s.core c).grp = some g)
    (ready : (s.core c).pre = some .ready) (context : s.ctx? g.ctx = some x) (slot : s.lowestSlot x = some n) :
    ∃ t, exec (.preemptionSave c) s = .next t ∧ (t.core c).grp = none ∧ (t.core c).stat = .free ∧
      ∃ v, t.saved = s.saved ++ [v] ∧ v.ctx = g.ctx ∧ v.slot = n ∧ v.info = g ∧ v.core = dropAdopted (s.core c) := by
  have vacated (t : State) (l : List Saved) : State.core { t.vacate c with saved := l } c = vacant (t.core c) :=
    State.updCore_core t c vacant
  have saved : (s.saveGroup c g x n).saved = ((s.writeImage x n (s.core c)).writeSave x n _).saved ++ [_] := rfl
  rw [State.writeSave_saved, State.writeImage_saved] at saved
  refine ⟨s.saveGroup c g x n, ?_, ?_, ?_, _, saved, rfl, rfl, rfl, rfl⟩
  · show execPreemptionSave c s = _
    simp only [execPreemptionSave, group, ready, context, slot]
  · rw [State.saveGroup, vacated]
    rfl
  · rw [State.saveGroup, vacated]
    rfl

/-- Settles O22: the steps of the sequence, its bound, and the save. -/
theorem preemptionSteps : Obligations.PreemptionSteps := by
  unfold Obligations.PreemptionSteps
  refine ⟨fun c cause s group cause_eq => ?steps, exec_preemptionBoundExpiry_next, exec_preemptionSave_next⟩
  case steps =>
    rw [exec_preemption_eq c cause s group cause_eq]
    refine ⟨fun stopping accesses fills => ?_, fun settling settled answered => ?_, fun t draining landed => ?_⟩
    · simp only [stopping, accesses, fills, Bool.and_self, if_true]
    · simp only [settling, settled, answered, Bool.not_false, Bool.and_self, if_true]
    · simp only [draining, landed, Bool.false_eq_true, if_false]

/-! ### Trapping groups (14 R311, R313, R314) -/

theorem exec_faultRaise_next (c : CoreId) (s : State) (g : GroupInfo) (p : PendFault) (rest : List PendFault)
    (group : (s.core c).grp = some g) (waits : (s.core c).pend = p :: rest) :
    exec (.faultRaise c) s = .next (raiseFault c p.fr p.op (s.setCore c { s.core c with pend := rest })) := by
  show execFaultRaise c s = _
  simp only [execFaultRaise, group, waits]

theorem exec_groupQuiescent_next (c : CoreId) (s : State) (traps : (s.core c).stat = .trapping false)
    (rests : (s.core c).atRest = true) :
    exec (.groupQuiescent c) s = .next (s.setCore c { s.core c with stat := .trapping true }) :=
  if_pos (by simp only [traps, rests, decide_true, Bool.and_self])

/-! A command record that is in progress changes nothing that a command reads. -/

@[simp] theorem rung_saved (r : Rec64) (s : State) : (rung r s).saved = s.saved := rfl

@[simp] theorem rung_groupAt (r : Rec64) (s : State) (ctx : BitVec 10) (c : CoreId) : (rung r s).groupAt ctx c = s.groupAt ctx c := rfl

/-- A command on a quiescent trapping group of an active context acts, once the mailbox has taken it. -/
theorem State.groupCommand_acts {s : State} {op : Nat} {ctx : BitVec 10} {arg : Word} {mode : Bool} {n : CoreId} {x : Context}
    {g : GroupInfo} (act : CoreId → GroupInfo → State → State) (mails : Mails (cmdRecord op ctx arg 0) s)
    (names : groupArg arg mode = some n) (context : s.ctx? ctx = some x) (active : x.state = .active)
    (unsaved : s.saved.any (fun v => v.ctx = ctx && v.core.gcmd = some n) = false) :
    let c := s.groupAt ctx n
    (s.core c).grp = some g → g.ctx = ctx → (s.core c).stat = .trapping true → (s.core c).pre = none →
    s.groupCommand op ctx arg mode act =
      act c g ((rung (cmdRecord op ctx arg 0) s).setCore c { s.core c with gcmd := none }) := by
  intro c group mine traps unpreempted
  have there : s.groupAt ctx n = c := rfl
  clear_value c
  rw [State.groupCommand, State.command_of_mails mails context, names]
  dsimp only
  rw [rung_groupAt, there, rung_core, rung_saved, if_neg (Bool.eq_false_iff.1 unsaved), group, traps, unpreempted]
  exact (if_neg (Decidable.not_not.2 mine)).trans ((if_neg (by decide)).trans
    ((if_neg (Decidable.not_not.2 active)).trans (if_neg (by decide))))

/-- GRESUME in a mode that every recorded fault admits deals with each of them. -/
theorem State.gresume_admitted {s : State} {c : CoreId} {admits : BitVec 16 → Bool} (one : State → PendFault → State)
    (admitted : (s.core c).faults.all (fun p => admits p.fr.code) = true) :
    s.gresume c admits one = ((((s.core c).faults.foldl one s).updCore c resumeCore).settleTiles c).reply 0 := by
  simp only [State.gresume, admitted, Bool.not_true, Bool.false_eq_true, if_false]
  rfl

/-- Settles O36: the events of a trapping group, and its commands where the mailbox takes them. -/
theorem trappingGroups : Obligations.TrappingGroups := by
  unfold Obligations.TrappingGroups
  refine ⟨exec_faultRaise_next, exec_groupQuiescent_next, ?commands⟩
  case commands =>
    intro ctx arg mode s x n g c names context active unsaved group mine traps unpreempted at'
    have kept (op : Nat) : ((at' op).core c).faults = (s.core c).faults := by rw [State.setCore_core]
    refine ⟨?retry, ?skip, ?abort⟩
    case retry =>
      rintro rfl mode0 mails admitted
      rw [← kept 0x13] at admitted ⊢
      refine (if_neg (Bool.eq_false_iff.1 mode0)).trans (congrArg Host.Outcome.next ?_)
      exact (State.groupCommand_acts _ mails names context active unsaved group mine traps unpreempted).trans
        (State.gresume_admitted _ admitted)
    case skip =>
      rintro rfl mode1 mails admitted
      rw [← kept 0x13] at admitted ⊢
      refine (if_neg (by simp [mode1])).trans (congrArg Host.Outcome.next ?_)
      exact (State.groupCommand_acts _ mails names context active unsaved group mine traps unpreempted).trans
        (State.gresume_admitted _ admitted)
    case abort =>
      rintro rfl mails
      subst mine
      exact congrArg Host.Outcome.next (State.groupCommand_acts _ mails names context active unsaved group rfl traps unpreempted)

end Sys2Proof.Machine

/-! The upkeep of near memory (O41): pairs begun, exchanged and ended, far ports that fail, scrubs, and pseudo-channels that sleep. -/

namespace Sys2Proof.Machine

open Sys2Proof

/-! ### Pairs (16 R341, R342, R345) -/

/-- The PGIN that arrives begins its pair where the leaves are as they must be and no access uses them. -/
theorem exec_swapPairBegin_next (part : BitVec 6) (i : Fin 64) (s : State) (c : CoreId) (a : Access) (far : BitVec 56)
    (near : Option (BitVec 56)) (x : Context) (f n : Leaf)
    (arrives : (s.pgins part)[Config.draw s.freeCtr % (s.pgins part).length]? = some (c, a)) (kind : a.kind = .pgin far near)
    (context : (s.core c).ctxId.bind s.ctx? = some x) (room : (s.pairs.filter (·.part = part)).length < 64)
    (leaves : s.drew.pairLeaves x far near = .ok (f, n)) (free : s.pair? part i = none) :
    let p : SwapPair := ⟨part, i, x.id, f.pa, n.pa, BitVec.ofNat 56 f.va, BitVec.ofNat 56 n.va, f.frame, n.frame, f.size, 0, false,
      c, a.id⟩
    s.drew.unused x.id p.leafOf = true → exec (.swapPairBegin part i) s = .next (s.drew.beginPair p) := by
  intro p unused
  have context' : (s.drew.core c).ctxId.bind s.drew.ctx? = some x := context
  have free' : s.drew.pair? part i = none := free
  show execSwapPairBegin part i s = _
  simp only [execSwapPairBegin, arrives]
  simp only [State.takePgin, kind, context', State.drew_pairs, Nat.not_le.2 room, leaves, free', p] at unused ⊢
  simp only [unused, Option.isNone_none, Bool.and_self, if_true, if_false]

/-- The next line of a pair that no request awaits, whose far port is sound. -/
theorem exec_swapLineExchange_next {part : BitVec 6} {i : Fin 64} {s : State} {p : SwapPair} (pair : s.pair? part i = some p)
    (left : p.done < p.lines) (far_free : s.awaited (p.farB / 128 + p.done) = false)
    (near_free : s.awaited (p.nearB / 128 + p.done) = false)
    (sound : (s.farPort part (128 * (p.farB / 128 + p.done))).any (fun n => s.badPorts.getLsbD n) = false) :
    exec (.swapLineExchange part i) s =
      .next ((((s.needChannel part (p.farB / 128 + p.done)).needChannel part (p.nearB / 128 + p.done)).exchangeLines
        (p.farB / 128 + p.done) (p.nearB / 128 + p.done)).setPair { p with done := p.done + 1 }) := by
  show execSwapLineExchange part i s = _
  simp only [execSwapLineExchange, pair, far_free, near_free, State.exchangeNext, Nat.not_le.2 left, sound, Bool.or_false,
    Bool.false_eq_true, if_false]

theorem exec_swapPairEnd_next {part : BitVec 6} {i : Fin 64} {s : State} {p : SwapPair} (pair : s.pair? part i = some p)
    (exchanged : p.lines ≤ p.done) (unused : s.unused p.ctx p.leafOf = true) :
    exec (.swapPairEnd part i) s = .next (s.endPair p) := by
  show execSwapPairEnd part i s = _
  simp only [execSwapPairEnd, pair, Nat.not_lt.2 exchanged, unused, Bool.not_true, decide_false, Bool.or_self, Bool.false_eq_true,
    if_false]

/-! ### Scrubs (16 R340) -/

/-- A sector of a line that is scrubbed bad. -/
theorem filter_getLsbD_ne_nil {m : BitVec 8} (bad : m ≠ 0) : ((natRange 0 8).filter fun i => m.getLsbD i) ≠ [] := by
  intro none
  refine bad (BitVec.eq_of_getLsbD_eq fun i low => ?_)
  have inRange : i ∈ natRange 0 8 := List.mem_map.2 ⟨i, List.mem_range.2 low, Nat.zero_add i⟩
  simpa using List.filter_eq_nil_iff.1 none i inRange

section
variable {line : Nat} {s : State} {part : BitVec 6} (mapped : s.partAt (128 * line) = some part)
  (near : s.isNear part (128 * line) = true)
include mapped near

theorem exec_fumaroleScrub_clean : exec (.fumaroleScrub line .clean) s = .next s := by
  show execFumaroleScrub line .clean s = _
  simp only [execFumaroleScrub, mapped, near, Bool.not_true, Bool.false_eq_true, if_false]

theorem exec_fumaroleScrub_corrected :
    let d : Fin 4 := s.homeDie part (128 * line)
    exec (.fumaroleScrub line .corrected) s = .next { s with scrce := s.scrce.set d (count s.scrce[d]) } := by
  show execFumaroleScrub line .corrected s = _
  simp only [execFumaroleScrub, mapped, near, Bool.not_true, Bool.false_eq_true, if_false]

/-- The sectors that cannot be corrected are poisoned, logged and counted. -/
theorem exec_fumaroleScrub_bad (m : BitVec 8) (bad : m ≠ 0) :
    let d : Fin 4 := s.homeDie part (128 * line)
    exec (.fumaroleScrub line (.bad m)) s = .next { s with
      poison := s.poison ++ (((natRange 0 8).filter fun i => m.getLsbD i).map (8 * line + ·)).filter fun p => !s.poison.contains p
      logs := s.logs ++ [(.cdie d, .uncorrectable (128 * line) (s.pseudoOf part (128 * line)))]
      scrue := s.scrue.set d (count s.scrue[d]) } := by
  have some_sector : ((natRange 0 8).filter fun i => m.getLsbD i).isEmpty = false := by
    simpa using filter_getLsbD_ne_nil bad
  show execFumaroleScrub line (.bad m) s = _
  simp only [execFumaroleScrub, mapped, near, some_sector, Bool.not_true, Bool.false_eq_true, if_false]

end

/-! ### Pseudo-channels (01 R24) -/

theorem exec_selfRefreshEntry_next (pc : PseudoChan) (s : State) (awake : (s.refreshOf pc).asleep = false)
    (idle : s.mshrs.any (fun m => s.pseudoAt m.line = some pc) = false) :
    exec (.selfRefreshEntry pc) s = .next (s.setRefresh { s.refreshOf pc with asleep := true }) :=
  if_neg (by rw [awake, idle]; decide)

theorem exec_selfRefreshExit_next (pc : PseudoChan) (s : State) (line : Nat) (rest : List Nat)
    (waits : (s.refreshOf pc).waiting = line :: rest) (asleep : (s.refreshOf pc).asleep = true) :
    exec (.selfRefreshExit pc) s = .next (s.setRefresh ((s.refreshOf pc).wake line)) := by
  show execSelfRefreshExit pc s = _
  simp only [execSelfRefreshExit, waits, asleep, if_true]

/-- Settles O41, by the rule of each event; a failed port acts whatever the state. -/
theorem nearMemoryUpkeep : Obligations.NearMemoryUpkeep := by
  unfold Obligations.NearMemoryUpkeep
  refine ⟨exec_swapPairBegin_next, fun part i s p pair => ?pairs, fun _ _ => rfl, fun line s part mapped near => ?scrubs,
    fun pc s => ⟨exec_selfRefreshEntry_next pc s, exec_selfRefreshExit_next pc s⟩⟩
  case pairs => exact ⟨exec_swapLineExchange_next pair, exec_swapPairEnd_next pair⟩
  case scrubs =>
    exact ⟨exec_fumaroleScrub_clean mapped near, exec_fumaroleScrub_corrected mapped near, exec_fumaroleScrub_bad mapped near⟩

end Sys2Proof.Machine

/-! The family of the link (17): the answers to a device's records. -/

namespace Sys2Proof.Machine

open Sys2Proof

/-- Where every record of a list is a request, a filter need not ask whether it is one. -/
theorem filter_isRequest {ts : List TxRec} {p : TxRec → Bool} (requests : ts.all (fun t => isRequest t.rec_) = true) :
    ts.filter (fun t => isRequest t.rec_ && p t) = ts.filter p :=
  List.filter_congr fun t ht => by simp [List.all_eq_true.mp requests t ht]

theorem exec_ackRecordReceive_next {link ki fn s s1 l f} (taken : s.takeAnswer link (isAck ki fn) = some s1)
    (hl : s1.link? link = some l) (hf : l.tx.find? (·.named ki fn) = some f)
    (requests : f.records.all (fun t => isRequest t.rec_) = true) :
    let keep := f.records.filter fun t => t.rec_.fl.getLsbD 1 || s1.nakWaits link t
    let ended := f.records.filter fun t => !s1.nakWaits link t
    exec (.ackRecordReceive link ki fn) s = .next (ended.foldl State.acked (s1.setLink link { l.countAck ki with
      tx := if keep.isEmpty then l.tx.filter fun x => !x.named ki fn
        else l.tx.map fun x => if x.named ki fn then { x with records := keep } else x })) := by
  show execAckRecordReceive link ki fn s = _
  simp only [execAckRecordReceive, taken, hl, hf, filter_isRequest requests]

theorem exec_nakRecordReceive_next {link rtag code detail s s1 l t} (taken : s.takeAnswer link (isNak rtag code detail) = some s1)
    (hl : s1.link? link = some l) (ht : l.recOf rtag = some t) :
    exec (.nakRecordReceive link rtag code detail) s =
      .next ((s1.setLink link (if keepsRec (s1.core t.core) t then l.loseRec t else l.dropRec rtag)).nakked t code detail
        (s.nakCount link rtag code detail)) := by
  show execNakRecordReceive link rtag code detail s = _
  simp only [execNakRecordReceive, taken, hl, ht]

theorem exec_resultRecordReceive_next {link rtag old s s1 l t} (taken : s.takeAnswer link (isResult rtag old) = some s1)
    (hl : s1.link? link = some l) (ht : l.recOf rtag = some t) (wants : t.rec_.fl.getLsbD 1 = true) :
    exec (.resultRecordReceive link rtag old) s =
      .next ((s1.setLink link (l.dropRec rtag)).updCore t.core (resultRec t old)) := by
  show execResultRecordReceive link rtag old s = _
  simp only [execResultRecordReceive, taken, hl, ht, wants, if_true]

/-- Settles O28, by the equation of each answer's event and, for an acknowledgement and a nak, the case of the records that stay. -/
theorem answersReceived : Obligations.AnswersReceived := by
  unfold Obligations.AnswersReceived
  refine ⟨fun link ki fn s s1 l f taken hl hf requests => ⟨fun none' => ?_, fun some' => ?_⟩,
    fun link rtag code detail s s1 l t taken hl ht => ⟨fun keeps => ?_, fun drops => ?_⟩,
    fun link rtag old s s1 l t taken hl ht wants => exec_resultRecordReceive_next taken hl ht wants⟩
  · rw [exec_ackRecordReceive_next taken hl hf requests, none', if_pos List.isEmpty_nil]
  · rw [exec_ackRecordReceive_next taken hl hf requests, if_neg (mt List.isEmpty_iff.mp some')]
  · rw [exec_nakRecordReceive_next taken hl ht, if_pos keeps]
  · rw [exec_nakRecordReceive_next taken hl ht, if_neg (Bool.eq_false_iff.mp drops)]

/-! ## Records received -/

theorem State.receive_acts {s : State} {k r op} {act : InRec → State → State} (hr : s.inrecs[k]? = some r) (kind : r.rec_.op = op)
    (carries : s.answerable r = true) (free : s.isHeld (.record r) = false) (new : (s.streamOf r).duplicate r.rec_.sseq = false)
    (turn : (s.streamOf r).inTurn r.rec_.sseq = true) : s.receive k op act = act r s := by
  simp [State.receive, hr, kind, carries, free, new, turn]

theorem State.atomicRecord_of_op {s : State} {r e key op ty} (len : recLenOk r.rec_ = true) (entry : s.iatMemory r true = some e)
    (checked : (s.inward (s.recDie e r.rec_.pa.toNat) r).inboundCheck e r.rec_.pa.toNat = .ok key)
    (hop : AOp.ofNum r.rec_.aop.toNat = some op) (hty : Fmt.ofCode r.rec_.ty.toNat = some ty) :
    s.atomicRecord r = (s.inward (s.recDie e r.rec_.pa.toNat) r).inboundAtomic r e key op ty := by
  have ordinary : r.rec_.aop.toNat < 9 := (List.getElem?_eq_some_iff.mp hop).1
  have notBar (init : Bool) : r.rec_.aop.toNat ≠ barAopCode init := by unfold barAopCode; omega
  simp only [State.atomicRecord, len, entry, checked, notBar, hop, hty, if_true, if_false]

/-- Settles O30, by what `receive` does with a record that meets nothing, and the equation of each kind's action. -/
theorem recordsReceived : Obligations.RecordsReceived := by
  unfold Obligations.RecordsReceived
  intro k s r s1 hr carries free new turn
  have acts {op act} (kind : r.rec_.op = op) : s.receive k op act = act r s := State.receive_acts hr kind carries free new turn
  refine ⟨fun e t kind len entry inward written => ?_, fun e key op ty t old kind len entry inward checked hop hty done => ?_,
    fun c x kind len ring inward => ⟨fun room => ?_, fun full => ?_⟩, fun c x kind dest inward runs ctx lands checked => ?_⟩
  · refine congrArg Host.Outcome.next ((acts kind).trans ?_)
    simp only [len, entry, inward, written, if_true]
  · refine congrArg Host.Outcome.next ((acts kind).trans ?_)
    subst inward
    rw [State.atomicRecord_of_op len entry checked hop hty]
    simp only [State.inboundAtomic, done]
  · refine congrArg Host.Outcome.next ((acts kind).trans ?_)
    simp only [len, ring, inward, room, if_true]
  · refine congrArg Host.Outcome.next ((acts kind).trans ?_)
    simp only [len, ring, inward, full, if_true, Bool.false_eq_true, if_false]
  · refine congrArg Host.Outcome.next ((acts kind).trans ?_)
    simp only [dest, inward, runs, ctx, lands, checked, Option.any_some, Bool.and_self, Bool.not_true, Bool.false_eq_true, if_false, if_true]

end Sys2Proof.Machine

/-! The family of the link (17): records sent. -/

namespace Sys2Proof.Machine

open Sys2Proof

theorem length_natRange (a n : Nat) : (natRange a n).length = n := by simp [natRange]

theorem length_lsRead (k : Core) (off n : Nat) : (lsRead k off n).length = n := by simp [lsRead, memGets, length_natRange]

/-- A release changes cores and the copies of the slices alone. -/
theorem State.releaseAt_device (s : State) (c : CoreId) (asc : Scope) : (s.releaseAt c asc).device = s.device := by
  have copies (dies : List (Fin 4)) (ls : List Nat) : (ls.foldl (fun s l => s.dropCopies dies l) s).device = s.device :=
    foldl_keeps State.device _ (fun s l => s.dropCopies_device dies l) ls s
  unfold State.releaseAt
  dsimp only
  split
  · exact copies _ _
  · exact copies _ _

theorem State.sendE4_carries {s : State} {c dev i l} (link : s.linkUse c true dev = .carries i l) (o : EngOp) (dest : BitVec 16)
    (want : Bool) (op : BitVec 8) (pa va aop ty : Nat) (b : List Byte) :
    s.sendE4 c o dev dest want op pa va aop ty b =
      (((if releases o.ord then s.releaseAt c o.asc else s).sendFrame c i l
          ⟨s.opRecord c dev true want op pa aop ty b, dest, c, o.id, 0, va⟩ true).updCore c fun k =>
        k.setOp 4 (o.sends (s.opRecord c dev true want op pa aop ty b).rtag b.length)) := by
  simp only [State.sendE4, link]

/-- The head of e4 goes on with its kind's next record, where nothing holds it. -/
theorem State.sendHead_of_ready {s : State} {c o} (head : (s.core c).ready? 4 = some o) (runs : e4Stopped (s.core c) o = false)
    (may : e4MaySend (s.core c) o = true) (tag : queueTag (s.core c) 4 = true) :
    s.sendHead c = match o.kind with
      | .fwr off len va => s.sendFwr c o off len va.toNat
      | .fatom op ty b e va => s.sendFatom c o op ty b e va.toNat
      | .freq dst payload => s.sendFreq c o dst payload
      | .lzput g off => s.sendLzput c o g off
      | _ => s := by
  simp only [State.sendHead, head, runs, may, tag, Bool.not_true, Bool.or_self, Bool.false_eq_true, if_false] <;>
    rfl

theorem e4Stopped_of_running {k : Core} (o : EngOp) (run : k.enginesStop = false) : e4Stopped k o = false := by
  simp [e4Stopped, run]

theorem e4Stopped_lzput {k : Core} {o : EngOp} {g off} (kind : o.kind = .lzput g off) (run : k.enginesStop = false ∨ o.pos ≠ 0) :
    e4Stopped k o = false := by
  rcases run with run | sent
  · exact e4Stopped_of_running o run
  · simp [e4Stopped, kind, sent]

section
variable {s s1 : State} {c : CoreId} {o : EngOp} {l : Leaf} {i : BitVec 11} {li : LinkEnd}

theorem State.sendFwr_carries {off len va : Nat} (more : o.pos < len) (leaf : s.peerLeaf c .write (va + o.pos) = (s1, .ok l))
    (link : s1.linkUse c true (BitVec.ofNat 16 l.pdev) = .carries i li) :
    s.sendFwr c o off len va = s1.sendE4 c o (BitVec.ofNat 16 l.pdev) 0xFFFF false 0x01 (l.phys (va + o.pos)) (va + o.pos) 0 0
      (lsRead (s1.core c) (off + o.pos) (min (min 1024 (len - o.pos)) (l.size - (va + o.pos) % l.size))) := by
  simp only [State.sendFwr, Nat.not_le.mpr more, leaf, link, if_false]

theorem State.sendFatom_carries {op ty b e va} (first : o.pos = 0) (leaf : s.peerLeaf c .atomic va = (s1, .ok l))
    (link : s1.linkUse c true (BitVec.ofNat 16 l.pdev) = .carries i li) :
    s.sendFatom c o op ty b e va = s1.sendE4 c o (BitVec.ofNat 16 l.pdev) 0xFFFF (o.dest ≠ .none) 0x02 (l.phys va) va (AOp.num op)
      ty.code.toNat (atomPayload op ty b e) := by
  simp only [State.sendFatom, first, Nat.lt_irrefl, leaf, link, if_false]

theorem State.sendFreq_carries {dst : Word} {b : List Byte} (first : o.pos = 0) (fields : dst.toNat < 2 ^ 29)
    (other : BitVec.ofNat 16 (bitsOf dst.toNat 0 16) ≠ s.device)
    (link : s.linkUse c true (BitVec.ofNat 16 (bitsOf dst.toNat 0 16)) = .carries i li) :
    s.sendFreq c o dst b = s.sendE4 c o (BitVec.ofNat 16 (bitsOf dst.toNat 0 16))
      (ringDest (bitsOf dst.toNat 16 7) (bitsOf dst.toNat 23 2) (bitsOf dst.toNat 25 4)) false 0x03 0 dst.toNat 0 0 b := by
  have sendable : ¬(decide (2 ^ 29 ≤ dst.toNat) || decide (BitVec.ofNat 16 (bitsOf dst.toNat 0 16) = s.device)) = true := by
    simpa [other] using fields
  simp only [State.sendFreq, first, Nat.lt_irrefl, link, if_false]
  exact if_neg sendable

theorem State.sendLzput_carries {g : List Byte} {off : Nat} (more : o.pos < bitsOf (leNat g) 96 32) (good : o.status % 2 ^ 16 = 0)
    (other : BitVec.ofNat 16 (bitsOf (leNat g) 16 16) ≠ s.device)
    (link : s.linkUse c true (BitVec.ofNat 16 (bitsOf (leNat g) 16 16)) = .carries i li) :
    s.sendLzput c o g off = s.sendE4 c o (BitVec.ofNat 16 (bitsOf (leNat g) 16 16)) (BitVec.ofNat 16 (bitsOf (leNat g) 32 16)) false
      0x04 (bitsOf (leNat g) 64 16 + 2 ^ 16 * bitsOf (leNat g) 48 6 + 2 ^ 32 * (o.pos / 64)) 0 0 0
      (lsRead (s.core c) (off + o.pos) (min 1024 (bitsOf (leNat g) 96 32 - o.pos))) := by
  have sends : ¬(decide (bitsOf (leNat g) 96 32 ≤ o.pos) || decide (o.status % 2 ^ 16 ≠ 0)) = true := by
    simpa [more] using good
  simp only [State.sendLzput, sends, other, link, if_false]
  rfl

/-- Within the package a landing record joins the records received at once. -/
theorem State.sendLzput_within {g : List Byte} {off : Nat} (more : o.pos < bitsOf (leNat g) 96 32) (good : o.status % 2 ^ 16 = 0)
    (same : BitVec.ofNat 16 (bitsOf (leNat g) 16 16) = s.device) :
    let dev := BitVec.ofNat 16 (bitsOf (leNat g) 16 16)
    let dest := BitVec.ofNat 16 (bitsOf (leNat g) 32 16)
    let die := Fin.ofNat 4 (bitsOf dest.toNat 7 2)
    let b := lsRead (s.core c) (off + o.pos) (min 1024 (bitsOf (leNat g) 96 32 - o.pos))
    let r := s.opRecord c dev true false 0x04 (bitsOf (leNat g) 64 16 + 2 ^ 16 * bitsOf (leNat g) 48 6 + 2 ^ 32 * (o.pos / 64)) 0 0 b
    let s2 := (if releases o.ord then s.releaseAt c o.asc else s).cross (dieHop c.die die)
    s.dieCut c.die die = false →
    s.sendLzput c o g off =
      ((({ s2 with inrecs := s2.inrecs ++ [(⟨none, s.device, dest, r, (false, 0)⟩ : InRec)] }).bumpSeq c dev true).updCore c
        fun k => k.setOp 4 (o.sends r.rtag b.length)) := by
  intro dev dest die b r s2 joined
  have sends : ¬(decide (bitsOf (leNat g) 96 32 ≤ o.pos) || decide (o.status % 2 ^ 16 ≠ 0)) = true := by
    simpa [more] using good
  have device : (if releases o.ord then s.releaseAt c o.asc else s).device = s.device := by
    split
    · exact s.releaseAt_device c o.asc
    · rfl
  have cut : ¬s.dieCut c.die die = true := by simp [joined]
  rw [State.sendLzput, if_neg sends, if_pos same]
  dsimp only
  rw [if_neg cut, device, length_lsRead]

end

/-! ## Parts of accesses and grants -/

section
variable {s : State} {c : CoreId} {id part : Nat} {a : Access} {p : Part} {l : Leaf} {x : BitVec 10} {i : BitVec 11} {li : LinkEnd}

/-- The state in which the record of a part goes out: a release has taken effect. -/
abbrev State.released (s : State) (c : CoreId) (a : Access) : State := if releases a.ord then s.releaseAt c a.asc else s

theorem State.sendPart_store {b : List Byte} (ha : (s.core c).access? id = some a) (hp : a.parts[part]? = some p)
    (sent : p.stage = .sent) (may : mayPerform (s.core c) a = true) (kind : p.op = .store b)
    (leaf : s.partLeaf c p.va.toNat = some (l, x)) (permits : s.leafCheck x a.peer .write l = none) (peer : l.isPeer = true)
    (link : s.linkUse c false (BitVec.ofNat 16 l.pdev) = .carries i li) :
    let r := (s.released c a).opRecord c (BitVec.ofNat 16 l.pdev) false false 0x01 (l.phys p.va.toNat) 0 0 b
    s.sendPart c id part =
      ((s.released c a).sendFrame c i li ⟨r, 0xFFFF, c, id, part, p.va.toNat⟩ false).setPart c id part .atSlice := by
  have goes : ¬(decide (p.stage ≠ .sent) || p.op == .load || !mayPerform (s.core c) a) = true := by simp [sent, may, kind]
  have write : p.op.isAtomic = false := by rw [kind]; rfl
  simp only [State.sendPart, ha, hp, goes, leaf, write, permits, peer, link, Bool.not_true, Bool.false_eq_true, if_false]
  simp only [kind]

theorem State.sendPart_atomic {op : AOp} {b e : Word} (ha : (s.core c).access? id = some a) (hp : a.parts[part]? = some p)
    (sent : p.stage = .sent) (may : mayPerform (s.core c) a = true) (kind : p.op = .atomic op b e)
    (leaf : s.partLeaf c p.va.toNat = some (l, x)) (permits : s.leafCheck x a.peer .atomic l = none) (peer : l.isPeer = true)
    (link : s.linkUse c false (BitVec.ofNat 16 l.pdev) = .carries i li) :
    let r := (s.released c a).opRecord c (BitVec.ofNat 16 l.pdev) false (a.dest ≠ .none || a.kind.isCommit) 0x02 (l.phys p.va.toNat)
      (AOp.num op) a.ty.code.toNat (atomPayload op a.ty b e)
    s.sendPart c id part =
      ((s.released c a).sendFrame c i li ⟨r, 0xFFFF, c, id, part, p.va.toNat⟩ false).setPart c id part .atSlice := by
  have goes : ¬(decide (p.stage ≠ .sent) || p.op == .load || !mayPerform (s.core c) a) = true := by simp [sent, may, kind]
  have atomic : p.op.isAtomic = true := by rw [kind]; rfl
  simp only [State.sendPart, ha, hp, goes, leaf, atomic, permits, peer, link, Bool.not_true, Bool.false_eq_true, if_false, if_true]
  simp only [kind]

theorem State.sendGrant_carries {z j w b} (ha : (s.core c).access? id = some a) (kind : a.kind = .lzgrant z j w b)
    (unsent : a.push = none) (quiet : a.raised = false) (may : mayPerform (s.core c) a = true)
    (other : BitVec.ofNat 16 (bitsOf w.toNat 0 16) ≠ s.device)
    (link : s.linkUse c false (BitVec.ofNat 16 (bitsOf w.toNat 0 16)) = .carries i li) :
    let r := s.opRecord c (BitVec.ofNat 16 (bitsOf w.toNat 0 16)) false false 0x03 0 0 0 b
    s.sendGrant c id = ((s.released c a).sendFrame c i li
      ⟨r, ringDest (bitsOf w.toNat 16 7) (bitsOf w.toNat 23 2) (bitsOf w.toNat 25 4), c, id, 0, 0⟩ false).updCore c
        fun k => k.setAccess { a with push := some 0 } := by
  have goes : ¬(decide (BitVec.ofNat 16 (bitsOf w.toNat 0 16) = s.device) || a.push.isSome || a.raised ||
      !mayPerform (s.core c) a) = true := by
    simp [other, unsent, quiet, may]
  simp only [State.sendGrant, ha, kind]
  rw [if_neg goes, link]

end

/-- A record of e4 goes out as `sendHead` says. -/
theorem exec_fabricOutRecordSend_e4 (c : CoreId) (s : State) : exec (.fabricOutRecordSend c .e4) s = .next (s.sendHead c) := rfl

theorem exec_fabricOutRecordSend_access (c : CoreId) (id part : Nat) (s : State) :
    exec (.fabricOutRecordSend c (.access id part)) s = .next (s.sendPart c id part) := rfl

theorem exec_fabricOutRecordSend_msg (c : CoreId) (id : Nat) (s : State) :
    exec (.fabricOutRecordSend c (.msg id)) s = .next (s.sendGrant c id) := rfl

/-- Settles O31, by what each kind of operation, part and grant sends over a link that carries it. -/
theorem fabricRecordSent : Obligations.FabricRecordSent := by
  unfold Obligations.FabricRecordSent
  refine ⟨?fwr, ?store, ?atomic, ?fatom, ?freq, ?lzput, ?grant⟩
  case fwr =>
    intro c s o off len va s1 l i li head kind run may tag more leaf link
    rw [exec_fabricOutRecordSend_e4, State.sendHead_of_ready head (e4Stopped_of_running o run) may tag, kind]
    exact congrArg Host.Outcome.next ((State.sendFwr_carries more leaf link).trans (State.sendE4_carries link ..))
  case store =>
    intro c id part s a p b l x i li ha hp sent may kind leaf permits peer link
    exact congrArg Host.Outcome.next (State.sendPart_store ha hp sent may kind leaf permits peer link)
  case atomic =>
    intro c id part s a p op b e l x i li ha hp sent may kind leaf permits peer link
    exact congrArg Host.Outcome.next (State.sendPart_atomic ha hp sent may kind leaf permits peer link)
  case fatom =>
    intro c s o op ty b e va s1 l i li head kind run may tag first leaf link
    rw [exec_fabricOutRecordSend_e4, State.sendHead_of_ready head (e4Stopped_of_running o run) may tag, kind]
    exact congrArg Host.Outcome.next ((State.sendFatom_carries first leaf link).trans (State.sendE4_carries link ..))
  case freq =>
    intro c s o dst b i li head kind run may tag first dev fields other link
    rw [exec_fabricOutRecordSend_e4, State.sendHead_of_ready head (e4Stopped_of_running o run) may tag, kind]
    exact congrArg Host.Outcome.next ((State.sendFreq_carries first fields other link).trans (State.sendE4_carries link ..))
  case lzput =>
    intro c s o g off head kind run may tag more good dev dest die b r s1
    rw [exec_fabricOutRecordSend_e4, State.sendHead_of_ready head (e4Stopped_lzput kind run) may tag, kind]
    refine ⟨fun i li other link => ?_, fun s2 same joined crossed => ?_⟩
    · exact congrArg Host.Outcome.next ((State.sendLzput_carries more good other link).trans (State.sendE4_carries link ..))
    · subst crossed
      exact congrArg Host.Outcome.next (State.sendLzput_within more good same joined)
  case grant =>
    intro c id s a z j w b i l ha kind unsent quiet may other link
    exact congrArg Host.Outcome.next (State.sendGrant_carries ha kind unsent quiet may other link)

end Sys2Proof.Machine

/-! The family of the link (17): links' own traffic, their keys and their training. -/

namespace Sys2Proof.Machine

open Sys2Proof

/-! ## Which chiplets a link joins -/

theorem linkEnds_of_peer {i : BitVec 11} (peer : isDieLink i = false) : linkEnds i = [] := by
  unfold isDieLink at peer
  unfold linkEnds
  split
  case h_11 => rfl
  all_goals simp_all

theorem isDieLink_of_linkEnds {i : BitVec 11} (joins : linkEnds i ≠ []) : isDieLink i = true :=
  Bool.of_not_eq_false (mt linkEnds_of_peer joins)

theorem State.unheard_peer {i : BitVec 11} (peer : isDieLink i = false) (s : State) (far : Bool) : s.unheard i far = s.failLink i 4 := by
  simp only [State.unheard, linkEnds_of_peer peer]

theorem State.unheard_die {i : BitVec 11} {a b : Chip} (ends : linkEnds i = [a, b]) (s : State) (far : Bool) :
    s.unheard i far = (s.failLink i 4).declareDead (if far then a else b) 4 := by
  simp only [State.unheard, ends]

/-! ## Frames -/

theorem exec_frameReceive_next {f : Frame} {s : State} {l : LinkEnd} (hl : s.link? f.link = some l) (fcs : f.fcsOk = true)
    (key : l.hasKey f.ki = true) (tag : f.tagOk = true) (window : ¬(f.ki ≠ l.rxki ∧ l.win = true ∧ l.winL < f.fn))
    (new : l.seen.contains (f.ki, f.fn) = false) (known : f.records.all (fun r => knownOp r.op) = true)
    (takes : f.records.any isRequest = true → l.takes = true)
    (installs : f.records.any (isControl keyUpdateCode) = true → f.ki = (l.window f).rxki → (l.window f).mayInstall = true) :
    exec (.frameReceive f) s = .next (s.acceptFrame (l.window f) f) := by
  have inWindow : ¬(f.ki ≠ l.rxki && l.win && l.winL < f.fn) = true := by simpa [and_assoc] using window
  have ops : ¬(f.records.any fun r => !knownOp r.op) = true := by simpa using known
  have taken : ¬(f.records.any isRequest && !l.takes) = true := by simpa using takes
  have installed : ¬(f.records.any (isControl keyUpdateCode) && f.ki = (l.window f).rxki && !(l.window f).mayInstall) = true := by
    simpa using installs
  show execFrameReceive f s = _
  simp only [execFrameReceive, hl, fcs, key, tag, new, Bool.not_true, Bool.false_eq_true, if_false]
  rw [if_neg inWindow, if_neg ops, if_neg taken, if_neg installed]

section
variable {i : BitVec 11} {s : State} {l : LinkEnd} (hl : s.link? i = some l)
include hl

theorem exec_retransmissionTimeout_next {ki fn} {f : TxFrame}
    (due : l.tx.find? (fun f => f.ki = ki && f.fn = fn && s.dueFrame i l f) = some f) :
    exec (.retransmissionTimeout i ki fn) s =
      .next (if !f.lost && decide (8 ≤ f.retries) then s.linkFailure i 3 else s.resend i l f) := by
  show execRetransmissionTimeout i ki fn s = _
  simp only [execRetransmissionTimeout, hl, due]
  split <;> rfl

/-! ## Heartbeats, sleeping and waking -/

theorem exec_heartbeatSend_next (awake : l.state = .up ∨ l.state = .waking) (quiet : l.sentAt + 4096 ≤ s.linkClock i) :
    exec (.heartbeatSend i) s = .next (s.answer i (plainRecord 0x20 0 []) false) := by
  have sends : (l.state == .up || l.state == .waking) = true := by simpa using awake
  show execHeartbeatSend i s = _
  simp only [execHeartbeatSend, hl, sends, quiet, Bool.not_true, Bool.false_eq_true, if_false, if_true]

theorem exec_heartbeatSend_far (awake : l.state = .up ∨ l.state = .waking) (sent : s.linkClock i < l.sentAt + 4096)
    (die : isDieLink i = true) (quiet : l.far.sentAt + 4096 ≤ s.farClock i) :
    exec (.heartbeatSend i) s =
      .next (s.setLink i { l with heardAt := s.linkClock i, far := { l.far with sentAt := s.farClock i } }) := by
  have sends : (l.state == .up || l.state == .waking) = true := by simpa using awake
  show execHeartbeatSend i s = _
  simp only [execHeartbeatSend, hl, sends, Nat.not_le.mpr sent, die, quiet, Bool.not_true, Bool.false_eq_true, decide_true, Bool.and_self,
    if_false, if_true]

theorem exec_heartbeatBoundExpiry_next {far : Bool} {t : Nat} (side : far = true → isDieLink i = true)
    (listens : l.listensFrom far = some t) (silent : t + l.hbb.toNat ≤ if far then s.farClock i else s.linkClock i) :
    exec (.heartbeatBoundExpiry ⟨i, far⟩) s = .next (s.unheard i far) := by
  have ends : (!far || isDieLink i) = true := by cases far <;> simp_all
  show execHeartbeatBoundExpiry ⟨i, far⟩ s = _
  simp only [execHeartbeatBoundExpiry, hl, listens, ends, silent, decide_true, Bool.and_self, if_true]

theorem exec_linkIdleSleep_next (up : l.state = .up)
    (idle : l.trafficAt + 2 ^ 20 ≤ s.linkClock i ∨ (isDieLink i = true ∧ l.far.trafficAt + 2 ^ 20 ≤ s.farClock i)) :
    exec (.linkIdleSleep i) s = .next (s.setLink i { l with state := .sleeping }) := by
  have sleeps : (l.state == .up && s.idleLink i l) = true := by simpa [up, State.idleLink] using idle
  show execLinkIdleSleep i s = _
  simp only [execLinkIdleSleep, hl, sleeps, if_true]

theorem exec_linkWake_next (asleep : l.state = .sleeping) (due : s.trafficDue i l = true) :
    exec (.linkWake i) s = .next (s.setLink i (l.wake (s.linkClock i) (s.farClock i))) := by
  have wakes : (l.state == .sleeping && s.trafficDue i l) = true := by simp [asleep, due]
  show execLinkWake i s = _
  simp only [execLinkWake, hl, wakes, if_true]

theorem exec_linkWakeComplete_next (waking : l.state = .waking) :
    exec (.linkWakeComplete i) s = .next (s.setLink i (l.comeUp (s.linkClock i) (s.farClock i))) := by
  have wakes : (l.state == .waking) = true := by simp [waking]
  show execLinkWakeComplete i s = _
  simp only [execLinkWakeComplete, hl, wakes, if_true]

theorem exec_wakeBoundExpiry_next {w : Snoop} (late : l.snoops.find? (fun w => !l.overdue.contains w.line &&
      w.since + l.wakeb.toNat ≤ (if w.far then s.farClock i else s.linkClock i)) = some w) :
    exec (.wakeBoundExpiry i) s =
      .next (s.setLink i { l with overdue := w.line :: l.overdue, wakeovr := count l.wakeovr }) := by
  show execWakeBoundExpiry i s = _
  simp only [execWakeBoundExpiry, hl, late]

/-! ## Keys, training and draining -/

theorem exec_keyRolloverStart_next (rolls : l.mayRoll = true) (full : 2 ^ 47 ≤ l.fn) :
    exec (.keyRolloverStart i) s = .next (s.startRollover i) := by
  show execKeyRolloverStart i s = _
  simp only [execKeyRolloverStart, hl, rolls, full, decide_true, Bool.and_self, if_true]

theorem exec_linkTrainingDone_next (training : l.state = .training) (path : isDieLink i = true ∨ l.pv ≠ 0) :
    exec (.linkTrainingDone i) s = .next (s.setLink i { l with state := .attesting, attempts := 0, wakeAt := s.icycles }) := by
  have done : (l.state == .training && (isDieLink i || decide (l.pv ≠ 0))) = true := by simpa [training] using path
  show execLinkTrainingDone i s = _
  simp only [execLinkTrainingDone, hl]
  exact if_pos done

theorem exec_linkTrainingAttemptFail_next (training : l.state = .training) :
    exec (.linkTrainingAttemptFail i) s =
      .next (if l.attempts < 15 then s.setLink i { l with attempts := l.attempts + 1 } else s.linkFailure i 2) := by
  have trains : (l.state != .training) = false := by simp [training]
  show execLinkTrainingAttemptFail i s = _
  simp only [execLinkTrainingAttemptFail, hl, trains, Bool.false_eq_true, if_false]
  split <;> rfl

theorem exec_linkKeyedUp_next (keyed : l.state = .keyed) (quiet : (linkDies i).all (fun d => s.resets[d].isNone) = true) :
    exec (.linkKeyedUp i) s = .next (s.setLink i (l.comeUp (s.linkClock i) (s.farClock i))) := by
  have up : (l.state == .keyed && (linkDies i).all (fun d => s.resets[d].isNone)) = true := by
    rw [keyed, quiet]; rfl
  show execLinkKeyedUp i s = _
  simp only [execLinkKeyedUp, hl, up, if_true]

theorem exec_linkDrainDone_next (draining : l.state = .draining) (sent : l.tx.any (fun f => !f.lost && f.operates) = false)
    (crossed : s.crossing i = false) (received : s.inrecs.any (fun r => r.link = some i) = false) :
    exec (.linkDrainDone i) s = .next ((s.setLink i (l.unkeyed .dark 5)).noteDark i) := by
  have drained : (l.state != .draining) = false := by simp [draining]
  show execLinkDrainDone i s = _
  simp only [execLinkDrainDone, hl, drained, sent, crossed, received, Bool.or_self, Bool.false_eq_true, if_false]

theorem State.linkRecord_of_link? : s.linkRecord i = some l := by simp only [State.linkRecord, hl]

theorem exec_linkRecordWrite_next (f : LinkField) :
    exec (.linkRecordWrite i f) s = .next (s.setLink i (l.writeField (isDieLink i) f)) := by
  show execLinkRecordWrite i f s = _
  simp only [execLinkRecordWrite, State.linkRecord_of_link? hl]

end

theorem exec_keyUpdateAck_next {i : BitVec 11} {s s1 : State} {l : LinkEnd}
    (taken : s.takeAnswer i (isControl keyUpdateAckCode) = some s1) (hl : s1.link? i = some l) (rolling : l.rolling = true) :
    exec (.keyUpdateAck i) s = .next (s1.setLink i { l with
      rolling := false, txki := !l.txki, fn := 0, report := some (BitVec.ofNat 48 (l.fn - 1)), closing := some 0 }) := by
  show execKeyUpdateAck i s = _
  simp only [execKeyUpdateAck, taken, State.updLink, hl, LinkEnd.rollOver, rolling, if_true]

/-- Settles O37, by the equation of each event; a retransmission and a silent end take the case of their count and their link. -/
theorem linkTraffic : Obligations.LinkTraffic := by
  unfold Obligations.LinkTraffic
  refine ⟨fun f s l hl fcs key tag window new known takes installs =>
      exec_frameReceive_next hl fcs key tag window new known takes installs,
    fun i ki fn s l f hl due => ⟨fun again => ?again, fun kept last => ?last⟩,
    fun i s l hl => ⟨exec_heartbeatSend_next hl, exec_heartbeatSend_far hl, fun t listens peer silent => ?near,
      fun t far a b ends listens silent => ?die, exec_linkIdleSleep_next hl, exec_linkWake_next hl, exec_linkWakeComplete_next hl,
      fun w late => exec_wakeBoundExpiry_next hl late⟩⟩
  case again =>
    rw [exec_retransmissionTimeout_next hl due, if_neg]
    rcases again with lost | few
    · simp [lost]
    · simp [few]
  case last => rw [exec_retransmissionTimeout_next hl due, if_pos (by simp [kept, last])]
  case near => rw [exec_heartbeatBoundExpiry_next hl (by simp) listens silent, State.unheard_peer peer]
  case die =>
    rw [exec_heartbeatBoundExpiry_next hl (fun _ => isDieLink_of_linkEnds (by simp [ends])) listens silent, State.unheard_die ends]

/-- Settles O38, by the equation of each event. -/
theorem linkKeysAndTraining : Obligations.LinkKeysAndTraining := by
  unfold Obligations.LinkKeysAndTraining
  refine ⟨fun i s l hl => ⟨fun up settled closed full => exec_keyRolloverStart_next hl ?_ full, exec_linkTrainingDone_next hl,
      fun training few => ?_, fun training last => ?_, exec_linkKeyedUp_next hl, exec_linkDrainDone_next hl,
      exec_linkRecordWrite_next hl⟩,
    fun i s s1 l taken hl rolling => exec_keyUpdateAck_next taken hl rolling⟩
  · simp [LinkEnd.mayRoll, up, settled, closed]
  · rw [exec_linkTrainingAttemptFail_next hl training, if_pos few]
  · rw [exec_linkTrainingAttemptFail_next hl training, if_neg (Nat.not_lt.mpr last)]

end Sys2Proof.Machine

/-! The family of the link (17): LINKCTL, attestation and resets. -/

namespace Sys2Proof.Machine

open Sys2Proof

/-! ## LINKCTL -/

@[simp] theorem rung_linkRecord (r : Rec64) (s : State) (i : BitVec 11) : (rung r s).linkRecord i = s.linkRecord i := rfl

@[simp] theorem rung_mayTrain (r : Rec64) (s : State) (i : BitVec 11) (l : LinkEnd) : (rung r s).mayTrain i l = s.mayTrain i l := rfl

@[simp] theorem rung_linkClock (r : Rec64) (s : State) (i : BitVec 11) : (rung r s).linkClock i = s.linkClock i := rfl

@[simp] theorem rung_farClock (r : Rec64) (s : State) (i : BitVec 11) : (rung r s).farClock i = s.farClock i := rfl

@[simp] theorem rung_chip (r : Rec64) (s : State) (c : Chip) : (rung r s).chip c = s.chip c := rfl

@[simp] theorem rung_resets (r : Rec64) (s : State) : (rung r s).resets = s.resets := rfl

theorem State.linkctl_acts {s : State} {action : Nat} {arg : Word} {l : LinkEnd} {ok : BitVec 11 → LinkEnd → Bool}
    {act : BitVec 11 → LinkEnd → State → State} (kind : bitsOf arg.toNat 16 4 = action) (zero : bitsOf arg.toNat 20 44 = 0)
    (range : bitsOf arg.toNat 0 16 < 1040) (mails : Mails (cmdRecord 0x20 0 arg 0) s)
    (record : s.linkRecord (BitVec.ofNat 11 (bitsOf arg.toNat 0 16)) = some l)
    (may : ok (BitVec.ofNat 11 (bitsOf arg.toNat 0 16)) l = true) :
    s.linkctl action arg ok act =
      (act (BitVec.ofNat 11 (bitsOf arg.toNat 0 16)) l (rung (cmdRecord 0x20 0 arg 0) s)).reply 0 := by
  have valid : ¬(decide (bitsOf arg.toNat 20 44 ≠ 0) || decide (1040 ≤ bitsOf arg.toNat 0 16)) = true := by
    simpa [zero] using range
  have rung' : (rung (cmdRecord 0x20 0 arg 0) s).linkRecord (BitVec.ofNat 11 (bitsOf arg.toNat 0 16)) = some l :=
    (rung_linkRecord ..).trans record
  rw [State.linkctl]
  dsimp only
  rw [if_neg (Decidable.not_not.mpr kind), State.mailed_of_mails mails]
  generalize rung (cmdRecord 0x20 0 arg 0) s = u at rung'
  rw [if_neg valid, rung']
  exact if_pos may

theorem exec_linkctlBringUp (arg : Word) (s : State) :
    exec (.linkctlBringUp arg) s = .next (s.linkctl 1 arg s.mayTrain fun i l s => s.setLink i l.train) := rfl

theorem exec_linkctlDrain (arg : Word) (s : State) :
    exec (.linkctlDrain arg) s = .next (s.linkctl 2 arg (fun _ l => l.state == .up) fun i l s => s.setLink i { l with state := .draining }) := rfl

theorem exec_linkctlSleep (arg : Word) (s : State) :
    exec (.linkctlSleep arg) s = .next (s.linkctl 3 arg (fun _ l => l.state == .up) fun i l s => s.setLink i { l with state := .sleeping }) := rfl

theorem exec_linkctlWake (arg : Word) (s : State) :
    exec (.linkctlWake arg) s = .next (s.linkctl 4 arg (fun _ l => l.state == .sleeping) fun i l s => s.setLink i (l.wake (s.linkClock i) (s.farClock i))) := rfl

theorem exec_linkctlRekey (arg : Word) (s : State) :
    exec (.linkctlRekey arg) s = .next (s.linkctl 5 arg (fun _ l => l.mayRoll) fun i _ s => s.startRollover i) := rfl

theorem exec_linkctlReset (arg : Word) (s : State) :
    exec (.linkctlReset arg) s = .next (s.linkctl 6 arg (fun _ l => l.state == .failed) fun i l s => s.setLink i (l.unkeyed .dark 5)) := rfl

/-- Settles O39, by what a LINKCTL does that its link's state admits. -/
theorem linkCommands : Obligations.LinkCommands := by
  unfold Obligations.LinkCommands
  refine ⟨?train, ?drain, ?sleep, ?wake, ?rekey, ?reset⟩
  case train =>
    intro arg s l r i kind zero range mails record may
    rw [exec_linkctlBringUp, State.linkctl_acts kind zero range mails record (rung_mayTrain .. ▸ may)]
    rfl
  case drain =>
    intro arg s l r i kind zero range mails record up
    rw [exec_linkctlDrain, State.linkctl_acts kind zero range mails record (by simp [up])]
  case sleep =>
    intro arg s l r i kind zero range mails record up
    rw [exec_linkctlSleep, State.linkctl_acts kind zero range mails record (by simp [up])]
  case wake =>
    intro arg s l r i kind zero range mails record asleep
    rw [exec_linkctlWake, State.linkctl_acts kind zero range mails record (by simp [asleep]), rung_linkClock,
      rung_farClock]
    rfl
  case rekey =>
    intro arg s l r i kind zero range mails record up settled closed
    rw [exec_linkctlRekey, State.linkctl_acts kind zero range mails record (by simp [LinkEnd.mayRoll, up, settled, closed])]
  case reset =>
    intro arg s l r i kind zero range mails record failed
    rw [exec_linkctlReset, State.linkctl_acts kind zero range mails record (by simp [failed])]

/-! ## Attestation -/

section
variable {s : State} {c : Chip} (attests : s.attests c = true)
include attests

theorem exec_attestationComplete_chip (v : Exchange) (meas : List (BitVec 512)) :
    exec (.attestationComplete (.chip c) v meas) s =
      .next (if exchangeOk v false && s.inTime (s.attestSince c) && s.policyOk (s.measuredFrom c) (chipKind c) (measDigest meas)
        then (s.intoService c (measDigest meas)).keyLinks else s.quarantine c) := by
  show execAttestationComplete (.chip c) v meas s = _
  simp only [execAttestationComplete, attests, Bool.not_true, Bool.false_eq_true, if_false]
  split <;> rfl

theorem exec_attestationTimeout_chip (late : s.attestSince c + 2 ^ 28 ≤ s.icycles) :
    exec (.attestationTimeout (.chip c)) s = .next (s.quarantine c) := by
  have expired : (s.attests c && !s.inTime (s.attestSince c)) = true := by simpa [State.inTime, attests] using late
  show execAttestationTimeout (.chip c) s = _
  simp only [execAttestationTimeout, expired, if_true]

end

section
variable {s : State} {i : BitVec 11} {l : LinkEnd} (hl : s.link? i = some l) (peer : isDieLink i = false)
  (attesting : l.state = .attesting)
include hl peer attesting

theorem exec_attestationComplete_peer (v : Exchange) (meas : List (BitVec 512)) :
    exec (.attestationComplete (.peer i) v meas) s =
      .next (s.setLink i (if exchangeOk v true && s.inTime l.wakeAt && s.policyOk l.wakeAt 3 (measDigest meas)
        then l.keyed else l.unkeyed .dark 1)) := by
  have runs : (isDieLink i || l.state != .attesting) = false := by simp [peer, attesting]
  show execAttestationComplete (.peer i) v meas s = _
  simp only [execAttestationComplete, hl, runs, Bool.false_eq_true, if_false]
  split <;> rfl

theorem exec_attestationTimeout_peer (late : l.wakeAt + 2 ^ 28 ≤ s.icycles) :
    exec (.attestationTimeout (.peer i)) s = .next (s.setLink i (l.unkeyed .dark 1)) := by
  have expired : (!isDieLink i && l.state == .attesting && !s.inTime l.wakeAt) = true := by
    simpa [State.inTime, peer, attesting] using late
  show execAttestationTimeout (.peer i) s = _
  simp only [execAttestationTimeout, hl, expired, if_true]

end

/-- The verdict on an exchange, as the conjunction of its three tests. -/
theorem verdict_iff {e p : Bool} {s : State} {since : Nat} :
    (e && s.inTime since && p) = true ↔ e = true ∧ s.icycles < since + 2 ^ 28 ∧ p = true := by
  simp [State.inTime, and_assoc]

/-! ## Die reset -/

theorem State.preemptAll_resets (s : State) (test : CoreId → GroupInfo → Bool) (cause : PreemptCause) :
    (s.preemptAll test cause).resets = s.resets := by
  refine foldl_keeps State.resets _ (fun s c => ?_) _ s
  split
  · exact s.updCore_resets c _
  · rfl

section
variable {arg : Word} {s : State} {d : Fin 4} (die : resetArg arg = some d)
include die

theorem exec_dieresetOrderly_begin (orderly : arg.getLsbD 8 = false) (mails : Mails (cmdRecord 0x21 0 arg 0) s)
    (trusted : s.chip (.cdie d) ≠ some .quarantined) (idle : s.resets[d] = none) :
    exec (.dieresetOrderly arg) s = .next (State.reply
      { ((rung (cmdRecord 0x21 0 arg 0) s).preemptAll (fun c _ => c.die = d) .dieReset).setChip (.cdie d) .resetting with
        resets := s.resets.set d (some ⟨false, false⟩) } 0) := by
  have rungTrusted : (rung (cmdRecord 0x21 0 arg 0) s).chip (.cdie d) ≠ some .quarantined :=
    (rung_chip ..).symm ▸ trusted
  have rungResets : (rung (cmdRecord 0x21 0 arg 0) s).resets = s.resets := rung_resets ..
  show execDieresetOrderly arg s = _
  simp only [execDieresetOrderly, orderly, die, idle, Bool.false_eq_true, if_false]
  rw [State.mailed_of_mails mails]
  generalize rung (cmdRecord 0x21 0 arg 0) s = u at rungTrusted rungResets
  rw [← rungResets, ← u.preemptAll_resets (fun c _ => c.die = d) .dieReset]
  exact congrArg Host.Outcome.next (if_neg rungTrusted)

theorem exec_dieresetOrderly_settle (orderly : arg.getLsbD 8 = false) (begun : s.resets[d] = some ⟨false, false⟩)
    (gone : ∀ c, c.die = d → (s.core c).grp = none) : exec (.dieresetOrderly arg) s = .next (s.settleDie d) := by
  have empty : ¬(allCores.any fun c => c.die = d && ((s.core c).grp).isSome) = true := by
    simpa using fun c _ home => gone c home
  show execDieresetOrderly arg s = _
  simp only [execDieresetOrderly, orderly, die, begun, Bool.or_self, Bool.false_eq_true, if_false]
  exact if_neg empty

theorem exec_dieresetForced_next (forced : arg.getLsbD 8 = true) (mails : Mails (cmdRecord 0x21 0 arg 0) s)
    (trusted : s.chip (.cdie d) ≠ some .quarantined) (first : s.resets[d].any (·.forced) = false) :
    exec (.dieresetForced arg) s = .next (((rung (cmdRecord 0x21 0 arg 0) s).forceReset d 5).reply 0) := by
  have rungTrusted : (rung (cmdRecord 0x21 0 arg 0) s).chip (.cdie d) ≠ some .quarantined :=
    (rung_chip ..).symm ▸ trusted
  have rungFirst : (rung (cmdRecord 0x21 0 arg 0) s).resets[d].any (·.forced) = false := by
    rw [rung_resets]
    exact first
  show execDieresetForced arg s = _
  simp only [execDieresetForced, forced, die, Bool.not_true, Bool.false_eq_true, if_false]
  rw [State.mailed_of_mails mails]
  generalize rung (cmdRecord 0x21 0 arg 0) s = u at rungTrusted rungFirst
  have may : ¬(decide (u.chip (.cdie d) = some .quarantined) || u.resets[d].any (·.forced)) = true := by
    rw [rungFirst, Bool.or_false, decide_eq_true_eq]
    exact rungTrusted
  exact congrArg Host.Outcome.next (if_neg may)

end

section
variable {s : State} {d : Fin 4} {r : DieReset} (hr : s.resets[d] = some r) (settled : r.settled = true)
  (dark : r.forced = false → (dieLinksOf d).any (fun i => (s.link? i).any (·.state.alive)) = false)
include hr

theorem State.rejoining_eq :
    s.rejoining d = { (if r.forced then s else s.resetDie d) with resets := s.resets.set d none } := by
  simp only [State.rejoining, hr, Option.any_some]

include settled dark

theorem State.rejoins_of_settled : s.rejoins d = true := by
  cases forced : r.forced
  case false => simp only [State.rejoins, hr, settled, forced, dark forced, Bool.not_false, Bool.or_true, Bool.and_self]
  case true => simp only [State.rejoins, hr, settled, forced, Bool.true_or, Bool.and_self]

theorem exec_dieRejoin_next (v : Exchange) (meas : List (BitVec 512)) :
    exec (.dieRejoin d v meas) s =
      .next (if exchangeOk v false && s.inTime (s.attestSince (.cdie d)) && s.policyOk (s.attestSince (.cdie d)) 0 (measDigest meas)
        then (((s.rejoining d).intoService (.cdie d) (measDigest meas)).restoreKeys d).trainLinks d
        else (s.rejoining d).quarantine (.cdie d)) := by
  show execDieRejoin d v meas s = _
  simp only [execDieRejoin, State.rejoins_of_settled hr settled dark, Bool.not_true, Bool.false_eq_true, if_false]
  split <;> rfl

theorem exec_attestationTimeout_rejoin (quiet : s.attests (.cdie d) = false) (late : s.attestSince (.cdie d) + 2 ^ 28 ≤ s.icycles) :
    exec (.attestationTimeout (.chip (.cdie d))) s = .next ((s.rejoining d).quarantine (.cdie d)) := by
  have expired : (s.rejoins d && !s.inTime (s.attestSince (.cdie d))) = true := by
    simpa [State.inTime, State.rejoins_of_settled hr settled dark] using late
  show execAttestationTimeout (.chip (.cdie d)) s = _
  simp only [execAttestationTimeout, quiet, expired, Bool.false_and, Bool.false_eq_true, if_false, if_true]

end

/-! ## Package reset -/

/-- Without lines in the slices, a new map of the partitions changes them and the bytes, keys and poison of memory alone. -/
theorem State.remapTo_without_slices (s t : State) : ∃ mem lmeta poison, State.remapTo { s with slices := [] } t =
    { s with slices := [], parts := t.parts, mem := mem, lmeta := lmeta, poison := poison } := by
  unfold State.remapTo
  split
  · exact ⟨s.mem, s.lmeta, s.poison, rfl⟩
  · exact ⟨_, _, _, rfl⟩

/-- Settles O40, by the equation of each event; an exchange takes the case of its verdict. -/
theorem diesAttestAndReset : Obligations.DiesAttestAndReset := by
  unfold Obligations.DiesAttestAndReset
  refine ⟨?chip, ?peer, ?reset, ?rejoin, ?package⟩
  case chip =>
    intro c v meas s attests good
    refine ⟨fun passes => ?_, fun fails => ?_, exec_attestationTimeout_chip attests⟩
    · rw [exec_attestationComplete_chip attests, if_pos (verdict_iff.mpr passes)]
    · rw [exec_attestationComplete_chip attests, if_neg (mt verdict_iff.mp fails)]
  case peer =>
    intro i v meas s l hl peer attesting good
    refine ⟨fun passes => ?_, fun fails => ?_, exec_attestationTimeout_peer hl peer attesting⟩
    · rw [exec_attestationComplete_peer hl peer attesting, if_pos (verdict_iff.mpr passes)]
    · rw [exec_attestationComplete_peer hl peer attesting, if_neg (mt verdict_iff.mp fails)]
  case reset =>
    intro arg s d r die
    exact ⟨exec_dieresetOrderly_begin die, exec_dieresetOrderly_settle die, exec_dieresetForced_next die⟩
  case rejoin =>
    intro d v meas s r hr settled dark since u good
    have hu : s.rejoining d = u := State.rejoining_eq hr
    refine ⟨fun passes => ?_, fun fails => ?_, fun quiet late => ?_⟩
    · rw [exec_dieRejoin_next hr settled dark, if_pos (verdict_iff.mpr passes), hu]
    · rw [exec_dieRejoin_next hr settled dark, if_neg (mt verdict_iff.mp fails), hu]
    · rw [exec_attestationTimeout_rejoin hr settled dark quiet late, hu]
  case package =>
    intro s p
    obtain ⟨mem, lmeta, poison, remapped⟩ := s.remapTo_without_slices { s with parts := [] }
    show Host.Outcome.next s.resetPackage = _
    simp only [p, State.resetPackage, remapped]

end Sys2Proof.Machine
